-- ==== Sys2Proof/Word.lean ====
section
/-! DEFINITION. The words of the device (R3, R77, R81) and the plainest helpers on them: byte order is
little-endian everywhere, a 64-bit value held in registers is an even-odd pair with its low word first. -/

namespace Sys2Proof

/-- One byte of memory. -/
abbrev Byte := BitVec 8
/-- A 16-bit half of a packed operand. -/
abbrev Half := BitVec 16
/-- A 32-bit register. -/
abbrev Word := BitVec 32
/-- A 64-bit pair of registers. -/
abbrev DWord := BitVec 64

/-- Bits [31:0] of a pair, held in its even register. -/
abbrev DWord.lo (x : DWord) : Word := x.setWidth 32
/-- Bits [63:32] of a pair, held in its odd register. -/
abbrev DWord.hi (x : DWord) : Word := (x >>> 32).setWidth 32
/-- The pair whose even register is `l` and whose odd register is `h`. -/
abbrev Word.pair (l h : Word) : DWord := h ++ l

end Sys2Proof
end

