-- ==== Sys2Proof/Config.lean ====
section
/-! DEFINITION. What the part fixes (R8, R16) and what the manual leaves open. An open value is an opaque constant:
no proof can see what it is, so a statement about it holds whatever it is. -/

namespace Sys2Proof.Config

/-- Threads of a warp (R26). -/
abbrev warpThreads : Nat := 32
/-- Cores of the device (R8). -/
abbrev cores : Nat := 192
/-- Lanes of a core (R10). -/
abbrev lanes : Nat := 64
/-- Compute dies (R6). -/
abbrev dies : Nat := 4
/-- The longest run (R31). -/
abbrev maxRun : Nat := 24
/-- Bytes of a translation unit: the 64 KiB page (R254). -/
abbrev pageBytes : Nat := 65536
/-- Bytes of a saved block image, `%ctxsize` (R211). -/
abbrev ctxSize : Nat := 0x480000

/-- A value the manual leaves open, one for each use: `State.fresh` counts the uses. DESIGN CHOICE, safe (log 1). -/
opaque freeValue : Nat → BitVec 64
/-- `%tdst` of the trap of an instruction that names a port of another ASID through an operand that is no window (R340,
R383), by its reference word. DESIGN CHOICE, safe (log 1). -/
opaque portTrapDst : BitVec 32 → BitVec 32
/-- Whether the boot ROM finds the signature of an image good (R314): the key is not in the manual. UNVERIFIED, safe (log 2). -/
opaque signatureGood : List Byte → Bool
/-- Whether the boot ROM finds the format of an image good (R314): the format is not in the manual. UNVERIFIED, safe (log 2). -/
opaque imageFormatGood : List Byte → Bool
/-- The SHA-256 digest of a string (R314, R315), named and not computed here. UNVERIFIED, safe (log 2). -/
opaque sha256 : List Byte → BitVec 256
/-- The key hash fused in X0 (R314). UNVERIFIED, safe (log 2). -/
opaque fusedKeyHash : BitVec 256
/-- The general granule in which a register area lies while its block is resident (R54: not architectural), or the physical tile or
slot to which a name is mapped then. The arguments are the core, the cycle in which the block became resident, a number of the
area, and the granule, tile or slot within the area. UNVERIFIED, safe (log 3). -/
opaque areaGranule : Nat → Nat → Nat → Nat → Nat
/-- Whether request i of a channel counts under a kind of R265 that depends on its rows and refreshes, by CNTRD number and i.
DESIGN CHOICE, safe (log 1). -/
opaque rowEvent : Nat → Nat → Bool

/-- The public half of the device identity key (R315). UNVERIFIED, safe (log 2). -/
opaque identityKey : BitVec 3072
/-- The RSASSA-3072 signature with the private half over a SHA-256 digest (R315). UNVERIFIED, safe (log 2). -/
opaque identitySign : BitVec 256 → BitVec 3072

/-- Where the boot ROM places one system kernel (R210: device memory reserved for firmware, at places the manual
does not give): the 64 KiB pages, virtual and physical, at which its code, its data copy and its stack begin. -/
structure BootPlace where
  codePage  : BitVec 40
  dataPage  : BitVec 40
  stackPage : BitVec 40
  codePPN   : BitVec 36
  dataPPN   : BitVec 36
  stackPPN  : BitVec 36
  deriving DecidableEq, Repr, Inhabited

/-- The placement of system kernel 2·d + s. UNVERIFIED, safe (log 4). -/
opaque bootPlace : Nat → BootPlace
/-- The physical page of table n that the ROM makes: 0 the ASID table, 1 the level-3 table of ASID 0, and on as it maps the
kernels. UNVERIFIED, safe (log 4). -/
opaque bootTable : Nat → BitVec 36

end Sys2Proof.Config
end

