-- ==== Sys2Proof/Syntax.lean ====
section
/-! DEFINITION. The instructions, schedule words and events of the device: `Instr` has one constructor for each row of
spec/opcode_table.json. The first 173 are instruction words of the opcode map (R88), with WINQ and LNKCTL one
constructor for each OPER; the next nine are Floreal schedule words (R297); the rest are the device's own steps
and the outside world's (spec/95_what_each_step_holds.md), whose arguments say which unit acts and what arrives. -/

namespace Sys2Proof

/-- The guard field of an instruction (R79): always, or a predicate, negated under GN. -/
inductive Guard where
  | always
  | pred (p : BitVec 5) (neg : Bool)
  deriving DecidableEq, Repr

/-- What every instruction word carries besides its operands and family modifiers (R77): the guard, MOD[11] TAKE,
MOD[10] NF, HINT[7] B and HINT[6] S. -/
structure Hdr where
  guard : Guard
  take  : Bool
  nf    : Bool
  hb    : Bool
  hs    : Bool
  deriving DecidableEq, Repr

/-- An operand field, one constructor for each mode and kind of R83. -/
inductive Operand where
  | v     (i : BitVec 10)
  | s     (i : BitVec 8)
  | ind   (b : BitVec 10) (off : BitVec 7)
  | win   (w : BitVec 4) (k : BitVec 10)
  | imm   (x : BitVec 17)
  | sr    (n : BitVec 10)
  | p     (i : BitVec 5)
  | k     (i : BitVec 5)
  | g     (i : BitVec 5)
  | q     (i : BitVec 5)
  | tile  (i : BitVec 6)
  | slot  (i : BitVec 6)
  | shape (i : BitVec 6)
  deriving DecidableEq, Repr

/-- The RND codes of R81. -/
inductive Rnd where
  | rne | rtz | rup | rdn
  deriving DecidableEq, Repr

/-- The TYPE codes 0x0 to 0x8 of R81. -/
inductive Ty where
  | s32 | z32 | s64 | z64 | b32 | f32 | f16x2 | b16x2 | b64
  deriving DecidableEq, Repr

/-- The standard arithmetic layout of FAM (R81). -/
structure Arith where
  rnd  : Rnd
  ty   : Ty
  sat  : Bool
  nega : Bool
  negb : Bool
  abs  : Bool
  deriving DecidableEq, Repr

/-- The COND codes of FSETP and HSETP2 (R150). -/
inductive FCond where
  | eq | ne | lt | le | gt | ge | num | nan
  deriving DecidableEq, Repr

/-- The FAM layout of FSETP and HSETP2 (R150): the three bits of COND stand where RND and SAT do elsewhere. -/
structure FCmp where
  cond : FCond
  ty   : Ty
  nega : Bool
  negb : Bool
  abs  : Bool
  deriving DecidableEq, Repr

/-- MODE of SHFL (R130). -/
inductive ShflMode where
  | idx | seg | xor | ext
  deriving DecidableEq, Repr

/-- KIND and TEST of VOTE (R130). -/
inductive VoteKind where
  | mask | count | first | testAll | testAny | testSame | testNone
  deriving DecidableEq, Repr

/-- OPER of REDUX (R130). -/
inductive RedOper where
  | add | min | max | and | or | xor
  deriving DecidableEq, Repr

/-- SCOPE of an exported window (R63, R130). -/
inductive WScope where
  | thread | warp | block
  deriving DecidableEq, Repr

/-- The three vector float formats F2I and I2F name (R156). -/
inductive VFmt where
  | f32 | f16 | b16
  deriving DecidableEq, Repr

/-- The four integer types F2I and I2F name (R156). -/
inductive ITy where
  | s32 | z32 | s64 | z64
  deriving DecidableEq, Repr

/-- SIZE of loads and stores (R164). -/
inductive Size where
  | b8 | b16 | b32 | b64 | b128 | s8 | s16
  deriving DecidableEq, Repr

/-- The scopes of R163. -/
inductive Scope where
  | none | warp | blk | core | clu | dev | sys
  deriving DecidableEq, Repr

/-- ORD of an atomic (R169). -/
inductive AOrd where
  | relaxed | acq | rel | ar
  deriving DecidableEq, Repr

/-- OPER of an atomic (R169). -/
inductive AOper where
  | add | min | max | and | or | xor | xchg | cas | fadd | inc
  deriving DecidableEq, Repr

/-- KIND of a FENCE (R173). -/
inductive FenceKind where
  | ar | acq | rel
  deriving DecidableEq, Repr

/-- SIZE of CPY (R179). -/
inductive CpySize where
  | b32 | b64 | b128
  deriving DecidableEq, Repr

/-- The spaces of CPY (R179). -/
inductive Space where
  | glb | reg | win | acc | hst
  deriving DecidableEq, Repr

/-- GE and GSLOT of an engine command (R175). -/
structure EGuard where
  ge    : Bool
  gslot : BitVec 3
  deriving DecidableEq, Repr

/-- Timeline contexts (R191). -/
inductive Tctx where
  | copy | array | pull | pack | sched
  deriving DecidableEq, Repr

/-- A 16-bit or narrower operand row of an E8 scale byte index (QBLK `.bJ`, R156). -/
abbrev BlkIdx := BitVec 2

/-- A chunk field of a schedule word (R297): REL and the base. -/
inductive Rel where
  | abs | plus | minus
  deriving DecidableEq, Repr

structure ChunkRef where
  rel  : Rel
  base : BitVec 11
  deriving DecidableEq, Repr

/-- ROP of a work entry or a RED word (R288). -/
inductive Rop where
  | faddF32 | faddB16 | addS32 | minS32 | maxS32 | minF32 | maxF32
  deriving DecidableEq, Repr

/-- What the check code of one read finds (R368, R369): clean, corrected (a single-bit error, or a double-bit error
whose retry reads well), or lasting. The outside world supplies it with the step. -/
inductive Ecc where
  | clean | corrected | lasting
  deriving DecidableEq, Repr

/-- What the residue checks of one array command find (R377). -/
inductive Residue where
  | clean | transient | lasting (column : Nat) | stage | stageTransient
  deriving DecidableEq, Repr

/-- What one scrubber visit names (R369). -/
inductive ScrubTarget where
  | memory (pa : Nat)
  | vgran (wk t g : Nat)
  | sgran (wk g : Nat)
  | tileGran (bk g : Nat)
  | slotGran (bk g : Nat)
  /-- Granule g of the stack window of a warp. -/
  | stkGran (wk g : Nat)
  /-- A granule of a core that no F bit governs (R58). -/
  | other (core : Nat)
  /-- A word of the staging store of a schedule, in a chunk of a buffer (R396). -/
  | stage (sid buf chunk : Nat)
  deriving DecidableEq, Repr

/-- Whose packet a parity error in a data beat marks (R395): that of a lane's access, or the next one of an engine command, of a fabric port
or of a schedule; `none`, that of no unit modelled. -/
inductive Packet where
  | none
  | access (aid : Nat)
  | command (cid : Nat)
  | port (p : Nat)
  | schedule (sid : Nat)
  deriving DecidableEq, Repr

/-- What becomes of a UCIe flit with a CRC error (R393): a retry carries it over, or it fails, with the packet of the access in it if it holds one. -/
inductive FlitFate where
  | retried
  | failed (aid : Option Nat)
  deriving DecidableEq, Repr

/-- One entry of the system-kernel table of a firmware image (R210). -/
structure SysKernel where
  code   : List Byte
  data   : List Byte
  nv     : Nat
  ns     : Nat
  np     : Nat
  w      : Nat
  stklim : Nat
  init   : List Word
  deriving DecidableEq, Repr

/-- A firmware image (R210, R314): its bytes and the eight entries of its system-kernel table. -/
structure Firmware where
  raw     : List Byte
  kernels : List SysKernel
  deriving DecidableEq, Repr

/-- Instructions, schedule words and steps: one constructor for each row of the table. -/
inductive Instr where
  -- class 0x0, integer arithmetic (R120)
  | iadd (h : Hdr) (m : Arith) (d a b : Operand)
  | isub (h : Hdr) (m : Arith) (d a b : Operand)
  | iadc (h : Hdr) (m : Arith) (d a b : Operand)
  | imul (h : Hdr) (m : Arith) (d a b : Operand)
  | imulh (h : Hdr) (m : Arith) (d a b : Operand)
  | imad (h : Hdr) (m : Arith) (d a b : Operand)
  | imadw (h : Hdr) (m : Arith) (d a b : Operand)
  | idiv (h : Hdr) (m : Arith) (d a b : Operand)
  | irem (h : Hdr) (m : Arith) (d a b : Operand)
  | imin (h : Hdr) (m : Arith) (d a b : Operand)
  | imax (h : Hdr) (m : Arith) (d a b : Operand)
  | iabs (h : Hdr) (m : Arith) (d a : Operand)
  | ineg (h : Hdr) (m : Arith) (d a : Operand)
  | lea (h : Hdr) (m : Arith) (d a b : Operand)
  | idot4 (h : Hdr) (m : Arith) (d a b : Operand)
  | isad (h : Hdr) (m : Arith) (d a b : Operand)
  -- class 0x1, logic, shift and bit (R124)
  | land (h : Hdr) (m : Arith) (d a b : Operand)
  | lor (h : Hdr) (m : Arith) (d a b : Operand)
  | lxor (h : Hdr) (m : Arith) (d a b : Operand)
  | andn (h : Hdr) (m : Arith) (d a b : Operand)
  | lnot (h : Hdr) (m : Arith) (d a : Operand)
  | lop3 (h : Hdr) (m : Arith) (d a b : Operand)
  | shl (h : Hdr) (m : Arith) (d a b : Operand)
  | shr (h : Hdr) (m : Arith) (d a b : Operand)
  | sar (h : Hdr) (m : Arith) (d a b : Operand)
  | rol (h : Hdr) (m : Arith) (d a b : Operand)
  | fshl (h : Hdr) (m : Arith) (d a b : Operand)
  | bfe (h : Hdr) (m : Arith) (d a b : Operand)
  | bfi (h : Hdr) (m : Arith) (d a b : Operand)
  | popc (h : Hdr) (m : Arith) (d a : Operand)
  | clz (h : Hdr) (m : Arith) (d a : Operand)
  | ctz (h : Hdr) (m : Arith) (d a : Operand)
  | brev (h : Hdr) (m : Arith) (d a : Operand)
  | prmt (h : Hdr) (m : Arith) (d a b : Operand)
  -- class 0x2, move and register space (R130)
  | mov (h : Hdr) (d a : Operand)
  | movi (h : Hdr) (d : Operand) (c : Word)
  | mov64 (h : Hdr) (hnd : Bool) (d a : Operand)
  | movx (h : Hdr) (sp : Bool) (d a b : Operand)
  | stx (h : Hdr) (sp : Bool) (d a b : Operand)
  | shfl (h : Hdr) (mode : ShflMode) (d a b : Operand)
  | bcast (h : Hdr) (d a b : Operand)
  | vote (h : Hdr) (kind : VoteKind) (d a : Operand)
  | redux (h : Hdr) (ty : Ty) (oper : RedOper) (d a : Operand)
  | expw (h : Hdr) (scope : WScope) (group : BitVec 8) (d a b : Operand)
  | revw (h : Hdr) (d : Operand)
  | bindw (h : Hdr) (d a : Operand)
  | setf (h : Hdr) (d : Operand)
  | clrf (h : Hdr) (d : Operand)
  | testf (h : Hdr) (d a : Operand)
  | frame (h : Hdr) (d a : Operand)
  | unframe (h : Hdr) (d a : Operand)
  -- class 0x3, compare and select (R128, R129)
  | isetp (h : Hdr) (ty : Ty) (rel : BitVec 4) (d a b : Operand)
  | iset (h : Hdr) (ty : Ty) (rel : BitVec 4) (d a b : Operand)
  | sel (h : Hdr) (ty : Ty) (d a b : Operand)
  | psetp (h : Hdr) (ty : Ty) (tt : BitVec 4) (d a b : Operand)
  | p2v (h : Hdr) (ty : Ty) (d : Operand)
  | v2p (h : Hdr) (ty : Ty) (a b : Operand)
  -- class 0x4, F32 (R146)
  | fadd (h : Hdr) (m : Arith) (d a b : Operand)
  | fsub (h : Hdr) (m : Arith) (d a b : Operand)
  | fmul (h : Hdr) (m : Arith) (d a b : Operand)
  | ffma (h : Hdr) (m : Arith) (d a b : Operand)
  | fmin (h : Hdr) (m : Arith) (d a b : Operand)
  | fmax (h : Hdr) (m : Arith) (d a b : Operand)
  | fminm (h : Hdr) (m : Arith) (d a b : Operand)
  | fmaxm (h : Hdr) (m : Arith) (d a b : Operand)
  | fsetp (h : Hdr) (m : FCmp) (d a b : Operand)
  | fclass (h : Hdr) (m : Arith) (d a : Operand)
  | frnd (h : Hdr) (m : Arith) (d a : Operand)
  | ffrc (h : Hdr) (m : Arith) (d a : Operand)
  | fscale (h : Hdr) (m : Arith) (d a b : Operand)
  | fgetexp (h : Hdr) (m : Arith) (d a : Operand)
  | fdiv (h : Hdr) (m : Arith) (d a b : Operand)
  | fsqrt (h : Hdr) (m : Arith) (d a : Operand)
  | frcp (h : Hdr) (m : Arith) (d a : Operand)
  | frsq (h : Hdr) (m : Arith) (d a : Operand)
  | fexp2 (h : Hdr) (m : Arith) (d a : Operand)
  | flog2 (h : Hdr) (m : Arith) (d a : Operand)
  | fsinpi (h : Hdr) (m : Arith) (d a : Operand)
  | fcospi (h : Hdr) (m : Arith) (d a : Operand)
  | ftanh (h : Hdr) (m : Arith) (d a : Operand)
  -- class 0x5, packed F16 and B16 (R154)
  | hadd2 (h : Hdr) (m : Arith) (d a b : Operand)
  | hmul2 (h : Hdr) (m : Arith) (d a b : Operand)
  | hfma2 (h : Hdr) (m : Arith) (d a b : Operand)
  | hmin2 (h : Hdr) (m : Arith) (d a b : Operand)
  | hmax2 (h : Hdr) (m : Arith) (d a b : Operand)
  | hsetp2 (h : Hdr) (m : FCmp) (d a b : Operand)
  -- class 0x6, conversion (R156)
  | fcvt (h : Hdr) (rnd : Rnd) (dirFrom : Bool) (slot : BitVec 3) (d a : Operand)
  | f2i (h : Hdr) (rnd : Rnd) (dt : ITy) (sf : VFmt) (d a : Operand)
  | i2f (h : Hdr) (rnd : Rnd) (df : VFmt) (st : ITy) (d a : Operand)
  | fpack (h : Hdr) (rnd : Rnd) (slot : BitVec 3) (d a b : Operand)
  | funpack (h : Hdr) (slot : BitVec 3) (d a b : Operand)
  | qblk (h : Hdr) (j : BlkIdx) (slot : BitVec 3) (d a : Operand)
  -- class 0x7, loads and stores (R164)
  | ld (h : Hdr) (size : Size) (d a b : Operand)
  | st (h : Hdr) (size : Size) (d a b : Operand)
  | lda (h : Hdr) (scope : Scope) (size : Size) (d a b : Operand)
  | stl (h : Hdr) (scope : Scope) (size : Size) (d a b : Operand)
  -- class 0x8, atomics and fences (R169, R173)
  | atom (h : Hdr) (ord : AOrd) (ty : Ty) (oper : AOper) (d a b : Operand)
  | red (h : Hdr) (ord : AOrd) (ty : Ty) (oper : AOper) (a b : Operand)
  | fence (h : Hdr) (scope : Scope) (kind : FenceKind)
  -- class 0x9, asynchronous copy and pull (R179 to R190)
  | cpy (h : Hdr) (size : CpySize) (dsp ssp : Space) (d a b : Operand)
  | cpym (h : Hdr) (g : EGuard) (d a : Operand)
  | tcopy (h : Hdr) (st kvm : Bool) (g : EGuard) (d a b : Operand)
  | tsld (h : Hdr) (g : EGuard) (d a b : Operand)
  | tsev (h : Hdr) (g : EGuard) (d : Operand)
  | kick (h : Hdr) (a b : Operand)
  | kwait (h : Hdr) (tag : Bool) (d a : Operand)
  | pull (h : Hdr) (ack : Bool) (g : EGuard) (d a : Operand)
  | ack (h : Hdr) (a : Operand)
  -- class 0xA, synchronisation and timelines (R192 to R202)
  | tlrd (h : Hdr) (c : Tctx) (d a : Operand)
  | tltag (h : Hdr) (c : Tctx) (d a : Operand)
  | tlwait (h : Hdr) (c : Tctx) (scope : Scope) (a b : Operand)
  | bar (h : Hdr) (cnt : Bool) (a b : Operand)
  | gbar (h : Hdr) (a : Operand)
  | abinit (h : Hdr) (d a : Operand)
  | abexp (h : Hdr) (d a : Operand)
  | abarv (h : Hdr) (d a : Operand)
  | abwait (h : Hdr) (a b : Operand)
  | kdecl (h : Hdr) (block : Bool) (d a : Operand)
  | sign (h : Hdr) (a : Operand)
  | rconv (h : Hdr) (d a b : Operand)
  | gres (h : Hdr) (d a : Operand)
  | gclr (h : Hdr) (d : Operand)
  | yield (h : Hdr)
  | sleep (h : Hdr) (a : Operand)
  -- class 0xB, control (R203)
  | bra (h : Hdr) (cnt : Bool) (d : Operand) (off : BitVec 34)
  | brx (h : Hdr) (a : Operand)
  | call (h : Hdr) (off : BitVec 34)
  | callx (h : Hdr) (a : Operand)
  | ret (h : Hdr)
  | exit (h : Hdr)
  | trap (h : Hdr) (a : Operand)
  | tret (h : Hdr)
  | sysc (h : Hdr) (d a b : Operand)
  | nop (h : Hdr)
  | setpat (h : Hdr) (a : Operand)
  -- class 0xC, matrix, attention, ladder (R221)
  | mma (h : Hdr) (gsel : BitVec 3) (kreg : BitVec 4) (slot : BitVec 3) (d a b : Operand)
  | wld (h : Hdr) (gsel : BitVec 3) (nsm1 : BitVec 6) (d a b : Operand)
  | aclr (h : Hdr) (gsel : BitVec 3) (st : Bool) (d : Operand)
  | ald (h : Hdr) (gsel : BitVec 3) (reg : Bool) (d a b : Operand)
  | asto (h : Hdr) (gsel : BitVec 3) (rnd : Rnd) (int : Bool) (slot : BitVec 3) (d a : Operand)
  | att (h : Hdr) (gsel : BitVec 3) (kreg : BitVec 4) (slot : BitVec 3) (d a b : Operand)
  | attfin (h : Hdr) (gsel : BitVec 3) (kreg : BitVec 4) (d a : Operand)
  | ladinit (h : Hdr) (gsel : BitVec 3) (kreg : BitVec 4) (d a b : Operand)
  | ladpush (h : Hdr) (gsel : BitVec 3) (kreg : BitVec 4) (d a : Operand)
  | ladread (h : Hdr) (gsel : BitVec 3) (kreg : BitVec 4) (d a b : Operand)
  | ladld (h : Hdr) (gsel : BitVec 3) (kreg : BitVec 4) (d a b : Operand)
  -- class 0xD, collective triggers and schedules (R292)
  | wqpost (h : Hdr) (a b : Operand)
  | tarm (h : Hdr) (time : Bool) (cidx : BitVec 8) (a b : Operand)
  | cntadd (h : Hdr) (aft set : Bool) (d a b : Operand)
  | sched (h : Hdr) (a : Operand)
  -- class 0xE, system (R209)
  | mfsr (h : Hdr) (d a : Operand)
  | mtsr (h : Hdr) (d a : Operand)
  | eret (h : Hdr) (a b : Operand)
  | halt (h : Hdr)
  | tlbfls (h : Hdr) (a : Operand)
  | tldrain (h : Hdr)
  | fbrd (h : Hdr) (d a : Operand)
  | fbpop (h : Hdr)
  | replay (h : Hdr)
  | winqPush (h : Hdr) (a : Operand)
  | winqPop (h : Hdr) (d : Operand)
  | ctxsv (h : Hdr) (a b : Operand)
  | ctxld (h : Hdr) (a b : Operand)
  | lnkctlStat (h : Hdr) (d a b : Operand)
  | lnkctlPause (h : Hdr) (a b : Operand)
  | lnkctlResume (h : Hdr) (a b : Operand)
  | lnkctlRemap (h : Hdr) (a b : Operand)
  | lnkctlTrain (h : Hdr) (a b : Operand)
  | lnkctlHalf (h : Hdr) (a b : Operand)
  -- class 0xF, debug and performance (R218)
  | bkpt (h : Hdr) (a : Operand)
  | sstep (h : Hdr) (a : Operand)
  | trcmk (h : Hdr) (a : Operand)
  | cntrd (h : Hdr) (d a : Operand)
  -- Floreal schedule words (R297, R298); they act for the schedule in focus
  | florealNop
  | florealSend (port : BitVec 5) (c : ChunkRef) (buf : BitVec 8) (tmo : BitVec 16)
  | florealRecv (port : BitVec 5) (c : ChunkRef) (buf : BitVec 8) (tmo : BitVec 16)
  | florealRed (port : BitVec 5) (c : ChunkRef) (buf : BitVec 8) (tmo : BitVec 16) (fwd : BitVec 5) (rop : Rop)
  | florealCopy (dst : ChunkRef) (dbuf : BitVec 8) (src : ChunkRef) (sbuf : BitVec 8)
  | florealWait (port : BitVec 5) (time : Bool) (idx : BitVec 8) (operand : Word)
  | florealSignal (port : BitVec 5) (peer : Bool) (idx : BitVec 8) (operand : Word)
  | florealLoop (count : BitVec 16) (target : BitVec 13)
  | florealEnd
  -- steps of the cores and their engines
  | runStart (core lane : Nat)
  | trapDeliver (wk : Nat)
  | jointRoundClose (bk k : Nat)
  | releaseTakesEffect (wk t : Nat)
  | sleepExpiry (wk t : Nat)
  | rconvTimeout (wk t : Nat)
  | revwComplete (wk : Nat)
  | guardDiscard (cid : Nat)
  | copyCmdAccept (cid : Nat)
  | engineMemResponse (cid : Nat) (ecc : Ecc)
  | engineLanding (cid : Nat)
  | copyCmdRetire (cid : Nat)
  | stackSpillFill (wk : Nat)
  | cntaddAftApply (wk : Nat)
  | arrayCmdStart (cid : Nat) (res : Residue)
  | arraySrcConsumed (cid : Nat)
  | arrayCmdEnd (cid : Nat)
  | arrayCmdRetire (cid : Nat)
  | multicastLanding (cid : Nat)
  | kickNoticeArrive (core : Nat)
  | remoteReadServe (cid : Nat) (ecc : Ecc)
  | ackArrive (wk : Nat)
  -- steps of memory and translation
  | loadDataLand (iid t : Nat)
  | walkComplete (aid : Nat)
  | faultPresent (die : Nat)
  | sideLogEnter (wk : Nat)
  | sliceRequestServe (aid : Nat) (ecc : Ecc)
  | mnqOvfRetry
  | qcntAdvance
  | scrubVisit (target : ScrubTarget) (ecc : Ecc)
  | tldrainComplete (die slot : Nat)
  | winqPopComplete (die slot : Nat)
  | ctxsvComplete (die slot : Nat)
  | ctxldComplete (die slot : Nat)
  -- debug, residency, dispatch, launches, fabric ports and links
  | warpStop (wk : Nat)
  | mboxDeviceEntry (die : Nat)
  | traceCounterLimit (die : Nat)
  | quantumExpiry (core : Nat)
  | blockAssign (lid : Nat)
  | blockRetire (core btag : Nat)
  | dispatchTakeCommand
  | launchComplete (lid : Nat)
  | timeTriggerFire (port : Nat)
  | schedStart (sid : Nat)
  | florealWaitTimeExpiry (sid : Nat)
  | florealStepTimeout (sid : Nat)
  | linkPauseComplete (die slot : Nat)
  | linkRemapComplete (die slot : Nat)
  -- reads and writes of system registers that do something
  | sysreqRead (die slot : Nat)
  | mnqRead
  | mboxRead (die : Nat)
  | chdataWrite (x : Word)
  | mclrWrite (x : Word)
  | quantumWrite (die : Nat) (x : Word)
  | fpownWrite (port : Nat) (x : Word)
  | dbgdatWrite (die : Nat) (x : Word)
  | dbgStop (die : Nat)
  | dbgRun (die : Nat)
  | dbgStopBlock (die : Nat)
  | dbgRunBlock (die : Nat)
  | dbgStopnow (die : Nat)
  | registerWrite (die slot : Nat) (n : BitVec 10) (x : DWord)
  -- the host's doorbell
  | doorbellWrite (q : Nat) (tail : Word)
  -- what the fabric brings
  | remoteWriteArrive (port : Nat) (rva : DWord) (rop : Option Rop) (data : List Byte) (rc : Option (BitVec 8))
  | schedSignalArrive (port : Nat) (idx : BitVec 8) (addend : Word)
  | entryComplete (port idx : Nat) (err : BitVec 8)
  | chunkArrive (port sid : Nat) (fmt : BitVec 2) (data : List Byte)
  | fabricTimeExchange (port : Nat) (peerTime : DWord)
  -- links, the network, power
  | linkTrainComplete (die slot : Nat) (badLanes : Nat) (peerDev : BitVec 8) (peerPort : BitVec 4) (peerTime : DWord)
  | fabricFlitCrcError (port : Nat) (retryOk : Bool)
  | ucieFlitCrcError (module : Nat) (fate : FlitFate)
  | nocFlitCrcError (retryOk downward : Bool) (hop : Nat)
  | switchParityError (control : Bool) (packet : Packet)
  | thermidorTick (pwr ptemp : Nat)
  | thermalEmergency (ptemp : Nat) (alarm : Bool)
  | coolantFlowLost
  | thermalTrip (ptemp : Nat)
  -- the host
  | hostMemRead (pa n : Nat) (ecc : Ecc)
  | hostMemWrite (pa : Nat) (data : List Byte)
  | hostMboxWrite (die : Nat) (x : DWord)
  | mboxOvrClear (die : Nat) (x : DWord)
  | powerOnBoot (image : Option Firmware)
  | recoveryStart (image : Firmware)
  | deviceReset
  | spdmGetVersion
  | spdmGetCapabilities
  | spdmNegotiateAlgorithms
  | spdmGetCertificate
  | spdmChallenge
  | spdmGetMeasurements
  | coolantFlowReturn
  | fabricLinkDown (port : Nat)
  | farEndBufferSpace (port bytes : Nat)
  | dispatcherTableError
  deriving DecidableEq, Repr

end Sys2Proof
end

