-- ==== Sys2Proof/WellFormed.lean ====
section
/-! DEFINITION. Which instruction words are legal (R80 to R91 and the field tables of the entries). `Instr.sig` says for
each instruction its opcode, its operand fields with the modes each accepts, how many registers each names and whether it
is read or written, and whether its modifiers are legal; `Instr.legal` is the check of R91. -/

namespace Sys2Proof

/-- Operand mode masks: v 1, s 2, indirect 4, window 8, immediate 16, special register 32, p 64, k 128, g 256, q 512,
tile 1024, weight slot 2048, shape slot 4096 (R83). -/
def Operand.modeBit : Operand → Nat
  | .v _ => 1 | .s _ => 2 | .ind _ _ => 4 | .win _ _ => 8 | .imm _ => 16 | .sr _ => 32
  | .p _ => 64 | .k _ => 128 | .g _ => 256 | .q _ => 512 | .tile _ => 1024 | .slot _ => 2048 | .shape _ => 4096

/-- A register source (R81): modes 000 to 011. -/
def Operand.isReg (x : Operand) : Bool := x.modeBit ≤ 8

/-- One operand field of an instruction: its operand, the modes it accepts, the consecutive registers it names, the
multiple a direct index must be, whether it is read as a value and whether it is written. -/
structure OpS where
  x     : Operand
  modes : Nat
  regs  : Nat
  align : Nat
  rd    : Bool
  wr    : Bool
  deriving DecidableEq, Repr

/-- What the encoding of an instruction fixes. -/
structure Sig where
  /-- OP of R88. -/
  op   : Nat
  d    : Option OpS
  a    : Option OpS
  b    : Option OpS
  /-- The modifiers are legal (R80, R81 and the entry). -/
  ok   : Bool
  /-- Acts once for the warp, with operands of the lowest active thread (R209, R218, R292 and the entries). -/
  once : Bool
  deriving DecidableEq, Repr

/-- DST and REG of R116. -/
abbrev mDst : Nat := 15
/-- SRC of R116. -/
abbrev mSrc : Nat := 575
/-- SRC for an operand of 64-bit type (R116). -/
abbrev mSrc64 : Nat := 63

def dstS (x : Operand) (n : Nat := 1) (modes : Nat := mDst) : Option OpS := some ⟨x, modes, n, n, false, true⟩
def rmwS (x : Operand) (n : Nat := 1) (modes : Nat := mDst) : Option OpS := some ⟨x, modes, n, n, true, true⟩
/-- A value source of one register or a pair. -/
def srcS (x : Operand) (n : Nat := 1) : Option OpS := some ⟨x, if n = 1 then mSrc else mSrc64, n, n, true, false⟩
/-- A source with the modes given. -/
def srcM (x : Operand) (modes : Nat) (n : Nat := 1) (al : Nat := n) : Option OpS := some ⟨x, modes, n, al, true, false⟩
/-- An operand that is named, neither read nor written as a register value by the lane. -/
def namS (x : Operand) (modes : Nat) (n : Nat := 1) (al : Nat := n) : Option OpS := some ⟨x, modes, n, al, false, false⟩
/-- The address pair of R162. -/
def memS (x : Operand) : Option OpS := some ⟨x, 3, 2, 2, true, false⟩
/-- A handle slot: mode 011 with offset register field zero; it names no register. -/
def hndS (x : Operand) : Option OpS := some ⟨x, 8, 0, 1, false, false⟩

def Ty.regs : Ty → Nat
  | .s64 | .z64 | .b64 => 2
  | _ => 1

def Operand.hndOk : Operand → Bool
  | .win _ r => r == 0
  | _ => false

/-- The 17-bit payload of an immediate, 0 elsewhere. -/
def Operand.payload : Operand → BitVec 17
  | .imm x => x
  | _ => 0

/-- An immediate payload in lo to hi, read unsigned. -/
def Operand.immIn (x : Operand) (lo hi : Nat) : Bool :=
  match x with
  | .imm y => lo ≤ y.toNat && y.toNat ≤ hi
  | _ => true

/-- Payload bit 16 of an immediate is zero (R85, packed and 16-bit types). -/
def Operand.half (x : Operand) : Bool := x.immIn 0 0xFFFF

/-- The modifier check of the standard arithmetic layout (R81): the types, then whether RND, SAT, NEGA, NEGB and ABS may
be set, with NEGA and ABS only on a register A and NEGB only on a register B. -/
def Arith.okFor (m : Arith) (tys : List Ty) (rnd sat na nb ab : Bool) (a b : Operand) : Bool :=
  tys.contains m.ty && (m.rnd == .rne || rnd) && (!m.sat || sat) && (!m.nega || (na && a.isReg)) &&
  (!m.negb || (nb && b.isReg)) && (!m.abs || (ab && a.isReg))

/-- Integer SAT is legal only with `.s32` and `.z32` (R117). -/
def Arith.satInt (m : Arith) : Bool := !m.sat || m.ty == .s32 || m.ty == .z32

def FCmp.okFor (m : FCmp) (tys : List Ty) (a b : Operand) : Bool :=
  tys.contains m.ty && (!m.nega || a.isReg) && (!m.negb || b.isReg) && (!m.abs || a.isReg)

abbrev tAll : List Ty := [.s32, .z32, .b32, .s64, .z64, .b64]
abbrev tSZ : List Ty := [.s32, .z32, .s64, .z64]
abbrev tBits : List Ty := [.b32, .b64]
abbrev tPk : List Ty := [.f16x2, .b16x2]

/-- The operand named by `.v 0` where a field is unused: its encoding is 0x0_0000 (R84). -/
def unusedOk (x : Operand) : Bool := x == .v 0

def Size.bytes : Size → Nat
  | .b8 | .s8 => 1 | .b16 | .s16 => 2 | .b32 => 4 | .b64 => 8 | .b128 => 16
def Size.regs : Size → Nat
  | .b64 => 2 | .b128 => 4 | _ => 1
def CpySize.bytes : CpySize → Nat
  | .b32 => 4 | .b64 => 8 | .b128 => 16

/-- Types each atomic operation accepts (R169). -/
def AOper.types : AOper → List Ty
  | .add => tAll | .min | .max => tSZ | .and | .or | .xor | .xchg | .cas => tBits
  | .fadd => [.f32] | .inc => [.z32, .z64]

/-- Operand B of an atomic (R169). -/
def atomB (ty : Ty) (oper : AOper) (b : Operand) : Option OpS :=
  if oper = .cas then srcM b mDst (2 * ty.regs) else srcS b ty.regs

/-- A copy operand in its space (R179); `st` marks a destination. -/
def cpySide (sp : Space) (n : Nat) (x : Operand) (st : Bool) : Option OpS :=
  match sp with
  | .glb | .hst => srcM x 3 2
  | .reg => some ⟨x, 5, n / 4, n / 4, false, false⟩
  | .win => if st then namS x 0 else srcM x 1 4
  | .acc => srcM x 7

/-- Numbers of the 64-bit special and system registers, the even ones (R87, R211, R266, R320). -/
def sr64 (n : Nat) : Bool :=
  [0x010, 0x012, 0x014, 0x016, 0x202, 0x204, 0x240, 0x242, 0x246, 0x24C, 0x2C6, 0x2C8, 0x2CC, 0x2D0, 0x2D4, 0x2E2, 0x2E6].contains n

/-- Numbers below 0x200 that R87 lists. -/
def srUser (n : Nat) : Bool := n ≤ 0xA || (0x10 ≤ n && n ≤ 0x1D) || n == 0x20 || n == 0x21

/-- System registers that R211, R266, R309 and R320 list, odd halves included. -/
def srSys (n : Nat) : Bool :=
  (0x200 ≤ n && n ≤ 0x206) || (0x208 ≤ n && n ≤ 0x20A) || (0x240 ≤ n && n ≤ 0x24D) ||
  (0x280 ≤ n && n ≤ 0x29F) || (0x2A0 ≤ n && n ≤ 0x2A6) || (0x2C0 ≤ n && n ≤ 0x2C4) ||
  (0x2C6 ≤ n && n ≤ 0x2D7 && n != 0x2CB && n != 0x2CF && n != 0x2D3 && n != 0x2D7) ||
  (0x2D8 ≤ n && n ≤ 0x2E0) || (0x2E2 ≤ n && n ≤ 0x2E7)

/-- Registers whose MFSR has a side effect (R211). -/
def srSide (n : Nat) : Bool := n == 0x202 || n == 0x203 || n == 0x246 || n == 0x247 || n == 0x2E6 || n == 0x2E7

/-- System registers that MTSR may write, `%quantum` among them (R211, R266, R309, R320). -/
def srWritable (n : Nat) : Bool :=
  [0x01D, 0x201, 0x240, 0x244, 0x245, 0x249, 0x24A, 0x24B, 0x2A0, 0x2A1, 0x2A2, 0x2A3, 0x2C0, 0x2C1, 0x2C3, 0x2C4,
   0x2C8, 0x2CA, 0x2CC, 0x2CE, 0x2D0, 0x2D2, 0x2D4, 0x2D6, 0x2D8, 0x2D9, 0x2DA, 0x2DB, 0x2DC, 0x2DD, 0x2DE, 0x2DF,
   0x2E0, 0x2E2, 0x2E4].contains n || (0x280 ≤ n && n ≤ 0x29F && n % 2 == 0)

/-- Special registers of thread scope (R27, R75, R141, R340); every other one is of warp scope. -/
def srThread (n : Nat) : Bool := [0x000, 0x001, 0x00A, 0x019, 0x020, 0x021].contains n

/-- A special register as a value source (R87, R116, R211): listed, whole through its even number for a 64-bit
operand, and with no read side effect. -/
def srSrcOk (n : Nat) (regs : Nat) : Bool :=
  (srUser n || srSys n) && !srSide n && (regs == 1 || sr64 n)

def Operand.srNum : Operand → Nat
  | .sr n => n.toNat
  | _ => 0

/-- Small checks a field makes of its operand alone: index ranges of the small registers, the multiple of a direct
index, and special register numbers (R83, R91). -/
def OpS.legal (o : OpS) : Bool :=
  (o.modes &&& o.x.modeBit != 0) &&
  (match o.x with
   | .v i => i.toNat % o.align == 0
   | .s i => i.toNat % o.align == 0
   | .ind _ _ => true
   | .win _ _ => true
   | .imm _ => true
   | .sr n => !o.rd || o.wr || srSrcOk n.toNat o.regs
   | .p i => i.toNat ≤ 23
   | .k i => i.toNat ≤ 15
   | .g i => i.toNat ≤ 7
   | .q i => i.toNat ≤ 7
   | .tile _ => true
   | .slot _ => true
   | .shape i => i.toNat ≤ 31)

/-- Integer three-field form. -/
def aluS (op : Nat) (d a b : Option OpS) (ok : Bool) : Sig := ⟨op, d, a, b, ok, false⟩

/-- Engine commands and other instructions that act once for the warp. -/
def onceS (op : Nat) (d a b : Option OpS) (ok : Bool := true) : Sig := ⟨op, d, a, b, ok, true⟩

/-- Two-input and one-input forms over the standard layout. -/
def int3 (op : Nat) (m : Arith) (tys : List Ty) (sat na nb : Bool) (d a b : Operand) : Sig :=
  aluS op (dstS d m.ty.regs) (srcS a m.ty.regs) (srcS b m.ty.regs) (m.okFor tys false sat na nb false a b && m.satInt)
def int2 (op : Nat) (m : Arith) (tys : List Ty) (sat : Bool) (d a : Operand) : Sig :=
  aluS op (dstS d m.ty.regs) (srcS a m.ty.regs) none (m.okFor tys false sat false false false a (.v 0) && (!m.sat || m.ty == .s32))
def shf (op : Nat) (m : Arith) (d a b : Operand) : Sig :=
  aluS op (dstS d m.ty.regs) (srcS a m.ty.regs) (srcS b) (m.okFor tBits false false false false false a b)
def bit2 (op : Nat) (m : Arith) (n : Nat) (d a : Operand) : Sig :=
  aluS op (dstS d n) (srcS a m.ty.regs) none (m.okFor tBits false false false false false a (.v 0))
def flt3 (op : Nat) (m : Arith) (rnd sat : Bool) (d a b : Operand) : Sig :=
  aluS op (dstS d) (srcS a) (srcS b) (m.okFor [.f32] rnd sat true true true a b)
def flt2 (op : Nat) (m : Arith) (rnd neg ab : Bool) (d a : Operand) : Sig :=
  aluS op (dstS d) (srcS a) none (m.okFor [.f32] rnd false neg false ab a (.v 0))
def hlf3 (op : Nat) (m : Arith) (rnd sat : Bool) (d a b : Operand) : Sig :=
  aluS op (dstS d) (srcS a) (srcS b) (m.okFor tPk rnd sat true true true a b && a.half && b.half)

/-- The signature of an instruction; `none` for the schedule words and the steps, which are no instruction words. -/
def Instr.sig : Instr → Option Sig
  | .iadd _ m d a b => some (int3 0x001 m tAll true true true d a b)
  | .isub _ m d a b => some (int3 0x002 m tAll true true true d a b)
  | .iadc _ m d a b => some (aluS 0x003 (rmwS d 2) (srcS a) (srcS b) (m.okFor [.z32, .b32] false false false false false a b))
  | .imul _ m d a b => some (int3 0x004 m tAll true false false d a b)
  | .imulh _ m d a b => some (int3 0x005 m tSZ false false false d a b)
  | .imad _ m d a b => some (aluS 0x006 (rmwS d m.ty.regs) (srcS a m.ty.regs) (srcS b m.ty.regs)
      (m.okFor tAll false true true true false a b && m.satInt))
  | .imadw _ m d a b => some (aluS 0x007 (rmwS d 2) (srcS a) (srcS b) (m.okFor [.s32, .z32] false false false false false a b))
  | .idiv _ m d a b => some (int3 0x008 m tSZ false false false d a b)
  | .irem _ m d a b => some (int3 0x009 m tSZ false false false d a b)
  | .imin _ m d a b => some (int3 0x00A m tSZ false false false d a b)
  | .imax _ m d a b => some (int3 0x00B m tSZ false false false d a b)
  | .iabs _ m d a => some (int2 0x00C m [.s32, .s64] true d a)
  | .ineg _ m d a => some (int2 0x00D m [.s32, .s64, .b32, .b64] true d a)
  | .lea _ m d a b => some (aluS 0x00E (rmwS d 2) (srcS a) (srcS b) (m.okFor [.s32, .z32] false false false false false a b))
  | .idot4 _ m d a b => some (aluS 0x00F (rmwS d) (srcS a) (srcS b) (m.okFor [.s32, .z32] false true false false false a b))
  | .isad _ m d a b => some (aluS 0x010 (rmwS d) (srcS a) (srcS b) (m.okFor [.s32, .z32] false true false false false a b))
  | .land _ m d a b => some (int3 0x041 m tBits false false false d a b)
  | .lor _ m d a b => some (int3 0x042 m tBits false false false d a b)
  | .lxor _ m d a b => some (int3 0x043 m tBits false false false d a b)
  | .andn _ m d a b => some (int3 0x044 m tBits false false false d a b)
  | .lnot _ m d a => some (bit2 0x045 m m.ty.regs d a)
  | .lop3 _ m d a b => some (aluS 0x046 (rmwS d) (srcM a mDst 2) (namS b 16) (m.okFor [.b32] false false false false false a b))
  | .shl _ m d a b => some (shf 0x047 m d a b)
  | .shr _ m d a b => some (shf 0x048 m d a b)
  | .sar _ m d a b => some (shf 0x049 m d a b)
  | .rol _ m d a b => some (shf 0x04A m d a b)
  | .fshl _ m d a b => some (aluS 0x04B (rmwS d) (srcS a) (srcS b) (m.okFor [.b32] false false false false false a b))
  | .bfe _ m d a b => some (aluS 0x04C (dstS d m.ty.regs) (srcS a m.ty.regs) (srcS b) (m.okFor tSZ false false false false false a b))
  | .bfi _ m d a b => some (aluS 0x04D (rmwS d m.ty.regs) (srcS a m.ty.regs) (srcS b) (m.okFor tBits false false false false false a b))
  | .popc _ m d a => some (bit2 0x04E m 1 d a)
  | .clz _ m d a => some (bit2 0x04F m 1 d a)
  | .ctz _ m d a => some (bit2 0x050 m 1 d a)
  | .brev _ m d a => some (bit2 0x051 m m.ty.regs d a)
  | .prmt _ m d a b => some (aluS 0x052 (rmwS d) (srcS a) (srcS b) (m.okFor [.b32] false false false false false a b))
  | .mov _ d a => some (aluS 0x081 (some ⟨d, mDst + 32 + 512, 1, 1, false, true⟩) (srcS a) none
      ((d.modeBit != 32 || d.srNum == 0x20 || d.srNum == 0x21) && (d.modeBit != 512 || a.modeBit == 2 || a.modeBit == 16)))
  | .movi _ d _ => some (aluS 0x082 (dstS d) none none true)
  | .mov64 _ hnd d a => some (aluS 0x083 (dstS d 2) (if hnd then hndS a else srcS a 2) none (!hnd || a.hndOk))
  | .movx _ _ d a b => some (aluS 0x084 (dstS d) (srcS a) (srcS b) true)
  | .stx _ _ d a b => some (aluS 0x085 (srcM d mDst) (srcS a) (srcS b) true)
  | .shfl _ _ d a b => some (aluS 0x086 (dstS d) (namS a 1) (srcS b) true)
  | .bcast _ d a b => some (aluS 0x087 (dstS d 1 3) (namS a 1) (srcM b 18) true)
  | .vote _ kind d a => some (aluS 0x088
      (match kind with
       | .mask | .count | .first => dstS d 1 3
       | _ => some ⟨d, 64, 1, 1, false, true⟩) (srcM a 64) none true)
  | .redux _ ty oper d a => some (aluS 0x089 (dstS d 1 3) (srcS a) none
      ((ty == .s32 || ty == .z32 || ty == .b32) && !(ty == .b32 && (oper == .min || oper == .max))))
  | .expw _ _ _ d a b => some (onceS 0x08A (hndS d) (namS a 1) (namS b 16) d.hndOk)
  | .revw _ d => some (onceS 0x08B (hndS d) none none d.hndOk)
  | .bindw _ d a => some (onceS 0x08C (hndS d) (srcM a mDst 2) none d.hndOk)
  | .setf _ d => some (aluS 0x08D (dstS d) none none true)
  | .clrf _ d => some (aluS 0x08E (dstS d) none none true)
  | .testf _ d a => some (aluS 0x08F (some ⟨d, 64, 1, 1, false, true⟩) (namS a mDst) none true)
  | .frame _ d a => some (aluS 0x090 (namS d 1) (namS a 16) none true)
  | .unframe _ d a => some (aluS 0x091 (namS d 1) (namS a 16) none true)
  | .isetp _ ty rel d a b => some (aluS 0x0C1 (some ⟨d, 64, 1, 1, false, true⟩) (srcS a ty.regs) (srcS b ty.regs)
      (tAll.contains ty && 1 ≤ rel.toNat && rel.toNat ≤ 6 && (!tBits.contains ty || rel == 2 || rel == 5)))
  | .iset _ ty rel d a b => some (aluS 0x0C2 (dstS d) (srcS a ty.regs) (srcS b ty.regs)
      (tAll.contains ty && 1 ≤ rel.toNat && rel.toNat ≤ 6 && (!tBits.contains ty || rel == 2 || rel == 5)))
  | .sel _ ty d a b => some (aluS 0x0C3 (dstS d ty.regs) (srcM a 64) (srcS b ty.regs) (tBits.contains ty))
  | .psetp _ ty _ d a b => some (aluS 0x0C4 (some ⟨d, 64, 1, 1, false, true⟩) (srcM a 64) (srcM b 64) (ty == .b32))
  | .p2v _ ty d => some (aluS 0x0C5 (dstS d) none none (ty == .b32))
  | .v2p _ ty a b => some (aluS 0x0C6 none (srcS a) (srcS b) (ty == .b32))
  | .fadd _ m d a b => some (flt3 0x101 m true true d a b)
  | .fsub _ m d a b => some (flt3 0x102 m true true d a b)
  | .fmul _ m d a b => some (flt3 0x103 m true true d a b)
  | .ffma _ m d a b => some { flt3 0x104 m true true d a b with d := rmwS d }
  | .fmin _ m d a b => some (flt3 0x105 m false false d a b)
  | .fmax _ m d a b => some (flt3 0x106 m false false d a b)
  | .fminm _ m d a b => some (flt3 0x107 m false false d a b)
  | .fmaxm _ m d a b => some (flt3 0x108 m false false d a b)
  | .fsetp _ m d a b => some (aluS 0x109 (some ⟨d, 64, 1, 1, false, true⟩) (srcS a) (srcS b) (m.okFor [.f32] a b))
  | .fclass _ m d a => some (flt2 0x10A m false false false d a)
  | .frnd _ m d a => some (flt2 0x10B m true true true d a)
  | .ffrc _ m d a => some (flt2 0x10C m false true true d a)
  | .fscale _ m d a b => some (aluS 0x10D (dstS d) (srcS a) (srcS b) (m.okFor [.f32] true false true false true a b))
  | .fgetexp _ m d a => some (flt2 0x10E m false false false d a)
  | .fdiv _ m d a b => some (flt3 0x10F m true false d a b)
  | .fsqrt _ m d a => some (flt2 0x110 m true true true d a)
  | .frcp _ m d a => some (flt2 0x111 m true true true d a)
  | .frsq _ m d a => some (flt2 0x112 m true true true d a)
  | .fexp2 _ m d a => some (flt2 0x113 m true true true d a)
  | .flog2 _ m d a => some (flt2 0x114 m true true true d a)
  | .fsinpi _ m d a => some (flt2 0x115 m true true true d a)
  | .fcospi _ m d a => some (flt2 0x116 m true true true d a)
  | .ftanh _ m d a => some (flt2 0x117 m true true true d a)
  | .hadd2 _ m d a b => some (hlf3 0x141 m true true d a b)
  | .hmul2 _ m d a b => some (hlf3 0x142 m true true d a b)
  | .hfma2 _ m d a b => some { hlf3 0x143 m true true d a b with d := rmwS d }
  | .hmin2 _ m d a b => some (hlf3 0x144 m false false d a b)
  | .hmax2 _ m d a b => some (hlf3 0x145 m false false d a b)
  | .hsetp2 _ m d a b => some (aluS 0x146 (some ⟨d, 64, 2, 1, false, true⟩) (srcS a) (srcS b)
      (m.okFor tPk a b && a.half && b.half && d != .p 23))
  | .fcvt _ _ _ _ d a => some (aluS 0x181 (dstS d) (srcS a) none true)
  | .f2i _ _ dt sf d a => some (aluS 0x182 (dstS d (match dt with | .s64 | .z64 => 2 | _ => 1)) (srcS a) none (sf == .f32 || a.half))
  | .i2f _ _ _ sty d a => some (aluS 0x183 (dstS d) (srcS a (match sty with | .s64 | .z64 => 2 | _ => 1)) none true)
  | .fpack _ _ _ d a b => some (aluS 0x184 (namS d 1) (srcS a) (srcS b) true)
  | .funpack _ _ d a b => some (aluS 0x185 (dstS d) (namS a 1) (srcS b) true)
  | .qblk _ _ _ d a => some (aluS 0x186 (rmwS d) (srcM a 1 32 1) none true)
  | .ld _ size d a b => some (aluS 0x1C1 (some ⟨d, 7 + 512, size.regs, size.regs, false, true⟩) (memS a) (namS b 16)
      (d.modeBit != 512 || (a.modeBit == 2 && size.bytes ≤ 4)))
  | .st _ size d a b => some (aluS 0x1C2 (srcM d mDst size.regs) (memS a) (namS b 16) (size != .s8 && size != .s16))
  | .lda _ scope size d a b => some (aluS 0x1C3 (some ⟨d, 7, size.regs, size.regs, false, true⟩) (memS a) (namS b 16) (scope != .none))
  | .stl _ scope size d a b => some (aluS 0x1C4 (srcM d mDst size.regs) (memS a) (namS b 16)
      (scope != .none && size != .s8 && size != .s16))
  | .atom _ _ ty oper d a b => some (aluS 0x201 (some ⟨d, 7, ty.regs, ty.regs, false, true⟩) (memS a) (atomB ty oper b) (oper.types.contains ty))
  | .red _ ord ty oper a b => some (aluS 0x202 none (memS a) (atomB ty oper b)
      (oper.types.contains ty && oper != .xchg && oper != .cas && (ord == .relaxed || ord == .rel)))
  | .fence _ scope _ => some (aluS 0x203 none none none (scope != .none))
  | .cpy _ size dsp ssp d a b => some (aluS 0x241 (namS d 3 4) (cpySide dsp size.bytes a true) (cpySide ssp size.bytes b false) (dsp != .win))
  | .cpym _ _ d a => some (onceS 0x242 (namS d 2 4) (srcM a 2 8 4) none)
  | .tcopy _ sto kvm _ d a b => some (onceS 0x243 (namS d (1 + 1024 + 2048) 1 (if d.modeBit = 1 then 4 else 1)) (namS a 4096)
      (namS b 2 12 4) (!(sto && kvm)))
  | .tsld _ _ d a b => some (onceS 0x244 (namS d 4096) (memS a) (namS b 16))
  | .tsev _ _ d => some (onceS 0x245 (namS d 4096) none none)
  | .kick _ a b => some (aluS 0x246 none (srcS a) (srcM b 3 4) true)
  | .kwait _ tag d a => some (onceS 0x247 (dstS d 4 3) (if tag then srcS a else none) none (tag || unusedOk a))
  | .pull _ _ _ d a => some (onceS 0x248 (namS d 2 4) (srcM a 2 8 4) none)
  | .ack _ a => some (onceS 0x249 none (srcM a 3 4) none)
  | .tlrd _ c d a => some (aluS 0x281 (dstS d 2) (if c = .sched then srcS a else none) none (c == .sched || unusedOk a))
  | .tltag _ c d a => some (aluS 0x282 (dstS d 2) (if c = .sched then srcS a else none) none (c != .pack && (c == .sched || unusedOk a)))
  | .tlwait _ c scope a b => some (aluS 0x283 none (srcS a 2) (if c = .sched then srcS b else none)
      (scope != .none && (c == .sched || unusedOk b)))
  | .bar _ cnt a b => some (aluS 0x284 none (namS a 16) (if cnt then srcS b else none) (a.immIn 0 7 && (cnt || unusedOk b)))
  | .gbar _ a => some (aluS 0x285 none (namS a 16) none (a.immIn 0 255))
  | .abinit _ d a => some (aluS 0x286 (dstS d 4 11) (srcS a) none true)
  | .abexp _ d a => some (aluS 0x287 (dstS d 4 11) (srcS a) none true)
  | .abarv _ d a => some (aluS 0x288 (dstS d) (some ⟨a, 11, 4, 4, false, true⟩) none true)
  | .abwait _ a b => some (aluS 0x289 none (namS a 11 4) (srcS b) true)
  | .kdecl _ _ d a => some (onceS 0x28A (namS d 128) (srcS a) none)
  | .sign _ a => some (aluS 0x28B none (namS a 128) none true)
  | .rconv _ d a b => some (aluS 0x28C (some ⟨d, 64, 1, 1, false, true⟩) (namS a 128) (srcS b) true)
  | .gres _ d a => some (onceS 0x28D (namS d 256) (srcM a (16 + 64)) none (a.immIn 0 1))
  | .gclr _ d => some (onceS 0x28E (namS d 256) none none)
  | .yield _ => some (aluS 0x28F none none none true)
  | .sleep _ a => some (aluS 0x290 none (srcS a) none true)
  | .bra _ cnt d _ => some (aluS 0x2C1 (if cnt then rmwS d 1 3 else none) none none (cnt || unusedOk d))
  | .brx _ a => some (aluS 0x2C2 none (srcM a mDst 2) none true)
  | .call _ _ => some (aluS 0x2C3 none none none true)
  | .callx _ a => some (aluS 0x2C4 none (srcM a mDst 2) none true)
  | .ret _ => some (aluS 0x2C5 none none none true)
  | .exit _ => some (aluS 0x2C6 none none none true)
  | .trap _ a => some (aluS 0x2C7 none (namS a 16) none (a.immIn 0 255))
  | .tret _ => some (aluS 0x2C8 none none none true)
  | .sysc _ d a b => some (onceS 0x2C9 (dstS d 2 1) (srcM a mDst 2) (namS b 16) (b.immIn 0 65535))
  | .nop _ => some (aluS 0x2CA none none none true)
  | .setpat _ a => some (onceS 0x2CB none (srcS a) none)
  | .mma _ _ _ _ d a b => some (aluS 0x301 (namS d 1024) (namS a 1 1 4) (namS b 2048) true)
  | .wld _ _ _ d a b => some (onceS 0x302 (namS d 2048) (memS a) (namS b 16))
  | .aclr _ _ _ d => some (onceS 0x303 (namS d 1024) none none)
  | .ald _ _ reg d a b => some (onceS 0x304 (namS d 1024) (if reg then namS a 1 1 4 else memS a) (if reg then none else namS b 16)
      (!reg || unusedOk b))
  | .asto _ _ _ _ _ d a => some (onceS 0x305 (namS d 1 1 4) (namS a 1024) none)
  | .att _ _ _ _ d a b => some (aluS 0x306 (namS d 1024) (namS a 1 1 4) (namS b 2048) true)
  | .attfin _ _ _ d a => some (aluS 0x307 (namS d 1) (namS a 1024) none true)
  | .ladinit _ _ _ d a b => some (aluS 0x308 (namS d 2 1 4) (namS a 1024) (namS b 16) (b.immIn 2 16))
  | .ladpush _ _ _ d a => some (aluS 0x309 (namS d 2 1 4) (namS a 1024) none true)
  | .ladread _ _ _ d a b => some (aluS 0x30A (namS d 1024) (namS a 2 1 4) (namS b 2 1 4) true)
  | .ladld _ _ _ d a b => some (aluS 0x30B (namS d 1 1 4) (namS a 2 1 4) (namS b 16) (b.immIn 0 15))
  | .wqpost _ a b => some (onceS 0x341 none (srcS a) (srcM b 2 8 4))
  | .tarm _ _ _ a b => some (onceS 0x342 none (srcS a) (srcM b 3 2))
  | .cntadd _ aft _ d a b => some (onceS 0x343 (if aft then none else dstS d 2 7) (srcS a) (srcS b 2) (!aft || unusedOk d))
  | .sched _ a => some (onceS 0x344 none (srcM a 2 8 4) none)
  | .mfsr _ d a => some (onceS 0x381 (dstS d (if sr64 a.srNum then 2 else 1)) (namS a 32) none
      ((srSys a.srNum || a.srNum == 0x1D) && (!srSide a.srNum || sr64 a.srNum)))
  | .mtsr _ d a => some (onceS 0x382 (namS d 32) (srcS a (if sr64 d.srNum then 2 else 1)) none (srWritable d.srNum))
  | .eret _ a b => some (onceS 0x383 none (srcS a) (srcM b mDst 2))
  | .halt _ => some (onceS 0x384 none none none)
  | .tlbfls _ a => some (onceS 0x385 none (srcS a) none)
  | .tldrain _ => some (onceS 0x386 none none none)
  | .fbrd _ d a => some (onceS 0x387 (dstS d 4 1) (srcS a) none)
  | .fbpop _ => some (onceS 0x388 none none none)
  | .replay _ => some (onceS 0x389 none none none)
  | .winqPush _ a => some (onceS 0x38A none (srcM a mDst 2) none)
  | .winqPop _ d => some (onceS 0x38A (dstS d 2) none none)
  | .ctxsv _ a b => some (onceS 0x38B none (srcS a) (srcM b mDst 2))
  | .ctxld _ a b => some (onceS 0x38C none (srcS a) (srcM b mDst 2))
  | .lnkctlStat _ d a b => some (onceS 0x38D (dstS d) (srcS a) (srcS b))
  | .lnkctlPause _ a b => some (onceS 0x38D none (srcS a) (srcS b))
  | .lnkctlResume _ a b => some (onceS 0x38D none (srcS a) (srcS b))
  | .lnkctlRemap _ a b => some (onceS 0x38D none (srcS a) (srcS b))
  | .lnkctlTrain _ a b => some (onceS 0x38D none (srcS a) (srcS b))
  | .lnkctlHalf _ a b => some (onceS 0x38D none (srcS a) (srcS b))
  | .bkpt _ a => some (onceS 0x3C1 none (namS a 16) none (a.immIn 0 255))
  | .sstep _ a => some (onceS 0x3C2 none (srcS a) none)
  | .trcmk _ a => some (onceS 0x3C3 none (srcS a) none)
  | .cntrd _ d a => some (onceS 0x3C4 (dstS d 2) (srcS a) none)
  | .florealNop => none
  | .florealSend _ _ _ _ => none
  | .florealRecv _ _ _ _ => none
  | .florealRed _ _ _ _ _ _ => none
  | .florealCopy _ _ _ _ => none
  | .florealWait _ _ _ _ => none
  | .florealSignal _ _ _ _ => none
  | .florealLoop _ _ => none
  | .florealEnd => none
  | _ => none

/-- The header of an instruction word. -/
def Hdr.plain : Hdr := ⟨.always, false, false, false, false⟩

/-- TAKE needs an A source in modes 000 to 011 (R61, R80); it is illegal in classes 0xC and 0xD (R220, R292). An A that
an entry only names (a handle slot, a barrier object, the register TESTF tests) is no source. DEDUCED (log 5). -/
def takeOk (h : Hdr) (g : Sig) : Bool :=
  !h.take || ((match g.a with
    | some o => (o.rd || g.op == 0x185 || g.op == 0x086 || g.op == 0x087) && o.x.isReg
    | none => false) && g.op / 64 != 0xC && g.op / 64 != 0xD)

/-- The guard field is legal (R79). -/
def Guard.legal : Guard → Bool
  | .always => true
  | .pred p _ => p.toNat ≤ 23

/-- The header of an instruction word; a schedule word or a step has none. -/
def Instr.hdr : Instr → Option Hdr
  | .iadd h _ _ _ _ => some h
  | .isub h _ _ _ _ => some h
  | .iadc h _ _ _ _ => some h
  | .imul h _ _ _ _ => some h
  | .imulh h _ _ _ _ => some h
  | .imad h _ _ _ _ => some h
  | .imadw h _ _ _ _ => some h
  | .idiv h _ _ _ _ => some h
  | .irem h _ _ _ _ => some h
  | .imin h _ _ _ _ => some h
  | .imax h _ _ _ _ => some h
  | .iabs h _ _ _ => some h
  | .ineg h _ _ _ => some h
  | .lea h _ _ _ _ => some h
  | .idot4 h _ _ _ _ => some h
  | .isad h _ _ _ _ => some h
  | .land h _ _ _ _ => some h
  | .lor h _ _ _ _ => some h
  | .lxor h _ _ _ _ => some h
  | .andn h _ _ _ _ => some h
  | .lnot h _ _ _ => some h
  | .lop3 h _ _ _ _ => some h
  | .shl h _ _ _ _ => some h
  | .shr h _ _ _ _ => some h
  | .sar h _ _ _ _ => some h
  | .rol h _ _ _ _ => some h
  | .fshl h _ _ _ _ => some h
  | .bfe h _ _ _ _ => some h
  | .bfi h _ _ _ _ => some h
  | .popc h _ _ _ => some h
  | .clz h _ _ _ => some h
  | .ctz h _ _ _ => some h
  | .brev h _ _ _ => some h
  | .prmt h _ _ _ _ => some h
  | .mov h _ _ => some h
  | .movi h _ _ => some h
  | .mov64 h _ _ _ => some h
  | .movx h _ _ _ _ => some h
  | .stx h _ _ _ _ => some h
  | .shfl h _ _ _ _ => some h
  | .bcast h _ _ _ => some h
  | .vote h _ _ _ => some h
  | .redux h _ _ _ _ => some h
  | .expw h _ _ _ _ _ => some h
  | .revw h _ => some h
  | .bindw h _ _ => some h
  | .setf h _ => some h
  | .clrf h _ => some h
  | .testf h _ _ => some h
  | .frame h _ _ => some h
  | .unframe h _ _ => some h
  | .isetp h _ _ _ _ _ => some h
  | .iset h _ _ _ _ _ => some h
  | .sel h _ _ _ _ => some h
  | .psetp h _ _ _ _ _ => some h
  | .p2v h _ _ => some h
  | .v2p h _ _ _ => some h
  | .fadd h _ _ _ _ => some h
  | .fsub h _ _ _ _ => some h
  | .fmul h _ _ _ _ => some h
  | .ffma h _ _ _ _ => some h
  | .fmin h _ _ _ _ => some h
  | .fmax h _ _ _ _ => some h
  | .fminm h _ _ _ _ => some h
  | .fmaxm h _ _ _ _ => some h
  | .fsetp h _ _ _ _ => some h
  | .fclass h _ _ _ => some h
  | .frnd h _ _ _ => some h
  | .ffrc h _ _ _ => some h
  | .fscale h _ _ _ _ => some h
  | .fgetexp h _ _ _ => some h
  | .fdiv h _ _ _ _ => some h
  | .fsqrt h _ _ _ => some h
  | .frcp h _ _ _ => some h
  | .frsq h _ _ _ => some h
  | .fexp2 h _ _ _ => some h
  | .flog2 h _ _ _ => some h
  | .fsinpi h _ _ _ => some h
  | .fcospi h _ _ _ => some h
  | .ftanh h _ _ _ => some h
  | .hadd2 h _ _ _ _ => some h
  | .hmul2 h _ _ _ _ => some h
  | .hfma2 h _ _ _ _ => some h
  | .hmin2 h _ _ _ _ => some h
  | .hmax2 h _ _ _ _ => some h
  | .hsetp2 h _ _ _ _ => some h
  | .fcvt h _ _ _ _ _ => some h
  | .f2i h _ _ _ _ _ => some h
  | .i2f h _ _ _ _ _ => some h
  | .fpack h _ _ _ _ _ => some h
  | .funpack h _ _ _ _ => some h
  | .qblk h _ _ _ _ => some h
  | .ld h _ _ _ _ => some h
  | .st h _ _ _ _ => some h
  | .lda h _ _ _ _ _ => some h
  | .stl h _ _ _ _ _ => some h
  | .atom h _ _ _ _ _ _ => some h
  | .red h _ _ _ _ _ => some h
  | .fence h _ _ => some h
  | .cpy h _ _ _ _ _ _ => some h
  | .cpym h _ _ _ => some h
  | .tcopy h _ _ _ _ _ _ => some h
  | .tsld h _ _ _ _ => some h
  | .tsev h _ _ => some h
  | .kick h _ _ => some h
  | .kwait h _ _ _ => some h
  | .pull h _ _ _ _ => some h
  | .ack h _ => some h
  | .tlrd h _ _ _ => some h
  | .tltag h _ _ _ => some h
  | .tlwait h _ _ _ _ => some h
  | .bar h _ _ _ => some h
  | .gbar h _ => some h
  | .abinit h _ _ => some h
  | .abexp h _ _ => some h
  | .abarv h _ _ => some h
  | .abwait h _ _ => some h
  | .kdecl h _ _ _ => some h
  | .sign h _ => some h
  | .rconv h _ _ _ => some h
  | .gres h _ _ => some h
  | .gclr h _ => some h
  | .yield h => some h
  | .sleep h _ => some h
  | .bra h _ _ _ => some h
  | .brx h _ => some h
  | .call h _ => some h
  | .callx h _ => some h
  | .ret h => some h
  | .exit h => some h
  | .trap h _ => some h
  | .tret h => some h
  | .sysc h _ _ _ => some h
  | .nop h => some h
  | .setpat h _ => some h
  | .mma h _ _ _ _ _ _ => some h
  | .wld h _ _ _ _ _ => some h
  | .aclr h _ _ _ => some h
  | .ald h _ _ _ _ _ => some h
  | .asto h _ _ _ _ _ _ => some h
  | .att h _ _ _ _ _ _ => some h
  | .attfin h _ _ _ _ => some h
  | .ladinit h _ _ _ _ _ => some h
  | .ladpush h _ _ _ _ => some h
  | .ladread h _ _ _ _ _ => some h
  | .ladld h _ _ _ _ _ => some h
  | .wqpost h _ _ => some h
  | .tarm h _ _ _ _ => some h
  | .cntadd h _ _ _ _ _ => some h
  | .sched h _ => some h
  | .mfsr h _ _ => some h
  | .mtsr h _ _ => some h
  | .eret h _ _ => some h
  | .halt h => some h
  | .tlbfls h _ => some h
  | .tldrain h => some h
  | .fbrd h _ _ => some h
  | .fbpop h => some h
  | .replay h => some h
  | .winqPush h _ => some h
  | .winqPop h _ => some h
  | .ctxsv h _ _ => some h
  | .ctxld h _ _ => some h
  | .lnkctlStat h _ _ _ => some h
  | .lnkctlPause h _ _ => some h
  | .lnkctlResume h _ _ => some h
  | .lnkctlRemap h _ _ => some h
  | .lnkctlTrain h _ _ => some h
  | .lnkctlHalf h _ _ => some h
  | .bkpt h _ => some h
  | .sstep h _ => some h
  | .trcmk h _ => some h
  | .cntrd h _ _ => some h
  | _ => none

def OpS.legalOpt : Option OpS → Bool
  | none => true
  | some o => o.legal

/-- The instruction is a legal word of R91: guard, TAKE, modifiers and every operand field. Which instructions a warp or
an access slice may execute is decided when they issue. -/
def Instr.legal (i : Instr) : Bool :=
  match i.sig, i.hdr with
  | some g, some h => h.guard.legal && takeOk h g && g.ok && OpS.legalOpt g.d && OpS.legalOpt g.a && OpS.legalOpt g.b
  | _, _ => false

/-- Class of an instruction word (R77): OP[9:6]. -/
def Instr.cls (i : Instr) : Nat :=
  match i.sig with
  | some g => g.op / 64
  | none => 16

/-- A schedule word that R297 does not refuse by its fields alone. -/
def Instr.florealOk : Instr → Bool
  | .florealNop | .florealEnd => true
  | .florealSend _ _ _ _ | .florealRecv _ _ _ _ | .florealCopy _ _ _ _ => true
  | .florealRed _ _ _ _ fwd _ => fwd.toNat < 16 || fwd == 31
  | .florealWait _ time idx _ => !time || idx == 0
  | .florealSignal _ _ _ _ => true
  | .florealLoop n _ => n != 0
  | _ => false

/-- A well-formed instruction word or schedule word. -/
def Instr.wf (i : Instr) : Bool := i.legal || i.florealOk

end Sys2Proof
end

