-- ==== Sys2Proof/Decode.lean ====
section
/-! DEFINITION. Reading instruction words and writing them (R77 to R92 and the FAM layouts of the entries). `decodeWord`
is total on 96 bits and answers an instruction only for a legal word; `encodeWord` writes the word of an instruction
from the same tables. Schedule words (R297) have their own 64-bit layout. -/

namespace Sys2Proof

/-- The fields of R77. -/
structure Fields where
  op   : BitVec 10
  gn   : Bool
  gp   : BitVec 5
  d    : BitVec 20
  a    : BitVec 20
  b    : BitVec 20
  take : Bool
  nf   : Bool
  fam  : BitVec 10
  hb   : Bool
  hs   : Bool
  zero : BitVec 6
  deriving DecidableEq, Repr

/-- Why a word is no instruction (R91). -/
inductive DecodeError where
  /-- OP names a reserved cell, or a field or modifier of the word is not one its entry allows. -/
  | notAnInstruction
  /-- GP from 24 to 30, or GP = 31 with GN = 1. -/
  | badGuard
  /-- HINT[5:0] is not zero. -/
  | badHint
  /-- An operand or modifier check of R91 fails. -/
  | illegal
  deriving DecidableEq, Repr

def Fields.ofWord (w : BitVec 96) : Fields where
  op := w.extractLsb' 86 10
  gn := w.getLsbD 85
  gp := w.extractLsb' 80 5
  d := w.extractLsb' 60 20
  a := w.extractLsb' 40 20
  b := w.extractLsb' 20 20
  take := w.getLsbD 19
  nf := w.getLsbD 18
  fam := w.extractLsb' 8 10
  hb := w.getLsbD 7
  hs := w.getLsbD 6
  zero := w.extractLsb' 0 6

/-- One bit as a field. -/
def bits1 (x : Bool) : BitVec 1 := BitVec.ofBool x

def Fields.toWord (f : Fields) : BitVec 96 :=
  f.op ++ bits1 f.gn ++ f.gp ++ f.d ++ f.a ++ f.b ++ bits1 f.take ++ bits1 f.nf ++ f.fam ++ bits1 f.hb ++ bits1 f.hs ++ f.zero

/-- A check inside a decoder. -/
def chk (x : Bool) : Option Unit := if x then some () else none

/-- Bit `n` of a FAM field. -/
def bit (x : Bool) (n : Nat) : BitVec 10 := if x then (1#10 <<< n) else 0

/-- Operand fields (R83): the payload with its mode in [19:17]; payload bits the table does not assign are zero. -/
def encOperand : Operand → BitVec 20
  | .v i => 0#10 ++ i
  | .s i => 0b001#3 ++ 0#9 ++ i
  | .ind vb off => 0b010#3 ++ vb ++ off
  | .win w vk => 0b011#3 ++ w ++ vk ++ 0#3
  | .imm x => 0b100#3 ++ x
  | .sr n => 0b101#3 ++ 0#7 ++ n
  | .p i => 0b110#3 ++ 0b00#2 ++ 0#10 ++ i
  | .k i => 0b110#3 ++ 0b01#2 ++ 0#10 ++ i
  | .g i => 0b110#3 ++ 0b10#2 ++ 0#10 ++ i
  | .q i => 0b110#3 ++ 0b11#2 ++ 0#10 ++ i
  | .tile i => 0b111#3 ++ 0b000#3 ++ 0#8 ++ i
  | .slot i => 0b111#3 ++ 0b001#3 ++ 0#8 ++ i
  | .shape i => 0b111#3 ++ 0b010#3 ++ 0#8 ++ i

def decOperand (f : BitVec 20) : Option Operand :=
  match (f.extractLsb' 17 3).toNat with
  | 0 => if f.extractLsb' 10 7 = 0 then some (.v (f.extractLsb' 0 10)) else none
  | 1 => if f.extractLsb' 8 9 = 0 then some (.s (f.extractLsb' 0 8)) else none
  | 2 => some (.ind (f.extractLsb' 7 10) (f.extractLsb' 0 7))
  | 3 => if f.extractLsb' 0 3 = 0 then some (.win (f.extractLsb' 13 4) (f.extractLsb' 3 10)) else none
  | 4 => some (.imm (f.extractLsb' 0 17))
  | 5 => if f.extractLsb' 10 7 = 0 then some (.sr (f.extractLsb' 0 10)) else none
  | 6 =>
    if f.extractLsb' 5 10 = 0 then
      match (f.extractLsb' 15 2).toNat with
      | 0 => some (.p (f.extractLsb' 0 5))
      | 1 => some (.k (f.extractLsb' 0 5))
      | 2 => some (.g (f.extractLsb' 0 5))
      | _ => some (.q (f.extractLsb' 0 5))
    else none
  | _ =>
    if f.extractLsb' 6 8 = 0 then
      match (f.extractLsb' 14 3).toNat with
      | 0 => some (.tile (f.extractLsb' 0 6))
      | 1 => some (.slot (f.extractLsb' 0 6))
      | 2 => some (.shape (f.extractLsb' 0 6))
      | _ => none
    else none

/-- RND codes (R81). -/
def encRnd : Rnd → BitVec 2
  | .rne => 0 | .rtz => 1 | .rup => 2 | .rdn => 3
def decRnd (x : BitVec 2) : Option Rnd :=
  match x.toNat with
  | 0 => some .rne | 1 => some .rtz | 2 => some .rup | _ => some .rdn

/-- TYPE codes in their place, FAM[7:4] (R81). -/
def Ty.code : Ty → BitVec 4
  | .s32 => 0 | .z32 => 1 | .s64 => 2 | .z64 => 3 | .b32 => 4 | .f32 => 5 | .f16x2 => 6 | .b16x2 => 7 | .b64 => 8
def Ty.ofCode (x : BitVec 4) : Option Ty :=
  match x.toNat with
  | 0 => some .s32 | 1 => some .z32 | 2 => some .s64 | 3 => some .z64 | 4 => some .b32 | 5 => some .f32
  | 6 => some .f16x2 | 7 => some .b16x2 | 8 => some .b64 | _ => none
def encTy (t : Ty) : BitVec 10 := 0#2 ++ t.code ++ 0#4
def decTy (f : BitVec 10) : Option Ty := Ty.ofCode (f.extractLsb' 4 4)

/-- The standard arithmetic layout (R81). -/
def encArith (m : Arith) : BitVec 10 :=
  encRnd m.rnd ++ m.ty.code ++ bits1 m.sat ++ bits1 m.nega ++ bits1 m.negb ++ bits1 m.abs
def decArith (f : BitVec 10) : Option Arith := do
  let rnd ← decRnd (f.extractLsb' 8 2)
  let ty ← decTy f
  some ⟨rnd, ty, f.getLsbD 3, f.getLsbD 2, f.getLsbD 1, f.getLsbD 0⟩

/-- COND codes (R150). -/
def FCond.code : FCond → BitVec 3
  | .eq => 0 | .ne => 1 | .lt => 2 | .le => 3 | .gt => 4 | .ge => 5 | .num => 6 | .nan => 7
def FCond.ofCode (x : BitVec 3) : FCond :=
  match x.toNat with
  | 0 => .eq | 1 => .ne | 2 => .lt | 3 => .le | 4 => .gt | 5 => .ge | 6 => .num | _ => .nan
def encFCmp (m : FCmp) : BitVec 10 :=
  m.cond.code.extractLsb' 1 2 ++ m.ty.code ++ m.cond.code.extractLsb' 0 1 ++ bits1 m.nega ++ bits1 m.negb ++ bits1 m.abs
def decFCmp (f : BitVec 10) : Option FCmp := do
  let ty ← decTy f
  some ⟨FCond.ofCode (f.extractLsb' 8 2 ++ f.extractLsb' 3 1), ty, f.getLsbD 2, f.getLsbD 1, f.getLsbD 0⟩

/-- MODE of SHFL and the codes of VOTE, REDUX and EXPW (R130). -/
def encShfl : ShflMode → BitVec 10
  | .idx => 0 | .seg => 1 | .xor => 2 | .ext => 3
def decShfl (f : BitVec 10) : Option ShflMode :=
  match f.toNat with
  | 0 => some .idx | 1 => some .seg | 2 => some .xor | 3 => some .ext | _ => none
def encVote : VoteKind → BitVec 10
  | .mask => 0 | .count => 1 | .first => 2 | .testAll => 3 | .testAny => 7 | .testSame => 11 | .testNone => 15
def decVote (f : BitVec 10) : Option VoteKind :=
  match f.toNat with
  | 0 => some .mask | 1 => some .count | 2 => some .first | 3 => some .testAll | 7 => some .testAny
  | 11 => some .testSame | 15 => some .testNone | _ => none
def encRed : RedOper → BitVec 10
  | .add => 0 | .min => 1 | .max => 2 | .and => 3 | .or => 4 | .xor => 5
def decRed (f : BitVec 10) : Option RedOper :=
  match (f.extractLsb' 0 3).toNat with
  | 0 => some .add | 1 => some .min | 2 => some .max | 3 => some .and | 4 => some .or | 5 => some .xor | _ => none
def encWScope : WScope → BitVec 2
  | .thread => 0 | .warp => 1 | .block => 2
def decWScope (f : BitVec 10) : Option WScope :=
  match (f.extractLsb' 8 2).toNat with
  | 0 => some .thread | 1 => some .warp | 2 => some .block | _ => none

/-- Format and integer type codes of F2I and I2F (R156). -/
def encVFmt : VFmt → BitVec 4
  | .f32 => 0 | .f16 => 1 | .b16 => 2
def decVFmt (x : BitVec 4) : Option VFmt :=
  match x.toNat with
  | 0 => some .f32 | 1 => some .f16 | 2 => some .b16 | _ => none
def encITy : ITy → BitVec 4
  | .s32 => 0 | .z32 => 1 | .s64 => 2 | .z64 => 3
def decITy (x : BitVec 4) : Option ITy :=
  match x.toNat with
  | 0 => some .s32 | 1 => some .z32 | 2 => some .s64 | 3 => some .z64 | _ => none

/-- SIZE of loads and stores and the scope codes (R163, R164). -/
def Size.code : Size → BitVec 3
  | .b8 => 0 | .b16 => 1 | .b32 => 2 | .b64 => 3 | .b128 => 4 | .s8 => 5 | .s16 => 6
def encSize (z : Size) : BitVec 10 := 0#7 ++ z.code
def decSize (f : BitVec 10) : Option Size :=
  match (f.extractLsb' 0 3).toNat with
  | 0 => some .b8 | 1 => some .b16 | 2 => some .b32 | 3 => some .b64 | 4 => some .b128 | 5 => some .s8 | 6 => some .s16
  | _ => none
def encScope : Scope → BitVec 10
  | .none => 0 | .warp => 0x080 | .blk => 0x100 | .core => 0x180 | .clu => 0x200 | .dev => 0x280 | .sys => 0x300
def decScope (f : BitVec 10) : Option Scope :=
  match (f.extractLsb' 7 3).toNat with
  | 0 => some .none | 1 => some .warp | 2 => some .blk | 3 => some .core | 4 => some .clu | 5 => some .dev | 6 => some .sys
  | _ => none

/-- ORD and OPER of atomics, KIND of FENCE (R169, R173). -/
def encOrd : AOrd → BitVec 10
  | .relaxed => 0 | .acq => 0x100 | .rel => 0x200 | .ar => 0x300
def decOrd (f : BitVec 10) : Option AOrd :=
  match (f.extractLsb' 8 2).toNat with
  | 0 => some .relaxed | 1 => some .acq | 2 => some .rel | _ => some .ar
def AOper.code : AOper → BitVec 4
  | .add => 0 | .min => 1 | .max => 2 | .and => 3 | .or => 4 | .xor => 5 | .xchg => 6 | .cas => 7 | .fadd => 8 | .inc => 9
def encAOper (x : AOper) : BitVec 10 := 0#6 ++ x.code
def decAOper (f : BitVec 10) : Option AOper :=
  match (f.extractLsb' 0 4).toNat with
  | 0 => some .add | 1 => some .min | 2 => some .max | 3 => some .and | 4 => some .or | 5 => some .xor
  | 6 => some .xchg | 7 => some .cas | 8 => some .fadd | 9 => some .inc | _ => none
def encFence : FenceKind → BitVec 10
  | .ar => 0 | .acq => 1 | .rel => 2
def decFence (f : BitVec 10) : Option FenceKind :=
  match (f.extractLsb' 0 2).toNat with
  | 0 => some .ar | 1 => some .acq | 2 => some .rel | _ => none

/-- SIZE and spaces of CPY, GE and GSLOT, timeline contexts (R175, R179, R191). -/
def encCpySize : CpySize → BitVec 2
  | .b32 => 0 | .b64 => 1 | .b128 => 2
def decCpySize (x : BitVec 2) : Option CpySize :=
  match x.toNat with
  | 0 => some .b32 | 1 => some .b64 | 2 => some .b128 | _ => none
def encSpace : Space → BitVec 3
  | .glb => 0 | .reg => 1 | .win => 2 | .acc => 3 | .hst => 4
def decSpace (x : BitVec 3) : Option Space :=
  match x.toNat with
  | 0 => some .glb | 1 => some .reg | 2 => some .win | 3 => some .acc | 4 => some .hst | _ => none
def encEGuard (e : EGuard) : BitVec 10 := 0#2 ++ bits1 e.ge ++ e.gslot ++ 0#4
def decEGuard (f : BitVec 10) : EGuard := ⟨f.getLsbD 7, f.extractLsb' 4 3⟩
def Tctx.code : Tctx → BitVec 4
  | .copy => 0 | .array => 1 | .pull => 2 | .pack => 3 | .sched => 4
def encTctx (c : Tctx) : BitVec 10 := 0#6 ++ c.code
def decTctx (f : BitVec 10) : Option Tctx :=
  match (f.extractLsb' 0 3).toNat with
  | 0 => some .copy | 1 => some .array | 2 => some .pull | 3 => some .pack | 4 => some .sched | _ => none

/-- The paired immediate of MOVI (R86): A.payload[14:0] : B.payload. -/
def moviA (c : Word) : BitVec 20 := 0b100#3 ++ 0#2 ++ c.extractLsb' 17 15
def moviB (c : Word) : BitVec 20 := 0b100#3 ++ c.extractLsb' 0 17
def decMovi (a b : BitVec 20) : Option Word :=
  if a.extractLsb' 15 5 = 0b10000#5 ∧ b.extractLsb' 17 3 = 0b100#3 then
    some (a.extractLsb' 0 15 ++ b.extractLsb' 0 17)
  else none

/-- The 34-bit branch offset (R86). -/
def offA (o : BitVec 34) : BitVec 20 := 0b100#3 ++ o.extractLsb' 17 17
def offB (o : BitVec 34) : BitVec 20 := 0b100#3 ++ o.extractLsb' 0 17
def decOff (a b : BitVec 20) : Option (BitVec 34) :=
  if a.extractLsb' 17 3 = 0b100#3 ∧ b.extractLsb' 17 3 = 0b100#3 then
    some (a.extractLsb' 0 17 ++ b.extractLsb' 0 17)
  else none

/-- Guard fields (R79). -/
def Guard.gp : Guard → BitVec 5
  | .always => 31 | .pred p _ => p
def Guard.gn : Guard → Bool
  | .always => false | .pred _ n => n

/-- The fields of an instruction with opcode, header, operand fields and FAM given. -/
def wordOf (op : BitVec 10) (h : Hdr) (d a b : BitVec 20) (fam : BitVec 10) : Fields :=
  ⟨op, h.guard.gn, h.guard.gp, d, a, b, h.take, h.nf, fam, h.hb, h.hs, 0⟩

def decGuard (f : Fields) : Option Guard :=
  if f.gp = 31 then (if f.gn then none else some .always)
  else if f.gp.toNat ≤ 23 then some (.pred f.gp f.gn) else none

/-- Class 0x0 of the opcode map (R88), by slot. -/
def decodeInt (slot : Nat) (h : Hdr) (w : Fields) : Option Instr :=
  let f := w.fam
  match slot with
  | 0x01 => do
    let m ← decArith f
    let d ← decOperand w.d
    let a ← decOperand w.a
    let b ← decOperand w.b
    some (.iadd h m d a b)
  | 0x02 => do
    let m ← decArith f
    let d ← decOperand w.d
    let a ← decOperand w.a
    let b ← decOperand w.b
    some (.isub h m d a b)
  | 0x03 => do
    let m ← decArith f
    let d ← decOperand w.d
    let a ← decOperand w.a
    let b ← decOperand w.b
    some (.iadc h m d a b)
  | 0x04 => do
    let m ← decArith f
    let d ← decOperand w.d
    let a ← decOperand w.a
    let b ← decOperand w.b
    some (.imul h m d a b)
  | 0x05 => do
    let m ← decArith f
    let d ← decOperand w.d
    let a ← decOperand w.a
    let b ← decOperand w.b
    some (.imulh h m d a b)
  | 0x06 => do
    let m ← decArith f
    let d ← decOperand w.d
    let a ← decOperand w.a
    let b ← decOperand w.b
    some (.imad h m d a b)
  | 0x07 => do
    let m ← decArith f
    let d ← decOperand w.d
    let a ← decOperand w.a
    let b ← decOperand w.b
    some (.imadw h m d a b)
  | 0x08 => do
    let m ← decArith f
    let d ← decOperand w.d
    let a ← decOperand w.a
    let b ← decOperand w.b
    some (.idiv h m d a b)
  | 0x09 => do
    let m ← decArith f
    let d ← decOperand w.d
    let a ← decOperand w.a
    let b ← decOperand w.b
    some (.irem h m d a b)
  | 0x0A => do
    let m ← decArith f
    let d ← decOperand w.d
    let a ← decOperand w.a
    let b ← decOperand w.b
    some (.imin h m d a b)
  | 0x0B => do
    let m ← decArith f
    let d ← decOperand w.d
    let a ← decOperand w.a
    let b ← decOperand w.b
    some (.imax h m d a b)
  | 0x0C => do
    let m ← decArith f
    let d ← decOperand w.d
    let a ← decOperand w.a
    let _ ← chk (w.b == 0)
    some (.iabs h m d a)
  | 0x0D => do
    let m ← decArith f
    let d ← decOperand w.d
    let a ← decOperand w.a
    let _ ← chk (w.b == 0)
    some (.ineg h m d a)
  | 0x0E => do
    let m ← decArith f
    let d ← decOperand w.d
    let a ← decOperand w.a
    let b ← decOperand w.b
    some (.lea h m d a b)
  | 0x0F => do
    let m ← decArith f
    let d ← decOperand w.d
    let a ← decOperand w.a
    let b ← decOperand w.b
    some (.idot4 h m d a b)
  | 0x10 => do
    let m ← decArith f
    let d ← decOperand w.d
    let a ← decOperand w.a
    let b ← decOperand w.b
    some (.isad h m d a b)
  | _ => none

/-- Class 0x1 of the opcode map (R88), by slot. -/
def decodeLogic (slot : Nat) (h : Hdr) (w : Fields) : Option Instr :=
  let f := w.fam
  match slot with
  | 0x01 => do
    let m ← decArith f
    let d ← decOperand w.d
    let a ← decOperand w.a
    let b ← decOperand w.b
    some (.land h m d a b)
  | 0x02 => do
    let m ← decArith f
    let d ← decOperand w.d
    let a ← decOperand w.a
    let b ← decOperand w.b
    some (.lor h m d a b)
  | 0x03 => do
    let m ← decArith f
    let d ← decOperand w.d
    let a ← decOperand w.a
    let b ← decOperand w.b
    some (.lxor h m d a b)
  | 0x04 => do
    let m ← decArith f
    let d ← decOperand w.d
    let a ← decOperand w.a
    let b ← decOperand w.b
    some (.andn h m d a b)
  | 0x05 => do
    let m ← decArith f
    let d ← decOperand w.d
    let a ← decOperand w.a
    let _ ← chk (w.b == 0)
    some (.lnot h m d a)
  | 0x06 => do
    let m ← decArith f
    let d ← decOperand w.d
    let a ← decOperand w.a
    let b ← decOperand w.b
    some (.lop3 h m d a b)
  | 0x07 => do
    let m ← decArith f
    let d ← decOperand w.d
    let a ← decOperand w.a
    let b ← decOperand w.b
    some (.shl h m d a b)
  | 0x08 => do
    let m ← decArith f
    let d ← decOperand w.d
    let a ← decOperand w.a
    let b ← decOperand w.b
    some (.shr h m d a b)
  | 0x09 => do
    let m ← decArith f
    let d ← decOperand w.d
    let a ← decOperand w.a
    let b ← decOperand w.b
    some (.sar h m d a b)
  | 0x0A => do
    let m ← decArith f
    let d ← decOperand w.d
    let a ← decOperand w.a
    let b ← decOperand w.b
    some (.rol h m d a b)
  | 0x0B => do
    let m ← decArith f
    let d ← decOperand w.d
    let a ← decOperand w.a
    let b ← decOperand w.b
    some (.fshl h m d a b)
  | 0x0C => do
    let m ← decArith f
    let d ← decOperand w.d
    let a ← decOperand w.a
    let b ← decOperand w.b
    some (.bfe h m d a b)
  | 0x0D => do
    let m ← decArith f
    let d ← decOperand w.d
    let a ← decOperand w.a
    let b ← decOperand w.b
    some (.bfi h m d a b)
  | 0x0E => do
    let m ← decArith f
    let d ← decOperand w.d
    let a ← decOperand w.a
    let _ ← chk (w.b == 0)
    some (.popc h m d a)
  | 0x0F => do
    let m ← decArith f
    let d ← decOperand w.d
    let a ← decOperand w.a
    let _ ← chk (w.b == 0)
    some (.clz h m d a)
  | 0x10 => do
    let m ← decArith f
    let d ← decOperand w.d
    let a ← decOperand w.a
    let _ ← chk (w.b == 0)
    some (.ctz h m d a)
  | 0x11 => do
    let m ← decArith f
    let d ← decOperand w.d
    let a ← decOperand w.a
    let _ ← chk (w.b == 0)
    some (.brev h m d a)
  | 0x12 => do
    let m ← decArith f
    let d ← decOperand w.d
    let a ← decOperand w.a
    let b ← decOperand w.b
    some (.prmt h m d a b)
  | _ => none

/-- Class 0x2 of the opcode map (R88), by slot. -/
def decodeMove (slot : Nat) (h : Hdr) (w : Fields) : Option Instr :=
  let f := w.fam
  match slot with
  | 0x01 => do
    let _ ← chk (f == 0)
    let d ← decOperand w.d
    let a ← decOperand w.a
    let _ ← chk (w.b == 0)
    some (.mov h d a)
  | 0x02 => do
    let _ ← chk (f == 0)
    let d ← decOperand w.d
    let c ← decMovi w.a w.b
    some (.movi h d c)
  | 0x03 => do
    let _ ← chk (f &&& 0x3FE == 0)
    let hnd ← some (f.getLsbD 0)
    let d ← decOperand w.d
    let a ← decOperand w.a
    let _ ← chk (w.b == 0)
    some (.mov64 h hnd d a)
  | 0x04 => do
    let _ ← chk (f &&& 0x3FE == 0)
    let sp ← some (f.getLsbD 0)
    let d ← decOperand w.d
    let a ← decOperand w.a
    let b ← decOperand w.b
    some (.movx h sp d a b)
  | 0x05 => do
    let _ ← chk (f &&& 0x3FE == 0)
    let sp ← some (f.getLsbD 0)
    let d ← decOperand w.d
    let a ← decOperand w.a
    let b ← decOperand w.b
    some (.stx h sp d a b)
  | 0x06 => do
    let mode ← decShfl f
    let d ← decOperand w.d
    let a ← decOperand w.a
    let b ← decOperand w.b
    some (.shfl h mode d a b)
  | 0x07 => do
    let _ ← chk (f == 0)
    let d ← decOperand w.d
    let a ← decOperand w.a
    let b ← decOperand w.b
    some (.bcast h d a b)
  | 0x08 => do
    let kind ← decVote f
    let d ← decOperand w.d
    let a ← decOperand w.a
    let _ ← chk (w.b == 0)
    some (.vote h kind d a)
  | 0x09 => do
    let _ ← chk (f &&& 0x308 == 0)
    let ty ← decTy f
    let oper ← decRed f
    let d ← decOperand w.d
    let a ← decOperand w.a
    let _ ← chk (w.b == 0)
    some (.redux h ty oper d a)
  | 0x0A => do
    let scope ← decWScope f
    let group ← some (f.extractLsb' 0 8)
    let d ← decOperand w.d
    let a ← decOperand w.a
    let b ← decOperand w.b
    some (.expw h scope group d a b)
  | 0x0B => do
    let _ ← chk (f == 0)
    let d ← decOperand w.d
    let _ ← chk (w.a == 0)
    let _ ← chk (w.b == 0)
    some (.revw h d)
  | 0x0C => do
    let _ ← chk (f == 0)
    let d ← decOperand w.d
    let a ← decOperand w.a
    let _ ← chk (w.b == 0)
    some (.bindw h d a)
  | 0x0D => do
    let _ ← chk (f == 0)
    let d ← decOperand w.d
    let _ ← chk (w.a == 0)
    let _ ← chk (w.b == 0)
    some (.setf h d)
  | 0x0E => do
    let _ ← chk (f == 0)
    let d ← decOperand w.d
    let _ ← chk (w.a == 0)
    let _ ← chk (w.b == 0)
    some (.clrf h d)
  | 0x0F => do
    let _ ← chk (f == 0)
    let d ← decOperand w.d
    let a ← decOperand w.a
    let _ ← chk (w.b == 0)
    some (.testf h d a)
  | 0x10 => do
    let _ ← chk (f == 0)
    let d ← decOperand w.d
    let a ← decOperand w.a
    let _ ← chk (w.b == 0)
    some (.frame h d a)
  | 0x11 => do
    let _ ← chk (f == 0)
    let d ← decOperand w.d
    let a ← decOperand w.a
    let _ ← chk (w.b == 0)
    some (.unframe h d a)
  | _ => none

/-- Class 0x3 of the opcode map (R88), by slot. -/
def decodeCmp (slot : Nat) (h : Hdr) (w : Fields) : Option Instr :=
  let f := w.fam
  match slot with
  | 0x01 => do
    let _ ← chk (f &&& 0x300 == 0)
    let ty ← decTy f
    let rel ← some (f.extractLsb' 0 4)
    let d ← decOperand w.d
    let a ← decOperand w.a
    let b ← decOperand w.b
    some (.isetp h ty rel d a b)
  | 0x02 => do
    let _ ← chk (f &&& 0x300 == 0)
    let ty ← decTy f
    let rel ← some (f.extractLsb' 0 4)
    let d ← decOperand w.d
    let a ← decOperand w.a
    let b ← decOperand w.b
    some (.iset h ty rel d a b)
  | 0x03 => do
    let _ ← chk (f &&& 0x30F == 0)
    let ty ← decTy f
    let d ← decOperand w.d
    let a ← decOperand w.a
    let b ← decOperand w.b
    some (.sel h ty d a b)
  | 0x04 => do
    let _ ← chk (f &&& 0x300 == 0)
    let ty ← decTy f
    let tt ← some (f.extractLsb' 0 4)
    let d ← decOperand w.d
    let a ← decOperand w.a
    let b ← decOperand w.b
    some (.psetp h ty tt d a b)
  | 0x05 => do
    let _ ← chk (f &&& 0x30F == 0)
    let ty ← decTy f
    let d ← decOperand w.d
    let _ ← chk (w.a == 0)
    let _ ← chk (w.b == 0)
    some (.p2v h ty d)
  | 0x06 => do
    let _ ← chk (f &&& 0x30F == 0)
    let ty ← decTy f
    let _ ← chk (w.d == 0)
    let a ← decOperand w.a
    let b ← decOperand w.b
    some (.v2p h ty a b)
  | _ => none

/-- Class 0x4 of the opcode map (R88), by slot. -/
def decodeF32 (slot : Nat) (h : Hdr) (w : Fields) : Option Instr :=
  let f := w.fam
  match slot with
  | 0x01 => do
    let m ← decArith f
    let d ← decOperand w.d
    let a ← decOperand w.a
    let b ← decOperand w.b
    some (.fadd h m d a b)
  | 0x02 => do
    let m ← decArith f
    let d ← decOperand w.d
    let a ← decOperand w.a
    let b ← decOperand w.b
    some (.fsub h m d a b)
  | 0x03 => do
    let m ← decArith f
    let d ← decOperand w.d
    let a ← decOperand w.a
    let b ← decOperand w.b
    some (.fmul h m d a b)
  | 0x04 => do
    let m ← decArith f
    let d ← decOperand w.d
    let a ← decOperand w.a
    let b ← decOperand w.b
    some (.ffma h m d a b)
  | 0x05 => do
    let m ← decArith f
    let d ← decOperand w.d
    let a ← decOperand w.a
    let b ← decOperand w.b
    some (.fmin h m d a b)
  | 0x06 => do
    let m ← decArith f
    let d ← decOperand w.d
    let a ← decOperand w.a
    let b ← decOperand w.b
    some (.fmax h m d a b)
  | 0x07 => do
    let m ← decArith f
    let d ← decOperand w.d
    let a ← decOperand w.a
    let b ← decOperand w.b
    some (.fminm h m d a b)
  | 0x08 => do
    let m ← decArith f
    let d ← decOperand w.d
    let a ← decOperand w.a
    let b ← decOperand w.b
    some (.fmaxm h m d a b)
  | 0x09 => do
    let m ← decFCmp f
    let d ← decOperand w.d
    let a ← decOperand w.a
    let b ← decOperand w.b
    some (.fsetp h m d a b)
  | 0x0A => do
    let m ← decArith f
    let d ← decOperand w.d
    let a ← decOperand w.a
    let _ ← chk (w.b == 0)
    some (.fclass h m d a)
  | 0x0B => do
    let m ← decArith f
    let d ← decOperand w.d
    let a ← decOperand w.a
    let _ ← chk (w.b == 0)
    some (.frnd h m d a)
  | 0x0C => do
    let m ← decArith f
    let d ← decOperand w.d
    let a ← decOperand w.a
    let _ ← chk (w.b == 0)
    some (.ffrc h m d a)
  | 0x0D => do
    let m ← decArith f
    let d ← decOperand w.d
    let a ← decOperand w.a
    let b ← decOperand w.b
    some (.fscale h m d a b)
  | 0x0E => do
    let m ← decArith f
    let d ← decOperand w.d
    let a ← decOperand w.a
    let _ ← chk (w.b == 0)
    some (.fgetexp h m d a)
  | 0x0F => do
    let m ← decArith f
    let d ← decOperand w.d
    let a ← decOperand w.a
    let b ← decOperand w.b
    some (.fdiv h m d a b)
  | 0x10 => do
    let m ← decArith f
    let d ← decOperand w.d
    let a ← decOperand w.a
    let _ ← chk (w.b == 0)
    some (.fsqrt h m d a)
  | 0x11 => do
    let m ← decArith f
    let d ← decOperand w.d
    let a ← decOperand w.a
    let _ ← chk (w.b == 0)
    some (.frcp h m d a)
  | 0x12 => do
    let m ← decArith f
    let d ← decOperand w.d
    let a ← decOperand w.a
    let _ ← chk (w.b == 0)
    some (.frsq h m d a)
  | 0x13 => do
    let m ← decArith f
    let d ← decOperand w.d
    let a ← decOperand w.a
    let _ ← chk (w.b == 0)
    some (.fexp2 h m d a)
  | 0x14 => do
    let m ← decArith f
    let d ← decOperand w.d
    let a ← decOperand w.a
    let _ ← chk (w.b == 0)
    some (.flog2 h m d a)
  | 0x15 => do
    let m ← decArith f
    let d ← decOperand w.d
    let a ← decOperand w.a
    let _ ← chk (w.b == 0)
    some (.fsinpi h m d a)
  | 0x16 => do
    let m ← decArith f
    let d ← decOperand w.d
    let a ← decOperand w.a
    let _ ← chk (w.b == 0)
    some (.fcospi h m d a)
  | 0x17 => do
    let m ← decArith f
    let d ← decOperand w.d
    let a ← decOperand w.a
    let _ ← chk (w.b == 0)
    some (.ftanh h m d a)
  | _ => none

/-- Class 0x5 of the opcode map (R88), by slot. -/
def decodeHalf (slot : Nat) (h : Hdr) (w : Fields) : Option Instr :=
  let f := w.fam
  match slot with
  | 0x01 => do
    let m ← decArith f
    let d ← decOperand w.d
    let a ← decOperand w.a
    let b ← decOperand w.b
    some (.hadd2 h m d a b)
  | 0x02 => do
    let m ← decArith f
    let d ← decOperand w.d
    let a ← decOperand w.a
    let b ← decOperand w.b
    some (.hmul2 h m d a b)
  | 0x03 => do
    let m ← decArith f
    let d ← decOperand w.d
    let a ← decOperand w.a
    let b ← decOperand w.b
    some (.hfma2 h m d a b)
  | 0x04 => do
    let m ← decArith f
    let d ← decOperand w.d
    let a ← decOperand w.a
    let b ← decOperand w.b
    some (.hmin2 h m d a b)
  | 0x05 => do
    let m ← decArith f
    let d ← decOperand w.d
    let a ← decOperand w.a
    let b ← decOperand w.b
    some (.hmax2 h m d a b)
  | 0x06 => do
    let m ← decFCmp f
    let d ← decOperand w.d
    let a ← decOperand w.a
    let b ← decOperand w.b
    some (.hsetp2 h m d a b)
  | _ => none

/-- Class 0x6 of the opcode map (R88), by slot. -/
def decodeConv (slot : Nat) (h : Hdr) (w : Fields) : Option Instr :=
  let f := w.fam
  match slot with
  | 0x01 => do
    let _ ← chk (f &&& 0x078 == 0)
    let rnd ← decRnd (f.extractLsb' 8 2)
    let dirFrom ← some (f.getLsbD 7)
    let slot ← some (f.extractLsb' 0 3)
    let d ← decOperand w.d
    let a ← decOperand w.a
    let _ ← chk (w.b == 0)
    some (.fcvt h rnd dirFrom slot d a)
  | 0x02 => do
    let rnd ← decRnd (f.extractLsb' 8 2)
    let dt ← decITy (f.extractLsb' 4 4)
    let sf ← decVFmt (f.extractLsb' 0 4)
    let d ← decOperand w.d
    let a ← decOperand w.a
    let _ ← chk (w.b == 0)
    some (.f2i h rnd dt sf d a)
  | 0x03 => do
    let rnd ← decRnd (f.extractLsb' 8 2)
    let df ← decVFmt (f.extractLsb' 4 4)
    let sty ← decITy (f.extractLsb' 0 4)
    let d ← decOperand w.d
    let a ← decOperand w.a
    let _ ← chk (w.b == 0)
    some (.i2f h rnd df sty d a)
  | 0x04 => do
    let _ ← chk (f &&& 0x0F8 == 0)
    let rnd ← decRnd (f.extractLsb' 8 2)
    let slot ← some (f.extractLsb' 0 3)
    let d ← decOperand w.d
    let a ← decOperand w.a
    let b ← decOperand w.b
    some (.fpack h rnd slot d a b)
  | 0x05 => do
    let _ ← chk (f &&& 0x3F8 == 0)
    let slot ← some (f.extractLsb' 0 3)
    let d ← decOperand w.d
    let a ← decOperand w.a
    let b ← decOperand w.b
    some (.funpack h slot d a b)
  | 0x06 => do
    let _ ← chk (f &&& 0x3E0 == 0)
    let j ← some (f.extractLsb' 0 2)
    let slot ← some (f.extractLsb' 2 3)
    let d ← decOperand w.d
    let a ← decOperand w.a
    let _ ← chk (w.b == 0)
    some (.qblk h j slot d a)
  | _ => none

/-- Class 0x7 of the opcode map (R88), by slot. -/
def decodeLoad (slot : Nat) (h : Hdr) (w : Fields) : Option Instr :=
  let f := w.fam
  match slot with
  | 0x01 => do
    let _ ← chk (f &&& 0x3F8 == 0)
    let size ← decSize f
    let d ← decOperand w.d
    let a ← decOperand w.a
    let b ← decOperand w.b
    some (.ld h size d a b)
  | 0x02 => do
    let _ ← chk (f &&& 0x3F8 == 0)
    let size ← decSize f
    let d ← decOperand w.d
    let a ← decOperand w.a
    let b ← decOperand w.b
    some (.st h size d a b)
  | 0x03 => do
    let _ ← chk (f &&& 0x078 == 0)
    let scope ← decScope f
    let size ← decSize f
    let d ← decOperand w.d
    let a ← decOperand w.a
    let b ← decOperand w.b
    some (.lda h scope size d a b)
  | 0x04 => do
    let _ ← chk (f &&& 0x078 == 0)
    let scope ← decScope f
    let size ← decSize f
    let d ← decOperand w.d
    let a ← decOperand w.a
    let b ← decOperand w.b
    some (.stl h scope size d a b)
  | _ => none

/-- Class 0x8 of the opcode map (R88), by slot. -/
def decodeAtomic (slot : Nat) (h : Hdr) (w : Fields) : Option Instr :=
  let f := w.fam
  match slot with
  | 0x01 => do
    let ord ← decOrd f
    let ty ← decTy f
    let oper ← decAOper f
    let d ← decOperand w.d
    let a ← decOperand w.a
    let b ← decOperand w.b
    some (.atom h ord ty oper d a b)
  | 0x02 => do
    let ord ← decOrd f
    let ty ← decTy f
    let oper ← decAOper f
    let _ ← chk (w.d == 0)
    let a ← decOperand w.a
    let b ← decOperand w.b
    some (.red h ord ty oper a b)
  | 0x03 => do
    let _ ← chk (f &&& 0x07C == 0)
    let scope ← decScope f
    let kind ← decFence f
    let _ ← chk (w.d == 0)
    let _ ← chk (w.a == 0)
    let _ ← chk (w.b == 0)
    some (.fence h scope kind)
  | _ => none

/-- Class 0x9 of the opcode map (R88), by slot. -/
def decodeCopy (slot : Nat) (h : Hdr) (w : Fields) : Option Instr :=
  let f := w.fam
  match slot with
  | 0x01 => do
    let _ ← chk (f &&& 0x003 == 0)
    let size ← decCpySize (f.extractLsb' 8 2)
    let dsp ← decSpace (f.extractLsb' 5 3)
    let ssp ← decSpace (f.extractLsb' 2 3)
    let d ← decOperand w.d
    let a ← decOperand w.a
    let b ← decOperand w.b
    some (.cpy h size dsp ssp d a b)
  | 0x02 => do
    let _ ← chk (f &&& 0x30F == 0)
    let eg ← some (decEGuard f)
    let d ← decOperand w.d
    let a ← decOperand w.a
    let _ ← chk (w.b == 0)
    some (.cpym h eg d a)
  | 0x03 => do
    let _ ← chk (f &&& 0x00F == 0)
    let sto ← some (f.getLsbD 9)
    let kvm ← some (f.getLsbD 8)
    let eg ← some (decEGuard f)
    let d ← decOperand w.d
    let a ← decOperand w.a
    let b ← decOperand w.b
    some (.tcopy h sto kvm eg d a b)
  | 0x04 => do
    let _ ← chk (f &&& 0x30F == 0)
    let eg ← some (decEGuard f)
    let d ← decOperand w.d
    let a ← decOperand w.a
    let b ← decOperand w.b
    some (.tsld h eg d a b)
  | 0x05 => do
    let _ ← chk (f &&& 0x30F == 0)
    let eg ← some (decEGuard f)
    let d ← decOperand w.d
    let _ ← chk (w.a == 0)
    let _ ← chk (w.b == 0)
    some (.tsev h eg d)
  | 0x06 => do
    let _ ← chk (f == 0)
    let _ ← chk (w.d == 0)
    let a ← decOperand w.a
    let b ← decOperand w.b
    some (.kick h a b)
  | 0x07 => do
    let _ ← chk (f &&& 0x3FE == 0)
    let tag ← some (f.getLsbD 0)
    let d ← decOperand w.d
    let a ← decOperand w.a
    let _ ← chk (w.b == 0)
    some (.kwait h tag d a)
  | 0x08 => do
    let _ ← chk (f &&& 0x10F == 0)
    let ack ← some (f.getLsbD 9)
    let eg ← some (decEGuard f)
    let d ← decOperand w.d
    let a ← decOperand w.a
    let _ ← chk (w.b == 0)
    some (.pull h ack eg d a)
  | 0x09 => do
    let _ ← chk (f == 0)
    let _ ← chk (w.d == 0)
    let a ← decOperand w.a
    let _ ← chk (w.b == 0)
    some (.ack h a)
  | _ => none

/-- Class 0xA of the opcode map (R88), by slot. -/
def decodeSync (slot : Nat) (h : Hdr) (w : Fields) : Option Instr :=
  let f := w.fam
  match slot with
  | 0x01 => do
    let _ ← chk (f &&& 0x3F8 == 0)
    let c ← decTctx f
    let d ← decOperand w.d
    let a ← decOperand w.a
    let _ ← chk (w.b == 0)
    some (.tlrd h c d a)
  | 0x02 => do
    let _ ← chk (f &&& 0x3F8 == 0)
    let c ← decTctx f
    let d ← decOperand w.d
    let a ← decOperand w.a
    let _ ← chk (w.b == 0)
    some (.tltag h c d a)
  | 0x03 => do
    let _ ← chk (f &&& 0x078 == 0)
    let c ← decTctx f
    let scope ← decScope f
    let _ ← chk (w.d == 0)
    let a ← decOperand w.a
    let b ← decOperand w.b
    some (.tlwait h c scope a b)
  | 0x04 => do
    let _ ← chk (f &&& 0x3FE == 0)
    let cnt ← some (f.getLsbD 0)
    let _ ← chk (w.d == 0)
    let a ← decOperand w.a
    let b ← decOperand w.b
    some (.bar h cnt a b)
  | 0x05 => do
    let _ ← chk (f == 0)
    let _ ← chk (w.d == 0)
    let a ← decOperand w.a
    let _ ← chk (w.b == 0)
    some (.gbar h a)
  | 0x06 => do
    let _ ← chk (f == 0)
    let d ← decOperand w.d
    let a ← decOperand w.a
    let _ ← chk (w.b == 0)
    some (.abinit h d a)
  | 0x07 => do
    let _ ← chk (f == 0)
    let d ← decOperand w.d
    let a ← decOperand w.a
    let _ ← chk (w.b == 0)
    some (.abexp h d a)
  | 0x08 => do
    let _ ← chk (f == 0)
    let d ← decOperand w.d
    let a ← decOperand w.a
    let _ ← chk (w.b == 0)
    some (.abarv h d a)
  | 0x09 => do
    let _ ← chk (f == 0)
    let _ ← chk (w.d == 0)
    let a ← decOperand w.a
    let b ← decOperand w.b
    some (.abwait h a b)
  | 0x0A => do
    let _ ← chk (f &&& 0x3FE == 0)
    let block ← some (f.getLsbD 0)
    let d ← decOperand w.d
    let a ← decOperand w.a
    let _ ← chk (w.b == 0)
    some (.kdecl h block d a)
  | 0x0B => do
    let _ ← chk (f == 0)
    let _ ← chk (w.d == 0)
    let a ← decOperand w.a
    let _ ← chk (w.b == 0)
    some (.sign h a)
  | 0x0C => do
    let _ ← chk (f == 0)
    let d ← decOperand w.d
    let a ← decOperand w.a
    let b ← decOperand w.b
    some (.rconv h d a b)
  | 0x0D => do
    let _ ← chk (f == 0)
    let d ← decOperand w.d
    let a ← decOperand w.a
    let _ ← chk (w.b == 0)
    some (.gres h d a)
  | 0x0E => do
    let _ ← chk (f == 0)
    let d ← decOperand w.d
    let _ ← chk (w.a == 0)
    let _ ← chk (w.b == 0)
    some (.gclr h d)
  | 0x0F => do
    let _ ← chk (f == 0)
    let _ ← chk (w.d == 0)
    let _ ← chk (w.a == 0)
    let _ ← chk (w.b == 0)
    some (.yield h)
  | 0x10 => do
    let _ ← chk (f == 0)
    let _ ← chk (w.d == 0)
    let a ← decOperand w.a
    let _ ← chk (w.b == 0)
    some (.sleep h a)
  | _ => none

/-- Class 0xB of the opcode map (R88), by slot. -/
def decodeCtl (slot : Nat) (h : Hdr) (w : Fields) : Option Instr :=
  let f := w.fam
  match slot with
  | 0x01 => do
    let _ ← chk (f &&& 0x3FE == 0)
    let cnt ← some (f.getLsbD 0)
    let d ← decOperand w.d
    let off ← decOff w.a w.b
    some (.bra h cnt d off)
  | 0x02 => do
    let _ ← chk (f == 0)
    let _ ← chk (w.d == 0)
    let a ← decOperand w.a
    let _ ← chk (w.b == 0)
    some (.brx h a)
  | 0x03 => do
    let _ ← chk (f == 0)
    let _ ← chk (w.d == 0)
    let off ← decOff w.a w.b
    some (.call h off)
  | 0x04 => do
    let _ ← chk (f == 0)
    let _ ← chk (w.d == 0)
    let a ← decOperand w.a
    let _ ← chk (w.b == 0)
    some (.callx h a)
  | 0x05 => do
    let _ ← chk (f == 0)
    let _ ← chk (w.d == 0)
    let _ ← chk (w.a == 0)
    let _ ← chk (w.b == 0)
    some (.ret h)
  | 0x06 => do
    let _ ← chk (f == 0)
    let _ ← chk (w.d == 0)
    let _ ← chk (w.a == 0)
    let _ ← chk (w.b == 0)
    some (.exit h)
  | 0x07 => do
    let _ ← chk (f == 0)
    let _ ← chk (w.d == 0)
    let a ← decOperand w.a
    let _ ← chk (w.b == 0)
    some (.trap h a)
  | 0x08 => do
    let _ ← chk (f == 0)
    let _ ← chk (w.d == 0)
    let _ ← chk (w.a == 0)
    let _ ← chk (w.b == 0)
    some (.tret h)
  | 0x09 => do
    let _ ← chk (f == 0)
    let d ← decOperand w.d
    let a ← decOperand w.a
    let b ← decOperand w.b
    some (.sysc h d a b)
  | 0x0A => do
    let _ ← chk (f == 0)
    let _ ← chk (w.d == 0)
    let _ ← chk (w.a == 0)
    let _ ← chk (w.b == 0)
    some (.nop h)
  | 0x0B => do
    let _ ← chk (f == 0)
    let _ ← chk (w.d == 0)
    let a ← decOperand w.a
    let _ ← chk (w.b == 0)
    some (.setpat h a)
  | _ => none

/-- Class 0xC of the opcode map (R88), by slot. -/
def decodeArray (slot : Nat) (h : Hdr) (w : Fields) : Option Instr :=
  let f := w.fam
  match slot with
  | 0x01 => do
    let gsel ← some (f.extractLsb' 7 3)
    let kreg ← some (f.extractLsb' 3 4)
    let slot ← some (f.extractLsb' 0 3)
    let d ← decOperand w.d
    let a ← decOperand w.a
    let b ← decOperand w.b
    some (.mma h gsel kreg slot d a b)
  | 0x02 => do
    let _ ← chk (f &&& 0x040 == 0)
    let gsel ← some (f.extractLsb' 7 3)
    let nsm1 ← some (f.extractLsb' 0 6)
    let d ← decOperand w.d
    let a ← decOperand w.a
    let b ← decOperand w.b
    some (.wld h gsel nsm1 d a b)
  | 0x03 => do
    let _ ← chk (f &&& 0x07E == 0)
    let gsel ← some (f.extractLsb' 7 3)
    let sto ← some (f.getLsbD 0)
    let d ← decOperand w.d
    let _ ← chk (w.a == 0)
    let _ ← chk (w.b == 0)
    some (.aclr h gsel sto d)
  | 0x04 => do
    let _ ← chk (f &&& 0x07E == 0)
    let gsel ← some (f.extractLsb' 7 3)
    let reg ← some (f.getLsbD 0)
    let d ← decOperand w.d
    let a ← decOperand w.a
    let b ← decOperand w.b
    some (.ald h gsel reg d a b)
  | 0x05 => do
    let _ ← chk (f &&& 0x008 == 0)
    let gsel ← some (f.extractLsb' 7 3)
    let rnd ← decRnd (f.extractLsb' 5 2)
    let int ← some (f.getLsbD 4)
    let slot ← some (f.extractLsb' 0 3)
    let d ← decOperand w.d
    let a ← decOperand w.a
    let _ ← chk (w.b == 0)
    some (.asto h gsel rnd int slot d a)
  | 0x06 => do
    let gsel ← some (f.extractLsb' 7 3)
    let kreg ← some (f.extractLsb' 3 4)
    let slot ← some (f.extractLsb' 0 3)
    let d ← decOperand w.d
    let a ← decOperand w.a
    let b ← decOperand w.b
    some (.att h gsel kreg slot d a b)
  | 0x07 => do
    let _ ← chk (f &&& 0x007 == 0)
    let gsel ← some (f.extractLsb' 7 3)
    let kreg ← some (f.extractLsb' 3 4)
    let d ← decOperand w.d
    let a ← decOperand w.a
    let _ ← chk (w.b == 0)
    some (.attfin h gsel kreg d a)
  | 0x08 => do
    let _ ← chk (f &&& 0x007 == 0)
    let gsel ← some (f.extractLsb' 7 3)
    let kreg ← some (f.extractLsb' 3 4)
    let d ← decOperand w.d
    let a ← decOperand w.a
    let b ← decOperand w.b
    some (.ladinit h gsel kreg d a b)
  | 0x09 => do
    let _ ← chk (f &&& 0x007 == 0)
    let gsel ← some (f.extractLsb' 7 3)
    let kreg ← some (f.extractLsb' 3 4)
    let d ← decOperand w.d
    let a ← decOperand w.a
    let _ ← chk (w.b == 0)
    some (.ladpush h gsel kreg d a)
  | 0x0A => do
    let _ ← chk (f &&& 0x007 == 0)
    let gsel ← some (f.extractLsb' 7 3)
    let kreg ← some (f.extractLsb' 3 4)
    let d ← decOperand w.d
    let a ← decOperand w.a
    let b ← decOperand w.b
    some (.ladread h gsel kreg d a b)
  | 0x0B => do
    let _ ← chk (f &&& 0x007 == 0)
    let gsel ← some (f.extractLsb' 7 3)
    let kreg ← some (f.extractLsb' 3 4)
    let d ← decOperand w.d
    let a ← decOperand w.a
    let b ← decOperand w.b
    some (.ladld h gsel kreg d a b)
  | _ => none

/-- Class 0xD of the opcode map (R88), by slot. -/
def decodeColl (slot : Nat) (h : Hdr) (w : Fields) : Option Instr :=
  let f := w.fam
  match slot with
  | 0x01 => do
    let _ ← chk (f == 0)
    let _ ← chk (w.d == 0)
    let a ← decOperand w.a
    let b ← decOperand w.b
    some (.wqpost h a b)
  | 0x02 => do
    let _ ← chk (f &&& 0x200 == 0)
    let time ← some (f.getLsbD 8)
    let cidx ← some (f.extractLsb' 0 8)
    let _ ← chk (w.d == 0)
    let a ← decOperand w.a
    let b ← decOperand w.b
    some (.tarm h time cidx a b)
  | 0x03 => do
    let _ ← chk (f &&& 0x3FC == 0)
    let aft ← some (f.getLsbD 1)
    let set ← some (f.getLsbD 0)
    let d ← decOperand w.d
    let a ← decOperand w.a
    let b ← decOperand w.b
    some (.cntadd h aft set d a b)
  | 0x04 => do
    let _ ← chk (f == 0)
    let _ ← chk (w.d == 0)
    let a ← decOperand w.a
    let _ ← chk (w.b == 0)
    some (.sched h a)
  | _ => none

/-- Class 0xE of the opcode map (R88), by slot. -/
def decodeSys (slot : Nat) (h : Hdr) (w : Fields) : Option Instr :=
  let f := w.fam
  match slot with
  | 0x01 => do
    let _ ← chk (f == 0)
    let d ← decOperand w.d
    let a ← decOperand w.a
    let _ ← chk (w.b == 0)
    some (.mfsr h d a)
  | 0x02 => do
    let _ ← chk (f == 0)
    let d ← decOperand w.d
    let a ← decOperand w.a
    let _ ← chk (w.b == 0)
    some (.mtsr h d a)
  | 0x03 => do
    let _ ← chk (f == 0)
    let _ ← chk (w.d == 0)
    let a ← decOperand w.a
    let b ← decOperand w.b
    some (.eret h a b)
  | 0x04 => do
    let _ ← chk (f == 0)
    let _ ← chk (w.d == 0)
    let _ ← chk (w.a == 0)
    let _ ← chk (w.b == 0)
    some (.halt h)
  | 0x05 => do
    let _ ← chk (f == 0)
    let _ ← chk (w.d == 0)
    let a ← decOperand w.a
    let _ ← chk (w.b == 0)
    some (.tlbfls h a)
  | 0x06 => do
    let _ ← chk (f == 0)
    let _ ← chk (w.d == 0)
    let _ ← chk (w.a == 0)
    let _ ← chk (w.b == 0)
    some (.tldrain h)
  | 0x07 => do
    let _ ← chk (f == 0)
    let d ← decOperand w.d
    let a ← decOperand w.a
    let _ ← chk (w.b == 0)
    some (.fbrd h d a)
  | 0x08 => do
    let _ ← chk (f == 0)
    let _ ← chk (w.d == 0)
    let _ ← chk (w.a == 0)
    let _ ← chk (w.b == 0)
    some (.fbpop h)
  | 0x09 => do
    let _ ← chk (f == 0)
    let _ ← chk (w.d == 0)
    let _ ← chk (w.a == 0)
    let _ ← chk (w.b == 0)
    some (.replay h)
  | 0x0A => 
    (do
      let _ ← chk (f == 0)
      let _ ← chk (w.d == 0)
      let a ← decOperand w.a
      let _ ← chk (w.b == 0)
      some (.winqPush h a)) <|>
    (do
      let _ ← chk (f == 1)
      let d ← decOperand w.d
      let _ ← chk (w.a == 0)
      let _ ← chk (w.b == 0)
      some (.winqPop h d))
  | 0x0B => do
    let _ ← chk (f == 0)
    let _ ← chk (w.d == 0)
    let a ← decOperand w.a
    let b ← decOperand w.b
    some (.ctxsv h a b)
  | 0x0C => do
    let _ ← chk (f == 0)
    let _ ← chk (w.d == 0)
    let a ← decOperand w.a
    let b ← decOperand w.b
    some (.ctxld h a b)
  | 0x0D => 
    (do
      let _ ← chk (f == 0)
      let d ← decOperand w.d
      let a ← decOperand w.a
      let b ← decOperand w.b
      some (.lnkctlStat h d a b)) <|>
    (do
      let _ ← chk (f == 1)
      let _ ← chk (w.d == 0)
      let a ← decOperand w.a
      let b ← decOperand w.b
      some (.lnkctlPause h a b)) <|>
    (do
      let _ ← chk (f == 2)
      let _ ← chk (w.d == 0)
      let a ← decOperand w.a
      let b ← decOperand w.b
      some (.lnkctlResume h a b)) <|>
    (do
      let _ ← chk (f == 3)
      let _ ← chk (w.d == 0)
      let a ← decOperand w.a
      let b ← decOperand w.b
      some (.lnkctlRemap h a b)) <|>
    (do
      let _ ← chk (f == 4)
      let _ ← chk (w.d == 0)
      let a ← decOperand w.a
      let b ← decOperand w.b
      some (.lnkctlTrain h a b)) <|>
    (do
      let _ ← chk (f == 5)
      let _ ← chk (w.d == 0)
      let a ← decOperand w.a
      let b ← decOperand w.b
      some (.lnkctlHalf h a b))
  | _ => none

/-- Class 0xF of the opcode map (R88), by slot. -/
def decodeDbg (slot : Nat) (h : Hdr) (w : Fields) : Option Instr :=
  let f := w.fam
  match slot with
  | 0x01 => do
    let _ ← chk (f == 0)
    let _ ← chk (w.d == 0)
    let a ← decOperand w.a
    let _ ← chk (w.b == 0)
    some (.bkpt h a)
  | 0x02 => do
    let _ ← chk (f == 0)
    let _ ← chk (w.d == 0)
    let a ← decOperand w.a
    let _ ← chk (w.b == 0)
    some (.sstep h a)
  | 0x03 => do
    let _ ← chk (f == 0)
    let _ ← chk (w.d == 0)
    let a ← decOperand w.a
    let _ ← chk (w.b == 0)
    some (.trcmk h a)
  | 0x04 => do
    let _ ← chk (f == 0)
    let d ← decOperand w.d
    let a ← decOperand w.a
    let _ ← chk (w.b == 0)
    some (.cntrd h d a)
  | _ => none

/-- The fields of an instruction word (R92); all zero, which is no instruction, for a schedule word or a step. -/
def encode : Instr → Fields
  | .iadd h m d a b => wordOf 0x001 h (encOperand d) (encOperand a) (encOperand b) (encArith m)
  | .isub h m d a b => wordOf 0x002 h (encOperand d) (encOperand a) (encOperand b) (encArith m)
  | .iadc h m d a b => wordOf 0x003 h (encOperand d) (encOperand a) (encOperand b) (encArith m)
  | .imul h m d a b => wordOf 0x004 h (encOperand d) (encOperand a) (encOperand b) (encArith m)
  | .imulh h m d a b => wordOf 0x005 h (encOperand d) (encOperand a) (encOperand b) (encArith m)
  | .imad h m d a b => wordOf 0x006 h (encOperand d) (encOperand a) (encOperand b) (encArith m)
  | .imadw h m d a b => wordOf 0x007 h (encOperand d) (encOperand a) (encOperand b) (encArith m)
  | .idiv h m d a b => wordOf 0x008 h (encOperand d) (encOperand a) (encOperand b) (encArith m)
  | .irem h m d a b => wordOf 0x009 h (encOperand d) (encOperand a) (encOperand b) (encArith m)
  | .imin h m d a b => wordOf 0x00A h (encOperand d) (encOperand a) (encOperand b) (encArith m)
  | .imax h m d a b => wordOf 0x00B h (encOperand d) (encOperand a) (encOperand b) (encArith m)
  | .lea h m d a b => wordOf 0x00E h (encOperand d) (encOperand a) (encOperand b) (encArith m)
  | .idot4 h m d a b => wordOf 0x00F h (encOperand d) (encOperand a) (encOperand b) (encArith m)
  | .isad h m d a b => wordOf 0x010 h (encOperand d) (encOperand a) (encOperand b) (encArith m)
  | .land h m d a b => wordOf 0x041 h (encOperand d) (encOperand a) (encOperand b) (encArith m)
  | .lor h m d a b => wordOf 0x042 h (encOperand d) (encOperand a) (encOperand b) (encArith m)
  | .lxor h m d a b => wordOf 0x043 h (encOperand d) (encOperand a) (encOperand b) (encArith m)
  | .andn h m d a b => wordOf 0x044 h (encOperand d) (encOperand a) (encOperand b) (encArith m)
  | .lop3 h m d a b => wordOf 0x046 h (encOperand d) (encOperand a) (encOperand b) (encArith m)
  | .shl h m d a b => wordOf 0x047 h (encOperand d) (encOperand a) (encOperand b) (encArith m)
  | .shr h m d a b => wordOf 0x048 h (encOperand d) (encOperand a) (encOperand b) (encArith m)
  | .sar h m d a b => wordOf 0x049 h (encOperand d) (encOperand a) (encOperand b) (encArith m)
  | .rol h m d a b => wordOf 0x04A h (encOperand d) (encOperand a) (encOperand b) (encArith m)
  | .fshl h m d a b => wordOf 0x04B h (encOperand d) (encOperand a) (encOperand b) (encArith m)
  | .bfe h m d a b => wordOf 0x04C h (encOperand d) (encOperand a) (encOperand b) (encArith m)
  | .bfi h m d a b => wordOf 0x04D h (encOperand d) (encOperand a) (encOperand b) (encArith m)
  | .prmt h m d a b => wordOf 0x052 h (encOperand d) (encOperand a) (encOperand b) (encArith m)
  | .fadd h m d a b => wordOf 0x101 h (encOperand d) (encOperand a) (encOperand b) (encArith m)
  | .fsub h m d a b => wordOf 0x102 h (encOperand d) (encOperand a) (encOperand b) (encArith m)
  | .fmul h m d a b => wordOf 0x103 h (encOperand d) (encOperand a) (encOperand b) (encArith m)
  | .ffma h m d a b => wordOf 0x104 h (encOperand d) (encOperand a) (encOperand b) (encArith m)
  | .fmin h m d a b => wordOf 0x105 h (encOperand d) (encOperand a) (encOperand b) (encArith m)
  | .fmax h m d a b => wordOf 0x106 h (encOperand d) (encOperand a) (encOperand b) (encArith m)
  | .fminm h m d a b => wordOf 0x107 h (encOperand d) (encOperand a) (encOperand b) (encArith m)
  | .fmaxm h m d a b => wordOf 0x108 h (encOperand d) (encOperand a) (encOperand b) (encArith m)
  | .fscale h m d a b => wordOf 0x10D h (encOperand d) (encOperand a) (encOperand b) (encArith m)
  | .fdiv h m d a b => wordOf 0x10F h (encOperand d) (encOperand a) (encOperand b) (encArith m)
  | .hadd2 h m d a b => wordOf 0x141 h (encOperand d) (encOperand a) (encOperand b) (encArith m)
  | .hmul2 h m d a b => wordOf 0x142 h (encOperand d) (encOperand a) (encOperand b) (encArith m)
  | .hfma2 h m d a b => wordOf 0x143 h (encOperand d) (encOperand a) (encOperand b) (encArith m)
  | .hmin2 h m d a b => wordOf 0x144 h (encOperand d) (encOperand a) (encOperand b) (encArith m)
  | .hmax2 h m d a b => wordOf 0x145 h (encOperand d) (encOperand a) (encOperand b) (encArith m)
  | .iabs h m d a => wordOf 0x00C h (encOperand d) (encOperand a) (0) (encArith m)
  | .ineg h m d a => wordOf 0x00D h (encOperand d) (encOperand a) (0) (encArith m)
  | .lnot h m d a => wordOf 0x045 h (encOperand d) (encOperand a) (0) (encArith m)
  | .popc h m d a => wordOf 0x04E h (encOperand d) (encOperand a) (0) (encArith m)
  | .clz h m d a => wordOf 0x04F h (encOperand d) (encOperand a) (0) (encArith m)
  | .ctz h m d a => wordOf 0x050 h (encOperand d) (encOperand a) (0) (encArith m)
  | .brev h m d a => wordOf 0x051 h (encOperand d) (encOperand a) (0) (encArith m)
  | .fclass h m d a => wordOf 0x10A h (encOperand d) (encOperand a) (0) (encArith m)
  | .frnd h m d a => wordOf 0x10B h (encOperand d) (encOperand a) (0) (encArith m)
  | .ffrc h m d a => wordOf 0x10C h (encOperand d) (encOperand a) (0) (encArith m)
  | .fgetexp h m d a => wordOf 0x10E h (encOperand d) (encOperand a) (0) (encArith m)
  | .fsqrt h m d a => wordOf 0x110 h (encOperand d) (encOperand a) (0) (encArith m)
  | .frcp h m d a => wordOf 0x111 h (encOperand d) (encOperand a) (0) (encArith m)
  | .frsq h m d a => wordOf 0x112 h (encOperand d) (encOperand a) (0) (encArith m)
  | .fexp2 h m d a => wordOf 0x113 h (encOperand d) (encOperand a) (0) (encArith m)
  | .flog2 h m d a => wordOf 0x114 h (encOperand d) (encOperand a) (0) (encArith m)
  | .fsinpi h m d a => wordOf 0x115 h (encOperand d) (encOperand a) (0) (encArith m)
  | .fcospi h m d a => wordOf 0x116 h (encOperand d) (encOperand a) (0) (encArith m)
  | .ftanh h m d a => wordOf 0x117 h (encOperand d) (encOperand a) (0) (encArith m)
  | .mov h d a => wordOf 0x081 h (encOperand d) (encOperand a) (0) (0#10)
  | .movi h d c => wordOf 0x082 h (encOperand d) (moviA c) (moviB c) (0#10)
  | .mov64 h hnd d a => wordOf 0x083 h (encOperand d) (encOperand a) (0) (bit hnd 0)
  | .movx h sp d a b => wordOf 0x084 h (encOperand d) (encOperand a) (encOperand b) (bit sp 0)
  | .stx h sp d a b => wordOf 0x085 h (encOperand d) (encOperand a) (encOperand b) (bit sp 0)
  | .shfl h mode d a b => wordOf 0x086 h (encOperand d) (encOperand a) (encOperand b) (encShfl mode)
  | .bcast h d a b => wordOf 0x087 h (encOperand d) (encOperand a) (encOperand b) (0#10)
  | .vote h kind d a => wordOf 0x088 h (encOperand d) (encOperand a) (0) (encVote kind)
  | .redux h ty oper d a => wordOf 0x089 h (encOperand d) (encOperand a) (0) (encTy ty ||| encRed oper)
  | .expw h scope group d a b => wordOf 0x08A h (encOperand d) (encOperand a) (encOperand b) (encWScope scope ++ group)
  | .revw h d => wordOf 0x08B h (encOperand d) (0) (0) (0#10)
  | .bindw h d a => wordOf 0x08C h (encOperand d) (encOperand a) (0) (0#10)
  | .setf h d => wordOf 0x08D h (encOperand d) (0) (0) (0#10)
  | .clrf h d => wordOf 0x08E h (encOperand d) (0) (0) (0#10)
  | .testf h d a => wordOf 0x08F h (encOperand d) (encOperand a) (0) (0#10)
  | .frame h d a => wordOf 0x090 h (encOperand d) (encOperand a) (0) (0#10)
  | .unframe h d a => wordOf 0x091 h (encOperand d) (encOperand a) (0) (0#10)
  | .isetp h ty rel d a b => wordOf 0x0C1 h (encOperand d) (encOperand a) (encOperand b) (encTy ty ||| rel.setWidth 10)
  | .iset h ty rel d a b => wordOf 0x0C2 h (encOperand d) (encOperand a) (encOperand b) (encTy ty ||| rel.setWidth 10)
  | .sel h ty d a b => wordOf 0x0C3 h (encOperand d) (encOperand a) (encOperand b) (encTy ty)
  | .psetp h ty tt d a b => wordOf 0x0C4 h (encOperand d) (encOperand a) (encOperand b) (encTy ty ||| tt.setWidth 10)
  | .p2v h ty d => wordOf 0x0C5 h (encOperand d) (0) (0) (encTy ty)
  | .v2p h ty a b => wordOf 0x0C6 h (0) (encOperand a) (encOperand b) (encTy ty)
  | .fsetp h m d a b => wordOf 0x109 h (encOperand d) (encOperand a) (encOperand b) (encFCmp m)
  | .hsetp2 h m d a b => wordOf 0x146 h (encOperand d) (encOperand a) (encOperand b) (encFCmp m)
  | .fcvt h rnd dirFrom slot d a => wordOf 0x181 h (encOperand d) (encOperand a) (0) (encRnd rnd ++ bits1 dirFrom ++ 0#4 ++ slot)
  | .f2i h rnd dt sf d a => wordOf 0x182 h (encOperand d) (encOperand a) (0) (encRnd rnd ++ encITy dt ++ encVFmt sf)
  | .i2f h rnd df sty d a => wordOf 0x183 h (encOperand d) (encOperand a) (0) (encRnd rnd ++ encVFmt df ++ encITy sty)
  | .fpack h rnd slot d a b => wordOf 0x184 h (encOperand d) (encOperand a) (encOperand b) (encRnd rnd ++ 0#5 ++ slot)
  | .funpack h slot d a b => wordOf 0x185 h (encOperand d) (encOperand a) (encOperand b) (0#7 ++ slot)
  | .qblk h j slot d a => wordOf 0x186 h (encOperand d) (encOperand a) (0) (0#5 ++ slot ++ j)
  | .ld h size d a b => wordOf 0x1C1 h (encOperand d) (encOperand a) (encOperand b) (encSize size)
  | .st h size d a b => wordOf 0x1C2 h (encOperand d) (encOperand a) (encOperand b) (encSize size)
  | .lda h scope size d a b => wordOf 0x1C3 h (encOperand d) (encOperand a) (encOperand b) (encScope scope ||| encSize size)
  | .stl h scope size d a b => wordOf 0x1C4 h (encOperand d) (encOperand a) (encOperand b) (encScope scope ||| encSize size)
  | .atom h ord ty oper d a b => wordOf 0x201 h (encOperand d) (encOperand a) (encOperand b) (encOrd ord ||| encTy ty ||| encAOper oper)
  | .red h ord ty oper a b => wordOf 0x202 h (0) (encOperand a) (encOperand b) (encOrd ord ||| encTy ty ||| encAOper oper)
  | .fence h scope kind => wordOf 0x203 h (0) (0) (0) (encScope scope ||| encFence kind)
  | .cpy h size dsp ssp d a b => wordOf 0x241 h (encOperand d) (encOperand a) (encOperand b) (encCpySize size ++ encSpace dsp ++ encSpace ssp ++ 0#2)
  | .cpym h eg d a => wordOf 0x242 h (encOperand d) (encOperand a) (0) (encEGuard eg)
  | .tcopy h sto kvm eg d a b => wordOf 0x243 h (encOperand d) (encOperand a) (encOperand b) (bit sto 9 ||| bit kvm 8 ||| encEGuard eg)
  | .tsld h eg d a b => wordOf 0x244 h (encOperand d) (encOperand a) (encOperand b) (encEGuard eg)
  | .tsev h eg d => wordOf 0x245 h (encOperand d) (0) (0) (encEGuard eg)
  | .kick h a b => wordOf 0x246 h (0) (encOperand a) (encOperand b) (0#10)
  | .kwait h tag d a => wordOf 0x247 h (encOperand d) (encOperand a) (0) (bit tag 0)
  | .pull h ack eg d a => wordOf 0x248 h (encOperand d) (encOperand a) (0) (bit ack 9 ||| encEGuard eg)
  | .ack h a => wordOf 0x249 h (0) (encOperand a) (0) (0#10)
  | .tlrd h c d a => wordOf 0x281 h (encOperand d) (encOperand a) (0) (encTctx c)
  | .tltag h c d a => wordOf 0x282 h (encOperand d) (encOperand a) (0) (encTctx c)
  | .tlwait h c scope a b => wordOf 0x283 h (0) (encOperand a) (encOperand b) (encScope scope ||| encTctx c)
  | .bar h cnt a b => wordOf 0x284 h (0) (encOperand a) (encOperand b) (bit cnt 0)
  | .gbar h a => wordOf 0x285 h (0) (encOperand a) (0) (0#10)
  | .abinit h d a => wordOf 0x286 h (encOperand d) (encOperand a) (0) (0#10)
  | .abexp h d a => wordOf 0x287 h (encOperand d) (encOperand a) (0) (0#10)
  | .abarv h d a => wordOf 0x288 h (encOperand d) (encOperand a) (0) (0#10)
  | .abwait h a b => wordOf 0x289 h (0) (encOperand a) (encOperand b) (0#10)
  | .kdecl h block d a => wordOf 0x28A h (encOperand d) (encOperand a) (0) (bit block 0)
  | .sign h a => wordOf 0x28B h (0) (encOperand a) (0) (0#10)
  | .rconv h d a b => wordOf 0x28C h (encOperand d) (encOperand a) (encOperand b) (0#10)
  | .gres h d a => wordOf 0x28D h (encOperand d) (encOperand a) (0) (0#10)
  | .gclr h d => wordOf 0x28E h (encOperand d) (0) (0) (0#10)
  | .yield h => wordOf 0x28F h (0) (0) (0) (0#10)
  | .sleep h a => wordOf 0x290 h (0) (encOperand a) (0) (0#10)
  | .bra h cnt d off => wordOf 0x2C1 h (encOperand d) (offA off) (offB off) (bit cnt 0)
  | .call h off => wordOf 0x2C3 h (0) (offA off) (offB off) (0#10)
  | .brx h a => wordOf 0x2C2 h (0) (encOperand a) (0) (0#10)
  | .callx h a => wordOf 0x2C4 h (0) (encOperand a) (0) (0#10)
  | .ret h => wordOf 0x2C5 h (0) (0) (0) (0#10)
  | .exit h => wordOf 0x2C6 h (0) (0) (0) (0#10)
  | .trap h a => wordOf 0x2C7 h (0) (encOperand a) (0) (0#10)
  | .tret h => wordOf 0x2C8 h (0) (0) (0) (0#10)
  | .sysc h d a b => wordOf 0x2C9 h (encOperand d) (encOperand a) (encOperand b) (0#10)
  | .nop h => wordOf 0x2CA h (0) (0) (0) (0#10)
  | .setpat h a => wordOf 0x2CB h (0) (encOperand a) (0) (0#10)
  | .mma h gsel kreg slot d a b => wordOf 0x301 h (encOperand d) (encOperand a) (encOperand b) (gsel ++ kreg ++ slot)
  | .att h gsel kreg slot d a b => wordOf 0x306 h (encOperand d) (encOperand a) (encOperand b) (gsel ++ kreg ++ slot)
  | .wld h gsel nsm1 d a b => wordOf 0x302 h (encOperand d) (encOperand a) (encOperand b) (gsel ++ 0#1 ++ nsm1)
  | .aclr h gsel sto d => wordOf 0x303 h (encOperand d) (0) (0) (gsel ++ 0#6 ++ bits1 sto)
  | .ald h gsel reg d a b => wordOf 0x304 h (encOperand d) (encOperand a) (encOperand b) (gsel ++ 0#6 ++ bits1 reg)
  | .asto h gsel rnd int slot d a => wordOf 0x305 h (encOperand d) (encOperand a) (0) (gsel ++ encRnd rnd ++ bits1 int ++ 0#1 ++ slot)
  | .attfin h gsel kreg d a => wordOf 0x307 h (encOperand d) (encOperand a) (0) (gsel ++ kreg ++ 0#3)
  | .ladinit h gsel kreg d a b => wordOf 0x308 h (encOperand d) (encOperand a) (encOperand b) (gsel ++ kreg ++ 0#3)
  | .ladpush h gsel kreg d a => wordOf 0x309 h (encOperand d) (encOperand a) (0) (gsel ++ kreg ++ 0#3)
  | .ladread h gsel kreg d a b => wordOf 0x30A h (encOperand d) (encOperand a) (encOperand b) (gsel ++ kreg ++ 0#3)
  | .ladld h gsel kreg d a b => wordOf 0x30B h (encOperand d) (encOperand a) (encOperand b) (gsel ++ kreg ++ 0#3)
  | .wqpost h a b => wordOf 0x341 h (0) (encOperand a) (encOperand b) (0#10)
  | .tarm h time cidx a b => wordOf 0x342 h (0) (encOperand a) (encOperand b) (0#1 ++ bits1 time ++ cidx)
  | .cntadd h aft set d a b => wordOf 0x343 h (encOperand d) (encOperand a) (encOperand b) (bit aft 1 ||| bit set 0)
  | .sched h a => wordOf 0x344 h (0) (encOperand a) (0) (0#10)
  | .mfsr h d a => wordOf 0x381 h (encOperand d) (encOperand a) (0) (0#10)
  | .mtsr h d a => wordOf 0x382 h (encOperand d) (encOperand a) (0) (0#10)
  | .eret h a b => wordOf 0x383 h (0) (encOperand a) (encOperand b) (0#10)
  | .halt h => wordOf 0x384 h (0) (0) (0) (0#10)
  | .tlbfls h a => wordOf 0x385 h (0) (encOperand a) (0) (0#10)
  | .tldrain h => wordOf 0x386 h (0) (0) (0) (0#10)
  | .fbrd h d a => wordOf 0x387 h (encOperand d) (encOperand a) (0) (0#10)
  | .fbpop h => wordOf 0x388 h (0) (0) (0) (0#10)
  | .replay h => wordOf 0x389 h (0) (0) (0) (0#10)
  | .ctxsv h a b => wordOf 0x38B h (0) (encOperand a) (encOperand b) (0#10)
  | .ctxld h a b => wordOf 0x38C h (0) (encOperand a) (encOperand b) (0#10)
  | .bkpt h a => wordOf 0x3C1 h (0) (encOperand a) (0) (0#10)
  | .sstep h a => wordOf 0x3C2 h (0) (encOperand a) (0) (0#10)
  | .trcmk h a => wordOf 0x3C3 h (0) (encOperand a) (0) (0#10)
  | .cntrd h d a => wordOf 0x3C4 h (encOperand d) (encOperand a) (0) (0#10)
  | .winqPush h a => wordOf 0x38A h (0) (encOperand a) (0) (0#10)
  | .winqPop h d => wordOf 0x38A h (encOperand d) (0) (0) (1#10)
  | .lnkctlStat h d a b => wordOf 0x38D h (encOperand d) (encOperand a) (encOperand b) (0#10)
  | .lnkctlPause h a b => wordOf 0x38D h (0) (encOperand a) (encOperand b) (1#10)
  | .lnkctlResume h a b => wordOf 0x38D h (0) (encOperand a) (encOperand b) (2#10)
  | .lnkctlRemap h a b => wordOf 0x38D h (0) (encOperand a) (encOperand b) (3#10)
  | .lnkctlTrain h a b => wordOf 0x38D h (0) (encOperand a) (encOperand b) (4#10)
  | .lnkctlHalf h a b => wordOf 0x38D h (0) (encOperand a) (encOperand b) (5#10)
  | _ => ⟨0, false, 0, 0, 0, 0, false, false, 0, false, false, 0⟩

/-- The 96-bit word of an instruction. -/
def encodeWord (i : Instr) : BitVec 96 := (encode i).toWord

/-- The instruction that OP, the operand fields and FAM name, by class and slot of the opcode map (R88). -/
def decodeClass (h : Hdr) (w : Fields) : Option Instr :=
  let slot := (w.op.extractLsb' 0 6).toNat
  match (w.op.extractLsb' 6 4).toNat with
  | 0x0 => decodeInt slot h w
  | 0x1 => decodeLogic slot h w
  | 0x2 => decodeMove slot h w
  | 0x3 => decodeCmp slot h w
  | 0x4 => decodeF32 slot h w
  | 0x5 => decodeHalf slot h w
  | 0x6 => decodeConv slot h w
  | 0x7 => decodeLoad slot h w
  | 0x8 => decodeAtomic slot h w
  | 0x9 => decodeCopy slot h w
  | 0xA => decodeSync slot h w
  | 0xB => decodeCtl slot h w
  | 0xC => decodeArray slot h w
  | 0xD => decodeColl slot h w
  | 0xE => decodeSys slot h w
  | _ => decodeDbg slot h w

/-- The instruction a legal word stands for (R91), with the reason where it stands for none. -/
def decode (w : Fields) : Except DecodeError Instr :=
  if w.zero ≠ 0 then .error .badHint else
  match decGuard w with
  | none => .error .badGuard
  | some g =>
    match decodeClass ⟨g, w.take, w.nf, w.hb, w.hs⟩ w with
    | none => .error .notAnInstruction
    | some i => if i.legal then .ok i else .error .illegal

/-- Total on any 96 bits. -/
def decodeWord (w : BitVec 96) : Except DecodeError Instr := decode (Fields.ofWord w)

/-- The little-endian value of a list of bytes, the first byte lowest (R3). -/
def leNat : List Byte → Nat
  | [] => 0
  | b :: r => b.toNat + 256 * leNat r

/-- The low `n` bytes of a number, the lowest first (R3). -/
def leBytes : Nat → Nat → List Byte
  | 0, _ => []
  | n + 1, x => BitVec.ofNat 8 x :: leBytes n (x / 256)

/-- The word at the head of a string of bytes (R77: twelve bytes, little-endian); `none` for a shorter string. -/
def decodeBytes (l : List Byte) : Option (Except DecodeError Instr) :=
  if l.length < 12 then none else some (decodeWord (BitVec.ofNat 96 (leNat (l.take 12))))

/-- ROP codes (R288). -/
def Rop.code : Rop → BitVec 3
  | .faddF32 => 0 | .faddB16 => 1 | .addS32 => 2 | .minS32 => 3 | .maxS32 => 4 | .minF32 => 5 | .maxF32 => 6
def Rop.ofCode (x : BitVec 3) : Option Rop :=
  match x.toNat with
  | 0 => some .faddF32 | 1 => some .faddB16 | 2 => some .addS32 | 3 => some .minS32 | 4 => some .maxS32
  | 5 => some .minF32 | 6 => some .maxF32 | _ => none

/-- A chunk field (R297): REL and base. -/
def encChunk (c : ChunkRef) : BitVec 13 :=
  (match c.rel with | .abs => 0#2 | .plus => 1#2 | .minus => 2#2) ++ c.base
def decChunk (x : BitVec 13) : Option ChunkRef :=
  match (x.extractLsb' 11 2).toNat with
  | 0 => some ⟨.abs, x.extractLsb' 0 11⟩
  | 1 => some ⟨.plus, x.extractLsb' 0 11⟩
  | 2 => some ⟨.minus, x.extractLsb' 0 11⟩
  | _ => none

/-- A schedule word (R297) from OPC, PEER, CHUNK, BUF and OPERAND. -/
def florealOf (opc : BitVec 6) (peer : BitVec 5) (chunk : BitVec 13) (buf : BitVec 8) (x : Word) : DWord :=
  opc ++ peer ++ chunk ++ buf ++ x

/-- The schedule word of an instruction; 0 for one that is no schedule word. -/
def encodeFloreal : Instr → DWord
  | .florealNop => florealOf 0 0 0 0 0
  | .florealSend port c buf tmo => florealOf 1 port (encChunk c) buf (tmo ++ 0#16)
  | .florealRecv port c buf tmo => florealOf 2 port (encChunk c) buf (tmo ++ 0#16)
  | .florealRed port c buf tmo fwd rop => florealOf 3 port (encChunk c) buf (tmo ++ fwd ++ 0#8 ++ rop.code)
  | .florealCopy dst dbuf src sbuf => florealOf 4 0 (encChunk dst) dbuf (0#11 ++ encChunk src ++ sbuf)
  | .florealWait port time idx x => florealOf 5 port (if time then 1 else 0) idx x
  | .florealSignal port peer idx x => florealOf 6 port (if peer then 1 else 0) idx x
  | .florealLoop n target => florealOf 7 0 0 0 (n ++ 0#3 ++ target)
  | .florealEnd => florealOf 8 0 0 0 0
  | _ => 0

/-- Reads a schedule word; `none` for one with a reserved code or field (R297), which a schedule reports as BADWORD. -/
def decodeFloreal (w : DWord) : Option Instr :=
  let peer := w.extractLsb' 53 5
  let chunk := w.extractLsb' 40 13
  let buf := w.extractLsb' 32 8
  let x := w.extractLsb' 0 32
  let r : Option Instr := match (w.extractLsb' 58 6).toNat with
    | 0 => some .florealNop
    | 1 => do
      let _ ← chk (x.extractLsb' 0 16 == 0)
      let c ← decChunk chunk
      some (.florealSend peer c buf (x.extractLsb' 16 16))
    | 2 => do
      let _ ← chk (x.extractLsb' 0 16 == 0)
      let c ← decChunk chunk
      some (.florealRecv peer c buf (x.extractLsb' 16 16))
    | 3 => do
      let _ ← chk (x.extractLsb' 3 8 == 0)
      let c ← decChunk chunk
      let rop ← Rop.ofCode (x.extractLsb' 0 3)
      some (.florealRed peer c buf (x.extractLsb' 16 16) (x.extractLsb' 11 5) rop)
    | 4 => do
      let _ ← chk (peer == 0 && x.extractLsb' 21 11 == 0)
      let dst ← decChunk chunk
      let src ← decChunk (x.extractLsb' 8 13)
      some (.florealCopy dst buf src (x.extractLsb' 0 8))
    | 5 => do
      let _ ← chk (chunk == 0 || chunk == 1)
      some (.florealWait peer (chunk == 1) buf x)
    | 6 => do
      let _ ← chk (chunk == 0 || chunk == 1)
      some (.florealSignal peer (chunk == 1) buf x)
    | 7 => do
      let _ ← chk (peer == 0 && chunk == 0 && buf == 0 && x.extractLsb' 13 3 == 0)
      some (.florealLoop (x.extractLsb' 16 16) (x.extractLsb' 0 13))
    | 8 => do
      let _ ← chk (peer == 0 && chunk == 0 && buf == 0 && x == 0)
      some .florealEnd
    | _ => none
  match r with
  | none => none
  | some i => if i.florealOk then some i else none

/-- The decoder on an instruction numbered as the opcode table numbers it: 64 bits are a schedule word (R297), anything
else an instruction word of 96 bits (R77). -/
def decodeTableWord (nbits w : Nat) : Option Instr :=
  if nbits = 64 then decodeFloreal (BitVec.ofNat 64 w)
  else match decodeBytes (leBytes 12 w) with
    | some (.ok i) => some i
    | _ => none

end Sys2Proof
end

