-- ==== Sys2Proof/Machine/Fmap.lean ====
section
/-! DEFINITION. Sparse contents by number: one list of key and value pairs with rising keys and no value equal to
what an unlisted key reads as. Device memory, every register file and every table of the device are held so
(`Fmap β`), which keeps the whole state plain data however large the spec makes the device. -/

namespace Sys2Proof.Machine

/-- A sparse table from numbers to values: what is not listed reads as the table's default. -/
abbrev Fmap (β : Type) := List (Nat × β)

/-- The value at key `k`; `d` is what an unlisted key reads as. -/
def Fmap.get {β : Type} (d : β) : List (Nat × β) → Nat → β
  | [], _ => d
  | (j, v) :: r, k => if j = k then v else Fmap.get d r k

/-- The table without key `k`. -/
def Fmap.erase {β : Type} (m : List (Nat × β)) (k : Nat) : List (Nat × β) :=
  m.filter (fun p => p.1 != k)

/-- Insert a pair before the first greater key. -/
def Fmap.insert {β : Type} (k : Nat) (v : β) : List (Nat × β) → List (Nat × β)
  | [] => [(k, v)]
  | (j, w) :: r => if k < j then (k, v) :: (j, w) :: r else (j, w) :: Fmap.insert k v r

/-- Write `v` at key `k`; writing the default removes the entry, so that equal tables are equal data. -/
def Fmap.set {β : Type} [DecidableEq β] (d : β) (m : List (Nat × β)) (k : Nat) (v : β) : List (Nat × β) :=
  if v = d then Fmap.erase m k else Fmap.insert k v (Fmap.erase m k)

/-- The canonical form: keys strictly rising, no value equal to the default. -/
def Fmap.wf {β : Type} [DecidableEq β] (d : β) (m : List (Nat × β)) : Bool :=
  (m.map Prod.fst).Pairwise (· < ·) && m.all (fun p => p.2 != d)

/-- The keys listed, rising in a table in canonical form. -/
def Fmap.keys {β : Type} (m : List (Nat × β)) : List Nat := m.map Prod.fst

/-- Write `n` consecutive keys from `k` with the given values. -/
def Fmap.setList {β : Type} [DecidableEq β] (d : β) (m : List (Nat × β)) (k : Nat) : List β → List (Nat × β)
  | [] => m
  | v :: r => Fmap.setList d (Fmap.set d m k v) (k + 1) r

/-- Write one value at each of the listed keys. -/
def Fmap.setKeys {β : Type} [DecidableEq β] (d : β) (m : List (Nat × β)) (v : β) : List Nat → List (Nat × β)
  | [] => m
  | k :: r => Fmap.setKeys d (Fmap.set d m k v) v r

end Sys2Proof.Machine
end

