-- ==== Sys2Proof/Machine/State.lean ====
section
/-! DEFINITION. The state of the device, all of it plain data. Unbounded families of like things are sparse tables
(`Fmap`) keyed by number, with one default each:
a warp key is (core · 4096 + BTAG) · 32 + warp, the key of system warp slot s of die d is 2^30 + 2·d + s, and the key
of a warp's access-slice instance is 2^31 + the warp key; a thread key is 32 · warp key + thread; a block key is
core · 4096 + BTAG. Memory is keyed by placed physical address (`Machine/Ops.lean`), host memory H at 2^51 + H. -/

namespace Sys2Proof.Machine

/-- Why the machine stops. -/
inductive Fault where
  /-- `step`, in the state a fatal device error leaves (R398), when no outside event is at hand: the device stops until
  a reset. The manual's own stop; safe. -/
  | deviceStopped
  deriving DecidableEq, Repr

/-- Why an instruction is refused. -/
inductive Refusal where
  /-- An arm of `exec` without a meaning yet; safe. -/
  | notModelled (mnemonic : String)
  deriving DecidableEq, Repr

/-- The counts a launch or a system kernel allocates (R54, R271, R210). -/
structure Alloc where
  nv  : Nat := 0
  ns  : Nat := 0
  np  : Nat := 0
  na  : Nat := 0
  nb  : Nat := 0
  nts : Nat := 0
  /-- Stack window rows W. -/
  win : Nat := 1
  deriving DecidableEq, Repr

/-- A raised trap waiting for delivery (R338): its kind code, the trapping PC, the resume PC and the `%tdst` value. -/
structure PTrap where
  kind   : Nat
  pc     : DWord
  resume : DWord
  tdst   : Word
  deriving DecidableEq, Repr

/-- A register the device can name (R54): v register i of a thread, or s register i of a warp. -/
inductive Loc where
  | v (wk t i : Nat)
  | s (wk i : Nat)
  deriving DecidableEq, Repr

/-- What a lane instruction leaves not yet available (R35): a register, a predicate bit of a thread, its `%fflags`, or a handle slot. -/
inductive Res where
  | reg (l : Loc)
  | pred (t p : Nat)
  | flags (t : Nat)
  | w (i : Nat)
  deriving DecidableEq, Repr

/-- The block that a KICK names, as it stood at the KICK (R347). -/
structure KickTo where
  /-- The lane that sends it, as core · 64 + lane. -/
  src  : Nat
  core : Nat
  btag : Nat
  lid  : Nat
  bidx : Nat
  deriving DecidableEq, Repr

/-- A trigger counter (R285): port and index. -/
structure CtrRef where
  port : Nat
  idx  : Nat
  deriving DecidableEq, Repr

/-- What a held release does once it takes effect (R246), for one thread. -/
inductive Act where
  /-- Nothing more. `all`: every earlier access must be performed, as for STL and the ordered atomics; otherwise the
  earlier stores and REDs, as for FENCE (R173, R193). -/
  | fence (all : Bool)
  | bar (id : Nat) (n : Option Nat)
  | gbar (g : Nat)
  /-- ABARV on the object at a location, D receiving the phase; `wins`, the handles through which it names them. -/
  | abarv (objs : List Loc) (d : List Loc) (uni : Bool) (wins : List DWord)
  | sign (k : Nat) (first : Instr)
  | rconv (k : Nat) (p : Nat) (lim : Nat) (first : Instr)
  | kick (dst : KickTo) (notice : BitVec 128)
  | sysc (code : Nat) (arg : DWord) (d : Nat) (mask : Word)
  | eret (reqid : Nat) (res : DWord)
  /-- ACK to a warp, by a lane. -/
  | ack (wk lane : Nat)
  deriving DecidableEq, Repr

/-- Why a thread is held (R193, R338, R356 and the entries). -/
inductive Hold where
  | none
  /-- A release waits for the accesses before number `upTo` (R246); `single`, that of one access, which orders no UN
  access. -/
  | release (upTo : Nat) (single : Bool) (a : Act)
  /-- Held at its instruction until these logged or unperformed accesses are performed (R246, R362). -/
  | log (aids : List Nat)
  | bar (id : Nat)
  | gbar (g : Nat)
  | tlwait (c : Tctx) (sid : Nat) (n : DWord)
  /-- KWAIT number n, with the D of the thread. -/
  | kwait (n : Nat) (tag : Option (BitVec 20)) (d : List Loc)
  | kick (dst : KickTo) (notice : BitVec 128)
  | sign (k : Nat)
  | rconv (k p : Nat) (deadline : Nat)
  | abwait (obj : List Loc) (ph : Word) (wins : List DWord)
  | sleep (deadline : Nat)
  | sysc (reqid : Nat) (d : Nat)
  | halt
  | tldrain
  /-- WINQ `.pop` number n, with the D of the thread and the handles through which it names it. -/
  | winqPop (n : Nat) (d : List Loc) (wins : List DWord)
  | ctxsv (bk : Nat) (va : DWord)
  | ctxld (bk : Nat) (va : DWord)
  | linkPause (kind1 : Bool) (idx : Nat)
  | linkRemap (idx : Nat) (lane spare : Nat)
  | linkTrain (kind1 : Bool) (idx : Nat) (half : Bool)
  /-- Pending trap (R338). -/
  | trap
  /-- Parked fetch (R356). -/
  | fetch
  deriving DecidableEq, Repr

/-- A thread (R26, R30, R75, R141, R340, R341). `vEmpty` and `vPois` hold the F bit (inverted) and the poison bit of
thread granules; `vPend` the loads whose data is due in a register (R68), by instruction instance. -/
structure Thread where
  live      : Bool := false
  pc        : DWord := 0
  wait      : BitVec 8 := 0
  v         : Fmap Word := []
  vEmpty    : Fmap Bool := []
  vPois     : Fmap Bool := []
  vPend     : Fmap Nat := []
  fflags    : Word := 0
  ften      : Word := 0
  sdepth    : Nat := 0
  /-- Entries that the push or pop in hand has moved while it waits for rows (R76). -/
  sbuf      : List Word := []
  tdst      : Word := 0
  inHandler : Bool := false
  resume    : DWord := 0
  trap      : Option PTrap := none
  /-- v registers and their poison as the thread's EXIT left them (R134). -/
  exitV     : Fmap Word := []
  exitPois  : Fmap Bool := []
  hold      : Hold := .none
  /-- The quiescence count under which its fetch was first held, until it has fetched (R257, R361). -/
  ftag      : Option Nat := .none
  /-- Accesses with a lower number that a FENCE put before later ones (R245): loads, every access, and loads and atomics before
  later register accesses (R173). -/
  barLoad   : Nat := 0
  barAll    : Nat := 0
  barReg    : Nat := 0
  deriving DecidableEq, Repr

/-- States of a guard slot (R44). -/
inductive GState where
  | true | false | pending
  deriving DecidableEq, Repr

/-- An operand-queue entry (R168): filled, or reserved by the load `iid`. -/
structure QEntry where
  filled : Bool
  val    : Word
  iid    : Nat
  deriving DecidableEq, Repr

/-- An export descriptor (R63). -/
structure ExpDesc where
  base   : Nat := 0
  len    : Nat := 0
  rights : Bool := false
  scope  : BitVec 2 := 0
  group  : BitVec 8 := 0
  gen    : BitVec 8 := 0
  deriving DecidableEq, Repr

/-- A timeline context (R191): issue number, completion counter, and the numbers completed out of order. -/
structure Timeline where
  issue : Nat := 0
  comp  : Nat := 0
  early : List Nat := []
  deriving DecidableEq, Repr

/-- A range entry (R69): write-pending or read-pending, over v or s registers, owned by a command. A joint round's entry
is owned by its convergence register until its command exists. -/
inductive RngOwner where
  | cmd (cid : Nat)
  | round (k : Nat)
  /-- The load or atomic `iid` with an indirect D. -/
  | acc (iid : Nat)
  /-- A lane instruction with an indirect D, available from cycle `due`. -/
  | lane (due : Nat)
  deriving DecidableEq, Repr

structure Rng where
  wr    : Bool
  isS   : Bool
  first : Nat
  count : Nat
  owner : RngOwner
  deriving DecidableEq, Repr

/-- A deferred counter change (R293). -/
structure Deferred where
  n   : Nat
  /-- Its place among those issued. -/
  seq : Nat
  c   : CtrRef
  set : Bool
  x   : DWord
  deriving DecidableEq, Repr

/-- A warp, a system warp or an access-slice instance (R54, R210, R281). -/
structure Warp where
  /-- Started and not retired. -/
  alive    : Bool := false
  lid      : Nat := 0
  /-- Warp slot of its core (R280). -/
  wslot    : Nat := 0
  alloc    : Alloc := {}
  asid     : BitVec 16 := 0
  s        : Fmap Word := []
  sEmpty   : Fmap Bool := []
  sPois    : Fmap Bool := []
  sPend    : Fmap Nat := []
  preds    : Fmap Word := []
  w        : Fmap DWord := []
  edesc    : Fmap ExpDesc := []
  g        : Fmap GState := []
  q        : Fmap (List QEntry) := []
  patience : Word := 32
  tmask    : Word := 0
  tpc      : DWord := 0
  dseg     : DWord := 0
  stkbase  : DWord := 0
  stklim   : Word := 0
  /-- Stack window: rows held (keyed 32·(row mod W) + thread) and the lowest resident row (R76). -/
  stk      : Fmap Word := []
  stkLo    : Nat := 0
  /-- The row a waiting push or pop needs, whether its spill or fill stopped for a page, and how it failed (R358). -/
  stkNeed  : Option Nat := none
  stkStop  : Bool := false
  /-- The quiescence count under which a stopped spill or fill is held. -/
  stkTag   : Option Nat := none
  /-- VA and cause of the failing access, and whether it is a spill. -/
  stkFail  : Option (DWord × Nat × Bool) := none
  /-- F (inverted) and poison bits of the granules of the stack window (R58, R345). -/
  stkEmpty : Fmap Bool := []
  stkPois  : Fmap Bool := []
  tlCopy   : Timeline := {}
  tlArray  : Timeline := {}
  /-- Numbers of its most recent pull, and of its most recent start in each schedule context (R192, R294). -/
  lastPull : Nat := 0
  lastSched : Fmap Nat := []
  pack     : Nat := 0
  ranges   : List Rng := []
  /-- Results of lane instructions with the cycle from which each is available (R35, R68). -/
  recent   : List (Res × Nat) := []
  aft      : List Deferred := []
  /-- The slot a waiting revocation names (R66). -/
  revPend  : Option Nat := none
  /-- Engine commands and lane accesses that it waits for, and threads held in an access through the window. -/
  revWait  : List Nat := []
  revThr   : List (Nat × DWord) := []
  /-- The BINDW in hand has met R65 and waits for its revocation. -/
  bindGo   : Bool := false
  stopped  : Bool := false
  cause    : BitVec 8 := 0
  /-- A stop that is due at the next run boundary (R319): its cause, the code its mailbox entry carries, and the cycle of the cause. -/
  stopReq  : Option (BitVec 8 × BitVec 8 × Nat) := none
  /-- STOP waits for a run that begins at a safe point; the cycle in which it last came. -/
  stopSafe : Option Nat := none
  stepping : Bool := false
  snap     : Fmap DWord := []
  sysarg   : DWord := 0
  syswake  : Word := 0
  /-- Translations below this number precede the warp's most recent TLBFLS (R214). -/
  flushAt  : Nat := 0
  /-- The cycle since which the warp has been eligible, plus 1 (R280). -/
  elig     : Nat := 0
  /-- The cycle in which an array command last left its queue, and the progress it then showed (R224). -/
  aprogOld : Nat × Word := (0, 0)
  deriving DecidableEq, Repr

/-- A declaration of a convergence register (R41). -/
inductive KDecl where
  | none
  | warp (wk : Nat) (mask : Word)
  | block (mask : Word)
  deriving DecidableEq, Repr

/-- A convergence register: the set in force, the declaration that the next round takes, the thread keys that have
signed the open round, and the instruction and PC of its first signature (R41, R42). -/
structure KReg where
  decl   : KDecl := .none
  next   : Option KDecl := .none
  signed : List Nat := []
  first  : Option Instr := .none
  pc     : DWord := 0
  /-- The register that each signer of a joint command names, by thread key. -/
  regs   : Fmap Nat := []
  /-- The cycles of its first and of its latest signature. -/
  since  : Nat := 0
  last   : Nat := 0
  deriving DecidableEq, Repr

/-- The open phase of a block barrier (R194): the form its first arrival fixed, and the arrivals counted. -/
structure BarPhase where
  form  : Option (Option Nat) := none
  count : Nat := 0
  deriving DecidableEq, Repr

/-- A block on its core (R26, R41, R54, R278). Tile words are keyed 4096·tile + 128·row + column, slot words
2048·slot + word; F and poison bits 1024·tile + granule and 512·slot + granule. -/
structure Block where
  present   : Bool := false
  lid       : Nat := 0
  bidx      : Nat := 0
  resident  : Bool := false
  /-- Became resident once (R56, R281). -/
  started   : Bool := false
  /-- Off its core through CTXSV (R216), with its image at this VA of the system's address space. -/
  ctxOff    : Bool := false
  ctxImage  : DWord := 0
  /-- Being taken off: its warps begin no further run (R47). -/
  leaving   : Bool := false
  /-- Cycle in which it last became resident. -/
  since     : Nat := 0
  k         : Fmap KReg := []
  tile      : Fmap Word := []
  tileEmpty : Fmap Bool := []
  tilePois  : Fmap Bool := []
  slot      : Fmap Word := []
  slotEmpty : Fmap Bool := []
  slotPois  : Fmap Bool := []
  shape     : Fmap (BitVec 512) := []
  bar       : Fmap BarPhase := []
  deriving DecidableEq, Repr

/-- A launch (R271 to R277, R337, R350). -/
structure Launch where
  present  : Bool := false
  asid     : BitVec 16 := 0
  qnum     : Nat := 0
  cmdnum   : Nat := 0
  prio     : Nat := 0
  entry    : DWord := 0
  access   : DWord := 0
  alloc    : Alloc := {}
  nwarp    : Nat := 1
  nblocks  : Nat := 1
  fs       : List Word := []
  groups   : Fmap (List Nat) := []
  pmap     : Option (List Byte) := none
  first    : Nat := 0
  stride   : Nat := 0
  patience : Nat := 32
  ften     : Word := 0
  dbg      : Bool := false
  trace    : Bool := false
  traps    : Fmap DWord := []
  shapes   : Fmap (BitVec 512) := []
  stkva    : DWord := 0
  stklim   : Nat := 128
  sptva    : DWord := 0
  doneva   : DWord := 0
  fqva     : DWord := 0
  ctxva    : DWord := 0
  dseg     : DWord := 0
  imageOff : Nat := 0
  assigned : Fmap Bool := []
  retired  : Nat := 0
  failed   : Bool := false
  nrec     : Nat := 0
  written  : Nat := 0
  dropped  : Nat := 0
  deriving DecidableEq, Repr

/-- A cached translation (R255): address space, page number, 32 MiB page or not, and the leaf. -/
structure TlbE where
  asid : BitVec 16
  vpn  : Nat
  big  : Bool
  leaf : BitVec 128
  deriving DecidableEq, Repr

/-- A transfer notice in a kick slot or in flight (R188, R347). -/
structure Kick where
  btag   : Nat
  lid    : Nat
  bidx   : Nat
  /-- The lane of the sender, as core · 64 + lane (R301), and the place of the notice among all packets sent. -/
  src    : Nat
  seq    : Nat
  notice : BitVec 128
  deriving DecidableEq, Repr

/-- A core (R10, R278, R283, R327, R376). -/
structure Core where
  resident : List Nat := []
  waiting  : List Nat := []
  quantum  : Word := 200
  /-- Time in ns at which the quantum timer last started. -/
  qStart   : Nat := 0
  kicks    : List Kick := []
  /-- Notices in flight to this core. -/
  kickNet  : List Kick := []
  tlPull   : Timeline := {}
  tlb      : List TlbE := []
  /-- Last-page registers of its lanes: the translation, and the number of the translation with which it was loaded (R214, R255). -/
  last     : Fmap (Option (TlbE × Nat)) := []
  /-- Running commands of the compute and the transfer unit (R222). -/
  compute  : Option Nat := none
  transfer : Option Nat := none
  stale    : Nat := 0
  retry    : Nat := 0
  retired  : Nat := 0
  mode     : Nat := 0
  spare    : Nat := 4
  /-- Leaves of the top-down account, and the cycle up to which the lanes are accounted (R327). -/
  td       : Fmap DWord := []
  tdClk    : Nat := 0
  /-- The affine address engine (R282): the cycle from which it may issue again, and the warp slot it served last, plus 1. -/
  sliceAt   : Nat := 0
  sliceLast : Nat := 0
  deriving DecidableEq, Repr

/-- A fault-buffer entry (R359). -/
structure FbE where
  asid  : BitVec 16
  vpn   : Nat
  nreq  : Nat
  core  : Nat
  acc   : BitVec 2
  level : BitVec 2
  eng   : Bool
  deriving DecidableEq, Repr

/-- A resolvable fault on its way to the buffer (R360); `iid` groups the faults of one instruction (R404). -/
structure FReq where
  iid : Nat
  /-- Its core, or 192 and the number of its port. -/
  ord : Nat
  e   : FbE
  deriving DecidableEq, Repr

/-- A system-call request (R207, R213). -/
structure SysReq where
  id    : Nat
  wk    : Nat
  code  : Nat
  arg   : DWord
  taken : Bool
  deriving DecidableEq, Repr

/-- A comparator (R323). -/
structure Cmp where
  va  : DWord := 0
  ctl : Word := 0
  deriving DecidableEq, Repr

/-- A mailbox entry on its way (R322): its cycle, its comparator (4 for an entry of another source, 5 for a host's), its warp. -/
structure MEntry where
  cyc : Nat
  idx : Nat
  wk  : Nat
  e   : DWord
  deriving DecidableEq, Repr

/-- A trace record of a cycle that is not over (R325), with what orders it. -/
structure TRec where
  cyc  : Nat
  core : Nat
  warp : Nat
  data : List Byte
  deriving DecidableEq, Repr

/-- A compute die (R6, R211, R320 to R325, R359). -/
structure Die where
  fb      : List FbE := []
  dropped : Bool := false
  freqs   : List FReq := []
  winq    : List (BitVec 52 × Nat) := []
  sysq    : List SysReq := []
  mbox    : List DWord := []
  /-- Entries that have not entered the mailbox: those of the present cycle, and device entries that met a full one (R322). -/
  mboxWait : List MEntry := []
  recs     : List TRec := []
  ovr     : Bool := false
  cmp     : Fmap Cmp := []
  tcfg    : Fmap Word := []
  tcnt    : Fmap Word := []
  /-- `%tsqN`, held as its difference from the reset value 0x0000_000F. -/
  tsq     : Fmap Word := []
  tron    : Bool := false
  tstate  : Nat := 0
  /-- An MTSR of `%tstate` in the present cycle (R324). -/
  tsWrite : Option Word := none
  /-- The warp of the last hit of each comparator (R324). -/
  hitWarp : Fmap Nat := []
  /-- Cycles with comparator hits that the counters and the sequencer have not seen yet: cycle, warp, comparators hit. -/
  hits    : List (Nat × Nat × BitVec 4) := []
  trbase  : DWord := 0
  trsize  : Word := 0
  /-- Records written since `%trpos` was last 0; the register shows it modulo 2^32 (R325). -/
  trpos   : Nat := 0
  dbgtgt  : Word := 0
  dbgsel  : Word := 0
  tlb     : List TlbE := []
  eccCorr : DWord := 0
  eccLast : DWord := 0
  deriving DecidableEq, Repr

/-- States of a work entry (R289). -/
inductive EState where
  | empty | posted | armed | active | done
  deriving DecidableEq, Repr

/-- A work entry (R288 to R291): its 256 bits, its trigger, and what its firing has done. -/
structure Entry where
  st      : EState := .empty
  bits    : BitVec 256 := 0
  time    : Bool := false
  cidx    : Nat := 0
  thresh  : DWord := 0
  late    : Bool := false
  /-- The data of a WRITE or WRED has been read and sent. -/
  sent    : Bool := false
  /-- Stopped at a page that is not present, and the quiescence count under which it was (R257, R388). -/
  stopped : Bool := false
  qtag    : Option Nat := none
  /-- The ENTASID of the port changed while it was active (R309). -/
  abort   : Bool := false
  asid    : BitVec 16 := 0
  /-- Fired in this cycle: it starts at the end of it (R289). -/
  due     : Bool := false
  /-- Its place among the firings. -/
  seq     : Nat := 0
  /-- Its effects are over, and its status record is to be written with these values. -/
  fin     : Bool := false
  err     : BitVec 8 := 0
  step    : Nat := 0
  deriving DecidableEq, Repr

/-- A chunk in a port's receive buffer (R299). -/
structure Chunk where
  sid  : Nat
  fmt  : BitVec 2
  data : List Byte
  deriving DecidableEq, Repr

/-- A link as LNKCTL sees it (R217): a UCIe module or a fabric port. -/
structure Link where
  retry  : Nat := 0
  paused : Bool := false
  half   : Bool := false
  /-- Spare lanes used: SPARE is 4 minus this for a UCIe module. -/
  used   : Nat := 0
  /-- Fewer than 32 good lanes remain (R393). -/
  dead   : Bool := false
  /-- The failed flit and those behind it, kept for replay (R393). -/
  kept   : Nat := 0
  remaps : List (Nat × Nat) := []
  deriving DecidableEq, Repr

/-- An arrived write or reduction held at a page that is not present (R388), or behind one that is. -/
structure Arrival where
  /-- INASID when it arrived (R309). -/
  asid    : BitVec 16
  rva     : DWord
  rop     : Option Rop
  data    : List Byte
  rc      : Option (BitVec 8)
  stopped : Bool
  /-- The quiescence count under which a page first held it (R257, R388). -/
  qtag    : Option Nat
  deriving DecidableEq, Repr

/-- What arrives on a link and acts at this end (R286, R288, R299). -/
inductive Traffic where
  | write (a : Arrival)
  | signal (idx : BitVec 8) (x : Word)
  | chunk (c : Chunk)
  deriving DecidableEq, Repr

/-- A fabric port (R284, R309, R387). -/
structure Port where
  entry : Fmap Entry := []
  ctr   : Fmap DWord := []
  /-- Fabric time in ns less the device's own elapsed time (R308). -/
  ftOff : BitVec 64 := 0
  own   : Word := 0
  plnk  : Word := 0
  retries : DWord := 0
  skews   : DWord := 0
  wraps   : DWord := 0
  rx    : List Chunk := []
  /-- Arrivals held, oldest first. -/
  held  : List Arrival := []
  /-- Traffic that an early chunk holds back, oldest first (R299). -/
  behind : List Traffic := []
  /-- Bytes free in the far end's receive buffer (R391). -/
  space : Nat := 262144
  /-- A parity error has marked its next packet of data (R395). -/
  parity : Bool := false
  link  : Link := {}
  deriving DecidableEq, Repr

/-- A start of a schedule (R294, R290). -/
structure SStart where
  port  : Nat
  len   : Nat
  prog  : DWord
  table : DWord
  stva  : DWord
  asid  : BitVec 16
  num   : Nat
  entry : Option (Nat × Nat)
  deriving DecidableEq, Repr

/-- Where a running schedule stands (R296, R298, R389). -/
inductive SPhase where
  | starting | running
  /-- Its chunks are being written back, or its status record is. -/
  | ending (err : BitVec 8)
  | record (err : BitVec 8)
  deriving DecidableEq, Repr

/-- A running schedule (R296 to R298): staged elements are keyed by buffer, chunk and element. -/
structure SRun where
  start : SStart
  phase : SPhase
  words : List DWord
  bufs  : List (BitVec 128)
  stage : Fmap Word
  dirty : Fmap Bool
  pc    : Nat
  i     : Nat
  steps : Nat
  late  : Bool
  /-- Fabric time at the start; device time when the timer of the current word started; whether a page stops it. -/
  tstart : DWord
  tword  : Option Nat
  stopped : Bool
  /-- The quiescence count under which a page first stopped it (R257, R389). -/
  qtag : Option Nat
  /-- The result of the RED in hand, which waits to be forwarded (R298). -/
  fwd : Option (List Word)
  /-- Bytes of the chunk in hand that the far end has room for already (R298). -/
  sent : Nat
  /-- The cycle from which the sequencer takes its next word. -/
  turn : Nat
  /-- The ENTASID of its port changed while it ran (R309, R384). -/
  abort : Bool
  /-- A parity error has marked its next packet of data (R395). -/
  parity : Bool
  /-- Staged chunks with a lasting error (R396), as 2048 · buffer + chunk. -/
  spoilt : List Nat
  deriving DecidableEq, Repr

/-- A schedule context (R191, R299). -/
structure Sched where
  issue : Nat := 0
  comp  : Nat := 0
  early : List Nat := []
  queue : List SStart := []
  run   : Option SRun := none
  deriving DecidableEq, Repr

/-- A work queue (R267, R269). -/
structure WQueue where
  ring : DWord := 0
  log2 : Nat := 0
  prio : Nat := 0
  en   : Bool := false
  asid : BitVec 16 := 0
  head : Word := 0
  tail : Word := 0
  qtl  : Timeline := {}
  deriving DecidableEq, Repr

/-- Kinds of a lane access. -/
inductive AccKind where
  | load | store | atom | red
  deriving DecidableEq, Repr

/-- Where the value of a load or an atomic goes. -/
inductive Dest where
  | none
  | regs (ls : List Loc)
  | queue (wk n : Nat)
  deriving DecidableEq, Repr

/-- Where an access stands: untranslated, translated, parked for a page, waiting for room in the side log, in the side
log, or performed with its data on the way back. -/
inductive AccSt where
  | issued | ready | parked | waitLog | logged | served
  deriving DecidableEq, Repr

/-- One piece of one thread's access (R165, R166). -/
structure Access where
  wk    : Nat
  t     : Nat
  iid   : Nat
  /-- Launch and block index of its warp: a BTAG may be taken again while a store is on its way (R279). -/
  lid   : Nat
  bidx  : Nat
  mask  : Word
  pc    : DWord
  kind  : AccKind
  va    : DWord
  n     : Nat
  off   : Nat
  size  : Size
  total : Nat
  ty    : Ty
  oper  : AOper
  acq   : Bool
  /-- An acquire of core scope or wider, which orders register accesses too (R249). -/
  acqReg : Bool
  rel   : Bool
  data  : BitVec 128
  dest  : Dest
  /-- The handle through which it names its destination. -/
  wins  : List DWord
  st    : AccSt
  /-- Parked: its threads are held until its data lands (R356). -/
  held  : Bool
  barLoad : Nat
  barAll  : Nat
  /-- Its place in the side log, 0 outside it (R362). -/
  tlog  : Nat
  /-- The lane whose last-page register it uses (R255). -/
  lane  : Option Nat
  asid  : BitVec 16
  pa    : Nat
  swz   : Nat
  pkind : Nat
  cgrp  : Option Nat
  /-- The quiescence count at its first translation, or when it was first held (R257, R361). -/
  tag   : Option Nat
  /-- Its translation, in the order of translations, and the number when what it uses was read (R171, R214). -/
  tseq  : Nat
  rseq  : Nat
  /-- Its place among what the die's last REPLAY presented again, 0 once it has walked (R361). -/
  turn  : Nat
  /-- The UCIe module that keeps its packet for replay (R393). -/
  stuck : Option Nat
  /-- Lines for which its instruction has made a request already (R171, R263). -/
  seen  : List Nat
  deriving DecidableEq, Repr

/-- Where an engine command stands (R174, R222). -/
inductive CmdSt where
  | queued | running | stopped | ended
  deriving DecidableEq, Repr

/-- An engine command (R174 to R190, R219 to R241). -/
structure Cmd where
  wk     : Nat
  bk     : Nat
  array  : Bool
  ins    : Instr
  pc     : DWord
  mask   : Word
  asid   : BitVec 16
  tctx   : Tctx
  num    : Nat
  guard  : Option Nat := none
  st     : CmdSt := .queued
  /-- An array command that has started and stands stopped with its block (R47). -/
  begun  : Bool := false
  /-- Parameter block words, read at issue. -/
  params : List Word := []
  /-- Per-thread operands read at issue: source in key t, destination in key 32 + t, as 128-bit values. -/
  vals   : Fmap (BitVec 128) := []
  /-- Registers of an array command by thread key. -/
  regs   : Fmap Nat := []
  /-- Registers of the status granule of a command that has one; that of thread t of a CPY begins at 4·t. -/
  stat   : List Loc := []
  shape  : BitVec 512 := 0
  kvmap  : List Byte := []
  /-- The windows written through, as handle and generation: by slot at issue, or by member of a multicast at acceptance. -/
  gens   : Fmap (DWord × BitVec 8) := []
  /-- Handles of this core's windows through which the accepted command works (R66, R178, R190). -/
  wins   : List DWord := []
  /-- Units read and units in place, of `total`; for CPY, masks of its threads; for an array command, the units of `units` that it has read
  and its landings. -/
  rdone  : Nat := 0
  ldone  : Nat := 0
  total  : Nat := 0
  /-- Threads of a CPY that are stopped at a page. -/
  held   : Nat := 0
  /-- Pages for which they wait (R360). -/
  pages  : List Nat := []
  buf    : Fmap Byte := []
  /-- Results of an array command that have not landed, oldest first. -/
  res    : List (List (Nat × Word)) := []
  /-- Its units in the order of its work: rows, steps or rungs (R224); fixed when it starts. -/
  units  : List Nat := []
  /-- Landings of each unit: the passes of an MMA after which its tile holds a value of R113. -/
  split  : Nat := 1
  /-- The cycle that it entered its queue in. -/
  issued : Nat := 0
  /-- The cycle of its last landing, and the landings before that cycle. -/
  landClk : Nat × Nat := (0, 0)
  /-- What its residue checks find, and the unit in which they do (R377). -/
  resid  : Residue := .clean
  unit   : Nat := 0
  consumed : Bool := false
  /-- An array command has run `skip` of its cycles at cycle `start`, and goes on from there. -/
  start  : Nat := 0
  skip   : Nat := 0
  /-- Bytes of an element of a TCOPY; of an array command, one more than the index of the unit that a retry or a remap concerns (R378). -/
  extra  : Nat := 0
  err    : BitVec 8 := 0
  /-- Cycles that an array command runs. -/
  count  : Nat := 0
  /-- An array command that has started waits, 1, for its ladder context (R222). -/
  await  : Nat := 0
  /-- Granules that it reads and writes which were not at hand, and which were poisoned, when it was accepted. -/
  late   : List Nat := []
  spoilt : List Nat := []
  drop   : Word := 0
  /-- Row from which a failed array command poisons (R380). -/
  failRow : Nat := 0
  /-- The quiescence count under which it was first held at a page (R257, R361). -/
  qtag    : Option Nat := none
  /-- A parity error has marked its next packet of data (R395). -/
  parity  : Bool := false
  acked  : Bool := false
  /-- An array command that stood at a page when its block was taken off; a REPLAY ends that (R364). -/
  paged  : Bool := false
  /-- Threads of a CPY that a REPLAY has presented again and that are not performed (R361). -/
  again  : Nat := 0
  /-- Threads of a CPY whose failure leaves the record of the operation (R352). -/
  lost   : Word := 0
  /-- Lines that it has asked for, those of a CPY all, else those of its last access (R180, R263), by write and line. -/
  lines  : List (Bool × Nat) := []
  /-- What it has written in those lines: hash entry, physical address, length (R368). -/
  wrote  : List (Nat × Nat × Nat) := []
  deriving DecidableEq, Repr

/-- A run on a lane (R31 to R33): its warp, PC, members, instructions done; of the instruction in hand, the threads whose
guard holds, those served, and the queue entries popped. A run that is over holds its lane up to cycle `busyTo`. -/
structure Run where
  wk      : Nat
  pc      : DWord
  members : Word
  count   : Nat
  act     : Option Word
  served  : Word
  popped  : List (Nat × Word)
  iid     : Nat
  /-- Its word, as fetched. -/
  word    : Option (BitVec 96)
  /-- The instruction in hand waits (R35); cleared when anything happens. -/
  stalled : Bool
  /-- The first cycle in which no thread of an instruction begun enters the lane, and the class of that instruction. -/
  busyTo  : Nat
  cls     : Nat
  ended   : Bool
  /-- What the indirect D of the instruction in hand has written so far (R69): s registers or v, the first and the last, and the cycle
  from which they are available. -/
  ind     : Option (Bool × Nat × Nat × Nat)
  /-- The cycle up to which a deferred read keeps the lane idle (R53). -/
  bankTo  : Nat
  /-- Values of A that threads of the instruction in hand have consumed by TAKE before all of them have delivered theirs (R61). -/
  got     : List (Nat × DWord)
  deriving DecidableEq, Repr

/-- An acknowledgement in flight (R189): warp key of the sender of the data, the core that acknowledges, and there the agent, its lane or,
as 64, its copy engine (R301); its place among all packets sent. -/
structure Ack where
  wk    : Nat
  src   : Nat
  agent : Nat
  seq   : Nat
  deriving DecidableEq, Repr

/-- What the device sends out or shows outside. -/
inductive Out where
  | remoteWrite (port : Nat) (rva : DWord) (rop : Option Rop) (data : List Byte) (rc : Option (BitVec 8))
  | signal (port : Nat) (idx : BitVec 8) (x : Word)
  | chunk (port sid : Nat) (fmt : BitVec 2) (data : List Byte)
  /-- The report on an arrived write or reduction (R290, R388). -/
  | report (port : Nat) (rva : DWord) (ok : Bool)
  /-- Receive-buffer space freed at this end (R299). -/
  | permit (port bytes : Nat)
  /-- The answer to a host's read of an address. -/
  | hostData (ha : Nat) (data : List Byte) (poisoned : Bool)
  | spdm (request : Nat) (data : List Byte)
  | msix (vector : Nat)
  | fatal
  | powerRemoved
  | flash (image : List Byte)
  deriving DecidableEq, Repr

/-- An access-counter group (R263). -/
structure AGroup where
  count  : Nat := 0
  queued : Bool := false
  ovf    : Bool := false
  /-- `%mthresh` at the crossing that set OVF. -/
  cross  : Nat := 0
  deriving DecidableEq, Repr

/-- A host access on its way (R312). -/
inductive HostReq where
  | read (ha n : Nat) (ecc : Ecc)
  | write (ha : Nat) (data : List Byte)
  deriving DecidableEq, Repr

/-- Device-wide registers and queues. -/
structure Dev where
  asidtab : DWord := 0
  qcnt    : Nat := 0
  /-- The cycle in which the quiescence counter last advanced. -/
  qcntClk : Nat := 0
  mthresh : Word := 0
  mgsel   : Word := 0
  group   : Fmap AGroup := []
  mnq     : List (Nat × Nat) := []
  /-- Crossings of the present cycle, in ascending order of group (R263). -/
  crossed : List (Nat × Nat) := []
  chsel   : Word := 0
  /-- Channel hash words (R260), 9 for each of 16 entries. -/
  chtab   : List Word
  /-- Channel and slice counters (R265, R370), by CNTRD number. -/
  cnt     : Fmap DWord := []
  devid   : Word := 0
  fptmo   : Word := 1000
  plimit  : Word := 2400
  pcap    : Word := 60
  m       : Nat := 60
  pwr     : Nat := 0
  ptemp   : Nat := 0
  /-- Power or temperature has lowered m, which is not back at `%pcap`. -/
  hot     : Bool := false
  coolantLost : Bool := false
  emergency   : Bool := false
  /-- Time of the device in ns, and what it is past a whole ns, in parts (`Machine/Ops.lean`). -/
  now     : Nat := 0
  sub     : Nat := 0
  bootState : Nat := 0
  bootErr   : BitVec 16 := 0
  image     : List Byte := []
  /-- Host addresses that the two HDM decoders map (R310). -/
  hdm0 : Nat := 0
  hdm1 : Nat := 0x10000000000
  /-- The recovery image window (R314). -/
  window    : Fmap Byte := []
  /-- Host accesses that wait at paused modules, oldest first (R307, R393). -/
  hostWait  : List HostReq := []
  /-- Hops removed from the adaptive choices (R395). -/
  hopsOff   : List Nat := []
  /-- The queue last served at each priority, plus 1 (R270). -/
  served  : Fmap Nat := []
  /-- The input port with which each slice's next turn begins (R171). -/
  slicePort : Fmap Nat := []
  deriving DecidableEq, Repr

/-- The whole device. -/
structure State where
  mem      : Fmap Byte
  /-- 32-byte words that hold a lasting check-code error (R368), by placed address / 32. -/
  bad      : Fmap Bool
  threads  : Fmap Thread
  warps    : Fmap Warp
  blocks   : Fmap Block
  launches : Fmap Launch
  cores    : Fmap Core
  diesT    : Fmap Die
  ports    : Fmap Port
  scheds   : Fmap Sched
  queues   : Fmap WQueue
  /-- UCIe modules (R307). -/
  links    : Fmap Link
  accs     : Fmap (Option Access)
  cmds     : Fmap (Option Cmd)
  /-- Runs in progress, by core · 64 + lane; system warps included. -/
  runs     : Fmap (Option Run)
  acks     : List Ack
  dev      : Dev
  /-- The run whose instruction the next step takes. -/
  focus    : Nat
  /-- The last step was a lane's: a move of another part of the device comes next, if there is one. -/
  laneLast : Bool
  /-- The kind of such moves that is tried first (`Machine/Turn.lean`). -/
  cursor   : Nat
  /-- The schedule for which a schedule word acts. -/
  sfocus   : Nat
  /-- Steps of the outside world, and choices of order, still to come (MODEL's own input, log 6). -/
  agenda   : List Instr
  out      : List Out
  clk      : Nat
  /-- The next number of an access, a command or an instruction instance, and of a translation. -/
  nextId   : Nat
  tseq     : Nat
  /-- The next free value (MODEL's own, log 1). -/
  fresh    : Nat
  /-- A fatal device error has stopped the device (R398). -/
  fatal    : Bool
  /-- What ends the present cycle has begun (`Machine/Turn.lean`). -/
  closing  : Bool
  /-- MODEL's own input (log 21): by number of an access, the cycle before which it has not reached its slice. -/
  travel   : Fmap Nat
  /-- MODEL's own input (log 21): by core · 64 + lane, the cycles by which the reads of the lane's next instruction are deferred (R53). -/
  bank     : Fmap Nat
  /-- Granules that a CLRF (false) or the acceptance of a command (true) has emptied, with the cycle: what else happens to them in it comes
  before (R139). -/
  emptied  : List (Loc × Bool × Nat)
  deriving DecidableEq, Repr

/-- Device registers at reset. -/
def Dev.reset : Dev := { chtab := (List.range 144).map (fun i => BitVec.ofNat 32 ((i % 9) * 0x10000000)) }

/-- The device right after power-on and reset: nothing is assigned, memory lists nothing, the boot ROM has not run. -/
def State.reset : State where
  mem := []
  bad := []
  threads := []
  warps := []
  blocks := []
  launches := []
  cores := []
  diesT := []
  ports := []
  scheds := []
  queues := []
  links := []
  accs := []
  cmds := []
  runs := []
  acks := []
  dev := Dev.reset
  focus := 0
  laneLast := false
  cursor := 0
  sfocus := 0
  agenda := []
  out := []
  clk := 0
  nextId := 1
  tseq := 1
  fresh := 0
  fatal := false
  closing := false
  travel := []
  bank := []
  emptied := []

end Sys2Proof.Machine
end

