-- ==== Sys2Proof/Machine/Ops.lean ====
section
/-! DEFINITION. Named operations over the state: keys, registers with their F and poison bits (R51 to R61, R345),
placed memory (R252, R259 to R262, R368), translation and its caches (R253 to R256, R355), threads and the sorted table
(R30), timelines (R191), fault records (R350, R351), raising, delivering and ending a trap (R336 to R343), and exit
(R205). -/

namespace Sys2Proof.Machine

/-! ### Keys -/

def tkey (wk t : Nat) : Nat := 32 * wk + t
def isSlice (wk : Nat) : Bool := 0x80000000 ≤ wk
def isSys (wk : Nat) : Bool := 0x40000000 ≤ wk && wk < 0x80000000
/-- The warp a slice instance serves; a warp itself (R281). -/
def parent (wk : Nat) : Nat := if isSlice wk then wk - 0x80000000 else wk
def sysKey (die slot : Nat) : Nat := 0x40000000 + 2 * die + slot
/-- Key of the run of a slice instance: permanent until its EXIT. -/
def sliceRun (wk : Nat) : Nat := 0x10000000000 + wk
/-- The block of a warp; a system warp, which is in no block, stands for itself (R210). -/
def bkOf (wk : Nat) : Nat := if isSys wk then wk else parent wk / 32
def widx (wk : Nat) : Nat := if isSys wk then 0 else parent wk % 32
/-- Home core; a system warp runs on core 48·d (R9). -/
def coreOf (wk : Nat) : Nat := if isSys wk then 48 * ((wk - 0x40000000) / 2) else bkOf wk / 4096
def btagOf (wk : Nat) : Nat := if isSys wk then 0 else bkOf wk % 4096
def dieOf (core : Nat) : Nat := core / 48
def bkey (core btag : Nat) : Nat := core * 4096 + btag

/-! ### Tables -/

namespace State

def thread (s : State) (wk t : Nat) : Thread := Fmap.get {} s.threads (tkey wk t)
def setThread (s : State) (wk t : Nat) (x : Thread) : State := { s with threads := Fmap.set {} s.threads (tkey wk t) x }
def warp (s : State) (wk : Nat) : Warp := Fmap.get {} s.warps wk
def setWarp (s : State) (wk : Nat) (x : Warp) : State := { s with warps := Fmap.set {} s.warps wk x }
def block (s : State) (bk : Nat) : Block := Fmap.get {} s.blocks bk
def setBlock (s : State) (bk : Nat) (x : Block) : State := { s with blocks := Fmap.set {} s.blocks bk x }
def launch (s : State) (lid : Nat) : Launch := Fmap.get {} s.launches lid
def setLaunch (s : State) (lid : Nat) (x : Launch) : State := { s with launches := Fmap.set {} s.launches lid x }
def core (s : State) (c : Nat) : Core := Fmap.get {} s.cores c
def setCore (s : State) (c : Nat) (x : Core) : State := { s with cores := Fmap.set {} s.cores c x }
def die (s : State) (d : Nat) : Die := Fmap.get {} s.diesT d
def setDie (s : State) (d : Nat) (x : Die) : State := { s with diesT := Fmap.set {} s.diesT d x }
def port (s : State) (p : Nat) : Port := Fmap.get {} s.ports p
def setPort (s : State) (p : Nat) (x : Port) : State := { s with ports := Fmap.set {} s.ports p x }
def sched (s : State) (i : Nat) : Sched := Fmap.get {} s.scheds i
def setSched (s : State) (i : Nat) (x : Sched) : State := { s with scheds := Fmap.set {} s.scheds i x }
def queue (s : State) (i : Nat) : WQueue := Fmap.get {} s.queues i
def setQueue (s : State) (i : Nat) (x : WQueue) : State := { s with queues := Fmap.set {} s.queues i x }
def acc (s : State) (i : Nat) : Option Access := Fmap.get none s.accs i
def setAcc (s : State) (i : Nat) (x : Option Access) : State := { s with accs := Fmap.set none s.accs i x }
def cmd (s : State) (i : Nat) : Option Cmd := Fmap.get none s.cmds i
def setCmd (s : State) (i : Nat) (x : Option Cmd) : State := { s with cmds := Fmap.set none s.cmds i x }
def run (s : State) (i : Nat) : Option Run := Fmap.get none s.runs i
def setRun (s : State) (i : Nat) (x : Option Run) : State := { s with runs := Fmap.set none s.runs i x }
def setDev (s : State) (x : Dev) : State := { s with dev := x }
/-- A new number for an access, a command or an instruction instance. -/
def bumpId (s : State) : State := { s with nextId := s.nextId + 1 }
/-- The next free value, and the state after its use (log 1). -/
def free (s : State) : BitVec 64 × State := (Config.freeValue s.fresh, { s with fresh := s.fresh + 1 })
def emit (s : State) (o : Out) : State := { s with out := s.out ++ [o] }

def modThread (s : State) (wk t : Nat) (f : Thread → Thread) : State := s.setThread wk t (f (s.thread wk t))
def modWarp (s : State) (wk : Nat) (f : Warp → Warp) : State := s.setWarp wk (f (s.warp wk))
def modBlock (s : State) (bk : Nat) (f : Block → Block) : State := s.setBlock bk (f (s.block bk))
def modLaunch (s : State) (lid : Nat) (f : Launch → Launch) : State := s.setLaunch lid (f (s.launch lid))
def modCore (s : State) (c : Nat) (f : Core → Core) : State := s.setCore c (f (s.core c))
def modDie (s : State) (d : Nat) (f : Die → Die) : State := s.setDie d (f (s.die d))
def modPort (s : State) (p : Nat) (f : Port → Port) : State := s.setPort p (f (s.port p))
def modCmd (s : State) (i : Nat) (f : Cmd → Cmd) : State := s.setCmd i ((s.cmd i).map f)
def modAcc (s : State) (i : Nat) (f : Access → Access) : State := s.setAcc i ((s.acc i).map f)

/-- The accesses and the commands in the device, oldest first, with their numbers. -/
def accList (s : State) : List (Nat × Access) := s.accs.filterMap (fun p => p.2.map (fun a => (p.1, a)))
def cmdList (s : State) : List (Nat × Cmd) := s.cmds.filterMap (fun p => p.2.map (fun a => (p.1, a)))
/-- The runs in progress; a run that is over holds its lane until its last thread has entered (R33). -/
def runList (s : State) : List (Nat × Run) :=
  s.runs.filterMap (fun p => p.2.bind (fun r => if r.ended && r.busyTo ≤ s.clk then none else some (p.1, r)))

/-- Nothing of the thread that reads or writes registers may come yet (R245, R249): an acquire of core scope or wider has a load
that is not performed, or a fence of such a scope stands after a load or an atomic whose data is not in place. -/
def acqDue (s : State) (wk t : Nat) : Bool :=
  s.accList.any (fun p => p.2.wk == wk && p.2.mask.getLsbD t &&
    ((p.2.st != .served && p.2.acqReg) || ((p.2.kind == .load || p.2.kind == .atom) && p.1 < (s.thread wk t).barReg)))

/-- Memory requests that a core has outstanding (R14): the accesses of its warps that stand in no side log, and the commands that
its copy engine runs. -/
def outstanding (s : State) (core : Nat) : Nat :=
  (s.accList.filter (fun p => coreOf p.2.wk == core && p.2.st != .logged)).length +
    (s.cmdList.filter (fun p => coreOf p.2.wk == core && !p.2.array && p.2.st == .running)).length

/-- A thread is held: by its hold, or as a parked load or atomic (R193, R356). -/
def isHeld (s : State) (wk t : Nat) : Bool :=
  (s.thread wk t).hold != .none || s.accList.any (fun p => p.2.held && p.2.wk == wk && p.2.mask.getLsbD t)

end State

/-! ### Masks and lists -/

/-- The threads of a mask, ascending. -/
def maskList (m : Word) : List Nat := (List.range 32).filter (fun t => m.getLsbD t)
def maskOf (l : List Nat) : Word := l.foldl (fun m t => m ||| (1#32 <<< t)) 0
def bit1 (t : Nat) : Word := 1#32 <<< t
/-- Updates one element of a list. -/
def setNth {α : Type} (l : List α) (i : Nat) (x : α) : List α := l.set i x
/-- The bytes of a number as one bit vector. -/
def bytesVal (w : Nat) (l : List Byte) : BitVec w := BitVec.ofNat w (leNat l)
/-- Folds a state over a list. -/
def foldS {α : Type} (l : List α) (s : State) (f : State → α → State) : State := l.foldl f s

/-! ### Registers -/

/-- Granule of a register within its area (R51, R54): thread areas begin on a granule and nv is a multiple of 8. -/
def granOf (i : Nat) : Nat := i / 4

/-- The value a register holds, F and poison aside. -/
def State.readLoc (s : State) : Loc → Word
  | .v wk t i => Fmap.get 0 (s.thread wk t).v i
  | .s wk i => Fmap.get 0 (s.warp wk).s i

/-- The F bit of the granule of a register (R58). -/
def State.full (s : State) : Loc → Bool
  | .v wk t i => !Fmap.get false (s.thread wk t).vEmpty (granOf i)
  | .s wk i => !Fmap.get false (s.warp wk).sEmpty (granOf i)

/-- The poison bit of the granule of a register (R345). -/
def State.pois (s : State) : Loc → Bool
  | .v wk t i => Fmap.get false (s.thread wk t).vPois (granOf i)
  | .s wk i => Fmap.get false (s.warp wk).sPois (granOf i)

def State.setFull (s : State) (x : Bool) : Loc → State
  | .v wk t i => s.modThread wk t (fun r => { r with vEmpty := Fmap.set false r.vEmpty (granOf i) (!x) })
  | .s wk i => s.modWarp wk (fun r => { r with sEmpty := Fmap.set false r.sEmpty (granOf i) (!x) })

/-- Writes zero into the four registers of a granule. -/
def zeroGran (m : Fmap Word) (i : Nat) : Fmap Word := Fmap.setKeys 0 m 0 [granOf i * 4, granOf i * 4 + 1, granOf i * 4 + 2, granOf i * 4 + 3]

/-- Clears the poison bit; the registers of a granule that was poisoned read as 0 until written (R345). -/
def State.clearPois (s : State) (l : Loc) : State :=
  if s.pois l then
    match l with
    | .v wk t i => s.modThread wk t (fun r => { r with vPois := Fmap.set false r.vPois (granOf i) false, v := zeroGran r.v i })
    | .s wk i => s.modWarp wk (fun r => { r with sPois := Fmap.set false r.sPois (granOf i) false, s := zeroGran r.s i })
  else s

/-- Sets a granule full and poisoned (R345, R372). -/
def State.poison (s : State) : Loc → State
  | .v wk t i => s.modThread wk t (fun r => { r with vPois := Fmap.set false r.vPois (granOf i) true, vEmpty := Fmap.set false r.vEmpty (granOf i) false })
  | .s wk i => s.modWarp wk (fun r => { r with sPois := Fmap.set false r.sPois (granOf i) true, sEmpty := Fmap.set false r.sEmpty (granOf i) false })

def State.putLoc (s : State) (x : Word) : Loc → State
  | .v wk t i => s.modThread wk t (fun r => { r with v := Fmap.set 0 r.v i x })
  | .s wk i => s.modWarp wk (fun r => { r with s := Fmap.set 0 r.s i x })

/-- Two registers lie in one granule. -/
def sameGran : Loc → Loc → Bool
  | .v a t i, .v b u j => a == b && t == u && granOf i == granOf j
  | .s a i, .s b j => a == b && granOf i == granOf j
  | _, _ => false

/-- A granule has been emptied by a CLRF, or by the acceptance of a command, in this cycle or by a thread that enters its lane later
(R139). -/
def State.wasEmptied (s : State) (byCmd : Bool) (l : Loc) : Bool := s.emptied.any (fun p => p.2.1 == byCmd && s.clk ≤ p.2.2 && sameGran p.1 l)
def State.noteEmptied (s : State) (byCmd : Bool) (l : Loc) : State := { s with emptied := (l, byCmd, s.clk) :: s.emptied }

/-- A lane write of one register (R59, R345): the F bit stays, poison clears. -/
def State.writeLoc (s : State) (l : Loc) (x : Word) : State := (s.clearPois l).putLoc x l

/-- The load due in a register (R68), 0 for none. -/
def State.pend (s : State) : Loc → Nat
  | .v wk t i => Fmap.get 0 (s.thread wk t).vPend i
  | .s wk i => Fmap.get 0 (s.warp wk).sPend i

def State.setPend (s : State) (x : Nat) : Loc → State
  | .v wk t i => s.modThread wk t (fun r => { r with vPend := Fmap.set 0 r.vPend i x })
  | .s wk i => s.modWarp wk (fun r => { r with sPend := Fmap.set 0 r.sPend i x })

def Loc.wk : Loc → Nat
  | .v w _ _ => w
  | .s w _ => w
def Loc.idx : Loc → Nat
  | .v _ _ i => i
  | .s _ i => i
def Loc.isS : Loc → Bool
  | .v _ _ _ => false
  | .s _ _ => true

/-- The instruction instance has not passed its lane. -/
def State.inHand (s : State) (iid : Nat) : Bool := s.runs.any (fun p => (p.2.map (fun r => r.iid == iid)).getD false)

/-- An entry binds an access to a register: that of an indirect D once its instruction has passed the lane; that of a
TCOPY `.st` while some byte of the register has not been committed (R71, R185), in the warp-linear view of R62. -/
def State.inForce (s : State) (r : Rng) (l : Loc) : Bool :=
  match r.owner with
  | .acc iid => !s.inHand iid
  | .lane due => s.clk < due
  | .cmd cid =>
    match s.cmd cid, l with
    | some c, .v _ t i => !(!r.wr && c.total != 0 && (match c.ins with | .tcopy .. => true | _ => false) &&
        4 * (t * r.count + (i - r.first)) + 4 ≤ c.ldone * c.extra)
    | _, _ => true
  | _ => true

/-- The range entries of a warp that are not over. -/
def State.rangesNow (s : State) (wk : Nat) : List Rng :=
  (s.warp wk).ranges.filter (fun r => match r.owner with
    | .lane due => s.clk < due
    | _ => true)

/-- So many range entries of a warp are free (R69). -/
def State.rangeRoom (s : State) (wk n : Nat) : Bool := (s.rangesNow wk).length + n ≤ 16

/-- The register lies in a range entry of its warp of the kind asked (R69, R70). -/
def State.inRange (s : State) (wr : Bool) (l : Loc) : Bool :=
  (s.warp l.wk).ranges.any (fun r => r.wr == wr && r.isS == l.isS && r.first ≤ l.idx && l.idx < r.first + r.count && s.inForce r l)

/-- A result of a lane instruction of the warp is available (R35). -/
def State.avail (s : State) (wk : Nat) (x : Res) : Bool := (s.warp wk).recent.all (fun p => p.1 != x || p.2 ≤ s.clk)

/-- Nothing is due in the register: no load, and no result of a lane instruction (R68). -/
def State.settled (s : State) (l : Loc) : Bool := s.pend l == 0 && s.avail l.wk (.reg l)

/-- A read by the owner is ready (R59, R68, R70): nothing is due in the register, no write-pending range covers it, and
its granule is full or poisoned. -/
def State.readable (s : State) (l : Loc) : Bool := s.settled l && !s.inRange true l && (s.full l || s.pois l)

/-- A write by the owner is ready (R68, R70). -/
def State.writable (s : State) (l : Loc) : Bool := s.settled l && !s.inRange true l && !s.inRange false l

/-- Results that come about in this cycle are available `lat` cycles from now (R35). -/
def State.soon (s : State) (wk : Nat) (xs : List Res) (lat : Nat) : State :=
  if xs = [] ∨ lat = 0 then s
  else s.modWarp wk (fun w => { w with recent := w.recent.filter (fun p => s.clk < p.2) ++ xs.map (fun x => (x, s.clk + lat)) })

def State.predBit (s : State) (wk t p : Nat) : Bool := (Fmap.get 0 (s.warp wk).preds p).getLsbD t
def setBit (w : Word) (t : Nat) (x : Bool) : Word := if x then w ||| bit1 t else w &&& ~~~bit1 t
/-- Bit t of predicate p (R54). -/
def State.setPred (s : State) (wk t p : Nat) (x : Bool) : State :=
  s.modWarp wk (fun r => { r with preds := Fmap.set 0 r.preds p (setBit (Fmap.get 0 r.preds p) t x) })

def State.readPair (s : State) (l h : Loc) : DWord := Word.pair (s.readLoc l) (s.readLoc h)

/-- Writes successive registers, low word first. -/
def State.writeLocs (s : State) : List Loc → List Word → State
  | l :: ls, x :: xs => (s.writeLoc l x).writeLocs ls xs
  | _, _ => s

/-- The words of a value, low word first. -/
def wordsOf : Nat → Nat → List Word
  | 0, _ => []
  | n + 1, x => BitVec.ofNat 32 x :: wordsOf n (x / 4294967296)

/-! ### Placed memory -/

/-- The parity of a bit string. -/
def parity (x : BitVec 23) : Bool := (List.range 23).foldl (fun a i => xor a (x.getLsbD i)) false

/-- POS values of a hash entry, or 0 to 8 where they are no permutation of 0 to 8 (R260). -/
def chPos (tab : List Word) (swz : Nat) : List Nat :=
  let l := (List.range 9).map (fun j => ((tab.getD (9 * swz + j) 0) >>> 28).toNat)
  if (List.range 9).all (fun j => l.contains j) then l else List.range 9

/-- Channel of an HBM4E line (R261). -/
def channelOf (tab : List Word) (swz pa : Nat) : Nat :=
  let a : BitVec 52 := BitVec.ofNat 52 pa
  let pos := chPos tab swz
  (List.range 9).foldl (fun n j =>
    let m := (tab.getD (9 * swz + j) 0).extractLsb' 0 23
    if xor (a.getLsbD (7 + pos.getD j 0)) (parity (a.extractLsb' 16 23 &&& m)) then n + 2 ^ j else n) 0

/-- The tier of a physical address (R252): 0 HBM4E, 1 low-power DRAM, 2 mapped host memory. -/
def tierOf (pa : Nat) : Option Nat :=
  if pa < 0x8000000000 then some 0
  else if 0x10000000000 ≤ pa ∧ pa < 0x20000000000 then some 1
  else if 0x8000000000000 ≤ pa ∧ pa < 0x10000000000000 then some 2
  else none

/-- Where a byte lies (R259 to R262): an HBM4E line at its channel and line, anything else at its own address. -/
def placeOf (tab : List Word) (swz pa : Nat) : Nat :=
  if pa < 0x8000000000 then pa / 65536 * 65536 + channelOf tab swz pa * 128 + pa % 128 else pa

/-- Memory slice of an address (R8, R261, R262); `none` for host memory. -/
def sliceOf (tab : List Word) (swz pa : Nat) : Option Nat :=
  match tierOf pa with
  | some 0 => some (channelOf tab swz pa / 8)
  | some 1 => some (64 + pa / 128 % 8)
  | _ => none

/-- What an unlisted byte reads as. DESIGN CHOICE, unsafe (log 7). -/
abbrev memDefault : Byte := 0

def State.byteAt (s : State) (swz pa : Nat) : Byte := Fmap.get memDefault s.mem (placeOf s.dev.chtab swz pa)
def State.readMem (s : State) (swz pa : Nat) : Nat → List Byte
  | 0 => []
  | n + 1 => s.byteAt swz pa :: s.readMem swz (pa + 1) n
def State.putByte (s : State) (swz pa : Nat) (x : Byte) : State :=
  { s with mem := Fmap.set memDefault s.mem (placeOf s.dev.chtab swz pa) x }
def State.writeBytes (s : State) (swz pa : Nat) : List Byte → State
  | [] => s
  | b :: r => (s.putByte swz pa b).writeBytes swz (pa + 1) r

/-- Memory is in its canonical form. -/
abbrev State.memWf (s : State) : Bool := Fmap.wf memDefault s.mem

/-- A byte of the range lies in a word with a lasting check-code error (R368). -/
def State.badAt (s : State) (swz pa n : Nat) : Bool :=
  (List.range n).any (fun i => Fmap.get false s.bad (placeOf s.dev.chtab swz (pa + i) / 32))
/-- A write that covers a whole 32-byte word makes it good (R368). -/
def State.healAt (s : State) (swz pa n : Nat) : State :=
  if s.bad = [] then s else
  (List.range n).foldl (fun s i =>
    if (pa + i) % 32 = 0 ∧ i + 32 ≤ n then { s with bad := Fmap.set false s.bad (placeOf s.dev.chtab swz (pa + i) / 32) false } else s) s
/-- A request that writes ranges makes good the words that they cover together. -/
def State.healCover (s : State) (swz : Nat) (rs : List (Nat × Nat)) : State :=
  if s.bad = [] then s else
  rs.foldl (fun s r => (List.range (r.2 / 32 + 2)).foldl (fun s k =>
    let w := r.1 / 32 * 32 + 32 * k
    if (List.range 32).all (fun i => rs.any (fun q => q.1 ≤ w + i && w + i < q.1 + q.2)) then
      { s with bad := Fmap.set false s.bad (placeOf s.dev.chtab swz w / 32) false } else s) s) s
def State.markBad (s : State) (swz pa n : Nat) : State :=
  (List.range n).foldl (fun s i => { s with bad := Fmap.set false s.bad (placeOf s.dev.chtab swz (pa + i) / 32) true }) s
def State.writeMem (s : State) (swz pa : Nat) (l : List Byte) : State := (s.healAt swz pa l.length).writeBytes swz pa l

/-- Adds to a device counter, by CNTRD number (R265, R370). -/
def State.bumpCnt (s : State) (n k : Nat) : State :=
  s.setDev { s.dev with cnt := Fmap.set 0 s.dev.cnt n (Fmap.get 0 s.dev.cnt n + BitVec.ofNat 64 k) }

/-! ### Requests that reach the slices (R263, R265, R367) -/

/-- Crossings in ascending order of group. -/
def insCross (p : Nat × Nat) : List (Nat × Nat) → List (Nat × Nat)
  | [] => [p]
  | q :: l => if p.1 < q.1 then p :: q :: l else q :: insCross p l

/-- A request for a counted page reaches a slice (R263); a crossing is taken at the end of its cycle. -/
def State.countGroup (s : State) (g : Nat) : State :=
  let G := Fmap.get {} s.dev.group g
  if G.ovf then s else
  let n := min 4294967295 (G.count + 1)
  let cross := s.dev.mthresh != 0 && n == s.dev.mthresh.toNat && n != G.count && !G.queued
  s.setDev { s.dev with group := Fmap.set {} s.dev.group g { G with count := n, queued := G.queued || cross },
                        crossed := if cross then insCross (g, n) s.dev.crossed else s.dev.crossed }

/-- A crossing is appended; one that meets a full queue sets OVF, and COUNT holds at the threshold (R367). -/
def State.takeCrossing (s : State) (p : Nat × Nat) : State :=
  let G := Fmap.get {} s.dev.group p.1
  if s.dev.mnq.length < 64 then s.setDev { s.dev with mnq := s.dev.mnq ++ [p] }
  else if !G.queued then s
  else s.setDev { s.dev with group := Fmap.set {} s.dev.group p.1 { count := p.2, queued := false, ovf := true, cross := p.2 } }

/-- The crossings of a cycle, in ascending order of group (R263). -/
def State.takeCrossings (s : State) : State := foldS s.dev.crossed (s.setDev { s.dev with crossed := [] }) State.takeCrossing

/-- Number of a channel for its counters (R265): 0 to 511, and 512 to 519 for the low-power slices. -/
def chanNum (tab : List Word) (swz pa : Nat) : Option Nat :=
  match tierOf pa with
  | some 0 => some (channelOf tab swz pa)
  | some 1 => some (512 + pa / 128 % 8)
  | _ => none

/-- One request of a line reaches its slice (R265): a read or a write, counted also for its page's group. -/
def State.countReq (s : State) (swz pa : Nat) (write : Bool) (cgrp : Option Nat) : State :=
  match chanNum s.dev.chtab swz pa with
  | none => s
  | some ch =>
    let s := s.bumpCnt (0x400 + 5 * ch + (if write then 1 else 0)) 1
    match cgrp with
    | some g => s.countGroup g
    | none => s

/-! ### Translation -/

/-- Causes (R355). -/
abbrev cNOTPRES : Nat := 1
abbrev cPERM : Nat := 2
abbrev cMALFORM : Nat := 3
abbrev cVARANGE : Nat := 4
abbrev cPARANGE : Nat := 5
abbrev cASID : Nat := 6
abbrev cALIGN : Nat := 7
abbrev cHOSTATOM : Nat := 8
abbrev cUNCORR : Nat := 9

/-- What an access asks of a page (R254). -/
inductive Perm where
  | rd | wr | rw | x
  deriving DecidableEq, Repr

/-- The end of a walk: a leaf, with its page size, or a cause with the walk level of the entry that ended it. -/
inductive WRes where
  | ok (leaf : BitVec 128) (big : Bool)
  | bad (cause level : Nat)
  deriving DecidableEq, Repr

/-- The 16-byte entry at an offset of a table; `none` where the table or the entry lies outside every range. Tables are read as
physical memory under hash entry 0. -/
def State.tabEntry (s : State) (tab off : Nat) : Option (BitVec 128) :=
  if (tierOf tab).isSome && (tierOf (tab + off)).isSome then some (bytesVal 128 (s.readMem 0 (tab + off) 16)) else none

def vaIndex (va : DWord) : Nat → Nat
  | 3 => (va.extractLsb' 49 7).toNat
  | 2 => (va.extractLsb' 37 12).toNat
  | 1 => (va.extractLsb' 25 12).toNat
  | _ => (va.extractLsb' 16 9).toNat

def leafPA (leaf : BitVec 128) (big : Bool) (va : DWord) : Nat :=
  if big then (leaf.extractLsb' 25 27).toNat * 33554432 + va.toNat % 33554432
  else (leaf.extractLsb' 16 36).toNat * 65536 + va.toNat % 65536

/-- The checks a leaf makes of itself (R254, R355): reserved KIND, ZERO bits, low PPN bits of a 32 MiB page, TIER. -/
def leafMalformed (leaf : BitVec 128) (big : Bool) (va : DWord) : Bool :=
  leaf.extractLsb' 74 2 == 3 || leaf.extractLsb' 92 36 != 0 || leaf.extractLsb' 52 20 != 0 || leaf.extractLsb' 8 8 != 0 ||
  leaf.getLsbD 6 || leaf.getLsbD 1 || (big && leaf.extractLsb' 16 9 != 0) ||
  (match tierOf (leafPA leaf big va) with
   | some t => (leaf.extractLsb' 72 2).toNat != t
   | none => false)

/-- Walks the levels below a table (R254); an entry with V = 0 is not present whatever its other bits hold (log 8). -/
def State.walkFrom (s : State) (va : DWord) (tab : Nat) : Nat → WRes
  | 0 => .bad cMALFORM 0
  | lv + 1 =>
    let off := 16 * vaIndex va lv
    match s.tabEntry tab off with
    | none => .bad cPARANGE lv
    | some e =>
      if s.badAt 0 (tab + off) 16 then .bad cUNCORR lv
      else if !e.getLsbD 0 then .bad cNOTPRES lv
      else if e.getLsbD 2 then
        if lv > 1 || leafMalformed e (lv == 1) va then .bad cMALFORM lv else .ok e (lv == 1)
      else if lv = 0 || e.extractLsb' 52 76 != 0 || e.extractLsb' 1 15 != 0 then .bad cMALFORM lv
      else s.walkFrom va ((e.extractLsb' 16 36).toNat * 65536) lv

/-- A walk (R253, R254). -/
def State.walk (s : State) (asid : BitVec 16) (va : DWord) : WRes :=
  let tab := (s.dev.asidtab.extractLsb' 16 36).toNat * 65536
  match s.tabEntry tab (16 * asid.toNat) with
  | none => .bad cPARANGE 3
  | some e =>
    if s.badAt 0 (tab + 16 * asid.toNat) 16 then .bad cUNCORR 3
    else if !e.getLsbD 0 || e.extractLsb' 1 15 != 0 || e.extractLsb' 52 76 != 0 then .bad cASID 3
    else s.walkFrom va ((e.extractLsb' 16 36).toNat * 65536) 4

/-- An entry leads on to the next table: V and NEXT alone, in a word that is good. -/
def State.leadsOn (s : State) (pa : Nat) (e : BitVec 128) : Bool :=
  e.getLsbD 0 && e.extractLsb' 1 15 == 0 && e.extractLsb' 52 76 == 0 && !s.badAt 0 pa 16

/-- The table entries that a walk reads below a table, by physical address. -/
def State.walkReadsFrom (s : State) (va : DWord) (tab : Nat) : Nat → List Nat
  | 0 => []
  | lv + 1 =>
    let off := 16 * vaIndex va lv
    match s.tabEntry tab off with
    | none => []
    | some e => (tab + off) :: (if s.leadsOn (tab + off) e then s.walkReadsFrom va ((e.extractLsb' 16 36).toNat * 65536) lv else [])

/-- The table entries that a walk reads (R254), up to the one that ends it. -/
def State.walkReads (s : State) (asid : BitVec 16) (va : DWord) : List Nat :=
  let tab := (s.dev.asidtab.extractLsb' 16 36).toNat * 65536
  match s.tabEntry tab (16 * asid.toNat) with
  | none => []
  | some e =>
    let pa := tab + 16 * asid.toNat
    pa :: (if s.leadsOn pa e then s.walkReadsFrom va ((e.extractLsb' 16 36).toNat * 65536) 4 else [])

def permOk (leaf : BitVec 128) : Perm → Bool
  | .rd => leaf.getLsbD 3
  | .wr => leaf.getLsbD 4
  | .rw => leaf.getLsbD 3 && leaf.getLsbD 4
  | .x => leaf.getLsbD 5

/-- A translation in force for an access. -/
structure Xl where
  pa    : Nat
  swz   : Nat
  /-- 0 SO, 1 RC, 2 UN (R244). -/
  kind  : Nat
  cgrp  : Option Nat
  deriving DecidableEq, Repr

def xlOf (leaf : BitVec 128) (big : Bool) (va : DWord) : Xl :=
  ⟨leafPA leaf big va, (leaf.extractLsb' 76 4).toNat, (leaf.extractLsb' 74 2).toNat,
   if leaf.getLsbD 7 then some (leaf.extractLsb' 80 12).toNat else none⟩

def TlbE.hits (e : TlbE) (asid : BitVec 16) (va : DWord) : Bool :=
  e.asid == asid && (if e.big then e.vpn / 512 == va.toNat / 33554432 else e.vpn == va.toNat / 65536)

def tlbFind (l : List TlbE) (asid : BitVec 16) (va : DWord) : Option TlbE := l.find? (fun e => e.hits asid va)
/-- A walk reads its entries from the slices (R256, R265). -/
def State.countWalk (s : State) (asid : BitVec 16) (va : DWord) : State :=
  foldS (s.walkReads asid va) s (fun s pa => s.countReq 0 pa false none)

/-- Replacement is not architectural (R255): the oldest entry leaves. DESIGN CHOICE, safe (log 9). -/
def tlbAdd (n : Nat) (l : List TlbE) (e : TlbE) : List TlbE :=
  if l.contains e then l else (l ++ [e]).drop (l.length + 1 - n)

/-- The last-page register of a lane, where there is one, is loaded with every translation that the lane uses (R255). -/
def State.setLast (s : State) (core : Nat) (lane : Option Nat) (e : TlbE) : State :=
  match lane with
  | some l => s.modCore core (fun c => { c with last := Fmap.set none c.last l (some (e, s.tseq)) })
  | none => s

/-- The last-page register of a lane that holds the translation of an address. -/
def State.lastHit (s : State) (core : Nat) (lane : Option Nat) (asid : BitVec 16) (va : DWord) : Option (TlbE × Nat) :=
  (lane.bind (fun l => Fmap.get none (s.core core).last l)).filter (fun p => p.1.hits asid va)

/-- Finds a translation (R255): the last-page register of the lane, the core TLB, the die TLB, a walk. What a cache supplies is
entered in the caches asked before it; a hit in the last-page register changes nothing. -/
def State.lookup (s : State) (core : Nat) (lane : Option Nat) (asid : BitVec 16) (va : DWord) : WRes × State :=
  let c := s.core core
  let d := s.die (dieOf core)
  let toCore (e : TlbE) (s : State) : State := (s.modCore core (fun c => { c with tlb := tlbAdd 256 c.tlb e })).setLast core lane e
  match s.lastHit core lane asid va with
  | some p => (.ok p.1.leaf p.1.big, s)
  | none =>
    match tlbFind c.tlb asid va with
    | some e => (.ok e.leaf e.big, s.setLast core lane e)
    | none =>
      match tlbFind d.tlb asid va with
      | some e => (.ok e.leaf e.big, toCore e s)
      | none =>
        let s1 := s.countWalk asid va
        match s.walk asid va with
        | .ok leaf big =>
          let e : TlbE := ⟨asid, va.toNat / 65536, big, leaf⟩
          (.ok leaf big, if (tierOf (leafPA leaf big va)).isSome then
            toCore e (s1.modDie (dieOf core) (fun d => { d with tlb := tlbAdd 4096 d.tlb e })) else s1)
        | .bad c l => (.bad c l, s1)

/-- Translates for an access (R355, in the order of its table down to PARANGE). -/
def State.xlate (s : State) (core : Nat) (lane : Option Nat) (asid : BitVec 16) (va : DWord) (p : Perm) :
    (Except (Nat × Nat) Xl) × State :=
  if va.extractLsb' 56 8 ≠ 0 then (.error (cVARANGE, 0), s) else
  match s.lookup core lane asid va with
  | (.bad c l, s) => (.error (c, l), s)
  | (.ok leaf big, s) =>
    if !permOk leaf p then (.error (cPERM, 0), s)
    else if (tierOf (leafPA leaf big va)).isNone then (.error (cPARANGE, 0), s)
    else (.ok (xlOf leaf big va), { s with tseq := s.tseq + 1 })

/-- The requests of a range that pages have been found for, one a line (R263, R265). -/
def State.countLines (s : State) (x : Xl) (n : Nat) (write : Bool) : State :=
  foldS ((List.range ((x.pa + n - 1) / 128 - x.pa / 128 + 1)).map (fun k => x.pa / 128 + k)) s (fun s l => s.countReq x.swz (128 * l) write x.cgrp)

/-- Translation of a unit that keeps no cache of its own here: the dispatcher and the ports (R267, R288). -/
def State.xlateD (s : State) (asid : BitVec 16) (va : DWord) (p : Perm) : Except (Nat × Nat) Xl :=
  if va.extractLsb' 56 8 ≠ 0 then .error (cVARANGE, 0) else
  match s.walk asid va with
  | .bad c l => .error (c, l)
  | .ok leaf big =>
    if !permOk leaf p then .error (cPERM, 0)
    else if (tierOf (leafPA leaf big va)).isNone then .error (cPARANGE, 0)
    else .ok (xlOf leaf big va)

/-- The pieces of a range, one per 64 KiB page it touches (R166): address and length. -/
def pieces (va : DWord) (n : Nat) : Nat → List (DWord × Nat)
  | 0 => []
  | fuel + 1 =>
    if n = 0 then [] else
    let room := 65536 - va.toNat % 65536
    if n ≤ room then [(va, n)] else (va, room) :: pieces (va + BitVec.ofNat 64 room) (n - room) fuel

/-- Reads a virtual range for the dispatcher or a port. -/
def State.readD (s : State) (asid : BitVec 16) (va : DWord) (n : Nat) : Except (Nat × Nat × DWord) (List Byte) :=
  (pieces va n (n / 65536 + 2)).foldl (fun r p => do
    let l ← r
    match s.xlateD asid p.1 .rd with
    | .error (c, lv) => .error (c, lv, p.1)
    | .ok x => if s.badAt x.swz x.pa p.2 then .error (cUNCORR, 0, p.1) else .ok (l ++ s.readMem x.swz x.pa p.2)) (.ok [])

/-- The requests that a read or a write of a virtual range by such a unit makes, its walks included (R265). -/
def State.countD (s : State) (asid : BitVec 16) (va : DWord) (n : Nat) (write : Bool) : State :=
  foldS (pieces va n (n / 65536 + 2)) s (fun s p =>
    let s := s.countWalk asid p.1
    match s.xlateD asid p.1 (if write then .wr else .rd) with
    | .ok x => s.countLines x p.2 write
    | .error _ => s)

/-- A read of a virtual range by the dispatcher or a port, and the requests it makes. -/
def State.fetchD (s : State) (asid : BitVec 16) (va : DWord) (n : Nat) : Except (Nat × Nat × DWord) (List Byte) × State :=
  (s.readD asid va n, s.countD asid va n false)

/-- Writes a virtual range for the dispatcher, a port or a record: all of it, or nothing and the first cause. -/
def State.writeD (s : State) (asid : BitVec 16) (va : DWord) (data : List Byte) : Except (Nat × Nat × DWord) State :=
  let ps := pieces va data.length (data.length / 65536 + 2)
  match ps.foldl (fun (r : Except (Nat × Nat × DWord) Unit) p => do
      r
      match s.xlateD asid p.1 .wr with
      | .error (c, lv) => .error (c, lv, p.1)
      | .ok _ => .ok ()) (.ok ()) with
  | .error e => .error e
  | .ok () =>
    .ok (ps.foldl (fun s p =>
      match s.xlateD asid p.1 .wr with
      | .ok x => s.writeMem x.swz x.pa ((data.drop (p.1.toNat - va.toNat)).take p.2)
      | .error _ => s) (s.countD asid va data.length true))

/-! ### Links between the dies (R7, R307, R393) -/

/-- A module carries new packets. -/
def State.moduleOpen (s : State) (d m : Nat) : Bool := let l := Fmap.get {} s.links (10 * d + m); !l.paused && !l.dead

/-- Modules of a compute die toward a far end: the I/O dies, numbered 4 and 5 here, and its ring neighbours. -/
def sideOf (d far : Nat) : List Nat :=
  if far = 4 then [0, 1, 2] else if far = 5 then [3, 4, 5] else if far = (d + 1) % 4 then [6, 7] else if far = (d + 3) % 4 then [8, 9] else []

/-- A source skips modules that are paused while one toward the same far end is not. -/
def State.sideOpen (s : State) (d far : Nat) : Bool := (sideOf d far).any (s.moduleOpen d)

/-- The ways between two dies for the line of an address, each as the sides of compute dies that it crosses (R307): between ring
neighbours the modules of both, across the ring the core switch of an I/O die, between the I/O dies the compute die that PA[8:7] names. -/
def routes (a b pa : Nat) : List (List (Nat × Nat)) :=
  if a = b then [[]]
  else if 4 ≤ a ∧ 4 ≤ b then [[(pa / 128 % 4, 4), (pa / 128 % 4, 5)]]
  else if 4 ≤ b then [[(a, b)]]
  else if 4 ≤ a then [[(b, a)]]
  else if b = (a + 2) % 4 then [[(a, 4), (b, 4)], [(a, 5), (b, 5)]]
  else [[(a, b), (b, a)]]

/-- A packet from one die, and its answer, find their way to another. -/
def State.routeOpen (s : State) (a b : Nat) (pa : Nat := 0) : Bool := (routes a b pa).any (fun r => r.all (fun p => s.sideOpen p.1 p.2))

/-- The die that a physical address is reached through (R6, R8): mapped host memory through X0. -/
def dieOfPa (tab : List Word) (swz pa : Nat) : Nat :=
  match sliceOf tab swz pa with
  | some sl => if sl < 64 then sl / 16 else if sl < 68 then 4 else 5
  | none => 4

/-- Memory at an address can be reached from a die. -/
def State.dieReach (s : State) (d swz pa : Nat) : Bool := s.links = [] || s.routeOpen d (dieOfPa s.dev.chtab swz pa) pa

/-- All lines of n bytes at an address can be. -/
def State.spanReach (s : State) (d swz pa n : Nat) : Bool :=
  s.links = [] || (List.range ((pa + n - 1) / 128 - pa / 128 + 1)).all (fun k => s.dieReach d swz (128 * (pa / 128 + k)))

/-- Memory at an address can be reached from a core. -/
def State.reach (s : State) (core swz pa : Nat) : Bool := s.dieReach (dieOf core) swz pa

/-- What a walk of a core reads can be reached, or a cache spares it the walk. -/
def State.walkReach (s : State) (core : Nat) (lane : Option Nat) (asid : BitVec 16) (va : DWord) : Bool :=
  s.links = [] || (s.walkReads asid va).all (fun pa => s.reach core 0 pa) ||
    (s.lastHit core lane asid va).isSome ||
    (tlbFind (s.core core).tlb asid va).isSome || (tlbFind (s.die (dieOf core)).tlb asid va).isSome

/-- A unit of a die without a cache of its own can reach the tables and the lines of a virtual range, as far as they stand. -/
def State.rangeReach (s : State) (d : Nat) (asid : BitVec 16) (va : DWord) (n : Nat) : Bool :=
  s.links = [] || (pieces va n (n / 65536 + 2)).all (fun q =>
    (s.walkReads asid q.1).all (fun pa => s.dieReach d 0 pa) &&
    (match s.walk asid q.1 with
     | .ok leaf big => (tierOf (leafPA leaf big q.1)).isNone || s.spanReach d (xlOf leaf big q.1).swz (leafPA leaf big q.1) q.2
     | .bad _ _ => true))

/-- The die of a fabric port (R6). -/
def portDie (p : Nat) : Nat := if p < 8 then 4 else 5

/-! ### Timelines (R191) -/

/-- Issues the next number. -/
def Timeline.next (t : Timeline) : Timeline := { t with issue := t.issue + 1 }
/-- Takes early numbers into the counter, ascending. -/
def Timeline.absorb (t : Timeline) : Nat → Timeline
  | 0 => t
  | fuel + 1 => if t.early.contains (t.comp + 1) then
      Timeline.absorb { t with comp := t.comp + 1, early := t.early.filter (fun n => n != t.comp + 1) } fuel else t
/-- Operation n completes: the counter is the largest N with every number up to N complete. -/
def Timeline.complete (t : Timeline) (n : Nat) : Timeline :=
  let t := { t with early := t.early ++ [n] }
  t.absorb t.early.length

/-! ### Threads, exit and retirement -/

/-- Threads in a warp's table (R30). -/
def State.liveMask (s : State) (wk : Nat) : Word := maskOf ((List.range 32).filter (fun t => (s.thread wk t).live))

/-- The warps of a block. -/
def State.blockWarps (s : State) (bk : Nat) : List Nat :=
  if isSys bk then [bk] else (List.range (s.launch (s.block bk).lid).nwarp).map (fun w => 32 * bk + w)

/-- Threads of a convergence register's declared set that are still in their tables, as thread keys (R41, R43). -/
def State.declared (s : State) (bk : Nat) (d : KDecl) : List Nat :=
  match d with
  | .none => []
  | .warp wk m => (maskList m).filterMap (fun t => if (s.thread wk t).live then some (tkey wk t) else none)
  | .block m => ((s.blockWarps bk).filter (fun wk => m.getLsbD (widx wk))).flatMap (fun wk => (List.range 32).filterMap (fun t =>
      if (s.thread wk t).live then some (tkey wk t) else none))

/-- Threads of a block in their tables, as (warp key, thread). -/
def State.blockThreads (s : State) (bk : Nat) : List (Nat × Nat) :=
  (s.blockWarps bk).flatMap (fun wk => (List.range 32).filterMap (fun t => if (s.thread wk t).live then some (wk, t) else none))

def State.kreg (s : State) (bk k : Nat) : KReg := Fmap.get {} (s.block bk).k k
def State.setKreg (s : State) (bk k : Nat) (x : KReg) : State := s.modBlock bk (fun b => { b with k := Fmap.set {} b.k k x })

/-- Every thread of the declared set that is still in its table has signed (R42, R43). -/
def State.roundFull (s : State) (bk k : Nat) : Bool :=
  let K := s.kreg bk k
  K.signed != [] && (s.declared bk K.decl).all (fun t => K.signed.contains t)

/-- The rounds of a block that were open in `s0` and that an exit has filled are full from this cycle on (R43, R200). -/
def State.exitFills (s s0 : State) (bk : Nat) : State :=
  foldS ((s.block bk).k.map Prod.fst) s (fun s k =>
    if s.roundFull bk k && !s0.roundFull bk k then s.setKreg bk k { s.kreg bk k with last := max s.clk (s.kreg bk k).last } else s)

def State.release (s : State) (wk t : Nat) : State := s.modThread wk t (fun r => { r with hold := .none })

/-- An uncounted barrier phase completes when every thread of the block still in a table has arrived (R194). -/
def State.barCheck (s : State) (bk id : Nat) : State :=
  let ph := Fmap.get {} (s.block bk).bar id
  let ts := s.blockThreads bk
  let arrived := ts.filter (fun p => (s.thread p.1 p.2).hold == .bar id)
  let fin := match ph.form with
    | some none => !arrived.isEmpty && arrived.length == ts.length
    | some (some n) => n ≤ ph.count
    | none => false
  if fin then
    foldS arrived (s.modBlock bk (fun b => { b with bar := Fmap.set {} b.bar id {} })) (fun s p => s.release p.1 p.2)
  else s

/-- A started block has arrived at a group barrier when all its threads in tables wait there (R195). -/
def State.gbarBlock (s : State) (bk g : Nat) : Bool :=
  (s.block bk).started && (s.blockThreads bk).all (fun p => (s.thread p.1 p.2).hold == .gbar g)

/-- The block of a launch with a given index, if it has been assigned and has not retired. -/
def State.findBlock (s : State) (lid bidx : Nat) : Option Nat :=
  (s.blocks.find? (fun p => p.2.present && p.2.lid == lid && p.2.bidx == bidx)).map Prod.fst

/-- A group barrier phase completes when every member block has arrived (R195). A retired block, none of whose threads has
not exited, keeps no phase open. -/
def State.gbarCheck (s : State) (lid g : Nat) : State :=
  let members := Fmap.get [] (s.launch lid).groups g
  if members.all (fun b => match s.findBlock lid b with
      | some bk => s.gbarBlock bk g
      | none => Fmap.get false (s.launch lid).assigned b) then
    foldS members s (fun s b => match s.findBlock lid b with
      | some bk => foldS (s.blockThreads bk) s (fun s p => s.release p.1 p.2)
      | none => s)
  else s

/-! ### Records (R350, R351) -/

/-- A 64-byte fault record. -/
def recordBytes (block core btag warp : Nat) (tmask : Word) (pc aux : DWord) (tlnum : Nat) (err ctx trapk src : Nat)
    (detail : BitVec 160) : List Byte :=
  leBytes 64 ((detail ++ 0#352).toNat / 2 ^ 352 + 2 ^ 160 * src + 2 ^ 168 * trapk + 2 ^ 180 * ctx + 2 ^ 184 * err +
    2 ^ 192 * (tlnum % 2 ^ 64) + 2 ^ 256 * aux.toNat + 2 ^ 320 * pc.toNat + 2 ^ 384 * tmask.toNat + 2 ^ 423 * warp +
    2 ^ 428 * btag + 2 ^ 440 * core + 2 ^ 448 * block)

/-- Writes a record to a launch's fault queue, or counts it as dropped (R350); every code used here is failing. A system
warp has no launch, and nothing is written for it (R210). -/
def State.recordFor (s : State) (lid bidx wk : Nat) (tmask : Word) (pc aux : DWord) (tlnum err ctx trapk src : Nat) (detail : BitVec 160) : State :=
  if isSys wk then s else
  let L := s.launch lid
  let bytes := recordBytes bidx (coreOf wk) (btagOf wk) (widx wk) tmask pc aux tlnum err ctx trapk src detail
  let s := s.modLaunch lid (fun l => { l with failed := true })
  let drop (s : State) : State :=
    let s := s.modLaunch lid (fun l => { l with dropped := l.dropped + 1 })
    match s.writeD L.asid (L.fqva + 8) (leBytes 4 ((s.launch lid).dropped)) with
    | .ok s => s
    | .error _ => s
  if L.fqva = 0 ∨ L.written ≥ L.nrec then (if L.fqva = 0 then s.modLaunch lid (fun l => { l with dropped := l.dropped + 1 }) else drop s)
  else match s.writeD L.asid (L.fqva + 64 + BitVec.ofNat 64 (64 * L.written)) bytes with
    | .error _ => drop s
    | .ok s =>
      let s := s.modLaunch lid (fun l => { l with written := l.written + 1 })
      match s.writeD L.asid (L.fqva + 4) (leBytes 4 ((s.launch lid).written)) with
      | .ok s => s
      | .error _ => s

/-- A record for the block that a warp is in. -/
def State.record (s : State) (wk : Nat) (tmask : Word) (pc aux : DWord) (tlnum err ctx trapk src : Nat) (detail : BitVec 160) : State :=
  s.recordFor (s.block (bkOf wk)).lid (s.block (bkOf wk)).bidx wk tmask pc aux tlnum err ctx trapk src detail

/-- DETAIL of a record of SRC 0x04 (R365). -/
def detail4 (va : DWord) (cause acc size : Nat) : BitVec 160 :=
  BitVec.ofNat 160 ((va.toNat % 2 ^ 56) * 2 ^ 96 + cause * 2 ^ 84 + acc * 2 ^ 82 + size * 2 ^ 79)

/-! ### Traps (R336 to R343) -/

abbrev kFetch : Nat := 0
abbrev kIll : Nat := 1
abbrev kPriv : Nat := 2
abbrev kRng : Nat := 3
abbrev kWin : Nat := 4
abbrev kPois : Nat := 5
abbrev kStk : Nat := 6
abbrev kJoin : Nat := 7
abbrev kSlot : Nat := 8
abbrev kSw : Nat := 9

/-- A warp with an empty table retires, and its slice instance stops (R205, R282). -/
def State.retireWarp (s : State) (wk : Nat) : State :=
  let s := s.modWarp wk (fun w => { w with alive := false })
  if isSys wk ∨ isSlice wk then s else
  let k := 0x80000000 + wk
  if (s.warp k).alive then
    ((s.modWarp k (fun w => { w with alive := false })).modThread k 0 (fun r => { r with live := false })).setRun (sliceRun k) none
  else s

/-- EXIT of one thread (R205): it leaves its table, and a warp whose table is empty retires; what its registers hold stays known (R134). Uncounted barriers, group
barriers and convergence sets that it leaves may complete by that (R43, R194, R195); the rounds close by their own step. -/
def State.exitThread (s0 : State) (wk t : Nat) : State :=
  let s := s0.modThread wk t (fun r => { r with live := false, ftag := none, inHandler := false, trap := none, hold := .none, wait := 0, exitV := r.v, exitPois := r.vPois })
  let s := if s.liveMask wk = 0 then s.retireWarp wk else s
  if isSlice wk then s else
  let bk := bkOf wk
  let s := foldS (List.range 8) (s.exitFills s0 bk) (fun s id => s.barCheck bk id)
  foldS ((s.launch (s.block bk).lid).groups.map Prod.fst) s (fun s g =>
    s.gbarCheck (s.block bk).lid g)

/-- A thread raises a trap (R338): it is pending and held until delivery. In handler state an FP kind is not raised, and
any other kind terminates the thread with a record of SRC 0x02 (R341). -/
def State.raise (s : State) (wk t kind : Nat) (pc : DWord) (tdst : Word) : State :=
  let th := s.thread wk t
  if th.inHandler then
    if 0xA ≤ kind then s
    else (s.record wk (bit1 t) pc (tdst.setWidth 64) 0 0 0 kind 2 0).exitThread wk t
  else
    let resume := if kind = kFetch ∨ kind = kPois then pc else pc + 12
    s.setThread wk t { th with trap := some ⟨kind, pc, resume, tdst⟩, hold := .trap }

/-- Threads of a warp with a pending trap. -/
def State.trapped (s : State) (wk : Nat) : List Nat := (List.range 32).filter (fun t => (s.thread wk t).live && (s.thread wk t).trap.isSome)

/-- The handler of a kind (R337): none for a system warp (R210), for no entry, or for an address that is not a multiple
of 12. An access-slice instance has none (DEDUCED, log 11). -/
def State.handlerOf (s : State) (wk kind : Nat) : Option DWord :=
  if isSys wk ∨ isSlice wk then none else
  let a := Fmap.get 0 (s.launch (s.warp wk).lid).traps kind
  if a = 0 ∨ a.toNat % 12 ≠ 0 then none else some a

/-- Taking a trap (R339 to R341): one kind, the lowest pending, at one PC, the lowest, for every thread that pends it
there. Each such thread's resume PC is saved and its next PC is the handler; `%tmask`, `%tpc` and `%tdst` are set. A
kind with no handler ends the threads as by EXIT and writes one record of SRC 0x01. -/
def State.deliver (s : State) (wk : Nat) : State :=
  let ts := s.trapped wk
  let pend := ts.filterMap (fun t => (s.thread wk t).trap.map (fun p => (t, p)))
  if (List.range 32).any (fun t => (s.thread wk t).live && (s.thread wk t).inHandler) ∨ pend = [] ∨ (s.warp wk).stopped then s else
  let k := pend.foldl (fun m p => min m p.2.kind) 15
  let pk := pend.filter (fun p => p.2.kind == k)
  let pc := pk.foldl (fun m p => min m p.2.pc.toNat) (2 ^ 64)
  let sel := pk.filter (fun p => p.2.pc.toNat == pc)
  let mask := maskOf (sel.map Prod.fst)
  let s := s.modWarp wk (fun r => { r with tmask := mask, tpc := BitVec.ofNat 64 pc })
  let s := foldS sel s (fun s p => s.modThread wk p.1 (fun r =>
    { r with tdst := p.2.tdst, resume := p.2.resume, trap := none, hold := .none }))
  match s.handlerOf wk k with
  | some h => foldS sel s (fun s p => s.modThread wk p.1 (fun r => { r with inHandler := true, pc := h }))
  | none =>
    let aux : DWord := match sel with | p :: _ => p.2.tdst.setWidth 64 | [] => 0
    let s := s.record wk mask (BitVec.ofNat 64 pc) aux 0 0 0 k 1 0
    foldS sel s (fun s p => s.exitThread wk p.1)

/-- Return from a handler (R206, R341): the resume PC is the next PC; `%tmask`, `%tpc` and `%tdst` stay. -/
def State.returnTrap (s : State) (wk t : Nat) : State :=
  s.modThread wk t (fun r => { r with pc := r.resume, inHandler := false })

/-! ### The clock and the top-down account (R326, R327) -/

/-- Parts of a nanosecond in which time is kept: every cycle length of R12 is a whole number of them. -/
abbrev nsParts : Nat := 3 * 9690712164777231700912800
/-- Parts that n cycles take at multiplier m (R12): a cycle lasts 80/(3·m) ns. -/
def cycleParts (m n : Nat) : Nat := n * (80 * 9690712164777231700912800 / m)

/-- The state as a thread finds it that enters its lane in cycle c (R33). -/
def State.setClk (s : State) (c : Nat) : State := { s with clk := c }

/-- Time passes by n cycles. -/
def State.tick (s : State) (n : Nat) : State :=
  let x := s.dev.sub + cycleParts s.dev.m n
  { s with clk := s.clk + n, dev := { s.dev with now := s.dev.now + x / nsParts, sub := x % nsParts } }

def State.ftime (s : State) (p : Nat) : DWord := BitVec.ofNat 64 s.dev.now + (s.port p).ftOff

/-- Leaf of R327 in which an instruction of a class counts. -/
def issLeaf (cls : Nat) : Nat := if cls ≤ 6 then 2 else if cls ≤ 8 then 3 else if cls = 9 ∨ cls = 0xC ∨ cls = 0xD then 4 else 5

def addTd (m : Fmap DWord) (i n : Nat) : Fmap DWord := if n = 0 then m else Fmap.set 0 m i (Fmap.get 0 m i + BitVec.ofNat 64 n)

/-- The cycles of a run's lane from a up to b: those in which threads entered it, those in which a read was deferred, and those in which
it waited otherwise (R327). -/
def Run.account (a b : Nat) (m : Fmap DWord) (r : Run) : Fmap DWord :=
  let n := min r.busyTo b - a
  let d := min r.bankTo b - max a r.busyTo
  addTd (addTd (addTd m (issLeaf r.cls) n) 8 d) 7 (b - a - n - d)

/-- Some resident warp of the core holds no lane (R327). -/
def State.idleWarp (s : State) (c : Nat) : Bool :=
  s.warps.any (fun p => p.2.alive && !isSlice p.1 && coreOf p.1 == c && (isSys p.1 || (s.block (bkOf p.1)).resident) &&
    !(s.runList.any (fun r => r.2.wk == p.1)))

/-- Brings a core's account up to a cycle, its lanes held and free as they are now (R327). -/
def State.tdSyncTo (s : State) (c b : Nat) : State :=
  let k := s.core c
  if b ≤ k.tdClk then s else
  let rs := s.runList.filter (fun p => p.1 / 64 == c)
  let td := rs.foldl (fun m p => p.2.account k.tdClk b m) k.td
  s.setCore c { k with td := addTd td (if s.idleWarp c then 0xA else 0xB) ((64 - rs.length) * (b - k.tdClk)), tdClk := b }
def State.tdSync (s : State) (c : Nat) : State := s.tdSyncTo c s.clk

/-- The twelve counters of R327 from the leaves kept. -/
def tdCounter (m : Fmap DWord) (i : Nat) : DWord :=
  let g := fun j => Fmap.get 0 m j
  let iss := g 2 + g 3 + g 4 + g 5
  let rw := g 7 + g 8
  let nl := g 0xA + g 0xB
  match i with
  | 0 => iss + rw + nl
  | 1 => iss
  | 6 => rw
  | 9 => nl
  | j => g j

/-- The affine address engine of a core has issued for an instance: the next one is served in the next cycle (R282). -/
def State.tookSlice (s : State) (wk : Nat) : State :=
  s.modCore (coreOf wk) (fun c => { c with sliceAt := s.clk + 1, sliceLast := (s.warp (parent wk)).wslot + 1 })

/-- Threads of an instruction of a class enter the lane of a run in n cycles from now on (R33); a slice instance holds none. -/
def State.passLane (s : State) (key cls n : Nat) : State :=
  if n = 0 then s else
  let s := if key < 0x10000000000 then s.tdSync (key / 64)
    else match s.run key with
      | some r => if isSlice r.wk then s.tookSlice r.wk else s
      | none => s
  s.setRun key ((s.run key).map (fun r => { r with busyTo := s.clk + n, cls := cls }))

end Sys2Proof.Machine
end

