-- ==== Sys2Proof/Machine/Operands.lean ====
section
/-! DEFINITION. Operands (R57 to R70, R83 to R87, R116, R345, R346): special and system registers, which registers an
operand names in a thread, when they are ready, what stops them, and their values. -/

namespace Sys2Proof.Machine

/-! ### Fetching -/

/-- Reads through the translation tables without touching a cache. -/
def State.peek (s : State) (asid : BitVec 16) (va : DWord) (n : Nat) : Option (List Byte) :=
  match s.readD asid va n with
  | .ok l => some l
  | .error _ => none

/-- Reads instruction bytes, which asks for X alone (R254), without touching a cache. -/
def State.peekX (s : State) (asid : BitVec 16) : List (DWord × Nat) → Option (List Byte)
  | [] => some []
  | p :: ps =>
    match s.xlateD asid p.1 .x with
    | .error _ => none
    | .ok x => if s.badAt x.swz x.pa p.2 then none else (s.peekX asid ps).map (fun l => s.readMem x.swz x.pa p.2 ++ l)

/-- The instruction bytes at a PC, for a fetch that looks ahead (R78). -/
def State.peekWord (s : State) (asid : BitVec 16) (pc : DWord) : Option (BitVec 96) :=
  if pc.toNat % 12 ≠ 0 then none else (s.peekX asid (pieces pc 12 2)).map (fun l => BitVec.ofNat 96 (leNat l))

/-- Bit S of the word at a PC (R82, R318). -/
def State.atSafe (s : State) (asid : BitVec 16) (pc : DWord) : Bool :=
  match s.peekWord asid pc with
  | some w => w.getLsbD 6
  | none => false

/-- The ordinal of a safe point (R318): the entry of the table whose offset is that of the PC from ENTRY; 0 for none. -/
def State.ordinalAt (s : State) (lid : Nat) (pc : DWord) : Nat :=
  let L := s.launch lid
  match s.peek L.asid L.sptva 4 with
  | none => 0
  | some h =>
    ((List.range (leNat h)).findSome? (fun i =>
      match s.peek L.asid (L.sptva + BitVec.ofNat 64 (16 + 16 * i)) 16 with
      | some e => if leNat (e.take 4) = (pc - L.entry).toNat then some (leNat ((e.drop 8).take 2)) else none
      | none => none)).getD 0

/-! ### Special registers -/

/-- Cycles of its count that an array command has run; those of one that stands stopped with its block stand still (R223, R224). -/
def Cmd.elapsed (c : Cmd) (clk : Nat) : Nat := c.skip + (if c.st = .queued then 0 else clk - c.start)

/-- The cycle of its count in which a command reads the sources of a unit: row i of an MMA and of an ATT at its share of the T cycles, row i
of the others in cycle i, a step or a rung every 8 cycles (R223, R224, R239, R240). DESIGN CHOICE for rows (log 66). -/
def Cmd.readOff (c : Cmd) (idx : Nat) : Nat :=
  let i := c.units.getD idx 0
  match c.ins with
  | .mma .. => i * c.count / 32
  | .att .. => i * ((c.count - 16) / 2) / 32
  | .ald .. | .asto .. | .ladld .. => i
  | .ladpush .. | .ladread .. => 8 * idx
  | _ => 0

/-- The cycle of its count at which a landing is in place: a pass or a row of an MMA at the end of its share of T; a row of an ATT at its share
of the T cycles after the score pass and the 16; row i of ALD, ASTO and LADLD at cycle i + 1; else at the end of the step, the rung or the
command. DESIGN CHOICE for rows (log 66). -/
def Cmd.landOff (c : Cmd) (j : Nat) : Nat :=
  let idx := j / max 1 c.split
  let i := c.units.getD idx 0
  let up (n d : Nat) : Nat := (n + d - 1) / d
  match c.ins with
  | .mma .. => up ((i * max 1 c.split + j % max 1 c.split + 1) * c.count) (32 * max 1 c.split)
  | .att .. => let t := (c.count - 16) / 2; t + 16 + up ((i + 1) * t) 32
  | .ald .. | .asto .. | .ladld .. => i + 1
  | .ladpush .. | .ladread .. => 8 * (idx + 1)
  | _ => c.count

/-- Landings of a running command up to the end of the cycle before `clk`. -/
def Cmd.landed (c : Cmd) (clk : Nat) : Nat :=
  max (if c.landClk.1 = clk then c.landClk.2 else c.ldone)
    ((List.range (if c.units = [] then 0 else c.rdone * c.split)).filter (fun j => c.landOff j ≤ c.elapsed clk)).length

/-- OPSLOT, UNIT and PASS of an array command at the end of the cycle before `clk`, or its final counts (R224). -/
def Cmd.prog (c : Cmd) (clk : Nat) : Word :=
  let n := if c.st = .ended then c.ldone else if c.await ≠ 0 ∨ (c.st = .queued ∧ !c.begun) then 0 else c.landed clk
  let idx := n / max 1 c.split
  let unit := match c.ins with
    | .mma .. => idx
    | .att .. | .ald .. | .asto .. | .ladld .. | .wld .. => n
    | .ladread .. => min n c.total
    | _ => 0
  let pass := match c.ins with
    | .mma .. =>
      if c.st ≠ .ended ∧ idx < c.rdone then
        min (32 * c.total * c.elapsed clk / max 1 c.count - c.total * c.units.getD idx 0) (c.total - 1)
      else 0
    | .ladpush .. => n
    | _ => 0
  BitVec.ofNat 32 ((match c.ins.sig with | some g => g.op % 64 | none => 0) * 2 ^ 26 + (unit % 65536) * 256 + pass % 32)

/-- `%aprog`: the array command that was the oldest not retired at the end of the cycle before (R224). -/
def State.aprog (s : State) (wk : Nat) : Word :=
  let old := (s.warp wk).aprogOld
  if old.1 = s.clk ∧ old.2 ≠ 0 then old.2 else
  match s.cmdList.find? (fun p => p.2.array && p.2.wk == wk && p.2.issued < s.clk) with
  | none => 0
  | some p => p.2.prog s.clk

/-- Number of the groups a block belongs to, ascending (R27). -/
def Launch.groupsOf (L : Launch) (b : Nat) : List Nat := (L.groups.filter (fun p => p.2.contains b)).map Prod.fst

/-- Target word of a warp (R209). -/
def targetOf (wk : Nat) : Word := BitVec.ofNat 32 (coreOf wk + 256 * btagOf wk + 2 ^ 20 * widx wk)
/-- Block and warp a target word names. -/
def targetBk (w : Word) : Nat := bkey (w.toNat % 256) (w.toNat / 256 % 4096)
def targetWk (w : Word) : Nat := 32 * targetBk w + w.toNat / 2 ^ 20 % 32

/-- A warp a debugger may act on: alive, in a launch with DBG = 1, and named with no bit out of place (R319, R320). -/
def State.dbgWarp (s : State) (w : Word) : Option Nat :=
  let wk := targetWk w
  if w.toNat % 256 < 192 ∧ w.toNat / 2 ^ 25 = 0 ∧ (s.warp wk).alive ∧ (s.block (bkOf wk)).present ∧ (s.launch (s.block (bkOf wk)).lid).dbg then some wk else none

/-- The device entries of the warp that have met a full mailbox; the warp is stopped meanwhile (R322). -/
def State.mboxKept (s : State) (wk : Nat) : List MEntry :=
  (s.die (dieOf (coreOf wk))).mboxWait.filter (fun m => m.wk == wk && m.idx < 5 && m.cyc < s.clk)
def State.mboxHeld (s : State) (wk : Nat) : Bool := s.mboxKept wk != []

/-- The warp is stopped: by a cause of R319, or while an entry of it waits, from the end of its run on (R322). -/
def State.isStopped (s : State) (wk : Nat) : Bool := (s.warp wk).stopped || (s.mboxHeld wk && !s.runList.any (fun p => p.2.wk == wk))

/-- The cause that a stopped warp shows; of one that only its waiting entry stops, the cause that the entry names (log 39). -/
def State.stopCause (s : State) (wk : Nat) : Nat :=
  if (s.warp wk).stopped then (s.warp wk).cause.toNat
  else match s.mboxKept wk with
    | m :: _ => (m.e.extractLsb' 60 3).toNat
    | [] => 0

/-- `%dbgst` (R320). ORDINAL is that of the safe point at which the lowest live thread stands, where they stand at several. DESIGN CHOICE
(log 66). -/
def State.dbgst (s : State) (w : Word) : Word :=
  match s.dbgWarp w with
  | none => 0
  | some wk =>
    let ts := maskList (s.liveMask wk)
    let asid := (s.warp wk).asid
    let safe := !ts.isEmpty && ts.all (fun t => s.atSafe asid (s.thread wk t).pc)
    let ord := match ts with
      | t :: _ => if safe then s.ordinalAt (s.block (bkOf wk)).lid (s.thread wk t).pc else 0
      | [] => 0
    BitVec.ofNat 32 (ord * 65536 + (if s.isStopped wk then s.stopCause wk * 256 + 1 else 0) + (if safe then 2 else 0))

/-- The register `%dbgsel` names, in a stopped warp and inside its allocation (R321). -/
inductive DbgReg where
  | reg (l : Loc)
  | pred (wk p : Nat)
  deriving DecidableEq, Repr
def State.dbgReg (s : State) (tgt sel : Word) : Option DbgReg :=
  match s.dbgWarp tgt with
  | none => none
  | some wk =>
    let w := s.warp wk
    let i := sel.toNat % 1024
    if !s.isStopped wk then none else
    match sel.toNat / 2 ^ 30 with
    | 0 => if i < w.alloc.nv then some (.reg (.v wk (sel.toNat / 2 ^ 20 % 32) i)) else none
    | 1 => if i < w.alloc.ns then some (.reg (.s wk i)) else none
    | 2 => if i < w.alloc.np then some (.pred wk i) else none
    | _ => none
def State.dbgRead (s : State) (tgt sel : Word) : Word :=
  match s.dbgReg tgt sel with
  | some (.reg l) => if s.pois l then 0 else s.readLoc l
  | some (.pred wk p) => Fmap.get 0 (s.warp wk).preds p
  | none => 0

/-- The links a die owns (R217, R388): its UCIe modules and the ports p with p mod 4 = d. -/
def State.linkAlarm (s : State) (d : Nat) : Bool :=
  (List.range 10).any (fun m => 256 ≤ (Fmap.get {} s.links (10 * d + m)).retry) ||
  (List.range 4).any (fun j => 256 ≤ (s.port (4 * j + d)).link.retry)

/-- m is below `%pcap` because of power or temperature, or an emergency holds (R316, R399). -/
def State.therm (s : State) : Bool := s.dev.emergency || s.dev.coolantLost || (s.dev.hot && s.dev.m < s.dev.pcap.toNat % 64)

/-- The oldest page of a die's winter queue may leave (R258). -/
def State.winterReady (s : State) (d : Nat) : Bool :=
  match (s.die d).winq with
  | (_, q) :: _ => q + 2 ≤ s.dev.qcnt
  | [] => false

/-- `%sysev` (R212). -/
def State.sysev (s : State) (d : Nat) : Word :=
  let D := s.die d
  let b (i : Nat) (x : Bool) : Nat := if x then 2 ^ i else 0
  BitVec.ofNat 32 (b 7 s.therm + b 6 (!D.mbox.isEmpty) + b 5 (s.winterReady d) + b 4 (!s.dev.mnq.isEmpty) + b 3 (s.linkAlarm d) +
    b 2 D.dropped + b 1 (!D.fb.isEmpty) + b 0 (D.sysq.any (fun r => !r.taken)))

/-- `%cmpctl` as it reads: ASID is there for the memory kind only (R323). -/
def cmpRead (x : Word) : Word := if x.extractLsb' 30 2 == 1 then x else x &&& 0xFFFF0000

/-- System registers as values (R211, R266, R309, R320), 64-bit ones whole; those with a read side effect read 0 here. -/
def State.sysReg (s : State) (wk n : Nat) : DWord :=
  let d := (wk - 0x40000000) / 2
  let D := s.die d
  let w := s.warp wk
  let z (x : Word) : DWord := x.setWidth 64
  if n = 0x200 then z (s.sysev d)
  else if n = 0x201 then z w.syswake
  else if n = 0x204 then w.sysarg
  else if n = 0x206 then BitVec.ofNat 64 (256 * d + (wk - 0x40000000) % 2)
  else if n = 0x208 then BitVec.ofNat 64 ((if D.dropped then 2 ^ 31 else 0) + D.fb.length)
  else if n = 0x209 then BitVec.ofNat 64 D.winq.length
  else if n = 0x20A then BitVec.ofNat 64 Config.ctxSize
  else if n = 0x240 then s.dev.asidtab
  else if n = 0x242 then BitVec.ofNat 64 s.dev.qcnt
  else if n = 0x244 then z s.dev.mthresh
  else if n = 0x248 then BitVec.ofNat 64 s.dev.mnq.length
  else if n = 0x249 then z s.dev.chsel
  else if n = 0x24A then
    (if s.dev.chsel.toNat % 16 ≤ 8 then z (s.dev.chtab.getD (9 * (s.dev.chsel.toNat / 16 % 16) + s.dev.chsel.toNat % 16) 0) else 0)
  else if n = 0x24B then z s.dev.mgsel
  else if n = 0x24C then
    let g := Fmap.get {} s.dev.group (s.dev.mgsel.toNat % 4096)
    BitVec.ofNat 64 ((if g.ovf then 2 ^ 33 else 0) + (if g.queued then 2 ^ 32 else 0) + g.count)
  else if 0x280 ≤ n ∧ n ≤ 0x29F then
    (if n % 2 = 0 then z (s.port ((n - 0x280) / 2)).own else z (s.port ((n - 0x280) / 2)).plnk)
  else if n = 0x2A0 then z s.dev.devid
  else if n = 0x2A1 then z s.dev.fptmo
  else if n = 0x2A2 then z s.dev.plimit
  else if n = 0x2A3 then z s.dev.pcap
  else if n = 0x2A4 then BitVec.ofNat 64 s.dev.m
  else if n = 0x2A5 then BitVec.ofNat 64 s.dev.pwr
  else if n = 0x2A6 then BitVec.ofNat 64 s.dev.ptemp
  else if n = 0x2C0 then z D.dbgtgt
  else if n = 0x2C2 then z (s.dbgst D.dbgtgt)
  else if n = 0x2C3 then z D.dbgsel
  else if n = 0x2C4 then z (s.dbgRead D.dbgtgt D.dbgsel)
  else if n = 0x2C6 then
    (match s.dbgWarp D.dbgtgt with
     | some k => if s.isStopped k then (s.thread k (D.dbgsel.toNat / 2 ^ 20 % 32)).pc else 0
     | none => 0)
  else if 0x2C8 ≤ n ∧ n ≤ 0x2D7 then
    (if n % 4 = 0 then (Fmap.get {} D.cmp ((n - 0x2C8) / 4)).va else if n % 4 = 2 then z (cmpRead (Fmap.get {} D.cmp ((n - 0x2C8) / 4)).ctl) else 0)
  else if n = 0x2D8 ∨ n = 0x2D9 then z (Fmap.get 0 D.tcfg (n - 0x2D8))
  else if n = 0x2DA ∨ n = 0x2DB then z (Fmap.get 0 D.tcnt (n - 0x2DA))
  else if 0x2DC ≤ n ∧ n ≤ 0x2DF then z (Fmap.get 0 D.tsq (n - 0x2DC) ^^^ 0x0000000F)
  else if n = 0x2E0 then BitVec.ofNat 64 ((if D.tron then 256 else 0) + D.tstate)
  else if n = 0x2E2 then D.trbase
  else if n = 0x2E4 then z D.trsize
  else if n = 0x2E5 then BitVec.ofNat 64 (D.trpos % 2 ^ 32)
  else 0

/-- Special registers as values (R27, R75, R87, R141, R224, R326, R340), 64-bit ones whole. An access-slice instance reads those of
its warp, and for those of thread scope, which R281 does not give it, of its warp's thread 0. DESIGN CHOICE (log 66). -/
def State.userReg (s : State) (wk t n : Nat) : DWord :=
  let p := parent wk
  let w := s.warp p
  let th := s.thread p t
  let bl := s.block (bkOf wk)
  let L := s.launch bl.lid
  let sys := isSys wk
  let z (x : Word) : DWord := x.setWidth 64
  let nat (x : Nat) : DWord := BitVec.ofNat 64 x
  match n with
  | 0x000 => nat (32 * widx wk + t)
  | 0x001 => nat t
  | 0x002 => nat (widx wk)
  | 0x003 => if sys then 0 else nat bl.bidx
  | 0x004 => if sys then 32 else nat (32 * L.nwarp)
  | 0x005 => if sys then 1 else nat L.nwarp
  | 0x006 => if sys then 1 else nat L.nblocks
  | 0x007 => nat (coreOf wk)
  | 0x008 => if sys then 0 else nat (L.groupsOf bl.bidx).length
  | 0x009 => if sys then 0 else nat (leNat ((L.groupsOf bl.bidx).map (fun g => BitVec.ofNat 8 g)) % 2 ^ 32)
  | 0x00A => nat th.sdepth
  | 0x010 => nat s.clk
  | 0x012 => w.dseg
  | 0x014 => w.stkbase
  | 0x016 => w.tpc
  | 0x018 => z w.stklim
  | 0x019 => z th.tdst
  | 0x01A => z w.tmask
  | 0x01B => z w.patience
  | 0x01C => z (s.aprog wk)
  | 0x01D => z (s.core (coreOf wk)).quantum
  | 0x020 => z th.fflags
  | 0x021 => z th.ften
  | _ => 0

/-- A special or system register read in a source field (R87, R211): the odd number of a 64-bit register names its
bits [63:32]; of the even number a 32-bit source takes bits [31:0]. -/
def State.srRead (s : State) (wk t n : Nat) : DWord :=
  let whole (n : Nat) : DWord := if 0x200 ≤ n then s.sysReg wk n else s.userReg wk t n
  if sr64 (n - 1) && n % 2 = 1 then whole (n - 1) >>> 32 else whole n

/-! ### Windows (R62, R63, R346) -/

def hGen (h : DWord) : BitVec 8 := h.extractLsb' 56 8
def hCore (h : DWord) : Nat := (h.extractLsb' 48 8).toNat
def hBtag (h : DWord) : Nat := (h.extractLsb' 36 12).toNat
def hWarp (h : DWord) : Nat := (h.extractLsb' 31 5).toNat
def hWidx (h : DWord) : Nat := (h.extractLsb' 27 4).toNat
def hScope (h : DWord) : Nat := (h.extractLsb' 25 2).toNat
def hRights (h : DWord) : Bool := h.getLsbD 24
def hValid (h : DWord) : Bool := h.getLsbD 23
/-- A handle; of a system warp, log 66. -/
def handleOf (gen : BitVec 8) (core btag warp w : Nat) (scope : BitVec 2) (rights : Bool) : DWord :=
  gen ++ BitVec.ofNat 8 core ++ BitVec.ofNat 12 btag ++ BitVec.ofNat 5 warp ++ BitVec.ofNat 4 w ++ scope ++ bits1 rights ++ 1#1 ++ 0#23
/-- The exporting warp of a handle, and its descriptor. The handle of a system warp, which is in no block, holds BTAG 0 and WARP 0 and
is looked up as any other: R63 states no such handle. DESIGN CHOICE (log 66). -/
def hWk (h : DWord) : Nat := 32 * bkey (hCore h) (hBtag h) + hWarp h
def State.hDesc (s : State) (h : DWord) : ExpDesc := Fmap.get {} (s.warp (hWk h)).edesc (hWidx h)

/-- The register at an offset of a window's linear view (R62), for an accessor's thread. In thread scope it is that of the exporting
warp's thread of the same number, active at the EXPW or not: R62 states no outcome for the latter. DESIGN CHOICE (log 66). -/
def State.winReg (s : State) (h : DWord) (t o : Nat) : Option Loc :=
  let e := s.hDesc h
  let bk := bkey (hCore h) (hBtag h)
  let nw := (s.launch (s.block bk).lid).nwarp
  match hScope h with
  | 0 => if o < e.len then some (.v (hWk h) t (e.base + o)) else none
  | 1 => if o < 32 * e.len then some (.v (hWk h) (o / e.len) (e.base + o % e.len)) else none
  | 2 => if o < nw * 32 * e.len then some (.v (32 * bk + o / (32 * e.len)) (o / e.len % 32) (e.base + o % e.len)) else none
  | _ => none

/-- The handle may be used on this core by a warp of the launch (R346): valid, of this core, its block live and of the
launch, its generation current. -/
def State.hLive (s : State) (core lid : Nat) (h : DWord) : Bool :=
  let b := s.block (bkey (hCore h) (hBtag h))
  hValid h && hCore h == core && b.present && b.lid == lid && hGen h == (s.hDesc h).gen

/-- `%tdst` values of traps (R340). -/
def tdS (i : Nat) : Word := BitVec.ofNat 32 (2 ^ 31 + i % 65536)
def tdV (i : Nat) : Word := BitVec.ofNat 32 (i % 65536)
def tdW (w : Nat) : Word := BitVec.ofNat 32 (2 ^ 30 + w)
def tdP (p : Nat) : Word := BitVec.ofNat 32 (2 ^ 28 + p)
def tdTile (region i : Nat) : Word := BitVec.ofNat 32 (2 ^ 27 + 2 ^ 25 * region + i)
def tdLoc (l : Loc) : Word := if l.isS then tdS l.idx else tdV l.idx
/-- `%tdst` of a poisoned granule: its first register. -/
def tdGran (l : Loc) : Word := if l.isS then tdS (granOf l.idx * 4) else tdV (granOf l.idx * 4)

end Sys2Proof.Machine

namespace Sys2Proof

open Machine

/-! ### Allocation checks at decode (R91) -/

/-- The count of registers a slice instance has (R281). -/
def allocFor (wk : Nat) (al : Alloc) : Alloc := if isSlice wk then { al with ns := 32 } else al

/-- A direct span past its allocation, as the `%tdst` value of R340. -/
def OpS.rngBad (al : Alloc) (o : OpS) : Option Word :=
  match o.x with
  | .v i => if i.toNat + o.regs > al.nv then some (tdV (max i.toNat al.nv)) else none
  | .s i => if i.toNat + o.regs > al.ns then some (tdS (max i.toNat al.ns)) else none
  | .ind b _ => if b.toNat ≥ al.nv then some (tdV b.toNat) else none
  | .win _ vk => if o.regs ≠ 0 ∧ vk.toNat ≥ al.nv then some (tdV vk.toNat) else none
  | .p i => if i.toNat + o.regs > al.np then some (tdP (max i.toNat al.np)) else none
  | .tile i => if i.toNat ≥ al.na then some (tdTile 0 i.toNat) else none
  | .slot i => if i.toNat ≥ al.nb then some (tdTile 1 i.toNat) else none
  | .shape i => if i.toNat ≥ al.nts then some (tdTile 2 i.toNat) else none
  | _ => none

def optBad (al : Alloc) : Option OpS → Option Word
  | some o => o.rngBad al
  | none => none

/-- The FRAME and UNFRAME range (R140). -/
def frameBad (al : Alloc) (d a : Operand) : Option Word :=
  match d, a with
  | .v i, .imm n =>
    if n.toNat = 0 ∨ n.toNat > 32 then some (tdV i.toNat)
    else if i.toNat + n.toNat > al.nv then some (tdV (max i.toNat al.nv)) else none
  | _, _ => none

def guardBad (al : Alloc) : Guard → Option Word
  | .always => none
  | .pred p _ => if p.toNat ≥ al.np then some (tdP p.toNat) else none

/-- The register-range row of R91: first offending operand in the order D, A, B, guard. -/
def Instr.rngBad (al : Alloc) (i : Instr) : Option Word :=
  match i.sig, i.hdr with
  | some g, some h =>
    optBad al g.d <|>
    (match i with
     | .frame _ d a => frameBad al d a
     | .unframe _ d a => frameBad al d a
     | _ => none) <|>
    optBad al g.a <|> optBad al g.b <|> guardBad al h.guard
  | _, _ => none

/-- Names a system register (R87). -/
def OpS.isSysSr (o : OpS) : Bool :=
  match o.x with
  | .sr n => 0x200 ≤ n.toNat
  | _ => false
def optSys : Option OpS → Bool
  | some o => o.isSysSr
  | none => false

/-- The privilege row of R91 (R87, R89, R179). -/
def Instr.priv (i : Instr) : Bool :=
  match i.sig with
  | some g => g.op / 64 == 0xE || g.op == 0x3C2 || optSys g.d || optSys g.a || optSys g.b ||
      (match i with
       | .cpy _ _ dsp ssp _ _ _ => dsp == .hst || ssp == .hst
       | _ => false)
  | none => false

def optV : Option OpS → Bool
  | some o => o.x.modeBit == 1 || o.x.modeBit == 4 || o.x.modeBit == 8
  | none => false

/-- The subset an access-slice instance may execute (R281). -/
def Instr.sliceOk (i : Instr) : Bool :=
  match i.sig with
  | none => false
  | some g =>
    (g.op / 64 ≤ 1 && !optV g.d && !optV g.a && !optV g.b) ||
    (match i with
     | .mov .. | .movi .. | .bra .. | .exit .. => !optV g.d && !optV g.a && !optV g.b
     | .mov64 _ hnd _ _ => !hnd && !optV g.d && !optV g.a
     | .ld _ _ d _ _ => d.modeBit == 512 && !optV g.a
     | .cpy _ _ dsp ssp d a b => d.modeBit == 2 && a.modeBit == 2 && b.modeBit == 2 &&
         (dsp == .glb || dsp == .acc) && (ssp == .glb || ssp == .acc)
     | .tcopy .. => true
     | _ => false)

/-- A copy of a warp has its status granule in v registers (R179). -/
def Instr.warpOk (i : Instr) : Bool :=
  match i with
  | .cpy _ _ _ _ d _ _ => d.modeBit == 1
  | _ => true

end Sys2Proof

namespace Sys2Proof.Machine

/-- What R91 makes of an instruction in a warp: a trap kind with its `%tdst` value, or none. -/
def State.fate (s : State) (wk : Nat) (i : Instr) : Option (Nat × Word) :=
  if !i.legal || (if isSlice wk then !i.sliceOk else !i.warpOk) then some (kIll, 0)
  else if i.priv && !isSys wk then some (kPriv, 0)
  else match i.rngBad (allocFor wk (s.warp (parent wk)).alloc) with
    | some td => some (kRng, td)
    | none => none

/-! ### Operands of one thread -/

/-- Registers an operand names in a thread, or the trap that names none (R57, R346). -/
inductive Tgt where
  | regs (ls : List Loc)
  | bad (kind : Nat) (td : Word)
  deriving DecidableEq, Repr

/-- Consecutive registers. -/
def locsV (wk t i n : Nat) : List Loc := (List.range n).map (fun k => .v wk t (i + k))
def locsS (wk i n : Nat) : List Loc := (List.range n).map (fun k => .s wk (i + k))

/-- The index registers an operand reads first. -/
def idxLoc (wk t : Nat) : Operand → List Loc
  | .ind b _ => [.v wk t b.toNat]
  | .win _ vk => [.v wk t vk.toNat]
  | _ => []

def State.target (s : State) (wk t : Nat) (o : OpS) (write : Bool) : Tgt :=
  match o.x with
  | .v i => .regs (locsV wk t i.toNat o.regs)
  | .s i => .regs (locsS wk i.toNat o.regs)
  | .ind b off =>
    let x : Int := (s.readLoc (.v wk t b.toNat)).toNat + off.toInt
    let i := x.toNat
    if x < 0 ∨ i + o.regs > (s.warp wk).alloc.nv ∨ i % o.align ≠ 0 then .bad kRng (BitVec.ofInt 16 x).toNat
    else .regs (locsV wk t i o.regs)
  | .win w vk =>
    if o.regs = 0 then .regs [] else
    let h := Fmap.get 0 (s.warp wk).w w.toNat
    let off := (s.readLoc (.v wk t vk.toNat)).toNat
    let ls := (List.range o.regs).filterMap (fun k => s.winReg h t (off + k))
    if !s.hLive (coreOf wk) (s.warp wk).lid h ∨ ls.length ≠ o.regs ∨ (write ∧ !hRights h) ∨
        (o.regs = 2 ∧ (ls.headD (.s 0 0)).idx % 2 = 1) ∨ (o.align = 4 ∧ off % 4 ≠ 0) then .bad kWin (tdW w.toNat)
    else .regs ls
  | _ => .regs []

/-- A register access of a thread of warp wk is ready: by the owner under R59, R68 and R70, through a window by another
warp under R59, R67 and R73. -/
def State.rdOk (s : State) (wk : Nat) (l : Loc) : Bool :=
  if l.wk = wk then s.readable l else s.full l || s.pois l
def State.wrOk (s : State) (wk : Nat) (l : Loc) : Bool :=
  if l.wk = wk then s.writable l else !s.inRange true l && !s.inRange false l

/-- What one operand of a thread comes to. -/
inductive Prep where
  | ok (ls : List Loc)
  | wait
  | trap (kind : Nat) (td : Word)
  deriving DecidableEq, Repr

/-- Queue entries an instruction pops from queue n, counted over A and B. -/
def popsOf (n : Nat) : Option OpS → Nat
  | some o => if o.rd && o.x == .q (BitVec.ofNat 5 n) then 1 else 0
  | none => 0

/-- A predicate, `%fflags` or a handle slot that an operand names is not yet available (R35, R142). -/
def State.opDue (s : State) (wk t : Nat) (o : OpS) : Bool :=
  match o.x with
  | .p i => (List.range (max 1 o.regs)).any (fun k => !s.avail (parent wk) (.pred t (i.toNat + k)))
  | .sr n => n.toNat == 0x20 && !s.avail (parent wk) (.flags t)
  | .win w _ => !s.avail wk (.w w.toNat)
  | _ => false

/-- The index register of an operand is ready; that of TESTF waits under R68 alone (R139). -/
def State.idxOk (s : State) (wk : Nat) (o : OpS) (l : Loc) : Bool :=
  if !o.rd && !o.wr && o.modes == mDst then s.settled l else s.rdOk wk l

/-- Checks an operand without poison: index registers ready, target, registers ready. -/
def State.prepOp (s : State) (wk t : Nat) : Option OpS → Prep
  | none => .ok []
  | some o =>
    let idx := if o.regs = 0 then [] else idxLoc wk t o.x
    if s.opDue wk t o || idx.any (fun l => !s.idxOk wk o l) then .wait
    else match idx.find? (fun l => s.pois l) with
      | some l => .trap kPois (tdGran l)
      | none =>
        match s.target wk t o o.wr with
        | .bad k td => .trap k td
        | .regs ls =>
          if (o.rd && ls.any (fun l => !s.rdOk wk l)) || (o.wr && ls.any (fun l => !s.wrOk wk l)) then .wait
          else .ok ls

/-- A register operand read as a value finds poison (R345). -/
def State.poisIn (s : State) (o : Option OpS) (ls : List Loc) : Option Word :=
  match o with
  | some o => if o.rd then (ls.find? (fun l => s.pois l)).map tdGran else none
  | none => none

/-- All operands of a thread: it enters the lane when none of them waits (R35), and is then checked in the order of R338. -/
inductive Preps where
  | ok (d a b : List Loc)
  | wait
  | trap (kind : Nat) (td : Word)
  deriving DecidableEq, Repr

def Prep.trapOf (k : Nat) : Prep → Option Word
  | .trap j td => if j = k then some td else none
  | _ => none
def Prep.locs : Prep → List Loc
  | .ok ls => ls
  | _ => []

/-- The predicate of a guard is available (R35). -/
def State.guardOk (s : State) (wk t : Nat) : Guard → Bool
  | .always => true
  | .pred p _ => s.avail (parent wk) (.pred t p.toNat)

def State.prep (s : State) (wk t : Nat) (h : Hdr) (g : Sig) : Preps :=
  let d := s.prepOp wk t g.d
  let a := s.prepOp wk t g.a
  let b := s.prepOp wk t g.b
  if !s.guardOk wk t h.guard ∨ d = .wait ∨ a = .wait ∨ b = .wait then .wait else
  match d.trapOf kRng <|> a.trapOf kRng <|> b.trapOf kRng with
  | some td => .trap kRng td
  | none =>
    match d.trapOf kWin <|> a.trapOf kWin <|> b.trapOf kWin with
    | some td => .trap kWin td
    | none =>
      match d.trapOf kPois <|> a.trapOf kPois <|> b.trapOf kPois <|> s.poisIn g.a a.locs <|> s.poisIn g.b b.locs <|> s.poisIn g.d d.locs with
        | some td => .trap kPois td
        | none => .ok d.locs a.locs b.locs

/-- How an immediate is read (R85). -/
inductive ImmK where
  | int | f32 | half | code
  deriving DecidableEq, Repr

def immVal (k : ImmK) (x : BitVec 17) : DWord :=
  match k with
  | .int => x.signExtend 64
  | .f32 => (x ++ 0#15).setWidth 64
  | .half => (x.extractLsb' 0 16 ++ x.extractLsb' 0 16).setWidth 64
  | .code => (x.extractLsb' 0 16).setWidth 64

/-- The value of registers: one word, or a pair, low word first. -/
def State.locsVal (s : State) : List Loc → DWord
  | [l] => (s.readLoc l).setWidth 64
  | l :: h :: _ => s.readPair l h
  | [] => 0

/-- The value of a source operand; `pop` is the queue entry it took. -/
def State.opVal (s : State) (wk t : Nat) (k : ImmK) (o : Option OpS) (ls : List Loc) (pop : Word) : DWord :=
  match o with
  | none => 0
  | some o =>
    match o.x with
    | .imm x => immVal k x
    | .sr n => if o.regs = 1 then (s.srRead wk t n.toNat).lo.setWidth 64 else s.srRead wk t n.toNat
    | .q _ => pop.setWidth 64
    | .p i => if s.predBit wk t i.toNat then 1 else 0
    | _ => s.locsVal ls

/-- All operands are s registers, immediates or special registers of warp scope (R33). -/
def uniOp : Option OpS → Bool
  | none => true
  | some o =>
    match o.x with
    | .s _ => true
    | .imm _ => true
    | .sr n => !srThread n.toNat
    | _ => false
def sigUniform (g : Sig) : Bool := uniOp g.d && uniOp g.a && uniOp g.b

end Sys2Proof.Machine
end

