-- ==== Sys2Proof/Machine/Flags.lean ====
section
/-! DEFINITION. The five FP condition bits (R141, R142), the trap kind they raise (R343), and the comparators that watch
lanes and engines (R323). The integer classes change no flag (R117). -/

namespace Sys2Proof.Machine

/-! ### FP conditions (R141) -/

abbrev fIX : Word := 1
abbrev fUF : Word := 2
abbrev fOF : Word := 4
abbrev fDZ : Word := 8
abbrev fIV : Word := 16

/-- SetFlags (R25, R142): ORs conditions into `%fflags` of a thread. -/
def State.setFlags (s : State) (wk t : Nat) (f : Word) : State :=
  if f = 0 then s else s.modThread wk t (fun r => { r with fflags := r.fflags ||| f })

/-- The FP trap of recorded conditions under `%ften` (R343): the first of IV, DZ, OF, UF, IX both recorded and enabled. -/
def fpKind (f en : Word) : Option Nat :=
  let b := f &&& en
  if b.getLsbD 4 then some 0xA
  else if b.getLsbD 3 then some 0xB
  else if b.getLsbD 2 then some 0xC
  else if b.getLsbD 1 then some 0xD
  else if b.getLsbD 0 then some 0xE
  else none

/-! ### Comparators (R323) -/

/-- Bits of the comparators of a die for which a test of control and match value holds. -/
def Die.matches (d : Die) (f : Word → DWord → Bool) : BitVec 4 :=
  if d.cmp = [] then 0 else
  (List.range 4).foldl (fun m i =>
    let c := Fmap.get {} d.cmp i
    if f c.ctl c.va then m ||| (1#4 <<< i) else m) 0

def accHit (ctl : Word) (rd wr : Bool) : Bool := (rd && ctl.getLsbD 28) || (wr && ctl.getLsbD 29)

/-- Comparators of a core's die that an access before translation hits. -/
def State.watchMem (s : State) (core : Nat) (asid : BitVec 16) (va : DWord) (n : Nat) (rd wr : Bool) : BitVec 4 :=
  (s.die (dieOf core)).matches (fun ctl m =>
    let sz := 2 ^ (4 + (ctl.extractLsb' 24 4).toNat)
    let lo := (m.extractLsb' 0 56).toNat / sz * sz
    ctl.extractLsb' 30 2 == 1 && accHit ctl rd wr && ctl.extractLsb' 0 16 == asid &&
      va.toNat < lo + sz && lo < va.toNat + n)

/-- Comparators that an access to a granule hits; regions are numbered as in R51. -/
def State.watchGran (s : State) (core region g : Nat) (rd wr : Bool) : BitVec 4 :=
  (s.die (dieOf core)).matches (fun ctl m =>
    let sz := 2 ^ (ctl.extractLsb' 24 4).toNat
    ctl.extractLsb' 30 2 == 2 && accHit ctl rd wr && (m.extractLsb' 0 8).toNat == core && (m.extractLsb' 8 2).toNat == region &&
      (m.extractLsb' 10 18).toNat / sz == g / sz)

/-- Comparators that a run beginning at a safe point hits; it is neither read nor write, and ACC = 0b00 alone matches nothing. -/
def State.watchSafe (s : State) (core ord : Nat) : BitVec 4 :=
  (s.die (dieOf core)).matches (fun ctl m => ctl.extractLsb' 30 2 == 3 && ctl.extractLsb' 28 2 != 0 && (m.extractLsb' 0 16).toNat == ord)

/-- Registers of the register space that have an area of their own (R54), by their number within it. -/
inductive Cell where
  | reg (l : Loc)
  | pred (wk p : Nat)
  | handle (wk w : Nat)
  | desc (wk w : Nat)
  | guard (wk : Nat)
  | queue (wk q : Nat)
  | stack (wk i : Nat)
  | conv (bk k : Nat)
  /-- Words of tiles and slots, keyed as in `Block`. -/
  | tile (bk i : Nat)
  | slot (bk i : Nat)
  deriving DecidableEq, Repr

/-- Where area `kind` of a warp or a block has its part g (R54). -/
def State.area (s : State) (wk kind g : Nat) : Nat :=
  Config.areaGranule (coreOf wk) (if isSys wk then 0 else (s.block (bkOf wk)).since) (16 * wk + kind) g

/-- Region and granule of a register (R51, R54): a thread area starts at a multiple of 32 granules; tiles and slots keep the
physical places that they were given when the block became resident. -/
def State.granAt (s : State) : Cell → Nat × Nat
  | .reg (.v wk t i) => (0, 32 * s.area wk 0 0 + (t * (s.warp wk).alloc.nv + i) / 4)
  | .reg (.s wk i) => (0, s.area wk 1 (i / 4))
  | .pred wk p => (0, s.area wk 2 (p / 4))
  | .handle wk w => (0, s.area wk 3 (w / 2))
  | .desc wk w => (0, s.area wk 4 w)
  | .guard wk => (0, s.area wk 5 0)
  | .queue wk q => (0, s.area wk 6 (4 * q))
  | .stack wk i => (0, s.area wk 7 (i / 4))
  | .conv bk k => (0, s.area (32 * bk) 8 k)
  | .tile bk i => (1, 1024 * s.area (32 * bk) 9 (i / 4096) + i % 4096 / 4)
  | .slot bk i => (2, 512 * s.area (32 * bk) 10 (i / 2048) + i % 2048 / 4)

/-- Records the hits of one cycle for the counters and the sequencer (R324). -/
def State.noteHits (s : State) (core wk : Nat) (m : BitVec 4) : State :=
  if m = 0 then s else s.modDie (dieOf core) (fun d => { d with hits := d.hits ++ [(s.clk, wk, m)] })

/-- A thread of warp wk reads and writes registers in one cycle, or an engine lands data for that warp. -/
def State.watchCells (s : State) (wk : Nat) (rd wr : List Cell) : State :=
  let c := coreOf wk
  if (s.die (dieOf c)).cmp = [] then s else
  let at1 (x : Cell) (r w : Bool) : BitVec 4 := s.watchGran c (s.granAt x).1 (s.granAt x).2 r w
  s.noteHits c wk (wr.foldl (fun m x => m ||| at1 x false true) (rd.foldl (fun m x => m ||| at1 x true false) 0))

def State.watchLocs (s : State) (wk : Nat) (rd wr : List Loc) : State := s.watchCells wk (rd.map Cell.reg) (wr.map Cell.reg)

/-- Registers other than those of its value that a lane reads for an operand: index registers, a predicate, a handle, an entry at the
head of a queue, a convergence register, a guard slot. -/
def opCells (wk t : Nat) : Option OpS → List Cell
  | none => []
  | some o => (idxLoc wk t o.x).map Cell.reg ++
    (match o.x with
     | .p i => if o.rd then [.pred (parent wk) i.toNat] else []
     | .win w _ => [.handle wk w.toNat]
     | .q n => if o.rd then [.queue (parent wk) n.toNat] else []
     | .k i => [.conv (bkOf wk) i.toNat]
     | .g _ => [.guard wk]
     | _ => [])

/-- Registers other than those of its value that a lane writes for an operand. -/
def opWrites (wk : Nat) : Option OpS → List Cell
  | none => []
  | some o =>
    match o.x with
    | .p i => if o.wr then [.pred (parent wk) i.toNat] else []
    | .q n => if o.wr then [.queue (parent wk) n.toNat] else []
    | .k i => [.conv (bkOf wk) i.toNat]
    | .g _ => [.guard wk]
    | _ => []

end Sys2Proof.Machine
end

