-- ==== Sys2Proof/Machine/Lane.lean ====
section
/-! DEFINITION. How an instruction passes through a lane (R31 to R36, R91, R338): the checks at decode, the guard, the
threads in ascending order with their readiness and traps, TAKE, FP conditions, and the end of the instruction and of
the run. Every instruction word's meaning is a body given to `laneEach`, `laneOnce` or `laneAll`. -/

namespace Sys2Proof.Machine

/-- What a thread brings to the body of an instruction. -/
structure TC where
  h   : Hdr
  g   : Sig
  /-- Key of the run. -/
  key : Nat
  wk  : Nat
  t   : Nat
  /-- Threads whose guard holds, and members of the run. -/
  act : Word
  mem : Word
  pc  : DWord
  d   : List Loc
  a   : List Loc
  b   : List Loc
  /-- Values of the operands. -/
  dv  : DWord
  av  : DWord
  bv  : DWord
  /-- The operand has been read: its registers are known and hold no poison. -/
  dOk : Bool
  aOk : Bool
  bOk : Bool
  deriving DecidableEq, Repr

/-- A register among these is poisoned. -/
def State.anyPois (s : State) (ls : List Loc) : Bool := ls.any (fun l => s.pois l)

/-- What the body of one thread comes to. -/
inductive TRes where
  | done (s : State)
  /-- Not ready (R35, R36); the state holds what the wait itself leaves. -/
  | wait (s : State)
  /-- A trap that prevents the instruction (R336). -/
  | trap (kind : Nat) (td : Word)
  /-- A trap that follows the instruction (R336). -/
  | after (s : State) (kind : Nat) (td : Word)
  /-- A trap that prevents the instruction, in a state that what came before it has left (R75, R358). -/
  | stop (s : State) (kind : Nat) (td : Word)
  /-- Done, with FP conditions raised (R142). -/
  | fp (s : State) (f : Word)
  /-- Held at the instruction, which passes again when these accesses are performed (R246, R362). -/
  | park (s : State) (aids : List Nat)
  deriving DecidableEq, Repr

/-! ### Guard and ends -/

/-- Threads of the run whose guard holds (R79). -/
def State.guardMask (s : State) (r : Run) (g : Guard) : Word :=
  match g with
  | .always => r.members
  | .pred p neg =>
    let w := Fmap.get 0 (s.warp (parent r.wk)).preds p.toNat
    if neg then r.members &&& ~~~w else r.members &&& w

def lowest (m : Word) : Nat := (maskList m).headD 0

/-- Instructions that end their run (R20, R31, R193, R203, R209, R218). -/
def forcedEnd (i : Instr) : Bool :=
  match i with
  | .bra .. | .brx .. | .call .. | .callx .. | .ret .. | .exit .. | .trap .. | .tret .. | .sysc .. | .setpat .. => true
  | .tlwait .. | .kwait .. | .kick .. | .bar .. | .gbar .. | .sign .. | .rconv .. | .abwait .. | .sleep .. | .yield .. => true
  | .bkpt .. => true
  | _ => i.cls == 0xE

/-- A hold that keeps the thread at its instruction. -/
def Hold.atInstr : Hold → Bool
  | .log _ => true
  | .fetch => true
  | _ => false

def State.modRun (s : State) (key : Nat) (f : Run → Run) : State := s.setRun key ((s.run key).map f)

/-- The run is over. -/
def Run.over (r : Run) : Run := { r with act := none, served := 0, popped := [], iid := 0, word := none, stalled := false, ended := true, ind := none, got := [] }

/-- The run stands at its next instruction. -/
def Run.next (r : Run) (pc : DWord) : Run :=
  { r with pc := pc, count := r.count + 1, act := none, served := 0, popped := [], iid := 0, word := none, stalled := false, ind := none, got := [] }

/-- What an indirect D has written stays write-pending until it is available (R69). -/
def State.pushInd (s : State) (r : Run) : State :=
  match r.ind with
  | none => s
  | some (isS, i, j, due) => s.modWarp r.wk (fun w => { w with ranges := s.rangesNow r.wk ++ [⟨true, isS, i, j + 1 - i, .lane due⟩] })

/-- The instruction passes the lane in `cycles` cycles from now (R31 to R33, R338): members that trapped keep their PC, those in `br`
have had it written, every other advances by 12; the run ends at B, after 24, at an instruction that ends runs, or when a member
trapped, left its table or is held. An access-slice instance goes on until its EXIT (R282). -/
def State.endInstr (s : State) (key : Nat) (i : Instr) (h : Hdr) (br : Word) (cycles : Nat) : State :=
  match s.run key with
  | none => s
  | some r =>
    let ts := maskList r.members
    let s := foldS ts s (fun s t =>
      if (s.thread r.wk t).trap.isSome || br.getLsbD t || (s.thread r.wk t).hold.atInstr then s else s.modThread r.wk t (fun x => { x with pc := x.pc + 12 }))
    let s := (s.passLane key i.cls cycles).pushInd r
    let out := ts.any (fun t => !(s.thread r.wk t).live || (s.thread r.wk t).hold != .none)
    let pc := (s.thread r.wk (lowest r.members)).pc
    let stop := if isSlice r.wk then !(s.thread r.wk 0).live else h.hb || r.count + 1 == Config.maxRun || forcedEnd i || out
    if stop && isSlice r.wk then s.setRun key none
    else s.modRun key (fun r => if stop then r.over else r.next pc)

/-- Raises one trap in several threads. -/
def State.raiseAll (s : State) (wk : Nat) (ts : List Nat) (kind : Nat) (pc : DWord) (td : Word) : State :=
  foldS ts s (fun s t => s.raise wk t kind pc td)

/-! ### Operand queues (R132, R168) -/

/-- The head entry of a queue operand: popped already by this instruction, or filled at the head. The queues of an access-slice
instance are those of its warp (R281). -/
def State.popOp (s : State) (key wk pos : Nat) (o : Option OpS) : Option (Word × State) :=
  match o with
  | some ⟨.q n, _, _, _, true, _⟩ =>
    match s.run key with
    | none => none
    | some r =>
      match r.popped.find? (fun p => p.1 == pos) with
      | some p => some (p.2, s)
      | none =>
        match Fmap.get [] (s.warp (parent wk)).q n.toNat with
        | e :: rest =>
          if e.filled then
            some (e.val, (s.modWarp (parent wk) (fun w => { w with q := Fmap.set [] w.q n.toNat rest })).modRun key
              (fun r => { r with popped := r.popped ++ [(pos, e.val)] }))
          else none
        | [] => none
  | _ => some (0, s)

/-- Both source operands' pops, or neither. -/
def State.pops (s : State) (key wk : Nat) (g : Sig) : Option (Word × Word × State) :=
  match s.popOp key wk 0 g.a with
  | none => none
  | some (x, s) =>
    match s.popOp key wk 1 g.b with
    | none => none
    | some (y, s) => some (x, y, s)

/-! ### One thread -/

/-- The registers that a TAKE reads where the lane names them; those of FUNPACK are an element's, and its body clears them (R160). -/
def takenOf (c : TC) : List Loc := if c.g.op = 0x185 then [] else c.a

/-- Clears F of the granules of the registers that A named in the thread, which a TAKE read (R61). On SHFL and BCAST, where the
value comes from another thread, these are the reading thread's own. DESIGN CHOICE (log 66). -/
def State.takeLocs (s : State) (h : Hdr) (ls : List Loc) : State :=
  if h.take then foldS ls s (fun s l => s.setFull false l) else s

/-- `%tdst` of an FP trap (R340). -/
def tdDest (g : Sig) (d : List Loc) : Word :=
  match g.d with
  | none => 0
  | some o =>
    let pair : Word := if o.regs = 2 && o.x.modeBit ≤ 8 then BitVec.ofNat 32 (2 ^ 29) else 0
    match o.x with
    | .win w _ => tdW w.toNat ||| pair
    | .p i => tdP i.toNat
    | _ => (match d with | l :: _ => tdLoc l | [] => 0) ||| pair

/-- Cycles after a thread's entry in which its result is available (R35 and the entries); a load's is said by its landing. -/
def latOf (g : Sig) : Nat :=
  let two := ((g.d.map OpS.regs).getD 1) == 2
  if g.op = 0x008 ∨ g.op = 0x009 then (if two then 40 else 20)
  else if g.op = 0x111 ∨ g.op = 0x112 then 16
  else if g.op = 0x113 ∨ g.op = 0x114 then 20
  else if g.op = 0x10F ∨ g.op = 0x110 then 24
  else if 0x115 ≤ g.op ∧ g.op ≤ 0x117 then 28
  else if g.op / 64 = 7 ∨ g.op / 64 = 8 then 0
  else 8

/-- What an instruction leaves in its D for later instructions (R35). -/
def resultsOf (c : TC) : List Res × List Res :=
  match c.g.d with
  | none => ([], [])
  | some o =>
    if !o.wr then
      (match o.x with
       | .win w _ => if 0x08A ≤ c.g.op && c.g.op ≤ 0x08C then ([.w w.toNat], []) else ([], [])
       | _ => ([], []))
    else
    ((c.d.filter (fun l => l.wk == c.wk)).map Res.reg,
      match o.x with
      | .p i => (List.range (max 1 o.regs)).map (fun k => .pred c.t (i.toNat + k))
      | .sr _ => [.flags c.t]
      | _ => [])

/-- FP conditions of a thread, or of every active thread for a uniform instruction (R142, R343). -/
def State.fpDone (s : State) (c : TC) (who : List Nat) (f : Word) : State :=
  if c.h.nf then s else
  foldS who (s.soon c.wk (who.map Res.flags) (latOf c.g)) (fun s t =>
    let s := s.setFlags c.wk t f
    match fpKind f (s.thread c.wk t).ften with
    | some k => s.raise c.wk t k c.pc (tdDest c.g c.d)
    | none => s)

/-- A register that an indirect D names is written, and available in `lat` cycles (R69). -/
def State.noteInd (s : State) (key lat : Nat) : List Loc → State
  | [] => s
  | l :: ls =>
    (s.modRun key (fun r => { r with ind := some (match r.ind with
      | none => (l.isS, l.idx, l.idx, s.clk + lat)
      | some (x, i, j, due) => (x, min i l.idx, max j l.idx, max due (s.clk + lat))) })).noteInd key lat ls

def isInd : Option OpS → Bool
  | some ⟨.ind _ _, _, _, _, _, wr⟩ => wr
  | _ => false

/-- The entry that an indirect D of the instruction in hand takes is free, or taken already (R69). -/
def State.indRoom (s : State) (r : Run) (g : Sig) : Bool := !isInd g.d || latOf g == 0 || r.ind.isSome || s.rangeRoom r.wk 1

def guardCells (wk : Nat) : Guard → List Cell
  | .always => []
  | .pred p _ => [.pred (parent wk) p.toNat]

/-- The instruction has used its operands: F bits that TAKE clears, the comparators that watch registers, and the results, which are
available `late` cycles after their latency. -/
def State.noteOps (s : State) (c : TC) (late : Nat := 0) : State :=
  let rds := (if (c.g.a.map OpS.rd).getD false then c.a else []) ++ (if (c.g.b.map OpS.rd).getD false then c.b else []) ++
    (if (c.g.d.map OpS.rd).getD false then c.d else [])
  let s := (s.takeLocs c.h (takenOf c)).watchCells c.wk
    (guardCells c.wk c.h.guard ++ opCells c.wk c.t c.g.a ++ opCells c.wk c.t c.g.b ++ opCells c.wk c.t c.g.d ++ rds.map Cell.reg)
    (opWrites c.wk c.g.d ++ (if (c.g.d.map OpS.wr).getD false then c.d.map Cell.reg else []))
  let lat := if latOf c.g = 0 then 0 else latOf c.g + late
  let s := if isInd c.g.d && lat != 0 then s.noteInd c.key lat c.d else s
  (s.soon c.wk (resultsOf c).1 lat).soon (parent c.wk) (resultsOf c).2 lat

/-- What a body came to, for the threads `who` it acts for: the state, and whether the lane waits. -/
def State.settle (s0 : State) (c : TC) (who : List Nat) (r : TRes) : State × Bool :=
  match r with
  | .done s => (s.noteOps c, false)
  | .wait s => (s, true)
  | .trap k td => (s0.raiseAll c.wk who k c.pc td, false)
  | .after s k td => ((s.noteOps c).raiseAll c.wk who k c.pc td, false)
  | .stop s k td => (s.raiseAll c.wk who k c.pc td, false)
  | .fp s f => ((s.noteOps c).fpDone c who f, false)
  | .park s l => (foldS who s (fun s t => s.modThread c.wk t (fun r => { r with hold := .log l })), false)

/-- The context of a thread whose operands are ready. -/
def State.ctx (s : State) (h : Hdr) (g : Sig) (ka kb : ImmK) (key : Nat) (r : Run) (act : Word) (t : Nat)
    (d a b : List Loc) (x y : Word) : TC :=
  ⟨h, g, key, r.wk, t, act, r.members, r.pc, d, a, b, s.opVal r.wk t .int g.d d 0, s.opVal r.wk t ka g.a a x, s.opVal r.wk t kb g.b b y,
   true, true, true⟩

/-- Traps that an entry finds from the value of one operand, and that R338 ranks before what another operand shows. -/
abbrev Early := TC → State → Option (Nat × Word)
def noEarly : Early := fun _ _ => none

/-- The trap a thread raises where an operand shows `k`: an entry's own trap of a kind that R338 checks earlier comes
first. -/
def State.firstTrap (s : State) (h : Hdr) (g : Sig) (ka kb : ImmK) (key : Nat) (r : Run) (act : Word) (t : Nat)
    (early : Early) (k : Nat) (td : Word) : Nat × Word :=
  let (x, y) := match s.pops key r.wk g with
    | some (x, y, _) => (x, y)
    | none => (0, 0)
  let d := s.prepOp r.wk t g.d
  let a := s.prepOp r.wk t g.a
  let b := s.prepOp r.wk t g.b
  let known (o : Option OpS) (p : Prep) : Bool := match p with
    | .ok ls => (s.poisIn o ls).isNone
    | _ => false
  match early { s.ctx h g ka kb key r act t d.locs a.locs b.locs x y with dOk := known g.d d, aOk := known g.a a, bOk := known g.b b } s with
  | some (k2, td2) => if k2 < k then (k2, td2) else (k, td)
  | none => (k, td)

/-- What earlier threads of an instruction have written to the s registers that D names does not hold up its later threads: R68 binds
later instructions. -/
def State.sameInstr (s : State) (key : Nat) (g : Sig) : State :=
  match s.run key, g.d with
  | some r, some ⟨.s i, _, n, _, _, true⟩ =>
    if r.served = 0 then s else s.modWarp r.wk (fun w => { w with recent := w.recent.filter (fun p => match p.1 with
      | .reg (.s _ j) => !(i.toNat ≤ j && j < i.toNat + n)
      | _ => true) })
  | _, _ => s

/-- One thread's turn, acting for `who`. -/
def State.turn (s : State) (h : Hdr) (g : Sig) (ka kb : ImmK) (key : Nat) (r : Run) (act : Word) (who : List Nat)
    (early : Early) (body : TC → State → TRes) (t : Nat) : State × Bool :=
  match (s.sameInstr key g).prep r.wk t h g, s.pops key r.wk g with
  | .wait, _ => (s, true)
  | _, none => (s, true)
  | .trap k td, some _ =>
    let p := s.firstTrap h g ka kb key r act t early k td
    (s.raiseAll r.wk who p.1 r.pc p.2, false)
  | .ok d a b, some (x, y, s1) =>
    let c := s1.ctx h g ka kb key r act t d a b x y
    match body c s1 with
    | .wait _ => ((match body c s with | .wait s2 => s2 | _ => s), true)
    | res => s.settle c who res

/-- Threads of the run have had the instruction in hand. -/
def State.markServed (s : State) (key : Nat) (m : Word) : State := s.modRun key (fun r => { r with served := r.served ||| m })

/-- A turn that, if it does not wait, counts for the threads `m`. -/
def State.turnFor (s : State) (h : Hdr) (g : Sig) (ka kb : ImmK) (key : Nat) (r : Run) (act m : Word)
    (early : Early) (body : TC → State → TRes) (t : Nat) : State × Bool :=
  match s.turn h g ka kb key r act (maskList m) early body t with
  | (s, true) => (s, true)
  | (s, false) => (s.markServed key m, false)

/-- Threads in ascending order, each `step` cycles after the one before it, but for those served already; the first that waits stalls
the run. -/
def State.serve (s : State) (h : Hdr) (g : Sig) (ka kb : ImmK) (key : Nat) (r : Run) (act : Word)
    (early : Early) (body : TC → State → TRes) (step : Nat) : List Nat → State × Bool
  | [] => (s, false)
  | t :: ts =>
    if ((s.run key).map (fun r => r.served.getLsbD t)).getD true then s.serve h g ka kb key r act early body step ts
    else
      match s.turnFor h g ka kb key r act (bit1 t) early body t with
      | (s1, true) => (s1, true)
      | (s1, false) => (s1.setClk (s.clk + step)).serve h g ka kb key r act early body step ts

/-! ### Whole instructions -/

/-- The run stalls at the instruction in hand. -/
def State.stall (s : State) (key : Nat) : State := s.modRun key (fun r => { r with stalled := true })

/-- Cycles that an instruction of n active threads takes (R33). -/
def cyclesOf (g : Sig) (n : Nat) : Nat := if sigUniform g then 1 else max 1 n

/-- Fetches what every instruction needs: the run in focus, the checks of R91, the guard. A word that fails R91 raises
its trap in every member, whatever the guard. A thread whose acquire is not performed is not ready (R249). -/
def State.enter (s : State) (i : Instr) (f : Run → Sig → Hdr → Word → State → State) : Host.Outcome State Fault Refusal :=
  match s.run s.focus, i.sig, i.hdr with
  | some r, some g, some h =>
    match s.fate r.wk i with
    | some (k, td) => .next ((s.raiseAll r.wk (maskList r.members) k r.pc td).endInstr s.focus i h 0 (cyclesOf g (maskList r.members).length))
    | none =>
      let act := r.act.getD (s.guardMask r h.guard)
      if (maskList act).any (fun t => s.acqDue r.wk t) || !s.indRoom r g then .next (s.stall s.focus)
      else .next (f r g h act (s.modRun s.focus (fun r => { r with act := some act })))
  | _, _, _ => .next s

/-- An instruction that acts for each active thread in turn. A uniform one executes once, with the lowest active thread
(R33), where `uni` says that the entry knows a uniform form; `br` says that its active threads write their own PC. -/
def laneEarly (i : Instr) (uni br : Bool) (ka kb : ImmK) (early : Early) (body : TC → State → TRes) (s : State) :
    Host.Outcome State Fault Refusal :=
  s.enter i (fun r g h act s =>
    let once := uni && sigUniform g && act != 0
    let res := if once then s.turnFor h g ka kb s.focus r act act early body (lowest act)
      else s.serve h g ka kb s.focus r act early body (if sigUniform g then 0 else 1) (maskList (act &&& ~~~r.served))
    let n := if once then 0 else res.1.clk - s.clk
    if res.2 then ((res.1.setClk s.clk).passLane s.focus i.cls n).stall s.focus
    else (res.1.setClk s.clk).endInstr s.focus i h (if br then act else 0) (max 1 n))

/-- An instruction whose traps come from its operands and its body alone. -/
def laneEach (i : Instr) (uni br : Bool) (ka kb : ImmK) (body : TC → State → TRes) (s : State) : Host.Outcome State Fault Refusal :=
  laneEarly i uni br ka kb noEarly body s

/-- An instruction that acts once for the warp with the operands of the lowest active thread; its traps are raised in
every active thread (R338). -/
def laneOnceEarly (i : Instr) (ka kb : ImmK) (early : Early) (body : TC → State → TRes) (s : State) : Host.Outcome State Fault Refusal :=
  s.enter i (fun r g h act s =>
    let res := if act = 0 then (s, false) else s.turnFor h g ka kb s.focus r act act early body (lowest act)
    if res.2 then res.1.stall s.focus else (res.1.setClk s.clk).endInstr s.focus i h 0 (cyclesOf g (maskList act).length))

/-- Such an instruction whose traps come from its operands and its body alone. -/
def laneOnce (i : Instr) (ka kb : ImmK) (body : TC → State → TRes) (s : State) : Host.Outcome State Fault Refusal :=
  laneOnceEarly i ka kb noEarly body s

/-- Threads of such an instruction consume A one after the other where they may name one granule, so that each takes a fill of its own
(R61): what each has read is kept until all have. `true`: a thread waits. -/
def State.takeEach (s : State) (h : Hdr) (g : Sig) (ka kb : ImmK) (key : Nat) (r : Run) (act : Word) : List Nat → State × Bool
  | [] => (s, false)
  | t :: ts =>
    if ((s.run key).map (fun r => r.got.any (fun p => p.1 == t))).getD true then s.takeEach h g ka kb key r act ts
    else match s.prep r.wk t h g with
      | .wait => (s, true)
      | .trap _ _ => s.takeEach h g ka kb key r act ts
      | .ok d a b =>
        let c := s.ctx h g ka kb key r act t d a b 0 0
        ((((s.takeLocs h a).watchLocs r.wk a []).modRun key (fun r => { r with got := r.got ++ [(t, c.av)] }))).takeEach h g ka kb key r act ts

/-- A of such an instruction is consumed thread by thread: a TAKE from s registers or through a window, in a form that is not uniform. -/
def takesEach (h : Hdr) (g : Sig) : Bool :=
  h.take && !sigUniform g && (match g.a with
    | some o => o.rd && (o.x.modeBit == 2 || o.x.modeBit == 8)
    | none => false)

/-- The operands of all active threads at once: none where a thread waits; otherwise the contexts of those that are
ready and the traps of the others. A that a thread has consumed is not looked at again. -/
def State.prepAll (s : State) (h : Hdr) (g : Sig) (ka kb : ImmK) (key : Nat) (r : Run) (act : Word) (x y : Word) :
    List Nat → Option (List TC × List (Nat × Nat × Word))
  | [] => some ([], [])
  | t :: ts =>
    let got := ((s.run key).bind (fun r => r.got.find? (fun p => p.1 == t))).map Prod.snd
    match s.prep r.wk t h (if got.isSome then { g with a := none } else g), s.prepAll h g ka kb key r act x y ts with
    | .wait, _ => none
    | _, none => none
    | .trap k td, some (cs, tr) => some (cs, (t, k, td) :: tr)
    | .ok d a b, some (cs, tr) =>
      let c := s.ctx h g ka kb key r act t d a b x y
      some ({ c with av := got.getD c.av } :: cs, tr)

/-- What the body of all threads together comes to: done, with further traps; or a wait. -/
inductive ARes where
  | done (s : State) (traps : List (Nat × Nat × Word))
  | wait (s : State)
  /-- All its threads are held at the instruction (R246). -/
  | park (s : State) (aids : List Nat)
  deriving DecidableEq, Repr

/-- The threads of an instruction have used their operands, one a cycle where it is not uniform; all results come about when the last
of them has entered the lane (R135). -/
def State.noteAll (s : State) (step : Nat) : List TC → State
  | [] => s
  | c :: cs => ((s.noteOps c (step * cs.length)).setClk (s.clk + step)).noteAll step cs

/-- An instruction whose threads deliver their operands together (the collectives, R135, and CPY, R69); one whose threads all trap pops
nothing (R336). A TAKE on SHFL or BCAST empties the reading thread's granule (`takeLocs`). DESIGN CHOICE (log 66). Threads that have
consumed their A wait in the lane, not at the instruction, for accesses of R246. -/
def laneAll (i : Instr) (ka kb : ImmK) (body : List TC → State → ARes) (s : State) : Host.Outcome State Fault Refusal :=
  s.enter i (fun r g h act s =>
    if act = 0 then s.endInstr s.focus i h 0 1 else
    match s.pops s.focus r.wk g with
    | none => s.stall s.focus
    | some (x, y, s0) =>
      let tk := if takesEach h g then s0.takeEach h g ka kb s.focus r act (maskList act) else (s0, false)
      let s1 := tk.1
      match if tk.2 then none else s1.prepAll h g ka kb s.focus r act x y (maskList act) with
      | none => (if takesEach h g then s1 else s).stall s.focus
      | some (cs, traps) =>
        match body cs s1 with
        | .wait s2 => s2.stall s.focus
        | .park s2 l =>
          if r.got ≠ [] then s1.stall s.focus
          else (foldS (maskList act) (if takesEach h g then s else s2) (fun s t => s.modThread r.wk t (fun x => { x with hold := .log l }))).endInstr s.focus i h 0 1
        | .done s2 tr2 =>
          let none1 := (maskList act).all (fun t => (traps ++ tr2).any (fun p => p.1 == t))
          let s3 := ((if none1 then s else s2).noteAll (if sigUniform g then 0 else 1) (cs.filter (fun c => tr2.all (fun p => p.1 != c.t)))).setClk s.clk
          let s4 := foldS (traps ++ tr2) s3 (fun s p => s.raise r.wk p.1 p.2.1 r.pc p.2.2)
          s4.endInstr s.focus i h 0 (cyclesOf g (maskList act).length))

/-! ### Bodies that write D -/

/-- Writes D as one register or a pair, low word first. -/
def State.writeD1 (s : State) (d : List Loc) (x : Word) : State :=
  match d with
  | l :: _ => s.writeLoc l x
  | [] => s
def State.writeD2 (s : State) (d : List Loc) (x : DWord) : State :=
  match d with
  | [l] => s.writeLoc l x.lo
  | l :: h :: _ => (s.writeLoc l x.lo).writeLoc h x.hi
  | [] => s

/-- An instruction that acts once and writes its result into D of every active thread (R209, R218, R293): none of its
effects comes before every D is ready; a thread whose D traps raises that trap. -/
def onceWrite (f : State → List Word × State) (c : TC) (s : State) : TRes :=
  let ps := (maskList c.act).map (fun t => (t, s.prepOp c.wk t c.g.d))
  if ps.any (fun p => p.2 == .wait) then .wait s
  else
    let r := f s
    let step := if sigUniform c.g then 0 else 1
    .done ((foldS ps r.2 (fun s p => match p.2 with
      | .ok ls =>
        let s := s.writeLocs ls r.1
        ((if p.1 = c.t then s else (if isInd c.g.d then s.noteInd c.key 8 ls else s).watchLocs c.wk [] ls).soon c.wk ((ls.filter (fun l => l.wk == c.wk)).map Res.reg) 8).setClk (s.clk + step)
      | .trap k td => (s.raise c.wk p.1 k c.pc td).setClk (s.clk + step)
      | .wait => s)).setClk s.clk)

/-- The two words of a 64-bit value, low word first. -/
def words2 (x : DWord) : List Word := [x.lo, x.hi]

/-- A body that computes a value and writes it to D. -/
def valBody (f : TC → DWord) (c : TC) (s : State) : TRes := .done (s.writeD2 c.d (f c))

end Sys2Proof.Machine
end

