-- ==== Sys2Proof/Machine/Int.lean ====
section
/-! DEFINITION. Integer arithmetic, class 0x0 (R117 to R123). Every value is exact; D takes it modulo its width. -/

namespace Sys2Proof.Machine

/-- A value read as its type directs (R117). -/
def tyInt (ty : Ty) (x : DWord) : Int :=
  match ty with
  | .s32 => x.lo.toInt
  | .s64 => x.toInt
  | .z64 | .b64 => x.toNat
  | _ => x.lo.toNat

/-- Width of an operand type. -/
def tyBits (ty : Ty) : Nat := 32 * ty.regs

/-- SAT (R117). -/
def satInt (ty : Ty) (x : Int) : Int :=
  if ty = .s32 then max (-2147483648) (min x 2147483647) else max 0 (min x 4294967295)

/-- The result of R121: limited under SAT, then modulo 2^w as D takes it. -/
def intRes (m : Arith) (x : Int) : DWord := BitVec.ofInt 64 (if m.sat then satInt m.ty x else x)

def negA (m : Arith) (x : Int) : Int := if m.nega then -x else x
def negB (m : Arith) (x : Int) : Int := if m.negb then -x else x

/-- Extends a 32-bit value to 64 bits by type (R120). -/
def ext64 (ty : Ty) (x : DWord) : Int := tyInt (if ty = .s32 then .s32 else .z32) x

/-- IDIV and IREM (R122). -/
def divInt (a b : Int) : Int := if b = 0 then -1 else a.tdiv b
def remInt (a b : Int) : Int := if b = 0 then a else a.tmod b

/-- Byte k of a word, by sign under `.s32`. -/
def byteInt (ty : Ty) (x : DWord) (k : Nat) : Int :=
  let y : BitVec 8 := x.extractLsb' (8 * k) 8
  if ty = .s32 then y.toInt else y.toNat
def dot4 (ty : Ty) (x y : DWord) : Int :=
  byteInt ty x 0 * byteInt ty y 0 + byteInt ty x 1 * byteInt ty y 1 + byteInt ty x 2 * byteInt ty y 2 + byteInt ty x 3 * byteInt ty y 3

/-- An integer meaning from its exact result (R121). -/
def intBody (m : Arith) (f : Int → Int → Int → Int) : TC → State → TRes :=
  valBody (fun c => intRes m (f (negA m (tyInt m.ty c.av)) (negB m (tyInt m.ty c.bv)) (tyInt m.ty c.dv)))

/-- The carry add of R123. -/
def iadcVal (a b d : DWord) : DWord :=
  let x := a.lo.toNat + b.lo.toNat + (if d.getLsbD 32 then 1 else 0)
  BitVec.ofNat 64 (x % 4294967296 + 4294967296 * (x / 4294967296))

abbrev Result := Host.Outcome State Fault Refusal

/-- IADD: a + b (R120). -/
def execIadd (h : Hdr) (m : Arith) (d a b : Operand) (s : State) : Result :=
  laneEach (.iadd h m d a b) true false .int .int (intBody m (fun a b _ => a + b)) s

/-- ISUB: a − b (R120). -/
def execIsub (h : Hdr) (m : Arith) (d a b : Operand) (s : State) : Result :=
  laneEach (.isub h m d a b) true false .int .int (intBody m (fun a b _ => a - b)) s

/-- IADC: add with carry through the pair D (R123). -/
def execIadc (h : Hdr) (m : Arith) (d a b : Operand) (s : State) : Result :=
  laneEach (.iadc h m d a b) true false .int .int (valBody (fun c => iadcVal c.av c.bv c.dv)) s

/-- IMUL: a · b (R120). -/
def execImul (h : Hdr) (m : Arith) (d a b : Operand) (s : State) : Result :=
  laneEach (.imul h m d a b) true false .int .int (intBody m (fun a b _ => a * b)) s

/-- IMULH: the upper half of the product (R120). -/
def execImulh (h : Hdr) (m : Arith) (d a b : Operand) (s : State) : Result :=
  laneEach (.imulh h m d a b) true false .int .int (intBody m (fun a b _ => a * b / 2 ^ tyBits m.ty)) s

/-- IMAD: a · b + d (R120). -/
def execImad (h : Hdr) (m : Arith) (d a b : Operand) (s : State) : Result :=
  laneEach (.imad h m d a b) true false .int .int (intBody m (fun a b d => a * b + d)) s

/-- IMADW: d + Ext64(a) · Ext64(b) on the pair D (R120). -/
def execImadw (h : Hdr) (m : Arith) (d a b : Operand) (s : State) : Result :=
  laneEach (.imadw h m d a b) true false .int .int (valBody (fun c => BitVec.ofInt 64 (c.dv.toNat + ext64 m.ty c.av * ext64 m.ty c.bv))) s

/-- IDIV (R122). -/
def execIdiv (h : Hdr) (m : Arith) (d a b : Operand) (s : State) : Result :=
  laneEach (.idiv h m d a b) true false .int .int (intBody m (fun a b _ => divInt a b)) s

/-- IREM (R122). -/
def execIrem (h : Hdr) (m : Arith) (d a b : Operand) (s : State) : Result :=
  laneEach (.irem h m d a b) true false .int .int (intBody m (fun a b _ => remInt a b)) s

/-- IMIN (R120). -/
def execImin (h : Hdr) (m : Arith) (d a b : Operand) (s : State) : Result :=
  laneEach (.imin h m d a b) true false .int .int (intBody m (fun a b _ => min a b)) s

/-- IMAX (R120). -/
def execImax (h : Hdr) (m : Arith) (d a b : Operand) (s : State) : Result :=
  laneEach (.imax h m d a b) true false .int .int (intBody m (fun a b _ => max a b)) s

/-- IABS (R120). -/
def execIabs (h : Hdr) (m : Arith) (d a : Operand) (s : State) : Result :=
  laneEach (.iabs h m d a) true false .int .int (intBody m (fun a _ _ => (a.natAbs : Int))) s

/-- INEG (R120). -/
def execIneg (h : Hdr) (m : Arith) (d a : Operand) (s : State) : Result :=
  laneEach (.ineg h m d a) true false .int .int (intBody m (fun a _ _ => -a)) s

/-- LEA: d + Ext64(a) · 2^(b[5:0]) on the pair D (R120). -/
def execLea (h : Hdr) (m : Arith) (d a b : Operand) (s : State) : Result :=
  laneEach (.lea h m d a b) true false .int .int (valBody (fun c => BitVec.ofInt 64 (c.dv.toNat + ext64 m.ty c.av * 2 ^ (c.bv.toNat % 64)))) s

/-- IDOT4 (R120). -/
def execIdot4 (h : Hdr) (m : Arith) (d a b : Operand) (s : State) : Result :=
  laneEach (.idot4 h m d a b) true false .int .int (valBody (fun c => intRes m (tyInt m.ty c.dv + dot4 m.ty c.av c.bv))) s

/-- ISAD: d + abs(a − b) (R120). -/
def execIsad (h : Hdr) (m : Arith) (d a b : Operand) (s : State) : Result :=
  laneEach (.isad h m d a b) true false .int .int (intBody m (fun a b d => d + ((a - b).natAbs : Int))) s

end Sys2Proof.Machine
end

