-- ==== Sys2Proof/Machine/Logic.lean ====
section
/-! DEFINITION. Logic, shifts and bits, class 0x1 (R124 to R127). -/

namespace Sys2Proof.Machine

/-- A value at the width of its type, and a result of that width as D takes it. -/
def atW (ty : Ty) (x : DWord) : DWord := if ty.regs = 2 then x else x.lo.setWidth 64

def shlVal (ty : Ty) (a : DWord) (n : Nat) : DWord := if tyBits ty ≤ n then 0 else a <<< n
def shrVal (ty : Ty) (a : DWord) (n : Nat) : DWord := if tyBits ty ≤ n then 0 else atW ty a >>> n
def sarVal (ty : Ty) (a : DWord) (n : Nat) : DWord :=
  let n := min n (tyBits ty - 1)
  if ty.regs = 2 then a.sshiftRight n else (a.lo.sshiftRight n).setWidth 64
def rolVal (ty : Ty) (a : DWord) (n : Nat) : DWord :=
  if ty.regs = 2 then a.rotateLeft (n % 64) else (a.lo.rotateLeft (n % 32)).setWidth 64
def fshlVal (d a : DWord) (n : Nat) : DWord := ((d.lo ++ a.lo) <<< (n % 32)) >>> 32

/-- A bit string from a function of its positions. -/
def ofBits (n : Nat) (f : Nat → Bool) : DWord := (List.range n).foldl (fun x j => if f j then x ||| (1#64 <<< j) else x) 0

/-- LOP3 (R125). -/
def lop3Val (x y z : Word) (f : BitVec 8) : DWord :=
  ofBits 32 (fun j => f.getLsbD ((if x.getLsbD j then 1 else 0) + (if y.getLsbD j then 2 else 0) + (if z.getLsbD j then 4 else 0)))

/-- BFE (R126). -/
def bfeVal (ty : Ty) (a : DWord) (pos len : Nat) : DWord :=
  let w := tyBits ty
  let sg := ty = .s32 ∨ ty = .s64
  let l := min len w
  let f : Nat → Bool := fun j => if pos + j < w then a.getLsbD (pos + j) else (sg && a.getLsbD (w - 1))
  if l = 0 then 0 else ofBits 64 (fun j => if j < l then f j else (sg && f (l - 1)))

/-- BFI (R126). -/
def bfiVal (ty : Ty) (d a : DWord) (pos len : Nat) : DWord :=
  ofBits (tyBits ty) (fun i => if pos ≤ i ∧ i < pos + len then a.getLsbD (i - pos) else d.getLsbD i)

def popcVal (ty : Ty) (a : DWord) : DWord := BitVec.ofNat 64 ((List.range (tyBits ty)).filter (fun j => a.getLsbD j)).length
/-- Leading zeros: w less one and less the highest set bit. -/
def clzVal (ty : Ty) (a : DWord) : DWord :=
  BitVec.ofNat 64 ((List.range (tyBits ty)).foldl (fun n j => if a.getLsbD j then tyBits ty - 1 - j else n) (tyBits ty))
def ctzVal (ty : Ty) (a : DWord) : DWord :=
  BitVec.ofNat 64 (((List.range (tyBits ty)).find? (fun j => a.getLsbD j)).getD (tyBits ty))
def brevVal (ty : Ty) (a : DWord) : DWord := ofBits (tyBits ty) (fun j => a.getLsbD (tyBits ty - 1 - j))

/-- One byte of PRMT (R127). -/
def prmtByte (x : DWord) (c : Byte) : Byte :=
  let v : Byte := x.extractLsb' (8 * (c.toNat % 8)) 8
  match (c.toNat / 8) % 4 with
  | 0 => v
  | 1 => 0
  | 2 => if v.getLsbD 7 then 0xFF else 0
  | _ => 0xFF
def prmtVal (a b s : Word) : DWord :=
  let x : DWord := b ++ a
  let c : Nat → Byte := fun j => prmtByte x (s.extractLsb' (8 * j) 8)
  (c 3 ++ c 2 ++ c 1 ++ c 0).setWidth 64

/-- A byte of operand B: position and length of BFE and BFI. -/
def byteAt (b : DWord) (k : Nat) : Nat := b.toNat / 256 ^ k % 256

/-- AND (R124). -/
def execLand (h : Hdr) (m : Arith) (d a b : Operand) (s : State) : Result :=
  laneEach (.land h m d a b) true false .int .int (valBody (fun c => c.av &&& c.bv)) s

/-- OR (R124). -/
def execLor (h : Hdr) (m : Arith) (d a b : Operand) (s : State) : Result :=
  laneEach (.lor h m d a b) true false .int .int (valBody (fun c => c.av ||| c.bv)) s

/-- XOR (R124). -/
def execLxor (h : Hdr) (m : Arith) (d a b : Operand) (s : State) : Result :=
  laneEach (.lxor h m d a b) true false .int .int (valBody (fun c => c.av ^^^ c.bv)) s

/-- ANDN (R124). -/
def execAndn (h : Hdr) (m : Arith) (d a b : Operand) (s : State) : Result :=
  laneEach (.andn h m d a b) true false .int .int (valBody (fun c => c.av &&& ~~~c.bv)) s

/-- NOT (R124). -/
def execLnot (h : Hdr) (m : Arith) (d a : Operand) (s : State) : Result :=
  laneEach (.lnot h m d a) true false .int .int (valBody (fun c => ~~~c.av)) s

/-- LOP3: the pair A gives x and y, the old D gives z (R125). -/
def execLop3 (h : Hdr) (m : Arith) (d a b : Operand) (s : State) : Result :=
  laneEach (.lop3 h m d a b) true false .int .int (valBody (fun c => lop3Val c.av.lo c.av.hi c.dv.lo (b.payload.setWidth 8))) s

/-- SHL (R124). -/
def execShl (h : Hdr) (m : Arith) (d a b : Operand) (s : State) : Result :=
  laneEach (.shl h m d a b) true false .int .int (valBody (fun c => shlVal m.ty c.av c.bv.lo.toNat)) s

/-- SHR (R124). -/
def execShr (h : Hdr) (m : Arith) (d a b : Operand) (s : State) : Result :=
  laneEach (.shr h m d a b) true false .int .int (valBody (fun c => shrVal m.ty c.av c.bv.lo.toNat)) s

/-- SAR (R124). -/
def execSar (h : Hdr) (m : Arith) (d a b : Operand) (s : State) : Result :=
  laneEach (.sar h m d a b) true false .int .int (valBody (fun c => sarVal m.ty c.av c.bv.lo.toNat)) s

/-- ROL (R124). -/
def execRol (h : Hdr) (m : Arith) (d a b : Operand) (s : State) : Result :=
  laneEach (.rol h m d a b) true false .int .int (valBody (fun c => rolVal m.ty c.av c.bv.lo.toNat)) s

/-- FSHL (R124). -/
def execFshl (h : Hdr) (m : Arith) (d a b : Operand) (s : State) : Result :=
  laneEach (.fshl h m d a b) true false .int .int (valBody (fun c => fshlVal c.dv c.av c.bv.lo.toNat)) s

/-- BFE (R126). -/
def execBfe (h : Hdr) (m : Arith) (d a b : Operand) (s : State) : Result :=
  laneEach (.bfe h m d a b) true false .int .int (valBody (fun c => bfeVal m.ty c.av (byteAt c.bv 0) (byteAt c.bv 1))) s

/-- BFI (R126). -/
def execBfi (h : Hdr) (m : Arith) (d a b : Operand) (s : State) : Result :=
  laneEach (.bfi h m d a b) true false .int .int (valBody (fun c => bfiVal m.ty c.dv c.av (byteAt c.bv 0) (byteAt c.bv 1))) s

/-- POPC (R124). -/
def execPopc (h : Hdr) (m : Arith) (d a : Operand) (s : State) : Result :=
  laneEach (.popc h m d a) true false .int .int (valBody (fun c => popcVal m.ty c.av)) s

/-- CLZ (R124). -/
def execClz (h : Hdr) (m : Arith) (d a : Operand) (s : State) : Result :=
  laneEach (.clz h m d a) true false .int .int (valBody (fun c => clzVal m.ty c.av)) s

/-- CTZ (R124). -/
def execCtz (h : Hdr) (m : Arith) (d a : Operand) (s : State) : Result :=
  laneEach (.ctz h m d a) true false .int .int (valBody (fun c => ctzVal m.ty c.av)) s

/-- BREV (R124). -/
def execBrev (h : Hdr) (m : Arith) (d a : Operand) (s : State) : Result :=
  laneEach (.brev h m d a) true false .int .int (valBody (fun c => brevVal m.ty c.av)) s

/-- PRMT (R127). -/
def execPrmt (h : Hdr) (m : Arith) (d a b : Operand) (s : State) : Result :=
  laneEach (.prmt h m d a b) true false .int .int (valBody (fun c => prmtVal c.av.lo c.bv.lo c.dv.lo)) s

end Sys2Proof.Machine
end

