-- ==== Sys2Proof/Machine/Stack.lean ====
section
/-! DEFINITION. The per-thread stack (R75), its window and the spills and fills that move it (R76, R358). -/

namespace Sys2Proof.Machine

/-- Home address of row e of a warp (R75). -/
def rowVA (w : Warp) (e : Nat) : DWord := w.stkbase + BitVec.ofNat 64 (128 * e)

/-- The 128 bytes of a row in the window. -/
def rowBytes (w : Warp) (e : Nat) : List Byte :=
  (List.range 32).flatMap (fun t => leBytes 4 (Fmap.get 0 w.stk (32 * (e % w.alloc.win) + t)).toNat)

/-- A failing access of a spill or a fill: its cause, the walk level, its VA, and whether it is a spill. -/
abbrev RowErr := Nat × Nat × DWord × Bool

/-- The cause by which a row waits: no way to its home is open now (R307, R393). -/
abbrev cAWAY : Nat := 0

/-- Pages for the pieces of a row. -/
def State.rowXl (s : State) (wk : Nat) (p : Perm) : List (DWord × Nat) → Except (Nat × Nat × DWord) (List (Xl × Nat)) × State
  | [] => (.ok [], s)
  | q :: qs =>
    if !s.walkReach (coreOf wk) none (s.warp wk).asid q.1 then (.error (cAWAY, 0, q.1), s) else
    match s.xlate (coreOf wk) none (s.warp wk).asid q.1 p with
    | (.error (c, l), s) => (.error (c, l, q.1), s)
    | (.ok x, s) =>
      if !s.spanReach (dieOf (coreOf wk)) x.swz x.pa q.2 then (.error (cAWAY, 0, q.1), s) else
      match s.rowXl wk p qs with
      | (.ok xs, s) => (.ok ((x, q.2) :: xs), s)
      | (.error e, s) => (.error e, s)

/-- The granules of a row in the window, and the place of a piece's bytes in the row. -/
def rowGrans (w : Warp) (e : Nat) : List Nat := (List.range 8).map (fun k => 8 * (e % w.alloc.win) + k)
def rowCells (wk : Nat) (w : Warp) (e : Nat) : List Cell := (rowGrans w e).map (fun g => .stack wk (4 * g))

/-- Writes bytes to pieces one after another, the first of them in memory order. -/
def State.putPieces (s : State) : List (Xl × Nat) → List Byte → State
  | [], _ => s
  | (x, n) :: xs, l => ((s.countLines x n true).writeMem x.swz x.pa (l.take n)).putPieces xs (l.drop n)

/-- Writes a row to its home. A poisoned granule of the row fails it, as an engine's read does (R345; log 67). -/
def State.spillRow (s : State) (wk e : Nat) : Except RowErr State :=
  let w := s.warp wk
  let va := rowVA w e
  match s.rowXl wk .wr (pieces va 128 2) with
  | (.error (c, l, v), _) => .error (c, l, v, true)
  | (.ok xs, s) =>
    if (rowGrans w e).any (fun g => Fmap.get false w.stkPois g) then .error (cUNCORR, 0, va, true) else
    let s := s.noteHits (coreOf wk) wk (s.watchMem (coreOf wk) w.asid va 128 false true)
    .ok (s.putPieces xs (rowBytes w e))

/-- Reads a row from its home. -/
def State.fillRow (s : State) (wk e : Nat) : Except RowErr State :=
  let w := s.warp wk
  let va := rowVA w e
  match s.rowXl wk .rd (pieces va 128 2) with
  | (.error (c, l, v), _) => .error (c, l, v, false)
  | (.ok xs, s) =>
    if xs.any (fun x => s.badAt x.1.swz x.1.pa x.2) then .error (cUNCORR, 0, va, false) else
    let l := xs.flatMap (fun x => s.readMem x.1.swz x.1.pa x.2)
    let s := foldS xs s (fun s x => s.countLines x.1 x.2 false)
    let s := s.noteHits (coreOf wk) wk (s.watchMem (coreOf wk) w.asid va 128 true false)
    .ok ((s.watchCells wk [] (rowCells wk w e)).modWarp wk (fun w => { w with
      stk := (List.range 32).foldl (fun m t => Fmap.set 0 m (32 * (e % w.alloc.win) + t) (BitVec.ofNat 32 (leNat ((l.drop (4 * t)).take 4)))) w.stk,
      stkEmpty := (rowGrans w e).foldl (fun m g => Fmap.set false m g false) w.stkEmpty,
      stkPois := (rowGrans w e).foldl (fun m g => Fmap.set false m g false) w.stkPois }))

/-- Row e holds a live entry. -/
def State.stkLive (s : State) (wk e : Nat) : Bool := (List.range 32).any (fun t => (s.thread wk t).live && e < (s.thread wk t).sdepth)

/-- Rows one after another, until one fails. -/
def State.rowsGo (f : State → Nat → Except RowErr State) : List Nat → State → Except RowErr State
  | [], s => .ok s
  | r :: rs, s =>
    match f s r with
    | .ok s1 => State.rowsGo f rs s1
    | .error x => .error x

def State.spillRows (s : State) (wk : Nat) (rows : List Nat) : Except RowErr State := State.rowsGo (fun s r => s.spillRow wk r) rows s
def State.fillRows (s : State) (wk : Nat) (rows : List Nat) : Except RowErr State := State.rowsGo (fun s r => s.fillRow wk r) rows s

/-- Moves the window so that row e is resident (R76): upward, rows from `lo` are spilled, and a row above them that holds a
deeper thread's live entry is filled (DEDUCED, log 16: entries keep their values, R75); downward, rows at the top that hold live
entries are spilled and the rows needed are filled. -/
def State.stackMove (s : State) (wk e : Nat) : Except RowErr State :=
  let w := s.warp wk
  let n := w.alloc.win
  let lo := w.stkLo
  if lo ≤ e ∧ e < lo + n then .ok s
  else if lo + n ≤ e then
    let k := min n (e - n + 1 - lo)
    match s.spillRows wk ((List.range k).map (fun j => lo + j)) with
    | .error x => .error x
    | .ok s1 =>
      match s1.fillRows wk (((List.range k).map (fun j => e - j)).filter (fun r => s.stkLive wk r)) with
      | .error x => .error x
      | .ok s2 => .ok (s2.modWarp wk (fun w => { w with stkLo := e + 1 - n }))
  else
    let k := min n (lo - e)
    match s.spillRows wk (((List.range k).map (fun j => lo + n - k + j)).filter (fun r => s.stkLive wk r)) with
    | .error x => .error x
    | .ok s1 =>
      match s1.fillRows wk ((List.range k).map (fun j => e + j)) with
      | .error x => .error x
      | .ok s2 => .ok (s2.modWarp wk (fun w => { w with stkLo := e }))

/-- A resolvable fault sets out for the die's fault buffer (R360): one request for an instruction and a page, whichever of its lanes
met it. -/
def State.addReq (s : State) (core iid : Nat) (asid : BitVec 16) (va : DWord) (acc : BitVec 2) (level : Nat) (eng : Bool) : State :=
  let vpn := va.toNat % 2 ^ 56 / 65536
  if !eng && ((s.die (dieOf core)).freqs.any (fun q => q.iid == iid && q.e.asid == asid && q.e.vpn == vpn) ||
      s.accList.any (fun p => p.2.st == .parked && p.2.iid == iid && p.2.asid == asid && p.2.va.toNat / 65536 == vpn)) then s else
  s.modDie (dieOf core) (fun d => { d with freqs := d.freqs ++ [⟨iid, core, ⟨asid, vpn, 1, core, acc, BitVec.ofNat 2 level, eng⟩⟩] })

/-- STACK_SPILL_FILL (R76, R358): the move that a waiting push or pop needs. A page that is not present stops it and is
presented as an engine request; any other cause leaves the window as it is and goes to the instruction. -/
def State.spillFill (s : State) (wk : Nat) : State :=
  let w := s.warp wk
  match w.stkNeed with
  | none => s
  | some e =>
    if w.stkStop then s else
    match s.stackMove wk e with
    | .ok s => s.modWarp wk (fun w => { w with stkNeed := none, stkTag := none })
    | .error (c, l, va, sp) =>
      if c = cAWAY then s else
      let s := s.countWalk w.asid va
      if c = cNOTPRES then
        ((s.modWarp wk (fun w => { w with stkStop := true, stkTag := w.stkTag <|> some s.dev.qcnt })).addReq (coreOf wk) s.nextId
          w.asid va (if sp then 1 else 0) l true).bumpId
      else s.modWarp wk (fun w => { w with stkFail := some (va, c, sp), stkTag := none })

/-- A resident row's entry of a thread. -/
def State.stkGet (s : State) (wk t e : Nat) : Word := Fmap.get 0 (s.warp wk).stk (32 * (e % (s.warp wk).alloc.win) + t)
/-- Poison of the granule that holds it. -/
def State.stkBad (s : State) (wk t e : Nat) : Bool := Fmap.get false (s.warp wk).stkPois ((32 * (e % (s.warp wk).alloc.win) + t) / 4)
/-- F of that granule. -/
def State.stkFull (s : State) (wk t e : Nat) : Bool := !Fmap.get false (s.warp wk).stkEmpty ((32 * (e % (s.warp wk).alloc.win) + t) / 4)
/-- A push into a row: a granule that was poisoned reads as 0 but for what is written (R345). -/
def State.stkPut (s : State) (wk t e : Nat) (x : Word) : State :=
  s.modWarp wk (fun w =>
    let i := 32 * (e % w.alloc.win) + t
    if Fmap.get false w.stkPois (i / 4) then { w with stk := Fmap.set 0 (zeroGran w.stk i) i x, stkPois := Fmap.set false w.stkPois (i / 4) false }
    else { w with stk := Fmap.set 0 w.stk i x })
def State.stkHas (s : State) (wk e : Nat) : Bool := (s.warp wk).stkLo ≤ e && e < (s.warp wk).stkLo + (s.warp wk).alloc.win

/-- Steps of one push or pop: all entries are moved, a row must come, an empty granule waits (R59), or a poisoned one is read. -/
inductive SRes where
  | all (s : State)
  | need (s : State) (row : Nat)
  | empty (s : State)
  | pois (s : State)
  deriving DecidableEq, Repr

/-- Pushes the words from entry `e`; those already moved are counted in `sbuf`. -/
def State.pushGo (s : State) (wk t e : Nat) : List Word → SRes
  | [] => .all s
  | x :: xs => if s.stkHas wk e then ((s.stkPut wk t e x).modThread wk t (fun r => { r with sbuf := r.sbuf ++ [x] })).pushGo wk t (e + 1) xs
    else .need s e

/-- Pops n entries below `e`, gathering them in `sbuf`. -/
def State.popGo (s : State) (wk t e : Nat) : Nat → SRes
  | 0 => .all s
  | n + 1 =>
    if !s.stkHas wk (e - 1) then .need s (e - 1)
    else if s.stkBad wk t (e - 1) then .pois s
    else if !s.stkFull wk t (e - 1) then .empty s
    else (s.modThread wk t (fun r => { r with sbuf := r.sbuf ++ [s.stkGet wk t (e - 1)] })).popGo wk t (e - 1) n

/-- What a stack instruction comes to: its rows are in place, it waits for one, or it traps. -/
inductive StkRes where
  | ok (s : State) (ws : List Word)
  | wait (s : State)
  | trap (s : State) (kind : Nat) (td : Word)
  deriving DecidableEq, Repr

/-- `%tdst` of a stack trap (R340). -/
def State.tdStk (s : State) (wk t : Nat) : Word := BitVec.ofNat 32 ((s.thread wk t).sdepth % 65536)

/-- A failed spill or fill raises `stk` in every thread of the instruction whose push or pop needed it and writes one record
(R358); `rows` are the rows that a thread's push or pop reaches, in order. -/
def State.stkFailed (s : State) (c : TC) (va : DWord) (cause : Nat) (spill : Bool) (rows : Nat → List Nat) : State :=
  let need (t : Nat) : Bool :=
    match (rows t).find? (fun e => !s.stkHas c.wk e) with
    | some e => (match s.stackMove c.wk e with
      | .error (k, _, v, _) => k == cause && v == va
      | .ok _ => false)
    | none => false
  let r := ((s.run c.key).map (fun r => r.served)).getD 0
  let us := (maskList (c.act &&& ~~~r)).filter (fun t => t == c.t || need t)
  let s := s.modWarp c.wk (fun w => { w with stkFail := none, stkNeed := none })
  let s := s.modThread c.wk c.t (fun r => { r with sbuf := [] })
  let s := s.record c.wk (maskOf us) c.pc 0 0 0 0 0 4 (detail4 va cause (if spill then 1 else 0) 4)
  let s := foldS (us.filter (fun t => t != c.t)) s (fun s t => s.raise c.wk t kStk c.pc (s.tdStk c.wk t))
  s.modRun c.key (fun r => { r with served := r.served ||| maskOf (us.filter (fun t => t != c.t)) })

/-- Turns a step that needs a row into a wait for STACK_SPILL_FILL, or into the trap of its failure. A poisoned granule of the window
raises `pois`; no `%tdst` value of R340 names it, and it is 0 (log 67). -/
def State.stkWait (c : TC) (rows : Nat → List Nat) : SRes → StkRes
  | .all s => .ok s (s.thread c.wk c.t).sbuf
  | .empty s => .wait s
  | .pois s => .trap (s.modThread c.wk c.t (fun r => { r with sbuf := [] })) kPois 0
  | .need s row =>
    match (s.warp c.wk).stkFail with
    | some (va, cause, sp) => .trap (s.stkFailed c va cause sp rows) kStk (s.tdStk c.wk c.t)
    | none => .wait (s.modWarp c.wk (fun w => { w with stkNeed := some row }))

/-- StackPush of several words (R75): all of them, or a wait, or `stk`. -/
def State.stackPush (s : State) (c : TC) (xs : List Word) : StkRes :=
  let th := s.thread c.wk c.t
  let n := xs.length
  let lim := (s.warp c.wk).stklim.toNat
  if 128 * (th.sdepth + n) > lim then .trap s kStk (s.tdStk c.wk c.t)
  else match State.stkWait c (fun t => let d := (s.thread c.wk t).sdepth; if 128 * (d + n) > lim then [] else (List.range n).map (fun k => d + k))
      (s.pushGo c.wk c.t (th.sdepth + th.sbuf.length) (xs.drop th.sbuf.length)) with
    | .ok s ws => .ok ((s.modThread c.wk c.t (fun r => { r with sdepth := r.sdepth + n, sbuf := [] })).watchCells c.wk []
        ((List.range n).map (fun k => .stack c.wk (32 * ((th.sdepth + k) % (s.warp c.wk).alloc.win) + c.t)))) ws
    | r => r

/-- StackPop of n entries (R75), the top one first. -/
def State.stackPop (s : State) (c : TC) (n : Nat) : StkRes :=
  let th := s.thread c.wk c.t
  if th.sdepth < n then .trap s kStk (s.tdStk c.wk c.t)
  else match State.stkWait c (fun t => let d := (s.thread c.wk t).sdepth; if d < n then [] else (List.range n).map (fun k => d - 1 - k))
      (s.popGo c.wk c.t (th.sdepth - th.sbuf.length) (n - th.sbuf.length)) with
    | .ok s ws => .ok ((s.modThread c.wk c.t (fun r => { r with sdepth := r.sdepth - n, sbuf := [] })).watchCells c.wk
        ((List.range n).map (fun k => .stack c.wk (32 * ((th.sdepth - 1 - k) % (s.warp c.wk).alloc.win) + c.t))) []) ws
    | r => r

/-- A body over a stack result. -/
def stkBody (_c : TC) (r : StkRes) (f : State → List Word → State) : TRes :=
  match r with
  | .ok s ws => .done (f s ws)
  | .wait s => .wait s
  | .trap s k td => .stop s k td

end Sys2Proof.Machine
end

