-- ==== Sys2Proof/Machine/Move.lean ====
section
/-! DEFINITION. Moves, indexed access, warp collectives, windows, F bits and frames, class 0x2 (R130 to R140). -/

namespace Sys2Proof.Machine

/-! ### MOV, MOVI, MOV64 (R131, R132) -/

/-- Entries a queue holds, reserved ones included (R132, R168). -/
def State.queueLen (s : State) (wk n : Nat) : Nat := (Fmap.get [] (s.warp wk).q n).length
def State.pushQ (s : State) (wk n : Nat) (e : QEntry) : State :=
  s.modWarp wk (fun w => { w with q := Fmap.set [] w.q n (Fmap.get [] w.q n ++ [e]) })

/-- MOV: to registers; to `%fflags` and `%ften`, whose bits [31:5] are ignored (R141); or one entry into a queue of the
warp for the instruction as a whole (R132). An access-slice instance, to which R281 gives no `%fflags` and `%ften`, writes those that
it reads, of thread 0 of its warp. DESIGN CHOICE (log 66). -/
def execMov (h : Hdr) (d a : Operand) (s : State) : Result :=
  match d with
  | .q n => laneOnce (.mov h d a) .int .int (fun c s =>
      if s.queueLen (parent c.wk) n.toNat ≥ 16 then .wait s
      else .done (s.pushQ (parent c.wk) n.toNat ⟨true, c.av.lo, 0⟩)) s
  | .sr n => laneEach (.mov h d a) true false .int .int (fun c s =>
      .done (s.modThread (parent c.wk) c.t (fun r => if n.toNat = 0x20 then { r with fflags := c.av.lo &&& 31 } else { r with ften := c.av.lo &&& 31 }))) s
  | _ => laneEach (.mov h d a) true false .int .int (valBody (fun c => c.av)) s

/-- MOVI: a 32-bit constant (R131). -/
def execMovi (h : Hdr) (d : Operand) (k : Word) (s : State) : Result :=
  laneEach (.movi h d k) true false .int .int (valBody (fun _ => k.setWidth 64)) s

/-- The number an operand names: register, slot, tile or k, g, q, p. -/
def opNum : Operand → Nat
  | .v i => i.toNat
  | .s i => i.toNat
  | .p i => i.toNat
  | .k i => i.toNat
  | .g i => i.toNat
  | .q i => i.toNat
  | .tile i => i.toNat
  | .slot i => i.toNat
  | .shape i => i.toNat
  | _ => 0

/-- The w slot a field names. -/
def slotOf : Operand → Nat
  | .win w _ => w.toNat
  | _ => 0

/-- MOV64: a pair, or with HND the 64 bits of a handle slot (R131). -/
def execMov64 (h : Hdr) (hnd : Bool) (d a : Operand) (s : State) : Result :=
  laneEach (.mov64 h hnd d a) true false .int .int
    (fun c s => .done (s.writeD2 c.d (if hnd then Fmap.get 0 (s.warp c.wk).w (slotOf a) else c.av))) s

/-! ### MOVX and STX (R133) -/

/-- The register number of MOVX and STX, if it is below its allocation. -/
def State.movxLoc (s : State) (sp : Bool) (c : TC) : Except Word Loc :=
  let i := (c.av.lo + c.bv.lo).toNat
  let al := (s.warp c.wk).alloc
  if sp then (if i < al.ns then .ok (.s c.wk i) else .error (tdS i)) else (if i < al.nv then .ok (.v c.wk c.t i) else .error (tdV i))

/-- A number out of range is found before what D shows (R338). -/
def movxBad (sp : Bool) (c : TC) (s : State) : Option (Nat × Word) :=
  if !(c.aOk && c.bOk) then none else match s.movxLoc sp c with
    | .error td => some (kRng, td)
    | .ok _ => none

/-- MOVX: an indirect read. With SP = 0 it reads a v register, so only the s form can be uniform (R33). -/
def execMovx (h : Hdr) (sp : Bool) (d a b : Operand) (s : State) : Result :=
  laneEarly (.movx h sp d a b) sp false .int .int (movxBad sp) (fun c s =>
    match s.movxLoc sp c with
    | .error td => .trap kRng td
    | .ok l =>
      if !s.readable l then .wait s
      else if s.pois l then .trap kPois (tdGran l)
      else .done ((s.writeD1 c.d (s.readLoc l)).watchLocs c.wk [l] [])) s

/-- STX: an indirect write, which takes a range entry (R69). -/
def execStx (h : Hdr) (sp : Bool) (d a b : Operand) (s : State) : Result :=
  laneEarly (.stx h sp d a b) sp false .int .int (movxBad sp) (fun c s =>
    match s.movxLoc sp c with
    | .error td => .trap kRng td
    | .ok l =>
      if !s.writable l || !(((s.run c.key).bind (fun r => r.ind)).isSome || s.rangeRoom c.wk 1) then .wait s
      else .done (((s.writeLoc l c.dv.lo).watchLocs c.wk [] [l]).noteInd c.key 8 [l])) s

/-! ### Warp collectives (R134, R135) -/

/-- Source thread of SHFL. -/
def shflSrc (mode : ShflMode) (t : Nat) (b : DWord) : Nat :=
  match mode with
  | .idx => b.toNat % 32
  | .seg =>
    let g := min 5 (b.toNat / 32 % 8)
    t / 2 ^ g * 2 ^ g + (t + b.toNat % 32) % 2 ^ g
  | .xor => t ^^^ (b.toNat % 32)
  | .ext =>
    let u : Int := t + (b.extractLsb' 0 6).toInt
    if u < 0 ∨ 31 < u then t else u.toNat

/-- Reads a v register of another thread for each thread: all values before any write, a wait where one is not
available, `pois` in the threads that read a poisoned one. Of a thread that has left the table it reads what the register held at its
EXIT (R134). -/
def State.gather (s : State) (src : TC → Nat) (i : Nat) (cs : List TC) : ARes :=
  let l : TC → Loc := fun c => .v c.wk (src c) i
  let gone (c : TC) : Bool := !(s.thread c.wk (src c)).live
  let bad (c : TC) : Bool := if gone c then Fmap.get false (s.thread c.wk (src c)).exitPois (granOf i) else s.pois (l c)
  let val (c : TC) : Word := if gone c then Fmap.get 0 (s.thread c.wk (src c)).exitV i else s.readLoc (l c)
  if cs.any (fun c => !gone c && !s.readable (l c)) then .wait s
  else
    .done (foldS ((cs.filter (fun c => !bad c)).map (fun c => (c, val c))) s (fun s p => s.writeD1 p.1.d p.2))
      ((cs.filter bad).map (fun c => (c.t, kPois, tdGran (l c))))

def vIdx : Operand → Nat
  | .v i => i.toNat
  | _ => 0

/-- SHFL. -/
def execShfl (h : Hdr) (mode : ShflMode) (d a b : Operand) (s : State) : Result :=
  laneAll (.shfl h mode d a b) .int .int (fun cs s => s.gather (fun c => shflSrc mode c.t c.bv) (vIdx a) cs) s

/-- BCAST. -/
def execBcast (h : Hdr) (d a b : Operand) (s : State) : Result :=
  laneAll (.bcast h d a b) .int .int (fun cs s => s.gather (fun c => c.bv.toNat % 32) (vIdx a) cs) s

/-- Threads of a list whose predicate operand is 1. -/
def votes (cs : List TC) : List Nat := (cs.filter (fun c => c.av != 0)).map (fun c => c.t)

/-- Result of VOTE over the active threads. -/
def voteVal (kind : VoteKind) (cs : List TC) : Word :=
  let y := votes cs
  let b : Bool → Word := fun x => if x then 1 else 0
  match kind with
  | .mask => maskOf y
  | .count => BitVec.ofNat 32 y.length
  | .first => BitVec.ofNat 32 (y.headD 32)
  | .testAll => b (y.length == cs.length)
  | .testAny => b (!y.isEmpty)
  | .testSame => b (y.isEmpty || y.length == cs.length)
  | .testNone => b y.isEmpty

/-- VOTE: a value in D of every active thread, or a truth value in each active thread's bit of predicate D. -/
def execVote (h : Hdr) (kind : VoteKind) (d a : Operand) (s : State) : Result :=
  laneAll (.vote h kind d a) .int .int (fun cs s =>
    let x := voteVal kind cs
    .done (foldS cs s (fun s c =>
      match d with
      | .p i => s.setPred c.wk c.t i.toNat (x != 0)
      | _ => s.writeD1 c.d x)) []) s

/-- One combination of REDUX. -/
def redOp (ty : Ty) (oper : RedOper) (x y : Word) : Word :=
  let i : Word → DWord := fun z => z.setWidth 64
  match oper with
  | .add => x + y
  | .min => if tyInt ty (i x) ≤ tyInt ty (i y) then x else y
  | .max => if tyInt ty (i x) ≤ tyInt ty (i y) then y else x
  | .and => x &&& y
  | .or => x ||| y
  | .xor => x ^^^ y

/-- REDUX over the active threads in ascending order. -/
def execRedux (h : Hdr) (ty : Ty) (oper : RedOper) (d a : Operand) (s : State) : Result :=
  laneAll (.redux h ty oper d a) .int .int (fun cs s =>
    match cs.map (fun c => c.av.lo) with
    | [] => .done s []
    | x :: xs => .done (foldS cs s (fun s c => s.writeD1 c.d (xs.foldl (redOp ty oper) x))) []) s

/-! ### Windows (R62 to R66, R136 to R138) -/

/-- Slot w of a warp holds a live export of that warp (R64). -/
def State.isExport (s : State) (wk w : Nat) : Bool :=
  let h := Fmap.get 0 (s.warp wk).w w
  hValid h && hCore h == coreOf wk && hBtag h == btagOf wk && hWarp h == widx wk && hWidx h == w

/-- VALID := 0 in a slot. -/
def State.invalidate (s : State) (wk w : Nat) : State :=
  s.modWarp wk (fun r => { r with w := Fmap.set 0 r.w w (Fmap.get 0 r.w w &&& ~~~(1#64 <<< 23)) })

/-- The end of a revocation (R66): the generation goes up by 1, modulo 256, and the slot is no longer valid. -/
def State.revoke (s : State) (wk w : Nat) : State :=
  (s.modWarp wk (fun r =>
    { r with edesc := Fmap.set {} r.edesc w { Fmap.get {} r.edesc w with gen := (Fmap.get {} r.edesc w).gen + 1 } })).invalidate wk w

/-- A handle is that of a warp's window w, of its present generation. -/
def State.isWin (s : State) (wk w : Nat) (h : DWord) : Bool := hWk h == wk && hWidx h == w && hGen h == (Fmap.get {} (s.warp wk).edesc w).gen

/-- Handles through which a held thread still has to access registers. -/
def Hold.wins : Hold → List DWord
  | .release _ _ (.abarv _ _ _ ws) => ws
  | .abwait _ _ ws => ws
  | .winqPop _ _ ws => ws
  | _ => []

/-- Accesses through a window that have entered a lane or have been accepted by an engine, and have not completed (R66): engine
commands and lane accesses by number, and threads held in one. -/
def State.winUsers (s : State) (wk w : Nat) : List Nat :=
  (s.cmdList.filter (fun p => p.2.st != .queued && p.2.wins.any (fun h => hWk h == wk && hWidx h == w))).map Prod.fst ++
    (s.accList.filter (fun p => p.2.wins.any (s.isWin wk w))).map Prod.fst
def State.winThreads (s : State) (wk w : Nat) : List (Nat × DWord) :=
  s.threads.filterMap (fun p => (p.2.hold.wins.find? (s.isWin wk w)).map (fun h => (p.1, h)))

/-- A revocation by the warp: at once, or a wait for REVW_COMPLETE. -/
def State.revTry (s : State) (wk w : Nat) : Except State State :=
  if (s.warp wk).revPend.isSome then .error s
  else
    let us := s.winUsers wk w
    let ts := s.winThreads wk w
    if us = [] ∧ ts = [] then .ok (s.revoke wk w) else .error (s.modWarp wk (fun r => { r with revPend := some w, revWait := us, revThr := ts }))

/-- REVW_COMPLETE (R66): the accesses that the revocation waits for have completed. -/
def State.revwDone (s : State) (wk : Nat) : State :=
  match (s.warp wk).revPend with
  | none => s
  | some w =>
    if (s.warp wk).revWait.any (fun c => (s.cmd c).isSome || (s.acc c).isSome) ∨
        (s.warp wk).revThr.any (fun p => (s.thread (p.1 / 32) (p.1 % 32)).hold.wins.contains p.2) then s
    else (s.revoke wk w).modWarp wk (fun r => { r with revPend := none, revWait := [], revThr := [] })

/-- LEN and RW of EXPW (R136). -/
def expLen (b : Operand) : Nat := b.payload.toNat % 2048
def expRw (b : Operand) : Bool := b.payload.getLsbD 11
def scopeBits : WScope → BitVec 2
  | .thread => 0
  | .warp => 1
  | .block => 2

/-- Exporting threads, as warp and thread (R62). -/
def State.exporters (s : State) (sc : WScope) (c : TC) : List (Nat × Nat) :=
  match sc with
  | .thread => (maskList c.act).map (fun t => (c.wk, t))
  | .warp => (List.range 32).map (fun t => (c.wk, t))
  | .block => (s.blockWarps (bkOf c.wk)).flatMap (fun w => (List.range 32).map (fun t => (w, t)))

/-- EXPW (R62, R64, R136). -/
def execExpw (h : Hdr) (sc : WScope) (grp : BitVec 8) (d a b : Operand) (s : State) : Result :=
  laneOnce (.expw h sc grp d a b) .int .int (fun c s =>
    let w := slotOf d
    let base := vIdx a
    let len := expLen b
    let nv := (s.warp c.wk).alloc.nv
    if base % 4 ≠ 0 ∨ len % 4 ≠ 0 ∨ len < 4 ∨ nv < len ∨ nv < base + len then .trap kWin (tdW w)
    else if (s.exporters sc c).any (fun p => (locsV p.1 p.2 base len).any (fun l => !s.settled l || s.inRange true l)) then .wait s
    else match (if s.isExport c.wk w then s.revTry c.wk w else .ok s) with
      | .error s => .wait s
      | .ok s =>
        let gen := (Fmap.get {} (s.warp c.wk).edesc w).gen
        .done (s.modWarp c.wk (fun r =>
          { r with edesc := Fmap.set {} r.edesc w ⟨base, len, expRw b, scopeBits sc, grp, gen⟩,
                   w := Fmap.set 0 r.w w (handleOf gen (coreOf c.wk) (btagOf c.wk) (widx c.wk) w (scopeBits sc) (expRw b)) }))) s

/-- REVW (R66, R137): an export is revoked, a binding becomes invalid, a slot with VALID = 0 stays (R344). -/
def execRevw (h : Hdr) (d : Operand) (s : State) : Result :=
  laneOnce (.revw h d) .int .int (fun c s =>
    let w := slotOf d
    if !hValid (Fmap.get 0 (s.warp c.wk).w w) then .done s
    else if s.isExport c.wk w then
      match s.revTry c.wk w with
      | .ok s => .done s
      | .error s => .wait s
    else .done (s.invalidate c.wk w)) s

/-- The conditions of R65. -/
def State.bindOk (s : State) (wk : Nat) (h : DWord) : Bool :=
  let b := s.block (bkOf wk)
  s.hLive (coreOf wk) (s.warp wk).lid h &&
    (bkOf wk == bkey (hCore h) (hBtag h) || (Fmap.get [] (s.launch b.lid).groups (s.hDesc h).group.toNat).contains b.bidx)

/-- BINDW (R65, R138): what R65 asks is asked once, before a live export of the slot is revoked. -/
def execBindw (h : Hdr) (d a : Operand) (s : State) : Result :=
  laneOnce (.bindw h d a) .int .int (fun c s =>
    let w := slotOf d
    if !(s.warp c.wk).bindGo && !s.bindOk c.wk c.av then .trap kWin (tdW w)
    else match (if s.isExport c.wk w then s.revTry c.wk w else .ok s) with
      | .error s => .wait (s.modWarp c.wk (fun r => { r with bindGo := true }))
      | .ok s => .done (s.modWarp c.wk (fun r => { r with w := Fmap.set 0 r.w w c.av, bindGo := false }))) s

/-! ### F bits (R139) -/

/-- SETF and CLRF: a write under R70 that also waits for whatever is due in the granule. Poison clears (R345). A granule that a command
empties at acceptance in the cycle of a SETF stays empty, and a CLRF comes after a fill of its cycle (R139). -/
def setfBody (x : Bool) (c : TC) (s : State) : TRes :=
  match c.d with
  | [] => .done s
  | l :: _ =>
    let gs := (List.range 4).map (fun k => match l with
      | .v wk t i => Loc.v wk t (granOf i * 4 + k)
      | .s wk i => Loc.s wk (granOf i * 4 + k))
    if l.wk = c.wk ∧ gs.any (fun g => !s.settled g) then .wait s
    else if x && s.wasEmptied true l then .done (s.clearPois l)
    else .done (((if x then s else s.noteEmptied false l).clearPois l).setFull x l)

def execSetf (h : Hdr) (d : Operand) (s : State) : Result := laneEach (.setf h d) true false .int .int (setfBody true) s
def execClrf (h : Hdr) (d : Operand) (s : State) : Result := laneEach (.clrf h d) true false .int .int (setfBody false) s

def pIdx : Operand → Nat
  | .p i => i.toNat
  | _ => 0

/-- TESTF: the F bit of a granule; a poisoned granule is full (R345). -/
def execTestf (h : Hdr) (d a : Operand) (s : State) : Result :=
  laneEach (.testf h d a) false false .int .int (fun c s =>
    .done (s.setPred c.wk c.t (pIdx d) (match c.a with | l :: _ => s.full l || s.pois l | [] => true))) s

/-! ### Frames (R140) -/

def immNat (a : Operand) : Nat := a.payload.toNat

/-- FRAME: pushes v(vs) upward. -/
def execFrame (h : Hdr) (d a : Operand) (s : State) : Result :=
  laneEach (.frame h d a) false false .int .int (fun c s =>
    let ls := locsV c.wk c.t (vIdx d) (immNat a)
    if ls.any (fun l => !s.readable l) then .wait s
    else match ls.find? (fun l => s.pois l) with
      | some l => .trap kPois (tdGran l)
      | none => stkBody c (s.stackPush c (ls.map s.readLoc)) (fun s _ => s.watchLocs c.wk ls [])) s

/-- UNFRAME: pops back, the highest register first. -/
def execUnframe (h : Hdr) (d a : Operand) (s : State) : Result :=
  laneEach (.unframe h d a) false false .int .int (fun c s =>
    let ls := locsV c.wk c.t (vIdx d) (immNat a)
    if ls.any (fun l => !s.writable l) then .wait s
    else stkBody c (s.stackPop c ls.length) (fun s ws =>
      ((s.writeLocs ls.reverse ws).watchLocs c.wk [] ls).soon c.wk (ls.map Res.reg) 8)) s

end Sys2Proof.Machine
end

