-- ==== Sys2Proof/Machine/Compare.lean ====
section
/-! DEFINITION. Compare and select, class 0x3 (R128, R129). -/

namespace Sys2Proof.Machine

/-- The relation mask of R128: bit 0 a < b, bit 1 a = b, bit 2 a > b. -/
def relHolds (ty : Ty) (rel : BitVec 4) (a b : DWord) : Bool :=
  let x := tyInt ty a
  let y := tyInt ty b
  if x < y then rel.getLsbD 0 else if x = y then rel.getLsbD 1 else rel.getLsbD 2

/-- ISETP: bit t of predicate D. -/
def execIsetp (h : Hdr) (ty : Ty) (rel : BitVec 4) (d a b : Operand) (s : State) : Result :=
  laneEach (.isetp h ty rel d a b) false false .int .int (fun c s =>
    .done (s.setPred c.wk c.t (pIdx d) (relHolds ty rel c.av c.bv))) s

/-- ISET: 1 or 0 in D. -/
def execIset (h : Hdr) (ty : Ty) (rel : BitVec 4) (d a b : Operand) (s : State) : Result :=
  laneEach (.iset h ty rel d a b) true false .int .int (valBody (fun c => if relHolds ty rel c.av c.bv then 1 else 0)) s

/-- SEL: D := b where predicate A is 1; D keeps its value elsewhere. -/
def execSel (h : Hdr) (ty : Ty) (d a b : Operand) (s : State) : Result :=
  laneEach (.sel h ty d a b) false false .int .int (fun c s => .done (if c.av != 0 then s.writeD2 c.d c.bv else s)) s

/-- PSETP: a truth table of two predicate bits (R128). -/
def execPsetp (h : Hdr) (ty : Ty) (tt : BitVec 4) (d a b : Operand) (s : State) : Result :=
  laneEach (.psetp h ty tt d a b) false false .int .int (fun c s =>
    .done (s.setPred c.wk c.t (pIdx d) (tt.getLsbD ((if c.av != 0 then 2 else 0) + (if c.bv != 0 then 1 else 0))))) s

/-- The predicate bits of a thread below `.preds`. -/
def State.predWord (s : State) (wk t : Nat) : Word :=
  maskOf ((List.range (s.warp wk).alloc.np).filter (fun j => s.predBit wk t j))

/-- P2V. It reads the bits of each thread, so it has no uniform form. -/
def execP2v (h : Hdr) (ty : Ty) (d : Operand) (s : State) : Result :=
  laneEach (.p2v h ty d) false false .int .int (fun c s =>
    let ps := List.range (s.warp c.wk).alloc.np
    if ps.any (fun p => !s.avail c.wk (.pred c.t p)) then .wait s
    else .done ((s.writeD2 c.d ((s.predWord c.wk c.t).setWidth 64)).watchCells c.wk (ps.map (fun p => .pred c.wk p)) [])) s

/-- V2P: writes the predicates that the mask B names, below `.preds`. -/
def execV2p (h : Hdr) (ty : Ty) (a b : Operand) (s : State) : Result :=
  laneEach (.v2p h ty a b) false false .int .int (fun c s =>
    let ps := (List.range (s.warp c.wk).alloc.np).filter (fun j => c.bv.getLsbD j)
    .done (((foldS ps s (fun s j => s.setPred c.wk c.t j (c.av.getLsbD j))).watchCells c.wk [] (ps.map (fun p => .pred c.wk p))).soon c.wk
      (ps.map (fun p => .pred c.t p)) 8)) s

end Sys2Proof.Machine
end

