-- ==== Sys2Proof/Machine/Fp.lean ====
section
/-! DEFINITION. Exact floating arithmetic (R94 to R104): formats, decoding, one rounding of an exact value in each mode
with its conditions, conversion into narrow formats, and the correctly rounded elementary functions (R147, R153). -/

namespace Sys2Proof.Machine

/-- A floating format (R95). `maxMag` is the magnitude code of its largest finite value; `ieee` says that it has
infinities and NaNs; `negZero` that it has a negative zero. -/
structure FFmt where
  ebits   : Nat
  mbits   : Nat
  bias    : Int
  maxMag  : Nat
  ieee    : Bool
  negZero : Bool
  deriving DecidableEq, Repr

def fF32 : FFmt := ⟨8, 23, 127, 0x7F7FFFFF, true, true⟩
def fF16 : FFmt := ⟨5, 10, 15, 0x7BFF, true, true⟩
def fB16 : FFmt := ⟨8, 7, 127, 0x7F7F, true, true⟩
def fF8A : FFmt := ⟨4, 3, 8, 0x7E, false, true⟩
def fF8B : FFmt := ⟨5, 2, 16, 0x7E, false, true⟩
def fF6A : FFmt := ⟨3, 2, 4, 0x1F, false, false⟩
def fF6B : FFmt := ⟨2, 3, 2, 0x1F, false, false⟩
def fF4 : FFmt := ⟨2, 1, 1, 0x7, false, false⟩

/-- Width of a format, its sign bit and its smallest normal exponent. -/
def FFmt.width (f : FFmt) : Nat := 1 + f.ebits + f.mbits
def FFmt.signBit (f : FFmt) : Nat := 2 ^ (f.ebits + f.mbits)
def FFmt.emin (f : FFmt) : Int := 1 - f.bias
/-- Infinity and the canonical NaN of an IEEE format (R101), as magnitudes. -/
def FFmt.infMag (f : FFmt) : Nat := (2 ^ f.ebits - 1) * 2 ^ f.mbits
def FFmt.nanMag (f : FFmt) : Nat := f.infMag + 2 ^ (f.mbits - 1)

/-- A decoded value; `fin` is (−1)^neg · m · 2^e. -/
inductive FVal where
  | nan (signalling : Bool)
  | inf (neg : Bool)
  | fin (neg : Bool) (m : Nat) (e : Int)
  deriving DecidableEq, Repr

/-- The value of a code (R95), reserved codes reading as their substitutes (R96). -/
def FFmt.decode (f : FFmt) (c : Nat) : FVal :=
  let c := c % 2 ^ f.width
  let neg := f.signBit ≤ c
  let mag := c % f.signBit
  let e := mag / 2 ^ f.mbits
  let m := mag % 2 ^ f.mbits
  if f.ieee ∧ e = 2 ^ f.ebits - 1 then (if m = 0 then .inf neg else .nan (m < 2 ^ (f.mbits - 1)))
  else if !f.negZero ∧ neg ∧ mag = 0 then .fin false 0 f.emin
  else if mag > f.maxMag then .fin neg (2 ^ f.mbits + f.maxMag % 2 ^ f.mbits) (((f.maxMag / 2 ^ f.mbits : Nat) : Int) - f.bias - f.mbits)
  else if e = 0 then .fin neg m (f.emin - f.mbits)
  else .fin neg (2 ^ f.mbits + m) ((e : Int) - f.bias - f.mbits)

def sgn (f : FFmt) (neg : Bool) (mag : Nat) : Nat := if neg then f.signBit + mag else mag

/-- Rounds N / 2^s to an integer in a mode, with N / 2^s of the given sign (R99). -/
def roundShift (rnd : Rnd) (neg : Bool) (n s : Nat) : Nat :=
  let q := n >>> s
  let r := n - (q <<< s)
  let up := match rnd with
    | .rne => 2 * r > 2 ^ s || (2 * r == 2 ^ s && q % 2 == 1)
    | .rtz => false
    | .rup => !neg && r != 0
    | .rdn => neg && r != 0
  if up then q + 1 else q

/-- Rounds the magnitude n · 2^e to a multiple of 2^q: the multiple, and whether it is inexact. -/
def roundTo2 (rnd : Rnd) (neg : Bool) (n : Nat) (e q : Int) : Nat × Bool :=
  if q ≤ e then (n <<< (e - q).toNat, false)
  else
    let s := (q - e).toNat
    let r := roundShift rnd neg n s
    (r, (n >>> s) <<< s != n)

/-- A magnitude exceeding the largest finite value rounds to infinity or stays there (R100). -/
def overMag (f : FFmt) (rnd : Rnd) (neg : Bool) : Nat :=
  match rnd with
  | .rne => f.infMag
  | .rtz => f.maxMag
  | .rup => if neg then f.maxMag else f.infMag
  | .rdn => if neg then f.infMag else f.maxMag

/-- Magnitude code of m · 2^q, with q the quantum its binade takes. -/
def FFmt.magCode (f : FFmt) (m : Nat) (q : Int) : Nat :=
  if m < 2 ^ f.mbits then m
  else if m = 2 ^ (f.mbits + 1) then (q + 1 + f.mbits + f.bias).toNat * 2 ^ f.mbits
  else (q + f.mbits + f.bias).toNat * 2 ^ f.mbits + (m - 2 ^ f.mbits)

/-- One rounding of (n + δ) · 2^e, where 0 < δ < 1 if `sticky` and δ = 0 otherwise (R99, R100, R102, R103): the code and
the conditions. With `sticky`, n has more bits than the format keeps. A zero takes the sign given. -/
def FFmt.round (f : FFmt) (rnd : Rnd) (neg : Bool) (n : Nat) (e : Int) (sticky : Bool) : Nat × Word :=
  let n := 2 * n + (if sticky then 1 else 0)
  let e := e - 1
  if n = 0 then (sgn f (neg && f.negZero) 0, 0)
  else
    let x : Int := e + Nat.log2 n
    let qn := x - f.mbits
    let q := max qn (f.emin - f.mbits)
    let (m, inex) := roundTo2 rnd neg n e q
    let tiny := x < f.emin && (let u := roundTo2 rnd neg n e qn; decide (u.1 < 2 ^ (f.mbits + 1)) || decide (x + 1 < f.emin))
    let mag := f.magCode m q
    if mag > f.maxMag then (sgn f neg (if f.ieee then overMag f rnd neg else f.maxMag), fOF ||| fIX)
    else (sgn f (neg && (f.negZero || mag != 0)) mag, if inex then (if tiny then fUF ||| fIX else fIX) else 0)

/-! ### Dyadic numbers: (m, e) stands for m · 2^e -/

abbrev Dy := Int × Int
def Dy.mul (a b : Dy) : Dy := (a.1 * b.1, a.2 + b.2)
def Dy.add (a b : Dy) : Dy :=
  if a.1 = 0 then b else if b.1 = 0 then a else
  if a.2 ≤ b.2 then (a.1 + b.1 * 2 ^ (b.2 - a.2).toNat, a.2) else (a.1 * 2 ^ (a.2 - b.2).toNat + b.1, b.2)
def dyOf (neg : Bool) (m : Nat) (e : Int) : Dy := (if neg then -(m : Int) else m, e)

/-- Rounds a dyadic; an exact zero takes the sign `zneg`. -/
def FFmt.roundDy (f : FFmt) (rnd : Rnd) (zneg : Bool) (a : Dy) : Nat × Word :=
  if a.1 = 0 then (sgn f (zneg && f.negZero) 0, 0) else f.round rnd (a.1 < 0) a.1.natAbs a.2 false

/-! ### Arithmetic (R147, R148) -/

def FFmt.qnan (f : FFmt) (iv : Bool) : Nat × Word := (f.nanMag, if iv then fIV else 0)
def isSnan : FVal → Bool
  | .nan s => s
  | _ => false
def isNan : FVal → Bool
  | .nan _ => true
  | _ => false

/-- a · b + d, rounded once. -/
def FFmt.fma (f : FFmt) (rnd : Rnd) (a b d : FVal) : Nat × Word :=
  let snan := isSnan a || isSnan b || isSnan d
  let prod : Option FVal := match a, b with
    | .nan s, _ => some (.nan s)
    | _, .nan s => some (.nan s)
    | .inf _, .fin _ 0 _ => none
    | .fin _ 0 _, .inf _ => none
    | .inf s, .inf t => some (.inf (s != t))
    | .inf s, .fin t _ _ => some (.inf (s != t))
    | .fin s _ _, .inf t => some (.inf (s != t))
    | .fin s m e, .fin t n g => some (.fin (s != t) (m * n) (e + g))
  match prod with
  | none => f.qnan true
  | some p =>
    match p, d with
    | .nan _, _ => f.qnan snan
    | _, .nan _ => f.qnan snan
    | .inf s, .inf t => if s = t then (sgn f s f.infMag, 0) else f.qnan true
    | .inf s, _ => (sgn f s f.infMag, 0)
    | _, .inf t => (sgn f t f.infMag, 0)
    | .fin s m e, .fin t n g =>
      let z := if m = 0 ∧ n = 0 ∧ s = t then s else rnd == .rdn
      f.roundDy rnd z (Dy.add (dyOf s m e) (dyOf t n g))

/-- The value one of a format. -/
def FVal.one : FVal := .fin false 1 0

def FFmt.add (f : FFmt) (rnd : Rnd) (a b : FVal) : Nat × Word := f.fma rnd a .one b

/-- a · b: a zero product keeps its sign. -/
def FFmt.mul (f : FFmt) (rnd : Rnd) (a b : FVal) : Nat × Word :=
  match a, b with
  | .fin s m e, .fin t n g => f.round rnd (s != t) (m * n) (e + g) false
  | _, _ => f.fma rnd a b (.fin false 0 0)

/-- Extra quotient bits: more than any format keeps. -/
abbrev qBits : Nat := 96

/-- a / b (R148). -/
def FFmt.div (f : FFmt) (rnd : Rnd) (a b : FVal) : Nat × Word :=
  match a, b with
  | .nan s, y => f.qnan (s || isSnan y)
  | _, .nan s => f.qnan s
  | .inf _, .inf _ => f.qnan true
  | .inf s, .fin t _ _ => (sgn f (s != t) f.infMag, 0)
  | .fin s _ _, .inf t => (sgn f (s != t) 0, 0)
  | .fin s m e, .fin t n g =>
    if n = 0 then (if m = 0 then f.qnan true else (sgn f (s != t) f.infMag, fDZ))
    else if m = 0 then (sgn f (s != t) 0, 0)
    else f.round rnd (s != t) (m * 2 ^ qBits / n) (e - g - qBits) (m * 2 ^ qBits % n != 0)

/-- The integer square root, from its bits k − 1 downward. -/
def isqrtGo (n : Nat) : Nat → Nat → Nat
  | 0, r => r
  | k + 1, r => if (r + 2 ^ k) * (r + 2 ^ k) ≤ n then isqrtGo n k (r + 2 ^ k) else isqrtGo n k r
def isqrt (n : Nat) : Nat := isqrtGo n (Nat.log2 n / 2 + 1) 0

/-- √a (R153). -/
def FFmt.sqrt (f : FFmt) (rnd : Rnd) (a : FVal) : Nat × Word :=
  match a with
  | .nan s => f.qnan s
  | .inf neg => if neg then f.qnan true else (f.infMag, 0)
  | .fin neg m e =>
    if m = 0 then (sgn f neg 0, 0)
    else if neg then f.qnan true
    else
      let k : Nat := if e % 2 = 0 then 96 else 97
      let n := m * 2 ^ k
      let r := isqrt n
      f.round rnd false r ((e - k) / 2) (r * r != n)

/-- 1 / a (R153). -/
def FFmt.rcp (f : FFmt) (rnd : Rnd) (a : FVal) : Nat × Word := f.div rnd .one a

/-- 1 / √a (R153). -/
def FFmt.rsq (f : FFmt) (rnd : Rnd) (a : FVal) : Nat × Word :=
  match a with
  | .nan s => f.qnan s
  | .inf neg => if neg then f.qnan true else (0, 0)
  | .fin neg m e =>
    if m = 0 then (sgn f neg f.infMag, fDZ)
    else if neg then f.qnan true
    else
      -- with e made even by m, 1/√(m·2^e) = √(2^(2k)/m) · 2^(−k − e/2)
      let m := if e % 2 = 0 then m else 2 * m
      let e := if e % 2 = 0 then e else e - 1
      let k : Nat := 120
      let r := isqrt (2 ^ (2 * k) / m)
      f.round rnd false r (-(k : Int) - e / 2) (r * r * m != 2 ^ (2 * k))

/-! ### Elementary functions

Numbers in fixed point with `fxP` fraction bits. Every argument that R153 does not list has an irrational result, which is
therefore inexact; 640 bits place it on its side of every rounding boundary (DEDUCED, log 12). -/

abbrev fxP : Nat := 640
def fxMul (a b : Int) : Int := a * b / 2 ^ fxP
def fxOne : Int := 2 ^ fxP

/-- A sum of terms t, t·r, … with the n-th divided by its own factor: Σ t·rⁿ / d(n). -/
def fxSeries (r : Int) (d : Nat → Int) : Nat → Nat → Int → Int
  | 0, _, _ => 0
  | k + 1, n, t => t / d n + fxSeries r d k (n + 1) (fxMul t r)

/-- 2·atanh z for |z| ≤ 1/3. -/
def fxAtanh2 (z : Int) : Int := 2 * fxSeries (fxMul z z) (fun n => 2 * n + 1) 210 0 z
/-- ln 2 = 2·atanh(1/3). -/
def fxLn2 : Int := fxAtanh2 (fxOne / 3)
/-- atan(1/k). -/
def fxAtanInv (k : Int) : Int := fxSeries (-(fxOne / (k * k))) (fun n => 2 * n + 1) 150 0 (fxOne / k)
/-- π by Machin's formula. -/
def fxPi : Int := 16 * fxAtanInv 5 - 4 * fxAtanInv 239

/-- Taylor terms: t + t·x/(k) + …, each term from the one before by x / (a·n + b)(a·n + c). -/
def fxTaylor (x : Int) (d : Nat → Int) : Nat → Nat → Int → Int
  | 0, _, _ => 0
  | k + 1, n, t => t + fxTaylor x d k (n + 1) (fxMul t x / d n)

/-- e^y for 0 ≤ y ≤ 1. -/
def fxExp (y : Int) : Int := fxTaylor y (fun n => n + 1) 140 0 fxOne
/-- sin y for 0 ≤ y ≤ π/2. -/
def fxSin (y : Int) : Int := fxTaylor (-(fxMul y y)) (fun n => (2 * n + 2) * (2 * n + 3)) 80 0 y
/-- cos y for 0 ≤ y ≤ π/2. -/
def fxCos (y : Int) : Int := fxTaylor (-(fxMul y y)) (fun n => (2 * n + 1) * (2 * n + 2)) 80 0 fxOne

/-- A finite value as fixed point, exact for exponents from −640. -/
def fxOf (m : Nat) (e : Int) : Int := if 0 ≤ e + fxP then (m : Int) * 2 ^ (e + fxP).toNat else 0

/-- Rounds an irrational fixed-point value times 2^k. -/
def FFmt.roundFx (f : FFmt) (rnd : Rnd) (x : Int) (k : Int) : Nat × Word :=
  f.round rnd (x < 0) x.natAbs (k - fxP) true

/-- m · 2^e is an integer. -/
def isIntegral (m : Nat) (e : Int) : Bool := 0 ≤ e || m % 2 ^ (-e).toNat == 0
/-- The integer m · 2^e, and floor of it where it is none. -/
def floorNat (m : Nat) (e : Int) : Nat := if 0 ≤ e then m * 2 ^ e.toNat else m / 2 ^ (-e).toNat

/-- 2^a (R153). -/
def FFmt.exp2 (f : FFmt) (rnd : Rnd) (a : FVal) : Nat × Word :=
  match a with
  | .nan s => f.qnan s
  | .inf neg => if neg then (0, 0) else (f.infMag, 0)
  | .fin neg m e =>
    if m = 0 then f.round rnd false 1 0 false
    else if isIntegral m e then
      let n := min (floorNat m e) 100000
      f.round rnd false 1 (if neg then -(n : Int) else n) false
    else if e > 40 ∨ floorNat m e > 10000 then f.round rnd false 1 (if neg then -100000 else 100000) false
    else
      let y := if neg then -(fxOf m e) else fxOf m e
      let k := y / fxOne
      f.roundFx rnd (fxExp (fxMul (y - k * fxOne) fxLn2)) k

/-- log2 a (R153). -/
def FFmt.log2 (f : FFmt) (rnd : Rnd) (a : FVal) : Nat × Word :=
  match a with
  | .nan s => f.qnan s
  | .inf neg => if neg then f.qnan true else (f.infMag, 0)
  | .fin neg m e =>
    if m = 0 then (sgn f true f.infMag, fDZ)
    else if neg then f.qnan true
    else
      let l := Nat.log2 m
      let k : Int := e + l
      if m = 2 ^ l then f.roundDy rnd false (k, 0)
      else
        let x : Int := fxOf m (-(l : Int))
        let lnm := fxAtanh2 ((x - fxOne) * fxOne / (x + fxOne))
        f.roundFx rnd (k * fxOne + lnm * fxOne / fxLn2) 0

/-- sin(π·r) for fixed-point r in [0, 2), not a multiple of 1/2. -/
def fxSinPi (r : Int) : Int :=
  let h := fxOne / 2
  let q := r / h
  let z := r - q * h
  if q = 0 then fxSin (fxMul fxPi z)
  else if q = 1 then fxCos (fxMul fxPi z)
  else if q = 2 then -fxSin (fxMul fxPi z)
  else -fxCos (fxMul fxPi z)

/-- m · 2^e modulo 2, as fixed point. -/
def fxMod2 (m : Nat) (e : Int) : Int :=
  if 1 ≤ e then 0 else (m % 2 ^ (1 - e).toNat : Nat) * 2 ^ (fxP + e).toNat

/-- sin(π·a) (R153). -/
def FFmt.sinpi (f : FFmt) (rnd : Rnd) (a : FVal) : Nat × Word :=
  match a with
  | .nan s => f.qnan s
  | .inf _ => f.qnan true
  | .fin neg m e =>
    if isIntegral m e then (sgn f neg 0, 0)
    else
      let r := fxMod2 m e
      if r % (fxOne / 2) = 0 then f.roundDy rnd false (if (r = fxOne / 2) != neg then 1 else -1, 0)
      else f.roundFx rnd (if neg then -fxSinPi r else fxSinPi r) 0

/-- cos(π·a) (R153). -/
def FFmt.cospi (f : FFmt) (rnd : Rnd) (a : FVal) : Nat × Word :=
  match a with
  | .nan s => f.qnan s
  | .inf _ => f.qnan true
  | .fin _ m e =>
    if isIntegral m e then f.roundDy rnd false (if fxMod2 m e = 0 then 1 else -1, 0)
    else
      let r := fxMod2 m e
      if r % (fxOne / 2) = 0 then (0, 0)
      else f.roundFx rnd (fxSinPi ((r + fxOne / 2) % (2 * fxOne))) 0

/-- tanh a (R153): (1 − u)/(1 + u) with u = e^(−2|a|); from 128 the result differs from ±1 by less than any bit kept. -/
def FFmt.tanh (f : FFmt) (rnd : Rnd) (a : FVal) : Nat × Word :=
  match a with
  | .nan s => f.qnan s
  | .inf neg => f.roundDy rnd false (if neg then -1 else 1, 0)
  | .fin neg m e =>
    if m = 0 then (sgn f neg 0, 0)
    else
      let v : Int :=
        if floorNat m e ≥ 128 then fxOne - 1
        else
          let y := 2 * fxOf m e
          let k := y / fxLn2
          -- e^(−y) = 2^(−k−1) · e^(ln 2 − (y − k·ln 2))
          let u := fxExp (fxLn2 - (y - k * fxLn2)) / 2 ^ (k + 1).toNat
          (fxOne - u) * fxOne / (fxOne + u)
      f.roundFx rnd (if neg then -v else v) 0

/-! ### Rounding to integers -/

/-- A finite value rounded to an integer in a mode, with its sign apart, and whether it was inexact. -/
def toIntegral (rnd : Rnd) (neg : Bool) (m : Nat) (e : Int) : Nat × Bool := roundTo2 rnd neg m e 0

/-- Rounds into the range lo to hi (R104, R158): the integer and its conditions. -/
def FVal.toInt (v : FVal) (rnd : Rnd) (lo hi : Int) : Int × Word :=
  match v with
  | .nan _ => (0, fIV)
  | .inf neg => (if neg then lo else hi, fIV)
  | .fin neg m e =>
    let (n, inex) := toIntegral rnd neg m e
    let x : Int := if neg then -(n : Int) else n
    if x < lo then (lo, fIV) else if hi < x then (hi, fIV) else (x, if inex then fIX else 0)

/-! ### The fourteen formats (R94) -/

/-- A format code: floating, or an integer format with its width and whether it is signed; `ternary` is T2. -/
inductive Fmt where
  | flt (f : FFmt)
  | int (w : Nat) (sg : Bool)
  | ternary
  deriving DecidableEq, Repr

def fmtOf (code : Nat) : Fmt :=
  match code with
  | 0 => .flt fF32 | 1 => .flt fF16 | 2 => .flt fB16 | 3 => .flt fF8A | 4 => .flt fF8B | 5 => .flt fF6A
  | 6 => .flt fF6B | 7 => .flt fF4 | 8 => .int 16 true | 9 => .int 8 true | 0xA => .int 8 false
  | 0xB => .int 4 true | 0xC => .int 4 false | _ => .ternary

def Fmt.width : Fmt → Nat
  | .flt f => f.width
  | .int w _ => w
  | .ternary => 2

/-- The value of a code of any format (R95 to R97). -/
def Fmt.decode (f : Fmt) (c : Nat) : FVal :=
  match f with
  | .flt f => f.decode c
  | .int w sg =>
    let c := c % 2 ^ w
    if sg && 2 ^ (w - 1) ≤ c then .fin true (2 ^ w - c) 0 else .fin false c 0
  | .ternary => match c % 4 with
    | 1 => .fin false 1 0
    | 3 => .fin true 1 0
    | _ => .fin false 0 0

/-- RoundTo (R157): conversion of a value into a format, with its conditions. -/
def Fmt.convert (f : Fmt) (rnd : Rnd) (v : FVal) : Nat × Word :=
  match f with
  | .flt g =>
    match v with
    | .nan s => if g.ieee then g.qnan s else (0, fIV)
    | .inf neg => if g.ieee then (sgn g neg g.infMag, 0) else (sgn g neg g.maxMag, fOF ||| fIX)
    | .fin neg m e => g.round rnd neg m e false
  | .int w sg =>
    let (x, fl) := v.toInt rnd (if sg then -(2 ^ (w - 1)) else 0) (if sg then 2 ^ (w - 1) - 1 else 2 ^ w - 1)
    ((x % 2 ^ w).toNat, fl)
  | .ternary =>
    let (x, fl) := v.toInt rnd (-1) 1
    ((x % 4).toNat, fl)

/-- An exact value as an F32 code: every value of the narrow formats is one (R104). -/
def toF32 (v : FVal) : Nat :=
  match v with
  | .nan _ => fF32.nanMag
  | .inf neg => sgn fF32 neg fF32.infMag
  | .fin neg m e => (fF32.round .rne neg m e false).1

/-! ### Comparing codes of one format -/

/-- Sign and magnitude as an integer: equal for the two zeros, rising with the value, infinities included. -/
def FFmt.key (f : FFmt) (c : Nat) : Int :=
  let c := c % 2 ^ f.width
  if f.signBit ≤ c then -((c - f.signBit : Nat) : Int) else c

/-- FMIN and FMAX of two codes (R149); −0 counts as less than +0. -/
def FFmt.minmax (f : FFmt) (max mm : Bool) (a b : Nat) : Nat × Word :=
  let a := a % 2 ^ f.width
  let b := b % 2 ^ f.width
  let iv : Word := if isSnan (f.decode a) || isSnan (f.decode b) then fIV else 0
  let na := isNan (f.decode a)
  let nb := isNan (f.decode b)
  let less := f.key a < f.key b || (f.key a == f.key b && f.signBit ≤ a)
  if na && nb || (mm && (na || nb)) then (f.nanMag, iv)
  else if na then (b, iv) else if nb then (a, iv)
  else (if less != max then a else b, iv)

/-- COND of R150: the truth value and the conditions. -/
def FFmt.cond (f : FFmt) (k : FCond) (a b : Nat) : Bool × Word :=
  let va := f.decode a
  let vb := f.decode b
  let un := isNan va || isNan vb
  let x := f.key a
  let y := f.key b
  let quiet := match k with
    | .lt | .le | .gt | .ge => true
    | _ => false
  let r := match k with
    | .eq => !un && x == y
    | .ne => un || x != y
    | .lt => !un && x < y
    | .le => !un && x ≤ y
    | .gt => !un && y < x
    | .ge => !un && y ≤ x
    | .num => !un
    | .nan => un
  (r, if isSnan va || isSnan vb || (un && quiet) then fIV else 0)

/-- SAT (R144): the clamp to [+0, +1.0]. -/
def FFmt.sat (f : FFmt) (c : Nat) : Nat :=
  let one := f.bias.toNat * 2 ^ f.mbits
  match f.decode c with
  | .nan _ => 0
  | .inf neg => if neg then 0 else one
  | .fin neg m _ => if neg || m = 0 then 0 else if one < c then one else c

/-- RoundF32(a + b, RNE) of the atomics (R169), which keeps no condition. -/
def f32Add (a b : Word) : Word := BitVec.ofNat 32 (fF32.add .rne (fF32.decode a.toNat) (fF32.decode b.toNat)).1

end Sys2Proof.Machine
end

