-- ==== Sys2Proof/Machine/Float.lean ====
section
/-! DEFINITION. F32 instructions, class 0x4 (R143 to R153). -/

namespace Sys2Proof.Machine

/-- ABS, then negation, on the sign bit of a code (R81, R143). -/
def FFmt.signs (f : FFmt) (ab ng : Bool) (x : Nat) : Nat :=
  let x := if ab then x % f.signBit else x % 2 ^ f.width
  if ng then (if f.signBit ≤ x then x - f.signBit else x + f.signBit) else x

/-- Operands A and B of a code under the modifiers: ABS acts on B only where B is a register. -/
def codeA (f : FFmt) (m : Arith) (x : Nat) : Nat := f.signs m.abs m.nega x
def codeB (f : FFmt) (m : Arith) (b : Operand) (x : Nat) : Nat := f.signs (m.abs && b.isReg) m.negb x

/-- Writes a 32-bit result and raises its conditions (R142, R147). -/
def fpOut (c : TC) (s : State) (r : Nat × Word) : TRes := .fp (s.writeD2 c.d (BitVec.ofNat 64 r.1)) r.2

def satIf (f : FFmt) (sat : Bool) (r : Nat × Word) : Nat × Word := if sat then (f.sat r.1, r.2) else r

/-- A body over the decoded F32 values a, b and d. -/
def f32Body (m : Arith) (b : Operand) (f : FVal → FVal → FVal → Nat × Word) (c : TC) (s : State) : TRes :=
  fpOut c s (satIf fF32 m.sat (f (fF32.decode (codeA fF32 m c.av.lo.toNat)) (fF32.decode (codeB fF32 m b c.bv.lo.toNat))
    (fF32.decode c.dv.lo.toNat)))

/-- A body over the F32 codes a and b. -/
def f32Code (m : Arith) (b : Operand) (f : Nat → Nat → Nat × Word) (c : TC) (s : State) : TRes :=
  fpOut c s (f (codeA fF32 m c.av.lo.toNat) (codeB fF32 m b c.bv.lo.toNat))

/-- FCLASS (R151). -/
def fclass (x : Nat) : Nat :=
  match fF32.decode x with
  | .inf neg => if neg then 1 else 128
  | .nan sg => if sg then 256 else 512
  | .fin neg m _ =>
    if m = 0 then (if neg then 8 else 16)
    else if m < 2 ^ 23 then (if neg then 4 else 32)
    else (if neg then 2 else 64)

/-- FRND (R152). -/
def frnd (rnd : Rnd) (x : Nat) : Nat × Word :=
  match fF32.decode x with
  | .nan s => fF32.qnan s
  | .inf neg => (sgn fF32 neg fF32.infMag, 0)
  | .fin neg m e => ((fF32.round .rne neg (toIntegral rnd neg m e).1 0 false).1, 0)

/-- FFRC (R152). -/
def ffrc (x : Nat) : Nat × Word :=
  match fF32.decode x with
  | .nan s => fF32.qnan s
  | .inf _ => fF32.qnan true
  | .fin neg m e => if 0 ≤ e then (sgn fF32 neg 0, 0) else ((fF32.round .rne neg (m % 2 ^ (-e).toNat) e false).1, 0)

/-- FSCALE (R152): beyond ±1000 the result is that of ±1000. -/
def fscale (rnd : Rnd) (x : Nat) (n : Int) : Nat × Word :=
  match fF32.decode x with
  | .nan s => fF32.qnan s
  | .inf neg => (sgn fF32 neg fF32.infMag, 0)
  | .fin neg m e => fF32.round rnd neg m (e + max (-1000) (min 1000 n)) false

/-- FGETEXP (R152). -/
def fgetexp (x : Nat) : Nat × Word :=
  match fF32.decode x with
  | .nan s => fF32.qnan s
  | .inf _ => (fF32.infMag, 0)
  | .fin _ m e => if m = 0 then (sgn fF32 true fF32.infMag, fDZ) else ((fF32.roundDy .rne false (e + Nat.log2 m, 0)).1, 0)

/-- Negation of a decoded value. -/
def FVal.neg : FVal → FVal
  | .nan s => .nan s
  | .inf n => .inf (!n)
  | .fin n m e => .fin (!n) m e

/-- FADD (R146, R148). -/
def execFadd (h : Hdr) (m : Arith) (d a b : Operand) (s : State) : Result :=
  laneEach (.fadd h m d a b) true false .f32 .f32 (f32Body m b (fun x y _ => fF32.add m.rnd x y)) s

/-- FSUB: a − b (R146, R148). -/
def execFsub (h : Hdr) (m : Arith) (d a b : Operand) (s : State) : Result :=
  laneEach (.fsub h m d a b) true false .f32 .f32 (f32Body m b (fun x y _ => fF32.add m.rnd x y.neg)) s

/-- FMUL (R146, R148). -/
def execFmul (h : Hdr) (m : Arith) (d a b : Operand) (s : State) : Result :=
  laneEach (.fmul h m d a b) true false .f32 .f32 (f32Body m b (fun x y _ => fF32.mul m.rnd x y)) s

/-- FFMA: a · b + d, rounded once (R148). -/
def execFfma (h : Hdr) (m : Arith) (d a b : Operand) (s : State) : Result :=
  laneEach (.ffma h m d a b) true false .f32 .f32 (f32Body m b (fun x y z => fF32.fma m.rnd x y z)) s

/-- FMIN (R149). -/
def execFmin (h : Hdr) (m : Arith) (d a b : Operand) (s : State) : Result :=
  laneEach (.fmin h m d a b) true false .f32 .f32 (f32Code m b (fF32.minmax false false)) s

/-- FMAX (R149). -/
def execFmax (h : Hdr) (m : Arith) (d a b : Operand) (s : State) : Result :=
  laneEach (.fmax h m d a b) true false .f32 .f32 (f32Code m b (fF32.minmax true false)) s

/-- FMINM (R149). -/
def execFminm (h : Hdr) (m : Arith) (d a b : Operand) (s : State) : Result :=
  laneEach (.fminm h m d a b) true false .f32 .f32 (f32Code m b (fF32.minmax false true)) s

/-- FMAXM (R149). -/
def execFmaxm (h : Hdr) (m : Arith) (d a b : Operand) (s : State) : Result :=
  laneEach (.fmaxm h m d a b) true false .f32 .f32 (f32Code m b (fF32.minmax true true)) s

/-- FSETP: bit t of predicate D (R150). -/
def execFsetp (h : Hdr) (m : FCmp) (d a b : Operand) (s : State) : Result :=
  laneEach (.fsetp h m d a b) false false .f32 .f32 (fun c s =>
    let r := fF32.cond m.cond (fF32.signs m.abs m.nega c.av.lo.toNat) (fF32.signs (m.abs && b.isReg) m.negb c.bv.lo.toNat)
    .fp (s.setPred c.wk c.t (pIdx d) r.1) r.2) s

/-- FCLASS (R151). -/
def execFclass (h : Hdr) (m : Arith) (d a : Operand) (s : State) : Result :=
  laneEach (.fclass h m d a) true false .f32 .f32 (valBody (fun c => BitVec.ofNat 64 (fclass c.av.lo.toNat))) s

/-- FRND (R152). -/
def execFrnd (h : Hdr) (m : Arith) (d a : Operand) (s : State) : Result :=
  laneEach (.frnd h m d a) true false .f32 .f32 (f32Code m (.v 0) (fun x _ => frnd m.rnd x)) s

/-- FFRC (R152). -/
def execFfrc (h : Hdr) (m : Arith) (d a : Operand) (s : State) : Result :=
  laneEach (.ffrc h m d a) true false .f32 .f32 (f32Code m (.v 0) (fun x _ => ffrc x)) s

/-- FSCALE: ABS and NEGA act on A; B is a signed integer (R152). -/
def execFscale (h : Hdr) (m : Arith) (d a b : Operand) (s : State) : Result :=
  laneEach (.fscale h m d a b) true false .f32 .int (fun c s =>
    fpOut c s (fscale m.rnd (codeA fF32 m c.av.lo.toNat) c.bv.lo.toInt)) s

/-- FGETEXP (R152). -/
def execFgetexp (h : Hdr) (m : Arith) (d a : Operand) (s : State) : Result :=
  laneEach (.fgetexp h m d a) true false .f32 .f32 (f32Code m (.v 0) (fun x _ => fgetexp x)) s

/-- FDIV (R148). -/
def execFdiv (h : Hdr) (m : Arith) (d a b : Operand) (s : State) : Result :=
  laneEach (.fdiv h m d a b) true false .f32 .f32 (f32Body m b (fun x y _ => fF32.div m.rnd x y)) s

/-- FSQRT (R146, R153). -/
def execFsqrt (h : Hdr) (m : Arith) (d a : Operand) (s : State) : Result :=
  laneEach (.fsqrt h m d a) true false .f32 .f32 (f32Body m (.v 0) (fun x _ _ => fF32.sqrt m.rnd x)) s

/-- FRCP (R146, R153). -/
def execFrcp (h : Hdr) (m : Arith) (d a : Operand) (s : State) : Result :=
  laneEach (.frcp h m d a) true false .f32 .f32 (f32Body m (.v 0) (fun x _ _ => fF32.rcp m.rnd x)) s

/-- FRSQ (R146, R153). -/
def execFrsq (h : Hdr) (m : Arith) (d a : Operand) (s : State) : Result :=
  laneEach (.frsq h m d a) true false .f32 .f32 (f32Body m (.v 0) (fun x _ _ => fF32.rsq m.rnd x)) s

/-- FEXP2 (R146, R153). -/
def execFexp2 (h : Hdr) (m : Arith) (d a : Operand) (s : State) : Result :=
  laneEach (.fexp2 h m d a) true false .f32 .f32 (f32Body m (.v 0) (fun x _ _ => fF32.exp2 m.rnd x)) s

/-- FLOG2 (R146, R153). -/
def execFlog2 (h : Hdr) (m : Arith) (d a : Operand) (s : State) : Result :=
  laneEach (.flog2 h m d a) true false .f32 .f32 (f32Body m (.v 0) (fun x _ _ => fF32.log2 m.rnd x)) s

/-- FSINPI (R146, R153). -/
def execFsinpi (h : Hdr) (m : Arith) (d a : Operand) (s : State) : Result :=
  laneEach (.fsinpi h m d a) true false .f32 .f32 (f32Body m (.v 0) (fun x _ _ => fF32.sinpi m.rnd x)) s

/-- FCOSPI (R146, R153). -/
def execFcospi (h : Hdr) (m : Arith) (d a : Operand) (s : State) : Result :=
  laneEach (.fcospi h m d a) true false .f32 .f32 (f32Body m (.v 0) (fun x _ _ => fF32.cospi m.rnd x)) s

/-- FTANH (R146, R153). -/
def execFtanh (h : Hdr) (m : Arith) (d a : Operand) (s : State) : Result :=
  laneEach (.ftanh h m d a) true false .f32 .f32 (f32Body m (.v 0) (fun x _ _ => fF32.tanh m.rnd x)) s

end Sys2Proof.Machine
end

