-- ==== Sys2Proof/Machine/Packed.lean ====
section
/-! DEFINITION. Packed F16 and B16 instructions, class 0x5 (R154, R155): each half on its own, in its own format. -/

namespace Sys2Proof.Machine

/-- The format of a packed type. -/
def halfFmt (ty : Ty) : FFmt := if ty = .f16x2 then fF16 else fB16

/-- Half k of an operand. -/
def halfOf (x : DWord) (k : Nat) : Nat := x.toNat / 65536 ^ k % 65536

/-- Joins the results of both halves; their conditions are OR-ed (R155). -/
def halves (f : Nat → Nat × Word) : Nat × Word :=
  let lo := f 0
  let hi := f 1
  (hi.1 * 65536 + lo.1, lo.2 ||| hi.2)

/-- A body over the decoded values of each half. -/
def halfBody (m : Arith) (b : Operand) (f : FVal → FVal → FVal → Nat × Word) (c : TC) (s : State) : TRes :=
  let g := halfFmt m.ty
  fpOut c s (halves (fun k => satIf g m.sat (f (g.decode (codeA g m (halfOf c.av k))) (g.decode (codeB g m b (halfOf c.bv k)))
    (g.decode (halfOf c.dv k)))))

/-- A body over the codes of each half. -/
def halfCode (m : Arith) (b : Operand) (f : Nat → Nat → Nat × Word) (c : TC) (s : State) : TRes :=
  let g := halfFmt m.ty
  fpOut c s (halves (fun k => f (codeA g m (halfOf c.av k)) (codeB g m b (halfOf c.bv k))))

/-- HADD2 (R154). -/
def execHadd2 (h : Hdr) (m : Arith) (d a b : Operand) (s : State) : Result :=
  laneEach (.hadd2 h m d a b) true false .half .half (halfBody m b (fun x y _ => (halfFmt m.ty).add m.rnd x y)) s

/-- HMUL2 (R154). -/
def execHmul2 (h : Hdr) (m : Arith) (d a b : Operand) (s : State) : Result :=
  laneEach (.hmul2 h m d a b) true false .half .half (halfBody m b (fun x y _ => (halfFmt m.ty).mul m.rnd x y)) s

/-- HFMA2: a · b + d, rounded once (R154). -/
def execHfma2 (h : Hdr) (m : Arith) (d a b : Operand) (s : State) : Result :=
  laneEach (.hfma2 h m d a b) true false .half .half (halfBody m b (fun x y z => (halfFmt m.ty).fma m.rnd x y z)) s

/-- HMIN2: as FMIN (R154). -/
def execHmin2 (h : Hdr) (m : Arith) (d a b : Operand) (s : State) : Result :=
  laneEach (.hmin2 h m d a b) true false .half .half (halfCode m b ((halfFmt m.ty).minmax false false)) s

/-- HMAX2: as FMAX (R154). -/
def execHmax2 (h : Hdr) (m : Arith) (d a b : Operand) (s : State) : Result :=
  laneEach (.hmax2 h m d a b) true false .half .half (halfCode m b ((halfFmt m.ty).minmax true false)) s

/-- HSETP2: predicates pN and pN+1 from the low and the high halves (R155). -/
def execHsetp2 (h : Hdr) (m : FCmp) (d a b : Operand) (s : State) : Result :=
  laneEach (.hsetp2 h m d a b) false false .half .half (fun c s =>
    let g := halfFmt m.ty
    let r : Nat → Bool × Word := fun k =>
      g.cond m.cond (g.signs m.abs m.nega (halfOf c.av k)) (g.signs (m.abs && b.isReg) m.negb (halfOf c.bv k))
    .fp ((s.setPred c.wk c.t (pIdx d) (r 0).1).setPred c.wk c.t (pIdx d + 1) (r 1).1) ((r 0).2 ||| (r 1).2)) s

end Sys2Proof.Machine
end

