-- ==== Sys2Proof/Machine/Convert.lean ====
section
/-! DEFINITION. Conversion, class 0x6 (R156 to R161). -/

namespace Sys2Proof.Machine

/-! ### Format slots (R105) -/

/-- The word of a format slot; the slots of a system warp hold zero, as an unbound slot does. -/
def State.fsWord (s : State) (wk : Nat) (n : Nat) : Word :=
  if isSys wk then 0 else (s.launch (s.block (bkOf wk)).lid).fs.getD n 0
def fsAfmt (w : Word) : Nat := (w.extractLsb' 28 4).toNat
def fsBfmt (w : Word) : Nat := (w.extractLsb' 24 4).toNat
def fsScale (w : Word) : Nat := (w.extractLsb' 22 2).toNat
def fsComp (w : Word) : Nat := (w.extractLsb' 20 2).toNat
/-- SCALE = none and COMP = dense (R107). -/
def fsPlain (w : Word) : Bool := fsScale w == 0 && fsComp w == 0

def vfmt : VFmt → FFmt
  | .f32 => fF32
  | .f16 => fF16
  | .b16 => fB16

/-- FCVT `.to` (R157): RoundTo; with AFMT = F32 a copy that makes every NaN canonical. -/
def fcvtTo (fm : Nat) (rnd : Rnd) (x : Nat) : Nat × Word := (fmtOf fm).convert rnd (fF32.decode x)

/-- FCVT `.from` (R157) and FUNPACK (R160): exact; a signalling NaN of F32, F16 or B16 raises IV. -/
def fcvtFrom (fm : Nat) (x : Nat) : Nat × Word :=
  let v := (fmtOf fm).decode x
  (toF32 v, if isSnan v then fIV else 0)

/-- The source of FCVT: an immediate is an F32 where the source is F32, a code elsewhere (R85). The slot is read at execution only, so
no check at decode sees payload[16] = 1 of an immediate that turns out a code (R93), and R85 states no outcome: the bit is ignored.
DESIGN CHOICE (log 66). -/
def fcvtSrc (dirFrom : Bool) (fm : Nat) (a : Operand) (v : DWord) : Nat :=
  match a with
  | .imm x => (immVal (if dirFrom && fm != 0 then .code else .f32) x).lo.toNat
  | _ => v.lo.toNat

/-- FCVT. -/
def execFcvt (h : Hdr) (rnd : Rnd) (dirFrom : Bool) (slot : BitVec 3) (d a : Operand) (s : State) : Result :=
  laneEach (.fcvt h rnd dirFrom slot d a) true false .f32 .int (fun c s =>
    let w := s.fsWord c.wk slot.toNat
    if !fsPlain w then .trap kSlot 0
    else
      let x := fcvtSrc dirFrom (fsAfmt w) a c.av
      fpOut c s (if dirFrom then fcvtFrom (fsAfmt w) x else fcvtTo (fsAfmt w) rnd x)) s

/-- The range of an integer type. -/
def ityLo : ITy → Int
  | .s32 => -2147483648
  | .s64 => -9223372036854775808
  | _ => 0
def ityHi : ITy → Int
  | .s32 => 2147483647
  | .z32 => 4294967295
  | .s64 => 9223372036854775807
  | .z64 => 18446744073709551615
def ityVal (ty : ITy) (x : DWord) : Int :=
  match ty with
  | .s32 => x.lo.toInt
  | .z32 => x.lo.toNat
  | .s64 => x.toInt
  | .z64 => x.toNat

/-- F2I (R158). -/
def execF2i (h : Hdr) (rnd : Rnd) (dt : ITy) (sf : VFmt) (d a : Operand) (s : State) : Result :=
  laneEach (.f2i h rnd dt sf d a) true false (if sf = .f32 then .f32 else .code) .int (fun c s =>
    let r := ((vfmt sf).decode c.av.lo.toNat).toInt rnd (ityLo dt) (ityHi dt)
    .fp (s.writeD2 c.d (BitVec.ofInt 64 r.1)) r.2) s

/-- I2F (R159): an exact zero is +0. -/
def execI2f (h : Hdr) (rnd : Rnd) (df : VFmt) (st : ITy) (d a : Operand) (s : State) : Result :=
  laneEach (.i2f h rnd df st d a) true false .int .int (fun c s =>
    fpOut c s ((vfmt df).roundDy rnd false (ityVal st c.av, 0))) s

/-! ### Packed elements (R98, R160) -/

/-- Registers that element k of a string from v register `base` touches. -/
def elemLocs (wk t base w k : Nat) : List Loc :=
  let lo := w * k / 32
  let hi := (w * k + w - 1) / 32
  locsV wk t (base + lo) (hi - lo + 1)

/-- A register of the element at or above nv, as `%tdst` (R344). -/
def State.elemBad (s : State) (wk : Nat) (ls : List Loc) : Option Word :=
  (ls.find? (fun l => (s.warp wk).alloc.nv ≤ l.idx)).map tdLoc

/-- The element's registers as one number, low register first, and back. -/
def State.strVal (s : State) (ls : List Loc) : Nat := ls.foldr (fun l n => (s.readLoc l).toNat + 4294967296 * n) 0

/-- FPACK: an indirect write of the one or two registers the element touches, which reads their old values. -/
def execFpack (h : Hdr) (rnd : Rnd) (slot : BitVec 3) (d a b : Operand) (s : State) : Result :=
  let locs := fun (c : TC) (s : State) => elemLocs c.wk c.t (vIdx d) (fmtOf (fsAfmt (s.fsWord c.wk slot.toNat))).width (c.bv.toNat % 128)
  laneEarly (.fpack h rnd slot d a b) false false .f32 .int
    (fun c s => if !c.bOk then none else (s.elemBad c.wk (locs c s)).map (fun td => (kRng, td)))
    (fun c s =>
      let w := s.fsWord c.wk slot.toNat
      let ls := locs c s
      match s.elemBad c.wk ls with
      | some td => .trap kRng td
      | none =>
        if ls.any (fun l => !s.readable l || !s.writable l) || !(((s.run c.key).bind (fun r => r.ind)).isSome || s.rangeRoom c.wk 1) then .wait s
        else match ls.find? (fun l => s.pois l) with
          | some l => .trap kPois (tdGran l)
          | none =>
            if !fsPlain w then .trap kSlot 0
            else
              let wd := (fmtOf (fsAfmt w)).width
              let r := fcvtTo (fsAfmt w) rnd c.av.lo.toNat
              let o := wd * (c.bv.toNat % 128) % 32
              let old := s.strVal ls
              let new := old - old / 2 ^ o % 2 ^ wd * 2 ^ o + r.1 * 2 ^ o
              .fp (((s.writeLocs ls (wordsOf ls.length new)).watchLocs c.wk ls ls).noteInd c.key (latOf c.g) ls) r.2) s

/-- A value of FUNPACK and its conditions: IV for a signalling NaN of F16 or B16 alone. -/
def funpackVal (fm : Nat) (x : Nat) : Nat × Word := ((fcvtFrom fm x).1, if fm = 0 then 0 else (fcvtFrom fm x).2)

/-- FUNPACK: an indirect read; TAKE consumes the granules that the element lies in. -/
def execFunpack (h : Hdr) (slot : BitVec 3) (d a b : Operand) (s : State) : Result :=
  let locs := fun (c : TC) (s : State) => elemLocs c.wk c.t (vIdx a) (fmtOf (fsAfmt (s.fsWord c.wk slot.toNat))).width (c.bv.toNat % 128)
  laneEarly (.funpack h slot d a b) false false .int .int
    (fun c s => if !c.bOk then none else (s.elemBad c.wk (locs c s)).map (fun td => (kRng, td)))
    (fun c s =>
    let w := s.fsWord c.wk slot.toNat
    let wd := (fmtOf (fsAfmt w)).width
    let ls := locs c s
    match s.elemBad c.wk ls with
    | some td => .trap kRng td
    | none =>
      if ls.any (fun l => !s.readable l) then .wait s
      else match ls.find? (fun l => s.pois l) with
        | some l => .trap kPois (tdGran l)
        | none =>
          if !fsPlain w then .trap kSlot 0
          else fpOut c ((s.watchLocs c.wk ls []).takeLocs c.h ls) (funpackVal (fsAfmt w) (s.strVal ls / 2 ^ (wd * (c.bv.toNat % 128) % 32) % 2 ^ wd))) s

/-! ### Block scales (R161) -/

/-- The exponent of the largest finite value of a format code of QBLK; none for the formats it refuses. -/
def qblkEmax (fm : Nat) : Option Int :=
  match fm with
  | 3 => some 7 | 4 => some 15 | 5 => some 3 | 6 => some 1 | 7 => some 2
  | _ => none

/-- The E8 scale of 32 values. -/
def qblkScale (emax : Int) (xs : List Nat) : Nat :=
  let m := (xs.filter (fun x => !isNan (fF32.decode x))).foldl (fun m x => max m (x % fF32.signBit)) 0
  match fF32.decode m with
  | .inf _ => 254
  | .nan _ => 127
  | .fin _ n e => if n = 0 then 127 else (max 0 (min 254 (e + Nat.log2 n - emax + 127))).toNat

/-- QBLK. -/
def execQblk (h : Hdr) (j : BlkIdx) (slot : BitVec 3) (d a : Operand) (s : State) : Result :=
  laneEach (.qblk h j slot d a) false false .int .int (fun c s =>
    let w := s.fsWord c.wk slot.toNat
    match qblkEmax (fsAfmt w), fsScale w with
    | some emax, 1 =>
      let xs := c.a.map (fun l => (s.readLoc l).toNat)
      let o := 8 * j.toNat
      let old := c.dv.lo.toNat
      .fp (s.writeD2 c.d (BitVec.ofNat 64 (old - old / 2 ^ o % 256 * 2 ^ o + qblkScale emax xs * 2 ^ o)))
        (if xs.any (fun x => isNan (fF32.decode x)) then fIV else 0)
    | _, _ => .trap kSlot 0) s

end Sys2Proof.Machine
end

