-- ==== Sys2Proof/Machine/Mem.lean ====
section
/-! DEFINITION. Accesses of lanes to memory: their issue, their walks and what stops them (R355 to R362, R404), the order
in which slices perform them (R243 to R245, R166, R171), check codes (R368), access and channel counters (R263 to R265,
R367), and the landing of loads (R165). -/

namespace Sys2Proof.Machine

/-! ### Issue -/

/-- Registers as one number, the first lowest. -/
def State.locsNat (s : State) (ls : List Loc) : Nat := ls.foldr (fun l n => (s.readLoc l).toNat + 4294967296 * n) 0

/-- The handle of a window that an operand names. -/
def State.winsOf (s : State) (wk : Nat) : Option OpS → List DWord
  | some ⟨.win w _, _, _, _, _, _⟩ => [Fmap.get 0 (s.warp wk).w w.toNat]
  | _ => []

/-- The instruction instance of the instruction in hand. -/
def State.runIid (s : State) (key : Nat) : Nat × State :=
  match s.run key with
  | some r => if r.iid = 0 then (s.nextId, s.bumpId.modRun key (fun r => { r with iid := s.nextId })) else (r.iid, s)
  | none => (s.nextId, s.bumpId)

/-- What an instruction asks of memory. -/
structure Req where
  kind : AccKind
  va   : DWord
  n    : Nat
  size : Size
  ty   : Ty
  oper : AOper
  acq  : Bool
  /-- Acquire of core scope or wider. -/
  wide : Bool
  rel  : Bool
  data : BitVec 128
  dest : Dest
  deriving DecidableEq, Repr

/-- The threads an access of this turn acts for: one, or all active ones where the instruction is uniform (R33). -/
def TC.who (c : TC) : Word := if sigUniform c.g then c.act else bit1 c.t

/-- The lane of a run; a slice instance has none (R255). -/
def laneOf (key : Nat) : Option Nat := if key < 0x10000000000 then some (key % 64) else none

/-- Registers a destination names. -/
def Dest.locs : Dest → List Loc
  | .regs ls => ls
  | _ => []

/-- The pieces of an access (R166); an atomic is one access, for it must be aligned (R170). -/
def Req.parts (q : Req) : List (DWord × Nat) := if q.kind = .atom ∨ q.kind = .red then [(q.va, q.n)] else pieces q.va q.n 2

/-- Issues an access: its pieces in ascending order, its destination pending (R68), its comparators (R323). -/
def State.issue (s : State) (c : TC) (q : Req) : State :=
  let (iid, s) := s.runIid c.key
  let core := coreOf c.wk
  let asid := (s.warp (parent c.wk)).asid
  let ts := maskList c.who
  let seen := (s.accList.filter (fun p => p.2.iid == iid)).flatMap (fun p => p.2.seen)
  let th := fun (f : Thread → Nat) => ts.foldl (fun m t => max m (f (s.thread c.wk t))) 0
  let s := foldS q.parts s (fun s p =>
    (s.setAcc s.nextId (some {
      wk := c.wk, t := c.t, iid := iid, lid := (s.block (bkOf c.wk)).lid, bidx := (s.block (bkOf c.wk)).bidx, mask := c.who, pc := c.pc, kind := q.kind, va := p.1, n := p.2, off := (p.1 - q.va).toNat,
      size := q.size, total := q.n, ty := q.ty, oper := q.oper, acq := q.acq, acqReg := q.wide, rel := q.rel, data := q.data,
      dest := q.dest, wins := s.winsOf c.wk c.g.d, st := .issued, held := false, barLoad := th (fun x => x.barLoad), barAll := th (fun x => x.barAll), tlog := 0,
      lane := laneOf c.key, asid := asid, pa := 0, swz := 0, pkind := 1, cgrp := none, tag := none, tseq := 0, rseq := 0, turn := 0,
      stuck := none, seen := seen })).bumpId)
  let s := foldS (q.dest.locs.filter (fun l => l.wk == c.wk)) s (fun s l => s.setPend iid l)
  s.noteHits core c.wk (s.watchMem core asid q.va q.n (q.kind != .store) (q.kind != .load))

/-! ### Order (R245) -/

def Access.unperformed (a : Access) : Bool := a.st != .served
def Access.reads (a : Access) : Bool := a.kind == .load || a.kind == .atom
def Access.inLog (a : Access) : Bool := a.tlog != 0 || a.st == .logged || a.st == .waitLog
def Access.isUn (a : Access) : Bool := a.st == .ready && a.pkind == 2

/-- Accesses of one thread. -/
def Access.sameThread (a b : Access) : Bool := a.wk == b.wk && a.lid == b.lid && a.bidx == b.bidx && (a.mask &&& b.mask) != 0

/-- Two accesses of one warp share a byte by address. -/
def overlapVA (a b : Access) : Bool := a.va.toNat < b.va.toNat + b.n && b.va.toNat < a.va.toNat + a.n

def AccKind.perm : AccKind → Perm
  | .load => .rd | .store => .wr | .atom => .rw | .red => .rw

/-- Where an access lies in physical memory, as far as that can be said before it is performed: a page that is not present names no
physical byte yet (log 13). -/
def State.paOf (s : State) (a : Access) : Option Nat :=
  match a.st with
  | .ready => some a.pa
  | .served => some a.pa
  | _ => match s.xlateD a.asid a.va a.kind.perm with
    | .ok x => some x.pa
    | .error _ => none

/-- Two accesses of one warp share a byte: by physical address where both are known, so that aliases are one place (R243), else by
address. One whose walk is not done may share a byte with any; DEDUCED (log 13). -/
def State.touch (s : State) (a b : Access) : Bool :=
  a.st == .issued ||
  match s.paOf a, s.paOf b with
  | some x, some y => (x < y + b.n && y < x + a.n) || (a.st != .ready && overlapVA a b)
  | _, _ => overlapVA a b

/-- The accesses of some threads of a warp that are not performed, and the loads and atomics whose data is not in place. -/
def State.accOf (s : State) (wk : Nat) (mask : Word) : List (Nat × Access) :=
  s.accList.filter (fun p => p.2.wk == wk && p.2.lid == (s.block (bkOf wk)).lid && p.2.bidx == (s.block (bkOf wk)).bidx &&
    (p.2.mask &&& mask) != 0)

/-- Access `a`, number i, of a thread comes before its later access `b` (R244 to R246): `a` is not performed, or its data is not in
place: a release waits for every earlier register write, of UN loads too. One whose page is not known may be SO as `b` is (log 13). -/
def State.orderedBefore (s : State) (i : Nat) (a b : Access) : Bool :=
  (a.unperformed &&
    ((s.touch a b && (a.st == .issued || a.kind != .load || b.kind != .load || !(a.isUn && b.isUn))) ||
     (b.pkind == 0 && (a.st != .ready || a.pkind == 0)) ||
     (a.acq && !b.isUn) || (b.kind != .load && i < b.barAll))) ||
  (b.rel && (a.reads || (a.unperformed && !a.isUn))) ||
  (a.reads && a.unperformed && i < b.barLoad)

/-- An access may be performed: it has reached its slice, every access that R245 puts before it is performed, and the stores of one
instruction to one byte are taken in thread order, whichever address names it (R165, R243). -/
def State.mayServe (s : State) (id : Nat) (b : Access) : Bool :=
  b.st == .ready && b.stuck.isNone && Fmap.get 0 s.travel id ≤ s.clk && s.spanReach (dieOf (coreOf b.wk)) b.swz b.pa b.n && s.accList.all (fun p =>
    !(p.1 < id && p.2.wk == b.wk && p.2.lid == b.lid && p.2.bidx == b.bidx &&
      (if (p.2.mask &&& b.mask) != 0 then s.orderedBefore p.1 p.2 b
       else p.2.iid == b.iid && b.kind == .store && p.2.unperformed && s.touch p.2 b)))

/-- Logged accesses that hold a thread at an access of its own (R362): a load or an atomic of a logged byte, an access to
an SO page. -/
def State.logHold (s : State) (c : TC) (q : Req) : List Nat :=
  let ls := (s.accOf c.wk c.who).filter (fun p => p.2.inLog)
  if ls = [] then [] else
  let so := q.parts.any (fun r => match (s.lookup (coreOf c.wk) none (s.warp (parent c.wk)).asid r.1).1 with
    | .ok leaf _ => (leaf.extractLsb' 74 2).toNat == 0
    | .bad _ _ => false)
  let same (a : Access) : Bool :=
    (a.va.toNat < q.va.toNat + q.n && q.va.toNat < a.va.toNat + a.n) ||
    q.parts.any (fun r => match s.paOf a, s.xlateD (s.warp (parent c.wk)).asid r.1 q.kind.perm with
      | some x, .ok y => x < y.pa + r.2 && y.pa < x + a.n
      | _, _ => false)
  (ls.filter (fun p => so || ((q.kind == .load || q.kind == .atom) && same p.2))).map Prod.fst

/-! ### Side logs (R362) -/

def State.logCount (s : State) (wk : Nat) : Nat := (s.accList.filter (fun p => p.2.wk == wk && p.2.tlog != 0)).length

/-- An older store of the warp waits for room in its log. -/
def State.olderWaits (s : State) (wk id : Nat) : Bool := s.accList.any (fun p => p.1 < id && p.2.wk == wk && p.2.st == .waitLog)

/-- A store or RED enters its warp's log, or waits for room behind those that wait. -/
def State.enterLog (s : State) (id : Nat) : State :=
  match s.acc id with
  | none => s
  | some a0 =>
    let a := { a0 with tag := a0.tag <|> some s.dev.qcnt, turn := 0 }
    if a.tlog ≠ 0 then s.setAcc id (some { a with st := .logged })
    else if s.logCount a.wk < 64 && !s.olderWaits a.wk id then (s.setAcc id (some { a with st := .logged, tlog := s.nextId })).bumpId
    else s.setAcc id (some { a with st := .waitLog })

/-- The later stores and REDs of its threads that overlap it follow a logged access into the log. -/
def State.logBehind (s : State) (id : Nat) : State :=
  match s.acc id with
  | none => s
  | some a =>
    foldS (s.accList.filter (fun p => id < p.1 && p.2.sameThread a && !p.2.reads && p.2.st == .ready && p.2.tlog == 0 && s.touch a p.2))
      s (fun s p => s.enterLog p.1)

/-- A store or RED overlaps a byte that its thread has in the log. -/
def State.behindLog (s : State) (id : Nat) (a : Access) : Bool :=
  !a.reads && a.tlog == 0 && s.accList.any (fun p => p.1 < id && p.2.sameThread a && p.2.inLog && s.touch p.2 a)

/-- SIDE_LOG_ENTER: the oldest waiting store of a warp enters its log. -/
def State.sideLog (s : State) (wk : Nat) : State :=
  match s.accList.find? (fun p => p.2.wk == wk && p.2.st == .waitLog) with
  | none => s
  | some p => if s.logCount wk < 64 then (s.enterLog p.1).logBehind p.1 else s

/-! ### Failures (R356, R357, R365) -/

def sizeCode : Size → Nat
  | .b8 => 0 | .b16 => 1 | .b32 => 2 | .b64 => 3 | .b128 => 4 | .s8 => 5 | .s16 => 6

/-- ACC of R359. -/
def AccKind.code : AccKind → Nat
  | .load => 0 | .store => 1 | .atom => 2 | .red => 2

/-- SIZE of an access in a record; 4 or 8 bytes for an atomic. -/
def Access.sizeOf (a : Access) : Nat := if a.kind = .atom ∨ a.kind = .red then (if a.total = 8 then 3 else 2) else sizeCode a.size

/-- AUX: the destination as `%tdst` has it (R340, R365). -/
def Access.aux (a : Access) : DWord :=
  match a.dest with
  | .regs [l] => (tdLoc l).setWidth 64
  | .regs (l :: _ :: []) => (tdLoc l ||| 0x20000000).setWidth 64
  | .regs (l :: _) => (tdLoc l).setWidth 64
  | _ => 0

/-- Fills the entry that load `iid` reserved (R168). -/
def State.fillQ (s : State) (wk n iid : Nat) (x : Word) : State :=
  s.modWarp wk (fun w => { w with q := Fmap.set [] w.q n ((Fmap.get [] w.q n).map (fun e => if e.iid == iid && !e.filled then ⟨true, x, iid⟩ else e)) })

/-- The write-pending range that an indirect D takes whose result comes later, one for the instruction, spanning its threads' targets
(R69); `none` while all 16 entries are in use. -/
def State.accRange (s : State) (key wk : Nat) (d : Option Operand) (ls : List Loc) : Option State :=
  match d, ls with
  | some (.ind _ _), l :: _ =>
    let (iid, s) := s.runIid key
    let rs := s.rangesNow wk
    match rs.find? (fun r => r.owner == .acc iid) with
    | some r =>
      let lo := min r.first l.idx
      let hi := max (r.first + r.count) (l.idx + ls.length)
      some (s.modWarp wk (fun w => { w with ranges := rs.map (fun x => if x.owner == .acc iid then { x with first := lo, count := hi - lo } else x) }))
    | none =>
      if rs.length ≥ 16 then none
      else some (s.modWarp wk (fun w => { w with ranges := rs ++ [⟨true, false, l.idx, ls.length, .acc iid⟩] }))
  | _, _ => some s

/-- The range entry of an indirect D ends when the last result is in place (R69). -/
def State.dropAccRange (s : State) (wk iid : Nat) : State :=
  if (s.warp wk).ranges = [] ∨ s.accList.any (fun p => p.2.iid == iid) ∨
      (List.range 32).any (fun t => (s.thread wk t).vPend.any (fun p => p.2 == iid)) then s
  else s.modWarp wk (fun w => { w with ranges := w.ranges.filter (fun r => r.owner != .acc iid) })

/-- The data of an instruction is no longer due in a register. -/
def State.clearDue (s : State) (iid : Nat) (l : Loc) : State := if s.pend l = iid then s.setPend 0 l else s

/-- Takes away an access and the fault it has not presented, unless another access needs that page (R357). -/
def State.dropAcc (s : State) (id : Nat) : State :=
  match s.acc id with
  | none => s
  | some a =>
    let s := s.setAcc id none
    if s.accList.any (fun p => p.2.iid == a.iid && p.2.va.toNat / 65536 == a.va.toNat / 65536) then s
    else if (s.die (dieOf (coreOf a.wk))).freqs = [] then s
    else s.modDie (dieOf (coreOf a.wk)) (fun d => { d with freqs := d.freqs.filter (fun f => !(f.iid == a.iid && f.e.vpn == a.va.toNat / 65536)) })

/-- What a failed access leaves: a load or atomic poisons its whole destination or fills its entry with 0, and its other
pieces go; a store or RED is not performed. -/
def State.failOne (s : State) (p : Nat × Access) : State :=
  let a := p.2
  if a.reads then
    let s := foldS ((s.accList.filter (fun q => q.2.iid == a.iid && q.2.t == a.t)).map Prod.fst) s (fun s id => s.dropAcc id)
    let s := match a.dest with
      | .regs ls => foldS ls s (fun s l => (s.clearDue a.iid l).poison l)
      | .queue wk n => s.fillQ wk n a.iid 0
      | .none => s
    s.dropAccRange a.wk a.iid
  else s.dropAcc p.1

/-- Accesses of one instruction fail together with one cause and one record (R356). -/
def State.failAccs (s : State) (ps : List (Nat × Access)) (cause : Nat) : State :=
  match ps with
  | [] => s
  | p :: _ =>
    let mask := ps.foldl (fun m q => m ||| q.2.mask) 0
    let s := s.recordFor p.2.lid p.2.bidx (parent p.2.wk) mask p.2.pc p.2.aux 0 0 0 0 4 (detail4 p.2.va cause p.2.kind.code p.2.sizeOf)
    foldS ps s (fun s q => s.failOne q)

/-! ### Walks (R355, R356) -/

/-- The walking accesses of one instruction to one page. -/
def State.walkGroup (s : State) (a : Access) : List (Nat × Access) :=
  s.accList.filter (fun p => p.2.iid == a.iid && p.2.st == .issued && p.2.va.toNat / 65536 == a.va.toNat / 65536)

/-- An access of the group at translation x, which was read at number `rseq`. -/
def State.translated (s : State) (x : Xl) (rseq : Nat) (first : Access) (p : Nat × Access) : State :=
  s.setAcc p.1 (some { p.2 with st := .ready, pa := x.pa - first.va.toNat % 65536 + p.2.va.toNat % 65536, swz := x.swz, pkind := x.kind,
                                cgrp := x.cgrp, tag := p.2.tag <|> some s.dev.qcnt, tseq := s.tseq, rseq := rseq, turn := 0 })

/-- An access of the group whose page is not present. -/
def State.notPresent (s : State) (p : Nat × Access) : State :=
  if p.2.reads then
    s.setAcc p.1 (some { p.2 with st := .parked, turn := 0, tag := p.2.tag <|> some s.dev.qcnt, held := (match p.2.dest with | .queue _ _ => false | _ => true) })
  else (s.enterLog p.1).logBehind p.1

/-- Its walk waits for those of the accesses that a REPLAY of its die presents again before it, as far as they can be done (R361). -/
def State.walkBehind (s : State) (a : Access) : Bool :=
  a.turn != 0 && s.accList.any (fun p => p.2.turn != 0 && p.2.turn < a.turn && p.2.st == .issued &&
    dieOf (coreOf p.2.wk) == dieOf (coreOf a.wk) && s.walkReach (coreOf p.2.wk) p.2.lane p.2.asid p.2.va)

/-- Accesses that a REPLAY of a die has presented again are still to walk; fetches and engine operations come after them (R361). -/
def State.replaying (s : State) (d : Nat) : Bool :=
  s.accList.any (fun p => p.2.turn != 0 && p.2.st == .issued && dieOf (coreOf p.2.wk) == d &&
    s.walkReach (coreOf p.2.wk) p.2.lane p.2.asid p.2.va)

/-- WALK_COMPLETE: the walk that access `aid` waits for ends, for every access of its instruction to that page. -/
def State.walkDone (s : State) (aid : Nat) : State :=
  match s.acc aid with
  | none => s
  | some a =>
    if a.st ≠ .issued ∨ !s.walkReach (coreOf a.wk) a.lane a.asid a.va ∨ s.walkBehind a then s else
    let grp := s.walkGroup a
    let s0 := foldS (grp.filter (fun p => s.behindLog p.1 p.2)) s (fun s p => s.enterLog p.1)
    let rest := grp.filter (fun p => !s.behindLog p.1 p.2)
    match rest with
    | [] => s0
    | f :: _ =>
      let rseq := match s0.lastHit (coreOf a.wk) a.lane a.asid f.2.va with
        | some p => p.2
        | none => s0.tseq
      match s0.xlate (coreOf a.wk) a.lane a.asid f.2.va a.kind.perm with
      | (.ok x, s1) =>
        let atomic := a.kind = .atom ∨ a.kind = .red
        let skew := if atomic then rest.filter (fun p => p.2.va.toNat % p.2.total ≠ 0) else []
        let good := if atomic then rest.filter (fun p => p.2.va.toNat % p.2.total = 0) else rest
        let s2 := s1.failAccs skew cALIGN
        if atomic ∧ tierOf x.pa = some 2 then s2.failAccs good cHOSTATOM
        else foldS good s2 (fun s p => s.translated x rseq f.2 p)
      | (.error (c, lv), s1) =>
        if c = cNOTPRES then
          foldS rest (s1.addReq (coreOf a.wk) a.iid a.asid f.2.va (BitVec.ofNat 2 a.kind.code) lv false) (fun s p => s.notPresent p)
        else s1.failAccs rest c

/-! ### The fault buffer (R359, R360, R404) -/

/-- One request reaches the buffer: it joins an entry of its page, is appended, or is dropped. -/
def Die.present (d : Die) (e : FbE) : Die :=
  if d.fb.any (fun x => x.asid == e.asid && x.vpn == e.vpn) then
    { d with fb := d.fb.map (fun x => if x.asid == e.asid && x.vpn == e.vpn then { x with nreq := min 65535 (x.nreq + 1) } else x) }
  else if d.fb.length < 8 then { d with fb := d.fb ++ [{ e with nreq := 1 }] }
  else { d with dropped := true }

/-- The last of an instruction's requests has finished its walk. -/
def State.faultReady (s : State) (r : FReq) : Bool :=
  !s.accList.any (fun p => p.2.iid == r.iid && p.2.st == .issued) && !s.runList.any (fun p => p.2.iid == r.iid)

/-- One request reaches the buffer before another of its cycle (R360, R404): by core, lanes before engines, by issue, by page. -/
def FReq.before (a b : FReq) : Bool :=
  a.ord < b.ord || (a.ord == b.ord && ((!a.e.eng && b.e.eng) || (a.e.eng == b.e.eng && (a.iid < b.iid || (a.iid == b.iid && a.e.vpn < b.e.vpn)))))

/-- Requests of a cycle in that order. -/
def insReq (r : FReq) : List FReq → List FReq
  | [] => [r]
  | x :: l => if r.before x then r :: x :: l else x :: insReq r l

/-- FAULT_PRESENT: the faults whose instructions have finished their walks, and those of engine operations, reach the buffer together. -/
def State.faultPresent (s : State) (d : Nat) : State :=
  let go := (s.die d).freqs.filter (fun r => s.faultReady r)
  if go = [] then s else
  s.modDie d (fun D => (go.foldl (fun l q => insReq q l) []).foldl (fun D q => D.present q.e)
    { D with freqs := D.freqs.filter (fun q => !go.contains q) })

/-! ### Slices (R171, R243, R263, R265, R368) -/

/-- MNQ_OVF_RETRY (R367): groups with OVF are appended in ascending order while the queue has room. -/
def State.mnqRetry (s : State) : State :=
  foldS ((s.dev.group.filter (fun p => p.2.ovf)).map Prod.fst) s (fun s g =>
    let G := Fmap.get {} s.dev.group g
    if s.dev.mnq.length < 64 then
      s.setDev { s.dev with group := Fmap.set {} s.dev.group g { G with queued := true, ovf := false }, mnq := s.dev.mnq ++ [(g, G.cross)] }
    else s)

/-- What the check code of a read finds in the word at pa (R368): counted, and a lasting error stays. -/
def State.eccAt (s : State) (swz pa : Nat) (e : Ecc) : State :=
  match sliceOf s.dev.chtab swz pa with
  | none => s
  | some sl =>
    match e with
    | .clean => s
    | .corrected => if s.badAt swz pa 1 then s else s.bumpCnt (0xE40 + 2 * sl) 1
    | .lasting => if s.badAt swz pa 1 then s else (s.markBad swz pa 1).bumpCnt (0xE41 + 2 * sl) 1

/-- New memory value of an atomic of w bits (R169). -/
def atomNew (oper : AOper) (ty : Ty) (old b : DWord) (swap : DWord) : DWord :=
  match oper with
  | .add => old + b
  | .min => if tyInt ty old ≤ tyInt ty b then old else b
  | .max => if tyInt ty old ≤ tyInt ty b then b else old
  | .and => old &&& b
  | .or => old ||| b
  | .xor => old ^^^ b
  | .xchg => b
  | .cas => if old = b then swap else old
  | .fadd => (f32Add old.lo b.lo).setWidth 64
  | .inc => if b.toNat ≤ old.toNat then 0 else old + 1

/-- The low n bytes of an operand. -/
def cutTo (n : Nat) (x : DWord) : DWord := if n = 4 then (x.lo).setWidth 64 else x

/-- A slice performs one access; `false` where a word it reads has a lasting error. -/
def State.perform (s : State) (id : Nat) (a : Access) : State × Bool :=
  match a.kind with
  | .load =>
    if s.badAt a.swz a.pa a.n then (s, false)
    else (s.setAcc id (some { a with st := .served, data := BitVec.ofNat 128 (leNat (s.readMem a.swz a.pa a.n) * 2 ^ (8 * a.off)) }), true)
  | .store => ((s.writeMem a.swz a.pa (((leBytes 16 a.data.toNat).drop a.off).take a.n)).setAcc id none, true)
  | _ =>
    if s.badAt a.swz a.pa a.n then (s, false) else
    let old : DWord := BitVec.ofNat 64 (leNat (s.readMem a.swz a.pa a.n))
    let b := cutTo a.total (a.data.extractLsb' 0 64)
    let swap : DWord := if a.total = 4 then a.data.extractLsb' 32 32 |>.setWidth 64 else a.data.extractLsb' 64 64
    let new := atomNew a.oper a.ty old b swap
    let s := s.writeMem a.swz a.pa (leBytes a.n new.toNat)
    (if a.kind = .atom then s.setAcc id (some { a with st := .served, data := old.setWidth 128 }) else s.setAcc id none, true)

/-- Accesses of one instruction that begin in one line are one request (R171, R180). -/
def State.lineGroup (s : State) (a : Access) : List (Nat × Access) :=
  s.accList.filter (fun p => p.2.iid == a.iid && p.2.st == .ready && p.2.pa / 128 == a.pa / 128 && p.2.swz == a.swz)

/-- An atomic request stands in the input stage of its slice: its instruction has issued and translated all of it, and each access of
the request may be performed. Arrival is taken in the order of translation; DEDUCED (log 64). -/
def State.arrived (s : State) (a : Access) : Bool :=
  (a.kind == .atom || a.kind == .red) && a.st == .ready && (s.lineGroup a).all (fun p => s.mayServe p.1 p.2) &&
    !s.accList.any (fun p => p.2.iid == a.iid && p.2.st == .issued) && !s.runList.any (fun p => p.2.iid == a.iid)

/-- Input port of a request (R171): core number mod 4. -/
def Access.inPort (a : Access) : Nat := coreOf a.wk % 4

/-- The request that a slice takes next: of the first port from the one whose turn it is, the first to have arrived. -/
def State.sliceTakes (s : State) (sl : Nat) : Option (Nat × Access) :=
  let l := s.accList.filter (fun p => sliceOf s.dev.chtab p.2.swz p.2.pa == some sl && s.arrived p.2)
  let key (p : Nat × Access) : Nat := (p.2.inPort + 4 - Fmap.get 0 s.dev.slicePort sl) % 4
  l.foldl (fun m p => match m with
    | none => some p
    | some q => if key p < key q || (key p == key q && p.2.tseq < q.2.tseq) then some p else some q) none

/-- It is this request's turn at its slice. -/
def State.itsTurn (s : State) (a : Access) : Bool :=
  match sliceOf s.dev.chtab a.swz a.pa with
  | none => false
  | some sl => match s.sliceTakes sl with
    | some p => p.2.iid == a.iid && p.2.pa / 128 == a.pa / 128
    | none => false

/-- The slice has served a port, and its next turn begins with the one after it. -/
def State.portServed (s : State) (a : Access) : State :=
  match sliceOf s.dev.chtab a.swz a.pa with
  | none => s
  | some sl => s.setDev { s.dev with slicePort := Fmap.set 0 s.dev.slicePort sl ((a.inPort + 1) % 4) }

/-- SLICE_REQUEST_SERVE: the request of access `aid` is taken and performed, its accesses in ascending thread order. -/
def State.serveReq (s : State) (aid : Nat) (e : Ecc) : State :=
  match s.acc aid with
  | none => s
  | some a =>
    let atomic := a.kind == .atom || a.kind == .red
    let grp := s.lineGroup a
    let ok := if atomic then s.itsTurn a else s.mayServe aid a
    if a.st ≠ .ready ∨ !ok then s else
    let s := if atomic then s.portServed a else s
    let s := if a.kind = .store then s else s.eccAt a.swz a.pa e
    let lines := (grp.flatMap (fun p => [p.2.pa / 128, (p.2.pa + p.2.n - 1) / 128])).eraseDups.filter (fun l => !a.seen.contains l)
    let s := foldS ((s.accList.filter (fun p => p.2.iid == a.iid)).map Prod.fst) s (fun s i => s.modAcc i (fun b => { b with seen := b.seen ++ lines }))
    let grp := grp.filterMap (fun p => (s.acc p.1).map (fun b => (p.1, b)))
    let s := foldS lines s (fun s l => s.countReq a.swz (128 * l) (a.kind != .load) a.cgrp)
    let res := grp.foldl (fun (r : State × List (Nat × Access)) p =>
      if r.1.mayServe p.1 p.2 then
        match r.1.perform p.1 p.2 with
        | (s, true) => (s, r.2)
        | (s, false) => (s, r.2 ++ [p])
      else r) (s, [])
    ((if a.kind == .store then res.1.healCover a.swz ((grp.filter (fun p => (res.1.acc p.1).isNone)).map (fun p => (p.2.pa, p.2.n))) else res.1)).failAccs
      res.2 cUNCORR

/-! ### Landing (R164, R165) -/

/-- The register value of loaded bytes. -/
def extend (size : Size) (x : Nat) : Nat :=
  match size with
  | .s8 => ((BitVec.ofNat 8 x).signExtend 32).toNat
  | .s16 => ((BitVec.ofNat 16 x).signExtend 32).toNat
  | _ => x

/-- LOAD_DATA_LAND: the data of a thread's load or atomic reaches its registers or its queue entry. -/
def State.land (s : State) (iid t : Nat) : State :=
  let ps := s.accList.filter (fun p => p.2.iid == iid && p.2.t == t && p.2.reads)
  match ps with
  | [] => s
  | p :: _ =>
    if ps.any (fun q => q.2.st != .served) then s else
    let x := extend p.2.size (ps.foldl (fun n q => n + q.2.data.toNat) 0)
    let s := foldS (ps.map Prod.fst) s (fun s id => s.setAcc id none)
    let s := match p.2.dest with
      | .regs ls => (foldS ls s (fun s l => s.clearDue iid l)).writeLocs ls (wordsOf ls.length x)
      | .queue wk n => s.fillQ wk n iid (BitVec.ofNat 32 x)
      | .none => s
    s.dropAccRange p.2.wk iid

/-! ### The quiescence counter (R257) -/

/-- The tags of what is in flight: accesses, parked fetches, stopped engine operations, spills and fills, and what a page holds at a
port (R388, R389). -/
def State.tags (s : State) : List Nat :=
  s.accList.filterMap (fun p => p.2.tag) ++ s.threads.filterMap (fun p => p.2.ftag) ++
    s.cmdList.filterMap (fun p => p.2.qtag) ++ s.warps.filterMap (fun p => p.2.stkTag) ++
    s.ports.flatMap (fun p => p.2.entry.filterMap (fun e => e.2.qtag) ++ p.2.held.filterMap (fun a => a.qtag)) ++
    s.scheds.filterMap (fun p => p.2.run.bind (fun r => r.qtag))

/-- QCNT_ADVANCE: no access tagged below the present value is in flight, and 256 cycles have passed. -/
def State.qcntAdvance (s : State) : State :=
  if s.tags.any (fun q => q < s.dev.qcnt) ∨ s.clk < s.dev.qcntClk + 256 then s
  else s.setDev { s.dev with qcnt := s.dev.qcnt + 1, qcntClk := s.clk }

end Sys2Proof.Machine
end

