-- ==== Sys2Proof/Machine/LoadStore.lean ====
section
/-! DEFINITION. Loads, stores, atomics and fences, classes 0x7 and 0x8 (R162 to R173), and the steps of memory and
translation that complete them. -/

namespace Sys2Proof.Machine

/-- A scope that orders register accesses (R173, R249). -/
def scopeWide : Scope → Bool
  | .core | .clu | .dev | .sys => true
  | _ => false

/-- Earlier accesses that a release waits for (R246): they are performed, and what they load is in place. -/
def State.relDue (s : State) (wk t upTo : Nat) (single : Bool) (act : Act) : Bool :=
  (s.accOf wk (bit1 t)).any (fun p => p.1 < upTo && !(single && p.2.pkind == 2 && p.2.st != .issued) &&
    (match act with
     | .fence false => p.2.kind == .store || p.2.kind == .red
     | _ => true))

/-- A thread of the mask is held while the release it made waits. -/
def State.holdRel (s : State) (wk : Nat) (who : Word) (upTo : Nat) (single : Bool) (act : Act) : State :=
  foldS (maskList who) s (fun s t =>
    if s.relDue wk t upTo single act then s.modThread wk t (fun r => { r with hold := .release upTo single act }) else s)

/-- The core has room for so many more requests (R14). -/
def State.reqRoom (s : State) (wk n : Nat) : Bool := s.outstanding (coreOf wk) + n ≤ 8192

/-- The body of every access: held behind the log (R362), room among the core's requests, a range entry, the accesses, and the hold of
a release. -/
def memBody (d : Operand) (q : Req) (c : TC) (s : State) : TRes :=
  match s.logHold c q with
  | [] =>
    if !s.reqRoom c.wk q.parts.length then .wait s else
    match s.accRange c.key c.wk (some d) c.d with
    | none => .wait s
    | some s1 =>
      let s2 := s1.issue c q
      .done (if q.rel then s2.holdRel c.wk c.who s1.nextId true (.fence true) else s2)
  | l => .park s l

/-- The address of R162. -/
def TC.va (c : TC) : DWord := c.av + c.bv

def loadReq (size : Size) (acq wide : Bool) (dest : Dest) (c : TC) : Req :=
  ⟨.load, c.va, size.bytes, size, .b32, .add, acq, wide, false, 0, dest⟩
def storeReq (size : Size) (rel : Bool) (c : TC) (s : State) : Req :=
  ⟨.store, c.va, size.bytes, size, .b32, .add, false, false, rel, BitVec.ofNat 128 (s.locsNat c.d), .none⟩

/-- LD into a queue (R168): one entry for the instruction, reserved at issue. -/
def queueLoad (size : Size) (n : Nat) (c : TC) (s : State) : TRes :=
  let p := parent c.wk
  if s.queueLen p n ≥ 16 || !s.reqRoom c.wk 2 then .wait s else
  let q := loadReq size false false (.queue p n) c
  match s.logHold c q with
  | [] =>
    let (iid, s1) := s.runIid c.key
    .done ((s1.pushQ p n ⟨false, 0, iid⟩).issue { c with g := { c.g with d := none } } q)
  | l => .park s l

/-- LD. -/
def execLd (h : Hdr) (size : Size) (d a b : Operand) (s : State) : Result :=
  match d with
  | .q n => laneOnce (.ld h size d a b) .int .int (queueLoad size n.toNat) s
  | _ => laneEach (.ld h size d a b) true false .int .int (fun c s => memBody d (loadReq size false false (.regs c.d) c) c s) s

/-- ST. -/
def execSt (h : Hdr) (size : Size) (d a b : Operand) (s : State) : Result :=
  laneEach (.st h size d a b) true false .int .int (fun c s => memBody (.v 0) (storeReq size false c s) c s) s

/-- LDA (R167). -/
def execLda (h : Hdr) (scope : Scope) (size : Size) (d a b : Operand) (s : State) : Result :=
  laneEach (.lda h scope size d a b) true false .int .int (fun c s => memBody d (loadReq size true (scopeWide scope) (.regs c.d) c) c s) s

/-- STL (R167). -/
def execStl (h : Hdr) (scope : Scope) (size : Size) (d a b : Operand) (s : State) : Result :=
  laneEach (.stl h scope size d a b) true false .int .int (fun c s => memBody (.v 0) (storeReq size true c s) c s) s

/-- Operand b of an atomic, registers in order or a value. -/
def TC.atomData (c : TC) (s : State) : BitVec 128 := if c.b = [] then c.bv.setWidth 128 else BitVec.ofNat 128 (s.locsNat c.b)

def atomReq (kind : AccKind) (ord : AOrd) (ty : Ty) (oper : AOper) (dest : Dest) (c : TC) (s : State) : Req :=
  let acq := ord == .acq || ord == .ar
  ⟨kind, c.av, 4 * ty.regs, .b32, ty, oper, acq, acq, ord == .rel || ord == .ar, c.atomData s, dest⟩

def atomImm (ty : Ty) : ImmK := if ty = .f32 then .f32 else .int

/-- ATOM. -/
def execAtom (h : Hdr) (ord : AOrd) (ty : Ty) (oper : AOper) (d a b : Operand) (s : State) : Result :=
  laneEach (.atom h ord ty oper d a b) true false .int (atomImm ty) (fun c s => memBody d (atomReq .atom ord ty oper (.regs c.d) c s) c s) s

/-- RED. -/
def execRed (h : Hdr) (ord : AOrd) (ty : Ty) (oper : AOper) (a b : Operand) (s : State) : Result :=
  laneEach (.red h ord ty oper a b) true false .int (atomImm ty) (fun c s => memBody (.v 0) (atomReq .red ord ty oper .none c s) c s) s

/-- FENCE (R173): the marks that order a thread's accesses, and at core scope or wider its later register accesses behind its earlier
loads and atomics; `.rel` and `.ar` hold it for its stores and REDs. -/
def execFence (h : Hdr) (scope : Scope) (kind : FenceKind) (s : State) : Result :=
  laneEach (.fence h scope kind) false false .int .int (fun c s =>
    let n := s.nextId
    let s := s.modThread c.wk c.t (fun r =>
      { r with barLoad := (if kind = .rel then r.barLoad else n), barAll := (if kind = .acq then r.barAll else n),
               barReg := (if scopeWide scope then n else r.barReg) })
    .done (if kind = .acq then s else s.holdRel c.wk (bit1 c.t) n false (.fence false))) s

/-! ### Steps of memory and translation -/

/-- WALK_COMPLETE (R254, R355, R356). -/
def execWalkComplete (aid : Nat) (s : State) : Result := .next (s.walkDone aid)

/-- FAULT_PRESENT (R360, R404), at the end of a cycle. -/
def execFaultPresent (die : Nat) (s : State) : Result := .next (if s.closing then s.faultPresent die else s)

/-- SIDE_LOG_ENTER (R362). -/
def execSideLogEnter (wk : Nat) (s : State) : Result := .next (s.sideLog wk)

/-- SLICE_REQUEST_SERVE (R243, R171). -/
def execSliceRequestServe (aid : Nat) (ecc : Ecc) (s : State) : Result := .next (s.serveReq aid ecc)

/-- LOAD_DATA_LAND (R165). -/
def execLoadDataLand (iid t : Nat) (s : State) : Result := .next (s.land iid t)

/-- MNQ_OVF_RETRY (R367). -/
def execMnqOvfRetry (s : State) : Result := .next s.mnqRetry

/-- QCNT_ADVANCE (R257). -/
def execQcntAdvance (s : State) : Result := .next s.qcntAdvance

/-- STACK_SPILL_FILL (R76, R358). -/
def execStackSpillFill (wk : Nat) (s : State) : Result := .next (s.spillFill wk)

/-- Slice of a placed address, for the scrubber. -/
def slicePlaced (pa : Nat) : Option Nat :=
  match tierOf pa with
  | some 0 => some (pa % 65536 / 1024)
  | some 1 => some (64 + pa / 128 % 8)
  | _ => none

/-- What the scrubber finds in a granule of the register space of a core (R369). -/
def State.scrubReg (s : State) (core : Nat) (e : Ecc) (bad : State → State) : State :=
  match e with
  | .clean => s
  | .corrected => s.bumpCnt (0xED0 + 2 * dieOf core) 1
  | .lasting => (bad s).bumpCnt (0xED1 + 2 * dieOf core) 1

/-- SCRUB_VISIT (R368, R369): a memory word is named by its placed address. A granule that F does not govern holds no poison bit
(R345), and an error in one is counted alone. What a read finds itself stands as such a visit of the same cycle; so too the check of the
staging store (R396), whose chunk then fails the word that reads it (log 36). -/
def execScrubVisit (target : ScrubTarget) (ecc : Ecc) (s : State) : Result :=
  .next (match target with
    | .memory pa =>
      match slicePlaced pa, ecc with
      | some sl, .corrected => if Fmap.get false s.bad (pa / 32) then s else s.bumpCnt (0xE40 + 2 * sl) 1
      | some sl, .lasting =>
        if Fmap.get false s.bad (pa / 32) then s else ({ s with bad := Fmap.set false s.bad (pa / 32) true }).bumpCnt (0xE41 + 2 * sl) 1
      | _, _ => s
    | .vgran wk t g => s.scrubReg (coreOf wk) ecc (fun s => s.poison (.v wk t (4 * g)))
    | .sgran wk g => s.scrubReg (coreOf wk) ecc (fun s => s.poison (.s wk (4 * g)))
    | .tileGran bk g => s.scrubReg (bk / 4096) ecc (fun s => s.modBlock bk (fun b =>
        { b with tilePois := Fmap.set false b.tilePois g true, tileEmpty := Fmap.set false b.tileEmpty g false }))
    | .slotGran bk g => s.scrubReg (bk / 4096) ecc (fun s => s.modBlock bk (fun b =>
        { b with slotPois := Fmap.set false b.slotPois g true, slotEmpty := Fmap.set false b.slotEmpty g false }))
    | .stkGran wk g => s.scrubReg (coreOf wk) ecc (fun s => s.modWarp wk (fun w =>
        { w with stkPois := Fmap.set false w.stkPois g true, stkEmpty := Fmap.set false w.stkEmpty g false }))
    | .other core => s.scrubReg core ecc (fun s => s)
    | .stage sid b c =>
      if ecc != .lasting then s else
      let S := s.sched sid
      s.setSched sid { S with run := S.run.map (fun r => { r with spoilt := (2048 * b + c) :: r.spoilt }) })

end Sys2Proof.Machine
end

