-- ==== Sys2Proof/Machine/Sync.lean ====
section
/-! DEFINITION. Timelines, barriers, byte-counting barriers, convergence, guard slots and yielding, class 0xA (R191 to
R202), and how threads sign a convergence register (R41 to R43). -/

namespace Sys2Proof.Machine

/-! ### Timelines (R191, R192) -/

/-- A schedule reference (R285) and its ZERO bits. -/
def refSid (w : Word) : Nat := w.toNat % 256
def refPort (w : Word) : Nat := w.toNat / 65536 % 16
def schedRefBad (w : Word) : Bool := w &&& 0xFFF0FF00 != 0

/-- Completion counter of a context; `pack` is a count. -/
def State.tlComp (s : State) (wk : Nat) (c : Tctx) (sid : Nat) : Nat :=
  match c with
  | .copy => (s.warp wk).tlCopy.comp
  | .array => (s.warp wk).tlArray.comp
  | .pull => (s.core (coreOf wk)).tlPull.comp
  | .pack => (s.warp wk).pack
  | .sched => (s.sched sid).comp

/-- Number of the warp's most recent operation in a context. -/
def State.tlLast (s : State) (wk : Nat) (c : Tctx) (sid : Nat) : Nat :=
  match c with
  | .copy => (s.warp wk).tlCopy.issue
  | .array => (s.warp wk).tlArray.issue
  | .pull => (s.warp wk).lastPull
  | .pack => 0
  | .sched => Fmap.get 0 (s.warp wk).lastSched sid

/-- The trap of a schedule reference whose ZERO bits are not zero (R383). -/
def refEarly (c : Tctx) (f : TC → DWord) (l : TC → List Loc) (ok : TC → Bool) : Early := fun tc _ =>
  if c = .sched && ok tc && schedRefBad (f tc).lo then some (kRng, match l tc with | r :: _ => tdLoc r | [] => 0) else none

/-- Bodies whose entry has a trap of its own that R338 ranks by kind. -/
def withEarly (e : Early) (body : TC → State → TRes) (c : TC) (s : State) : TRes :=
  match e c s with
  | some (k, td) => .trap k td
  | none => body c s

/-- TLRD. -/
def execTlrd (h : Hdr) (k : Tctx) (d a : Operand) (s : State) : Result :=
  let e := refEarly k (fun c => c.av) (fun c => c.a) (fun c => c.aOk)
  laneEarly (.tlrd h k d a) true false .int .int e (withEarly e (fun c s =>
    .done (s.writeD2 c.d (BitVec.ofNat 64 (s.tlComp c.wk k (refSid c.av.lo)))))) s

/-- TLTAG. -/
def execTltag (h : Hdr) (k : Tctx) (d a : Operand) (s : State) : Result :=
  let e := refEarly k (fun c => c.av) (fun c => c.a) (fun c => c.aOk)
  laneEarly (.tltag h k d a) true false .int .int e (withEarly e (fun c s =>
    .done (s.writeD2 c.d (BitVec.ofNat 64 (s.tlLast c.wk k (refSid c.av.lo)))))) s

/-- TLWAIT: each active thread is held until the counter is at least n. -/
def execTlwait (h : Hdr) (k : Tctx) (scope : Scope) (a b : Operand) (s : State) : Result :=
  let e := refEarly k (fun c => c.bv) (fun c => c.b) (fun c => c.bOk)
  laneEarly (.tlwait h k scope a b) false false .int .int e (withEarly e (fun c s =>
    if c.av.toNat ≤ s.tlComp c.wk k (refSid c.bv.lo) then .done s
    else .done (s.modThread c.wk c.t (fun r => { r with hold := .tlwait k (refSid c.bv.lo) c.av })))) s

/-! ### Releases (R246) -/

/-- A thread makes a release: its effect `f` at once, or the thread held until its earlier accesses are performed. -/
def State.releaseThen (s : State) (wk t : Nat) (act : Act) (f : State → State) : State :=
  if s.relDue wk t s.nextId false act then s.modThread wk t (fun r => { r with hold := .release s.nextId false act }) else f s

/-! ### BAR and GBAR (R194, R195) -/

/-- An arrival at barrier id: the first fixes the phase's form. -/
def State.barArrive (s : State) (wk t id : Nat) (n : Option Nat) : State :=
  let bk := bkOf wk
  let s := s.modBlock bk (fun b =>
    let ph := Fmap.get {} b.bar id
    { b with bar := Fmap.set {} b.bar id ⟨some (ph.form.getD n), ph.count + 1⟩ })
  (s.modThread wk t (fun r => { r with hold := .bar id })).barCheck bk id

/-- The value R340 gives for a value outside its range: the register that holds it. -/
def tdOf (ls : List Loc) : Word := match ls with | l :: _ => tdLoc l | [] => 0

/-- BAR. -/
def execBar (h : Hdr) (cnt : Bool) (a b : Operand) (s : State) : Result :=
  let e : Early := fun c _ => if cnt && c.bOk && (c.bv.lo.toNat < 1 || 1024 < c.bv.lo.toNat) then some (kRng, tdOf c.b) else none
  laneEarly (.bar h cnt a b) false false .int .int e (withEarly e (fun c s =>
    let n := if cnt then some c.bv.lo.toNat else none
    .done (s.releaseThen c.wk c.t (.bar (immNat a) n) (fun s => s.barArrive c.wk c.t (immNat a) n)))) s

/-- An arrival at a group barrier. -/
def State.gbarArrive (s : State) (wk t g : Nat) : State :=
  (s.modThread wk t (fun r => { r with hold := .gbar g })).gbarCheck (s.block (bkOf wk)).lid g

/-- GBAR: at once for a block that is no member. -/
def execGbar (h : Hdr) (a : Operand) (s : State) : Result :=
  laneEach (.gbar h a) false false .int .int (fun c s =>
    let b := s.block (bkOf c.wk)
    let g := immNat a
    if !(Fmap.get [] (s.launch b.lid).groups g).contains b.bidx then .done s
    else .done (s.releaseThen c.wk c.t (.gbar g) (fun s => s.gbarArrive c.wk c.t g))) s

/-! ### Byte-counting barriers (R196, R197) -/

/-- The fields of a barrier object. -/
def State.obPhase (s : State) (o : List Loc) : Word := match o with | [_, _, _, p] => s.readLoc p | _ => 0
def State.obBytes (s : State) (o : List Loc) : Word := match o with | [_, _, b, _] => s.readLoc b | _ => 0
def State.obCount (s : State) (o : List Loc) : Word := match o with | [_, c, _, _] => s.readLoc c | _ => 0
def obArrv (c : Word) : Half := c.extractLsb' 16 16
def obInit (c : Word) : Half := c.extractLsb' 0 16

/-- Writes the fields of an object. -/
def State.obPut (s : State) (o : List Loc) (phase bytes : Word) (arrv init : Half) : State := s.writeLocs o [0, arrv ++ init, bytes, phase]

/-- The check after every operation: with ARRV = 0 and BYTES = 0 the phase completes. -/
def State.obCheck (s : State) (o : List Loc) : State :=
  let c := s.obCount o
  if obArrv c = 0 ∧ s.obBytes o = 0 then s.obPut o (s.obPhase o + 1) 0 (obInit c) (obInit c) else s

/-- An addition to BYTES: ABEXP, or a landing with its bytes taken off (R178). -/
def State.obAdd (s : State) (o : List Loc) (x : Word) : State :=
  let c := s.obCount o
  (s.obPut o (s.obPhase o) (s.obBytes o + x) (obArrv c) (obInit c)).obCheck o

/-- ABARV's effect: D receives PHASE, then ARRV goes down by 1. -/
def State.obArrive (s : State) (o d : List Loc) : State :=
  let p := s.obPhase o
  let c := s.obCount o
  ((s.writeD1 d p).obPut o p (s.obBytes o) (obArrv c - 1) (obInit c)).obCheck o

/-- The granule of an object is ready: full or poisoned (R59). -/
def State.obReady (s : State) (o : List Loc) : Bool := o.all (fun l => s.full l || s.pois l)

/-- Bodies on an object: they wait on its F bit, and one that reads it finds its poison (R345). -/
def objBody (o : TC → List Loc) (rd : Bool) (f : TC → State → TRes) (c : TC) (s : State) : TRes :=
  if !s.obReady (o c) then .wait s
  else match if rd then (o c).find? (fun l => s.pois l) else none with
    | some l => .trap kPois (tdGran l)
    | none => f c s

/-- ABINIT. -/
def execAbinit (h : Hdr) (d a : Operand) (s : State) : Result :=
  let e : Early := fun c _ => if c.aOk && (c.av.lo.toNat < 1 || 65535 < c.av.lo.toNat) then some (kRng, tdOf c.a) else none
  laneEarly (.abinit h d a) true false .int .int e (withEarly e (objBody (fun c => c.d) false (fun c s =>
    let n : Half := c.av.setWidth 16
    .done (s.obPut c.d 0 0 n n)))) s

/-- ABEXP. -/
def execAbexp (h : Hdr) (d a : Operand) (s : State) : Result :=
  let e : Early := fun c _ => if c.aOk && (c.av.lo.toNat < 1 || 2147483647 < c.av.lo.toNat) then some (kRng, tdOf c.a) else none
  laneEarly (.abexp h d a) true false .int .int e (withEarly e (objBody (fun c => c.d) true (fun c s => .done (s.obAdd c.d c.av.lo)))) s

/-- A result will come into these registers (R68); a window's are the owner's, and are entered in no scoreboard (R73). -/
def State.expect (s : State) (key wk : Nat) (ls : List Loc) : State :=
  let (iid, s) := s.runIid key
  foldS (ls.filter (fun l => l.wk == wk)) s (fun s l => s.setPend iid l)

/-- Nothing is due in them any more. -/
def State.undue (s : State) (wk : Nat) (ls : List Loc) : State :=
  let own := ls.filter (fun l => l.wk == wk)
  foldS (own.map s.pend).eraseDups (foldS own s (fun s l => s.setPend 0 l)) (fun s iid => s.dropAccRange wk iid)

/-- ABARV: a release, and D is due while it waits (R68); uniform, it acts once and waits for every active thread. -/
def execAbarv (h : Hdr) (d a : Operand) (s : State) : Result :=
  laneEach (.abarv h d a) true false .int .int (objBody (fun c => c.a) true (fun c s =>
    let uni := sigUniform c.g
    let act : Act := .abarv c.a c.d uni (s.winsOf c.wk c.g.a ++ s.winsOf c.wk c.g.d)
    let ts := maskList c.who
    if ts.any (fun t => s.relDue c.wk t s.nextId false act) then
      match s.accRange c.key c.wk (c.g.d.map OpS.x) c.d with
      | none => .wait s
      | some s1 =>
        .done (((foldS ts s1 (fun s' t => s'.modThread c.wk t (fun r => { r with hold := .release s1.nextId false act }))).bumpId).expect c.key c.wk c.d)
    else .done (s.obArrive c.a c.d))) s

/-- ABWAIT: held while PHASE = ph; a uniform one holds every thread of the run. -/
def execAbwait (h : Hdr) (a b : Operand) (s : State) : Result :=
  laneEach (.abwait h a b) true false .int .int (objBody (fun c => c.a) true (fun c s =>
    if s.obPhase c.a ≠ c.bv.lo then .done s
    else .done (foldS (maskList (if sigUniform c.g then c.mem else bit1 c.t)) s (fun s t =>
      s.modThread c.wk t (fun r => { r with hold := .abwait c.a c.bv.lo (s.winsOf c.wk c.g.a) }))))) s

/-! ### Convergence registers (R41 to R43, R198 to R200) -/

/-- KDECL: in force from the start of the register's next round; an empty set makes it undeclared. -/
def execKdecl (h : Hdr) (block : Bool) (d a : Operand) (s : State) : Result :=
  laneOnce (.kdecl h block d a) .int .int (fun c s =>
    let bk := bkOf c.wk
    let m := if block then c.av.lo &&& maskOf ((s.blockWarps bk).map widx) else c.av.lo
    let dec := if m = 0 then KDecl.none else if block then .block m else .warp c.wk m
    .done (s.modBlock bk (fun b => { b with k := Fmap.set {} b.k (opNum d) { Fmap.get {} b.k (opNum d) with next := some dec } }))) s

/-- The declaration that binds a signature: that of the open round, or that of the round it opens. -/
def KReg.eff (k : KReg) : KDecl := if k.signed = [] then k.next.getD k.decl else k.decl

/-- What the instructions of one round must have in common (R42): OP, MOD and the operands that are not per thread. -/
def jointKey : Instr → Instr
  | .sign h a => .sign ⟨.always, h.take, h.nf, false, false⟩ a
  | .rconv h _ a _ => .rconv ⟨.always, h.take, h.nf, false, false⟩ (.v 0) a (.v 0)
  | .mma h g k sl d _ b => .mma ⟨.always, h.take, h.nf, false, false⟩ g k sl d (.v 0) b
  | .att h g k sl d _ b => .att ⟨.always, h.take, h.nf, false, false⟩ g k sl d (.v 0) b
  | .attfin h g k _ a => .attfin ⟨.always, h.take, h.nf, false, false⟩ g k (.v 0) a
  | .ladinit h g k d a b => .ladinit ⟨.always, h.take, h.nf, false, false⟩ g k d a b
  | .ladpush h g k d a => .ladpush ⟨.always, h.take, h.nf, false, false⟩ g k d a
  | .ladread h g k d a b => .ladread ⟨.always, h.take, h.nf, false, false⟩ g k d a b
  | .ladld h g k _ a b => .ladld ⟨.always, h.take, h.nf, false, false⟩ g k (.v 0) a b
  | i => i

/-- What signing comes to. -/
inductive SignRes where
  | signed (s : State)
  /-- Signed already in the open round. -/
  | wait
  /-- Undeclared, or not as the round's first signature. -/
  | join
  deriving DecidableEq, Repr

/-- A thread signs register k with an instruction (R42); `warpKind` asks for a declaration of warp kind. -/
def State.sign (s : State) (wk t k : Nat) (i : Instr) (pc : DWord) (warpKind : Bool) : SignRes :=
  let bk := bkOf wk
  let K := s.kreg bk k
  let bad := match K.eff with
    | .none => true
    | .warp _ _ => false
    | .block _ => warpKind
  if bad then .join
  else if K.signed.contains (tkey wk t) then .wait
  else match K.first with
    | some f => if K.signed ≠ [] ∧ jointKey f ≠ jointKey i then .join
      else .signed (s.setKreg bk k { K with decl := K.eff, next := (if K.signed = [] then none else K.next), signed := K.signed ++ [tkey wk t],
                                            first := (if K.signed = [] then some i else K.first), pc := (if K.signed = [] then pc else K.pc),
                                            regs := (if K.signed = [] then [] else K.regs), since := (if K.signed = [] then s.clk else K.since), last := s.clk })
    | none => .signed (s.setKreg bk k { K with decl := K.eff, next := none, signed := K.signed ++ [tkey wk t], first := some i, pc := pc, regs := [], since := s.clk, last := s.clk })

/-- The signature of SIGN or RCONV: the thread is held until the round closes. -/
def State.signHold (s : State) (wk t k : Nat) (i : Instr) (pc : DWord) (hold : Hold) : SignRes :=
  match s.sign wk t k i pc false with
  | .signed s => .signed (s.modThread wk t (fun r => { r with hold := hold }))
  | r => r

/-- The round is full in this cycle: its last signature has been made. -/
def State.roundDue (s : State) (bk k : Nat) : Bool := s.roundFull bk k && (s.kreg bk k).last ≤ s.clk

/-- A body that signs: once the earlier accesses are performed. -/
def signBody (k : Nat) (i : Instr) (act : Act) (hold : Hold) (c : TC) (s : State) : TRes :=
  match s.signHold c.wk c.t k i c.pc hold with
  | .join => .trap kJoin 0
  | .wait => .wait s
  | .signed s1 =>
    if s.relDue c.wk c.t s.nextId false act then .done (s.modThread c.wk c.t (fun r => { r with hold := .release s.nextId false act }))
    else .done s1

/-- SIGN. -/
def execSign (h : Hdr) (a : Operand) (s : State) : Result :=
  let i : Instr := .sign h a
  laneEach i false false .int .int (signBody (opNum a) i (.sign (opNum a) i) (.sign (opNum a))) s

/-- RCONV: SIGN with a limit in cycles. -/
def execRconv (h : Hdr) (d a b : Operand) (s : State) : Result :=
  let i : Instr := .rconv h d a b
  let k := (opNum a)
  laneEach i false false .int .int (fun c s =>
    signBody k i (.rconv k (pIdx d) c.bv.lo.toNat i) (.rconv k (pIdx d) (s.clk + c.bv.lo.toNat)) c s) s

/-- A thread's signature is withdrawn. -/
def State.unsign (s : State) (bk k tk : Nat) : State :=
  s.setKreg bk k { s.kreg bk k with signed := (s.kreg bk k).signed.filter (fun x => x != tk) }

/-- RCONV_TIMEOUT (R200): at the end of the cycle of the limit, unless the round was full by then. -/
def execRconvTimeout (wk t : Nat) (s : State) : Result :=
  match (s.thread wk t).hold with
  | .rconv k p dl =>
    if !s.closing ∨ s.clk < dl ∨ (s.roundFull (bkOf wk) k ∧ (s.kreg (bkOf wk) k).last ≤ dl) then .next s
    else .next (((s.unsign (bkOf wk) k (tkey wk t)).setPred wk t p true).release wk t)
  | _ => .next s

/-- A round signed by SIGN or RCONV closes: its signers continue. -/
def State.closeRound (s : State) (bk k : Nat) : State :=
  let K := s.kreg bk k
  foldS K.signed (s.setKreg bk k { K with signed := [], first := none, regs := [] }) (fun s tk =>
    match (s.thread (tk / 32) (tk % 32)).hold with
    | .sign _ => s.release (tk / 32) (tk % 32)
    | .rconv _ p _ => (s.setPred (tk / 32) (tk % 32) p false).release (tk / 32) (tk % 32)
    | _ => s)

/-! ### Guard slots, YIELD and SLEEP (R201, R202) -/

def State.setGuard (s : State) (wk g : Nat) (x : GState) : State := s.modWarp wk (fun w => { w with g := Fmap.set .true w.g g x })

/-- GRES. -/
def execGres (h : Hdr) (d a : Operand) (s : State) : Result :=
  laneOnce (.gres h d a) .int .int (fun c s => .done (s.setGuard c.wk (opNum d) (if c.av = 0 then .false else .true))) s

/-- GCLR. -/
def execGclr (h : Hdr) (d : Operand) (s : State) : Result :=
  laneOnce (.gclr h d) .int .int (fun c s => .done (s.setGuard c.wk (opNum d) .pending)) s

/-- YIELD: the run ends, and the warp counts as eligible afresh. -/
def execYield (h : Hdr) (s : State) : Result :=
  laneOnce (.yield h) .int .int (fun c s => .done (s.modWarp c.wk (fun w => { w with elig := 0 }))) s

/-- SLEEP: the cycles count from the one in which the thread enters its lane. DESIGN CHOICE (log 66). -/
def execSleep (h : Hdr) (a : Operand) (s : State) : Result :=
  laneEach (.sleep h a) false false .int .int (fun c s =>
    if c.av.lo = 0 then .done s else .done (s.modThread c.wk c.t (fun r => { r with hold := .sleep (s.clk + c.av.lo.toNat) }))) s

/-- SLEEP_EXPIRY. -/
def execSleepExpiry (wk t : Nat) (s : State) : Result :=
  match (s.thread wk t).hold with
  | .sleep dl => if s.clk < dl then .next s else .next (s.release wk t)
  | _ => .next s

/-- REVW_COMPLETE (R66). -/
def execRevwComplete (wk : Nat) (s : State) : Result := .next (s.revwDone wk)

end Sys2Proof.Machine
end

