-- ==== Sys2Proof/Machine/Control.lean ====
section
/-! DEFINITION. Control, class 0xB: branches and calls (R204), exit (R205), the program's own trap and the return from a
handler (R206), system calls (R207), patience (R208). -/

namespace Sys2Proof.Machine

/-! ### Branches and calls (R204) -/

/-- The target of a paired offset: PC + 12·offset. -/
def branchTo (pc : DWord) (off : BitVec 34) : DWord := pc + 12 * off.signExtend 64

/-- The threads of a turn take one next PC. -/
def State.goAll (s : State) (c : TC) (pc : DWord) : State := foldS (maskList c.who) s (fun s t => s.modThread c.wk t (fun r => { r with pc := pc }))

/-- BRA: with CNT the counter goes down by 1 and the branch is taken while it is not 0. -/
def execBra (h : Hdr) (cnt : Bool) (d : Operand) (off : BitVec 34) (s : State) : Result :=
  laneEach (.bra h cnt d off) true true .int .int (fun c s =>
    if cnt then
      let n := c.dv.lo - 1
      .done ((s.writeD1 c.d n).goAll c (if n = 0 then c.pc + 12 else branchTo c.pc off))
    else .done (s.goAll c (branchTo c.pc off))) s

/-- BRX. -/
def execBrx (h : Hdr) (a : Operand) (s : State) : Result :=
  laneEach (.brx h a) true true .int .int (fun c s => .done (s.goAll c c.av)) s

/-- The body of CALL and CALLX: the return PC is pushed, low word first. -/
def callBody (target : TC → DWord) (c : TC) (s : State) : TRes :=
  let r := c.pc + 12
  stkBody c (s.stackPush c [r.lo, (r.extractLsb' 32 24).setWidth 32]) (fun s _ => s.modThread c.wk c.t (fun x => { x with pc := target c }))

/-- CALL. -/
def execCall (h : Hdr) (off : BitVec 34) (s : State) : Result :=
  laneEach (.call h off) false true .int .int (callBody (fun c => branchTo c.pc off)) s

/-- CALLX. -/
def execCallx (h : Hdr) (a : Operand) (s : State) : Result :=
  laneEach (.callx h a) false true .int .int (callBody (fun c => c.av)) s

/-- RET: the high word is on top. -/
def execRet (h : Hdr) (s : State) : Result :=
  laneEach (.ret h) false true .int .int (fun c s =>
    stkBody c (s.stackPop c 2) (fun s ws => match ws with
      | [hi, lo] => s.modThread c.wk c.t (fun x => { x with pc := Word.pair lo (hi &&& 0xFFFFFF) })
      | _ => s)) s

/-! ### EXIT, TRAP, TRET (R205, R206) -/

/-- EXIT. -/
def execExit (h : Hdr) (s : State) : Result :=
  laneEach (.exit h) false false .int .int (fun c s => .done (s.exitThread c.wk c.t)) s

/-- TRAP: the trap follows the instruction; its code is the `%tdst` value. -/
def execTrap (h : Hdr) (a : Operand) (s : State) : Result :=
  laneEach (.trap h a) false false .int .int (fun _ s => .after s kSw (BitVec.ofNat 32 (immNat a))) s

/-- TRET; outside a handler it raises `ill` (R344). -/
def execTret (h : Hdr) (s : State) : Result :=
  laneEach (.tret h) false true .int .int (fun c s =>
    if (s.thread c.wk c.t).inHandler then .done (s.returnTrap c.wk c.t) else .trap kIll 0) s

/-! ### SYSC (R207) -/

/-- The lowest REQID that no request of a queue holds: R207 asks only that it be that of no other pending request. DESIGN CHOICE
(log 66). -/
def freeReq (q : List SysReq) : Nat := ((List.range 64).find? (fun i => !q.any (fun r => r.id == i))).getD 0

/-- A request enters the queue of the core's die; its threads are held until ERET. -/
def State.sysRequest (s : State) (wk code : Nat) (arg : DWord) (d : Nat) (mask : Word) : State :=
  let die := dieOf (coreOf wk)
  let id := freeReq (s.die die).sysq
  let s := s.modDie die (fun D => { D with sysq := D.sysq ++ [⟨id, wk, code, arg, false⟩] })
  foldS (maskList mask) s (fun s t => s.modThread wk t (fun r => { r with hold := .sysc id d }))

/-- A release made once for the warp: its effect at once, or its threads held until all of them may release. -/
def State.releaseAll (s : State) (wk : Nat) (mask : Word) (act : Act) (f : State → State) : State :=
  if (maskList mask).any (fun t => s.relDue wk t s.nextId false act) then
    (foldS (maskList mask) s (fun s' t => s'.modThread wk t (fun r => { r with hold := .release s.nextId false act }))).bumpId
  else f s

/-- D of a list of threads: that of each is ready, or the trap it raises; none where a D waits. -/
def State.dests (s : State) (c : TC) : Option (List (Nat × Prep)) :=
  let ps := (maskList c.act).map (fun t => (t, s.prepOp c.wk t c.g.d))
  if ps.any (fun p => p.2 == .wait) then none else some ps

/-- It comes. -/
def State.deliverTo (s : State) (wk : Nat) (ls : List Loc) (xs : List Word) : State := (s.undue wk ls).writeLocs ls xs

/-- SYSC: D of every active thread is ready, and its result is due from now on. -/
def execSysc (h : Hdr) (d a b : Operand) (s : State) : Result :=
  laneOnce (.sysc h d a b) .int .int (fun c s =>
    match s.dests c with
    | none => .wait s
    | some ps =>
    if (s.die (dieOf (coreOf c.wk))).sysq.length ≥ 64 then .wait s
    else
      let s := s.expect c.key c.wk (ps.flatMap (fun p => p.2.locs))
      .done (s.releaseAll c.wk c.act (.sysc (immNat b) c.av (vIdx d) c.act) (fun s => s.sysRequest c.wk (immNat b) c.av (vIdx d) c.act))) s

/-! ### NOP and SETPAT (R90, R208) -/

/-- NOP. -/
def execNop (h : Hdr) (s : State) : Result := laneOnce (.nop h) .int .int (fun _ s => .done s) s

/-- SETPAT: `%patience` := Sat(a, 1, 255). -/
def execSetpat (h : Hdr) (a : Operand) (s : State) : Result :=
  laneOnce (.setpat h a) .int .int (fun c s =>
    .done (s.modWarp c.wk (fun w => { w with patience := BitVec.ofNat 32 (max 1 (min 255 c.av.lo.toNat)) }))) s

end Sys2Proof.Machine
end

