-- ==== Sys2Proof/Machine/Debug.lean ====
section
/-! DEFINITION. Debug and performance, class 0xF (R218), and the debug units: stops and steps (R319, R320), the debugger's
register access (R321), the mailbox (R322), comparators, counters and the sequencer (R323, R324), trace records (R325), and
the numbered counters (R265, R284, R327, R328, R370, R376, R387). -/

namespace Sys2Proof.Machine

/-! ### Trace records (R325) -/

def TRec.before (a b : TRec) : Bool :=
  a.cyc < b.cyc || (a.cyc == b.cyc && (a.core < b.core || (a.core == b.core && a.warp < b.warp)))

/-- Puts a record behind those that come before it. -/
def insRec (r : TRec) : List TRec → List TRec
  | [] => [r]
  | x :: l => if r.before x then r :: x :: l else x :: insRec r l

/-- A trace record is made while tracing is on. -/
def State.trace (s : State) (d kind value core btag warp : Nat) : State :=
  if !(s.die d).tron then s else
  let data := leBytes 16 (s.clk % 2 ^ 64 * 2 ^ 64 + value % 65536 * 2 ^ 48 + core * 2 ^ 40 + btag * 2 ^ 28 + warp * 2 ^ 23 + kind * 2 ^ 16)
  s.modDie d (fun D => { D with recs := insRec ⟨s.clk, core, warp, data⟩ D.recs })

/-- A record goes to the ring; one that cannot be written is counted and lost, and a ring of no record holds none (log 14). -/
def State.putRec (s : State) (d : Nat) (r : TRec) : State :=
  let D := s.die d
  let n := D.trsize.toNat / 16
  let s1 := if n = 0 then s else
    match s.writeD 0 (D.trbase + BitVec.ofNat 64 (16 * (D.trpos % n))) r.data with
    | .ok s => s
    | .error _ => s
  s1.modDie d (fun D => { D with trpos := D.trpos + 1 })

/-- At the end of a cycle a die's records go to the ring, and an MTSR of `%tstate` takes effect (R324, R325). -/
def State.endCycle (s : State) (d : Nat) : State :=
  let s := foldS (s.die d).recs (if (s.die d).recs = [] then s else s.modDie d (fun D => { D with recs := [] })) (fun s r => s.putRec d r)
  match (s.die d).tsWrite with
  | some x => s.modDie d (fun D => { D with tron := x.getLsbD 8, tstate := x.toNat % 4, tsWrite := none })
  | none => s

/-! ### The mailbox (R322) -/

def mboxEntry (src code : Nat) (data : Word) : DWord :=
  BitVec.ofNat 64 (2 ^ 63 + src * 2 ^ 60 + code % 256 * 2 ^ 52 + data.toNat)

def MEntry.before (a b : MEntry) : Bool :=
  a.cyc < b.cyc || (a.cyc == b.cyc && (a.idx < b.idx || (a.idx == b.idx && a.wk < b.wk)))

/-- Puts an entry behind those that come before it: the entries of one cycle by comparator, core and warp, host entries last. -/
def insEntry (m : MEntry) : List MEntry → List MEntry
  | [] => [m]
  | x :: l => if m.before x then m :: x :: l else x :: insEntry m l

/-- An entry arrives in this cycle. -/
def State.mboxPost (s : State) (d idx wk : Nat) (e : DWord) : State :=
  s.modDie d (fun D => { D with mboxWait := insEntry ⟨s.clk, idx, wk, e⟩ D.mboxWait })

/-- The entries of cycles before `clk` enter the queue in their order; a device entry that meets a full queue waits, and a host entry
that does is dropped and sets OVR. -/
def mboxEnter (clk : Nat) : List MEntry → Die → Die
  | [], D => { D with mboxWait := [] }
  | m :: l, D =>
    if clk ≤ m.cyc then { D with mboxWait := m :: l }
    else if D.mbox.length < 16 then mboxEnter clk l { D with mbox := D.mbox ++ [m.e] }
    else if m.idx = 5 then mboxEnter clk l { D with ovr := true }
    else
      let D := mboxEnter clk l D
      { D with mboxWait := m :: D.mboxWait }

def State.mboxFlush (s : State) (d : Nat) : State :=
  if (s.die d).mboxWait.any (fun m => m.cyc < s.clk) then s.modDie d (fun D => mboxEnter s.clk D.mboxWait D) else s

/-- MBOX_DEVICE_ENTRY: entries of earlier cycles enter the queue. -/
def execMboxDeviceEntry (die : Nat) (s : State) : Result := .next (s.mboxFlush die)

/-- A host's write to the mailbox: SRC and VALID are forced. -/
def State.hostMbox (s : State) (die : Nat) (x : DWord) : State := s.mboxPost die 5 0 (mboxEntry 1 (x.extractLsb' 52 8).toNat x.lo)
/-- HOST_MBOX_WRITE. -/
def execHostMboxWrite (die : Nat) (x : DWord) (s : State) : Result := .next (s.hostMbox die x)

/-- A write of 1 to bit 31 clears OVR. -/
def State.ovrClear (s : State) (die : Nat) (x : DWord) : State := if x.getLsbD 31 then s.modDie die (fun D => { D with ovr := false }) else s
/-- MBOX_OVR_CLEAR. -/
def execMboxOvrClear (die : Nat) (x : DWord) (s : State) : Result := .next (s.ovrClear die x)

/-- A read of `%mbox` removes and returns the head entry, or returns 0. -/
def State.mboxTake (s0 : State) (d : Nat) : DWord × State :=
  let s := s0.mboxFlush d
  match (s.die d).mbox with
  | e :: rest => (e, s.modDie d (fun D => { D with mbox := rest }))
  | [] => (0, s)

/-- MBOX_READ. -/
def execMboxRead (die : Nat) (s : State) : Result := .next (s.mboxTake die).2

/-! ### Stops (R319) -/

/-- The launch of a warp has DBG = 1. -/
def State.dbgOn (s : State) (wk : Nat) : Bool := !isSys wk && (s.block (bkOf wk)).present && (s.launch (s.block (bkOf wk)).lid).dbg

/-- A cause of a stop at a run boundary reaches a warp (R319): of two in one cycle the lower is recorded, else the first; the completion
of a step, cause 5, comes about at the boundary and so after any other. A stopped warp stays as it is (log 68). -/
def State.askStop (s : State) (wk : Nat) (cause code : Nat) : State :=
  let w := s.warp wk
  if !s.dbgOn wk || !w.alive || w.stopped then s else
  let keep := match w.stopReq with
    | some (c, _, k) => c.toNat != 5 && (k != s.clk || c.toNat ≤ cause)
    | none => false
  if keep then s else s.setWarp wk { w with stopReq := some (BitVec.ofNat 8 cause, BitVec.ofNat 8 code, s.clk) }

/-- `%dbgcmd` STOP, cause 1: the warp is to stop before its next run that begins at a safe point. -/
def State.askSafe (s : State) (wk : Nat) : State :=
  if !s.dbgOn wk || !(s.warp wk).alive || (s.warp wk).stopped then s else s.modWarp wk (fun w => { w with stopSafe := some s.clk })

/-- The warp stops at a run boundary: its cause is recorded, traced and, but for STOP and STOPNOW, posted. A STOP that it still
waited for is met by it (log 68), and is its cause where it came in the cycle of the other. -/
def State.stopWarp (s : State) (wk : Nat) : State :=
  let (cause, code) : Nat × Nat := match (s.warp wk).stopReq with
    | some (c, x, k) => if (s.warp wk).stopSafe = some k then (1, 0) else (c.toNat, x.toNat)
    | none => (1, 0)
  let d := dieOf (coreOf wk)
  let s := s.modWarp wk (fun w => { w with stopped := true, cause := BitVec.ofNat 8 cause, stopReq := none, stopSafe := none, elig := 0 })
  let s := s.trace d 4 cause (coreOf wk) (btagOf wk) (widx wk)
  if 2 ≤ cause ∧ cause ≤ 5 then s.mboxPost d (if cause = 3 then code else 4) wk (mboxEntry cause code (targetOf wk)) else s

/-- RUN resumes a stopped warp. -/
def State.runWarp (s : State) (wk : Nat) : State :=
  s.modWarp wk (fun w => if w.stopped then { w with stopped := false, cause := 0 } else w)

/-- The warps of the block of the live warp that a target word names, in a launch with DBG = 1. -/
def State.dbgBlock (s : State) (w : Word) : List Nat :=
  if (s.dbgWarp w).isSome then
    (s.blockWarps (targetBk w)).filter (fun wk => (s.warp wk).alive)
  else []

def optList (o : Option Nat) : List Nat := o.toList

/-- A write of `%dbgcmd` (R320): 1 STOP, 2 RUN, 3 and 4 the same for every warp of the block, 5 STOPNOW. -/
def State.dbgCmd (s : State) (die k : Nat) : State :=
  let tgt := (s.die die).dbgtgt
  match k with
  | 1 => foldS (optList (s.dbgWarp tgt)) s (fun s wk => s.askSafe wk)
  | 2 => foldS (optList (s.dbgWarp tgt)) s (fun s wk => s.runWarp wk)
  | 3 => foldS (s.dbgBlock tgt) s (fun s wk => s.askSafe wk)
  | 4 => foldS (s.dbgBlock tgt) s (fun s wk => s.runWarp wk)
  | 5 => foldS (optList (s.dbgWarp tgt)) s (fun s wk => s.askStop wk 6 0)
  | _ => s

/-- DBG_STOP. -/
def execDbgStop (die : Nat) (s : State) : Result := .next (s.dbgCmd die 1)
/-- DBG_RUN. -/
def execDbgRun (die : Nat) (s : State) : Result := .next (s.dbgCmd die 2)
/-- DBG_STOP_BLOCK. -/
def execDbgStopBlock (die : Nat) (s : State) : Result := .next (s.dbgCmd die 3)
/-- DBG_RUN_BLOCK. -/
def execDbgRunBlock (die : Nat) (s : State) : Result := .next (s.dbgCmd die 4)
/-- DBG_STOPNOW. -/
def execDbgStopnow (die : Nat) (s : State) : Result := .next (s.dbgCmd die 5)

/-- DBGDAT_WRITE (R321): F bits, the scoreboard and range entries stay as they are. -/
def State.dbgWrite (s : State) (die : Nat) (x : Word) : State :=
  match s.dbgReg (s.die die).dbgtgt (s.die die).dbgsel with
  | some (.reg l) => s.putLoc x l
  | some (.pred wk p) => s.modWarp wk (fun w => { w with preds := Fmap.set 0 w.preds p x })
  | none => s

def execDbgdatWrite (die : Nat) (x : Word) (s : State) : Result := .next (s.dbgWrite die x)

/-! ### Counters and the sequencer (R324) -/

/-- Counter j sees the hits of one cycle: its new state, and whether it raises its event. -/
def State.trigCount (s : State) (d j : Nat) (hit : BitVec 4) : State × Bool :=
  let D := s.die d
  let cfg := Fmap.get 0 D.tcfg j
  if !hit.getLsbD (cfg.toNat % 4) then (s, false) else
  let n := Fmap.get 0 D.tcnt j + 1
  let lim := cfg.toNat / 256
  if lim ≠ 0 ∧ n.toNat = lim then (s.modDie d (fun D => { D with tcnt := Fmap.set 0 D.tcnt j 0 }), true)
  else (s.modDie d (fun D => { D with tcnt := Fmap.set 0 D.tcnt j n }), false)

/-- One cycle's hits, by warp: stops of R319, the counters, which a comparator counts at most once, and at most one transition of
the sequencer. Of several warps that hit one comparator, the first by core and warp is the one that an event has (log 68). -/
def State.trigCycle (s : State) (d : Nat) (hs : List (Nat × BitVec 4)) : State :=
  let D := s.die d
  let hit := hs.foldl (fun m p => m ||| p.2) 0
  let by1 (i : Nat) : List Nat := hs.filterMap (fun p => if p.2.getLsbD i then some p.1 else none)
  let s := s.modDie d (fun D => { D with hitWarp := (List.range 4).foldl (fun m i => match by1 i with
    | [] => m
    | w :: ws => Fmap.set 0 m i (ws.foldl min w)) D.hitWarp })
  let s := foldS (List.range 4) s (fun s i => if (Fmap.get {} D.cmp i).ctl.getLsbD 16 then foldS (by1 i) s (fun s wk => s.askStop wk 3 i) else s)
  let r0 := s.trigCount d 0 hit
  let r1 := r0.1.trigCount d 1 hit
  let s := r1.1
  let n := D.tstate
  let q := Fmap.get 0 D.tsq n ^^^ 0x0000000F
  let ev := q.toNat % 16
  let occurred := (ev < 4 && hit.getLsbD ev) || (ev == 4 && r0.2) || (ev == 5 && r1.2)
  if !occurred then s else
  let sel := if ev < 4 then ev else (Fmap.get 0 D.tcfg (ev - 4)).toNat % 4
  let wk := Fmap.get 0 (s.die d).hitWarp sel
  let act := q.toNat / 512 % 8
  let next := q.toNat / 64 % 4
  let s := if act = 1 then s.modDie d (fun D => { D with tron := true }) else s
  let s := if act = 0 then s else s.trace d 3 (next * 64 + act * 512) 0 0 0
  let s := match act with
    | 2 => s.modDie d (fun D => { D with tron := false })
    | 3 => s.askStop wk 4 n
    | 4 => s.mboxPost d 4 wk (mboxEntry 4 n (targetOf wk))
    | 5 => s.modDie d (fun D => { D with tcnt := [] })
    | _ => s
  s.modDie d (fun D => { D with tstate := next })

/-- The oldest cycle of a die with hits that the counters have not seen, up to the present one. -/
def State.hitCycle (s : State) (d : Nat) : Option Nat :=
  match ((s.die d).hits.map Prod.fst).filter (fun c => c ≤ s.clk) with
  | [] => none
  | c :: cs => some (cs.foldl min c)

/-- TRACE_COUNTER_LIMIT: at the end of a cycle, the counters and the sequencer of a die see the comparator hits of one cycle. -/
def execTraceCounterLimit (die : Nat) (s : State) : Result :=
  match if s.closing then s.hitCycle die else none with
  | none => .next s
  | some c =>
    let hs := ((s.die die).hits.filter (fun h => h.1 == c)).map (fun h => (parent h.2.1, h.2.2))
    .next ((((s.modDie die (fun D => { D with hits := D.hits.filter (fun h => h.1 != c) })).setClk c).trigCycle die hs).setClk s.clk)

/-! ### Class 0xF (R218) -/

/-- BKPT: in a launch with DBG = 1 the warp stops after it. -/
def execBkpt (h : Hdr) (a : Operand) (s : State) : Result :=
  laneOnce (.bkpt h a) .int .int (fun c s => .done (s.askStop c.wk 2 (immNat a))) s

/-- SSTEP: a stopped target runs one run. -/
def execSstep (h : Hdr) (a : Operand) (s : State) : Result :=
  laneOnce (.sstep h a) .int .int (fun c s =>
    match s.dbgWarp c.av.lo with
    | some wk => .done (s.modWarp wk (fun w => if w.stopped then { w with stopped := false, cause := 0, stepping := true } else w))
    | none => .done s) s

/-- TRCMK: a marker record in a launch with TRACE = 1. -/
def execTrcmk (h : Hdr) (a : Operand) (s : State) : Result :=
  laneOnce (.trcmk h a) .int .int (fun c s =>
    if !isSys c.wk && (s.launch (s.block (bkOf c.wk)).lid).trace then
      .done (s.trace (dieOf (coreOf c.wk)) 1 (c.av.toNat % 65536) (coreOf c.wk) (btagOf c.wk) (widx c.wk))
    else .done s) s

/-- The array status word of a core (R376). -/
def State.arrayWord (s : State) (c : Nat) : DWord :=
  let k := s.core c
  BitVec.ofNat 64 (k.stale * 2 ^ 40 + k.retry * 2 ^ 24 + k.retired * 2 ^ 16 + k.mode * 8 + k.spare)

/-- Counters other than the snapshot's. Which of a channel's requests count as activations, row conflicts and refresh stalls is open
(log 1). -/
def State.counter (s : State) (n : Nat) : DWord × State :=
  if 0x300 ≤ n ∧ n < 0x310 then (s.ftime (n - 0x300), s)
  else if 0x310 ≤ n ∧ n < 0x3D0 then (s.arrayWord (n - 0x310), s)
  else if 0x3D0 ≤ n ∧ n < 0x400 then
    let p := s.port ((n - 0x3D0) / 3)
    (match (n - 0x3D0) % 3 with
     | 0 => p.retries
     | 1 => p.skews
     | _ => p.wraps, s)
  else if 0x400 ≤ n ∧ n < 0xE28 ∧ 2 ≤ (n - 0x400) % 5 then
    let b := n - (n - 0x400) % 5
    let reqs := (Fmap.get 0 s.dev.cnt b).toNat + (Fmap.get 0 s.dev.cnt (b + 1)).toNat
    (BitVec.ofNat 64 ((List.range reqs).filter (fun i => Config.rowEvent n i)).length, s)
  else if 0x400 ≤ n then (Fmap.get 0 s.dev.cnt n, s)
  else (0, s)

/-- CNTRD: 0x000 latches the twelve counters of the core, whose latched values 0x001 to 0x00B return. -/
def State.cntrd (s : State) (wk n : Nat) : DWord × State :=
  if n = 0 then
    let s := s.tdSync (coreOf wk)
    let td := (s.core (coreOf wk)).td
    let snap := (List.range 12).foldl (fun m i => Fmap.set 0 m i (tdCounter td i)) []
    (tdCounter td 0, s.modWarp wk (fun w => { w with snap := snap }))
  else if n < 12 then (Fmap.get 0 (s.warp wk).snap n, s)
  else s.counter n

def execCntrd (h : Hdr) (d a : Operand) (s : State) : Result :=
  laneOnce (.cntrd h d a) .int .int (fun c s => onceWrite (fun s => ((words2 (s.cntrd c.wk (c.av.toNat % 4096)).1), (s.cntrd c.wk (c.av.toNat % 4096)).2)) c s) s

end Sys2Proof.Machine
end

