-- ==== Sys2Proof/Machine/Residency.lean ====
section
/-! DEFINITION. Residency: what a block occupies (R55), how it becomes resident and its warps and slices start (R56, R276,
R281), rotation and the quantum (R46, R47, R278), assignment (R273, R279) and retirement (R205). -/

namespace Sys2Proof.Machine

/-! ### Saved images (R48, R49, R216, R275) -/

/-- Where the image of a block stands while it is off its core (R275): address space and VA. -/
def State.imagePlace (s : State) (bk : Nat) : BitVec 16 × DWord :=
  let b := s.block bk
  let L := s.launch b.lid
  (L.asid, L.ctxva + BitVec.ofNat 64 (L.imageOff + Config.ctxSize * b.bidx))

/-- n bytes whose values the manual leaves open, 8 for each free value. -/
def State.freeBytes (s : State) (n : Nat) : List Byte :=
  ((List.range ((n + 7) / 8)).flatMap (fun i => leBytes 8 (Config.freeValue (s.fresh + i)).toNat)).take n

/-- A range of memory takes open values, if all of it can be written: an image, whose layout is private to the device (log 22). -/
def State.writeFree (s : State) (asid : BitVec 16) (va : DWord) (n : Nat) : State :=
  let ps := pieces va n (n / 65536 + 2)
  if ps.any (fun p => match s.xlateD asid p.1 .wr with
      | .ok _ => false
      | .error _ => true) then s else
  foldS ps (s.countD asid va n true) (fun s p => match s.xlateD asid p.1 .wr with
    | .ok x => { s.writeMem x.swz x.pa (s.freeBytes p.2) with fresh := s.fresh + (p.2 + 7) / 8 }
    | .error _ => s)

/-- The home core reaches the image. -/
def State.imageReach (s : State) (bk : Nat) (i : BitVec 16 × DWord) : Bool :=
  s.links = [] || s.rangeReach (dieOf (bk / 4096)) i.1 i.2 Config.ctxSize

/-- An image is read, which gives the block back what it had (log 22). -/
def State.readImage (s : State) (i : BitVec 16 × DWord) : State :=
  match s.xlateD i.1 i.2 .rd with
  | .ok _ => s.countD i.1 i.2 Config.ctxSize false
  | .error _ => s

/-- F of R55. -/
def genRegs (a : Alloc) (nwarp : Nat) : Nat := nwarp * (32 * a.nv + (a.ns + 3) / 4 * 4 + 252 + 32 * a.win) + 64

def State.launchOf (s : State) (bk : Nat) : Launch := s.launch (s.block bk).lid

/-- Blocks fit together on a core (R55, R182). -/
def State.fits (s : State) (bks : List Nat) : Bool :=
  let sum (f : Launch → Nat) : Nat := bks.foldl (fun n bk => n + f (s.launchOf bk)) 0
  sum (fun L => genRegs L.alloc L.nwarp) ≤ 655360 && sum (fun L => L.alloc.na) ≤ 64 && sum (fun L => L.alloc.nb) ≤ 64 &&
    sum (fun L => L.alloc.nts) ≤ 32 && sum (fun L => L.nwarp) ≤ 256

/-! ### Becoming resident -/

/-- A warp at its start: every register zero and full, its warp-scope registers from the launch (R56, R276). -/
def startWarp (L : Launch) (lid bidx w : Nat) : Warp :=
  { alive := true, lid := lid, alloc := L.alloc, asid := L.asid, patience := BitVec.ofNat 32 L.patience, dseg := L.dseg,
    stkbase := L.stkva + BitVec.ofNat 64 (L.stklim * (bidx * L.nwarp + w)), stklim := BitVec.ofNat 32 L.stklim }

def startThread (pc : DWord) (ften : Word) : Thread := { live := true, pc := pc, ften := ften }

/-- A run about to begin, of some members of a warp. -/
def newRun (wk : Nat) (pc : DWord) (members : Word) : Run := ⟨wk, pc, members, 0, none, 0, [], 0, none, false, 0, 0, false, none, 0, []⟩

/-- The slice instance of a warp starts (R281). -/
def State.startSlice (s : State) (wk : Nat) (L : Launch) (lid : Nat) : State :=
  let k := 0x80000000 + wk
  let s := s.setWarp k { alive := true, lid := lid, asid := L.asid }
  let s := s.setThread k 0 (startThread L.access 0)
  s.setRun (sliceRun k) (some (newRun k L.access 1))

/-- First residency: registers, tiles and slots zero and full, shape slots loaded, warps at ENTRY (R56, R182, R276). -/
def State.startBlock (s : State) (bk : Nat) : State :=
  let b := s.block bk
  let L := s.launch b.lid
  let s := s.setBlock bk { present := b.present, lid := b.lid, bidx := b.bidx, resident := b.resident, since := b.since, started := true,
                           shape := L.shapes.filter (fun p => p.1 < L.alloc.nts) }
  foldS (List.range L.nwarp) s (fun s w =>
    let wk := 32 * bk + w
    let s := s.setWarp wk (startWarp L b.lid b.bidx w)
    let s := foldS (List.range 32) s (fun s t => s.setThread wk t (startThread L.entry L.ften))
    if L.access ≠ 0 then s.startSlice wk L b.lid else s)

/-- Warp slots of a core in use (R280). -/
def State.usedSlots (s : State) (c : Nat) : List Nat :=
  (s.core c).resident.flatMap (fun bk => (s.blockWarps bk).map (fun wk => (s.warp wk).wslot))

/-- The warps of a block take the lowest free slots. -/
def State.placeWarps (s : State) (c bk : Nat) : State :=
  let used := s.usedSlots c
  let free := (List.range 256).filter (fun i => !used.contains i)
  foldS ((s.blockWarps bk).zip free) s (fun s p => s.modWarp p.1 (fun w => { w with wslot := p.2, elig := 0 }))

/-- BLOCK_RESIDENT (R278): a block becomes resident, or is restored. -/
def State.makeResident (s : State) (c bk : Nat) : State :=
  let s := if (s.block bk).started then s.readImage (s.imagePlace bk) else s.startBlock bk
  let s := s.placeWarps c bk
  let s := s.modBlock bk (fun b => { b with resident := true, leaving := false, since := s.clk })
  s.modCore c (fun k => { k with resident := k.resident ++ [bk], waiting := k.waiting.filter (fun x => x != bk) })

/-- While the head of the waiting list fits, it becomes resident; an empty waiting list stops the quantum timer. -/
def State.fillCore (s : State) (c : Nat) : Nat → State
  | 0 => s
  | fuel + 1 =>
    match (s.core c).waiting with
    | [] => s
    | bk :: _ => if s.fits ((s.core c).resident ++ [bk]) && (!(s.block bk).started || s.imageReach bk (s.imagePlace bk)) then (s.makeResident c bk).fillCore c fuel else s

/-- Fills a core; once no block waits, none is on its way off (R46). -/
def State.fill (s : State) (c : Nat) : State :=
  let s := (s.tdSync c).fillCore c (s.core c).waiting.length
  if (s.core c).waiting = [] then foldS (s.core c).resident s (fun s bk => s.modBlock bk (fun b => { b with leaving := false })) else s

/-! ### Taking blocks off (R47) -/

/-- A run of a warp of the block is in progress; a slice instance is stopped between instructions. -/
def State.blockRuns (s : State) (bk : Nat) : Bool := s.runList.any (fun p => p.1 < 0x10000000000 && !isSys p.2.wk && bkOf p.2.wk == bk)

/-- Array commands that complete before their block is taken off (R224). -/
def shortArr : Instr → Bool
  | .aclr .. | .ladinit .. | .attfin .. => true
  | _ => false

/-- A delivery of a trap of the block is due (R339, R349). -/
def State.deliverDue (s : State) (bk : Nat) : Bool :=
  (s.blockWarps bk).any (fun wk => s.trapped wk != [] && !(s.warp wk).stopped &&
    !(List.range 32).any (fun t => (s.thread wk t).live && (s.thread wk t).inHandler))

/-- The block may be taken off (R47, R224, R349, R378): its runs have ended, the array commands that are not stopped have completed, no retry or
remap is under way, and no delivery is due. -/
def State.mayLeave (s : State) (bk : Nat) : Bool :=
  !s.blockRuns bk && !s.deliverDue bk && !s.cmdList.any (fun p => p.2.array && p.2.bk == bk && p.2.st == .running && p.2.await == 0 &&
    (shortArr p.2.ins || (p.2.extra != 0 && p.2.ldone < p.2.extra * p.2.split)))

/-- The block's array commands stop: what they have landed is whole rows, passes, lines, steps or rungs, and they go on from the cycle of their
count in which they stand (R47, R224). One that stands at a page still waits for its REPLAY (R364). -/
def State.stopArrays (s : State) (bk : Nat) : State :=
  let cs := s.cmdList.filter (fun p => p.2.array && p.2.bk == bk && (p.2.st == .running || p.2.st == .stopped) && !(shortArr p.2.ins && p.2.await == 0))
  let ids := cs.map Prod.fst
  let keep (u : Option Nat) : Option Nat := u.filter (fun i => !ids.contains i)
  let s := s.modCore (bk / 4096) (fun k => { k with compute := keep k.compute, transfer := keep k.transfer })
  foldS cs s (fun s p => s.setCmd p.1 (some { p.2 with st := .queued, begun := true, paged := p.2.st == .stopped, skip := p.2.elapsed s.clk }))

/-- The block leaves the resident list for the tail of the waiting list, and its image is written; the last-page registers are cleared
(R48, R275). -/
def State.takeOff (s : State) (c bk : Nat) : State :=
  let s := ((s.tdSync c).stopArrays bk).writeFree (s.imagePlace bk).1 (s.imagePlace bk).2 Config.ctxSize
  let s := s.modBlock bk (fun b => { b with resident := false, leaving := false })
  s.modCore c (fun k => { k with resident := k.resident.filter (fun x => x != bk), waiting := k.waiting ++ [bk], last := [] })

/-- Rotation (R278): the longest-resident blocks are taken off until the head of the waiting list fits; then the core fills and the
timer restarts. A block that may not be taken off yet begins no further run and is waited for. -/
def State.rotate (s : State) (c head : Nat) : Nat → State
  | 0 => s
  | fuel + 1 =>
    match (s.core c).resident with
    | [] => (s.fill c).modCore c (fun k => { k with qStart := s.dev.now })
    | bk :: _ =>
      if !s.mayLeave bk || !s.imageReach bk (s.imagePlace bk) then s.modBlock bk (fun b => { b with leaving := true })
      else
        let s1 := s.takeOff c bk
        if s1.fits ((s1.core c).resident ++ [head]) then (s1.fill c).modCore c (fun k => { k with qStart := s1.dev.now })
        else s1.rotate c head fuel

/-- A block of the core is on its way off. -/
def State.leaving (s : State) (c : Nat) : Bool := (s.core c).resident.any (fun bk => (s.block bk).leaving)

/-- QUANTUM_EXPIRY: the timer has run `%quantum` microseconds, or a block is on its way off. -/
def execQuantumExpiry (core : Nat) (s : State) : Result :=
  match (s.core core).waiting with
  | [] => .next s
  | head :: _ =>
    if s.dev.now < (s.core core).qStart + 1000 * (s.core core).quantum.toNat ∧ !s.leaving core then .next s
    else .next (s.rotate core head ((s.core core).resident.length + 1))

/-! ### Assignment (R273, R279) -/

def Launch.home (L : Launch) (b : Nat) : Nat :=
  match L.pmap with
  | some m => (m.getD b 0).toNat
  | none => (L.first + L.stride * b) % 192

def State.freeTag (s : State) (c : Nat) : Option Nat := (List.range 4096).find? (fun i => !(s.block (bkey c i)).present)

/-- Blocks of a launch that wait for assignment, ascending. -/
def Launch.unassigned (L : Launch) : List Nat := (List.range L.nblocks).filter (fun b => !Fmap.get false L.assigned b)

/-- An earlier launch has a block waiting for a tag of the core. -/
def State.earlierWaits (s : State) (lid c : Nat) : Bool :=
  s.launches.any (fun p => p.1 < lid && p.2.present && p.2.unassigned.any (fun b => p.2.home b == c))

/-- A block joins the tail of a waiting list, and the core fills; a waiting list that comes about starts the timer (R278). -/
def State.joinWaiting (s : State) (c bk : Nat) : State :=
  let idle := (s.core c).waiting == []
  let s := (s.modCore c (fun k => { k with waiting := k.waiting ++ [bk] })).fill c
  if idle then s.modCore c (fun k => { k with qStart := s.dev.now }) else s

/-- An assigned block takes a tag of its home core, and a place on it. -/
def State.assignTo (s : State) (lid b c tag : Nat) : State :=
  let bk := bkey c tag
  let s := s.setBlock bk { present := true, lid := lid, bidx := b }
  let s := s.modLaunch lid (fun L => { L with assigned := Fmap.set false L.assigned b true })
  let s := s.joinWaiting c bk
  let prio := (s.launch lid).prio
  if (s.core c).waiting.contains bk ∧ (s.core c).resident.all (fun x => (s.launchOf x).prio < prio) then
    s.rotate c ((s.core c).waiting.headD bk) ((s.core c).resident.length + 1)
  else s

/-- BLOCK_ASSIGN: the first waiting block of the launch whose home core has a free tag. -/
def execBlockAssign (lid : Nat) (s : State) : Result :=
  let L := s.launch lid
  if !L.present then .next s else
  match L.unassigned.find? (fun b => (s.freeTag (L.home b)).isSome && !s.earlierWaits lid (L.home b)) with
  | none => .next s
  | some b =>
    match s.freeTag (L.home b) with
    | none => .next s
    | some tag => .next (s.assignTo lid b (L.home b) tag)

/-! ### Retirement (R205) -/

/-- The block may retire: its warps have, its commands and deferred adds are done, its loads have landed. -/
def State.mayRetire (s : State) (bk : Nat) : Bool :=
  let b := s.block bk
  b.present && b.started && !b.ctxOff &&
    (s.blockWarps bk).all (fun wk => !(s.warp wk).alive && (s.warp wk).aft == []) &&
    !s.cmdList.any (fun p => p.2.bk == bk) &&
    !s.accList.any (fun p => p.2.reads && bkOf p.2.wk == bk && !isSys p.2.wk) && !s.blockRuns bk

/-- BLOCK_RETIRE: space and tag are freed, tiles and slots keep what they hold until they are given to another block, notices still held
for the block are discarded (R347), and the core fills. -/
def execBlockRetire (core btag : Nat) (s : State) : Result :=
  let bk := bkey core btag
  if !s.mayRetire bk then .next s else
  let lid := (s.block bk).lid
  let s := (s.tdSync core).modBlock bk (fun b => {
    tile := b.tile, tileEmpty := b.tileEmpty, tilePois := b.tilePois, slot := b.slot, slotEmpty := b.slotEmpty, slotPois := b.slotPois })
  let s := s.modCore core (fun k => { k with resident := k.resident.filter (fun x => x != bk), waiting := k.waiting.filter (fun x => x != bk),
                                             kicks := k.kicks.filter (fun n => n.btag != btag) })
  let s := s.modLaunch lid (fun L => { L with retired := L.retired + 1 })
  let s := foldS ((s.launch lid).groups.map Prod.fst) s (fun s g => s.gbarCheck lid g)
  .next (s.fill core)

end Sys2Proof.Machine
end

