-- ==== Sys2Proof/Machine/System.lean ====
section
/-! DEFINITION. System instructions, class 0xE (R209 to R217), the registers they read and write (R211, R266, R309, R320),
translation flushes (R214), the winter queue (R215, R258), replay (R361), block contexts (R216, R363) and links (R217,
R393). -/

namespace Sys2Proof.Machine

/-- Die and slot of a system warp. -/
def sysDie (wk : Nat) : Nat := (wk - 0x40000000) / 2

/-! ### Reading (R211, R213, R264) -/

/-- A read of `%sysreq` (R213): the oldest request not taken, and `%sysarg`. -/
def State.sysreqTake (s : State) (wk : Nat) : DWord × State :=
  let d := sysDie wk
  match (s.die d).sysq.find? (fun r => !r.taken) with
  | none => (0, s)
  | some r =>
    (BitVec.ofNat 64 (coreOf r.wk * 2 ^ 56 + btagOf r.wk * 2 ^ 44 + widx r.wk * 2 ^ 39 + r.id * 2 ^ 33 + 2 ^ 32 + r.code * 2 ^ 16),
     (s.modDie d (fun D => { D with sysq := D.sysq.map (fun q => if q.id == r.id then { q with taken := true } else q) })).modWarp wk
       (fun w => { w with sysarg := r.arg }))

/-- A read of `%mnq` (R264). -/
def State.mnqTake (s : State) : DWord × State :=
  match s.dev.mnq with
  | (g, n) :: rest => (BitVec.ofNat 64 (2 ^ 63 + g * 2 ^ 32 + n), s.setDev { s.dev with mnq := rest })
  | [] => (0, s)

/-- MFSR of a register, with its read side effect. -/
def State.mfsr (s : State) (wk n : Nat) : DWord × State :=
  if n = 0x202 then s.sysreqTake wk
  else if n = 0x246 then s.mnqTake
  else if n = 0x2E6 then s.mboxTake (sysDie wk)
  else (s.srRead wk 0 n, s)

def srOf : Operand → Nat
  | .sr n => n.toNat
  | _ => 0

/-- MFSR. -/
def execMfsr (h : Hdr) (d a : Operand) (s : State) : Result :=
  laneOnce (.mfsr h d a) .int .int (fun c s => onceWrite (fun s => (words2 (s.mfsr c.wk (srOf a)).1, (s.mfsr c.wk (srOf a)).2)) c s) s

/-- SYSREQ_READ. -/
def execSysreqRead (die slot : Nat) (s : State) : Result := .next (s.sysreqTake (sysKey die slot)).2
/-- MNQ_READ. -/
def execMnqRead (s : State) : Result := .next s.mnqTake.2

/-! ### Writing -/

/-- A write of `%quantum`: every core of the die (R211). -/
def State.setQuantum (s : State) (die : Nat) (x : Word) : State :=
  foldS (List.range 48) s (fun s i => s.modCore (48 * die + i) (fun k => { k with quantum := BitVec.ofNat 32 (max 1 (min 65535 x.toNat)) }))

/-- A write of `%mclr` (R264). -/
def State.clearGroup (s : State) (x : Word) : State := s.setDev { s.dev with group := Fmap.set {} s.dev.group (x.toNat % 4096) {} }

/-- A write of `%chdata` (R260): the selected word, then the next one is selected. -/
def State.writeChdata (s : State) (x : Word) : State :=
  let e := s.dev.chsel.toNat / 16 % 16
  let j := s.dev.chsel.toNat % 16
  if 8 < j then s else
  s.setDev { s.dev with chtab := s.dev.chtab.set (9 * e + j) (x &&& 0xF07FFFFF),
                        chsel := BitVec.ofNat 32 (if j = 8 then (e + 1) % 16 * 16 else 16 * e + j + 1) }

/-- A write of `%fpown` (R309, R384): a new ENTASID empties the entries, active ones once they complete, clears the counters, and is
reported by the schedules that run on the port. -/
def State.writeFpown (s : State) (p : Nat) (x : Word) : State :=
  let P := s.port p
  if P.own.toNat / 65536 = x.toNat / 65536 then s.setPort p { P with own := x }
  else
    { s.setPort p { P with own := x, ctr := [], entry := P.entry.filterMap (fun e => if e.2.st = .active then some (e.1, { e.2 with abort := true }) else none) } with
      scheds := s.scheds.map (fun q => (q.1, { q.2 with run := q.2.run.map (fun r => if r.start.port = p then { r with abort := true } else r) })) }

/-- Registers with a plain value: the bits a write keeps and the limits it obeys (R212, R260, R266, R309, R320, R323, R324). -/
def State.writePlain (s : State) (wk n : Nat) (x : DWord) : State :=
  let d := sysDie wk
  let lim (lo hi m : Nat) : Word := BitVec.ofNat 32 (max lo (min hi (x.lo.toNat % m)))
  let mD (f : Die → Die) : State := s.modDie d f
  if n = 0x201 then s.modWarp wk (fun w => { w with syswake := x.lo &&& 0xFF })
  else if n = 0x240 then s.setDev { s.dev with asidtab := x &&& 0x000FFFFFFFFF0000 }
  else if n = 0x244 then s.setDev { s.dev with mthresh := x.lo }
  else if n = 0x249 then s.setDev { s.dev with chsel := x.lo &&& 0xFF }
  else if n = 0x24B then s.setDev { s.dev with mgsel := x.lo &&& 0xFFF }
  else if n = 0x2A0 then s.setDev { s.dev with devid := x.lo &&& 0xFF }
  else if n = 0x2A1 then s.setDev { s.dev with fptmo := x.lo &&& 0xFFFF }
  else if n = 0x2A2 then s.setDev { s.dev with plimit := lim 600 2400 4096 }
  else if n = 0x2A3 then s.setDev { s.dev with pcap := lim 16 60 64 }
  else if n = 0x2C0 then mD (fun D => { D with dbgtgt := x.lo })
  else if n = 0x2C3 then mD (fun D => { D with dbgsel := x.lo &&& 0xC1F003FF })
  else if 0x2C8 ≤ n ∧ n ≤ 0x2D7 ∧ n % 4 = 0 then
    mD (fun D => { D with cmp := Fmap.set {} D.cmp ((n - 0x2C8) / 4) { Fmap.get {} D.cmp ((n - 0x2C8) / 4) with va := x } })
  else if 0x2C8 ≤ n ∧ n ≤ 0x2D7 ∧ n % 4 = 2 then
    mD (fun D => { D with cmp := Fmap.set {} D.cmp ((n - 0x2C8) / 4) { Fmap.get {} D.cmp ((n - 0x2C8) / 4) with ctl := x.lo &&& 0xFF01FFFF } })
  else if n = 0x2D8 ∨ n = 0x2D9 then mD (fun D => { D with tcfg := Fmap.set 0 D.tcfg (n - 0x2D8) (x.lo &&& 0xFFFFFF03) })
  else if n = 0x2DA ∨ n = 0x2DB then mD (fun D => { D with tcnt := Fmap.set 0 D.tcnt (n - 0x2DA) x.lo })
  else if 0x2DC ≤ n ∧ n ≤ 0x2DF then mD (fun D => { D with tsq := Fmap.set 0 D.tsq (n - 0x2DC) ((x.lo &&& 0xECF) ^^^ 0xF) })
  else if n = 0x2E0 then mD (fun D => { D with tsWrite := some x.lo })
  else if n = 0x2E2 then mD (fun D => { D with trbase := x })
  else if n = 0x2E4 then mD (fun D => { D with trsize := x.lo })
  else s

/-- MTSR of a register. -/
def State.mtsr (s : State) (wk n : Nat) (x : DWord) : State :=
  if n = 0x01D then s.setQuantum (sysDie wk) x.lo
  else if n = 0x245 then s.clearGroup x.lo
  else if n = 0x24A then s.writeChdata x.lo
  else if 0x280 ≤ n ∧ n ≤ 0x29F then s.writeFpown ((n - 0x280) / 2) x.lo
  else if n = 0x2C1 then s.dbgCmd (sysDie wk) (x.toNat % 8)
  else if n = 0x2C4 then s.dbgWrite (sysDie wk) x.lo
  else s.writePlain wk n x

/-- MTSR. -/
def execMtsr (h : Hdr) (d a : Operand) (s : State) : Result :=
  laneOnce (.mtsr h d a) .int .int (fun c s => .done (s.mtsr c.wk (srOf d) c.av)) s

/-- CHDATA_WRITE. -/
def execChdataWrite (x : Word) (s : State) : Result := .next (s.writeChdata x)
/-- MCLR_WRITE. -/
def execMclrWrite (x : Word) (s : State) : Result := .next (s.clearGroup x)
/-- QUANTUM_WRITE. -/
def execQuantumWrite (die : Nat) (x : Word) (s : State) : Result := .next (s.setQuantum die x)
/-- FPOWN_WRITE. -/
def execFpownWrite (port : Nat) (x : Word) (s : State) : Result := .next (s.writeFpown port x)
/-- REGISTER_WRITE. -/
def execRegisterWrite (die slot : Nat) (n : BitVec 10) (x : DWord) (s : State) : Result := .next (s.writePlain (sysKey die slot) n.toNat x)

/-! ### System calls (R207, R213) -/

/-- ERET's effect: the result pair in D of each held thread, which continues; the entry is free. -/
def State.endSyscall (s : State) (die id : Nat) (res : DWord) : State :=
  match (s.die die).sysq.find? (fun r => r.id == id && r.taken) with
  | none => s
  | some r =>
    let s := s.modDie die (fun D => { D with sysq := D.sysq.filter (fun q => q.id != id) })
    foldS (List.range 32) s (fun s t =>
      match (s.thread r.wk t).hold with
      | .sysc i d => if i = id then (s.deliverTo r.wk [.v r.wk t d, .v r.wk t (d + 1)] (words2 res)).release r.wk t else s
      | _ => s)

/-- ERET: a release, and its effect. -/
def execEret (h : Hdr) (a b : Operand) (s : State) : Result :=
  laneOnce (.eret h a b) .int .int (fun c s =>
    .done (s.releaseAll c.wk c.act (.eret (c.av.toNat % 64) c.bv) (fun s => s.endSyscall (sysDie c.wk) (c.av.toNat % 64) c.bv))) s

/-- The active threads of an instruction are held. -/
def State.holdAll (s : State) (c : TC) (h : Hold) : State := foldS (maskList c.act) s (fun s t => s.modThread c.wk t (fun r => { r with hold := h }))

/-- `%sysev` AND `%syswake` (R212). -/
def State.wakes (s : State) (wk : Nat) : Bool := s.sysev (sysDie wk) &&& (s.warp wk).syswake != 0

/-- HALT (R212). -/
def execHalt (h : Hdr) (s : State) : Result :=
  laneOnce (.halt h) .int .int (fun c s => .done (if s.wakes c.wk then s else s.holdAll c .halt)) s

/-! ### Flushes (R214) -/

/-- TLBFLS. -/
def execTlbfls (h : Hdr) (a : Operand) (s : State) : Result :=
  laneOnce (.tlbfls h a) .int .int (fun c s =>
    let asid : BitVec 16 := c.av.setWidth 16
    let cut (l : List TlbE) : List TlbE := l.filter (fun e => e.asid != asid)
    let s := foldS (s.cores.map Prod.fst) s (fun s k => s.modCore k (fun x => { x with tlb := cut x.tlb }))
    let s := foldS (s.diesT.map Prod.fst) s (fun s k => s.modDie k (fun x => { x with tlb := cut x.tlb }))
    .done (s.modWarp c.wk (fun w => { w with flushAt := s.tseq }))) s

/-- TLDRAIN. -/
def execTldrain (h : Hdr) (s : State) : Result := laneOnce (.tldrain h) .int .int (fun c s => .done (s.holdAll c .tldrain)) s

/-- Threads of a warp with a hold. -/
def State.heldBy (s : State) (wk : Nat) (p : Hold → Bool) : List Nat := (List.range 32).filter (fun t => p (s.thread wk t).hold)

/-- TLDRAIN_COMPLETE: the accesses whose translation was read before the warp's TLBFLS are done, those that have gone into a side log
since, and those that a last-page register served after it, among them; the last-page registers are cleared. An engine and a fetch
translate and access in one step. -/
def execTldrainComplete (die slot : Nat) (s : State) : Result :=
  let wk := sysKey die slot
  let ts := s.heldBy wk (fun h => h == .tldrain)
  if ts = [] ∨ s.accList.any (fun p => p.2.tseq != 0 && p.2.rseq ≤ (s.warp wk).flushAt) then .next s
  else
    let s := foldS (s.cores.map Prod.fst) s (fun s k => s.modCore k (fun x => { x with last := [] }))
    .next (foldS ts s (fun s t => s.release wk t))

/-! ### Fault buffer and replay (R359, R361) -/

/-- The 128 bits of a fault-buffer entry (R359). -/
def FbE.bits (e : FbE) : Nat :=
  e.vpn * 2 ^ 80 + e.asid.toNat * 2 ^ 64 + e.nreq * 2 ^ 48 + e.core * 2 ^ 40 + e.acc.toNat * 2 ^ 34 + e.level.toNat * 2 ^ 32 +
    (if e.eng then 2 ^ 31 else 0)

/-- FBRD. -/
def execFbrd (h : Hdr) (d a : Operand) (s : State) : Result :=
  laneOnce (.fbrd h d a) .int .int (fun c s =>
    onceWrite (fun s => (wordsOf 4 (match (s.die (sysDie c.wk)).fb[c.av.toNat]? with | some e => e.bits | none => 0), s)) c s) s

/-- FBPOP. -/
def execFbpop (h : Hdr) (s : State) : Result :=
  laneOnce (.fbpop h) .int .int (fun c s => .done (s.modDie (sysDie c.wk) (fun D => { D with fb := D.fb.drop 1 }))) s

/-- Unheld by REPLAY: an access that is parked or in a side log walks afresh, in turn. -/
def Access.again (n : Nat) (a : Access) : Access := { a with st := .issued, turn := n }

/-- Side logs, loads, atomics: the order in which REPLAY takes what is held (R361). -/
def Access.replayKey (a : Access) : Nat := if a.st = .logged then 0 else if a.kind = .load then 1 else 2

/-- One held access is taken before another: each warp's side log in log order, then parked loads, then atomics. -/
def replayBefore (p q : Nat × Access) : Bool :=
  p.2.replayKey < q.2.replayKey || (p.2.replayKey == q.2.replayKey &&
    (if p.2.replayKey = 0 then p.2.wk < q.2.wk || (p.2.wk == q.2.wk && p.2.tlog < q.2.tlog) else p.1 < q.1))

def insReplay (p : Nat × Access) : List (Nat × Access) → List (Nat × Access)
  | [] => [p]
  | q :: l => if replayBefore p q then p :: q :: l else q :: insReplay p l

/-- The accesses that a die holds, in the order in which REPLAY takes them. -/
def State.replayList (s : State) (d : Nat) : List (Nat × Access) :=
  (s.accList.filter (fun p => dieOf (coreOf p.2.wk) == d && (p.2.st == .parked || p.2.st == .logged))).foldl (fun l p => insReplay p l) []

/-- REPLAY's effect on a die: every access, fetch and engine operation held for a page is presented again (R361, R388). -/
def State.replay (s : State) (d : Nat) : State :=
  let s := s.modDie d (fun D => { D with dropped := false })
  let s := foldS (s.replayList d) s (fun s p => (s.modAcc p.1 (Access.again s.nextId)).bumpId)
  let s := foldS (s.threads.map Prod.fst) s (fun s k =>
    match (s.thread (k / 32) (k % 32)).hold with
    | .fetch => if dieOf (coreOf (k / 32)) = d then s.release (k / 32) (k % 32) else s
    | _ => s)
  let s := foldS (s.warps.map Prod.fst) s (fun s k => if dieOf (coreOf k) = d then s.modWarp k (fun w => { w with stkStop := false }) else s)
  let s := foldS (s.cmdList.filter (fun p => dieOf (coreOf p.2.wk) == d)) s
    (fun s p => s.modCmd p.1 (fun c => { c with st := (if c.st = .stopped then .running else c.st), held := 0, pages := [], paged := false, again := c.again ||| c.held }))
  let s := foldS ((List.range 16).filter (fun p => p % 4 == d)) s (fun s p =>
    s.modPort p (fun P => { P with entry := P.entry.map (fun e => (e.1, { e.2 with stopped := false })),
                                   held := P.held.map (fun a => { a with stopped := false }) }))
  foldS (s.scheds.map Prod.fst) s (fun s k =>
    let S := s.sched k
    match S.run with
    | some r => if r.start.port % 4 = d then s.setSched k { S with run := some { r with stopped := false } } else s
    | none => s)

/-- REPLAY. -/
def execReplay (h : Hdr) (s : State) : Result := laneOnce (.replay h) .int .int (fun c s => .done (s.replay (sysDie c.wk))) s

/-! ### The winter queue (R215, R258) -/

/-- WINQ `.push`. -/
def execWinqPush (h : Hdr) (a : Operand) (s : State) : Result :=
  laneOnce (.winqPush h a) .int .int (fun c s =>
    if (s.die (sysDie c.wk)).winq.length ≥ 4096 then .wait s
    else .done (s.modDie (sysDie c.wk) (fun D => { D with winq := D.winq ++ [(c.av.extractLsb' 16 36 ++ 0#16, s.dev.qcnt)] }))) s

/-- WINQ `.pop`: held until the oldest page may leave; a thread whose D traps raises that trap. -/
def execWinqPop (h : Hdr) (d : Operand) (s : State) : Result :=
  laneOnce (.winqPop h d) .int .int (fun c s =>
    let n := s.nextId
    match s.dests c with
    | none => .wait s
    | some ps =>
      let wins := s.winsOf c.wk c.g.d
      match ps.foldl (fun (o : Option State) p => o.bind (fun s => s.accRange c.key c.wk (c.g.d.map OpS.x) p.2.locs)) (some s.bumpId) with
      | none => .wait s
      | some s1 => .done (foldS ps (s1.expect c.key c.wk (ps.flatMap (fun p => p.2.locs))) (fun s p => match p.2 with
      | .ok ls => s.modThread c.wk p.1 (fun r => { r with hold := .winqPop n ls wins })
      | .trap k td => s.raise c.wk p.1 k c.pc td
      | .wait => s))) s

/-- The pop number of a held thread. -/
def popNum : Hold → Option Nat
  | .winqPop n _ _ => some n
  | _ => none

/-- WINQ_POP_COMPLETE: the oldest `.pop` of the warp takes the oldest page. -/
def execWinqPopComplete (die slot : Nat) (s : State) : Result :=
  let wk := sysKey die slot
  match (s.die die).winq, (List.range 32).filterMap (fun t => popNum (s.thread wk t).hold) with
  | (page, _) :: rest, n :: ns =>
    if !s.winterReady die then .next s else
    let m := ns.foldl min n
    let s := s.modDie die (fun D => { D with winq := rest })
    .next (foldS (List.range 32) s (fun s t =>
      match (s.thread wk t).hold with
      | .winqPop k ls _ => if k = m then (s.deliverTo wk ls (words2 (page.setWidth 64))).release wk t else s
      | _ => s))
  | _, _ => .next s

/-! ### Block contexts (R216, R354, R363) -/

/-- The block a target word names; the warp field is ignored. -/
def State.ctxBlock (s : State) (w : Word) : Option Nat :=
  if w.toNat % 256 < 192 ∧ w.toNat / 2 ^ 25 = 0 ∧ (s.block (targetBk w)).present then some (targetBk w) else none

/-- CTXSV; a word that names no block on its core acts on nothing. -/
def execCtxsv (h : Hdr) (a b : Operand) (s : State) : Result :=
  laneOnce (.ctxsv h a b) .int .int (fun c s =>
    match s.ctxBlock c.av.lo with
    | some bk => .done (if (s.block bk).ctxOff then s else s.holdAll c (.ctxsv bk c.bv))
    | none => .done s) s

/-- CTXLD. -/
def execCtxld (h : Hdr) (a b : Operand) (s : State) : Result :=
  laneOnce (.ctxld h a b) .int .int (fun c s =>
    match s.ctxBlock c.av.lo with
    | some bk => .done (if (s.block bk).ctxOff then s.holdAll c (.ctxld bk c.bv) else s)
    | none => .done s) s

/-- A CTXSV of the block is under way: its warps begin no further run. -/
def State.ctxWanted (s : State) (bk : Nat) : Bool :=
  s.threads.any (fun p => match p.2.hold with | .ctxsv b _ => b == bk | _ => false)

/-- A side-log entry as R363 lays it out. -/
def logBytes (a : Access) : List Byte :=
  let red := a.kind == .red
  leBytes 32 ((a.data.toNat / 2 ^ (8 * a.off)) % 2 ^ 128 * 2 ^ 128 + 2 ^ 127 + a.t * 2 ^ 122 + (if red then a.oper.code.toNat else 15) * 2 ^ 118 +
    (if red then a.ty.code.toNat else 0) * 2 ^ 114 + a.sizeOf * 2 ^ 111 + (if a.rel then 2 ^ 110 else 0) + a.va.toNat % 2 ^ 56)

/-- The side logs of a block's warps, in log order, 64 slots of 32 bytes for each of 32 warps. -/
def State.logImage (s : State) (bk : Nat) : List Byte :=
  (List.range 32).flatMap (fun w =>
    let l := s.accList.filter (fun p => p.2.wk == 32 * bk + w && p.2.lid == (s.block bk).lid && p.2.bidx == (s.block bk).bidx && p.2.tlog != 0)
    let l := (l.map Prod.snd).mergeSort (fun a b => a.tlog ≤ b.tlog)
    let b := (l.take 64).flatMap logBytes
    b ++ List.replicate (2048 - b.length) 0)

/-- The block may be taken off, and its stores and atomics are performed or logged (R354). -/
def State.ctxReady (s : State) (bk : Nat) : Bool :=
  s.mayLeave bk &&
    !s.accList.any (fun p => p.2.kind != .load && p.2.unperformed && p.2.st != .logged && !isSys p.2.wk && bkOf p.2.wk == bk &&
      p.2.lid == (s.block bk).lid && p.2.bidx == (s.block bk).bidx)

/-- The image of CTXSV: the side logs of R363, and around them what is private to the device, as open values (log 22). -/
def State.writeImage (s : State) (bk : Nat) (va : DWord) : State :=
  let s := s.writeFree 0 va Config.ctxSize
  match s.writeD 0 (va + 0x440000) (s.logImage bk) with
  | .ok s => s
  | .error _ => s

/-- CTXSV_COMPLETE: the block is off its core and its image is complete. -/
def execCtxsvComplete (die slot : Nat) (s : State) : Result :=
  let wk := sysKey die slot
  match (List.range 32).findSome? (fun t => match (s.thread wk t).hold with | .ctxsv b v => some (b, v) | _ => none) with
  | none => .next s
  | some (bk, va) =>
    let ts := s.heldBy wk (fun h => h == .ctxsv bk va)
    if !s.ctxReady bk ∨ !s.imageReach bk (0, va) ∨ ts.any (fun t => s.relDue wk t s.nextId false (.fence true)) then .next s else
    let c := bk / 4096
    let s2 := (((s.writeImage bk va).tdSync c).stopArrays bk).modBlock bk (fun b => { b with resident := false, leaving := false, ctxOff := true, ctxImage := va })
    let s3 := s2.modCore c (fun k => { k with resident := k.resident.filter (fun x => x != bk), waiting := k.waiting.filter (fun x => x != bk),
                                              last := (if k.resident.contains bk then [] else k.last) })
    .next ((foldS ts s3 (fun s t => s.release wk t)).fill c)

/-- CTXLD_COMPLETE: the image is read, and the block joins its core's rotation as one just taken off, with its image where R275 puts it. -/
def execCtxldComplete (die slot : Nat) (s : State) : Result :=
  let wk := sysKey die slot
  match (List.range 32).findSome? (fun t => match (s.thread wk t).hold with | .ctxld b v => some (b, v) | _ => none) with
  | none => .next s
  | some (bk, va) =>
    if !s.imageReach bk (0, va) || !s.imageReach bk (s.imagePlace bk) then .next s else
    let s1 := foldS (s.heldBy wk (fun h => h == .ctxld bk va)) ((s.readImage (0, va)).writeFree (s.imagePlace bk).1 (s.imagePlace bk).2 Config.ctxSize) (fun s t => s.release wk t)
    .next ((s1.modBlock bk (fun b => { b with ctxOff := false })).joinWaiting (bk / 4096) bk)

/-! ### Links (R217, R393) -/

/-- The link a word names, if the warp may act on it: fabric port or not, and its index. -/
def linkOf (die : Nat) (w : Word) : Option (Bool × Nat) :=
  let i := w.toNat % 256
  if w.toNat / 512 ≠ 0 then none
  else if w.getLsbD 8 then (if i < 16 then some (true, i) else none)
  else if i < 40 ∧ i / 10 = die then some (false, i) else none

def State.link (s : State) (k : Bool × Nat) : Link := if k.1 then (s.port k.2).link else Fmap.get {} s.links k.2
def State.setLink (s : State) (k : Bool × Nat) (x : Link) : State :=
  if k.1 then s.modPort k.2 (fun p => { p with link := x }) else { s with links := Fmap.set {} s.links k.2 x }

/-- The status word (R217). -/
def Link.word (l : Link) (fabric : Bool) : Nat :=
  l.retry * 65536 + (if l.paused then 128 else 0) + (if l.half then 64 else 0) + (if fabric then 0 else 4 - l.used)

/-- LNKCTL `.stat`. -/
def execLnkctlStat (h : Hdr) (d a b : Operand) (s : State) : Result :=
  laneOnce (.lnkctlStat h d a b) .int .int (fun c s =>
    onceWrite (fun s => match linkOf (sysDie c.wk) c.av.lo with
      | some k => ([BitVec.ofNat 32 ((s.link k).word k.1)], s.setLink k { s.link k with retry := 0 })
      | none => ([0], s)) c s) s

/-- An LNKCTL that acts on a link it may act on. -/
def linkBody (f : Bool × Nat → TC → State → State) (c : TC) (s : State) : TRes :=
  match linkOf (sysDie c.wk) c.av.lo with
  | some k => .done (f k c s)
  | none => .done s

/-- A link that is being paused is not empty yet. -/
def State.draining (s : State) (k : Bool × Nat) : Bool := s.threads.any (fun p => p.2.hold == .linkPause k.1 k.2)

/-- LNKCTL `.pause`: at once on a link that is paused and empty already. -/
def execLnkctlPause (h : Hdr) (a b : Operand) (s : State) : Result :=
  laneOnce (.lnkctlPause h a b) .int .int (linkBody (fun k c s =>
    if (s.link k).paused && !s.draining k then s else (s.setLink k { s.link k with paused := true }).holdAll c (.linkPause k.1 k.2))) s

/-- A module sends again what it kept for replay. -/
def State.unstick (s : State) (m : Nat) : State :=
  foldS (s.accList.filter (fun p => p.2.stuck == some m)) s (fun s p => s.modAcc p.1 (fun a => { a with stuck := none }))

/-- LNKCTL `.resume`: what a module kept is sent again (R394); a module that training found dead stays paused. -/
def execLnkctlResume (h : Hdr) (a b : Operand) (s : State) : Result :=
  laneOnce (.lnkctlResume h a b) .int .int (linkBody (fun k _ s =>
    if (s.link k).dead then s else
      let s := if k.1 then s else s.unstick k.2
      s.setLink k { s.link k with paused := false, kept := 0 })) s

/-- LNKCTL `.remap`, on a paused UCIe module. -/
def execLnkctlRemap (h : Hdr) (a b : Operand) (s : State) : Result :=
  laneOnce (.lnkctlRemap h a b) .int .int (linkBody (fun k c s =>
    if k.1 || !(s.link k).paused then s else s.holdAll c (.linkRemap k.2 (c.bv.toNat % 64) (c.bv.toNat / 64 % 4)))) s

/-- LNKCTL `.train`, on a paused link. -/
def execLnkctlTrain (h : Hdr) (a b : Operand) (s : State) : Result :=
  laneOnce (.lnkctlTrain h a b) .int .int (linkBody (fun k c s => if (s.link k).paused then s.holdAll c (.linkTrain k.1 k.2 false) else s)) s

/-- LNKCTL `.half`, on a paused UCIe module. -/
def execLnkctlHalf (h : Hdr) (a b : Operand) (s : State) : Result :=
  laneOnce (.lnkctlHalf h a b) .int .int (linkBody (fun k c s => if !k.1 && (s.link k).paused then s.holdAll c (.linkTrain k.1 k.2 true) else s)) s

/-- The first hold of a warp's threads that a test accepts. -/
def State.firstHold {α : Type} (s : State) (wk : Nat) (f : Hold → Option α) : Option α := (List.range 32).findSome? (fun t => f (s.thread wk t).hold)

/-- The packet of an access crosses a module of a compute die: its request is on the way to its slice. -/
def State.crosses (s : State) (m : Nat) (a : Access) : Bool :=
  a.st == .ready && (routes (dieOf (coreOf a.wk)) (dieOfPa s.dev.chtab a.swz a.pa) a.pa).any (fun r =>
    r.any (fun p => p.1 == m / 10 && (sideOf p.1 p.2).contains (m % 10)))

/-- Packets are in flight over a module: those that have not reached their slices yet, but for what it keeps for replay (log 40). -/
def State.inFlight (s : State) (m : Nat) : Bool :=
  s.accList.any (fun p => s.clk < Fmap.get 0 s.travel p.1 && p.2.stuck != some m && s.crosses m p.2)

/-- LINK_PAUSE_COMPLETE: the link that the warp's lowest thread held by a `.pause` names is empty. -/
def execLinkPauseComplete (die slot : Nat) (s : State) : Result :=
  let wk := sysKey die slot
  match s.firstHold wk (fun h => match h with | .linkPause k i => some (k, i) | _ => none) with
  | none => .next s
  | some (k, i) =>
    if !k && s.inFlight i then .next s else .next (foldS (s.heldBy wk (fun h => h == .linkPause k i)) s (fun s t => s.release wk t))

/-- A remap comes into force: a spare that carried nothing is used up. -/
def Link.remap (l : Link) (lane spare : Nat) : Link :=
  if l.remaps.any (fun p => p.2 == spare) then { l with remaps := l.remaps.filter (fun p => p.2 != spare) ++ [(lane, spare)] }
  else { l with remaps := l.remaps ++ [(lane, spare)], used := min 4 (l.used + 1) }

/-- LINK_REMAP_COMPLETE. -/
def execLinkRemapComplete (die slot : Nat) (s : State) : Result :=
  let wk := sysKey die slot
  match s.firstHold wk (fun h => match h with | .linkRemap i l p => some (i, l, p) | _ => none) with
  | none => .next s
  | some (i, l, p) =>
    let s1 := s.setLink (false, i) ((s.link (false, i)).remap l p)
    .next (foldS (s1.heldBy wk (fun h => h == .linkRemap i l p)) s1 (fun s t => s.release wk t))

/-- Training at full width (R393): failing lanes take the free spares; too many of them leave 32 lanes; fewer than 32 good
lanes leave a module that carries nothing until reset. -/
def Link.train (l : Link) (bad : Nat) : Link :=
  if bad ≤ 4 - l.used then { l with used := l.used + bad, half := false }
  else if 64 - bad < 32 then { l with dead := true }
  else { l with used := 4, half := true }

/-- Of the two ports of a link, the one with the higher (device id, port) keeps the other's fabric time (R308). -/
def State.adoptsTime (s : State) (p : Nat) : Bool :=
  let l := (s.port p).plnk
  let dev := l.toNat / 256 % 256
  dev < s.dev.devid.toNat || (dev == s.dev.devid.toNat && l.toNat % 16 < p)

/-- A port adopts a fabric time, and with it the ports of the device whose peers follow them: so the time of the lowest device id
goes round a ring (R308; which ports of a device are of one ring is not stated, log 71). Backward only at training. -/
def State.adoptTime (s : State) (p : Nat) (time : DWord) (back : Bool) : State :=
  foldS (List.range 16) s (fun s q =>
    if (q = p || ((s.port q).plnk.getLsbD 31 && !s.adoptsTime q)) && (back || (s.ftime q).toNat < time.toNat) then
      s.modPort q (fun P => { P with ftOff := time - BitVec.ofNat 64 s.dev.now }) else s)

/-- A trained port of the device that keeps a peer's time: it has the time of its ring. -/
def State.ringPort (s : State) : Option Nat := (List.range 16).find? (fun q => (s.port q).plnk.getLsbD 31 && s.adoptsTime q)

/-- A fabric port is trained: it reports its peer, and takes the peer's time, or as a port that leads, the time that its device has
adopted. -/
def State.trainPort (s : State) (p : Nat) (dev : BitVec 8) (peer : BitVec 4) (time : DWord) : State :=
  let s := s.modPort p (fun P => { P with plnk := BitVec.ofNat 32 (2 ^ 31 + 256 * dev.toNat + peer.toNat) })
  if s.adoptsTime p then s.adoptTime p time true
  else match s.ringPort with
    | some q => s.modPort p (fun P => { P with ftOff := (s.port q).ftOff })
    | none => s

/-- LINK_TRAIN_COMPLETE: training ends; the link stays paused. -/
def execLinkTrainComplete (die slot : Nat) (badLanes : Nat) (peerDev : BitVec 8) (peerPort : BitVec 4) (peerTime : DWord) (s : State) : Result :=
  let wk := sysKey die slot
  match s.firstHold wk (fun h => match h with | .linkTrain k i b => some (k, i, b) | _ => none) with
  | none => .next s
  | some (k, i, b) =>
    let s1 := if k then s.trainPort i peerDev peerPort peerTime
      else s.setLink (k, i) (if b then (if 64 - badLanes < 32 then { s.link (k, i) with dead := true } else { s.link (k, i) with half := true })
        else (s.link (k, i)).train badLanes)
    .next (foldS (s1.heldBy wk (fun h => h == .linkTrain k i b)) s1 (fun s t => s.release wk t))

end Sys2Proof.Machine
end

