-- ==== Sys2Proof/Machine/Engine.lean ====
section
/-! DEFINITION. What the copy engine and the array share: places in the register space (R51 to R60, R345), the entry of a
command into its queue (R174 to R176, R283), the tiles and slots it holds (R72), its status word (R177, R352), byte-counting
barrier references (R178), reads and writes of memory (R255, R364, R368, R371), and the end of a command (R45, R372). -/

namespace Sys2Proof.Machine

/-! ### Places in the register space -/

/-- A register, a word of a tile or a word of a weight slot. -/
inductive Spot where
  | reg (l : Loc)
  | tile (bk i : Nat)
  | slot (bk i : Nat)
  deriving DecidableEq, Repr

def State.spotWord (s : State) : Spot → Word
  | .reg l => s.readLoc l
  | .tile bk i => Fmap.get 0 (s.block bk).tile i
  | .slot bk i => Fmap.get 0 (s.block bk).slot i

def State.spotPut (s : State) (x : Word) : Spot → State
  | .reg l => s.putLoc x l
  | .tile bk i => s.modBlock bk (fun b => { b with tile := Fmap.set 0 b.tile i x })
  | .slot bk i => s.modBlock bk (fun b => { b with slot := Fmap.set 0 b.slot i x })

def State.spotFull (s : State) : Spot → Bool
  | .reg l => s.full l
  | .tile bk i => !Fmap.get false (s.block bk).tileEmpty (granOf i)
  | .slot bk i => !Fmap.get false (s.block bk).slotEmpty (granOf i)

def State.spotPois (s : State) : Spot → Bool
  | .reg l => s.pois l
  | .tile bk i => Fmap.get false (s.block bk).tilePois (granOf i)
  | .slot bk i => Fmap.get false (s.block bk).slotPois (granOf i)

/-- An engine read is ready (R59). -/
def State.spotReady (s : State) (p : Spot) : Bool := s.spotFull p || s.spotPois p

/-- The granule becomes full, but for a CLRF of the same cycle (R139). -/
def State.spotFill (s : State) : Spot → State
  | .reg l => if s.wasEmptied false l then s else s.setFull true l
  | .tile bk i => s.modBlock bk (fun b => { b with tileEmpty := Fmap.set false b.tileEmpty (granOf i) false })
  | .slot bk i => s.modBlock bk (fun b => { b with slotEmpty := Fmap.set false b.slotEmpty (granOf i) false })

/-- Acceptance of a write into the granule (R60, R345): its F bit and its poison clear. -/
def State.spotAccept (s : State) : Spot → State
  | .reg l => ((s.clearPois l).setFull false l).noteEmptied true l
  | .tile bk i => s.modBlock bk (fun b =>
      { b with tile := (if Fmap.get false b.tilePois (granOf i) then zeroGran b.tile i else b.tile),
               tilePois := Fmap.set false b.tilePois (granOf i) false, tileEmpty := Fmap.set false b.tileEmpty (granOf i) true })
  | .slot bk i => s.modBlock bk (fun b =>
      { b with slot := (if Fmap.get false b.slotPois (granOf i) then zeroGran b.slot i else b.slot),
               slotPois := Fmap.set false b.slotPois (granOf i) false, slotEmpty := Fmap.set false b.slotEmpty (granOf i) true })

/-- The granule becomes full and poisoned (R372). -/
def State.spotPoison (s : State) : Spot → State
  | .reg l => s.poison l
  | .tile bk i => s.modBlock bk (fun b =>
      { b with tilePois := Fmap.set false b.tilePois (granOf i) true, tileEmpty := Fmap.set false b.tileEmpty (granOf i) false })
  | .slot bk i => s.modBlock bk (fun b =>
      { b with slotPois := Fmap.set false b.slotPois (granOf i) true, slotEmpty := Fmap.set false b.slotEmpty (granOf i) false })

/-- One place of each granule in a list of places. -/
def granSpots (ps : List Spot) : List Spot :=
  (ps.foldl (fun (r : List Spot × List Spot) p =>
    let g : Spot := match p with
      | .reg (.v w t i) => .reg (.v w t (granOf i * 4))
      | .reg (.s w i) => .reg (.s w (granOf i * 4))
      | .tile b i => .tile b (granOf i * 4)
      | .slot b i => .slot b (granOf i * 4)
    if r.2.contains g then r else (r.1 ++ [p], r.2 ++ [g])) ([], [])).1

/-- Bytes of consecutive words, by a map from word number to place. -/
def State.spotBytes (s : State) (f : Nat → Option Spot) (off n : Nat) : List Byte :=
  (List.range n).map (fun j => match f ((off + j) / 4) with
    | some p => (s.spotWord p).extractLsb' (8 * ((off + j) % 4)) 8
    | none => 0)

/-- Writes bytes over consecutive words. -/
def State.spotWrite (s : State) (f : Nat → Option Spot) (off : Nat) : List Byte → State
  | [] => s
  | b :: r =>
    let s1 := match f (off / 4) with
      | some p =>
        let k := 8 * (off % 4)
        s.spotPut ((s.spotWord p &&& ~~~(255#32 <<< k)) ||| (b.setWidth 32 <<< k)) p
      | none => s
    s1.spotWrite f (off + 1) r

def Spot.cell : Spot → Cell
  | .reg l => .reg l
  | .tile bk i => .tile bk i
  | .slot bk i => .slot bk i

/-- The core whose register space a place is in. -/
def Spot.core : Spot → Nat
  | .reg l => coreOf l.wk
  | .tile bk _ => if isSys bk then coreOf bk else bk / 4096
  | .slot bk _ => if isSys bk then coreOf bk else bk / 4096

/-- An engine command of a warp lands data in places of one core (R323). -/
def State.watchLand (s : State) (wk : Nat) (ps : List Spot) : State :=
  match ps with
  | [] => s
  | p :: _ =>
    if (s.die (dieOf p.core)).cmp = [] then s
    else s.noteHits p.core wk (ps.foldl (fun m q => m ||| s.watchGran p.core (s.granAt q.cell).1 (s.granAt q.cell).2 false true) 0)

/-- A command of a warp reads places of one core through a window. -/
def State.watchRead (s : State) (wk : Nat) (ps : List Spot) : State :=
  match ps with
  | [] => s
  | p :: _ =>
    if (s.die (dieOf p.core)).cmp = [] then s
    else s.noteHits p.core wk (ps.foldl (fun m q => m ||| s.watchGran p.core (s.granAt q.cell).1 (s.granAt q.cell).2 true false) 0)

/-- Places of the words that a byte range touches. -/
def spotsOf (f : Nat → Option Spot) (off n : Nat) : List Spot :=
  if n = 0 then [] else (List.range ((off + n - 1) / 4 - off / 4 + 1)).filterMap (fun k => f (off / 4 + k))

/-- A landing: bytes of a command of warp `wk` are written. -/
def State.landAt (s : State) (wk : Nat) (f : Nat → Option Spot) (off : Nat) (l : List Byte) : State :=
  (s.spotWrite f off l).watchLand wk (granSpots (spotsOf f off l.length))

/-- A read of register places by an engine: not ready, poisoned, or ready. -/
inductive ERead where
  | wait | poison | ok
  deriving DecidableEq, Repr

def State.eRead (s : State) (ps : List Spot) : ERead :=
  if ps.any (fun p => !s.spotReady p) then .wait else if ps.any (fun p => s.spotPois p) then .poison else .ok

/-! ### Error codes (R371) -/

def eMem (cause : Nat) : BitVec 8 := BitVec.ofNat 8 (0x10 + cause)
abbrev ePOISON : BitVec 8 := 0x20
abbrev eSTALE : BitVec 8 := 0x21
abbrev eWINACC : BitVec 8 := 0x22
abbrev eNOSENDER : BitVec 8 := 0x23
abbrev eBADSHAPE : BitVec 8 := 0x30
abbrev eBADPARAM : BitVec 8 := 0x31
abbrev eSTAGE : BitVec 8 := 0x40
abbrev eARRAYOFF : BitVec 8 := 0x41

/-! ### Entering a queue (R174 to R176, R283) -/

/-- Commands of a warp's queue for an engine, oldest first. -/
def State.cmdsOf (s : State) (wk : Nat) (array : Bool) : List (Nat × Cmd) := s.cmdList.filter (fun p => p.2.wk == wk && p.2.array == array)

/-- The queue is full: 16 copy commands or 8 array commands not yet accepted. -/
def State.queueFull (s : State) (wk : Nat) (array : Bool) : Bool :=
  (if array then 8 else 16) ≤ ((s.cmdsOf wk array).filter (fun p => p.2.st == .queued && !p.2.begun)).length

/-- Earlier accesses that an issue waits for (R176, R246). -/
def State.issueDue (s : State) (wk : Nat) (mask : Word) : List Nat := (s.accOf wk mask).map Prod.fst

/-- A body that issues an engine command: once the accesses of the active threads are performed. -/
def issueBody (f : TC → State → TRes) (c : TC) (s : State) : TRes :=
  match s.issueDue c.wk c.act with
  | [] => f c s
  | l => .park s l

/-- The guard slot of an engine command (R175). -/
def egSlot (g : EGuard) : Option Nat := if g.ge then some g.gslot.toNat else none

/-- The next number of a warp in its copy or array context (R191). -/
def State.nextNum (s : State) (wk : Nat) (array : Bool) : Nat := (if array then (s.warp wk).tlArray.issue else (s.warp wk).tlCopy.issue) + 1
def State.takeNum (s : State) (wk : Nat) (array : Bool) : State :=
  s.modWarp wk (fun w => if array then { w with tlArray := w.tlArray.next } else { w with tlCopy := w.tlCopy.next })

/-- A command enters its queue, its range entries owned by it. -/
def State.enqueue (s : State) (c : Cmd) (rs : List (Nat × Rng)) : State :=
  let cid := s.nextId
  let s := (s.setCmd cid (some { c with issued := s.clk })).bumpId
  foldS rs s (fun s p => s.modWarp p.1 (fun w => { w with ranges := w.ranges ++ [{ p.2 with owner := .cmd cid }] }))

/-- An engine may be given a register to write, or to read, under R68 and R70. -/
def State.lendW (s : State) (ls : List Loc) : Bool := ls.all (fun l => s.writable l)
def State.lendR (s : State) (ls : List Loc) : Bool := ls.all (fun l => s.settled l && !s.inRange true l)

/-- A landing through a window may write a register of another command's or a lane's range no sooner than that range ends (R67). -/
def State.winFree (s : State) (cid : Nat) (ps : List Spot) : Bool :=
  ps.all (fun p => match p with
    | .reg l => (s.warp l.wk).ranges.all (fun r => r.owner == .cmd cid || r.isS != l.isS || l.idx < r.first || r.first + r.count ≤ l.idx || !s.inForce r l)
    | _ => true)

/-! ### Rounds that wait for a queue (R220) -/

def isJoint : Instr → Bool
  | .mma .. | .att .. | .attfin .. | .ladinit .. | .ladpush .. | .ladread .. | .ladld .. => true
  | _ => false

/-- The format slot a command names. -/
def arrSlot : Instr → Nat
  | .mma _ _ _ sl _ _ _ => sl.toNat
  | .asto _ _ _ _ sl _ _ => sl.toNat
  | .att _ _ _ sl _ _ _ => sl.toNat
  | _ => 0

/-- The warp whose queue the command of a round enters: the lowest with a signer. -/
def KReg.queue (K : KReg) : Nat := (K.signed.map (fun t => t / 32)).foldl min (K.signed.headD 0 / 32)

/-- Full rounds of array commands that wait for room in the queue of a warp, by register. -/
def State.waitRounds (s : State) (q : Nat) : List (Nat × KReg) :=
  (s.block (bkOf q)).k.filter (fun p => (p.2.first.map isJoint).getD false && s.roundFull (bkOf q) p.1 && p.2.queue == q)

/-- A round has another before it that waits for the same queue: the one with the earlier first signature goes first (R220), and of two whose
first signatures fall in one cycle the one of the lower register. DESIGN CHOICE (log 66). -/
def State.behindRound (s : State) (q k : Nat) (K : KReg) : Bool :=
  (s.waitRounds q).any (fun p => p.1 != k && (p.2.since < K.since || (p.2.since == K.since && p.1 < k)))

/-! ### Tiles and slots held (R72) -/

/-- Tiles (region false) or slots (region true) from `lo`, n of them, that a command reads or writes. -/
structure Foot where
  slot : Bool
  lo   : Nat
  n    : Nat
  wr   : Bool
  deriving DecidableEq, Repr

def Foot.clash (a b : Foot) : Bool := a.slot == b.slot && (a.wr || b.wr) && a.lo < b.lo + b.n && b.lo < a.lo + a.n

def cpyFoot (acc : Bool) (vals : Fmap (BitVec 128)) (base : Nat) (mask : Word) (wr : Bool) : List Foot :=
  if acc then (maskList mask).map (fun t => ⟨false, (Fmap.get 0 vals (base + t)).toNat / 16384, 1, wr⟩) else []

/-- Geometry of a B operand under a slot word (R226): bytes of a column record, bytes of scales, slots. -/
def mmaCB (w : Word) : Nat :=
  let b := (fmtOf (fsBfmt w)).width
  ((match fsComp w with | 0 => 16 * b | 1 => 8 * b + 16 | _ => 26) + 15) / 16 * 16
def mmaScale (w : Word) : Nat := match fsScale w with | 1 => 512 | 2 => 256 | _ => 0
def mmaSlots (w : Word) : Nat := (128 * mmaCB w + mmaScale w + 8191) / 8192
/-- Slots of K, and of V, of an ATT (R232). -/
def attSlots (w : Word) : Nat := (fmtOf (fsBfmt w)).width / 4
/-- The slot word that an array command keeps. -/
def Cmd.fs (c : Cmd) : Word := c.params.getD 0 0

/-- The context register of a ladder command. -/
def ladCtx : Instr → Option Nat
  | .ladinit _ _ _ d _ _ => some (opNum d)
  | .ladpush _ _ _ d _ => some (opNum d)
  | .ladread _ _ _ _ a _ => some (opNum a)
  | .ladld _ _ _ _ a _ => some (opNum a)
  | _ => none

/-- RUNG0 and RCNT of the rung word (R237). -/
def rung0 (w : Word) : Nat := w.toNat % 64
def rcnt (w : Word) : Nat := w.toNat / 256 % 16
def topOcc (w : Word) : Bool := w.getLsbD 16

/-- The rung word that LADINIT writes (R238). -/
def rungOf (a b : Operand) : Word := BitVec.ofNat 32 (opNum a % 64 + 256 * (immNat b - 1))

/-- The rung word of a ladder command: that of the last LADINIT of its context that the queue holds before it, else the context's
as it stands. A command that has no number yet comes after all of the queue. -/
def State.rungWord (s : State) (c : Cmd) (r : Nat) : Word :=
  ((s.cmdsOf c.wk true).foldl (fun m p => match p.2.ins with
    | .ladinit _ _ _ d a b => if opNum d = r ∧ p.2.st ≠ .ended ∧ (c.num = 0 ∨ p.2.num < c.num) then some (rungOf a b) else m
    | _ => m) none).getD (s.readLoc (.s c.wk (r + 1)))

/-- What a command holds. A TCOPY's extent is known at acceptance only (R184), and what its `.st` has committed it holds no longer
(R185). Which rungs a push writes is known when it starts: it holds all that its rung word names, from issue on, and others hold all that
they may read (R239). DESIGN CHOICE (log 66). -/
def State.foot (s : State) (c : Cmd) : List Foot :=
  let al := (s.warp c.wk).alloc
  let rd (f : List Foot) : List Foot := if c.consumed then [] else f
  let rungs (wr : Bool) : List Foot :=
    match ladCtx c.ins with
    | some r => let w := s.rungWord c r; [⟨false, rung0 w, rcnt w + 1, wr⟩]
    | none => []
  match c.ins with
  | .cpy _ _ dsp ssp _ _ _ => cpyFoot (dsp == .acc) c.vals 32 c.mask true ++
      (if (maskList c.mask).all (fun t => c.ldone.testBit t || c.rdone.testBit t) then [] else cpyFoot (ssp == .acc) c.vals 0 c.mask false)
  | .tcopy _ sto _ _ d _ _ =>
    let one (slot : Bool) (i all size : Nat) : List Foot :=
      let past := if !sto then 0 else if c.ldone = c.total then (c.total * c.extra + size - 1) / size else c.ldone * c.extra / size
      [⟨slot, i + past, (if c.total = 0 then all - i else (c.total * c.extra + size - 1) / size - past), !sto⟩]
    (match d with
     | .tile i => one false i.toNat al.na 16384
     | .slot i => one true i.toNat al.nb 8192
     | _ => [])
  | .mma _ _ _ _ d _ b => ⟨false, opNum d, 1, true⟩ :: rd [⟨true, opNum b, mmaSlots c.fs, false⟩]
  | .wld _ _ n d _ _ => [⟨true, opNum d, n.toNat + 1, true⟩]
  | .aclr _ _ _ d => [⟨false, opNum d, 1, true⟩]
  | .ald _ _ _ d _ _ => [⟨false, opNum d, 1, true⟩]
  | .asto _ _ _ _ _ _ a => rd [⟨false, opNum a, 1, false⟩]
  | .att _ _ _ _ d _ b => ⟨false, opNum d, 2, true⟩ :: (if c.st = .ended then [] else [⟨true, opNum b, 2 * attSlots c.fs, false⟩])
  | .attfin _ _ _ _ a => ⟨false, opNum a, 1, true⟩ :: rd [⟨false, opNum a + 1, 1, false⟩]
  | .ladpush _ _ _ _ a => rungs true ++ rd [⟨false, opNum a, 1, false⟩]
  | .ladread _ _ _ d _ _ => ⟨false, opNum d, 1, true⟩ :: (if c.st = .ended then [] else rungs false)
  | .ladld .. => if c.st = .ended then [] else rungs false
  | _ => []

/-- A command of the warp for the other engine holds a tile or slot so that this command must wait; a full round counts as
its command. -/
def State.footBusy (s : State) (c : Cmd) : Bool :=
  (s.cmdsOf c.wk (!c.array)).any (fun p => (s.foot p.2).any (fun a => (s.foot c).any (fun b => a.clash b))) ||
    (!c.array && (s.waitRounds c.wk).any (fun p => match p.2.first with
      | some i => (s.foot { c with array := true, ins := i, num := 0, params := [s.fsWord c.wk (arrSlot i)], consumed := false }).any
          (fun a => (s.foot c).any (fun b => a.clash b))
      | none => false))

/-! ### Status words and reports (R177, R352) -/

/-- The four words of a status granule. -/
def statusWords (num : Nat) (err : BitVec 8) (ctx : Tctx) (drop : Word) (count : Nat) : List Word :=
  [BitVec.ofNat 32 count, drop, BitVec.ofNat 32 (err.toNat * 2 ^ 24 + ctx.code.toNat * 2 ^ 20), BitVec.ofNat 32 num]

/-- The issuing warp has no thread left in its table. -/
def State.cmdOrphan (s : State) (c : Cmd) : Bool := s.liveMask c.wk == 0

/-- A window that the command writes through has another generation than when it was sampled: at issue, or of a multicast's members
at acceptance. -/
def State.cmdRevoked (s : State) (c : Cmd) : Bool := c.gens.any (fun p => p.2.2 != (s.hDesc p.2.1).gen)

/-- A failure leaves a record of SRC 0x03: of a retired warp, or through a revoked window. -/
def State.leaves3 (s : State) (c : Cmd) (err : BitVec 8) : Bool := err != 0 && (s.cmdOrphan c || s.cmdRevoked c)

/-- Writes a status word and fills its granule, but for a failure of a retired warp, which poisons it. -/
def State.putStatus (s : State) (c : Cmd) (stat : List Loc) (err : BitVec 8) (count : Nat) : State :=
  if err != 0 && s.cmdOrphan c then s.poison (stat.headD (.s c.wk 0))
  else ((s.writeLocs stat (statusWords c.num err c.tctx c.drop count)).spotFill (.reg (stat.headD (.s c.wk 0)))).watchLand c.wk ((stat.take 1).map Spot.reg)

/-- The record of a failed operation with a status granule. -/
def State.record3 (s : State) (c : Cmd) (mask : Word) (err : BitVec 8) : State :=
  s.record c.wk mask c.pc (BitVec.ofNat 64 ((c.stat.headD (.s 0 0)).idx)) c.num err.toNat c.tctx.code.toNat 0 3 0

/-- Reports the end of a command that is not a CPY (R352). -/
def State.report (s : State) (c : Cmd) (err : BitVec 8) (count : Nat) : State :=
  let s1 := s.putStatus c c.stat err count
  if s.leaves3 c err then s1.record3 c c.mask err else s1

/-- A failed command without a status granule leaves a record of SRC 0x05 (R379). -/
def State.report5 (s : State) (c : Cmd) (err : BitVec 8) (aux : DWord) (detail : BitVec 160) : State :=
  if err = 0 then s else s.record c.wk c.mask c.pc aux c.num err.toNat c.tctx.code.toNat 0 5 detail

/-! ### The end of a command -/

/-- Range entries of a command end. -/
def State.dropRanges (s : State) (cid : Nat) : State :=
  foldS (s.warps.map Prod.fst) s (fun s k =>
    if (s.warp k).ranges.any (fun r => r.owner == .cmd cid) then s.modWarp k (fun w => { w with ranges := w.ranges.filter (fun r => r.owner != .cmd cid) }) else s)
/-- Only its read-pending entries end: its lent operands are consumed (R71). -/
def State.consume (s : State) (cid : Nat) : State :=
  foldS (s.warps.map Prod.fst) s (fun s k =>
    if (s.warp k).ranges.any (fun r => r.owner == .cmd cid && !r.wr) then
      s.modWarp k (fun w => { w with ranges := w.ranges.filter (fun r => !(r.owner == .cmd cid && !r.wr)) }) else s)

/-- Number n of the command's context is complete (R191). -/
def State.completeNum (s : State) (c : Cmd) : State :=
  match c.tctx with
  | .pull => s.modCore (coreOf c.wk) (fun k => { k with tlPull := k.tlPull.complete c.num })
  | .array => s.modWarp c.wk (fun w => { w with tlArray := w.tlArray.complete c.num })
  | _ => s.modWarp c.wk (fun w => { w with tlCopy := w.tlCopy.complete c.num })

/-- The command leaves the device. -/
def State.endCmd (s : State) (cid : Nat) : State :=
  match s.cmd cid with
  | none => s
  | some c =>
    let s := if c.array && (s.warp c.wk).aprogOld.1 != s.clk then
        s.modWarp c.wk (fun w => { w with aprogOld := (s.clk, s.aprog c.wk) }) else s
    ((s.dropRanges cid).setCmd cid none).completeNum c

/-- Registers of the status granules of a command, one list for each thread of a CPY. -/
def Cmd.stats (c : Cmd) : List (Nat × List Loc) :=
  match c.ins with
  | .cpy .. => (maskList c.mask).zipIdx.map (fun p => (p.1, (c.stat.drop (4 * p.2)).take 4))
  | _ => if c.stat = [] then [] else [(0, c.stat)]

/-! ### Guards (R44, R45, R381) -/

/-- The state of the guard slot of a command; a pending one of a retired warp counts as false. A command that has been accepted, and
resumes, is called back by none (R45). -/
def State.guardOf (s : State) (c : Cmd) : GState :=
  match if c.begun then none else c.guard with
  | none => .true
  | some g =>
    let x := Fmap.get .true (s.warp c.wk).g g
    if x = .pending ∧ s.cmdOrphan c then .false else x

/-- The command's block is on its core, or it is a system warp's (R47, R283). -/
def State.onCore (s : State) (c : Cmd) : Bool := isSys c.bk || (s.block c.bk).resident

/-- The command is at the head of its queue; one that has been accepted stands in none. -/
def State.atHead (s : State) (cid : Nat) (c : Cmd) : Bool :=
  c.st == .queued && (c.begun || (s.cmdsOf c.wk c.array).all (fun p => !(p.1 < cid && p.2.st == .queued && !p.2.begun)))

/-- GUARD_DISCARD: a head whose guard is false is discarded: a status of 0 elements, no F bit changed but for that. -/
def State.discard (s : State) (cid : Nat) : State :=
  match s.cmd cid with
  | none => s
  | some c =>
    if !s.atHead cid c || s.guardOf c != .false then s else
    let s := foldS c.stats s (fun s p => (s.writeLocs p.2 (statusWords c.num 0 c.tctx 0 0)).watchLand c.wk ((p.2.take 1).map Spot.reg))
    s.endCmd cid

def execGuardDiscard (cid : Nat) (s : State) : Result := .next (s.discard cid)

/-! ### Memory (R255, R364) -/

/-- What an engine access to memory comes to. -/
inductive EMem (α : Type) where
  | ok (x : α) (s : State)
  /-- A page is not present: its address and the walk level. -/
  | page (va : DWord) (level : Nat) (s : State)
  | bad (cause : Nat) (s : State)
  /-- The links on its way are paused (R217). -/
  | held

/-- Translates the pieces of a range for an engine. -/
def State.eXlate (s : State) (core : Nat) (asid : BitVec 16) (p : Perm) : List (DWord × Nat) → EMem (List (Xl × Nat))
  | [] => .ok [] s
  | q :: qs =>
    if !s.walkReach core none asid q.1 then .held else
    match s.xlate core none asid q.1 p with
    | (.error (c, l), s) => if c = cNOTPRES then .page q.1 l s else .bad c s
    | (.ok x, s) =>
      if !s.spanReach (dieOf core) x.swz x.pa q.2 then .held else
      match s.eXlate core asid p qs with
      | .ok xs s => .ok ((x, q.2) :: xs) s
      | r => r

/-- The lines of translated pieces. -/
def pieceLines (xs : List (Xl × Nat)) : List Nat :=
  (xs.flatMap (fun x => (List.range ((x.1.pa + x.2 - 1) / 128 - x.1.pa / 128 + 1)).map (fun k => x.1.pa / 128 + k))).eraseDups

/-- A command asks for the lines of pieces: it makes one request for each that it has not asked for (R180, R263, R265). -/
def State.askLines (s : State) (cid : Nat) (write : Bool) (xs : List (Xl × Nat)) : State :=
  let seen := ((s.cmd cid).map Cmd.lines).getD []
  let s := foldS xs s (fun s x => foldS (pieceLines [x]) s (fun s l =>
    if seen.contains (write, l) then s else s.countReq x.1.swz (128 * l) write x.1.cgrp))
  s.modCmd cid (fun c =>
    let now := (pieceLines xs).map (fun l => (write, l))
    { c with lines := (match c.ins with
      | .cpy .. => c.lines ++ now.filter (fun p => !c.lines.contains p)
      | _ => now) })

/-- What a command writes makes good the words that it covers together with what it wrote in the same requests (R368); a parity error on
its way makes them bad (R395). -/
def State.wroteHeal (s : State) (cid : Nat) (xs : List (Xl × Nat)) : State :=
  let now := xs.map (fun x => (x.1.swz, x.1.pa, x.2))
  let s := s.modCmd cid (fun c => { c with wrote := c.wrote.filter (fun r => c.lines.contains (true, r.2.1 / 128)) ++ now })
  match s.cmd cid with
  | none => s
  | some c =>
    let s := foldS (now.map Prod.fst).eraseDups s (fun s w => s.healCover w ((c.wrote.filter (fun r => r.1 == w)).map Prod.snd))
    if c.parity then (foldS now s (fun s r => s.markBad r.1 r.2.1 r.2.2)).modCmd cid (fun c => { c with parity := false }) else s

/-- An engine reads n bytes of memory. -/
def State.eLoad (s : State) (cid core wk : Nat) (asid : BitVec 16) (va : DWord) (n : Nat) (ecc : Ecc) : EMem (List Byte) :=
  let s := s.noteHits core wk (s.watchMem core asid va n true false)
  match s.eXlate core asid .rd (pieces va n (n / 65536 + 2)) with
  | .page v l s => .page v l s
  | .bad c s => .bad c s
  | .held => .held
  | .ok xs s =>
    let s := match xs with
      | (x, _) :: _ => s.eccAt x.swz x.pa ecc
      | [] => s
    let s := s.askLines cid false xs
    if ((s.cmd cid).map Cmd.parity).getD false then .bad cUNCORR (s.modCmd cid (fun c => { c with parity := false }))
    else if xs.any (fun x => s.badAt x.1.swz x.1.pa x.2) then .bad cUNCORR s
    else .ok (xs.flatMap (fun x => s.readMem x.1.swz x.1.pa x.2)) s

/-- What stops a command whose address breaks its stated multiple: a cause that ranks before ALIGN, or ALIGN (R355). -/
def State.eSkew (s : State) (core : Nat) (asid : BitVec 16) (va : DWord) : EMem Unit :=
  match s.eXlate core asid .rd [(va, 1)] with
  | .page v l s => .page v l s
  | .bad c s => .bad c s
  | .held => .held
  | .ok _ s => .bad cALIGN s

/-- An engine writes bytes to memory: all of them, or none. -/
def State.eStore (s : State) (cid core wk : Nat) (asid : BitVec 16) (va : DWord) (l : List Byte) : EMem Unit :=
  let s := s.noteHits core wk (s.watchMem core asid va l.length false true)
  match s.eXlate core asid .wr (pieces va l.length (l.length / 65536 + 2)) with
  | .page v l s => .page v l s
  | .bad c s => .bad c s
  | .held => .held
  | .ok xs s =>
    let r := xs.foldl (fun (r : State × List Byte) x => (r.1.writeMem x.1.swz x.1.pa (r.2.take x.2), r.2.drop x.2)) (s.askLines cid true xs, l)
    .ok () (r.1.wroteHeal cid xs)

/-- A command stops at a page (R360, R364): one request sets out for the fault buffer. -/
def State.stopAt (s : State) (cid : Nat) (c : Cmd) (va : DWord) (level : Nat) (wr : Bool) : State :=
  ((s.modCmd cid (fun c => { c with st := .stopped, qtag := c.qtag <|> some s.dev.qcnt })).addReq (coreOf c.wk) s.nextId c.asid va (if wr then 1 else 0) level true).bumpId

/-! ### Windows and barrier references (R178) -/

/-- A handle, or that in a slot, names a live window with RW = 1 on the warp's core. -/
def State.hRW (s : State) (wk : Nat) (h : DWord) : Bool := s.hLive (coreOf wk) (s.warp wk).lid h && hRights h && (s.hDesc h).rights
def State.winRW (s : State) (wk w : Nat) : Bool := s.hRW wk (Fmap.get 0 (s.warp wk).w w)

/-- Places of a window's linear view by word number. -/
def State.winSpot (s : State) (h : DWord) (t o : Nat) : Option Spot := (s.winReg h t o).map Spot.reg

def barNone (w : Word) : Bool := w.getLsbD 31
def barWidx (w : Word) : Nat := w.toNat / 2 ^ 27 % 16
def barOff (w : Word) : Nat := w.toNat % 2 ^ 22

/-- The object that a BARREF names through a handle. -/
def State.barObj (s : State) (h : DWord) (t : Nat) (ref : Word) : List Loc :=
  (List.range 4).filterMap (fun k => s.winReg h t (barOff ref / 4 + k))

/-- A BARREF that acceptance refuses (R178, R371). -/
def barSkew (ref : Word) : Bool := !barNone ref && barOff ref % 16 != 0

/-- A landing of a warp finds the object of a BARREF behind a handle. -/
def State.barGood (s : State) (wk : Nat) (h : DWord) (t : Nat) (ref : Word) : Bool :=
  barNone ref || (barOff ref % 16 == 0 && s.hRW wk h && (s.barObj h t ref).length == 4)

/-- n landed bytes of a command of warp `cwk` are taken off a barrier object that a warp names (R178, R197), where it is there. -/
def State.barLand (s : State) (cwk wk : Nat) (h : DWord) (t : Nat) (ref : Word) (n : Nat) : State :=
  if barNone ref || !s.barGood wk h t ref then s else
  let o := s.barObj h t ref
  let ps := (o.take 1).map Spot.reg
  ((s.obAdd o (0 - BitVec.ofNat 32 n)).watchRead cwk ps).watchLand cwk ps

/-- The object of a BARREF can be operated on by a command (R59, R67). -/
def State.barReady (s : State) (cid : Nat) (h : DWord) (t : Nat) (ref : Word) : Bool :=
  barNone ref || (s.obReady (s.barObj h t ref) && s.winFree cid ((s.barObj h t ref).map Spot.reg))

/-! ### Registers that a window names (R62, R69) -/

/-- Warps whose registers a window names. -/
def State.winWarps (s : State) (h : DWord) : List Nat :=
  if hScope h = 2 then s.blockWarps (bkey (hCore h) (hBtag h)) else if hScope h < 2 then [hWk h] else []

/-- First register and count of those of a warp that n bytes of a window from `off` name, its threads taken together. -/
def State.winSpan (s : State) (h : DWord) (wk off n : Nat) : Option (Nat × Nat) :=
  let e := s.hDesc h
  let at0 := match hScope h with | 2 => 32 * e.len * widx wk | _ => 0
  let size := match hScope h with | 0 => e.len | _ => 32 * e.len
  let a := max (off / 4) at0
  let b := min ((off + n + 3) / 4) (at0 + size)
  if !(s.winWarps h).contains wk || b ≤ a || e.len = 0 then none
  else if e.len ≤ b - a || (b - 1) / e.len != a / e.len then some (e.base, e.len)
  else some (e.base + a % e.len, b - a)

/-- Bytes of two windows name a register in common, the threads of a warp taken together where the windows differ. -/
def State.winClash (s : State) (x y : DWord × Nat × Nat) : Bool :=
  if x.1 = y.1 then decide (x.2.1 < y.2.1 + y.2.2 ∧ y.2.1 < x.2.1 + x.2.2)
  else (s.winWarps x.1).any (fun wk => match s.winSpan x.1 wk x.2.1 x.2.2, s.winSpan y.1 wk y.2.1 y.2.2 with
    | some p, some q => p.1 < q.1 + q.2 && q.1 < p.1 + p.2
    | _, _ => false)

end Sys2Proof.Machine
end

