-- ==== Sys2Proof/Machine/Copy.lean ====
section
/-! DEFINITION. The copy engine, class 0x9 (R179 to R190): the issue of its commands, transfer notices, and the steps in
which it accepts a command, moves its data, fails it and retires it (R236, R364, R371 to R375). -/

namespace Sys2Proof.Machine

/-! ### CPY (R179, R180) -/

/-- A space of memory. -/
def spInMem : Space → Bool
  | .glb | .hst => true
  | _ => false

def cpyN : Instr → Nat
  | .cpy _ z _ _ _ _ _ => z.bytes
  | _ => 0
def cpyDst : Instr → Space
  | .cpy _ _ d _ _ _ _ => d
  | _ => .glb
def cpySrc : Instr → Space
  | .cpy _ _ _ x _ _ _ => x
  | _ => .glb

/-- What the issue of a CPY keeps of an operand of one thread. -/
def State.cpyVal (s : State) (sp : Space) (ls : List Loc) (v : DWord) : BitVec 128 :=
  match sp with
  | .reg => BitVec.ofNat 128 ((ls.headD (.s 0 0)).idx)
  | .win => BitVec.ofNat 128 (s.locsNat ls)
  | .acc => BitVec.ofNat 128 v.lo.toNat
  | _ => v.setWidth 128

/-- A range entry over the registers that the threads name in one role (R69). -/
def spanRng (wr : Bool) (ls : List Loc) : List (Nat × Rng) :=
  match ls with
  | [] => []
  | l :: _ =>
    let lo := ls.foldl (fun m x => min m x.idx) l.idx
    let hi := ls.foldl (fun m x => max m x.idx) l.idx
    [(l.wk, ⟨wr, l.isS, lo, hi + 1 - lo, .cmd 0⟩)]

/-- Registers of the status granules, of a `reg` destination and of the source of a CPY: a `reg` source, a `win` quad, an `acc`
offset; those that a window names are in no range of the warp (R73). -/
def cpyStat (cs : List TC) : List Loc := cs.flatMap (fun c => c.d)
def cpyDstRegs (i : Instr) (cs : List TC) : List Loc := if cpyDst i = .reg then cs.flatMap (fun c => c.a) else []
def cpySrcRegs (i : Instr) (cs : List TC) : List Loc :=
  if spInMem (cpySrc i) then [] else cs.flatMap (fun c => c.b.filter (fun l => l.wk == c.wk))

/-- The command of a CPY. -/
def State.cpyCmd (s : State) (i : Instr) (c0 : TC) (cs : List TC) : Cmd :=
  let p := parent c0.wk
  { wk := p, bk := bkOf p, array := false, ins := i, pc := c0.pc, mask := maskOf (cs.map (fun c => c.t)), asid := (s.warp p).asid, tctx := .copy,
    num := s.nextNum p false, stat := cpyStat cs,
    vals := cs.foldl (fun m c => Fmap.set 0 (Fmap.set 0 m c.t (s.cpyVal (cpySrc i) c.b c.bv)) (32 + c.t) (s.cpyVal (cpyDst i) c.a c.av)) [] }
def cpyRngs (i : Instr) (cs : List TC) : List (Nat × Rng) :=
  spanRng true (cpyStat cs) ++ spanRng true (cpyDstRegs i cs) ++ spanRng false (cpySrcRegs i cs)

/-- The issue of a CPY by all its threads. -/
def cpyIssue (i : Instr) (cs : List TC) (s : State) : ARes :=
  match cs with
  | [] => .done s []
  | c0 :: _ =>
    match s.issueDue c0.wk (maskOf (cs.map (fun c => c.t))) with
    | d :: ds => .park s (d :: ds)
    | [] =>
      let p := parent c0.wk
      if s.queueFull p false || !s.rangeRoom c0.wk (cpyRngs i cs).length || !s.lendW (cpyStat cs ++ cpyDstRegs i cs) || !s.lendR (cpySrcRegs i cs) ||
          s.footBusy (s.cpyCmd i c0 cs) then .wait s
      else .done ((s.takeNum p false).enqueue (s.cpyCmd i c0 cs) (cpyRngs i cs)) []

/-- CPY. -/
def execCpy (h : Hdr) (size : CpySize) (dsp ssp : Space) (d a b : Operand) (s : State) : Result :=
  laneAll (.cpy h size dsp ssp d a b) .int .int (cpyIssue (.cpy h size dsp ssp d a b)) s

/-- Place of word k of a register-space side of one thread. -/
def cpySpot (c : Cmd) (sp : Space) (t : Nat) (x : BitVec 128) (k : Nat) : Option Spot :=
  match sp with
  | .reg => some (.reg (.v c.wk t (x.toNat + k)))
  | .acc => some (.tile c.bk (x.toNat / 4 + k))
  | _ => none

def Cmd.src (c : Cmd) (t : Nat) : BitVec 128 := Fmap.get 0 c.vals t
def Cmd.dst (c : Cmd) (t : Nat) : BitVec 128 := Fmap.get 0 c.vals (32 + t)
def Cmd.dstSpots (c : Cmd) (t : Nat) : List Spot := granSpots ((List.range (cpyN c.ins / 4)).filterMap (cpySpot c (cpyDst c.ins) t (c.dst t)))

/-- The lent sources of a CPY are consumed once every thread's has been read, or its thread has ended (R71, R180). -/
def State.cpyConsume (s : State) (cid : Nat) : State :=
  match s.cmd cid with
  | none => s
  | some c => if !spInMem (cpySrc c.ins) && (maskList c.mask).all (fun t => c.ldone.testBit t || c.rdone.testBit t) then s.consume cid else s

/-- Thread t of a CPY ends, its status granule written (R180). The operation leaves one record, when its last thread has ended: with the
threads that failed so, and with the first failure's code (R352; log 76). -/
def State.cpyFinish (s : State) (cid t : Nat) (err : BitVec 8) : State :=
  match s.cmd cid with
  | none => s
  | some c =>
    let done := c.ldone ||| 2 ^ t
    let c1 := { c with ldone := done, held := c.held &&& (4294967295 - 2 ^ t), again := c.again &&& (4294967295 - 2 ^ t),
                       st := (if done = c.total then .ended else c.st),
                       lost := (if s.leaves3 c err then c.lost ||| bit1 t else c.lost), err := (if c.err = 0 then err else c.err) }
    let s := s.putStatus c ((c.stats.find? (fun p => p.1 == t)).map Prod.snd |>.getD []) err (if err = 0 then cpyN c.ins else 0)
    let s := if done = c.total && c1.lost != 0 then s.record3 c1 c1.lost c1.err else s
    (s.setCmd cid (some c1)).cpyConsume cid

/-- The same, its destination poisoned if it failed (R372, R373). -/
def State.cpyEnd (s : State) (cid t : Nat) (err : BitVec 8) : State :=
  match s.cmd cid with
  | none => s
  | some c => (if err = 0 then s else foldS (c.dstSpots t) s (fun s p => s.spotPoison p)).cpyFinish cid t err

/-- A thread of a CPY is stopped at a page; a page for which others of the command wait is not asked for again (R360). -/
def State.cpyHold (s : State) (cid : Nat) (c : Cmd) (t : Nat) (va : DWord) (level : Nat) (wr : Bool) : State :=
  let page := va.toNat / 65536
  let s1 := s.modCmd cid (fun c => { c with held := c.held ||| 2 ^ t, again := c.again &&& (4294967295 - 2 ^ t), pages := c.pages ++ [page], qtag := c.qtag <|> some s.dev.qcnt })
  if c.pages.contains page then s1 else (s1.addReq (coreOf c.wk) s.nextId c.asid va (if wr then 1 else 0) level true).bumpId

/-- The host byte that an `hst` address names, as a placed address (R179, R252). -/
def hstPA (x : BitVec 128) : Nat := 0x8000000000000 + x.toNat % 2 ^ 64

/-- A memory read of thread t. -/
def State.cpyFetch (s : State) (cid : Nat) (c : Cmd) (t : Nat) (ecc : Ecc) : State :=
  let n := cpyN c.ins
  let put (s : State) (l : List Byte) : State := s.modCmd cid (fun c =>
    { c with rdone := c.rdone ||| 2 ^ t, again := c.again &&& (4294967295 - 2 ^ t), buf := Fmap.setList 0 c.buf (16 * t) l })
  if cpySrc c.ins = .hst then
    if (c.src t).toNat / 2 ^ 52 % 2 ^ 12 ≠ 0 then s.cpyEnd cid t (eMem cPARANGE)
    else if !s.reach (coreOf c.wk) 0 (hstPA (c.src t)) then s else put s (s.readMem 0 (hstPA (c.src t)) n)
  else
    match s.eLoad cid (coreOf c.wk) c.wk c.asid ((c.src t).setWidth 64) n ecc with
    | .ok l s => put s l
    | .page v lv s => s.cpyHold cid c t v lv false
    | .bad k s => s.cpyEnd cid t (eMem k)
    | .held => s

/-- The data of thread t: in the buffer, or in its register-space source. -/
def State.cpyData (s : State) (c : Cmd) (t : Nat) : List Byte :=
  let n := cpyN c.ins
  if spInMem (cpySrc c.ins) || cpySrc c.ins == .win then (List.range n).map (fun j => Fmap.get 0 c.buf (16 * t + j))
  else s.spotBytes (cpySpot c (cpySrc c.ins) t (c.src t)) 0 n

/-- The source of thread t: not at hand, poisoned, or at hand. -/
def State.cpyReady (s : State) (c : Cmd) (t : Nat) : ERead :=
  if spInMem (cpySrc c.ins) || cpySrc c.ins == .win then (if c.rdone.testBit t then .ok else .wait)
  else s.eRead ((List.range (cpyN c.ins / 4)).filterMap (cpySpot c (cpySrc c.ins) t (c.src t)))

/-- The register places that thread t of a CPY reads where it stands. -/
def cpyFrom (c : Cmd) (t : Nat) : List Spot :=
  if spInMem (cpySrc c.ins) || cpySrc c.ins == .win then [] else (List.range (cpyN c.ins / 4)).filterMap (cpySpot c (cpySrc c.ins) t (c.src t))

/-- What the check code of an engine's read of register places counts; a lasting error sets a granule full and poisoned (R369, R370,
R382). -/
def State.regEcc (s : State) (ps : List Spot) (e : Ecc) : State :=
  match ps, e with
  | p :: _, .corrected => s.bumpCnt (0xED0 + 2 * dieOf p.core) 1
  | p :: _, .lasting => (s.spotPoison p).bumpCnt (0xED1 + 2 * dieOf p.core) 1
  | _, _ => s

/-- A memory write of thread t. -/
def State.cpyStore (s0 : State) (cid : Nat) (c : Cmd) (t : Nat) (ecc : Ecc) : State :=
  let s := s0.regEcc (cpyFrom c t) ecc
  if s.cpyReady c t = .poison then s.cpyEnd cid t ePOISON else
  let l := s.cpyData c t
  if cpyDst c.ins = .hst then
    if (c.dst t).toNat / 2 ^ 52 % 2 ^ 12 ≠ 0 then s.cpyEnd cid t (eMem cPARANGE)
    else if !s.reach (coreOf c.wk) 0 (hstPA (c.dst t)) then s else (s.writeMem 0 (hstPA (c.dst t)) l).cpyEnd cid t 0
  else
    match s.eStore cid (coreOf c.wk) c.wk c.asid ((c.dst t).setWidth 64) l with
    | .ok _ s => s.cpyEnd cid t 0
    | .page v lv s => s.cpyHold cid c t v lv true
    | .bad k s => s.cpyEnd cid t (eMem k)
    | .held => s

/-- A landing of thread t in its registers or in a tile. -/
def State.cpyLand (s : State) (cid : Nat) (c : Cmd) (t : Nat) : State :=
  if s.cpyReady c t = .poison then s.cpyEnd cid t ePOISON else
  let s1 := s.landAt c.wk (cpySpot c (cpyDst c.ins) t (c.dst t)) 0 (s.cpyData c t)
  (foldS (c.dstSpots t) s1 (fun s p => s.spotFill p)).cpyEnd cid t 0

/-- Threads of a CPY still at work. -/
def Cmd.left (c : Cmd) : List Nat := (maskList c.mask).filter (fun t => !c.ldone.testBit t && !c.held.testBit t)

/-! ### Shape descriptors (R181) and TCOPY (R184 to R186) -/

def shRank (x : BitVec 512) : Nat := (x.extractLsb' 64 3).toNat
def shElem (x : BitVec 512) : Nat := 2 ^ (x.extractLsb' 67 3).toNat
def shBase (x : BitVec 512) : Nat := (x.extractLsb' 0 56).toNat
def shKV (x : BitVec 512) : Bool := x.getLsbD 70
def shKvptr (x : BitVec 512) : DWord := (x.extractLsb' 96 56).setWidth 64
def shSize (x : BitVec 512) (d : Nat) : Nat := (x.extractLsb' (160 + 32 * d) 32).toNat
def shStride (x : BitVec 512) (d : Nat) : Nat := (x.extractLsb' (288 + 32 * d) 32).toNat
def shBox (x : BitVec 512) (d : Nat) : Nat := if d < shRank x then (x.extractLsb' (448 + 8 * d) 8).toNat else 1
def shTotal (x : BitVec 512) : Nat := (List.range 5).foldl (fun n d => n * shBox x d) 1

/-- A descriptor that TCOPY and TSLD refuse (R371). -/
def shBad (x : BitVec 512) : Bool :=
  shRank x == 0 || 5 < shRank x || 8 < shElem x || (List.range (shRank x)).any (fun d => shBox x d == 0 || shSize x d == 0)

/-- Index of element e in dimension d of the box, innermost first. -/
def shIdx (x : BitVec 512) (e d : Nat) : Nat := e / ((List.range d).foldl (fun n j => n * shBox x j) 1) % shBox x d

/-- Coordinate of element e in dimension d. -/
def tcCoord (c : Cmd) (e d : Nat) : Int := (c.params.getD d 0).toInt + shIdx c.shape e d

def tcInside (c : Cmd) (e : Nat) : Bool :=
  (List.range (shRank c.shape)).all (fun d => 0 ≤ tcCoord c e d && tcCoord c e d < shSize c.shape d)

/-- A field of a key-value map descriptor (R235), as a bit range of its 288 bytes. -/
def kvField (m : List Byte) (lo w : Nat) : Nat := leNat m / 2 ^ lo % 2 ^ w

/-- RowAddr of R236. -/
def kvRow (m : List Byte) (p plane : Nat) : Option Nat :=
  let len := kvField m 0 32
  let sinks := kvField m 32 16
  let w := kvField m 64 16
  if len ≤ p then none else
  let blk := p / 128
  let last := (len - 1) / 128
  let b? : Option Nat := if blk < sinks then some blk else if blk + w > last then some (sinks + (blk - sinks) % w) else none
  match b? with
  | none => none
  | some b =>
    let ext (e : Nat) : Nat × Nat × Nat := (kvField m (256 + 128 * e) 56, kvField m (320 + 128 * e) 32, kvField m (352 + 128 * e) 32)
    let r := (List.range (kvField m 80 4 + 1)).foldl (fun (r : Nat × Option Nat) e =>
      let x := ext e
      (r.1 + x.2.2, if r.2.isNone ∧ r.1 ≤ b ∧ b < r.1 + x.2.2 then some (x.1 + (b - r.1) * x.2.1) else r.2)) (0, none)
    r.2.map (fun a => a + plane * kvField m 128 32 + p % 128 * kvField m 96 32)

def tcKv (c : Cmd) : Bool := match c.ins with | .tcopy _ _ k _ _ _ _ => k | _ => false
def tcStore (c : Cmd) : Bool := match c.ins with | .tcopy _ st _ _ _ _ _ => st | _ => false
def tcSide (c : Cmd) : Operand := match c.ins with | .tcopy _ _ _ _ d _ _ => d | _ => .v 0

/-- Address of element e; none outside the extent or where the map holds no row. -/
def tcVA (c : Cmd) (e : Nat) : Option DWord :=
  if !tcInside c e then none else
  let x (d : Nat) : Nat := (tcCoord c e d).toNat
  let up (lo : Nat) : Nat := ((List.range (shRank c.shape)).filter (fun d => lo ≤ d)).foldl (fun n d => n + x d * shStride c.shape d) 0
  if tcKv c then (kvRow c.kvmap (x 1) ((c.params.getD 5 0).toNat % 2)).map (fun a => BitVec.ofNat 64 (a + x 0 * shElem c.shape + up 2))
  else some (BitVec.ofNat 64 (shBase c.shape + x 0 * shElem c.shape + up 1))

/-- Bytes of the box. -/
def Cmd.tcBytes (c : Cmd) : Nat := c.total * c.extra

/-- Place of word w of the register side. -/
def tcSpot (c : Cmd) (w : Nat) : Option Spot :=
  match tcSide c with
  | .v i => let len := c.tcBytes / 128
            if len = 0 then none else some (.reg (.v c.wk (w / len) (i.toNat + w % len)))
  | .tile i => some (.tile c.bk (4096 * i.toNat + w))
  | .slot i => some (.slot c.bk (2048 * i.toNat + w))
  | _ => none

/-- Registers of a `reg` side: to the top of the allocation until the shape is known (R184). -/
def State.tcopySide (s : State) (p : Nat) : Operand → List Loc
  | .v r => (List.range 32).flatMap (fun t => locsV p t r.toNat ((s.warp p).alloc.nv - r.toNat))
  | _ => []
def tcopyRngs (sto : Bool) (st side : List Loc) : List (Nat × Rng) := spanRng true st ++ spanRng (!sto) side

/-- A window that a command writes through, as it stands: the handle in a slot, and the generation of what it names. -/
def State.winGen (s : State) (wk w : Nat) : DWord × BitVec 8 :=
  let h := Fmap.get 0 (s.warp wk).w w
  (h, (s.hDesc h).gen)

/-- The command of a TCOPY: eight parameters, and its status granule; `.st` has no barrier. -/
def State.tcopyCmd (s : State) (i : Instr) (sto : Bool) (g : EGuard) (c : TC) : Cmd :=
  let p := parent c.wk
  let ref := s.readLoc ((c.b.take 8).getD 6 (.s 0 0))
  { wk := p, bk := bkOf p, array := false, ins := i, pc := c.pc, mask := bit1 c.t, asid := (s.warp p).asid, tctx := .copy,
    num := s.nextNum p false, guard := egSlot g, params := (c.b.take 8).map s.readLoc, stat := c.b.drop 8,
    gens := (if sto || barNone ref then [] else [(barWidx ref, s.winGen p (barWidx ref))]) }

/-- The issue of a TCOPY. -/
def execTcopy (h : Hdr) (sto kvm : Bool) (g : EGuard) (d a b : Operand) (s : State) : Result :=
  let i : Instr := .tcopy h sto kvm g d a b
  laneOnce i .int .int (issueBody (fun c s =>
    let p := parent c.wk
    let side := s.tcopySide p d
    let rs := tcopyRngs sto (c.b.drop 8) side
    if (c.b.take 8).any (fun l => !s.readable l) then .wait s
    else match (c.b.take 8).find? (fun l => s.pois l) with
      | some l => .trap kPois (tdGran l)
      | none =>
        if s.queueFull p false || !s.rangeRoom p rs.length || !s.lendW (c.b.drop 8) || !(if sto then s.lendR side else s.lendW side) ||
            s.footBusy (s.tcopyCmd i sto g c) then .wait s
        else .done ((s.takeNum p false).enqueue (s.tcopyCmd i sto g c) rs))) s

/-! ### Commands issued once with a parameter block (R182, R187, R190) -/

/-- A command of the copy queue that acts once. -/
def State.onceCmd (s : State) (c : TC) (i : Instr) (tctx : Tctx) (num : Nat) (g : EGuard) (params : List Word) (stat : List Loc) : Cmd :=
  { wk := c.wk, bk := bkOf c.wk, array := false, ins := i, pc := c.pc, mask := bit1 c.t, asid := (s.warp c.wk).asid, tctx := tctx, num := num,
    guard := egSlot g, params := params, stat := stat }

/-- TSLD. -/
def execTsld (h : Hdr) (g : EGuard) (d a b : Operand) (s : State) : Result :=
  let i : Instr := .tsld h g d a b
  laneOnce i .int .int (issueBody (fun c s =>
    if s.queueFull c.wk false then .wait s
    else .done ((s.takeNum c.wk false).enqueue (s.onceCmd c i .copy (s.nextNum c.wk false) g (words2 (c.av + (b.payload.signExtend 64))) []) []))) s

/-- TSEV. -/
def execTsev (h : Hdr) (g : EGuard) (d : Operand) (s : State) : Result :=
  let i : Instr := .tsev h g d
  laneOnce i .int .int (issueBody (fun c s =>
    if s.queueFull c.wk false then .wait s
    else .done ((s.takeNum c.wk false).enqueue (s.onceCmd c i .copy (s.nextNum c.wk false) g [] []) []))) s

/-- Window slots a PULL writes through: its destination and its barrier object. -/
def pullWins (ps : List Word) : List Nat :=
  (ps.getD 4 0).toNat % 16 :: (if barNone (ps.getD 6 0) then [] else [barWidx (ps.getD 6 0)])

/-- The command of a PULL. -/
def State.pullCmd (s : State) (i : Instr) (g : EGuard) (c : TC) : Cmd :=
  { s.onceCmd c i .pull ((s.core (coreOf c.wk)).tlPull.issue + 1) g (c.a.map s.readLoc) c.d with
    gens := (pullWins (c.a.map s.readLoc)).foldl (fun m w => Fmap.set (0, 0) m w (s.winGen c.wk w)) [] }

/-- The next number of the core's `pull` context is taken by a warp (R191). -/
def State.takePull (s : State) (wk : Nat) : State :=
  (s.modCore (coreOf wk) (fun k => { k with tlPull := k.tlPull.next })).modWarp wk (fun w => { w with lastPull := (s.core (coreOf wk)).tlPull.issue + 1 })


/-! ### Pulls and multicasts (R187, R190) -/

def cpHandle (c : Cmd) : DWord := Word.pair (c.params.getD 2 0) (c.params.getD 3 0)
def pullLen (c : Cmd) : Nat := (leWords c.params) / 2 ^ 42 % 2 ^ 22
  where leWords : List Word → Nat
    | [] => 0
    | x :: r => x.toNat + 2 ^ 32 * leWords r
def pullOff (c : Cmd) : Nat := (pullLen.leWords c.params) / 2 ^ 20 % 2 ^ 22
def cpymLen (c : Cmd) : Nat := (c.params.getD 2 0).toNat
def cpymVA (c : Cmd) : DWord := Word.pair (c.params.getD 0 0) (c.params.getD 1 0)
def cpDst (c : Cmd) : Nat := match c.ins with | .cpym .. => (c.params.getD 4 0).toNat | _ => (c.params.getD 5 0).toNat
def cpRef (c : Cmd) : Word := match c.ins with | .cpym .. => c.params.getD 5 0 | _ => c.params.getD 6 0
def cpLen (c : Cmd) : Nat := match c.ins with | .cpym .. => cpymLen c | _ => pullLen c
/-- Lines of 128 bytes of a pull or multicast. -/
def cpLines (c : Cmd) : Nat := (cpLen c + 127) / 128
def cpLineLen (c : Cmd) (u : Nat) : Nat := min 128 (cpLen c - 128 * u)
/-- The chosen thread: the lowest active one of the issue (R178). -/
def cpThread (c : Cmd) : Nat := lowest c.mask

/-- Blocks of the group of a multicast, ascending. -/
def State.cpymGroup (s : State) (c : Cmd) : List Nat := Fmap.get [] (s.launch (s.block c.bk).lid).groups ((c.params.getD 3 0).toNat % 256)
/-- Key of the warp of member block b, if the block is assigned. -/
def State.memberWk (s : State) (c : Cmd) (b : Nat) : Option Nat :=
  (s.findBlock (s.block c.bk).lid b).map (fun bk => 32 * bk + (c.params.getD 3 0).toNat / 256 % 32)
def cpymWidx (c : Cmd) : Nat := (c.params.getD 3 0).toNat / 8192 % 16
/-- Handle in the window slot of a member. -/
def State.memberH (s : State) (c : Cmd) (wk : Nat) : DWord := Fmap.get 0 (s.warp wk).w (cpymWidx c)

/-- The delivery may land at member j (R375): its block is there, its slot is valid, its generation is that sampled. -/
def State.memberLive (s : State) (c : Cmd) (j b : Nat) : Option Nat :=
  match s.memberWk c b with
  | none => none
  | some wk =>
    let h := s.memberH c wk
    let g := Fmap.get (0, 0) c.gens j
    if s.hLive (coreOf wk) (s.warp wk).lid h && hValid g.1 && (s.hDesc h).gen == g.2 then some wk else none

/-- Places of the destination of a pull. -/
def State.pullSpot (s : State) (c : Cmd) (w : Nat) : Option Spot := s.winSpot (c.wins.headD 0) (cpThread c) w

/-- Places of line u of a pull, or of a multicast at a member, in a window that it may write. -/
def State.pullSpots (s : State) (c : Cmd) (u : Nat) : List Spot :=
  if s.hRW c.wk (c.wins.headD 0) then spotsOf (s.pullSpot c) (cpDst c + 128 * u) (cpLineLen c u) else []
def State.memberSpots (s : State) (c : Cmd) (wk u : Nat) : List Spot :=
  if s.hRW wk (s.memberH c wk) then spotsOf (s.winSpot (s.memberH c wk) (cpThread c)) (cpDst c + 128 * u) (cpLineLen c u) else []

/-- The window bytes that a pull or a multicast writes, by handle, offset and length. -/
def State.cmdWins (s : State) (c : Cmd) : List (DWord × Nat × Nat) :=
  match c.ins with
  | .pull .. => [(if c.wins = [] then Fmap.get 0 (s.warp c.wk).w ((c.params.getD 4 0).toNat % 16) else c.wins.headD 0, cpDst c, cpLen c)]
  | .cpym .. => (s.cpymGroup c).filterMap (fun b => (s.memberWk c b).map (fun wk => (s.memberH c wk, cpDst c, cpymLen c)))
  | _ => []

/-- Registers of its own warp that such a command writes through windows: a range entry, from issue until it retires (R69). -/
def State.ownRngs (s : State) (c : Cmd) : List (Nat × Rng) :=
  match (s.cmdWins c).filterMap (fun x => s.winSpan x.1 c.wk x.2.1 x.2.2) with
  | [] => []
  | p :: ps =>
    let r := ps.foldl (fun r q => (min r.1 q.1, max r.2 (q.1 + q.2))) (p.1, p.1 + p.2)
    [(c.wk, ⟨true, false, r.1, r.2 - r.1, .cmd 0⟩)]
def rngLocs (p : Nat × Rng) : List Loc := (List.range 32).flatMap (fun t => locsV p.1 t p.2.first p.2.count)

/-- Enters a pull or a multicast whose status granule and own registers may be written, once there is room. -/
def State.enqueueWin (s : State) (c : TC) (x : Cmd) (num : State → State) : TRes :=
  let own := s.ownRngs x
  let rs := spanRng true c.d ++ own
  if s.queueFull c.wk false || !s.rangeRoom c.wk rs.length || !s.lendW (c.d ++ own.flatMap rngLocs) then .wait s
  else .done ((num s).enqueue x rs)

/-- CPYM. -/
def execCpym (h : Hdr) (g : EGuard) (d a : Operand) (s : State) : Result :=
  let i : Instr := .cpym h g d a
  laneOnce i .int .int (issueBody (fun c s =>
    s.enqueueWin c (s.onceCmd c i .copy (s.nextNum c.wk false) g (c.a.map s.readLoc) c.d) (fun s => s.takeNum c.wk false))) s

/-- PULL: numbered in its core's `pull` context (R191). -/
def execPull (h : Hdr) (ack : Bool) (g : EGuard) (d a : Operand) (s : State) : Result :=
  let i : Instr := .pull h ack g d a
  laneOnce i .int .int (issueBody (fun c s => s.enqueueWin c (s.pullCmd i g c) (fun s => s.takePull c.wk))) s

/-! ### Notices (R188, R189, R347) -/

/-- Slots in use and promised at a core. -/
def State.kickCount (s : State) (core : Nat) : Nat := (s.core core).kicks.length + (s.core core).kickNet.length

/-- A KICK acts: its notice sets out, or its thread waits for a slot. -/
def State.kick (s : State) (wk t : Nat) (dst : KickTo) (notice : BitVec 128) : State :=
  if s.kickCount dst.core < 16 then
    s.bumpId.modCore dst.core (fun k => { k with kickNet := k.kickNet ++ [⟨dst.btag, dst.lid, dst.bidx, dst.src, s.nextId, notice⟩] })
  else s.modThread wk t (fun r => { r with hold := .kick dst notice })

/-- The target of a KICK: an assigned, unretired block of the launch. -/
def State.kickOk (s : State) (wk : Nat) (w : Word) : Bool :=
  w.toNat % 256 < 192 && w.toNat / 2 ^ 20 == 0 && (s.block (targetBk w)).present && (s.block (targetBk w)).lid == (s.block (bkOf wk)).lid

/-- The block that a target word of a lane names, as it stands. -/
def State.kickTo (s : State) (key : Nat) (w : Word) : KickTo :=
  let b := s.block (targetBk w)
  ⟨key, w.toNat % 256, w.toNat / 256 % 4096, b.lid, b.bidx⟩

/-- KICK. -/
def execKick (h : Hdr) (a b : Operand) (s : State) : Result :=
  let bad (c : TC) (s : State) : Bool := !s.kickOk c.wk c.av.lo
  laneEarly (.kick h a b) false false .int .int (fun c s => if c.aOk && bad c s then some (kWin, 0) else none) (fun c s =>
    if bad c s then .trap kWin 0 else
    let dst := s.kickTo c.key c.av.lo
    let n := BitVec.ofNat 128 (s.locsNat c.b)
    .done (s.releaseThen c.wk c.t (.kick dst n) (fun s => s.kick c.wk c.t dst n))) s

/-- The agent that sends an acknowledgement, numbered as the sender of a notice is; a copy engine's comes after all lanes (R301). -/
def Ack.from (a : Ack) : Nat := if a.agent < 64 then 64 * a.src + a.agent else 1048576 + a.src

/-- A packet is the oldest in flight of its agent to a cluster, the cores 4·leaf to 4·leaf + 3: those of a pair keep their order (R303). -/
def State.packetFirst (s : State) (agent leaf seq : Nat) : Bool :=
  (List.range 4).all (fun i => (s.core (4 * leaf + i)).kickNet.all (fun n => n.src != agent || seq ≤ n.seq)) &&
    s.acks.all (fun a => a.from != agent || coreOf a.wk / 4 != leaf || seq ≤ a.seq)

/-- The agents whose notices to a core find their way and come next, in the order of their oldest. -/
def State.kickSenders (s : State) (core : Nat) : List Nat :=
  (((s.core core).kickNet.filter (fun n => s.packetFirst n.src (core / 4) n.seq)).map (fun n => n.src)).filter
    (fun k => s.routeOpen (dieOf (k / 64)) (dieOf core))

/-- KICK_NOTICE_ARRIVE: the oldest notice in flight of one agent takes a slot, or is discarded where its block has retired. Notices
of different agents arrive in any order (R303): the agent is a free choice. -/
def execKickNoticeArrive (core : Nat) (s : State) : Result :=
  match s.kickSenders core with
  | [] => .next s
  | c0 :: cs =>
    let r : Nat × State := if cs = [] then (c0, s) else ((c0 :: cs).getD (s.free.1.toNat % (cs.length + 1)) c0, s.free.2)
    let s := r.2
    match (s.core core).kickNet.find? (fun n => n.src == r.1) with
    | none => .next s
    | some n =>
      let b := s.block (bkey core n.btag)
      let keep := b.present && b.lid == n.lid && b.bidx == n.bidx
      .next (s.modCore core (fun k => { k with kickNet := k.kickNet.erase n, kicks := (if keep then k.kicks ++ [n] else k.kicks) }))

/-- The oldest notice for a block, with a tag if one is asked for. -/
def State.notice (s : State) (wk : Nat) (tag : Option (BitVec 20)) : Option (Nat × BitVec 128) :=
  ((s.core (coreOf wk)).kicks.zipIdx.find? (fun p => p.1.btag == btagOf wk && (match tag with | some t => p.1.notice.extractLsb' 0 20 == t | none => true))).map
    (fun p => (p.2, p.1.notice))

/-- The notice at a position leaves its slot. -/
def State.dropNotice (s : State) (core i : Nat) : State := s.modCore core (fun k => { k with kicks := k.kicks.eraseIdx i })

/-- KWAIT. -/
def execKwait (h : Hdr) (tag : Bool) (d a : Operand) (s : State) : Result :=
  laneOnce (.kwait h tag d a) .int .int (fun c s =>
    let tg := if tag then some ((c.av.setWidth 20 : BitVec 20)) else none
    match s.notice c.wk tg with
    | some (i, n) => onceWrite (fun s => (wordsOf 4 n.toNat, s.dropNotice (coreOf c.wk) i)) c s
    | none =>
      let m := s.nextId
      match s.dests c with
      | none => .wait s
      | some ps => .done (foldS ps (s.bumpId.expect c.key c.wk (ps.flatMap (fun p => p.2.locs))) (fun s p => match p.2 with
        | .ok ls => s.modThread c.wk p.1 (fun r => { r with hold := .kwait m tg ls })
        | .trap k td => s.raise c.wk p.1 k c.pc td
        | .wait => s))) s

/-- An acknowledgement sets out to the warp that a handle names (R189). -/
def State.sendAck (s : State) (wk src agent : Nat) : State := { s.bumpId with acks := s.acks ++ [⟨wk, src, agent, s.nextId⟩] }

/-- ACK. -/
def execAck (h : Hdr) (a : Operand) (s : State) : Result :=
  laneOnce (.ack h a) .int .int (fun c s =>
    let wk := hWk ((BitVec.ofNat 128 (s.locsNat c.a)).extractLsb' 64 64)
    .done (s.releaseAll c.wk c.act (.ack wk (c.key % 64)) (fun s => s.sendAck wk (coreOf c.wk) (c.key % 64)))) s

/-- The oldest acknowledgement for a warp that finds its way and comes next of its agent's. -/
def State.ackDue (s : State) (wk : Nat) : Option Ack :=
  s.acks.find? (fun a => a.wk == wk && s.routeOpen (dieOf a.src) (dieOf (coreOf wk)) && s.packetFirst a.from (coreOf wk / 4) a.seq)

/-- ACK_ARRIVE: the `pack` counter of the warp goes up by 1, if its block is there. -/
def execAckArrive (wk : Nat) (s : State) : Result :=
  match s.ackDue wk with
  | none => .next s
  | some a =>
    let s1 := { s with acks := s.acks.erase a }
    .next (if (s.block (bkOf wk)).present then s1.modWarp wk (fun w => { w with pack := w.pack + 1 }) else s1)

/-! ### Failure and end (R372 to R374) -/

/-- Granules of TCOPY `.ld`, as (granule number, bytes of the command in it), from a number of elements done. -/
def tcOpen (c : Cmd) : List (Nat × Nat) :=
  let done := if c.ldone = c.total then c.tcBytes else c.ldone * c.extra
  ((List.range ((c.tcBytes + 15) / 16)).filter (fun g => done < min c.tcBytes (16 * g + 16))).map (fun g => (g, min 16 (c.tcBytes - 16 * g)))

/-- Poisons the granules that a failed command has cleared and not filled; each counts as landed (R372). -/
def State.poisonRest (s : State) (c : Cmd) : State :=
  match c.ins with
  | .tcopy .. =>
    if tcStore c || c.total == 0 then s else
    foldS (tcOpen c) s (fun s g =>
      (match tcSpot c (4 * g.1) with | some p => s.spotPoison p | none => s).barLand c.wk c.wk (c.wins.headD 0) (cpThread c) (cpRef c) g.2)
  | .pull .. =>
    if c.wins = [] then s else
    foldS ((List.range (cpLines c)).filter (fun u => c.ldone ≤ u)) s (fun s u =>
      foldS (granSpots (s.pullSpots c u)) s (fun s p =>
        (s.spotPoison p).barLand c.wk c.wk (c.wins.getD 1 0) (cpThread c) (cpRef c) 16))
  | .cpym .. =>
    foldS (s.cpymGroup c).zipIdx s (fun s b =>
      match s.memberLive c b.2 b.1 with
      | none => s
      | some wk =>
        let m := (s.cpymGroup c).length
        foldS ((List.range (cpLines c)).filter (fun u => c.ldone ≤ u * m + b.2)) s (fun s u =>
          foldS (granSpots (s.memberSpots c wk u)) s (fun s p =>
            (s.spotPoison p).barLand c.wk wk (Fmap.get 0 (s.warp wk).w (barWidx (cpRef c))) (cpThread c) (cpRef c) 16)))
  | _ => s

/-- A pull with ACK sends its acknowledgement once. -/
def State.pullAck (s : State) (cid : Nat) : State :=
  match s.cmd cid with
  | some c =>
    (match c.ins with
     | .pull _ true _ _ _ => if c.acked then s else (s.modCmd cid (fun c => { c with acked := true })).sendAck (hWk (cpHandle c)) (coreOf c.wk) 64
     | _ => s)
  | none => s

/-- A copy command other than CPY ends: its status, or a record where it names none (R372, R373); that of a TSLD names its slot (R379). -/
def State.copyEnd (s : State) (cid : Nat) (err : BitVec 8) (count : Nat) : State :=
  match s.cmd cid with
  | none => s
  | some c =>
    let s := if err = 0 then s else s.poisonRest c
    let s := if c.stat = [] then s.report5 c err (match c.ins with | .tsld _ _ d _ _ => BitVec.ofNat 64 (0x30000 + opNum d) | _ => 0) 0 else s.report c err count
    let s := (s.consume cid).modCmd cid (fun c => { c with st := .ended, err := err })
    s.pullAck cid

/-! ### Acceptance (R60, R174, R283) -/

/-- Commands of one queue that must take effect in queue order (R72, R250): both write memory, or both use a tile, a slot,
a shape slot or overlapping bytes of a window. -/
def cmdShape (c : Cmd) : Option (Nat × Bool) :=
  match c.ins with
  | .tcopy _ _ _ _ _ a _ => some (opNum a, false)
  | .tsld _ _ d _ _ => some (opNum d, true)
  | .tsev _ _ d => some (opNum d, true)
  | _ => none
def cmdMemWr (c : Cmd) : Bool :=
  match c.ins with
  | .cpy _ _ d _ _ _ _ => spInMem d
  | .tcopy _ st _ _ _ _ _ => st
  | _ => false
/-- The warp's own registers that a command writes (R69). -/
def State.ownWrites (s : State) (cid : Nat) (c : Cmd) : List Rng := (s.warp c.wk).ranges.filter (fun r => r.owner == .cmd cid && r.wr)
def State.inOrder (s : State) (a b : Cmd) : Bool :=
  (cmdMemWr a && cmdMemWr b) || (s.foot a).any (fun x => (s.foot b).any (fun y => x.clash y)) ||
  (match cmdShape a, cmdShape b with
   | some x, some y => x.1 == y.1 && (x.2 || y.2)
   | _, _ => false) ||
  (s.cmdWins a).any (fun x => (s.cmdWins b).any (fun y => s.winClash x y))

/-- Registers of the warp that one command has in a range are written through a window by the other: the slot was given another
window after the issue. -/
def State.ownClash (s : State) (i : Nat) (a b : Cmd) : Bool :=
  (s.ownWrites i a).any (fun r => (s.cmdWins b).any (fun x => match s.winSpan x.1 b.wk x.2.1 x.2.2 with
    | some q => !r.isS && r.first < q.1 + q.2 && q.1 < r.first + r.count
    | none => false))

/-- The engine may start the command: at the head, its guard true, its block on its core. -/
def State.mayAccept (s : State) (cid : Nat) (c : Cmd) : Bool :=
  s.atHead cid c && s.guardOf c == .true && s.onCore c

/-- F bits of the destination granules clear. -/
def State.acceptSpots (s : State) (ps : List Spot) : State := foldS (granSpots ps) s (fun s p => s.spotAccept p)

/-- The read of a key-value map descriptor (R236). R235 has KVPTR a multiple of 32 and states no outcome for another: the descriptor is
read where it points. DESIGN CHOICE (log 66). -/
def State.tcMap (s : State) (cid : Nat) (c : Cmd) (ecc : Ecc) : State :=
  match s.eLoad cid (coreOf c.wk) c.wk c.asid (shKvptr c.shape) 288 ecc with
  | .ok l s => s.modCmd cid (fun c => { c with kvmap := l })
  | .page v l s => s.stopAt cid c v l false
  | .bad k s => s.copyEnd cid (eMem k) 0
  | .held => s

/-- A CPY starts; a thread with an offset off its multiple or range fails alone, and poisons the destination that it names. -/
def State.acceptCpy (s : State) (cid : Nat) (c : Cmd) : State :=
  let n := cpyN c.ins
  let na := (s.warp c.wk).alloc.na
  let badAcc (sp : Space) (x : BitVec 128) : Bool := sp == .acc && (x.toNat % n != 0 || 16384 * na ≤ x.toNat)
  let bad (t : Nat) : Bool := badAcc (cpyDst c.ins) (c.dst t) || badAcc (cpySrc c.ins) (c.src t)
  let s := s.acceptSpots (c.stat.map Spot.reg)
  let s := foldS ((maskList c.mask).filter (fun t => !bad t)) s (fun s t => s.acceptSpots (c.dstSpots t))
  let s := s.modCmd cid (fun c => { c with st := .running, total := c.mask.toNat })
  foldS ((maskList c.mask).filter bad) s (fun s t =>
    if badAcc (cpyDst c.ins) (c.dst t) then s.cpyFinish cid t eBADPARAM else s.cpyEnd cid t eBADPARAM)

/-- A TCOPY starts: its shape is read, its extents checked, its range narrowed (R184). What is wrong with a window shows at the first
landing (R371). -/
def State.acceptTcopy (s : State) (cid : Nat) (c : Cmd) : State :=
  let sh := Fmap.get 0 (s.block c.bk).shape (match c.ins with | .tcopy _ _ _ _ _ a _ => opNum a | _ => 0)
  let al := (s.warp c.wk).alloc
  let total := shTotal sh
  let bytes := total * shElem sh
  let c := { c with shape := sh, st := .running }
  let s := s.acceptSpots (c.stat.map Spot.reg)
  let fits : Bool := match tcSide c with
    | .v i => bytes % 512 == 0 && i.toNat + bytes / 128 ≤ al.nv
    | .tile i => i.toNat + (bytes + 16383) / 16384 ≤ al.na
    | .slot i => i.toNat + (bytes + 8191) / 8192 ≤ al.nb
    | _ => false
  if shBad sh || (tcKv c && (!shKV sh || shRank sh < 2)) || !fits then (s.setCmd cid (some c)).copyEnd cid eBADSHAPE 0
  else
    let c := { c with total := total, extra := shElem sh,
                      wins := (if tcStore c || barNone (cpRef c) then [] else [Fmap.get 0 (s.warp c.wk).w (barWidx (cpRef c))]) }
    let s := s.setCmd cid (some c)
    let s := s.modWarp c.wk (fun w => { w with ranges := w.ranges.map (fun r =>
      match tcSide c with
      | .v _ => if r.owner = .cmd cid ∧ !r.isS then { r with count := bytes / 128 } else r
      | _ => r) })
    let s := if tcStore c then s else s.acceptSpots ((List.range ((bytes + 15) / 16)).filterMap (fun g => tcSpot c (4 * g)))
    if !tcStore c && barSkew (cpRef c) then s.copyEnd cid eBADPARAM 0 else if tcKv c then s.tcMap cid c .clean else s

/-- A PULL starts; what is wrong with a window shows at a landing (R371). -/
def State.acceptPull (s : State) (cid : Nat) (c : Cmd) : State :=
  let s := s.acceptSpots (c.stat.map Spot.reg)
  let s := s.modCmd cid (fun c => { c with st := .running })
  let len := pullLen c
  if len % 16 ≠ 0 ∨ len < 16 ∨ pullOff c % 16 ≠ 0 ∨ cpDst c % 16 ≠ 0 ∨ barSkew (cpRef c) then s.copyEnd cid eBADPARAM 0
  else
    let w := (c.params.getD 4 0).toNat % 16
    let h := Fmap.get 0 (s.warp c.wk).w w
    let ps := if s.winRW c.wk w then spotsOf (s.winSpot h (cpThread c)) (cpDst c) len else []
    (s.modCmd cid (fun c => { c with wins := [h, Fmap.get 0 (s.warp c.wk).w (barWidx (cpRef c))], total := cpLines c })).acceptSpots ps

/-- A CPYM starts: generations are sampled and the members' granules cleared; what is wrong with a window shows at a landing (R371). -/
def State.acceptCpym (s : State) (cid : Nat) (c : Cmd) : State :=
  let s := s.acceptSpots (c.stat.map Spot.reg)
  let s := s.modCmd cid (fun c => { c with st := .running })
  let len := cpymLen c
  let bs := s.cpymGroup c
  let t := cpThread c
  if len % 16 ≠ 0 ∨ len < 16 ∨ 4194304 < len ∨ cpDst c % 16 ≠ 0 ∨ bs = [] ∨ 32 < bs.length ∨ barSkew (cpRef c) then
    s.copyEnd cid eBADPARAM 0
  else
    let live := bs.zipIdx.filterMap (fun b => match s.memberWk c b.1 with
      | some wk => if s.hLive (coreOf wk) (s.warp wk).lid (s.memberH c wk) then some (b.2, wk) else none
      | none => none)
    let gens := live.foldl (fun m p =>
      let m := Fmap.set (0, 0) m p.1 (s.winGen p.2 (cpymWidx c))
      if barNone (cpRef c) then m else Fmap.set (0, 0) m (64 + p.1) (s.winGen p.2 (barWidx (cpRef c)))) []
    let s := s.modCmd cid (fun c => { c with total := cpLines c, gens := gens })
    foldS (live.filter (fun p => s.winRW p.2 (cpymWidx c))) s (fun s p => s.acceptSpots (spotsOf (s.winSpot (s.memberH c p.2) t) (cpDst c) len))

/-- The copy engine may start the command: a head that has no command of its queue to come after. -/
def State.mayCopy (s : State) (cid : Nat) (c : Cmd) : Bool :=
  !c.array && s.mayAccept cid c && (s.cmdsOf c.wk false).all (fun p => !(p.1 < cid && p.2.st != .queued && (s.inOrder p.2 c || s.ownClash p.1 p.2 c)))

/-- COPY_CMD_ACCEPT: of the heads of its core's queues that it may start, the engine starts the one that entered its queue first,
while its outstanding requests allow (R283). -/
def State.acceptCopy (s : State) (cid : Nat) : State :=
  match s.cmd cid with
  | none => s
  | some c =>
    if !s.mayCopy cid c || 8192 ≤ s.outstanding (coreOf c.wk) ||
        s.cmdList.any (fun p => p.1 < cid && coreOf p.2.wk == coreOf c.wk && s.mayCopy p.1 p.2) then s
    else match c.ins with
      | .cpy .. => s.acceptCpy cid c
      | .tcopy .. => s.acceptTcopy cid c
      | .pull .. => s.acceptPull cid c
      | .cpym .. => s.acceptCpym cid c
      | .tsld .. => s.modCmd cid (fun c => { c with st := .running, total := 1 })
      | _ => s.modCmd cid (fun c => { c with st := .running, total := 1, rdone := 1 })

def execCopyCmdAccept (cid : Nat) (s : State) : Result := .next (s.acceptCopy cid)

/-! ### Steps of a command (R180, R185, R190) -/

/-- The memory step of a TCOPY: the map descriptor where its read at acceptance was stopped, an element read, or an element written or passed over. -/
def State.tcMem (s : State) (cid : Nat) (c : Cmd) (ecc : Ecc) : State :=
  let core := coreOf c.wk
  let e := c.ldone
  if tcKv c && c.kvmap == [] then s.tcMap cid c ecc
  else if e = c.total then s
  else match tcVA c e with
    | none => if tcStore c then State.tcMem.next s cid c else s
    | some va =>
      if tcStore c then
        let ps := spotsOf (tcSpot c) (e * c.extra) c.extra
        if s.eRead ps = .wait then s else
        let s := s.regEcc ps ecc
        match s.eRead ps with
        | .wait => s
        | .poison => s.copyEnd cid ePOISON e
        | .ok =>
          match s.eStore cid core c.wk c.asid va (s.spotBytes (tcSpot c) (e * c.extra) c.extra) with
          | .ok _ s => State.tcMem.next s cid c
          | .page v l s => s.stopAt cid c v l true
          | .bad k s => s.copyEnd cid (eMem k) e
          | .held => s
      else if c.rdone ≠ e then s
      else match s.eLoad cid core c.wk c.asid va c.extra ecc with
        | .ok l s => s.modCmd cid (fun c => { c with rdone := e + 1, buf := Fmap.setList 0 [] 0 l })
        | .page v l s => s.stopAt cid c v l false
        | .bad k s => s.copyEnd cid (eMem k) e
        | .held => s
where
  /-- Element `ldone` of a `.st` is committed. -/
  next (s : State) (cid : Nat) (c : Cmd) : State :=
    let s := s.modCmd cid (fun c => { c with ldone := c.ldone + 1 })
    if c.ldone + 1 = c.total then s.copyEnd cid 0 c.total else s

/-- A landing of a TCOPY `.ld`: one element; a granule whose last byte is in place is full and counts (R60, R178). -/
def State.tcLand (s : State) (cid : Nat) (c : Cmd) : State :=
  let e := c.ldone
  if e = c.total || tcStore c || (tcKv c && c.kvmap == []) then s else
  let out := (tcVA c e).isNone
  if !out && c.rdone ≠ e + 1 then s else
  if !s.barGood c.wk (c.wins.headD 0) (cpThread c) (cpRef c) then s.copyEnd cid eWINACC e else
  if !s.barReady cid (c.wins.headD 0) (cpThread c) (cpRef c) then s else
  let l := (List.range c.extra).map (fun j => if out then (0 : Byte) else Fmap.get 0 c.buf j)
  let s := s.landAt c.wk (tcSpot c) (e * c.extra) l
  let fin := (e + 1) * c.extra
  let s := if fin % 16 = 0 ∨ e + 1 = c.total then
      (match tcSpot c ((fin - 1) / 4) with | some p => s.spotFill p | none => s).barLand c.wk c.wk (c.wins.headD 0) (cpThread c) (cpRef c) (if fin % 16 = 0 then 16 else fin % 16)
    else s
  let s := s.modCmd cid (fun c => { c with ldone := e + 1, rdone := e + 1 })
  if e + 1 = c.total then s.copyEnd cid 0 c.total else s

/-- ENGINE_MEM_RESPONSE for the copy engine: one memory access of the command is performed. -/
def State.copyMem (s : State) (cid : Nat) (c : Cmd) (ecc : Ecc) : State :=
  match c.ins with
  | .cpy .. =>
    let put := fun t => spInMem (cpyDst c.ins) && s.cpyReady c t != .wait
    let get := fun t => spInMem (cpySrc c.ins) && !c.rdone.testBit t
    match c.left.find? (fun t => put t || get t) with
    | none => s
    | some t => if put t then s.cpyStore cid c t ecc else s.cpyFetch cid c t ecc
  | .tcopy .. => s.tcMem cid c ecc
  | .tsld .. =>
    if c.rdone = 1 then s else
    let va := Word.pair (c.params.getD 0 0) (c.params.getD 1 0)
    let fail (s : State) (k : Nat) : State :=
      (s.modBlock c.bk (fun b => { b with shape := Fmap.set 0 b.shape ((cmdShape c).getD (0, true)).1 0 })).copyEnd cid (eMem k) 0
    if va.toNat % 64 ≠ 0 then
      match s.eSkew (coreOf c.wk) c.asid va with
      | .ok _ s => s
      | .page v l s => s.stopAt cid c v l false
      | .bad k s => fail s k
      | .held => s
    else match s.eLoad cid (coreOf c.wk) c.wk c.asid va 64 ecc with
    | .ok l s => s.modCmd cid (fun c => { c with rdone := 1, buf := Fmap.setList 0 [] 0 l })
    | .page v l s => s.stopAt cid c v l false
    | .bad k s => fail s k
    | .held => s
  | .cpym .. =>
    if c.rdone = c.total || c.err != 0 then s else
    let u := c.rdone
    let va := cpymVA c + BitVec.ofNat 64 (128 * u)
    match s.eLoad cid (coreOf c.wk) c.wk c.asid va (cpLineLen c u) ecc with
    | .ok l s => s.modCmd cid (fun c => { c with rdone := u + 1, buf := Fmap.setList 0 c.buf (128 * u) l })
    | .page v l s => s.stopAt cid c v l false
    | .bad k s =>
      let s := s.modCmd cid (fun c => { c with err := eMem k })
      if c.ldone = u * (s.cpymGroup c).length then s.copyEnd cid (eMem k) (min (128 * u) (cpLen c)) else s
    | .held => s
  | _ => s

/-- Takes the shape that a TSLD has read, or empties the slot of a TSEV. -/
def State.shapeLand (s : State) (cid : Nat) (c : Cmd) : State :=
  if c.rdone ≠ 1 then s else
  let n := ((cmdShape c).getD (0, true)).1
  let put (s : State) (x : BitVec 512) : State := s.modBlock c.bk (fun b => { b with shape := Fmap.set 0 b.shape n x })
  match c.ins with
  | .tsld .. =>
    let x := bytesVal 512 ((List.range 64).map (fun j => Fmap.get 0 c.buf j))
    if shBad x then (put s 0).copyEnd cid eBADSHAPE 0 else (put s x).copyEnd cid 0 0
  | _ => (put s 0).copyEnd cid 0 0

/-- A landing of a pull: one line. -/
def State.pullLand (s : State) (cid : Nat) (c : Cmd) : State :=
  let u := c.ldone
  if c.rdone ≤ u then s else
  let n := cpLineLen c u
  if (s.pullSpots c u).length ≠ n / 4 || !s.barGood c.wk (c.wins.getD 1 0) (cpThread c) (cpRef c) then s.copyEnd cid eWINACC (128 * u) else
  if !s.barReady cid (c.wins.getD 1 0) (cpThread c) (cpRef c) || !s.winFree cid (spotsOf (s.pullSpot c) (cpDst c + 128 * u) n) then s else
  let s := s.landAt c.wk (s.pullSpot c) (cpDst c + 128 * u) ((List.range n).map (fun j => Fmap.get 0 c.buf (128 * u + j)))
  let s := foldS (granSpots (spotsOf (s.pullSpot c) (cpDst c + 128 * u) n)) s (fun s p => s.spotFill p)
  let s := s.barLand c.wk c.wk (c.wins.getD 1 0) (cpThread c) (cpRef c) n
  let s := s.modCmd cid (fun c => { c with ldone := u + 1 })
  if u + 1 = c.total then s.copyEnd cid 0 (cpLen c)
  else if c.err ≠ 0 ∧ u + 1 = c.rdone then s.copyEnd cid c.err (min (128 * (u + 1)) (cpLen c))
  else s

/-- ENGINE_LANDING for the copy engine. -/
def State.copyLand (s : State) (cid : Nat) (c : Cmd) : State :=
  match c.ins with
  | .cpy .. =>
    match c.left.find? (fun t => !spInMem (cpyDst c.ins) && s.cpyReady c t != .wait) with
    | none => s
    | some t => s.cpyLand cid c t
  | .tcopy .. => s.tcLand cid c
  | .pull .. => s.pullLand cid c
  | .cpym .. => s
  | _ => s.shapeLand cid c


/-- What a remote read of n bytes of a window by a warp of the launch meets (R190, R371, R374). -/
def State.remoteCheck (s : State) (lid : Nat) (h : DWord) (t off n : Nat) : BitVec 8 ⊕ ERead :=
  let b := s.block (bkey (hCore h) (hBtag h))
  if !hValid h || 192 ≤ hCore h || !b.present || b.lid != lid then .inl eNOSENDER
  else if hGen h != (s.hDesc h).gen then .inl eSTALE
  else
    let ps := spotsOf (s.winSpot h t) off n
    if ps.length ≠ (off + n - 1) / 4 - off / 4 + 1 then .inl eWINACC else .inr (s.eRead ps)

/-- The core that a handle names can be reached from the command's. -/
def State.cmdReach (s : State) (c : Cmd) (h : DWord) : Bool := 192 ≤ hCore h || s.routeOpen (dieOf (coreOf c.wk)) (dieOf (hCore h))

/-- REMOTE_READ_SERVE: the exporter serves the next remote read of a PULL or of a CPY with a `win` source, or refuses it. -/
def State.remoteServe (s : State) (cid : Nat) (ecc : Ecc) : State :=
  match s.cmd cid with
  | none => s
  | some c =>
    if c.st ≠ .running || !s.onCore c then s else
    let lid := (s.block c.bk).lid
    match c.ins with
    | .cpy _ _ _ .win _ _ _ =>
      let off (t : Nat) : Nat := (c.src t).toNat / 2 ^ 64 % 2 ^ 32
      let chk (t : Nat) := s.remoteCheck lid ((c.src t).setWidth 64) t (off t) (cpyN c.ins)
      (match c.left.find? (fun t => !c.rdone.testBit t && s.cmdReach c ((c.src t).setWidth 64) && (match chk t with | .inr .wait => false | _ => true)) with
       | none => s
       | some t =>
         (match chk t with
          | .inl e => s.cpyEnd cid t e
          | .inr .ok =>
            let ps := spotsOf (s.winSpot ((c.src t).setWidth 64) t) (off t) (cpyN c.ins)
            let s := (s.watchRead c.wk ps).regEcc ps ecc
            if ecc = .lasting then s.cpyEnd cid t ePOISON else
            let l := s.spotBytes (s.winSpot ((c.src t).setWidth 64) t) (off t) (cpyN c.ins)
            (s.modCmd cid (fun c => { c with rdone := c.rdone ||| 2 ^ t, buf := Fmap.setList 0 c.buf (16 * t) l })).cpyConsume cid
          | .inr _ => s.cpyEnd cid t ePOISON))
    | .pull .. =>
      if c.rdone = c.total || c.err != 0 || !s.cmdReach c (cpHandle c) then s else
      let u := c.rdone
      let h := cpHandle c
      let off := pullOff c + 128 * u
      let fail (s : State) (e : BitVec 8) : State :=
        let s := (s.modCmd cid (fun c => { c with err := e })).pullAck cid
        if c.ldone = u then s.copyEnd cid e (min (128 * u) (cpLen c)) else s
      (match s.remoteCheck lid h (cpThread c) off (cpLineLen c u) with
       | .inl e => fail s e
       | .inr .wait => s
       | .inr .poison => fail s ePOISON
       | .inr .ok =>
         let ps := spotsOf (s.winSpot h (cpThread c)) off (cpLineLen c u)
         let s := (s.watchRead c.wk ps).regEcc ps ecc
         if ecc = .lasting then fail s ePOISON else
         let l := s.spotBytes (s.winSpot h (cpThread c)) off (cpLineLen c u)
         let s := s.modCmd cid (fun c => { c with rdone := u + 1, buf := Fmap.setList 0 c.buf (128 * u) l })
         if u + 1 = c.total then s.pullAck cid else s)
    | _ => s

def execRemoteReadServe (cid : Nat) (ecc : Ecc) (s : State) : Result := .next (s.remoteServe cid ecc)

/-- One line of a CPYM is dropped at a member (R375). -/
def State.dropLine (s : State) (cid j core : Nat) : State :=
  (s.modCore core (fun k => { k with stale := min 16777215 (k.stale + 1) })).modCmd cid (fun c => { c with drop := c.drop ||| bit1 j })

/-- The command is a CPYM. -/
def isCpym (c : Cmd) : Bool :=
  match c.ins with
  | .cpym .. => true
  | _ => false

/-- MULTICAST_LANDING: the next line lands at the next member, or is dropped there. -/
def State.multiLand (s : State) (cid : Nat) : State :=
  match s.cmd cid with
  | none => s
  | some c =>
    let bs := s.cpymGroup c
    let m := bs.length
    let u := c.ldone / m
    let j := c.ldone % m
    let b := bs.getD j 0
    let home := (s.launch (s.block c.bk).lid).home b
    if !isCpym c ∨ m = 0 ∨ c.st = .queued ∨ c.st = .ended ∨ c.rdone ≤ u ∨ !s.onCore c ∨ !s.routeOpen (dieOf (coreOf c.wk)) (dieOf home) then s else
    let n := cpLineLen c u
    let t := cpThread c
    let s? : Option State :=
      match s.memberLive c j b with
      | none => some (s.dropLine cid j home)
      | some wk =>
        let h := s.memberH c wk
        let bh := Fmap.get 0 (s.warp wk).w (barWidx (cpRef c))
        if (s.memberSpots c wk u).length ≠ n / 4 || !s.barGood wk bh t (cpRef c) then
          some (s.copyEnd cid eWINACC (min (128 * c.rdone) (cpLen c))) else
        if !s.barReady cid bh t (cpRef c) || !s.winFree cid (spotsOf (s.winSpot h t) (cpDst c + 128 * u) n) then none else
        let s := s.landAt c.wk (s.winSpot h t) (cpDst c + 128 * u) ((List.range n).map (fun i => Fmap.get 0 c.buf (128 * u + i)))
        let s := foldS (granSpots (spotsOf (s.winSpot h t) (cpDst c + 128 * u) n)) s (fun s p => s.spotFill p)
        some (s.barLand c.wk wk bh t (cpRef c) n)
    match s? with
    | none => s
    | some s =>
      if (s.cmd cid).any (fun c => c.st == .ended) then s else
      let s := s.modCmd cid (fun c => { c with ldone := c.ldone + 1 })
      if c.ldone + 1 = c.total * m then s.copyEnd cid 0 (cpLen c)
      else if c.err ≠ 0 ∧ c.ldone + 1 = c.rdone * m then s.copyEnd cid c.err (min (128 * c.rdone) (cpLen c))
      else s

def execMulticastLanding (cid : Nat) (s : State) : Result := .next (s.multiLand cid)

/-- COPY_CMD_RETIRE: its writes and its status are in place; of a block that is off its core, once it is restored (R191). -/
def execCopyCmdRetire (cid : Nat) (s : State) : Result :=
  match s.cmd cid with
  | some c => if !c.array && c.st == .ended && s.onCore c then .next (s.endCmd cid) else .next s
  | none => .next s

end Sys2Proof.Machine
end

