-- ==== Sys2Proof/Machine/Matrix.lean ====
section
/-! DEFINITION. The matrix array, class 0xC (R219 to R241, R376 to R380): the issue of its commands, the order of
summation (R108 to R114), attention, the ladder, and the steps in which a unit starts, ends and retires a command. -/

namespace Sys2Proof.Machine

/-! ### Operands and extents (R221, R225, R232, R344) -/

def fW (code : Nat) : Nat := (fmtOf code).width
/-- Registers of an A row and its scales (R225), of a Q row and its mask granule (R232). -/
def aRegs (w : Word) : Nat := 4 * fW (fsAfmt w) + (if fsScale w = 0 then 0 else 1)
def qRegs (w : Word) : Nat := 4 * fW (fsAfmt w) + 4

def vExt (al : Alloc) (r n : Nat) : Option Word := if r + n > al.nv then some (tdV (max r al.nv)) else none
def sExt (al : Alloc) (r n : Nat) : Option Word := if r + n > al.ns then some (tdS (max r al.ns)) else none
def tExt (al : Alloc) (r n : Nat) : Option Word := if r + n > al.na then some (tdTile 0 (max r al.na)) else none
def bExt (al : Alloc) (r n : Nat) : Option Word := if r + n > al.nb then some (tdTile 1 (max r al.nb)) else none

/-- GSEL. -/
def arrGuard (i : Instr) : Option Nat :=
  let g : BitVec 3 := match i with
    | .mma _ g .. => g | .wld _ g .. => g | .aclr _ g .. => g | .ald _ g .. => g | .asto _ g .. => g | .att _ g .. => g
    | .attfin _ g .. => g | .ladinit _ g .. => g | .ladpush _ g .. => g | .ladread _ g .. => g | .ladld _ g .. => g
    | _ => 0
  if g = 0 then none else some g.toNat

/-- The v register that each thread of a command names; 0 where it names none. -/
def arrReg : Instr → Nat
  | .mma _ _ _ _ _ a _ => opNum a
  | .att _ _ _ _ _ a _ => opNum a
  | .attfin _ _ _ d _ => opNum d
  | .ald _ _ true _ a _ => opNum a
  | .asto _ _ _ _ _ d _ => opNum d
  | .ladld _ _ _ d _ _ => opNum d
  | _ => 0

/-- The first extent past the allocation, D before A before B. -/
def arrExt (al : Alloc) (w : Word) : Instr → Option Word
  | .mma _ _ _ _ _ a b => vExt al (opNum a) (aRegs w) <|> bExt al (opNum b) (mmaSlots w)
  | .wld _ _ n d _ _ => bExt al (opNum d) (n.toNat + 1)
  | .ald _ _ true _ a _ => vExt al (opNum a) 128
  | .asto _ _ _ _ _ d _ => vExt al (opNum d) (4 * fW (fsAfmt w))
  | .att _ _ _ _ d a b => tExt al (opNum d) 2 <|> vExt al (opNum a) (qRegs w) <|> bExt al (opNum b) (2 * attSlots w)
  | .attfin _ _ _ _ a => tExt al (opNum a) 2
  | .ladinit _ _ _ d a b => sExt al (opNum d) 20 <|> tExt al (opNum a) (immNat b)
  | .ladpush _ _ _ d _ => sExt al (opNum d) 20
  | .ladread _ _ _ _ a b => sExt al (opNum a) 20 <|> sExt al (opNum b) 16
  | .ladld _ _ _ d a _ => vExt al (opNum d) 128 <|> sExt al (opNum a) 20
  | _ => none

/-- The range entries of a command (R69, R222, R237), with their owner. -/
def arrRngs (w : Word) (o : RngOwner) (i : Instr) : List Rng :=
  let r := arrReg i
  match i with
  | .mma .. => [⟨false, false, r, aRegs w, o⟩]
  | .att .. => [⟨false, false, r, qRegs w, o⟩]
  | .attfin .. => [⟨true, false, r, 1, o⟩]
  | .ald _ _ true _ _ _ => [⟨false, false, r, 128, o⟩]
  | .asto .. => [⟨true, false, r, 4 * fW (fsAfmt w), o⟩]
  | .ladinit _ _ _ d _ _ => [⟨true, true, opNum d, 20, o⟩]
  | .ladpush _ _ _ d _ => [⟨true, true, opNum d, 20, o⟩]
  | .ladread _ _ _ _ a b => [⟨true, true, opNum a, 20, o⟩, ⟨false, true, opNum b, 16, o⟩]
  | .ladld _ _ _ _ a _ => [⟨true, false, r, 128, o⟩, ⟨true, true, opNum a, 20, o⟩]
  | _ => []

/-- The instruction is not a legal one for its slot word (R231, R232). -/
def arrSlotBad (w : Word) : Instr → Bool
  | .asto .. => !fsPlain w
  | .att .. =>
    let a := fsAfmt w
    let b := fsBfmt w
    !fsPlain w || !((a == 1 && b == 1) || (a == 2 && b == 2) || ((a == 3 || a == 4) && (b == 3 || b == 4)))
  | _ => false

/-- Registers may be lent for an entry of a command (R70): the entry of its own round does not count, nor, for a ladder
context, those of earlier ladder commands (R72, R237). -/
def State.arrLend (s : State) (own : RngOwner) (r : Rng) (ls : List Loc) : Bool :=
  ls.all (fun l => s.settled l && !(s.warp l.wk).ranges.any (fun e =>
    (r.wr || e.wr) && e.isS == l.isS && e.first ≤ l.idx && l.idx < e.first + e.count && s.inForce e l && e.owner != own &&
    !(r.isS && r.wr && e.wr && r.count == 20 && e.count == 20)))

/-- A command of a warp's array queue. -/
def State.arrCmd (s : State) (i : Instr) (q : Nat) (mask : Word) (pc : DWord) : Cmd :=
  { wk := q, bk := bkOf q, array := true, ins := i, pc := pc, mask := mask, asid := (s.warp q).asid, tctx := .array,
    num := s.nextNum q true, guard := arrGuard i, params := [s.fsWord q (arrSlot i)] }

/-! ### Issue (R219, R220, R222) -/

/-- A thread is of a declared set. -/
def KDecl.has (d : KDecl) (tk : Nat) : Bool :=
  match d with
  | .none => false
  | .warp wk m => tk / 32 == wk && m.getLsbD (tk % 32)
  | .block m => m.getLsbD (widx (tk / 32))

/-- The lowest warp with a thread in the set. -/
def State.queueWarp (s : State) (bk wk : Nat) (d : KDecl) : Nat := ((s.declared bk d).map (fun k => k / 32)).foldl min ((s.declared bk d).headD (32 * wk) / 32)

/-- A full round of an array command closes once its queue has room, behind any that has waited longer for that queue. -/
def State.closeArray (s : State) (bk k : Nat) : State :=
  let K := s.kreg bk k
  match K.first with
  | none => s
  | some i =>
    let q := K.queue
    if !isJoint i || !s.roundFull bk k || s.queueFull q true || s.behindRound q k K then s else
    let mask := maskOf ((K.signed.filter (fun t => t / 32 == q && K.decl.has t)).map (fun t => t % 32))
    let cmd := { s.arrCmd i q mask K.pc with regs := K.regs, issued := s.clk }
    let cid := s.nextId
    let s := ((s.takeNum q true).setCmd cid (some cmd)).bumpId
    let s := foldS (s.blockWarps bk) s (fun s wk =>
      if (s.warp wk).ranges.any (fun r => r.owner == .round k) then
        s.modWarp wk (fun w => { w with ranges := w.ranges.map (fun r => if r.owner = .round k then { r with owner := .cmd cid } else r) })
      else s)
    s.setKreg bk k { K with signed := [], first := none, regs := [] }

/-- The entries of a round: taken at its first signature, widened over the registers that later signers name. -/
def State.lendRound (s : State) (q k : Nat) (first : Bool) (rs : List Rng) : State :=
  if first then s.modWarp q (fun w => { w with ranges := w.ranges ++ rs })
  else match rs.find? (fun r => !r.isS) with
    | none => s
    | some r => s.modWarp q (fun w => { w with ranges := w.ranges.map (fun e =>
        if e.owner = .round k ∧ !e.isS then
          { e with first := min e.first r.first, count := max (e.first + e.count) (r.first + r.count) - min e.first r.first }
        else e) })

/-- The operands of a joint instruction may be lent, and its queue's warp has room (R70, R72). -/
def State.jointFree (s : State) (i : Instr) (k : Nat) (c : TC) : Bool :=
  let K := s.kreg (bkOf c.wk) k
  let q := s.queueWarp (bkOf c.wk) c.wk K.eff
  let rs := arrRngs (s.fsWord c.wk (arrSlot i)) (.round k) i
  rs.all (fun r => s.arrLend (.round k) r (if r.isS then locsS q r.first r.count else locsV c.wk c.t r.first r.count)) &&
    (K.signed != [] || s.rangeRoom q rs.length) && !s.footBusy (s.arrCmd i q 0 0)

/-- A signature with its operands lent and its register noted; the round closes if it is the last. `s` is the state before. -/
def State.jointSign (s s1 : State) (i : Instr) (k : Nat) (c : TC) : State :=
  let bk := bkOf c.wk
  let K := s.kreg bk k
  let s2 := s1.lendRound (s.queueWarp bk c.wk K.eff) k (K.signed == []) (arrRngs (s.fsWord c.wk (arrSlot i)) (.round k) i)
  (s2.setKreg bk k { s2.kreg bk k with regs := Fmap.set 0 (s2.kreg bk k).regs (tkey c.wk c.t) (arrReg i) }).closeArray bk k

/-- The body of a joint instruction: its signature, its operands lent, and the round closed if it is the last. -/
def jointBody (i : Instr) (k : Nat) (warpKind : Bool) (c : TC) (s : State) : TRes :=
  match arrExt (s.warp c.wk).alloc (s.fsWord c.wk (arrSlot i)) i with
  | some td => .trap kRng td
  | none =>
    match s.sign c.wk c.t k i c.pc warpKind with
    | .join => .trap kJoin 0
    | .wait => .wait s
    | .signed s1 =>
      if arrSlotBad (s.fsWord c.wk (arrSlot i)) i then .trap kSlot 0 else
      match s.issueDue c.wk (bit1 c.t) with
      | d :: ds => .park s (d :: ds)
      | [] => if s.jointFree i k c then .done (s.jointSign s1 i k c) else .wait s

/-- The command of an array instruction issued once for the warp. -/
def State.onceArrCmd (s : State) (i : Instr) (c : TC) (va : List Word) : Cmd :=
  let base := s.arrCmd i c.wk (bit1 c.t) c.pc
  { base with params := base.params ++ va }

/-- Its queue has room, which no full round waits for (R220), and its operands may be lent. -/
def State.onceArrFree (s : State) (i : Instr) (c : TC) (va : List Word) : Bool :=
  let rs := arrRngs (s.fsWord c.wk (arrSlot i)) (.cmd 0) i
  !s.queueFull c.wk true && s.waitRounds c.wk == [] && rs.all (fun r => s.arrLend (.cmd 0) r ((List.range 32).flatMap (fun t => locsV c.wk t r.first r.count))) &&
    s.rangeRoom c.wk rs.length && !s.footBusy (s.onceArrCmd i c va)

/-- The body of an array command issued once for the warp. -/
def onceArr (i : Instr) (va : TC → List Word) (c : TC) (s : State) : TRes :=
  match arrExt (s.warp c.wk).alloc (s.fsWord c.wk (arrSlot i)) i with
  | some td => .trap kRng td
  | none =>
    if arrSlotBad (s.fsWord c.wk (arrSlot i)) i then .trap kSlot 0 else
    issueBody (fun c s =>
      if s.onceArrFree i c (va c) then
        .done ((s.takeNum c.wk true).enqueue (s.onceArrCmd i c (va c)) ((arrRngs (s.fsWord c.wk (arrSlot i)) (.cmd 0) i).map (fun r => (c.wk, r))))
      else .wait s) c s

/-- MMA. -/
def execMma (h : Hdr) (g : BitVec 3) (k : BitVec 4) (sl : BitVec 3) (d a b : Operand) (s : State) : Result :=
  laneEach (.mma h g k sl d a b) false false .int .int (jointBody (.mma h g k sl d a b) k.toNat true) s
/-- ATT. -/
def execAtt (h : Hdr) (g : BitVec 3) (k : BitVec 4) (sl : BitVec 3) (d a b : Operand) (s : State) : Result :=
  laneEach (.att h g k sl d a b) false false .int .int (jointBody (.att h g k sl d a b) k.toNat true) s
/-- ATTFIN. -/
def execAttfin (h : Hdr) (g : BitVec 3) (k : BitVec 4) (d a : Operand) (s : State) : Result :=
  laneEach (.attfin h g k d a) false false .int .int (jointBody (.attfin h g k d a) k.toNat true) s
/-- LADINIT. -/
def execLadinit (h : Hdr) (g : BitVec 3) (k : BitVec 4) (d a b : Operand) (s : State) : Result :=
  laneEach (.ladinit h g k d a b) false false .int .int (jointBody (.ladinit h g k d a b) k.toNat false) s
/-- LADPUSH. -/
def execLadpush (h : Hdr) (g : BitVec 3) (k : BitVec 4) (d a : Operand) (s : State) : Result :=
  laneEach (.ladpush h g k d a) false false .int .int (jointBody (.ladpush h g k d a) k.toNat false) s
/-- LADREAD. -/
def execLadread (h : Hdr) (g : BitVec 3) (k : BitVec 4) (d a b : Operand) (s : State) : Result :=
  laneEach (.ladread h g k d a b) false false .int .int (jointBody (.ladread h g k d a b) k.toNat false) s
/-- LADLD. -/
def execLadld (h : Hdr) (g : BitVec 3) (k : BitVec 4) (d a b : Operand) (s : State) : Result :=
  laneEach (.ladld h g k d a b) false false .int .int (jointBody (.ladld h g k d a b) k.toNat true) s

/-- The address of R162, as parameter words. -/
def arrVA (b : Operand) (c : TC) : List Word := words2 (c.av + b.payload.signExtend 64)

/-- WLD. -/
def execWld (h : Hdr) (g : BitVec 3) (n : BitVec 6) (d a b : Operand) (s : State) : Result :=
  let e : Early := fun c s => (arrExt (s.warp c.wk).alloc 0 (.wld h g n d a b)).map (fun td => (kRng, td))
  laneOnceEarly (.wld h g n d a b) .int .int e (onceArr (.wld h g n d a b) (arrVA b)) s
/-- ACLR. -/
def execAclr (h : Hdr) (g : BitVec 3) (st : Bool) (d : Operand) (s : State) : Result :=
  laneOnce (.aclr h g st d) .int .int (onceArr (.aclr h g st d) (fun _ => [])) s
/-- ALD. -/
def execAld (h : Hdr) (g : BitVec 3) (reg : Bool) (d a b : Operand) (s : State) : Result :=
  laneOnce (.ald h g reg d a b) .int .int (onceArr (.ald h g reg d a b) (arrVA b)) s
/-- ASTO. -/
def execAsto (h : Hdr) (g : BitVec 3) (rnd : Rnd) (int : Bool) (sl : BitVec 3) (d a : Operand) (s : State) : Result :=
  laneOnce (.asto h g rnd int sl d a) .int .int (onceArr (.asto h g rnd int sl d a) (fun _ => [])) s

/-- JOINT_ROUND_CLOSE (R42, R43): every thread left in the declared set has signed. -/
def execJointRoundClose (bk k : Nat) (s : State) : Result :=
  if !s.roundDue bk k then .next s
  else match (s.kreg bk k).first with
    | some i => .next (if isJoint i then s.closeArray bk k else s.closeRound bk k)
    | none => .next s

/-! ### The order of summation (R108 to R114) -/

/-- A product of two elements, exact; ∞ · 0 is a NaN. -/
def fprod (a b : FVal) : FVal :=
  match a, b with
  | .nan _, _ => .nan false
  | _, .nan _ => .nan false
  | .inf s, .inf t => .inf (s != t)
  | .inf s, .fin t m _ => if m = 0 then .nan false else .inf (s != t)
  | .fin s m _, .inf t => if m = 0 then .nan false else .inf (s != t)
  | .fin s m e, .fin t n g => .fin (s != t) (m * n) (e + g)

def infCode (neg : Bool) : Nat := sgn fF32 neg fF32.infMag

/-- The table of R112 over the accumulator and the products. -/
def special (l : List FVal) : Option Nat :=
  if l.any isNan then some fF32.nanMag
  else
    let p := l.contains (.inf false)
    let n := l.contains (.inf true)
    if p && n then some fF32.nanMag else if p then some (infCode false) else if n then some (infCode true) else none

def fvDy : FVal → Dy
  | .fin s m e => dyOf s m e
  | _ => (0, 0)
def dySum (l : List Dy) : Dy := l.foldl Dy.add (0, 0)

/-- RoundF32(c + x, RNE) of R113: an exact zero is +0. -/
def accAdd (c : Nat) (x : Dy) : Nat :=
  match fF32.decode c with
  | .nan _ => fF32.nanMag
  | .inf neg => infCode neg
  | .fin neg m e => (fF32.roundDy .rne false (Dy.add (dyOf neg m e) x)).1

/-- The term of one block of products under B16 and F32: 60 bits below the greatest kept, with a sticky term. -/
def blkTerm (ps : List Dy) : Dy :=
  let nz := ps.filter (fun p => p.1 != 0)
  match nz with
  | [] => (0, 0)
  | p0 :: _ =>
    let ex (p : Dy) : Int := p.2 + Nat.log2 p.1.natAbs
    let e := nz.foldl (fun m p => max m (ex p)) (ex p0)
    let q := e - 60
    let cut (p : Dy) : Int :=
      let n : Nat := if q ≤ p.2 then p.1.natAbs * 2 ^ (p.2 - q).toNat else p.1.natAbs / 2 ^ (q - p.2).toNat
      if p.1 < 0 then -(n : Int) else n
    let t := nz.foldl (fun a p => a + cut p) 0
    let st := nz.any (fun p => p.2 < q && p.1.natAbs % 2 ^ (q - p.2).toNat != 0)
    let big := nz.foldl (fun b p => if (Dy.add (p.1.natAbs, p.2) (-b.1.natAbs, b.2)).1 > 0 then p else b) p0
    let g : Int := if t ≠ 0 then (if t < 0 then -1 else 1) else if big.1 < 0 then -1 else 1
    (4 * t + (if st then g else 0), q - 2)

/-- Scales of one element. -/
inductive ScaleK where
  | none
  | e8 (x : List Int)
  | row (ra cb : FVal)
  deriving DecidableEq, Repr

/-- The accumulator is S32 (R107). -/
def accInt (w : Word) : Bool := 8 ≤ fsAfmt w && 8 ≤ fsBfmt w && fsScale w != 2

/-- Blocks of n products, in ascending k. -/
def blocksOf (n : Nat) (l : List Dy) : List (List Dy) := (List.range (128 / n)).map (fun j => (l.drop (n * j)).take n)

/-- The rows of R109 where a scale is not finite; none where both are. -/
def rowSpecial (c : Nat) (ra cb : FVal) (sum : Dy) : Option Nat :=
  let neg (v : FVal) : Bool := match v with | .inf s => s | .fin s _ _ => s | .nan _ => false
  if isNan ra || isNan cb then some fF32.nanMag
  else match ra, cb with
    | .fin .., .fin .. => none
    | _, _ =>
      if sum.1 = 0 then some fF32.nanMag
      else special [fF32.decode c, .inf (xor (xor (neg ra) (neg cb)) (sum.1 < 0))]

/-- New accumulator element (R112, R113) for the old c and the 128 products. -/
def mmaElem (w : Word) (sc : ScaleK) (c : Nat) (ps : List FVal) : Nat :=
  if accInt w then
    let x := dySum (ps.map fvDy)
    ((c + x.1 * 2 ^ x.2.toNat) % 4294967296).toNat
  else match (if fsAfmt w ≤ 2 then special (fF32.decode c :: ps) else none) with
    | some r => r
    | none =>
      let ds := ps.map fvDy
      match sc with
      | .row ra cb =>
        let x := dySum ds
        (match rowSpecial c ra cb x with
         | some r => r
         | none => accAdd c (Dy.mul x (Dy.mul (fvDy ra) (fvDy cb))))
      | .e8 es => ((blocksOf 32 ds).zip es).foldl (fun c b => accAdd c (Dy.mul (dySum b.1) (1, b.2))) c
      | .none =>
        if fsAfmt w = 2 then (blocksOf 16 ds).foldl (fun c b => accAdd c (blkTerm b)) c
        else if fsAfmt w = 0 then (blocksOf 4 ds).foldl (fun c b => accAdd c (blkTerm b)) c
        else accAdd c (dySum ds)

/-! ### Operand strings (R98, R110, R111, R226) -/

def wordsNat (l : List Word) : Nat := l.foldr (fun x n => x.toNat + 4294967296 * n) 0

/-- n consecutive entries of a table from key k. -/
def Fmap.slice {β : Type} (d : β) : Nat → Nat → List (Nat × β) → List β
  | 0, _, _ => []
  | n + 1, k, m =>
    let m := m.dropWhile (fun p => p.1 < k)
    match m with
    | (j, v) :: r => if j = k then v :: Fmap.slice d n (k + 1) r else d :: Fmap.slice d n (k + 1) m
    | [] => d :: Fmap.slice d n (k + 1) []

/-- 128 elements of w bits. -/
def codesOf (w x : Nat) : List Nat := (List.range 128).map (fun k => x / 2 ^ (w * k) % 2 ^ w)

/-- The expanded elements of a B column record. -/
def bCodes (w comp x : Nat) : List Nat :=
  match comp with
  | 0 => codesOf w x
  | 1 => (List.range 128).map (fun k =>
      let g := x / 2 ^ ((2 * w + 4) * (k / 4))
      let i0 := g / 2 ^ (2 * w) % 4
      let i1 := g / 2 ^ (2 * w + 2) % 4
      if k % 4 = i0 then g % 2 ^ w else if k % 4 = i1 ∧ i0 < i1 then g / 2 ^ w % 2 ^ w else 0)
  | _ => (List.range 128).map (fun k =>
      let y := x / 2 ^ (8 * (k / 5)) % 256
      if 243 ≤ y then 0 else match y / 3 ^ (k % 5) % 3 with | 0 => 0 | 1 => 1 | _ => 3)

def State.slotString (s : State) (bk slot n : Nat) : Nat := wordsNat (Fmap.slice 0 (2048 * n) (2048 * slot) (s.block bk).slot)
def State.tileWords (s : State) (bk tile : Nat) : List Nat := (Fmap.slice 0 4096 (4096 * tile) (s.block bk).tile).map BitVec.toNat
def rowWords (l : List Nat) (i : Nat) : List Nat := (l.drop (128 * i)).take 128
def State.regString (s : State) (wk t r n : Nat) : Nat := wordsNat ((locsV wk t r n).map s.readLoc)

/-- Element row i of A or Q, decoded. -/
def State.rowVals (s : State) (w : Word) (wk t r : Nat) : List FVal :=
  (codesOf (fW (fsAfmt w)) (s.regString wk t r (4 * fW (fsAfmt w)))).map (fmtOf (fsAfmt w)).decode

/-- E8 scale exponent (R108). -/
def e8 (x : Nat) : Int := (min x 254 : Nat) - 127

/-- The scales of element (i, n) from the row's scale register and the B string. -/
def scaleOf (w : Word) (reg b n : Nat) : ScaleK :=
  let cb := 128 * mmaCB w
  match fsScale w with
  | 1 => .e8 ((List.range 4).map (fun j => e8 (reg / 2 ^ (8 * j) % 256) + e8 (b / 2 ^ (8 * (cb + 4 * n + j)) % 256)))
  | 2 => .row (fF16.decode (reg % 65536)) (fF16.decode (b / 2 ^ (8 * (cb + 2 * n)) % 65536))
  | _ => .none

/-- Row i of an MMA (R227). -/
def mmaRow (w : Word) (a : List FVal) (reg b : Nat) (cols : List (List FVal)) (c : List Nat) : List Nat :=
  (cols.zip c).zipIdx.map (fun p => mmaElem w (scaleOf w reg b p.2) p.1.2 ((a.zip p.1.1).map (fun q => fprod q.1 q.2)))

/-! ### Attention (R232 to R234) -/

/-- A sum of products rounded once, with the table of R112 over its terms (R233). -/
def termSum (l : List (FVal × FVal)) : Nat :=
  let ps := l.map (fun p => fprod p.1 p.2)
  match special ps with
  | some r => r
  | none => (fF32.roundDy .rne false (dySum (ps.map fvDy))).1

/-- RoundF32(2^x, RNE) of an exact difference. -/
def exp2Dy (x : Dy) : Nat := (fF32.exp2 .rne (.fin (x.1 < 0) x.1.natAbs x.2)).1

/-- The greater of two finite codes; −0 is less than +0. -/
def maxCode (a b : Nat) : Nat := if fF32.key a < fF32.key b ∨ (fF32.key a = fF32.key b ∧ b < a) then b else a

/-- One row: m, l and O after the block; none where no key is valid. -/
def attRow (w : Word) (q : List FVal) (mask : List Nat) (ks vs : List (List FVal)) (m l : Nat) (o : List Nat) : Option (Nat × Nat × List Nat) :=
  let kbase := mask.getD 0 0
  let pad := min 128 (mask.getD 3 0 % 256)
  let clim := mask.getD 1 0
  let js := (List.range 128).filter (fun j => j < 128 - pad && mask.getD 2 0 ≤ kbase + j && (clim = 0xFFFFFFFF || kbase + j ≤ clim))
  if js = [] then none else
  let sc := js.map (fun j => mmaElem w .none 0 ((q.zip (ks.getD j [])).map (fun p => fprod p.1 p.2)))
  let fin (x : Nat) : Bool := match fF32.decode x with | .fin .. => true | _ => false
  let minf := m == infCode true
  if (!fin m && !minf) || sc.any (fun x => !fin x) then some (fF32.nanMag, fF32.nanMag, List.replicate 128 fF32.nanMag) else
  let top := sc.foldl maxCode (sc.headD 0)
  let mn := if minf then top else maxCode m top
  let diff (x : Nat) : Dy := let d := fvDy (fF32.decode mn); Dy.add (fvDy (fF32.decode x)) (-d.1, d.2)
  let al := fF32.decode (if minf then 0 else exp2Dy (diff m))
  let p := sc.map (fun x => fF32.decode (exp2Dy (diff x)))
  some (mn, termSum ((al, fF32.decode l) :: p.map (fun x => (x, .one))),
    o.zipIdx.map (fun x => termSum ((al, fF32.decode x.1) :: (p.zip js).map (fun y => (y.1, (vs.getD y.2 []).getD x.2 (.fin false 0 0))))))

/-- One row of ATTFIN: O, and its mask bit. -/
def finRow (m l : Nat) (o : List Nat) : List Nat × Bool :=
  if l = 0 ∧ m = infCode true then (o.map (fun _ => 0), true)
  else (o.map (fun x => (fF32.div .rne (fF32.decode x) (fF32.decode l)).1), false)

/-! ### The ladder (R237 to R241) -/

/-- FFMA of the ladder, elementwise. -/
def ladFma (g : Nat) (r x : List Nat) : List Nat :=
  (r.zip x).map (fun p => (fF32.fma .rne (fF32.decode g) (fF32.decode p.1) (fF32.decode p.2)).1)

/-- A ladder's context: as it stands, or as a command read it when it started (R237). -/
structure Lad where
  sC   : Nat
  n    : Word
  rung : Word
  deriving DecidableEq, Repr
def State.lad (s : State) (c : Cmd) : Lad :=
  let r := (ladCtx c.ins).getD 0
  match c.params with
  | [_, n, w] => ⟨r, n, w⟩
  | _ => ⟨r, s.readLoc (.s c.wk r), s.readLoc (.s c.wk (r + 1))⟩
def Lad.top (l : Lad) : Nat := rcnt l.rung
def Lad.occ (l : Lad) (k : Nat) : Bool := if k < l.top then l.n.getLsbD k else k == l.top && topOcc l.rung
def Lad.tile (l : Lad) (k : Nat) : Nat := rung0 l.rung + k
/-- Merges of a push: min(Ctz(not n), top). -/
def Lad.merges (l : Lad) : Nat := ((List.range l.top).find? (fun k => !l.n.getLsbD k)).getD l.top
/-- The rungs blended by LADREAD. -/
def Lad.rungs (l : Lad) : List Nat := (List.range (l.top + 1)).filter (fun k => l.occ k)
/-- The check of R379. -/
def Lad.bad (l : Lad) (na : Nat) : Bool := l.top == 0 || na ≤ rung0 l.rung + l.top

/-! ### Places a command reads and writes (R59, R60, R219) -/

def tileGrans (bk tile row n : Nat) : List Spot := (List.range n).map (fun g => .tile bk (4096 * tile + 128 * row + 4 * g))
def tileAll (bk tile : Nat) : List Spot := tileGrans bk tile 0 1024
def slotGrans (bk slot lo n : Nat) : List Spot := (List.range n).map (fun g => .slot bk (2048 * slot + 4 * (lo + g)))
def regSpots (wk t r n : Nat) : List Spot := granSpots ((locsV wk t r n).map Spot.reg)

/-- Rows of a command. -/
def Cmd.rows (c : Cmd) : List Nat := if isJoint c.ins then maskList c.mask else List.range 32

/-- Registers of the signers of a joint command, or of the 32 threads of the warp, as thread key and register. -/
def Cmd.regOf (c : Cmd) (tk : Nat) : Nat := if isJoint c.ins then Fmap.get 0 c.regs tk else arrReg c.ins
def Cmd.signers (c : Cmd) : List Nat :=
  match c.ins with
  | .attfin .. | .ladld .. => c.regs.map Prod.fst ++ ((maskList c.mask).map (tkey c.wk)).filter (fun tk => !(c.regs.map Prod.fst).contains tk)
  | _ => (List.range 32).map (tkey c.wk)
def Cmd.regRow (c : Cmd) (tk n : Nat) : List Spot := regSpots (tk / 32) (tk % 32) (c.regOf tk) n

/-- The units of a command, in the order of its work: rows, the steps of a push, the occupied rungs of a blend (one more than any where there
is none), or the command as a whole (R224, R239, R240). -/
def State.arrUnits (s : State) (c : Cmd) : List Nat :=
  let l := s.lad c
  match c.ins with
  | .mma .. | .att .. | .asto .. => c.rows
  | .ald _ _ true _ _ _ => c.rows
  | .ladld .. => (List.range 32).filter (fun i => c.signers.contains (tkey c.wk i))
  | .ladpush .. => List.range (l.merges + 1)
  | .ladread .. => if l.rungs = [] then [16] else l.rungs
  | .wld .. | .ald _ _ false _ _ _ => []
  | _ => [0]

/-- Places that a unit of the command reads (R59, R379). -/
def State.arrUses (s : State) (c : Cmd) (i : Nat) : List Spot :=
  let l := s.lad c
  match c.ins with
  | .mma _ _ _ _ d _ b => c.regRow (tkey c.wk i) (aRegs c.fs) ++ tileGrans c.bk (opNum d) i 32 ++
      slotGrans c.bk (opNum b) 0 ((128 * mmaCB c.fs + mmaScale c.fs) / 16)
  | .att _ _ _ _ d _ b => c.regRow (tkey c.wk i) (qRegs c.fs) ++ tileGrans c.bk (opNum d) i 32 ++ tileGrans c.bk (opNum d + 1) i 1 ++
      slotGrans c.bk (opNum b) 0 (2 * attSlots c.fs * 512)
  | .attfin _ _ _ _ a => c.rows.flatMap (fun i => tileGrans c.bk (opNum a) i 32 ++ tileGrans c.bk (opNum a + 1) i 1)
  | .ald _ _ true _ _ _ => c.regRow (tkey c.wk i) 128
  | .asto _ _ _ _ _ _ a => tileGrans c.bk (opNum a) i 32
  | .ladpush _ _ _ _ a => (if i = 0 then tileAll c.bk (opNum a) else []) ++
      (if l.occ i then .reg (.s c.wk (l.sC + 4 + i)) :: tileAll c.bk (l.tile i) else [])
  | .ladread _ _ _ _ _ b => if i = 16 then [] else .reg (.s c.wk (opNum b + i)) :: tileAll c.bk (l.tile i)
  | .ladld _ _ _ _ _ b => if l.occ (immNat b) then tileGrans c.bk (l.tile (immNat b)) i 32 else []
  | _ => []

/-- Granules whose F bits its acceptance clears. -/
def State.arrWrites (s : State) (c : Cmd) : List Spot :=
  let l := s.lad c
  match c.ins with
  | .mma _ _ _ _ d _ _ => c.rows.flatMap (fun i => tileGrans c.bk (opNum d) i 32)
  | .wld _ _ n d _ _ => slotGrans c.bk (opNum d) 0 (512 * (n.toNat + 1))
  | .aclr _ _ _ d => tileAll c.bk (opNum d)
  | .ald _ _ _ d _ _ => tileAll c.bk (opNum d)
  | .asto .. => c.signers.flatMap (fun tk => c.regRow tk (4 * fW (fsAfmt c.fs)))
  | .att _ _ _ _ d _ _ => c.rows.flatMap (fun i => tileGrans c.bk (opNum d) i 32 ++ tileGrans c.bk (opNum d + 1) i 1)
  | .attfin _ _ _ _ a => c.signers.flatMap (fun tk => c.regRow tk 1) ++ c.rows.flatMap (fun i => tileGrans c.bk (opNum a) i 32)
  | .ladinit .. => [.reg (.s c.wk l.sC)]
  | .ladpush .. => .reg (.s c.wk l.sC) :: (List.range (l.merges + 1)).flatMap (fun d => tileAll c.bk (l.tile d))
  | .ladread _ _ _ d _ _ => tileAll c.bk (opNum d)
  | .ladld .. => c.signers.flatMap (fun tk => c.regRow tk 128)
  | _ => []

/-- Granules that are full once landing j is in place: each at its own last byte (R60). -/
def State.arrFills (s : State) (c : Cmd) (j : Nat) : List Spot :=
  let l := s.lad c
  let n := c.units.length * c.split
  let i := c.units.getD (j / max 1 c.split) 0
  if (j + 1) % max 1 c.split ≠ 0 then [] else
  match c.ins with
  | .mma _ _ _ _ d _ _ => tileGrans c.bk (opNum d) i 32
  | .ald _ _ _ d _ _ => tileGrans c.bk (opNum d) i 32
  | .asto .. => c.regRow (tkey c.wk i) (4 * fW (fsAfmt c.fs))
  | .att _ _ _ _ d _ _ => tileGrans c.bk (opNum d) i 32 ++ tileGrans c.bk (opNum d + 1) i 1
  | .attfin _ _ _ _ a => if c.err = 0 then s.arrWrites c else (c.rows.filter (fun r => r < c.failRow)).flatMap (fun r => tileGrans c.bk (opNum a) r 32)
  | .ladpush .. => tileAll c.bk (l.tile i) ++ (if j + 1 = n then [.reg (.s c.wk l.sC)] else [])
  | .ladread _ _ _ d _ _ => if j + 1 = n then tileAll c.bk (opNum d) else []
  | .ladld .. => c.regRow (tkey c.wk i) 128
  | _ => s.arrWrites c

/-- Granules poisoned from the failing unit onward (R380); rows outside the declared set are not written (R219). -/
def State.arrSpoil (s : State) (c : Cmd) : List Spot :=
  let l := s.lad c
  let rows := c.rows.filter (fun i => c.failRow ≤ i)
  let sig := c.signers.filter (fun tk => c.failRow ≤ tk % 32)
  match c.ins with
  | .mma _ _ _ _ d _ _ => rows.flatMap (fun i => tileGrans c.bk (opNum d) i 32)
  | .wld _ _ n d _ _ => slotGrans c.bk (opNum d) (8 * c.ldone) (512 * (n.toNat + 1) - 8 * c.ldone)
  | .ald _ _ false d _ _ => (tileAll c.bk (opNum d)).drop (8 * c.ldone)
  | .ald _ _ true d _ _ => rows.flatMap (fun i => tileGrans c.bk (opNum d) i 32)
  | .asto .. => sig.flatMap (fun tk => c.regRow tk (4 * fW (fsAfmt c.fs)))
  | .att _ _ _ _ d _ _ => rows.flatMap (fun i => tileGrans c.bk (opNum d) i 32 ++ tileGrans c.bk (opNum d + 1) i 1)
  | .attfin _ _ _ _ a => c.signers.flatMap (fun tk => c.regRow tk 1) ++ rows.flatMap (fun i => tileGrans c.bk (opNum a) i 32)
  | .ladpush .. => (c.units.filter (fun d => c.failRow ≤ d)).flatMap (fun d => tileAll c.bk (l.tile d))
  | .ladread _ _ _ d _ _ => tileAll c.bk (opNum d)
  | .ladld .. => sig.flatMap (fun tk => c.regRow tk 128)
  | _ => []

/-! ### What a command comes to -/

/-- Words of a command by a key: tile words from 0, s registers from 2^20, v registers from 2^21 by thread key. -/
def sKey (i : Nat) : Nat := 1048576 + i
def vKey (tk j : Nat) : Nat := 2097152 + 1024 * tk + j
def spotKey : Spot → Nat
  | .tile _ i => i
  | .slot _ i => i
  | .reg l => if l.isS then sKey l.idx else vKey 0 l.idx

/-- A place that the command reads is one that it writes as well. -/
def State.arrOver (s : State) (c : Cmd) (p : Spot) : Bool :=
  match p with
  | .tile _ i =>
    let t := i / 4096
    (match c.ins with
     | .mma _ _ _ _ d _ _ => t == opNum d
     | .att _ _ _ _ d _ _ => t == opNum d || t == opNum d + 1
     | .attfin _ _ _ _ a => t == opNum a
     | .ladpush .. => (s.lad c).tile 0 ≤ t && t ≤ (s.lad c).tile (s.lad c).merges
     | .ladread _ _ _ d _ _ => t == opNum d
     | _ => false)
  | .reg l => (match c.ins with | .ladpush .. => l.isS && l.idx == (s.lad c).sC | _ => false)
  | .slot _ _ => false

/-- A place that the command reads is poisoned, or was when the command was accepted (R345, R379). -/
def State.arrPois (s : State) (c : Cmd) (p : Spot) : Bool := s.spotPois p || (c.spoilt != [] && c.spoilt.contains (spotKey p))
def Cmd.resSpot (c : Cmd) (k : Nat) : Spot :=
  if k < 1048576 then .tile c.bk k
  else if k < 2097152 then .reg (.s c.wk (k - 1048576))
  else
    let tk := (k - 2097152) / 1024
    .reg (.v (tk / 32) (tk % 32) (c.regOf tk + k % 1024))

def rowRes (base : Nat) (l : List Nat) : List (Nat × Word) := l.zipIdx.map (fun p => (base + p.2, BitVec.ofNat 32 p.1))

/-- T of R223. -/
def arrT (w : Word) : Nat :=
  if fsBfmt w = 13 ∨ fW (fsAfmt w) ≤ 6 then 16
  else if fW (fsAfmt w) = 8 then 32
  else if fsAfmt w = 1 ∨ fsAfmt w = 2 then 64
  else if fsAfmt w = 8 then 128 else 512

/-- Passes over K of a row (R224). -/
def arrPasses (w : Word) : Nat := max 1 (arrT w / 32)

/-- Landings of a row of an MMA: one for each pass where a tile holds a value of R113 after it, with an S32 accumulator or AFMT B16 or F32; else
one, since between the passes of a row C holds none (R224). -/
def arrSplit (c : Cmd) : Nat :=
  match c.ins with
  | .mma .. => if accInt c.fs || fsAfmt c.fs == 0 || fsAfmt c.fs == 2 then arrPasses c.fs else 1
  | _ => 1

/-- The values of row i of an MMA after each of its landings (R227): those of R113 over the products up to there. -/
def State.outMma (s : State) (c : Cmd) (d b i : Nat) : List (List (Nat × Word)) :=
  let w := c.fs
  let str := s.slotString c.bk b (mmaSlots w)
  let cols := (List.range 128).map (fun n =>
    (bCodes (fW (fsBfmt w)) (fsComp w) (str / 2 ^ (8 * mmaCB w * n) % 2 ^ (8 * mmaCB w))).map (fmtOf (fsBfmt w)).decode)
  let old := rowWords (s.tileWords c.bk d) i
  let r := c.regOf (tkey c.wk i)
  let a := s.rowVals w c.wk i r
  let sc := if fsScale w = 0 then 0 else (s.readLoc (.v c.wk i (r + 4 * fW (fsAfmt w)))).toNat
  (List.range c.split).map (fun p => rowRes (4096 * d + 128 * i) (mmaRow w (a.take (128 * (p + 1) / c.split)) sc str cols old))

/-- Row i of an ATT (R233). -/
def State.outAtt (s : State) (c : Cmd) (d b i : Nat) : List (Nat × Word) :=
  let w := c.fs
  let bw := fW (fsBfmt w)
  let ns := attSlots w
  let rowsOf (slot : Nat) : List (List FVal) :=
    let str := s.slotString c.bk slot ns
    (List.range 128).map (fun j => (codesOf bw (str / 2 ^ (128 * bw * j) % 2 ^ (128 * bw))).map (fmtOf (fsBfmt w)).decode)
  let r := c.regOf (tkey c.wk i)
  let st := rowWords (s.tileWords c.bk (d + 1)) i
  let mask := (List.range 4).map (fun j => (s.readLoc (.v c.wk i (r + 4 * fW (fsAfmt w) + j))).toNat)
  match attRow w (s.rowVals w c.wk i r) mask (rowsOf b) (rowsOf (b + ns)) (st.getD 0 0) (st.getD 1 0) (rowWords (s.tileWords c.bk d) i) with
  | none => []
  | some (m, l, x) => rowRes (4096 * d + 128 * i) x ++ rowRes (4096 * (d + 1) + 128 * i) [m, l]

/-- A tile word as ATTFIN reads it: a poisoned granule reads as 0 (R345, R380). -/
def State.wordOr0 (s : State) (bk k : Nat) (x : Nat) : Nat := if s.spotPois (.tile bk k) then 0 else x

/-- ATTFIN (R234): its rows, and the mask; where the stage fails, the rows before the failing one (R380). -/
def State.outAttfin (s : State) (c : Cmd) (d : Nat) : List (Nat × Word) :=
  let rd (tile : Nat) : List Nat := (s.tileWords c.bk tile).zipIdx.map (fun p => s.wordOr0 c.bk (4096 * tile + p.2) p.1)
  let o := rd d
  let st := rd (d + 1)
  let rows := (c.rows.filter (fun i => c.err = 0 ∨ i < c.failRow)).map (fun i => (i, finRow (st.getD (128 * i) 0) (st.getD (128 * i + 1) 0) (rowWords o i)))
  let mask := maskOf ((rows.filter (fun p => p.2.2)).map Prod.fst)
  rows.flatMap (fun p => rowRes (4096 * d + 128 * p.1) p.2.1) ++ (if c.err = 0 then c.signers.map (fun tk => (vKey tk 0, mask)) else [])

/-- ACLR (R229). -/
def outAclr (d : Nat) (st : Bool) : List (Nat × Word) :=
  rowRes (4096 * d) ((List.range 4096).map (fun k => if st && k % 128 == 0 then infCode true else 0))

/-- Element of ASTO (R231). -/
def astoElem (w : Word) (rnd : Rnd) (int : Bool) (x : Word) : Nat :=
  let v := fF32.decode x.toNat
  if fsAfmt w = 0 then (if !int && isNan v then fF32.nanMag else x.toNat)
  else ((fmtOf (fsAfmt w)).convert rnd (if int then .fin (x.toInt < 0) x.toInt.natAbs 0 else v)).1

/-- Row i of ASTO. -/
def State.outAsto (s : State) (c : Cmd) (a : Nat) (rnd : Rnd) (int : Bool) (i : Nat) : List (Nat × Word) :=
  let fw := fW (fsAfmt c.fs)
  let str := (rowWords (s.tileWords c.bk a) i).foldr (fun x n => astoElem c.fs rnd int (BitVec.ofNat 32 x) + 2 ^ fw * n) 0
  (wordsOf (4 * fw) str).zipIdx.map (fun p => (vKey (tkey c.wk i) p.2, p.1))

/-- Row i of an ALD of registers (R230). -/
def State.outAldReg (s : State) (c : Cmd) (d i : Nat) : List (Nat × Word) :=
  (locsV c.wk i (c.regOf (tkey c.wk i)) 128).zipIdx.map (fun p => (4096 * d + 128 * i + p.2, s.readLoc p.1))

/-- LADINIT (R238). -/
def outLadinit (sC aL nr : Nat) : List (Nat × Word) :=
  [(sKey sC, 0), (sKey (sC + 1), BitVec.ofNat 32 (aL % 64 + 256 * (nr - 1))), (sKey (sC + 2), 0), (sKey (sC + 3), 0)]

/-- Step d of a push (R239): rung d, and after the last step the context. -/
def State.outLadpush (s : State) (c : Cmd) (aX d : Nat) : List (Nat × Word) :=
  let l := s.lad c
  let src := s.tileWords c.bk (if d = 0 then aX else l.tile (d - 1))
  let x := if l.occ d then ladFma (s.readLoc (.s c.wk (l.sC + 4 + d))).toNat (s.tileWords c.bk (l.tile d)) src else src
  rowRes (4096 * l.tile d) x ++
    (if d = l.merges then (sKey l.sC, l.n + 1) :: (if d = l.top then [(sKey (l.sC + 1), l.rung ||| 65536#32)] else []) else [])

/-- The blend of rung k into aT (R240); the first starts from +0, and aT may be a rung, which is then read as the blend so far. -/
def State.outLadread (s : State) (c : Cmd) (d sW k : Nat) : List (Nat × Word) :=
  let zero := List.replicate 4096 0
  if k = 16 then rowRes (4096 * d) zero else
  rowRes (4096 * d) (ladFma (s.readLoc (.s c.wk (sW + k))).toNat (s.tileWords c.bk ((s.lad c).tile k)) (if c.rdone = 0 then zero else s.tileWords c.bk d))

/-- Row i of LADLD (R241). -/
def State.outLadld (s : State) (c : Cmd) (k i : Nat) : List (Nat × Word) :=
  let l := s.lad c
  rowRes (vKey (tkey c.wk i) 0) (if l.occ k then rowWords (s.tileWords c.bk (l.tile k)) i else List.replicate 128 0)

/-- What the landings of a unit of the command put in place, from its sources as they stand. -/
def State.arrOut (s : State) (c : Cmd) (i : Nat) : List (List (Nat × Word)) :=
  match c.ins with
  | .mma _ _ _ _ d _ b => s.outMma c (opNum d) (opNum b) i
  | .att _ _ _ _ d _ b => [s.outAtt c (opNum d) (opNum b) i]
  | .attfin _ _ _ _ a => [s.outAttfin c (opNum a)]
  | .aclr _ _ st d => [outAclr (opNum d) st]
  | .ald _ _ true d _ _ => [s.outAldReg c (opNum d) i]
  | .asto _ _ rnd int _ _ a => [s.outAsto c (opNum a) rnd int i]
  | .ladinit _ _ _ d a b => [outLadinit (opNum d) (opNum a) (immNat b)]
  | .ladpush _ _ _ _ a => [s.outLadpush c (opNum a) i]
  | .ladread _ _ _ d _ b => [s.outLadread c (opNum d) (opNum b) i]
  | .ladld _ _ _ _ _ b => [s.outLadld c (immNat b) i]
  | _ => []

/-! ### Residue checks (R377, R378, R382) -/

/-- MMA and ATT make passes over K. -/
def hasPasses : Instr → Bool
  | .mma .. | .att .. => true
  | _ => false
/-- Commands of the vector stage. -/
def hasStage : Instr → Bool
  | .att .. | .attfin .. | .ladpush .. | .ladread .. => true
  | _ => false

def State.countRetry (s : State) (core : Nat) : State := s.modCore core (fun k => { k with retry := min 65535 (k.retry + 1) })

/-- A unit that the outside world's event does not name: a free value (log 1). -/
def State.someUnit (s : State) (n : Nat) : Nat × State := ((s.free).1.toNat % max 1 n, (s.free).2)

/-- A command fails at a unit: no later unit is read, and the rows, steps or rungs from `row` on are poisoned (R372, R380). -/
def Cmd.failAt (c : Cmd) (e : BitVec 8) (row : Nat) : Cmd := { c with err := e, failRow := row }

/-- A retry or a remap at a unit adds cycles (R378). -/
def Cmd.retried (c : Cmd) (clk idx n : Nat) : Cmd := { c with start := clk + n, skip := c.readOff idx, extra := idx + 1 }

/-- Cycles of a command in the core's mode: T doubles in the degraded mode for MMA and ATT (R223, R378). -/
def State.arrCount (s : State) (c : Cmd) : Nat :=
  let t := if (s.core (coreOf c.wk)).mode = 1 then 2 * arrT c.fs else arrT c.fs
  match c.ins with
  | .mma .. => t
  | .att .. => 2 * t + 16
  | .attfin .. => 8
  | .aclr .. => 4
  | .ladinit .. => 2
  | .ladpush .. | .ladread .. => 8 * c.units.length
  | _ => 32

/-- What the residue checks of unit `idx`, number i, do to a command (R377, R378). -/
def State.residue (s : State) (c : Cmd) (idx i : Nat) : State × Cmd :=
  let core := coreOf c.wk
  match c.resid with
  | .clean => (s, c)
  | .transient => if hasPasses c.ins then (s.countRetry core, c.retried s.clk idx 1) else (s, c)
  | .stageTransient => if hasStage c.ins then (s.countRetry core, c.retried s.clk idx 1) else (s, c)
  | .lasting _ =>
    if !hasPasses c.ins then (s, c) else
    let spare := (s.core core).spare
    let s := s.modCore core (fun k =>
      { k with retired := min 132 (k.retired + 1), spare := k.spare - 1,
               mode := (if 132 - (k.retired + 1) < 64 then 2 else if k.spare = 0 then 1 else k.mode) })
    if (s.core core).mode = 2 then (s, (c.retried s.clk idx 1).failAt eARRAYOFF i)
    else (s, { c with count := s.arrCount c }.retried s.clk idx (if spare = 0 then 2 else 66))
  | .stage =>
    if !hasStage c.ins then (s, c) else
    match c.ins with
    | .attfin .. => let (u, s) := s.someUnit c.rows.length; (s, (c.retried s.clk idx 1).failAt eSTAGE (c.rows.getD u 0))
    | _ => (s, (c.retried s.clk idx 1).failAt eSTAGE i)

/-! ### Starting (R222, R379) -/

def xferUnit : Instr → Bool
  | .wld .. | .ald .. | .asto .. | .ladld .. => true
  | _ => false
/-- WLD and ALD from memory. -/
def fromMem : Instr → Bool
  | .wld .. => true
  | .ald _ _ reg _ _ _ => !reg
  | _ => false

def State.unitOf (s : State) (c : Cmd) : Option Nat := if xferUnit c.ins then (s.core (coreOf c.wk)).transfer else (s.core (coreOf c.wk)).compute
def State.setUnit (s : State) (c : Cmd) (u : Option Nat) : State :=
  s.modCore (coreOf c.wk) (fun k => if xferUnit c.ins then { k with transfer := u } else { k with compute := u })

/-- A source is at hand (R59): one that acceptance itself has emptied is, if it was then. -/
def State.arrHas (s : State) (c : Cmd) (p : Spot) : Bool := s.spotReady p || (s.arrOver c p && !c.late.contains (spotKey p))

/-- The ladder context of a command is at hand. -/
def State.ladReady (s : State) (c : Cmd) : Bool :=
  match c.ins with
  | .ladpush .. | .ladread .. | .ladld .. => s.spotReady (.reg (.s c.wk (s.lad c).sC))
  | _ => true

/-- An earlier command of the queue in the other unit keeps this one from starting (R72, R222). -/
def State.arrClash (s : State) (cid : Nat) (c : Cmd) : Bool :=
  (s.cmdsOf c.wk true).any (fun p => p.1 < cid && p.2.st != .queued && xferUnit p.2.ins != xferUnit c.ins &&
    (((ladCtx p.2.ins).isSome && (ladCtx c.ins).isSome) || (s.foot p.2).any (fun a => (s.foot c).any (fun b => a.clash b))))

/-- A command that reads a ladder context finds it poisoned, or with a rung word that breaks R379. -/
def State.ladPois (s : State) (c : Cmd) : Bool :=
  match c.ins with
  | .ladpush .. | .ladread .. | .ladld .. => s.spotPois (.reg (.s c.wk (s.lad c).sC))
  | _ => false
def State.ladBad (s : State) (c : Cmd) : Bool :=
  match c.ins with
  | .ladpush .. | .ladread .. | .ladld .. => (s.lad c).bad (s.warp c.wk).alloc.na
  | _ => false

/-- The compute unit is disabled for the command. -/
def State.arrOff (s : State) (c : Cmd) : Bool := !xferUnit c.ins && (s.core (coreOf c.wk)).mode == 2

/-- A head that the unit would start: its guard is true, and its block is on its core and not on its way off it. -/
def State.arrHead (s : State) (cid : Nat) (c : Cmd) : Bool := c.array && s.mayAccept cid c && !(s.block c.bk).leaving

def State.mayStart (s : State) (cid : Nat) (c : Cmd) : Bool := s.arrHead cid c && s.unitOf c == none && !s.arrClash cid c

/-- What the failing of a ladder context, or of LADINIT and ACLR, leaves: nothing is cleared, written or poisoned. -/
def State.startEmpty (s : State) (cid : Nat) (c : Cmd) (e : BitVec 8) (cycles : Nat) : State :=
  s.setCmd cid (some { c with st := .running, await := 0, start := s.clk, skip := 0, count := cycles, units := [], err := e, failRow := 1000, drop := 1 })

/-- The sources of a command that it writes as well and that are not at hand, or poisoned, as it is accepted (R222, R379). -/
def State.noteOver (s : State) (c : Cmd) : Cmd :=
  let both := ((s.arrUnits c).flatMap (fun i => s.arrUses c i)).filter (fun p => s.arrOver c p)
  { c with late := (both.filter (fun p => !s.spotReady p)).map spotKey, spoilt := (both.filter (fun p => s.spotPois p)).map spotKey }

/-- A command that works unit by unit is accepted: the F bits of its destinations clear (R60, R222), its cycles count from now on, and what its
residue checks find stands at one unit, which the event does not name (log 1). A poisoned ladder context leaves unknown which rungs a push
writes: then none is cleared or poisoned. -/
def State.acceptArray (s : State) (cid : Nat) (c : Cmd) (r : Residue) : State :=
  let l := s.lad c
  let pz := s.ladPois c
  let c := { c with params := if (ladCtx c.ins).isSome then [c.fs, l.n, l.rung] else c.params }
  let c := { c with units := if pz && !(match c.ins with | .ladld .. => true | _ => false) then [0] else s.arrUnits c }
  let n := match c.ins with | .mma .. => arrPasses c.fs | .ladread .. => l.rungs.length | _ => 1
  let c := s.noteOver { c with st := .running, await := 0, start := s.clk, skip := 0, count := s.arrCount c, split := arrSplit c, resid := r, total := n }
  let push : Bool := match c.ins with | .ladpush .. => true | _ => false
  let c := if pz then c.failAt ePOISON (if push then 1000 else 0) else if s.arrOff c then c.failAt eARRAYOFF 0 else c
  let s := s.acceptSpots (if pz && push then [] else s.arrWrites c)
  if r = .clean then s.setCmd cid (some c) else
  let (u, s) := s.someUnit c.units.length
  s.setCmd cid (some { c with unit := u })

/-- A command that stood stopped goes on where it stopped, in the mode that the core now has (R224, R377); one that stands at a page waits on. -/
def State.resumeArray (s : State) (cid : Nat) (c : Cmd) : State :=
  let n := if c.units = [] then c.count else s.arrCount c
  let c := { c with st := (if c.paged then .stopped else .running), begun := false, paged := false, start := s.clk, count := n,
                    skip := if n = c.count then c.skip else c.skip * n / max 1 c.count }
  s.setCmd cid (some (if s.arrOff c ∧ c.err = 0 ∧ c.rdone < c.units.length then c.failAt eARRAYOFF (c.units.getD c.rdone 0) else c))

/-- A unit starts the command: it is accepted. -/
def State.beginArray (s : State) (cid : Nat) (c : Cmd) (r : Residue) : State :=
  let s := s.setUnit c (some cid)
  if c.begun then s.resumeArray cid c
  else if !s.ladReady c then s.setCmd cid (some { c with st := .running, await := 1 })
  else if s.ladBad c ∧ !s.ladPois c then s.startEmpty cid c eBADPARAM 8
  else if s.arrOff c && (match c.ins with | .ladinit .. | .aclr .. => true | _ => false) then s.startEmpty cid c eARRAYOFF 4
  else if fromMem c.ins then
    let lines := match c.ins with | .wld _ _ n _ _ _ => 64 * (n.toNat + 1) | _ => 128
    (s.acceptSpots (s.arrWrites c)).setCmd cid (some { c with st := .running, await := 0, start := s.clk, skip := 0, total := lines })
  else s.acceptArray cid c r

/-- ARRAY_CMD_START: of the heads of the queues, the one that entered its queue first; a unit idles while that one must wait for an earlier
command of its queue in the other unit. DESIGN CHOICE (log 66). A command that waited for its ladder context goes on. -/
def State.startArray (s : State) (cid : Nat) (r : Residue) : State :=
  match s.cmd cid with
  | none => s
  | some c =>
    if c.array && c.st == .running && s.onCore c then
      (if c.await = 1 ∧ s.ladReady c then s.beginArray cid { c with await := 0 } r else s)
    else if !s.mayStart cid c || s.cmdList.any (fun p => p.1 < cid && coreOf p.2.wk == coreOf c.wk &&
        xferUnit p.2.ins == xferUnit c.ins && s.arrHead p.1 p.2) then s
    else s.beginArray cid c r

def execArrayCmdStart (cid : Nat) (res : Residue) (s : State) : Result := .next (s.startArray cid res)

/-! ### The work of a command (R223, R224, R59, R379) -/

/-- The next unit may be read: its cycle has come, the step or rung before it is in place, and its sources are at hand. -/
def State.unitDue (s : State) (c : Cmd) : Bool :=
  c.st == .running && c.await == 0 && c.err == 0 && c.rdone < c.units.length && c.readOff c.rdone ≤ c.elapsed s.clk && c.start ≤ s.clk &&
    (match c.ins with | .ladpush .. | .ladread .. => c.ldone == c.rdone | _ => true) &&
    (s.arrUses c (c.units.getD c.rdone 0)).all (fun p => s.arrHas c p)

/-- The command reads the sources of its next unit, with what their check codes find (R382); a source that came late has held it up, and its
count goes on from there (log 45). -/
def State.unitRead (s : State) (cid : Nat) (c : Cmd) (ecc : Ecc) : State :=
  if !s.unitDue c then s else
  let idx := c.rdone
  let i := c.units.getD idx 0
  let c := if c.readOff idx < c.elapsed s.clk then { c with start := s.clk, skip := c.readOff idx } else c
  let uses := s.arrUses c i
  let s := s.regEcc uses ecc
  let zero : Bool := match c.ins with | .attfin .. => true | _ => false
  if !zero && uses.any (fun p => s.arrPois c p) then s.setCmd cid (some (c.failAt ePOISON i)) else
  let (s, c) := if c.unit = idx then s.residue c idx i else (s, c)
  if c.err ≠ 0 && !zero then s.setCmd cid (some c) else
  s.setCmd cid (some { c with rdone := idx + 1, res := c.res ++ s.arrOut c i })

/-- The oldest result that has not landed is in place: what it fills is full (R60). -/
def State.unitLand (s : State) (cid : Nat) (c : Cmd) : State :=
  match c.res with
  | [] => s
  | ws :: rest =>
    if c.st != .running || c.elapsed s.clk < c.landOff c.ldone then s else
    let fills := s.arrFills c c.ldone
    let s := foldS ws s (fun s p => s.spotPut p.2 (c.resSpot p.1))
    let s := foldS fills s (fun s p => s.spotFill p)
    (s.watchLand c.wk (if fills = [] then granSpots (ws.map (fun p => c.resSpot p.1)) else fills)).setCmd cid
      (some { c with res := rest, ldone := c.ldone + 1, landClk := if c.landClk.1 = s.clk then c.landClk else (s.clk, c.ldone) })

/-! ### Memory side of WLD and ALD (R228, R230, R364) -/

def arrAddr (c : Cmd) : DWord := Word.pair (c.params.getD 1 0) (c.params.getD 2 0)

/-- One line is read; or, by a command that reads registers, tiles or slots, one unit. -/
def State.arrMem (s : State) (cid : Nat) (c : Cmd) (ecc : Ecc) : State :=
  if !fromMem c.ins then s.unitRead cid c ecc
  else if c.rdone = c.total || c.err != 0 then s else
  let va := arrAddr c + BitVec.ofNat 64 (128 * c.rdone)
  let fail (s : State) (k : Nat) : State := s.modCmd cid (fun c => { c with err := eMem k })
  if va.toNat % 128 ≠ 0 then
    match s.eSkew (coreOf c.wk) c.asid va with
    | .ok _ s => s
    | .page v l s => s.stopAt cid c v l false
    | .bad k s => fail s k
    | .held => s
  else match s.eLoad cid (coreOf c.wk) c.wk c.asid va 128 ecc with
  | .ok l s => s.modCmd cid (fun c => { c with rdone := c.rdone + 1, buf := Fmap.setList 0 c.buf (128 * c.rdone) l })
  | .page v l s => s.stopAt cid c v l false
  | .bad k s => fail s k
  | .held => s

/-- Place of word k of what a WLD or ALD fills. -/
def arrPlace (c : Cmd) (k : Nat) : Option Spot :=
  match c.ins with
  | .wld _ _ _ d _ _ => some (.slot c.bk (2048 * opNum d + k))
  | .ald _ _ _ d _ _ => some (.tile c.bk (4096 * opNum d + k))
  | _ => none

/-- One line lands, or one unit: its granules are full. -/
def State.arrLand (s : State) (cid : Nat) (c : Cmd) : State :=
  if !fromMem c.ins then s.unitLand cid c else
  if c.rdone ≤ c.ldone then s else
  let u := c.ldone
  let s := s.landAt c.wk (arrPlace c) (128 * u) ((List.range 128).map (fun j => Fmap.get 0 c.buf (128 * u + j)))
  let s := foldS ((List.range 8).filterMap (fun g => arrPlace c (32 * u + 4 * g))) s (fun s p => s.spotFill p)
  s.modCmd cid (fun c => { c with ldone := u + 1, landClk := if c.landClk.1 = s.clk then c.landClk else (s.clk, u) })

/-- A command that is not stopped at a page any more is tagged afresh when it next is (R257). -/
def State.clearTag (s : State) (cid : Nat) : State :=
  match s.cmd cid with
  | some c => if c.qtag.isSome ∧ c.st ≠ .stopped ∧ c.held = 0 ∧ c.pages = [] ∧ c.again = 0 then s.setCmd cid (some { c with qtag := none }) else s
  | none => s

/-- ENGINE_MEM_RESPONSE: one memory access of a running command is performed, or an array command reads a unit of its sources. What a REPLAY
has presented again comes after the lane accesses that it has (R361). -/
def execEngineMemResponse (cid : Nat) (ecc : Ecc) (s : State) : Result :=
  match s.cmd cid with
  | none => .next s
  | some c =>
    if c.st ≠ .running ∨ !s.onCore c ∨ (c.qtag.isSome ∧ s.replaying (dieOf (coreOf c.wk))) then .next s
    else .next ((if c.array then s.arrMem cid c ecc else s.copyMem cid c ecc).clearTag cid)

/-- ENGINE_LANDING: data of a running command reaches the register space. -/
def execEngineLanding (cid : Nat) (s : State) : Result :=
  match s.cmd cid with
  | none => .next s
  | some c =>
    if !s.onCore c then .next s
    else if c.array then .next (if c.st = .running ∨ c.st = .stopped then s.arrLand cid c else s)
    else .next (if c.st = .running then s.copyLand cid c else s)

/-! ### Consumption, end and retirement (R223, R379, R380) -/

/-- The cycle in which `off` cycles of the count have run. -/
def Cmd.dueAt (c : Cmd) (off : Nat) : Nat := c.start + (off - c.skip)

/-- The cycle of its count at which a command ends: a failing one stops work at its failing unit (R372). -/
def Cmd.endOff (c : Cmd) : Nat := if c.err = 0 ∨ c.drop = 1 then c.count else c.landOff (c.rdone * c.split)

/-- The cycle of its count in which a command reports its early sources consumed. -/
def Cmd.consumeOff (c : Cmd) : Nat :=
  match c.ins with
  | .att .. => (c.count - 16) / 2
  | .ladpush .. => 8
  | _ => c.endOff

/-- Cycles in which a running array command may read, land, report its sources or end, and in which an ended one retires. -/
def Cmd.dues (c : Cmd) : List Nat :=
  if c.st = .ended then [c.start + 8]
  else if c.units = [] then [c.dueAt c.endOff]
  else [c.start, c.dueAt (c.readOff c.rdone), c.dueAt (c.landOff c.ldone), c.dueAt c.consumeOff, c.dueAt c.endOff]

/-- ARRAY_SRC_CONSUMED. -/
def execArraySrcConsumed (cid : Nat) (s : State) : Result :=
  match s.cmd cid with
  | none => .next s
  | some c =>
    if !c.array || c.st ≠ .running || c.consumed || c.await != 0 || fromMem c.ins || c.elapsed s.clk < c.consumeOff ||
        (c.err == 0 && (match c.ins with | .ladpush .. => c.rdone == 0 | _ => c.rdone < c.units.length)) then .next s
    else .next ((s.consume cid).modCmd cid (fun c => { c with consumed := true }))

/-- AUX of a failed command's record (R379). -/
def arrAux (c : Cmd) : DWord :=
  let mk (k i : Nat) : DWord := BitVec.ofNat 64 (65536 * k + i)
  match c.ins with
  | .mma _ _ _ _ d _ _ => mk 0 (opNum d)
  | .wld _ _ _ d _ _ => mk 1 (opNum d)
  | .aclr _ _ _ d => mk 0 (opNum d)
  | .ald _ _ _ d _ _ => mk 0 (opNum d)
  | .asto .. => mk 2 (arrReg c.ins)
  | .att _ _ _ _ d _ _ => mk 0 (opNum d)
  | .attfin .. => mk 2 (arrReg c.ins)
  | .ladread _ _ _ d _ _ => if c.drop = 1 then mk 3 ((ladCtx c.ins).getD 0) else mk 0 (opNum d)
  | .ladld .. => if c.drop = 1 then mk 3 ((ladCtx c.ins).getD 0) else mk 2 (arrReg c.ins)
  | _ => mk 3 ((ladCtx c.ins).getD 0)

/-- The command may end: all that it has read is in place, and its cycles have passed; or its lines have landed. -/
def Cmd.atEnd (c : Cmd) (clk : Nat) : Bool :=
  if fromMem c.ins then (c.total != 0 && c.ldone == c.total) || (c.err != 0 && c.ldone == c.rdone)
  else c.await == 0 && c.res == [] && c.endOff ≤ c.elapsed clk && (c.err != 0 || c.rdone == c.units.length)

/-- ARRAY_CMD_END: what failed is poisoned, and the unit is free. The context of a push that failed is not changed (R380). -/
def State.endArray (s : State) (cid : Nat) (c : Cmd) : State :=
  let s := foldS (if c.err = 0 ∨ c.drop = 1 then [] else s.arrSpoil c) s (fun s p => s.spotPoison p)
  let s := match c.ins with
    | .ladpush .. => if c.err ≠ 0 ∧ c.failRow < 1000 then s.spotFill (.reg (.s c.wk (s.lad c).sC)) else s
    | _ => s
  let rec5 := BitVec.ofNat 160 (({ c with st := .ended }.prog s.clk).toNat * 2 ^ 128)
  let c := { c with st := .ended, consumed := true, start := s.clk }
  (((s.setCmd cid (some c)).consume cid).setUnit c none).report5 c c.err (arrAux c) rec5

def execArrayCmdEnd (cid : Nat) (s : State) : Result :=
  match s.cmd cid with
  | none => .next s
  | some c => if c.array && c.st == .running && s.onCore c && c.atEnd s.clk then .next (s.endArray cid c) else .next s

/-- ARRAY_CMD_RETIRE: 8 cycles after its end. -/
def execArrayCmdRetire (cid : Nat) (s : State) : Result :=
  match s.cmd cid with
  | none => .next s
  | some c => if c.array && c.st == .ended && c.start + 8 ≤ s.clk then .next (s.endCmd cid) else .next s

end Sys2Proof.Machine
end

