-- ==== Sys2Proof/Machine/Collective.lean ====
section
/-! DEFINITION. Collectives, class 0xD (R284 to R300): trigger counters and work entries, their firing and completion,
writes and reductions that arrive from a peer, and the Floreal sequencer with its schedule words; the failures of all of
these (R383 to R392). -/

namespace Sys2Proof.Machine

/-! ### Ports -/

abbrev eBADENTRY : BitVec 8 := 0x60
abbrev eREMOTE : BitVec 8 := 0x61
abbrev eLINKDOWN : BitVec 8 := 0x62
abbrev eBADWORD : BitVec 8 := 0x63
abbrev eTIMEOUT : BitVec 8 := 0x64
abbrev eBADBUF : BitVec 8 := 0x65
abbrev eABORT : BitVec 8 := 0x66

/-- The port has a trained link (R309). -/
def State.linkUp (s : State) (p : Nat) : Bool := p < 16 && (s.port p).plnk.getLsbD 31
/-- It carries traffic now. -/
def State.linkFlows (s : State) (p : Nat) : Bool := s.linkUp p && !(s.port p).link.paused

def State.entAsid (s : State) (p : Nat) : BitVec 16 := (s.port p).own.extractLsb' 16 16
def State.inAsid (s : State) (p : Nat) : BitVec 16 := (s.port p).own.extractLsb' 0 16

def State.ent (s : State) (p i : Nat) : Entry := Fmap.get {} (s.port p).entry i
def State.setEnt (s : State) (p i : Nat) (e : Entry) : State := s.modPort p (fun P => { P with entry := Fmap.set {} P.entry i e })

/-- A resolvable fault of port p goes to die p mod 4 (R388); CORE of its entry is open (log 1). -/
def State.portReq (s : State) (p : Nat) (asid : BitVec 16) (va : DWord) (acc : BitVec 2) (level : Nat) : State :=
  let c := s.free
  (c.2.modDie (p % 4) (fun d => { d with freqs := d.freqs ++
    [⟨s.nextId, 192 + p, ⟨asid, va.toNat % 2 ^ 56 / 65536, 1, c.1.toNat % 256, acc, BitVec.ofNat 2 level, true⟩⟩] })).bumpId

/-- A range can be reached from a port (R307, R393). -/
def State.portReach (s : State) (p : Nat) (asid : BitVec 16) (va : DWord) (n : Nat) : Bool := s.rangeReach (portDie p) asid va n

/-- A range is written by a packet that a parity error has marked: its words are bad (R395). -/
def State.spoilRange (s : State) (asid : BitVec 16) (va : DWord) (n : Nat) : State :=
  foldS (pieces va n (n / 65536 + 2)) s (fun s q =>
    match s.xlateD asid q.1 .wr with
    | .ok x => s.markBad x.swz x.pa q.2
    | .error _ => s)

/-- A port's write. -/
def State.portWrite (s : State) (p : Nat) (asid : BitVec 16) (va : DWord) (l : List Byte) : Except (Nat × Nat × DWord) State :=
  match s.writeD asid va l with
  | .error x => .error x
  | .ok s => .ok (if (s.port p).parity then (s.spoilRange asid va l.length).modPort p (fun P => { P with parity := false }) else s)

/-- The status record (R291). -/
def statusRecord (time : DWord) (step : Nat) (err : BitVec 8) (late : Bool) : List Byte :=
  leBytes 16 (time.toNat * 2 ^ 64 + step % 2 ^ 32 * 2 ^ 32 + err.toNat * 256 + (if late then 2 else 0) + 1)

/-! ### Work entries (R288 to R290, R388) -/

def Entry.field (e : Entry) (lo w : Nat) : Nat := (e.bits.extractLsb' lo w).toNat
def Entry.kind (e : Entry) : Nat := e.field 228 4
def Entry.len (e : Entry) : Nat := e.field 192 32
def Entry.rva (e : Entry) : DWord := BitVec.ofNat 64 (e.field 128 56)
def Entry.lva (e : Entry) : DWord := BitVec.ofNat 64 (e.field 64 56)
def Entry.stva (e : Entry) : DWord := BitVec.ofNat 64 (16 * e.field 8 52)
def Entry.sid (e : Entry) : Nat := e.field 0 8
def Entry.rop (e : Entry) : Option Rop := if e.kind = 2 then Rop.ofCode (e.bits.extractLsb' 235 3) else none
def Entry.rc (e : Entry) : Option (BitVec 8) := if e.bits.getLsbD 238 then some (e.bits.extractLsb' 240 8) else none

/-- BADENTRY (R384): KIND or ROP reserved, LEN or an address off its multiple or range. -/
def Entry.bad (e : Entry) : Bool :=
  match e.kind with
  | 1 => e.len % 16 != 0 || e.len < 16
  | 2 => e.len % 16 != 0 || e.len < 16 || e.rop.isNone || e.rva.toNat % 4 != 0
  | 3 => e.len % 16 != 0 || e.len < 16 || 1048576 < e.len || e.lva.toNat % 8 != 0 || e.rva.toNat % 16 != 0
  | _ => true

/-- An entry whose effects are over, with what its record will hold. -/
def Entry.ended (e : Entry) (err : BitVec 8) (step : Nat) (late : Bool) : Entry :=
  { e with fin := true, due := false, err := err, step := step, late := late, stopped := false }

/-- An entry that a page stops (R257, R388). -/
def Entry.halt (e : Entry) (q : Nat) : Entry := { e with stopped := true, qtag := e.qtag <|> some q }

/-- The record of a completing entry: none where it must wait, else the ERR with which it ends. -/
def State.entryRecord (s : State) (p i : Nat) (err : BitVec 8) (step : Nat) (late : Bool) : State × Option (BitVec 8) :=
  let e := s.ent p i
  if e.stva = 0 then (s, some err)
  else if !s.portReach p e.asid e.stva 16 then (s.setEnt p i (e.ended err step late), none)
  else match s.portWrite p e.asid e.stva (statusRecord (s.ftime p) step err late) with
  | .ok s => (s, some err)
  | .error (c, l, va) =>
    if c = cNOTPRES then ((s.setEnt p i ((e.ended err step late).halt s.dev.qcnt)).portReq p e.asid va 1 l, none)
    else (s, some (if err = 0 then eMem c else err))

/-- A completed entry is DONE, or EMPTY where ENTASID has changed (R309). -/
def State.settleEntry (s : State) (p i : Nat) : State :=
  let e := s.ent p i
  s.setEnt p i (if e.abort then {} else { e with st := .done, due := false, sent := false, stopped := false, fin := false, qtag := none })

/-- An entry that fails at its firing. -/
def State.failEntry (s : State) (p i : Nat) (err : BitVec 8) : State :=
  match s.entryRecord p i err 0 (s.ent p i).late with
  | (s, none) => s
  | (s, some _) => s.settleEntry p i

/-- Bytes of a range up to the first page that stops a port. -/
def State.readPre (s : State) (asid : BitVec 16) : List (DWord × Nat) → List Byte × Option (Nat × Nat × DWord)
  | [] => ([], none)
  | q :: qs =>
    match s.readD asid q.1 q.2 with
    | .error e => ([], some e)
    | .ok l => let r := s.readPre asid qs
               (l ++ r.1, r.2)

/-- A fired WRITE or WRED of the port that has not sent yet writes to a place of this one and fired before it. -/
def State.sendBehind (s : State) (p i : Nat) : Bool :=
  let e := s.ent p i
  (s.port p).entry.any (fun x => x.1 != i && x.2.st == .active && !x.2.sent && !x.2.fin && x.2.kind != 3 && x.2.seq < e.seq &&
    x.2.rva.toNat < e.rva.toNat + e.len && e.rva.toNat < x.2.rva.toNat + x.2.len)

/-- A fired WRITE or WRED reads its data and sends it, once its link carries traffic. What was read before a failure is
sent (R388). -/
def State.sendEntry (s : State) (p i : Nat) : State :=
  let e := s.ent p i
  if e.st ≠ .active ∨ e.due ∨ e.sent ∨ e.fin ∨ e.stopped ∨ e.kind = 3 then s
  else if !s.linkUp p then s.failEntry p i eLINKDOWN
  else if !s.linkFlows p || s.sendBehind p i || !s.portReach p e.asid e.lva e.len then s
  else if (s.port p).parity then (s.modPort p (fun P => { P with parity := false })).failEntry p i (eMem cUNCORR)
  else
    let r := s.readPre e.asid (pieces e.lva e.len (e.len / 65536 + 2))
    match r.2 with
    | none =>
      ((s.countD e.asid e.lva e.len false).setEnt p i { e with sent := true, qtag := none }).emit (.remoteWrite p e.rva e.rop r.1 e.rc)
    | some (c, l, va) =>
      if c = cNOTPRES then (s.setEnt p i (e.halt s.dev.qcnt)).portReq p e.asid va 0 l
      else
        let s := if r.1 = [] then s else s.emit (.remoteWrite p e.rva e.rop r.1 none)
        s.failEntry p i (eMem c)

/-! ### Schedule contexts (R191, R294, R299) -/

/-- A start enters its context's queue. -/
def State.queueStart (s : State) (sid : Nat) (x : SStart) : State :=
  let S := s.sched sid
  s.setSched sid { S with queue := S.queue ++ [x] }

/-- The next number of a context is taken. -/
def State.takeSched (s : State) (sid : Nat) : State := s.setSched sid { s.sched sid with issue := (s.sched sid).issue + 1 }

/-- Starts that wait on the device: one at the head of an idle context begins at once. -/
def State.startsWaiting (s : State) : Nat :=
  s.scheds.foldl (fun n p => n + (p.2.queue.length - (if p.2.run.isNone then 1 else 0))) 0

/-- A firing: the entry is ACTIVE, and starts with the others of its port that fire in this cycle (R289). -/
def State.fire (s : State) (p i : Nat) : State :=
  s.setEnt p i { s.ent p i with st := .active, due := true, asid := s.entAsid p, sent := false, stopped := false, fin := false, abort := false, qtag := none }

/-- A fired entry starts (R290). The start of a SCHED entry past the sixteenth waiting one stands with its entry, which is ACTIVE: it has
its number and so its place among the starts of its SID, and SCHED is not ready meanwhile (R292, R299). -/
def State.startEntry (s : State) (p i : Nat) : State :=
  let e := { s.ent p i with due := false, seq := s.nextId }
  let s := (s.setEnt p i e).bumpId
  if e.bad then s.failEntry p i eBADENTRY
  else if e.kind = 3 then
    (s.takeSched e.sid).queueStart e.sid ⟨p, e.len, e.lva, e.rva, 0, e.asid, (s.sched e.sid).issue + 1, some (p, i)⟩
  else s.sendEntry p i

/-- The fired entry that starts next: of a port's, that of the lowest index. -/
def State.dueEntry (s : State) : Option (Nat × Nat) :=
  s.ports.findSome? (fun p => (p.2.entry.find? (fun e => e.2.st == .active && e.2.due)).map (fun e => (p.1, e.1)))

/-! ### Trigger counters (R286, R385, R387) -/

def State.counterOf (s : State) (p i : Nat) : DWord := Fmap.get 0 (s.port p).ctr i

/-- A change of a counter, and the firings it causes. -/
def State.counterChange (s : State) (p idx : Nat) (set : Bool) (x : DWord) : State :=
  let old := s.counterOf p idx
  let new := if set then x else old + x
  let s := s.modPort p (fun P => { P with ctr := Fmap.set 0 P.ctr idx new,
                                          wraps := (if !set && 2 ^ 64 ≤ old.toNat + x.toNat then P.wraps + 1 else P.wraps) })
  let hit := (s.port p).entry.filter (fun e => e.2.st == .armed && !e.2.time && e.2.cidx == idx && e.2.thresh.toNat ≤ new.toNat)
  foldS (hit.map Prod.fst) s (fun s i => s.fire p i)

/-- An entry completes (R290, R388): its record, LCIDX where it did not fail, and DONE. -/
def State.doneEntry (s : State) (p i : Nat) (err : BitVec 8) (step : Nat) (late : Bool) : State :=
  let e := s.ent p i
  match s.entryRecord p i (if e.abort && err == 0 then eABORT else err) step late with
  | (s, none) => s
  | (s, some r) =>
    let s := if r = 0 ∧ e.bits.getLsbD 239 then s.counterChange p (e.field 248 8) false 1 else s
    s.settleEntry p i

/-- A record that a page stopped is written again. -/
def State.retryRecord (s : State) (p i : Nat) : State :=
  let e := s.ent p i
  if e.st = .active ∧ e.fin ∧ !e.stopped then s.doneEntry p i e.err e.step e.late else s

/-- ENTRY_COMPLETE: the peer has reported on a sent WRITE or WRED. -/
def execEntryComplete (port idx : Nat) (err : BitVec 8) (s : State) : Result :=
  let e := s.ent port idx
  if e.st = .active ∧ e.sent ∧ !e.fin then .next (s.doneEntry port idx (if err = 0 then 0 else eREMOTE) 0 e.late) else .next s

/-- TIME_TRIGGER_FIRE: entries armed on a fabric time that has come fire in ascending index. -/
def execTimeTriggerFire (port : Nat) (s : State) : Result :=
  let hit := (s.port port).entry.filter (fun e => e.2.st == .armed && e.2.time && e.2.thresh.toNat ≤ (s.ftime port).toNat)
  .next (foldS (hit.map Prod.fst) s (fun s i => s.fire port i))

/-! ### Arrivals from the peer (R288, R290, R388) -/

/-- The new value of a 32-bit word of memory under a ROP. -/
def b16Of (x : Word) : Nat := ((fmtOf 2).convert .rne (fF32.decode x.toNat)).1
def ropWord (r : Rop) (o x : Word) : Word :=
  let half (i : Nat) : Nat :=
    b16Of (f32Add (BitVec.ofNat 32 (o.toNat / 2 ^ (16 * i) % 65536 * 65536)) (BitVec.ofNat 32 (x.toNat / 2 ^ (16 * i) % 65536 * 65536)))
  match r with
  | .faddF32 => f32Add o x
  | .faddB16 => BitVec.ofNat 32 (half 0 + 65536 * half 1)
  | .addS32 => o + x
  | .minS32 => if x.toInt < o.toInt then x else o
  | .maxS32 => if o.toInt < x.toInt then x else o
  | .minF32 => BitVec.ofNat 32 (fF32.minmax false false o.toNat x.toNat).1
  | .maxF32 => BitVec.ofNat 32 (fF32.minmax true false o.toNat x.toNat).1

/-- Little-endian words of bytes. -/
def wordsLE (l : List Byte) : List Word := (List.range (l.length / 4)).map (fun k => BitVec.ofNat 32 (leNat ((l.drop (4 * k)).take 4)))
def bytesLE (l : List Word) : List Byte := l.flatMap (fun w => leBytes 4 w.toNat)

/-- The pages of an arrival in turn: what is left where one stops it, and how. -/
def State.arriveGo (s : State) (port : Nat) (asid : BitVec 16) (rop : Option Rop) : List (DWord × Nat) → List Byte → State × List Byte × Option (Nat × Nat × DWord)
  | [], _ => (s, [], none)
  | q :: qs, data =>
    if !s.portReach port asid q.1 q.2 then (s, data, some (cAWAY, 0, q.1)) else
    match s.xlateD asid q.1 (if rop.isSome then .rw else .wr) with
    | .error (c, l) => (s, data, some (c, l, q.1))
    | .ok x =>
      if rop.isSome && tierOf x.pa == some 2 then (s, data, some (cHOSTATOM, 0, q.1))
      else if rop.isSome && s.badAt x.swz x.pa q.2 then (s, data, some (cUNCORR, 0, q.1))
      else
        let new := match rop with
          | none => data.take q.2
          | some r => bytesLE (List.zipWith (ropWord r) (wordsLE (s.readMem x.swz x.pa q.2)) (wordsLE (data.take q.2)))
        let s := (s.countD asid q.1 q.2 true).writeMem x.swz x.pa new
        let s := if (s.port port).parity then (s.markBad x.swz x.pa q.2).modPort port (fun P => { P with parity := false }) else s
        s.arriveGo port asid rop qs (data.drop q.2)

/-- Performs an arrival: with what is held of it where a page is not present. -/
def State.arrive (s : State) (p : Nat) (a : Arrival) : State × Option Arrival :=
  if a.rop.isSome ∧ a.rva.toNat % 4 ≠ 0 then (s.emit (.report p a.rva false), none) else
  match s.arriveGo p a.asid a.rop (pieces a.rva a.data.length (a.data.length / 65536 + 2)) a.data with
  | (s, _, none) =>
    let s := match a.rc with
      | some i => s.counterChange p i.toNat false 1
      | none => s
    (s.emit (.report p a.rva true), none)
  | (s, rest, some (c, l, va)) =>
    if c = cAWAY then (s, some { a with rva := va, data := rest })
    else if c = cNOTPRES then
      (s.portReq p a.asid va (if a.rop.isSome then 2 else 1) l, some { a with rva := va, data := rest, stopped := true, qtag := a.qtag <|> some s.dev.qcnt })
    else (s.emit (.report p a.rva false), none)

def Arrival.overlaps (a b : Arrival) : Bool :=
  a.rva.toNat < b.rva.toNat + b.data.length && b.rva.toNat < a.rva.toNat + a.data.length

/-- A chunk of a schedule that has not started waits in the port's receive buffer (R299). -/
def State.earlyChunk (s : State) (p : Nat) : Bool :=
  (s.port p).rx.any (fun c => match (s.sched c.sid).run with
    | some r => r.phase != .running
    | none => true)

/-- What a piece of traffic does. A write is performed in the port's INASID, behind any held arrival that it overlaps. -/
def State.landTraffic (s : State) (p : Nat) : Traffic → State
  | .signal idx x => s.counterChange p idx.toNat false (x.setWidth 64)
  | .chunk c => s.modPort p (fun P => { P with rx := P.rx ++ [c] })
  | .write a =>
    if (s.port p).held.any (fun b => b.overlaps a) then s.modPort p (fun P => { P with held := P.held ++ [a] })
    else match s.arrive p a with
      | (s, none) => s
      | (s, some a) => s.modPort p (fun P => { P with held := P.held ++ [a] })

/-- Traffic of a link waits behind an early chunk, and behind what waits there already. -/
def State.heldBack (s : State) (p : Nat) : Bool := (s.port p).behind != [] || s.earlyChunk p
def State.traffic (s : State) (p : Nat) (x : Traffic) : State :=
  if s.heldBack p then s.modPort p (fun P => { P with behind := P.behind ++ [x] }) else s.landTraffic p x

/-- No early chunk holds the oldest traffic held back. -/
def State.behindMoves (s : State) (p : Nat) : Bool := (s.port p).behind != [] && !s.earlyChunk p
def State.behindGo (s : State) (p : Nat) : State :=
  match (s.port p).behind with
  | [] => s
  | x :: l => if s.earlyChunk p then s else (s.modPort p (fun P => { P with behind := l })).landTraffic p x

/-- REMOTE_WRITE_ARRIVE. -/
def execRemoteWriteArrive (port : Nat) (rva : DWord) (rop : Option Rop) (data : List Byte) (rc : Option (BitVec 8)) (s : State) : Result :=
  if s.linkUp port then .next (s.traffic port (.write ⟨s.inAsid port, rva, rop, data, rc, false, none⟩)) else .next s

/-- The place in a port's list of the first held arrival that may be presented again: no page stops it, and a way to its first bytes is
open. -/
def State.heldReady (s : State) (p : Nat) : Option Nat :=
  let l := (s.port p).held
  (List.range l.length).find? (fun i => match l[i]? with
    | some a => !a.stopped && !(l.take i).any (fun b => b.overlaps a) &&
        ((pieces a.rva a.data.length (a.data.length / 65536 + 2)).take 1).all (fun q => s.portReach p a.asid q.1 q.2)
    | none => false)

/-- A held arrival is presented again (R388). -/
def State.retryHeld (s : State) (p : Nat) : State :=
  match s.heldReady p with
  | none => s
  | some i =>
    match (s.port p).held[i]? with
    | none => s
    | some a =>
      match s.arrive p a with
      | (s, none) => s.modPort p (fun P => { P with held := P.held.eraseIdx i })
      | (s, some a) => s.modPort p (fun P => { P with held := P.held.set i a })

/-- SCHED_SIGNAL_ARRIVE. -/
def execSchedSignalArrive (port : Nat) (idx : BitVec 8) (addend : Word) (s : State) : Result :=
  if s.linkUp port then .next (s.traffic port (.signal idx addend)) else .next s

/-! ### Buffers and staging (R295, R296) -/

def bufV (x : BitVec 128) : Bool := x.getLsbD 127
def bufFmt (x : BitVec 128) : BitVec 2 := x.extractLsb' 64 2
def bufChunks (x : BitVec 128) : Nat := (x.extractLsb' 96 11).toNat + 1
def bufBase (x : BitVec 128) : DWord := (x.extractLsb' 0 56).setWidth 64
def bufZero (x : BitVec 128) : Bool := x.extractLsb' 107 20 == 0 && x.extractLsb' 66 30 == 0 && x.extractLsb' 56 8 == 0
def SRun.buf (r : SRun) (b : Nat) : BitVec 128 := r.bufs.getD b 0

/-- Staged elements of a chunk: 32-bit words, and for B16 one word for each half, widened. -/
def stageIn (fmt : BitVec 2) (l : List Byte) : List Word :=
  if fmt = 2 then (List.range (l.length / 2)).map (fun k => BitVec.ofNat 32 (leNat ((l.drop (2 * k)).take 2) * 65536)) else wordsLE l
/-- Bytes of memory of staged elements: B16 rounded (R296). -/
def stageOut (fmt : BitVec 2) (l : List Word) : List Byte := if fmt = 2 then l.flatMap (fun x => leBytes 2 (b16Of x)) else bytesLE l

def stageKey (b c e : Nat) : Nat := b * 2 ^ 40 + c * 2 ^ 24 + e
def SRun.elems (r : SRun) (b : Nat) : Nat := r.start.len / (if bufFmt (r.buf b) = 2 then 2 else 4)
def SRun.chunk (r : SRun) (b c : Nat) : List Word := (List.range (r.elems b)).map (fun e => Fmap.get 0 r.stage (stageKey b c e))
/-- A word writes a chunk. -/
def SRun.putChunk (r : SRun) (b c : Nat) (l : List Word) : SRun :=
  { r with stage := Fmap.setList 0 r.stage (stageKey b c 0) l, dirty := Fmap.set false r.dirty (2048 * b + c) true,
           spoilt := r.spoilt.filter (fun k => k != 2048 * b + c) }
/-- The chunk a field names (R297). -/
def SRun.chunkNo (r : SRun) (c : ChunkRef) (b : Nat) : Nat :=
  let x : Int := match c.rel with
    | .abs => c.base.toNat
    | .plus => c.base.toNat + r.i
    | .minus => (c.base.toNat : Int) - r.i
  (x.emod (bufChunks (r.buf b))).toNat

/-! ### The end of a schedule (R300, R389, R390) -/

def State.setSRun (s : State) (sid : Nat) (r : Option SRun) : State := s.setSched sid { s.sched sid with run := r }

/-- A page stops a schedule (R257, R389). -/
def SRun.halt (r : SRun) (q : Nat) : SRun := { r with stopped := true, qtag := r.qtag <|> some q }

/-- A write of the sequencer. -/
def State.schedWrite (s : State) (r : SRun) (va : DWord) (l : List Byte) : Except (Nat × Nat × DWord) State :=
  match s.writeD r.start.asid va l with
  | .error x => .error x
  | .ok s => .ok (if r.parity then s.spoilRange r.start.asid va l.length else s)

/-- The last steps: the status record, or the completion of the entry that started it. -/
def State.schedRecord (s : State) (sid : Nat) (r : SRun) (err : BitVec 8) : State :=
  match r.start.entry with
  | some (p, i) => (s.setSRun sid none).doneEntry p i err r.steps ((s.ent p i).late || r.late)
  | none =>
    let va := r.start.stva &&& ~~~(15#64)
    if r.start.stva = 0 then s.setSRun sid none
    else if !s.portReach r.start.port r.start.asid va 16 then s.setSRun sid (some { r with phase := .record err })
    else match s.schedWrite r va (statusRecord (s.ftime r.start.port) r.steps (if r.abort && err == 0 then eABORT else err) r.late) with
    | .ok s => s.setSRun sid none
    | .error (c, l, a) =>
      if c = cNOTPRES then (s.setSRun sid (some ({ r with phase := .record err }.halt s.dev.qcnt))).portReq r.start.port r.start.asid a 1 l
      else s.setSRun sid none

/-- How far a write-back has come: the state, the run, the chunks left, the ERR, and what it waits for: a page, or a way. -/
structure WB where
  s    : State
  r    : SRun
  left : List Nat
  err  : BitVec 8
  page : Option (Nat × DWord)
  deriving DecidableEq, Repr

/-- Writes the written chunks back. One that holds a lasting error cannot be read: it is left out (R396; log 36). -/
def State.writeBack (s : State) (r : SRun) (err : BitVec 8) : List Nat → WB
  | [] => ⟨s, r, [], err, none⟩
  | k :: ks =>
    let b := k / 2048
    let va := bufBase (r.buf b) + BitVec.ofNat 64 (k % 2048 * r.start.len)
    let fail (e : BitVec 8) : BitVec 8 := if err = 0 then e else err
    if r.spoilt.contains k then s.writeBack r (fail (eMem cUNCORR)) ks
    else if !s.portReach r.start.port r.start.asid va r.start.len then ⟨s, r, k :: ks, err, none⟩
    else match s.schedWrite r va (stageOut (bufFmt (r.buf b)) (r.chunk b (k % 2048))) with
    | .ok s => s.writeBack { r with parity := false } err ks
    | .error (c, l, a) => if c = cNOTPRES then ⟨s, r, k :: ks, err, some (l, a)⟩ else s.writeBack r (fail (eMem c)) ks

/-- A schedule ends with ERR; 0 at END, which counts among the words executed when its write-back has not failed (R384). -/
def State.schedEnd (s : State) (sid : Nat) (r : SRun) (err : BitVec 8) : State :=
  let w := s.writeBack r err (Fmap.keys r.dirty)
  let r := { w.r with phase := .ending w.err, fwd := none, dirty := w.left.map (fun k => (k, true)) }
  match w.page, w.left with
  | some (l, a), _ => (w.s.setSRun sid (some (r.halt w.s.dev.qcnt))).portReq r.start.port r.start.asid a 1 l
  | none, _ :: _ => w.s.setSRun sid (some r)
  | none, [] =>
    let S := w.s.sched sid
    let tl := Timeline.complete ⟨S.issue, S.comp, S.early⟩ r.start.num
    (w.s.setSched sid { S with comp := tl.comp, early := tl.early }).schedRecord sid
      { r with phase := .record w.err, qtag := none, steps := r.steps + (if w.err = 0 then 1 else 0) } w.err

/-- A schedule that ends goes on after REPLAY (R389). -/
def State.schedResume (s : State) (sid : Nat) : State :=
  match (s.sched sid).run with
  | none => s
  | some r =>
    if r.stopped then s else
    match r.phase with
    | .ending err => s.schedEnd sid r err
    | .record err => s.schedRecord sid r err
    | _ => s

/-! ### The start of a schedule (R295 to R297, R389) -/

/-- The FMT that a ROP asks for. -/
def ropFmt : Rop → BitVec 2
  | .faddB16 => 2
  | .addS32 | .minS32 | .maxS32 => 3
  | _ => 1

/-- A word that ends the schedule before it starts; `e` is the number of the first END. A FWD without a link is none: its RED fails when
it is reached (R391). -/
def State.wordBad (s : State) (bufs : List (BitVec 128)) (e : Nat) (w : DWord) : Bool :=
  let v (b : BitVec 8) : BitVec 128 := bufs.getD b.toNat 0
  match decodeFloreal w with
  | none => true
  | some i =>
    match i with
    | .florealSend p _ b _ | .florealRecv p _ b _ => !s.linkUp p.toNat || !bufV (v b)
    | .florealRed p _ b _ _ rop => !s.linkUp p.toNat || !bufV (v b) || bufFmt (v b) != ropFmt rop
    | .florealCopy _ db _ sb => !bufV (v db) || !bufV (v sb) || ((bufFmt (v db) == 2) != (bufFmt (v sb) == 2))
    | .florealWait p _ _ _ | .florealSignal p _ _ _ => !s.linkUp p.toNat
    | .florealLoop _ t => e < t.toNat
    | _ => false

/-- What the reads and checks of a start come to: done, with the requests made so far counted; at a page that is not present; where no
way is open; or failed. -/
inductive LoadRes (α : Type) where
  | ok (x : α) (s : State)
  | page (va : DWord) (level : Nat)
  | away
  | bad (err : BitVec 8) (s : State)
  deriving DecidableEq, Repr

/-- One after another, up to the first that is not done. -/
def LoadRes.bind {α β : Type} (r : LoadRes α) (f : α → State → LoadRes β) : LoadRes β :=
  match r with
  | .ok x s => f x s
  | .page va l => .page va l
  | .away => .away
  | .bad e s => .bad e s

/-- A read of a start. -/
def SStart.read (x : SStart) (va : DWord) (n : Nat) (s : State) : LoadRes (List Byte) :=
  if !s.portReach x.port x.asid va n then .away else
  match s.readD x.asid va n with
  | .ok l => .ok l (s.countD x.asid va n false)
  | .error (c, l, a) => if c = cNOTPRES then .page a l else .bad (eMem c) s

/-- The words from 0 up to and including the first END. -/
def SStart.words (x : SStart) (va : DWord) : Nat → State → LoadRes (List DWord)
  | 0, s => .bad eBADWORD s
  | fuel + 1, s =>
    (x.read va 8 s).bind (fun l s =>
      let w : DWord := BitVec.ofNat 64 (leNat l)
      if w.extractLsb' 58 6 = 8 then .ok [w] s else (x.words (va + 8) fuel s).bind (fun ws s => .ok (w :: ws) s))

/-- Chunks of the buffers, staged; each as buffer and chunk. -/
def SStart.stage (x : SStart) (bufs : List (BitVec 128)) (m : Fmap Word) : List (Nat × Nat) → State → LoadRes (Fmap Word)
  | [], s => .ok m s
  | (b, c) :: r, s =>
    (x.read (bufBase (bufs.getD b 0) + BitVec.ofNat 64 (c * x.len)) x.len s).bind (fun l s =>
      x.stage bufs (Fmap.setList 0 m (stageKey b c 0) (stageIn (bufFmt (bufs.getD b 0)) l)) r s)

/-- The reads and checks of a start: the buffer table, the program, the chunks. -/
def SStart.load (x : SStart) (s : State) : LoadRes (List (BitVec 128) × List DWord × Fmap Word) :=
  if x.len % 16 ≠ 0 ∨ x.len < 16 ∨ 1048576 < x.len ∨ x.table.toNat % 16 ≠ 0 then .bad eBADBUF s
  else (x.read x.table 4096 s).bind (fun t s =>
    let bufs : List (BitVec 128) := (List.range 256).map (fun b => bytesVal 128 ((t.drop (16 * b)).take 16))
    let live := (List.range 256).filter (fun b => bufV (bufs.getD b 0))
    let size := live.foldl (fun n b => n + bufChunks (bufs.getD b 0) * x.len * (if bufFmt (bufs.getD b 0) = 2 then 2 else 1)) 0
    if live.any (fun b => !bufZero (bufs.getD b 0)) ∨ 8388608 < size then .bad eBADBUF s
    else if x.prog.toNat % 8 ≠ 0 then .bad eBADWORD s
    else (x.words x.prog 8192 s).bind (fun ws s =>
      if ws.any (fun w => s.wordBad bufs (ws.length - 1) w) then .bad eBADWORD s
      else (x.stage bufs [] (live.flatMap (fun b => (List.range (bufChunks (bufs.getD b 0))).map (fun c => (b, c)))) s).bind (fun m s =>
        .ok (bufs, ws, m) s)))

/-- A run about to start. -/
def SStart.fresh (x : SStart) (t : DWord) : SRun :=
  { start := x, phase := .starting, words := [], bufs := [], stage := [], dirty := [], pc := 0, i := 0, steps := 0, late := false,
    tstart := t, tword := none, stopped := false, qtag := none, fwd := none, sent := 0, turn := 0, abort := false, parity := false, spoilt := [] }

/-- A start is tried, or tried again: its run as it stands. Its time is that at which its reads are done: DESIGN CHOICE (log 70), for one
that a page has stopped. -/
def State.schedLoad (s : State) (sid : Nat) (r : SRun) : State :=
  let x := r.start
  if r.parity then s.schedEnd sid { r with parity := false } (eMem cUNCORR) else
  match x.load s with
  | .ok (bufs, ws, m) s =>
    s.setSRun sid (some { r with phase := .running, bufs := bufs, words := ws, stage := m, tstart := s.ftime x.port, qtag := none })
  | .page a l => (s.setSRun sid (some (r.halt s.dev.qcnt))).portReq x.port x.asid a 0 l
  | .away => s.setSRun sid (some r)
  | .bad e s => s.schedEnd sid r e

/-- SCHED_START: the oldest start of an idle context begins; one that a page or a closed way stopped goes on. -/
def execSchedStart (sid : Nat) (s : State) : Result :=
  let S := s.sched sid
  match S.run, S.queue with
  | some r, _ => if r.phase = .starting ∧ !r.stopped then .next (s.schedLoad sid r) else .next s
  | none, x :: q => .next ((s.setSched sid { S with queue := q }).schedLoad sid (x.fresh (s.ftime x.port)))
  | none, [] => .next s

/-! ### Schedule words (R297, R298, R391) -/

/-- What one word comes to. -/
inductive WordRes where
  | next (r : SRun) (s : State)
  | wait (r : SRun)
  /-- It waits, and the rest of the device has changed. -/
  | part (r : SRun) (s : State)
  | fail (err : BitVec 8) (s : State)
  deriving DecidableEq, Repr

/-- On to the next word. -/
def SRun.adv (r : SRun) : SRun := { r with pc := r.pc + 1 }

/-- The run after a wait: the timer of the word starts when the word begins. -/
def SRun.waiting (r : SRun) (now : Nat) : SRun := { r with tword := some (r.tword.getD now) }

/-- The run after a word: the next one is taken in a later cycle (log 69). -/
def SRun.took (r : SRun) (clk : Nat) : SRun :=
  { r with steps := r.steps + 1, tword := none, fwd := none, sent := 0, turn := clk + 1 }

/-- Runs a word of the schedule in focus. -/
def State.wordStep (s : State) (body : Nat → SRun → State → WordRes) : Result :=
  match (s.sched s.sfocus).run with
  | none => .next s
  | some r =>
    if r.phase ≠ .running ∨ r.stopped then .next s else
    match body s.sfocus r s with
    | .next r t => .next (t.setSRun s.sfocus (some (r.took s.clk)))
    | .wait r => .next (s.setSRun s.sfocus (some (r.waiting s.dev.now)))
    | .part r t => .next (t.setSRun s.sfocus (some (r.waiting s.dev.now)))
    | .fail e t => .next (t.schedEnd s.sfocus r e)

/-- Transmits the last `n` bytes of a staged chunk. -/
def State.sendChunk (s : State) (p sid : Nat) (fmt : BitVec 2) (n : Nat) (l : List Word) : State :=
  (s.modPort p (fun P => { P with space := P.space - n })).emit (.chunk p sid fmt (bytesLE l))

/-- Bytes of a staged chunk that the far end has had no room for so far. -/
def SRun.toSend (r : SRun) (l : List Word) : Nat := 4 * l.length - r.sent

/-- There is room at the far end for `n` bytes, and the link carries them. -/
def State.sendRoom (s : State) (p n : Nat) : Bool := s.linkFlows p && n ≤ (s.port p).space

/-- A wait for room: a chunk larger than a receive buffer takes what there is. -/
def waitRoom (p : Nat) (l : List Word) (r : SRun) (s : State) : WordRes :=
  let n := (s.port p).space
  if 262144 < 4 * l.length && s.linkFlows p && 0 < n then
    .part { r with sent := r.sent + n } (s.modPort p (fun P => { P with space := 0 }))
  else .wait r

def wordNop (r : SRun) (s : State) : WordRes := .next r.adv s

/-- A staged chunk holds a lasting error: the word that reads it fails (R396). -/
def SRun.spoils (r : SRun) (buf k : Nat) : Bool := r.spoilt.contains (2048 * buf + k)

def wordSend (port : Nat) (c : ChunkRef) (buf : Nat) (sid : Nat) (r : SRun) (s : State) : WordRes :=
  let l := r.chunk buf (r.chunkNo c buf)
  if !s.linkUp port then .fail eLINKDOWN s
  else if r.spoils buf (r.chunkNo c buf) then .fail (eMem cUNCORR) s
  else if !s.sendRoom port (r.toSend l) then waitRoom port l r s
  else .next r.adv (s.sendChunk port sid (bufFmt (r.buf buf)) (r.toSend l) l)

/-- The oldest chunk of a schedule in a port's receive buffer, taken out. -/
def State.takeChunk (s : State) (p sid : Nat) : Option (Chunk × State) :=
  match (s.port p).rx.find? (fun c => c.sid == sid) with
  | none => none
  | some c => some (c, (s.modPort p (fun P => { P with rx := P.rx.eraseP (fun c => c.sid == sid) })).emit (.permit p c.data.length))

/-- A received chunk has the buffer's FMT and LEN. -/
def SRun.takes (r : SRun) (buf : Nat) (c : Chunk) : Bool := c.fmt == bufFmt (r.buf buf) && c.data.length == 4 * r.elems buf

def wordRecv (port : Nat) (c : ChunkRef) (buf : Nat) (sid : Nat) (r : SRun) (s : State) : WordRes :=
  if !s.linkUp port then .fail eLINKDOWN s else
  match s.takeChunk port sid with
  | none => .wait r
  | some (x, s) =>
    if !r.takes buf x then .fail eBADBUF s
    else .next (r.putChunk buf (r.chunkNo c buf) (wordsLE x.data)).adv s

/-- A ROP on staged elements: B16 ones are not rounded (R298). -/
def ropStage (r : Rop) (o x : Word) : Word :=
  match r with
  | .faddB16 => f32Add o x
  | r => ropWord r o x

/-- The result of a RED is forwarded, and the RED is done. -/
def wordForward (fwd buf k sid : Nat) (l : List Word) (r : SRun) (s : State) : WordRes :=
  if !s.linkUp fwd then .fail eLINKDOWN s
  else if !s.sendRoom fwd (r.toSend l) then waitRoom fwd l r s
  else .next (r.putChunk buf k l).adv (s.sendChunk fwd sid (bufFmt (r.buf buf)) (r.toSend l) l)

/-- RED takes its chunk and then transmits; what it has reduced is staged when it is done, for one that fails at its forward leaves the
chunk as it was (R390). Its TMO runs anew for the forward: DESIGN CHOICE (log 70). -/
def wordRed (port : Nat) (c : ChunkRef) (buf fwd : Nat) (rop : Rop) (sid : Nat) (r : SRun) (s : State) : WordRes :=
  let k := r.chunkNo c buf
  match r.fwd with
  | some l => wordForward fwd buf k sid l r s
  | none =>
    if !s.linkUp port || (fwd != 31 && !s.linkUp fwd) then .fail eLINKDOWN s else
    match s.takeChunk port sid with
    | none => .wait r
    | some (x, t) =>
      if !r.takes buf x then .fail eBADBUF t
      else if r.spoils buf k then .fail (eMem cUNCORR) t
      else
        let l := List.zipWith (ropStage rop) (r.chunk buf k) (wordsLE x.data)
        if fwd = 31 then .next (r.putChunk buf k l).adv t
        else match wordForward fwd buf k sid l { r with fwd := some l, tword := some s.dev.now } t with
          | .wait r => .part r t
          | w => w

def wordCopy (dst : ChunkRef) (dbuf : Nat) (src : ChunkRef) (sbuf : Nat) (r : SRun) (s : State) : WordRes :=
  if r.spoils sbuf (r.chunkNo src sbuf) then .fail (eMem cUNCORR) s else
  .next (r.putChunk dbuf (r.chunkNo dst dbuf) (r.chunk sbuf (r.chunkNo src sbuf))).adv s

/-- Fabric time at which a WAIT on time ends. -/
def SRun.target (r : SRun) (x : Word) : Nat := r.tstart.toNat + x.toNat

def wordWait (port : Nat) (time : Bool) (idx : Nat) (x : Word) (r : SRun) (s : State) : WordRes :=
  if time then
    let ft := (s.ftime r.start.port).toNat
    if ft < r.target x then .wait r else .next { r.adv with late := r.late || (r.tword.isNone && r.target x < ft) } s
  else if (s.counterOf port idx).toNat < x.toNat then .wait r else .next r.adv s

def wordSignal (port : Nat) (peer : Bool) (idx : BitVec 8) (x : Word) (r : SRun) (s : State) : WordRes :=
  if !peer then .next r.adv (s.counterChange port idx.toNat false (x.setWidth 64))
  else if !s.linkUp port then .fail eLINKDOWN s
  else if !s.linkFlows port then .wait r
  else .next r.adv (s.emit (.signal port idx x))

/-- LOOP: loops within loops share one index. -/
def wordLoop (count target : Nat) (r : SRun) (s : State) : WordRes :=
  if r.i + 1 < count then .next { r with i := r.i + 1, pc := target } s else .next { r.adv with i := 0 } s

/-- What a word would come to, for the sequencer's own choice and its timers. -/
def State.wordTry (s : State) (sid : Nat) (r : SRun) : Instr → WordRes
  | .florealSend p c b _ => wordSend p.toNat c b.toNat sid r s
  | .florealRecv p c b _ => wordRecv p.toNat c b.toNat sid r s
  | .florealRed p c b _ f o => wordRed p.toNat c b.toNat f.toNat o sid r s
  | .florealWait p t i x => wordWait p.toNat t i.toNat x r s
  | .florealSignal p q i x => wordSignal p.toNat q i x r s
  | _ => .next r s

/-- The word in hand of a running schedule. -/
def SRun.word (r : SRun) : Option Instr := match r.words[r.pc]? with | some w => decodeFloreal w | none => none

/-- The sequencer can move: the word in hand does something. -/
def State.schedMoves (s : State) (sid : Nat) : Bool :=
  match (s.sched sid).run with
  | none => false
  | some r =>
    r.phase == .running && !r.stopped && r.turn ≤ s.clk &&
    (match r.word with
     | none => false
     | some i => match s.wordTry sid r i with
       | .wait r2 => r2.waiting s.dev.now != r
       | _ => true)

/-- The step timeout of a word in ns (R391). -/
def State.wordLimit (s : State) (i : Instr) : Option Nat :=
  let us (t : BitVec 16) : Nat := if t = 0 then s.dev.fptmo.toNat else t.toNat
  match i with
  | .florealSend _ _ _ t | .florealRecv _ _ _ t | .florealRed _ _ _ t _ _ => some (1000 * us t)
  | .florealWait _ false _ _ => some (1000 * s.dev.fptmo.toNat)
  | _ => none

/-- FLOREAL_STEP_TIMEOUT: the word fails when its limit has passed and it still waits; a tie counts as arrived. -/
def execFlorealStepTimeout (sid : Nat) (s : State) : Result :=
  match (s.sched sid).run with
  | none => .next s
  | some r =>
    if r.phase ≠ .running ∨ r.stopped then .next s else
    match r.word, r.tword with
    | some i, some t =>
      (match s.wordLimit i, s.wordTry sid r i with
       | some n, .wait _ => if t + n ≤ s.dev.now then .next (s.schedEnd sid r eTIMEOUT) else .next s
       | _, _ => .next s)
    | _, _ => .next s

/-- FLOREAL_WAIT_TIME_EXPIRY: a WAIT on fabric time has reached its target. -/
def execFlorealWaitTimeExpiry (sid : Nat) (s : State) : Result :=
  match (s.sched sid).run with
  | none => .next s
  | some r =>
    match r.word with
    | some (.florealWait p true i x) => ({ s with sfocus := sid } : State).wordStep (fun _ r s => wordWait p.toNat true i.toNat x r s)
    | _ => .next s

def execFlorealNop (s : State) : Result := s.wordStep (fun _ r s => wordNop r s)
def execFlorealSend (port : BitVec 5) (c : ChunkRef) (buf : BitVec 8) (_tmo : BitVec 16) (s : State) : Result :=
  s.wordStep (fun sid r s => wordSend port.toNat c buf.toNat sid r s)
def execFlorealRecv (port : BitVec 5) (c : ChunkRef) (buf : BitVec 8) (_tmo : BitVec 16) (s : State) : Result :=
  s.wordStep (fun sid r s => wordRecv port.toNat c buf.toNat sid r s)
def execFlorealRed (port : BitVec 5) (c : ChunkRef) (buf : BitVec 8) (_tmo : BitVec 16) (fwd : BitVec 5) (rop : Rop) (s : State) : Result :=
  s.wordStep (fun sid r s => wordRed port.toNat c buf.toNat fwd.toNat rop sid r s)
def execFlorealCopy (dst : ChunkRef) (dbuf : BitVec 8) (src : ChunkRef) (sbuf : BitVec 8) (s : State) : Result :=
  s.wordStep (fun _ r s => wordCopy dst dbuf.toNat src sbuf.toNat r s)
def execFlorealWait (port : BitVec 5) (time : Bool) (idx : BitVec 8) (operand : Word) (s : State) : Result :=
  s.wordStep (fun _ r s => wordWait port.toNat time idx.toNat operand r s)
def execFlorealSignal (port : BitVec 5) (peer : Bool) (idx : BitVec 8) (operand : Word) (s : State) : Result :=
  s.wordStep (fun _ r s => wordSignal port.toNat peer idx operand r s)
def execFlorealLoop (count : BitVec 16) (target : BitVec 13) (s : State) : Result :=
  s.wordStep (fun _ r s => wordLoop count.toNat target.toNat r s)

/-- END: the write-back and the completion. -/
def execFlorealEnd (s : State) : Result :=
  match (s.sched s.sfocus).run with
  | none => .next s
  | some r => if r.phase ≠ .running ∨ r.stopped then .next s else .next (s.schedEnd s.sfocus r 0)

/-! ### Changes of one cycle (R286, R289) -/

/-- Something that has arrived at a port can act in this cycle. -/
def State.arriveMoves (s : State) : Bool := s.ports.any (fun p => s.behindMoves p.1 || (s.heldReady p.1).isSome)

/-- An arrival held here, an ended entry or a schedule can change a trigger counter in this cycle: such changes come before those
of CNTADD (R286). -/
def State.counterMoves (s : State) : Bool :=
  s.arriveMoves || s.scheds.any (fun p => s.schedMoves p.1 || s.schedResume p.1 != s) ||
  s.ports.any (fun p => p.2.entry.any (fun e => s.retryRecord p.1 e.1 != s))

/-- A deferred add of a warp is due (R293). -/
def State.aftDue (s : State) (wk : Nat) : Bool :=
  match (s.warp wk).aft with
  | [] => false
  | x :: _ => x.n ≤ (s.warp wk).tlCopy.comp

/-- The deferred adds that are due, as core, place and warp. -/
def State.aftList (s : State) : List (Nat × Nat × Nat) :=
  s.warps.filterMap (fun p => if s.aftDue p.1 then (p.2.aft.head?).map (fun x => (coreOf p.1, x.seq, p.1)) else none)

/-- No due add of another warp comes before that of a warp: in ascending core number, and on one core in issue order (R286). -/
def State.aftFirst (s : State) (wk : Nat) : Bool :=
  let k := (((s.warp wk).aft.head?).map (fun x => x.seq)).getD 0
  s.aftList.all (fun q => coreOf wk < q.1 || (coreOf wk == q.1 && k ≤ q.2.1))

/-- An entry is ACTIVE, or may yet fire in this cycle: WQPOST and TARM are not ready (R289). -/
def State.entryBusy (s : State) (p i : Nat) : Bool :=
  let e := s.ent p i
  e.st == .active || (e.st == .armed && (if e.time then e.thresh.toNat ≤ (s.ftime p).toNat else s.counterMoves || s.aftList != []))

/-! ### Class 0xD (R292 to R294, R383) -/

/-- ZERO bits of a counter or schedule reference, and of an entry reference (R285). -/
def refMask : Word := 0xFFF0FF00
def entMask : Word := 0xFFF0FC00

/-- The traps of a reference in A: a ZERO bit, then a port of another ASID; a system warp may name any port. -/
def portEarly (mask : Word) : Early := fun c s =>
  if s.anyPois c.a then none
  else if c.av.lo &&& mask ≠ 0 then some (kRng, tdOf c.a)
  else if !isSys c.wk && s.entAsid (refPort c.av.lo) != (s.warp c.wk).asid then
    some (kWin, match c.g.a with
      | some ⟨.win w _, _, _, _, _, _⟩ => tdW w.toNat
      | _ => Config.portTrapDst c.av.lo)
  else none

/-- The number of an entry in its reference. -/
def refEntry (w : Word) : Nat := w.toNat % 1024
/-- Registers as a number of 256 bits. -/
def State.block256 (s : State) (ls : List Loc) : BitVec 256 := BitVec.ofNat 256 (s.locsNat ls)

/-- WQPOST: not ready while the entry is busy; an armed entry is disarmed. -/
def execWqpost (h : Hdr) (a b : Operand) (s : State) : Result :=
  let e := portEarly entMask
  laneOnceEarly (.wqpost h a b) .int .int e (withEarly e (issueBody (fun c s =>
    let p := refPort c.av.lo
    let i := refEntry c.av.lo
    if s.entryBusy p i then .wait s
    else .done (s.setEnt p i { st := .posted, bits := s.block256 c.b })))) s

/-- TARM's effect on an entry that is not ACTIVE (R293, R386). -/
def State.arm (s : State) (p i : Nat) (time : Bool) (cidx : Nat) (t : DWord) : State :=
  let e := s.ent p i
  if e.st = .empty then s else
  let ft := s.ftime p
  let s1 := s.setEnt p i { e with st := .armed, time := time, cidx := cidx, thresh := t, late := time && t.toNat < ft.toNat }
  if t.toNat ≤ (if time then ft.toNat else (s.counterOf p cidx).toNat) then s1.fire p i else s1

/-- TARM. A time trigger with a counter index is illegal, after the checks of its reference (R383). -/
def execTarm (h : Hdr) (time : Bool) (cidx : BitVec 8) (a b : Operand) (s : State) : Result :=
  let e := portEarly entMask
  laneOnceEarly (.tarm h time cidx a b) .int .int e (withEarly e (fun c s =>
    if time && cidx != 0 then .trap kIll 0 else
    issueBody (fun c s =>
      let p := refPort c.av.lo
      let i := refEntry c.av.lo
      if s.entryBusy p i then .wait s else .done (s.arm p i time cidx.toNat c.bv)) c s)) s

/-- CNTADD: at once, after the other changes of the cycle and the due adds of its core and those below it (R286), returning the old value in
every active thread; or deferred until the warp's copies so far are complete. -/
def execCntadd (h : Hdr) (aft set : Bool) (d a b : Operand) (s : State) : Result :=
  let e := portEarly refMask
  laneOnceEarly (.cntadd h aft set d a b) .int .int e (withEarly e (issueBody (fun c s =>
    let p := refPort c.av.lo
    let i := refSid c.av.lo
    if aft then
      if 16 ≤ (s.warp c.wk).aft.length then .wait s
      else .done (s.modWarp c.wk (fun w => { w with aft := w.aft ++ [⟨w.tlCopy.issue, s.nextId, ⟨p, i⟩, set, c.bv⟩] })).bumpId
    else if s.counterMoves || s.aftList.any (fun q => q.1 ≤ coreOf c.wk) then .wait s
    else onceWrite (fun s => (words2 (s.counterOf p i), s.counterChange p i set c.bv)) c s))) s

/-- CNTADD_AFT_APPLY, after the other changes of the cycle (R286). -/
def execCntaddAftApply (wk : Nat) (s : State) : Result :=
  let w := s.warp wk
  match w.aft with
  | [] => .next s
  | x :: rest =>
    if w.tlCopy.comp < x.n ∨ s.counterMoves ∨ !s.aftFirst wk then .next s
    else .next ((s.setWarp wk { w with aft := rest }).counterChange x.c.port x.c.idx x.set x.x)

/-- SCHED: a start takes its number at issue. -/
def execSched (h : Hdr) (a : Operand) (s : State) : Result :=
  let e : Early := fun c s =>
    if s.anyPois c.a then none
    else if s.readLoc (c.a.headD (.s 0 0)) &&& refMask ≠ 0 then some (kRng, tdOf c.a) else none
  laneOnceEarly (.sched h a) .int .int e (withEarly e (issueBody (fun c s =>
    let w (k : Nat) : Word := s.readLoc (c.a.getD k (.s 0 0))
    let sid := refSid (w 0)
    let n := (s.sched sid).issue + 1
    if 16 ≤ s.startsWaiting then .wait s
    else .done (((s.takeSched sid).modWarp c.wk (fun x => { x with lastSched := Fmap.set 0 x.lastSched sid n })).queueStart sid
      ⟨refPort (w 0), (w 1).toNat, Word.pair (w 2) (w 3), Word.pair (w 4) (w 5), Word.pair (w 6) (w 7), (s.warp c.wk).asid, n, none⟩)))) s

/-! ### What else reaches a port -/

/-- Bytes of chunks in a port's receive buffer. -/
def State.rxUsed (s : State) (p : Nat) : Nat :=
  (s.port p).rx.foldl (fun n c => n + c.data.length) 0 +
    (s.port p).behind.foldl (fun n x => match x with
      | .chunk c => n + c.data.length
      | _ => n) 0

/-- A schedule stands at a RECV or RED of the port. -/
def State.awaitsChunk (s : State) (p sid : Nat) : Bool :=
  match (s.sched sid).run with
  | none => false
  | some r => r.phase == .running && (match r.word with
    | some (.florealRecv q _ _ _) | some (.florealRed q _ _ _ _ _) => q.toNat == p
    | _ => false)

/-- CHUNK_ARRIVE: into the receive buffer of 256 KiB (R299, R391). A larger chunk passes through an empty one into the word that
waits for it (log 70). -/
def execChunkArrive (port sid : Nat) (fmt : BitVec 2) (data : List Byte) (s : State) : Result :=
  if s.linkUp port && (s.rxUsed port + data.length ≤ 262144 || (s.rxUsed port == 0 && s.awaitsChunk port (sid % 256))) then
    .next (s.traffic port (.chunk ⟨sid % 256, fmt, data⟩)) else .next s

/-- FAR_END_BUFFER_SPACE. -/
def execFarEndBufferSpace (port bytes : Nat) (s : State) : Result := .next (s.modPort port (fun P => { P with space := min 262144 (P.space + bytes) }))

/-- FABRIC_TIME_EXCHANGE: a difference above 100 ns is counted (R387), and a port that keeps its peer's time moves up to it, with those of
the device that follow it: no counter moves backward outside training (R308, log 71). -/
def execFabricTimeExchange (port : Nat) (peerTime : DWord) (s : State) : Result :=
  let a := (s.ftime port).toNat
  let b := peerTime.toNat
  if !s.linkUp port then .next s else
  let s := if a + 100 < b || b + 100 < a then s.modPort port (fun P => { P with skews := P.skews + 1 }) else s
  .next (if s.adoptsTime port && a < b then s.adoptTime port peerTime false else s)

/-- A link goes down (R392): what is in flight on it is lost, and every entry and schedule that uses it fails. -/
def State.linkDown (s : State) (p : Nat) : State :=
  let s := s.modPort p (fun P => { P with plnk := P.plnk &&& 0x7FFFFFFF, held := [], behind := P.behind.filter (fun x => match x with | .write _ => false | _ => true), link := { P.link with retry := 65535 } })
  let act := (s.port p).entry.filter (fun e => e.2.st == .active && !e.2.due && !e.2.fin && e.2.kind != 3)
  let s := foldS (act.map Prod.fst) s (fun s i => s.doneEntry p i eLINKDOWN 0 (s.ent p i).late)
  foldS (s.scheds.map Prod.fst) s (fun s sid =>
    match (s.sched sid).run with
    | none => s
    | some r =>
      if r.phase ≠ .running ∨ r.stopped then s else
      match r.word with
      | none => s
      | some i => match s.wordTry sid r i with
        | .fail e t => if e = eLINKDOWN then t.schedEnd sid r eLINKDOWN else s
        | _ => s)

/-- FABRIC_LINK_DOWN. -/
def execFabricLinkDown (port : Nat) (s : State) : Result := if s.linkUp port then .next (s.linkDown port) else .next s

/-- FABRIC_FLIT_CRC_ERROR: a retry that succeeds is counted; one that fails takes the link down. -/
def execFabricFlitCrcError (port : Nat) (retryOk : Bool) (s : State) : Result :=
  if !s.linkUp port then .next s
  else if retryOk then .next (s.modPort port (fun P => { P with retries := P.retries + 1, link := { P.link with retry := min 65535 (P.link.retry + 1) } }))
  else .next (s.linkDown port)

end Sys2Proof.Machine
end

