-- ==== Sys2Proof/Machine/Host.lean ====
section
/-! DEFINITION. What the host and the carrier do: the dispatcher's queues, commands and launches (R267 to R277, R350, R353),
host accesses and the register window (R310 to R313, R322, R368), boot, recovery and attestation (R210, R314, R315), device
reset, power and temperature (R316, R399), link, network and table errors (R392 to R395), and fatal errors (R398). -/

namespace Sys2Proof.Machine

/-! ### Work queues (R267 to R270, R353) -/

/-- A doorbell is rung: a TAIL that overflows the ring is ignored. -/
def State.ringBell (s : State) (q : Nat) (tail : Word) : State :=
  let Q := s.queue (q % 65536)
  if 2 ^ Q.log2 < (tail - Q.head).toNat then s else s.setQueue (q % 65536) { Q with tail := tail }

/-- DOORBELL_WRITE. -/
def execDoorbellWrite (q : Nat) (tail : Word) (s : State) : Result := .next (s.ringBell q tail)

/-- A command (R268); one that cannot be read waits for nothing and does nothing. -/
structure Command where
  kind  : Nat
  ser   : Bool
  deps  : List (Nat × Nat)
  recva : DWord
  deriving DecidableEq, Repr

/-- Where the next command of a queue stands. -/
def WQueue.slot (Q : WQueue) : DWord := Q.ring + BitVec.ofNat 64 (64 * (Q.head.toNat % 2 ^ Q.log2))

/-- The command that a queue would take next. -/
def State.headCmd (s : State) (Q : WQueue) : Command :=
  match s.readD Q.asid Q.slot 64 with
  | .error _ => ⟨0, false, [], 0⟩
  | .ok l =>
    let n := leNat l
    let f (lo w : Nat) : Nat := n / 2 ^ lo % 2 ^ w
    ⟨f 0 4, f 4 1 = 1, (if f 224 1 = 1 then [(f 64 16, f 80 64)] else []) ++ (if f 225 1 = 1 then [(f 144 16, f 160 64)] else []),
     BitVec.ofNat 64 (f 8 56)⟩

/-- A queue is a candidate (R270): its command can be read, on X0, which a closed way delays (R307, R393). -/
def State.candidate (s : State) (Q : WQueue) : Bool :=
  Q.en && 4 ≤ Q.log2 && Q.head != Q.tail && s.rangeReach 4 Q.asid Q.slot 64 &&
  (let c := s.headCmd Q
   c.deps.all (fun d => d.2 ≤ (s.queue d.1).qtl.comp) && (!c.ser || Q.qtl.comp == Q.qtl.issue))

/-- The queue served next: of the highest priority, round-robin after the one served last. -/
def State.pickQueue (s : State) : Option Nat :=
  let cs := s.queues.filter (fun p => s.candidate p.2)
  let pr := cs.foldl (fun m p => max m p.2.prio) 0
  let qs := (cs.filter (fun p => p.2.prio == pr)).map Prod.fst
  let last := Fmap.get 0 s.dev.served pr
  match qs.find? (fun q => last ≤ q) with
  | some q => some q
  | none => qs.head?

/-- A command of a queue completes (R269). -/
def State.completeCmd (s : State) (q n : Nat) : State :=
  let Q := s.queue q
  s.setQueue q { Q with qtl := Q.qtl.complete n }

/-! ### Launch records (R271 to R274) -/

/-- ZERO fields of a launch record, as low bit and width. -/
def recZero : List (Nat × Nat) :=
  [(1248, 32), (1208, 8), (1144, 8), (1080, 8), (1016, 8), (952, 8), (888, 8), (824, 8), (760, 8), (696, 8), (369, 15), (351, 1),
   (318, 2), (311, 1), (303, 1), (294, 2), (286, 2), (271, 1), (261, 3), (248, 8), (184, 8), (120, 8), (56, 8)]

/-- A format slot holds a combination of R107. -/
def fmtSlotOk (w : Word) : Bool :=
  let a := w.toNat / 2 ^ 28
  let b := w.toNat / 2 ^ 24 % 16
  let sc := w.toNat / 2 ^ 22 % 4
  let cp := w.toNat / 2 ^ 20 % 4
  let row (x y : List Nat) (scs : List Nat) (cps : List Nat) : Bool := x.contains a && y.contains b && scs.contains sc && cps.contains cp
  w.toNat % 2 ^ 20 == 0 &&
  (row [0] [0] [0] [0, 1] || row [1] [1] [0] [0, 1] || row [2] [2] [0] [0, 1] || row [8] [8] [0, 2] [0, 1] ||
   row [3, 4] [3, 4] [0, 1, 2] [0, 1] || row [9, 10] [9, 10] [0, 2] [0, 1] || row [5, 6, 7] [5, 6, 7] [0, 1, 2] [0, 1] ||
   row [11, 12] [11, 12] [0, 2] [0, 1] || row [9, 10, 11, 12, 13] [13] [0, 2] [0, 1, 2])

/-- ZERO bits of a shape descriptor (R181). -/
def shapeZero (x : BitVec 512) : Bool := x.extractLsb' 488 24 == 0 && x.extractLsb' 152 8 == 0 && x.extractLsb' 71 25 == 0 && x.extractLsb' 56 8 == 0

/-- The structures of a launch as read: absent where they could not be. -/
structure Structs where
  table  : Option (List Byte)
  lists  : List (Nat × Option (List Nat))
  pmap   : Option (List Byte)
  shapes : Option (List Byte)
  traps  : Option (List Byte)
  nrec   : Option (List Byte)
  /-- The safe-point table can be read (R318). -/
  spt    : Bool
  dseg   : Option (List Byte)
  deriving DecidableEq, Repr

/-- Little-endian field of a byte string. -/
def fieldOf (l : List Byte) (lo w : Nat) : Nat := leNat l / 2 ^ lo % 2 ^ w

/-- A structure of n bytes at an address; none is named by a condition that is false. -/
def State.struct (s : State) (asid : BitVec 16) (named : Bool) (va n : Nat) : Option (List Byte) :=
  if named then s.peek asid (BitVec.ofNat 64 va) n else some []

/-- Bytes of the safe-point table at an address (R318). -/
def State.sptBytes (s : State) (asid : BitVec 16) (va : Nat) : Nat :=
  16 + 192 * (match s.peek asid (BitVec.ofNat 64 va) 4 with
    | some h => leNat h
    | none => 0)

/-- Reads the structures that a record names (R271, R318, R337, R350). An address of 0 means no structure only for those to which the
spec gives that meaning. -/
def State.structs (s : State) (asid : BitVec 16) (f : Nat → Nat → Nat) : Structs :=
  let table := s.struct asid (f 640 56 != 0) (f 640 56) 4096
  let lists := (List.range 256).filterMap (fun g =>
    let e := ((table.getD []).drop (16 * g)).take 16
    let n := fieldOf e 64 24
    if n = 0 then none else some (g, (s.peek asid (BitVec.ofNat 64 (fieldOf e 0 56)) (4 * n)).map (fun l => (wordsLE l).map BitVec.toNat)))
  ⟨table, lists, s.struct asid (f 368 1 = 1) (f 704 56) (f 224 24 + 1), s.struct asid true (f 960 56) 2048,
   s.struct asid (f 1024 56 != 0) (f 1024 56) 128, s.struct asid (f 832 56 != 0) (f 832 56) 4,
   (s.peek asid (BitVec.ofNat 64 (f 1088 56)) (s.sptBytes asid (f 1088 56))).isSome, s.struct asid (f 192 32 != 0) (f 128 56) (f 192 32)⟩

/-- The ranges of these reads. -/
def State.structRanges (s : State) (asid : BitVec 16) (f : Nat → Nat → Nat) (x : Structs) : List (Nat × Nat) :=
  let rd (named : Bool) (va n : Nat) : List (Nat × Nat) := if named && n != 0 then [(va, n)] else []
  let lists := (List.range 256).flatMap (fun g =>
    let e := ((x.table.getD []).drop (16 * g)).take 16
    rd true (fieldOf e 0 56) (4 * fieldOf e 64 24))
  rd (f 640 56 != 0) (f 640 56) 4096 ++ lists ++ rd (f 368 1 = 1) (f 704 56) (f 224 24 + 1) ++ rd true (f 960 56) 2048 ++
    rd (f 1024 56 != 0) (f 1024 56) 128 ++ rd (f 832 56 != 0) (f 832 56) 4 ++ rd true (f 1088 56) (s.sptBytes asid (f 1088 56)) ++
    rd true (f 128 56) (f 192 32)

/-- The requests of these reads reach their slices (R265). -/
def State.countStructs (s : State) (qasid : BitVec 16) (recva : DWord) (asid : BitVec 16) (f : Nat → Nat → Nat) (x : Structs) : State :=
  foldS (s.structRanges asid f x) (s.countD qasid recva 160 false) (fun s p => s.countD asid (BitVec.ofNat 64 p.1) p.2 false)

def shapesOf (x : Structs) : List (BitVec 512) := (List.range 32).map (fun i => bytesVal 512 (((x.shapes.getD []).drop (64 * i)).take 64))

def risingNat : List Nat → Bool
  | a :: b :: r => a < b && risingNat (b :: r)
  | _ => true

/-- Allocation that a record asks for. -/
def recAlloc (f : Nat → Nat → Nat) : Alloc :=
  { nv := 8 * (f 264 7 + 1), ns := f 272 9, np := f 281 5, na := f 296 7, nb := f 304 7, nts := f 312 6, win := f 288 6 + 1 }

/-- The code of the first failing row of R274, 0 for none; the writes of row 0x09 come after. -/
def State.recCheck (s : State) (qasid : BitVec 16) (f : Nat → Nat → Nat) (x : Structs) : Nat :=
  let al := recAlloc f
  let nblk := f 224 24 + 1
  let tab (g : Nat) : List Byte := ((x.table.getD []).drop (16 * g)).take 16
  let ls := x.lists.filterMap (fun p => p.2)
  let asid : BitVec 16 := BitVec.ofNat 16 (f 320 16)
  let asidV := match s.tabEntry ((s.dev.asidtab.extractLsb' 16 36).toNat * 65536) (16 * asid.toNat) with
    | some e => e.getLsbD 0
    | none => false
  let rows : List (Nat × Bool) :=
    [(1, f 0 56 % 12 != 0 || f 64 56 % 12 != 0 || f 0 56 == 0),
     (2, recZero.any (fun z => f z.1 z.2 != 0) || (List.range 256).any (fun g => fieldOf (tab g) 56 8 != 0 || fieldOf (tab g) 88 40 != 0) ||
         (shapesOf x).any (fun d => !shapeZero d) || (List.range 16).any (fun k => fieldOf (((x.traps.getD []).drop (8 * k)).take 8) 56 8 != 0) ||
         256 < al.ns || 24 < al.np || 64 < al.na || 64 < al.nb || 32 < al.nts || f 336 8 == 0),
     (3, 655360 < genRegs al (f 256 5 + 1)),
     (4, (List.range 8).any (fun i => !fmtSlotOk (BitVec.ofNat 32 (f (384 + 32 * i) 32)))),
     (5, ls.any (fun l => !risingNat l || l.any (fun b => nblk ≤ b)) ||
         (ls.flatten.any (fun b => 4 < (ls.filter (fun l => l.contains b)).length))),
     (6, 191 < f 352 8 || 191 < f 360 8 || (x.pmap.getD []).any (fun b => 191 < b.toNat)),
     (7, f 1216 32 == 0 || f 1216 32 % 128 != 0),
     (8, (asid != qasid && qasid != 0) || !asidV),
     (9, x.table.isNone || x.lists.any (fun p => p.2.isNone) || x.pmap.isNone || x.shapes.isNone || x.traps.isNone || x.nrec.isNone || !x.spt || x.dseg.isNone)]
  ((rows.find? (fun r => r.2)).map Prod.fst).getD 0

/-! ### Starting a launch (R275, R276, R350) -/

def up64K (n : Nat) : Nat := (n + 65535) / 65536 * 65536

/-- Offsets P2, P3 and P4 of the context area (R275). -/
def ctxOffs (lists pmap dseg : Nat) : Nat × Nat × Nat :=
  let p2 := 65536 + up64K (4 * lists)
  let p3 := p2 + up64K pmap
  (p2, p3, p3 + up64K dseg)

/-- Writes parts of the context area in turn. -/
def State.ctxWrite (s : State) (asid : BitVec 16) (va : DWord) : List (Nat × List Byte) → Option State
  | [] => some s
  | (o, l) :: r =>
    match s.writeD asid (va + BitVec.ofNat 64 o) l with
    | .ok s => s.ctxWrite asid va r
    | .error _ => none

/-- The private copies, whose values belong to the device: free values (R275, log 1), and the data segment of a launch. -/
def State.fillContext (s : State) (asid : BitVec 16) (va : DWord) (x : Structs) : Option State :=
  let n := x.lists.foldl (fun n p => n + (p.2.getD []).length) 0
  let pm := x.pmap.getD []
  let d := x.dseg.getD []
  let o := ctxOffs n pm.length d.length
  let l := s.freeBytes (65536 + 4 * n + pm.length)
  { s with fresh := s.fresh + l.length }.ctxWrite asid va [(0, l.take 65536), (65536, (l.drop 65536).take (4 * n)), (o.1, l.drop (65536 + 4 * n)), (o.2.1, d)]

/-- The launch of a record. -/
def recLaunch (f : Nat → Nat → Nat) (x : Structs) (q n prio : Nat) : Launch :=
  let lists := x.lists.filterMap (fun p => p.2.map (fun l => (p.1, l)))
  let pm := x.pmap.getD []
  let o := ctxOffs (lists.foldl (fun n p => n + p.2.length) 0) pm.length (x.dseg.getD []).length
  let va (lo : Nat) : DWord := BitVec.ofNat 64 (f lo 56)
  { present := true, asid := BitVec.ofNat 16 (f 320 16), qnum := q, cmdnum := n, prio := prio, entry := va 0, access := va 64,
    alloc := recAlloc f, nwarp := f 256 5 + 1, nblocks := f 224 24 + 1, fs := (List.range 8).map (fun i => BitVec.ofNat 32 (f (384 + 32 * i) 32)),
    groups := lists.foldl (fun m p => Fmap.set [] m p.1 p.2) [], pmap := (if f 368 1 = 1 then some pm else none), first := f 352 8,
    stride := f 360 8, patience := f 336 8, ften := BitVec.ofNat 32 (f 344 5), dbg := f 349 1 = 1, trace := f 350 1 = 1,
    traps := (List.range 16).foldl (fun m k => Fmap.set 0 m k (BitVec.ofNat 64 (fieldOf (((x.traps.getD []).drop (8 * k)).take 8) 0 56))) [],
    shapes := (shapesOf x).zipIdx.foldl (fun m p => Fmap.set 0 m p.2 p.1) [], stkva := va 1152, stklim := f 1216 32, sptva := va 1088,
    doneva := va 896, fqva := va 832, ctxva := va 768, dseg := va 768 + BitVec.ofNat 64 o.2.1, imageOff := o.2.2,
    nrec := leNat (x.nrec.getD []) }

/-- The completion record (R277). -/
def doneRecord (n nfault code : Nat) (failed : Bool) : List Byte :=
  leBytes 16 (n % 2 ^ 64 * 2 ^ 64 + nfault % 2 ^ 32 * 2 ^ 32 + code * 2 + (if failed then 1 else 0))

/-- Writes that no one retries (R274, R277, R350): one that fails leaves memory as it stands. -/
def State.writeTry (s : State) (asid : BitVec 16) (va : DWord) (l : List Byte) : State :=
  match s.writeD asid va l with
  | .ok s => s
  | .error _ => s

/-- The dispatcher finds its way, from X0, to all that a launch command makes it read and write (R307, R393). -/
def State.launchReach (s : State) (qasid : BitVec 16) (recva : DWord) : Bool :=
  s.links = [] || (s.rangeReach 4 qasid recva 160 &&
    (match s.peek qasid recva 160 with
     | none => true
     | some l =>
       let f := fieldOf l
       let asid : BitVec 16 := BitVec.ofNat 16 (f 320 16)
       let x := s.structs asid f
       let n := x.lists.foldl (fun n p => n + (p.2.getD []).length) 0
       let pm := (x.pmap.getD []).length
       let d := (x.dseg.getD []).length
       let o := ctxOffs n pm d
       let c := f 768 56
       (s.structRanges asid f x ++ [(c, 65536), (c + 65536, 4 * n), (c + o.1, pm), (c + o.2.1, d), (f 896 56, 16)] ++
         (if f 832 56 = 0 then [] else [(f 832 56, 12)])).all (fun p => p.2 == 0 || s.rangeReach 4 asid (BitVec.ofNat 64 p.1) p.2)))

/-- LAUNCH_START, or LAUNCH_REJECT, of a command taken. -/
def State.startLaunch (s : State) (q n prio : Nat) (qasid : BitVec 16) (recva : DWord) : State :=
  match s.peek qasid recva 160 with
  | none => s.completeCmd q n
  | some l =>
    let f := fieldOf l
    let asid : BitVec 16 := BitVec.ofNat 16 (f 320 16)
    let x := s.structs asid f
    let c := s.recCheck qasid f x
    let s := s.countStructs qasid recva asid f x
    let reject (c : Nat) : State := (s.writeTry asid (BitVec.ofNat 64 (f 896 56)) (doneRecord n 0 c true)).completeCmd q n
    match c with
    | 0 =>
      (match s.fillContext asid (BitVec.ofNat 64 (f 768 56)) x with
       | none => reject 9
       | some t =>
         let t := if f 832 56 = 0 then t else t.writeTry asid (BitVec.ofNat 64 (f 832 56 + 4)) (List.replicate 8 0)
         (t.setLaunch t.nextId (recLaunch f x q n prio)).bumpId)
    | c => reject c

/-- DISPATCH_TAKE_COMMAND; a launch is taken once nothing that it names lies behind a closed way. -/
def execDispatchTakeCommand (s : State) : Result :=
  match s.pickQueue with
  | none => .next s
  | some q =>
    let Q := s.queue q
    let c := s.headCmd Q
    let n := Q.qtl.issue + 1
    if c.kind = 1 && !s.launchReach Q.asid c.recva then .next s else
    let s := s.countD Q.asid Q.slot 64 false
    let s := (s.setQueue q { Q with head := Q.head + 1, qtl := Q.qtl.next }).setDev { s.dev with served := Fmap.set 0 s.dev.served Q.prio (q + 1) }
    .next (if c.kind = 1 then s.startLaunch q n Q.prio Q.asid c.recva else s.completeCmd q n)

/-- LAUNCH_COMPLETE: every block has retired and every write of the launch is performed. -/
def execLaunchComplete (lid : Nat) (s : State) : Result :=
  let L := s.launch lid
  if !L.present ∨ L.retired ≠ L.nblocks ∨ s.accList.any (fun p => p.2.lid == lid && !isSys p.2.wk) ∨ !s.rangeReach 4 L.asid L.doneva 16 then .next s
  else .next (((s.writeTry L.asid L.doneva (doneRecord L.cmdnum L.written 0 L.failed)).setLaunch lid {}).completeCmd L.qnum L.cmdnum)

/-! ### The register window (R311, R314, R322) -/

/-- BAR0 and BAR2 as the host's addresses here: 2^60 and 2^61, and the offset (log 23). -/
abbrev bar0 : Nat := 2 ^ 60
abbrev bar2 : Nat := 2 ^ 61

/-- The boot status word. -/
def State.bootWord (s : State) : Nat := s.dev.bootState * 2 ^ 28 + s.dev.bootErr.toNat
/-- The mailbox status word of a die (R322). -/
def Die.boxWord (d : Die) : Nat := (if d.ovr then 2 ^ 31 else 0) + d.mbox.length
/-- A queue descriptor (R267). -/
def WQueue.bits (q : WQueue) : Nat :=
  q.qtl.comp % 2 ^ 64 * 2 ^ 128 + q.head.toNat * 2 ^ 96 + q.asid.toNat * 2 ^ 72 + (if q.en then 2 ^ 71 else 0) + q.prio * 2 ^ 68 + q.log2 * 2 ^ 64 +
    q.ring.toNat % 2 ^ 56

def natByte (x i : Nat) : Byte := BitVec.ofNat 8 (x / 256 ^ i)

/-- A byte of BAR0. -/
def State.bar0Byte (s : State) (o : Nat) : Byte :=
  if o < 4 then natByte s.bootWord o
  else if 0x1000 ≤ o ∧ o < 0x1400 ∧ 8 ≤ o % 256 ∧ o % 256 < 12 then natByte (s.die ((o - 0x1000) / 256)).boxWord (o % 256 - 8)
  else if 0x200000 ≤ o ∧ o < 0x400000 then natByte (s.queue ((o - 0x200000) / 32)).bits (o % 32)
  else if 0x2000000 ≤ o ∧ o < 0x4000000 then Fmap.get 0 s.dev.window (o - 0x2000000)
  else 0

/-- A byte of BAR2: the TAIL of a doorbell. -/
def State.bar2Byte (s : State) (o : Nat) : Byte :=
  if o < 0x10000000 ∧ o % 4096 < 4 then natByte (s.queue (o / 4096)).tail.toNat (o % 4096) else 0

/-- A host write of one byte of a descriptor; HEAD, QTL and ZERO fields stay. -/
def WQueue.putByte (q : WQueue) (i : Nat) (b : Byte) : WQueue :=
  let x := q.bits - q.bits / 256 ^ i % 256 * 256 ^ i + b.toNat * 256 ^ i
  { q with ring := BitVec.ofNat 64 (x % 2 ^ 56), log2 := x / 2 ^ 64 % 16, prio := x / 2 ^ 68 % 8, en := x / 2 ^ 71 % 2 = 1,
           asid := BitVec.ofNat 16 (x / 2 ^ 72) }

/-- Bytes of descriptors and of the recovery window, one by one. -/
def State.bar0Put (s : State) (o : Nat) : List Byte → State
  | [] => s
  | b :: r =>
    let s1 :=
      if 0x200000 ≤ o ∧ o < 0x400000 then s.setQueue ((o - 0x200000) / 32) ((s.queue ((o - 0x200000) / 32)).putByte (o % 32) b)
      else if 0x2000000 ≤ o ∧ o < 0x4000000 ∧ s.dev.bootState = 3 then s.setDev { s.dev with window := Fmap.set 0 s.dev.window (o - 0x2000000) b }
      else s
    s1.bar0Put (o + 1) r

/-- A host write to the register window. The start of a recovery is the step RECOVERY_START. -/
def State.barWrite (s : State) (pa : Nat) (data : List Byte) : State :=
  if bar2 ≤ pa then
    (if pa - bar2 < 0x10000000 ∧ (pa - bar2) % 4096 = 0 ∧ data.length = 4 then s.ringBell ((pa - bar2) / 4096) (bytesVal 32 data) else s)
  else
    let o := pa - bar0
    if 0x1000 ≤ o ∧ o < 0x1400 then
      (if o % 256 = 0 ∧ data.length = 8 then s.hostMbox ((o - 0x1000) / 256) (bytesVal 64 data)
       else if o % 256 = 8 ∧ data.length = 4 then s.ovrClear ((o - 0x1000) / 256) (bytesVal 64 data)
       else s)
    else s.bar0Put o data

/-! ### Host accesses (R312, R368) -/

/-- Host requests of a range reach their slices; they count for channels, not for groups. -/
def State.hostCount (s : State) (pa n : Nat) (wr : Bool) : State :=
  if n = 0 then s else
  foldS ((List.range ((pa + n - 1) / 128 - pa / 128 + 1)).map (fun k => pa / 128 + k)) s (fun s l => s.countReq 0 (128 * l) wr none)

/-- What a host address reaches (R310): device memory through the HDM decoder whose range holds it, or memory of the host's own, which
stands at 2^51 (R252). -/
def State.hdmPA (s : State) (ha n : Nat) : Option Nat :=
  if n = 0 then none
  else if s.dev.hdm0 ≤ ha ∧ ha + n ≤ s.dev.hdm0 + 0x8000000000 then some (ha - s.dev.hdm0)
  else if s.dev.hdm1 ≤ ha ∧ ha + n ≤ s.dev.hdm1 + 0x10000000000 then some (0x10000000000 + (ha - s.dev.hdm1))
  else if tierOf ha = some 2 ∧ tierOf (ha + n - 1) = some 2 then some ha
  else none

/-- A host's read is performed: an uncorrectable word returns poisoned data. Physical addresses are placed under hash entry 0 (log 24). -/
def State.hostRead (s : State) (pa n : Nat) (ecc : Ecc) : State :=
  if bar2 ≤ pa then s.emit (.hostData pa ((List.range n).map (fun i => s.bar2Byte (pa - bar2 + i))) false)
  else if bar0 ≤ pa then s.emit (.hostData pa ((List.range n).map (fun i => s.bar0Byte (pa - bar0 + i))) false)
  else match s.hdmPA pa n with
    | none => s
    | some a =>
      let s := (s.hostCount a n false).eccAt 0 a ecc
      s.emit (.hostData pa (s.readMem 0 a n) (s.badAt 0 a n))

/-- A host's write is performed. -/
def State.hostWrite (s : State) (pa : Nat) (data : List Byte) : State :=
  if bar0 ≤ pa then s.barWrite pa data
  else match s.hdmPA pa data.length with
    | none => s
    | some a => (s.hostCount a data.length true).writeMem 0 a data

def HostReq.addr : HostReq → Nat
  | .read a _ _ => a
  | .write a _ => a
def HostReq.size : HostReq → Nat
  | .read _ n _ => n
  | .write _ l => l.length

/-- The dies that a host access goes to from X0: for device memory those of its lines with their addresses, for a mailbox its own. -/
def State.hostTo (s : State) (q : HostReq) : List (Nat × Nat) :=
  if bar0 ≤ q.addr then
    (if q.addr - bar0 < 0x1400 ∧ 0x1000 ≤ q.addr - bar0 then [((q.addr - bar0 - 0x1000) / 256, 0)] else [])
  else match s.hdmPA q.addr q.size with
    | none => []
    | some a => (List.range ((a + q.size - 1) / 128 - a / 128 + 1)).map (fun k => (dieOfPa s.dev.chtab 0 (128 * (a / 128 + k)), 128 * (a / 128 + k)))

/-- A host access behind others that wait: a way of it is closed, or one of them goes to the same die before it (R303, R307, R393). -/
def State.hostBehind (s : State) (l : List HostReq) (q : HostReq) : Bool :=
  s.links != [] && ((s.hostTo q).any (fun x => !s.routeOpen 4 x.1 x.2) ||
    l.any (fun r => (s.hostTo r).any (fun y => (s.hostTo q).any (fun x => x.1 == y.1))))

def State.hostGo (s : State) : HostReq → State
  | .read a n e => s.hostRead a n e
  | .write a l => s.hostWrite a l

/-- A host access, or its wait at a closed way. -/
def State.hostTake (s : State) (q : HostReq) : State :=
  if s.hostBehind s.dev.hostWait q then s.setDev { s.dev with hostWait := s.dev.hostWait ++ [q] } else s.hostGo q

/-- The first host access that need not wait any more is performed. -/
def State.hostMove (s : State) : State :=
  let l := s.dev.hostWait
  match (List.range l.length).find? (fun i => match l[i]? with
      | some q => !s.hostBehind (l.take i) q
      | none => false) with
  | none => s
  | some i => match l[i]? with
    | none => s
    | some q => (s.setDev { s.dev with hostWait := l.eraseIdx i }).hostGo q

/-- HOST_MEM_READ. -/
def execHostMemRead (pa n : Nat) (ecc : Ecc) (s : State) : Result := .next (s.hostTake (.read pa n ecc))

/-- HOST_MEM_WRITE. -/
def execHostMemWrite (pa : Nat) (data : List Byte) (s : State) : Result := .next (s.hostTake (.write pa data))

/-! ### Boot and recovery (R210, R314) -/

/-- The boot status changes, and MSI-X vector 0 is raised (R311). -/
def State.setBoot (s : State) (st : Nat) (err : BitVec 16) : State :=
  if s.dev.bootState = st ∧ s.dev.bootErr = err then s
  else (s.setDev { s.dev with bootState := st, bootErr := err }).emit (.msix 0)

/-- Bytes 0 of a 64 KiB page, good again: the ROM clears it (lines stay within their page under R260). -/
def State.clearPage (s : State) (ppn : Nat) : State :=
  { s with mem := s.mem.filter (fun p => p.1 / 65536 != ppn), bad := s.bad.filter (fun p => p.1 / 2048 != ppn) }

/-- A table entry is written. -/
def State.putEntry (s : State) (pa : Nat) (e : BitVec 128) : State := s.writeMem 0 pa (leBytes 16 e.toNat)

/-- An entry that leads to table n (R254): V and NEXT. -/
def bootNext (n : Nat) : BitVec 128 := BitVec.ofNat 128 ((Config.bootTable n).toNat * 65536 + 1)
def bootTabPA (n : Nat) : Nat := (Config.bootTable n).toNat * 65536

/-- Maps a page of ASID 0 below a table, making the tables that are missing; `n` is the next table. -/
def State.bootWalk (s : State) (va : DWord) (leaf : BitVec 128) (tab n : Nat) : Nat → State × Nat
  | 0 => (s.putEntry (tab + 16 * vaIndex va 0) leaf, n)
  | lv + 1 =>
    let pa := tab + 16 * vaIndex va (lv + 1)
    let e : BitVec 128 := bytesVal 128 (s.readMem 0 pa 16)
    if e.getLsbD 0 then s.bootWalk va leaf ((e.extractLsb' 16 36).toNat * 65536) n lv
    else ((s.clearPage (Config.bootTable n).toNat).putEntry pa (bootNext n)).bootWalk va leaf (bootTabPA n) (n + 1) lv

/-- A leaf of ASID 0 (R210, R254): KIND RC and the permissions given, in bits 5 to 3. -/
def bootLeaf (ppn perm : Nat) : BitVec 128 :=
  BitVec.ofNat 128 (2 ^ 74 + (tierOf (ppn * 65536)).getD 0 * 2 ^ 72 + ppn % 2 ^ 36 * 65536 + perm * 8 + 5)

/-- Maps `size` bytes from a page on. -/
def State.bootMap (x : State × Nat) (page : BitVec 40) (ppn : BitVec 36) (perm size : Nat) : State × Nat :=
  (List.range ((size + 65535) / 65536)).foldl (fun x k =>
    x.1.bootWalk (BitVec.ofNat 64 ((page.toNat + k) * 65536)) (bootLeaf (ppn.toNat + k) perm) (bootTabPA 1) x.2 3) x

/-- The tables of ASID 0 (R210): the code of each kernel with R and X, its data and its stack with R and W. -/
def State.bootTables (s : State) (f : Firmware) : State :=
  let s := (((s.clearPage (Config.bootTable 0).toNat).clearPage (Config.bootTable 1).toNat).putEntry (bootTabPA 0) (bootNext 1)).setDev
    { s.dev with asidtab := BitVec.ofNat 64 (bootTabPA 0) }
  (((f.kernels.take 8).zipIdx).foldl (fun x q =>
    if q.1.code = [] then x else
    let p := Config.bootPlace q.2
    let x := State.bootMap x p.codePage p.codePPN 5 q.1.code.length
    let x := State.bootMap x p.dataPage p.dataPPN 3 q.1.data.length
    State.bootMap x p.stackPage p.stackPPN 3 q.1.stklim) (s, 2)).1

/-- Virtual and physical addresses of a page. -/
def pageVA (p : BitVec 40) : DWord := BitVec.ofNat 64 (p.toNat * 65536)

/-- SYSTEM_WARP_START: code and data are placed, and the warp starts. -/
def State.startSystem (s : State) (i : Nat) (k : SysKernel) : State :=
  if k.code = [] then s else
  let p := Config.bootPlace i
  let wk := sysKey (i / 2) (i % 2)
  let s := (s.writeMem 0 (p.codePPN.toNat * 65536) k.code).writeMem 0 (p.dataPPN.toNat * 65536) k.data
  let s := s.setWarp wk { alive := true, wslot := 256 + i % 2, alloc := { nv := k.nv, ns := k.ns, np := k.np, win := k.w },
                          s := Fmap.setList 0 [] 0 (k.init.take 8), dseg := pageVA p.dataPage, stkbase := pageVA p.stackPage, stklim := BitVec.ofNat 32 k.stklim }
  foldS (List.range 32) s (fun s t => s.setThread wk t (startThread (pageVA p.codePage) 0))

/-- A verified image runs. -/
def State.runImage (s : State) (f : Firmware) : State :=
  let s := (s.setDev { s.dev with image := f.raw }).bootTables f
  foldS ((f.kernels.take 8).zipIdx) s (fun s p => s.startSystem p.2 p.1)

/-- The ROM verifies an image: 0, or the ERR of the boot status. Where both checks fail it reports the signature, which it needs before it
may trust the format: DESIGN CHOICE (log 66). -/
def imageErr (f : Firmware) : BitVec 16 := if !Config.signatureGood f.raw then 1 else if !Config.imageFormatGood f.raw then 2 else 0

/-- POWER_ON_BOOT: the ROM verifies the image in the flash, and runs it or enters recovery. -/
def execPowerOnBoot (image : Option Firmware) (s : State) : Result :=
  if s.dev.bootState ≠ 0 then .next s else
  let s := s.setBoot 1 0
  match image with
  | none => .next (s.setBoot 3 3)
  | some f => if imageErr f = 0 then .next ((s.runImage f).setBoot 2 0) else .next (s.setBoot 3 (imageErr f))

/-- The recovery window holds an image. -/
def State.windowHolds (s : State) (l : List Byte) : Bool :=
  l.length ≤ 33554432 && l.zipIdx.all (fun p => Fmap.get 0 s.dev.window p.2 == p.1)

/-- RECOVERY_START: the image in the window is verified, written to the flash and run. -/
def execRecoveryStart (image : Firmware) (s : State) : Result :=
  if s.dev.bootState ≠ 3 || !s.windowHolds image.raw then .next s
  else
    let s := s.setBoot 1 0
    if imageErr image = 0 then .next (((s.emit (.flash image.raw)).runImage image).setBoot 2 0) else .next (s.setBoot 3 (imageErr image))

/-- DEVICE_RESET: everything is at its reset value but memory and its check codes, the outputs given, and the model's own
counts (log 25). The boot status word that goes back to 0 raises no MSI-X, whose table the reset clears: DESIGN CHOICE (log 66). -/
def execDeviceReset (s : State) : Result :=
  .next { State.reset with mem := s.mem, bad := s.bad, agenda := s.agenda, out := s.out, fresh := s.fresh }

/-! ### Attestation (R315) -/

/-- A reply: what the manual says of it, and a free value for the rest, whose bytes are in DMTF SPDM 1.2 (log 2). -/
def State.spdmReply (s : State) (request : Nat) (l : List Byte) : Result :=
  let x := s.free
  .next (x.2.emit (.spdm request (l ++ leBytes 8 x.1.toNat)))

/-- GET_VERSION: version 1.2. -/
def execSpdmGetVersion (s : State) : Result := s.spdmReply 0x84 (leBytes 2 0x1200)
def execSpdmGetCapabilities (s : State) : Result := s.spdmReply 0xE1 []
/-- NEGOTIATE_ALGORITHMS: of the asymmetric algorithms RSASSA-3072 alone, of the hashes SHA-256 alone (DSP0274: bit 2 and bit 0). -/
def execSpdmNegotiateAlgorithms (s : State) : Result := s.spdmReply 0xE3 (leBytes 4 4 ++ leBytes 4 1)
/-- GET_CERTIFICATE: the device identity key. -/
def execSpdmGetCertificate (s : State) : Result := s.spdmReply 0x82 (leBytes 384 Config.identityKey.toNat)
/-- CHALLENGE: a signature with that key over the SHA-256 digest of the exchange, which stands as a free value. -/
def execSpdmChallenge (s : State) : Result :=
  let x := s.free
  x.2.spdmReply 0x83 (leBytes 384 (Config.identitySign (Config.sha256 (leBytes 8 x.1.toNat))).toNat)
/-- GET_MEASUREMENTS: the digest of the running image and the fused key hash. -/
def execSpdmGetMeasurements (s : State) : Result :=
  .next (s.emit (.spdm 0xE0 (leBytes 32 (Config.sha256 s.dev.image).toNat ++ leBytes 32 Config.fusedKeyHash.toNat)))

/-! ### Fatal errors (R398), power and temperature (R316, R399) -/

/-- FATAL_DEVICE_ERROR: the device stops and reports to the host. -/
def State.stopDevice (s : State) : State := if s.fatal then s else ({ s with fatal := true } : State).emit .fatal

def execDispatcherTableError (s : State) : Result := .next s.stopDevice

/-- THERMAL_TRIP. -/
def State.trip (s : State) (ptemp : Nat) : State := ((s.setDev { s.dev with ptemp := ptemp }).stopDevice).emit .powerRemoved
def execThermalTrip (ptemp : Nat) (s : State) : Result := if 115 ≤ ptemp then .next (s.trip ptemp) else .next s

/-- m drops to 16 at once. -/
def State.slow (s : State) (d : Dev) : State := s.setDev { d with m := 16, hot := true }

/-- THERMAL_EMERGENCY: 105 degrees or a current-limit alarm. -/
def execThermalEmergency (ptemp : Nat) (alarm : Bool) (s : State) : Result :=
  if 105 ≤ ptemp || alarm then .next (s.slow { s.dev with ptemp := ptemp, emergency := true }) else .next s
def execCoolantFlowLost (s : State) : Result := .next (s.slow { s.dev with coolantLost := true })
def execCoolantFlowReturn (s : State) : Result := .next (s.setDev { s.dev with coolantLost := false })

/-- THERMIDOR_TICK: the rule of R316 (an m that stays below `%pcap` does so because of power), held off while an emergency of R399 lasts; one that no temperature shows any more has
cleared. -/
def execThermidorTick (pwr ptemp : Nat) (s : State) : Result :=
  if 115 ≤ ptemp then .next (s.trip ptemp) else
  let d := { s.dev with pwr := pwr, ptemp := ptemp, emergency := 105 ≤ ptemp }
  if d.emergency || d.coolantLost then .next (s.slow d) else
  let cap := d.pcap.toNat % 64
  let lim := d.plimit.toNat % 4096
  if cap < d.m then .next (s.setDev { d with m := cap, hot := false })
  else if lim < pwr ∨ 95 ≤ ptemp then .next (s.setDev { d with m := max 16 (d.m - 1), hot := true })
  else if pwr + 50 < lim ∧ d.m < cap then .next (s.setDev { d with m := d.m + 1, hot := d.hot && d.m + 1 < cap })
  else .next (s.setDev { d with hot := d.m < cap })

/-! ### Link, network and buffer errors (R393, R395) -/

/-- UCIE_FLIT_CRC_ERROR: counted, or the module pauses itself and keeps the failed flit for replay, with the packet of an access that
crosses it. -/
def execUcieFlitCrcError (module : Nat) (fate : FlitFate) (s : State) : Result :=
  if 40 ≤ module then .next s else
  let l := s.link (false, module)
  match fate with
  | .retried => .next (s.setLink (false, module) { l with retry := min 65535 (l.retry + 1) })
  | .failed aid =>
    let s := s.setLink (false, module) { l with retry := 65535, paused := true, kept := l.kept + 1 }
    .next (match aid with
      | none => s
      | some i => match s.acc i with
        | none => s
        | some a => if a.stuck.isNone && s.crosses module a then s.setAcc i (some { a with stuck := some module }) else s)

/-- NOC_FLIT_CRC_ERROR: a hop that fails lastingly leaves the adaptive choices; downward it is fatal. -/
def execNocFlitCrcError (retryOk downward : Bool) (hop : Nat) (s : State) : Result :=
  if retryOk then .next s
  else if downward then .next s.stopDevice
  else if s.dev.hopsOff.contains hop then .next s
  else .next (s.setDev { s.dev with hopsOff := s.dev.hopsOff ++ [hop] })

/-- A lane's packet of data is poisoned: a response fails its access; a write leaves the words it covers uncorrectable. -/
def State.poisonAccess (s : State) (i : Nat) : State :=
  match s.acc i with
  | none => s
  | some a =>
    if a.reads then (if a.st = .served then s.failAccs [(i, a)] cUNCORR else s)
    else if s.mayServe i a then (s.markBad a.swz a.pa a.n).setAcc i none
    else s

/-- SWITCH_PARITY_ERROR: fatal in a control flit. The packet of a data beat is poisoned: that of a lane's access, or the next of an
engine command, a fabric port or a schedule, which its unit finds when it reads or writes (R368, R371, R384). -/
def execSwitchParityError (control : Bool) (packet : Packet) (s : State) : Result :=
  if control then .next s.stopDevice else
  .next (match packet with
    | .none => s
    | .access i => s.poisonAccess i
    | .command i => s.modCmd i (fun c => { c with parity := true })
    | .port p => s.modPort p (fun P => { P with parity := true })
    | .schedule k => s.setSched k { s.sched k with run := (s.sched k).run.map (fun r => { r with parity := true }) })

end Sys2Proof.Machine
end

