-- ==== Sys2Proof/Machine/Release.lean ====
section
/-! DEFINITION. Releases that were held take effect (R173, R246), and the waits that end when their condition holds: for a
timeline (R193), a barrier object (R197), an event (R212), a notice or a notice slot (R188), performed accesses (R246,
R362). -/

namespace Sys2Proof.Machine

/-! ### Releases (R246) -/

/-- A signature whose earlier accesses are performed: the thread signs, or raises `join` in its instruction, or still waits
for the round it has signed. -/
def State.signNow (s : State) (wk t k : Nat) (i : Instr) (hold : Hold) : State :=
  match s.signHold wk t k i ((s.thread wk t).pc - 12) hold with
  | .signed s1 => s1
  | .join => s.raise wk t kJoin ((s.thread wk t).pc - 12) 0
  | .wait => s

/-- Threads of a warp that made one release together. -/
def State.relGroup (s : State) (wk : Nat) (h : Hold) : List Nat := (List.range 32).filter (fun t => (s.thread wk t).live && (s.thread wk t).hold == h)

/-- A release of the warp as a whole: its threads continue, then its effect. -/
def State.relOnce (s : State) (wk : Nat) (ts : List Nat) (f : State → State) : State := f (foldS ts s (fun s t => s.release wk t))

/-- The effect of a release made by thread t, or by the threads `ts` together, whose earlier accesses are performed. -/
def State.relAct (s : State) (wk t : Nat) (ts : List Nat) : Act → State
  | .fence _ => s.release wk t
  | .bar id n => (s.release wk t).barArrive wk t id n
  | .gbar g => (s.release wk t).gbarArrive wk t g
  | .abarv o d _ _ => if s.obReady o then s.relOnce wk ts (fun s => (s.undue wk d).obArrive o d) else s
  | .sign k i => s.signNow wk t k i (.sign k)
  | .rconv k p lim i => s.signNow wk t k i (.rconv k p (s.clk + lim))
  | .kick dst n => (s.release wk t).kick wk t dst n
  | .sysc code arg d mask =>
    if (s.die (dieOf (coreOf wk))).sysq.length ≥ 64 then s else s.relOnce wk ts (fun s => s.sysRequest wk code arg d mask)
  | .eret id res => s.relOnce wk ts (fun s => s.endSyscall (sysDie wk) id res)
  | .ack k lane => s.relOnce wk ts (fun s => s.sendAck k (coreOf wk) lane)

/-- Releases that the threads of an instruction make together. -/
def Act.together : Act → Bool
  | .abarv _ _ uni _ => uni
  | .sysc _ _ _ _ => true
  | .eret _ _ => true
  | .ack _ _ => true
  | _ => false

/-- The held release of a thread may take effect: of those that act for it, none has an earlier access unperformed. -/
def State.relReady (s : State) (wk t : Nat) : Bool :=
  match (s.thread wk t).hold with
  | .release n sg a =>
    if a.together then (s.relGroup wk (.release n sg a)).all (fun u => !s.relDue wk u n sg a) else !s.relDue wk t n sg a
  | _ => false

def State.relTake (s : State) (wk t : Nat) : State :=
  match (s.thread wk t).hold with
  | .release n sg a => if s.relReady wk t then s.relAct wk t (if a.together then s.relGroup wk (.release n sg a) else [t]) a else s
  | _ => s

/-- RELEASE_TAKES_EFFECT. -/
def execReleaseTakesEffect (wk t : Nat) (s : State) : Result := .next (s.relTake wk t)

/-! ### Waits that end -/

/-- The KWAIT number of a held thread. -/
def kwaitNum : Hold → Option (Nat × Option (BitVec 20))
  | .kwait n tag _ => some (n, tag)
  | _ => none

/-- A warp whose block is on its core; a notice stays in its slot until it is (R49). -/
def State.onItsCore (s : State) (wk : Nat) : Bool := isSys wk || (s.block (bkOf wk)).resident

/-- The oldest KWAIT of a warp that a notice answers takes the oldest such notice (R188): its D of every thread it holds. -/
def State.kwaitTake (s : State) (wk : Nat) : State :=
  let ns := (List.range 32).filterMap (fun t => kwaitNum (s.thread wk t).hold)
  match ns.filter (fun p => s.onItsCore wk && (s.notice wk p.2).isSome) with
  | [] => s
  | p :: ps =>
    let m := ps.foldl (fun a b => if b.1 < a.1 then b else a) p
    match s.notice wk m.2 with
    | none => s
    | some (i, n) =>
      foldS (List.range 32) (s.dropNotice (coreOf wk) i) (fun s t =>
        match (s.thread wk t).hold with
        | .kwait k _ ls => if k = m.1 then (s.deliverTo wk ls (wordsOf 4 n.toNat)).release wk t else s
        | _ => s)

/-- The wait of a thread is over. -/
def State.wakeable (s : State) (wk t : Nat) : Bool :=
  match (s.thread wk t).hold with
  | .tlwait c sid n => n.toNat ≤ s.tlComp wk c sid
  | .abwait o ph _ => s.obReady o && s.obPhase o != ph
  | .halt => s.wakes wk
  | .log aids => aids.all (fun i => (s.acc i).isNone)
  | .kick dst _ => s.kickCount dst.core < 16
  | .kwait _ tag _ => s.onItsCore wk && (s.notice wk tag).isSome
  | .release _ _ _ => s.relReady wk t && s.relTake wk t != s
  | _ => false

/-- It continues. -/
def State.wake (s : State) (wk t : Nat) : State :=
  match (s.thread wk t).hold with
  | .tlwait _ _ _ => s.release wk t
  | .abwait _ _ _ => s.release wk t
  | .halt => foldS (s.heldBy wk (fun h => h == .halt)) s (fun s u => s.release wk u)
  | .log _ => s.release wk t
  | .kick dst n => (s.release wk t).kick wk t dst n
  | .kwait _ _ _ => s.kwaitTake wk
  | .release _ _ _ => s.relTake wk t
  | _ => s

/-- The first thread whose wait is over. -/
def State.nextWake (s : State) : Option (Nat × Nat) :=
  (s.threads.find? (fun p => p.2.hold != .none && s.wakeable (p.1 / 32) (p.1 % 32))).map (fun p => (p.1 / 32, p.1 % 32))

end Sys2Proof.Machine
end

