-- ==== Sys2Proof/Machine/Run.lean ====
section
/-! DEFINITION. Fetching (R77, R348, R356), the choice of a group and its run (R36 to R40, R280), the delivery of traps
(R339) and the stop of a warp (R319). -/

namespace Sys2Proof.Machine

/-! ### Fetching -/

/-- What a fetch comes to: a word, a page that is not present, or the `fetch` trap. -/
inductive FetchRes where
  | word (w : BitVec 96)
  | page (va : DWord) (level : Nat)
  | trap
  /-- No way to the memory slice is open now (R393). -/
  | away
  deriving DecidableEq, Repr

/-- Translates and reads the pieces of an instruction; each is a request for its lines (R263, R265). -/
def State.fetchGo (s : State) (core : Nat) (asid : BitVec 16) : List (DWord × Nat) → List Byte → (Except FetchRes (List Byte)) × State
  | [], l => (.ok l, s)
  | q :: qs, l =>
    if !s.walkReach core none asid q.1 then (.error .away, s) else
    match s.xlate core none asid q.1 .x with
    | (.error (c, lv), s1) => (.error (if c = cNOTPRES then .page q.1 lv else .trap), s1)
    | (.ok x, s1) =>
      if !s1.reach core x.swz x.pa then (.error .away, s1)
      else if s1.badAt x.swz x.pa q.2 then (.error .trap, s1)
      else (s1.countLines x q.2 false).fetchGo core asid qs (l ++ s1.readMem x.swz x.pa q.2)

/-- The twelve bytes at a PC of a warp, all three words as memory stands at the fetch: of code that is overwritten while it may run,
where R78 lets each word be old or new, none is older than another. DESIGN CHOICE (log 66). -/
def State.fetchWord (s : State) (wk : Nat) (pc : DWord) : FetchRes × State :=
  if pc.toNat % 12 ≠ 0 ∨ 2 ^ 56 ≤ pc.toNat then (.trap, s) else
  match s.fetchGo (coreOf wk) (s.warp (parent wk)).asid (pieces pc 12 2) [] with
  | (.ok l, s1) => (.word (BitVec.ofNat 96 (leNat l)), s1)
  | (.error r, s1) => (r, s1)

/-! ### Eligibility (R36) -/

/-- Instructions whose readiness is more than that of the registers their operands name, as they would pass the lane. -/
def tryExec (s : State) : Instr → Option Result
  | .mov h d a => some (execMov h d a s)
  | .movx h sp d a b => some (execMovx h sp d a b s)
  | .stx h sp d a b => some (execStx h sp d a b s)
  | .shfl h m d a b => some (execShfl h m d a b s)
  | .bcast h d a b => some (execBcast h d a b s)
  | .expw h sc g d a b => some (execExpw h sc g d a b s)
  | .revw h d => some (execRevw h d s)
  | .bindw h d a => some (execBindw h d a s)
  | .setf h d => some (execSetf h d s)
  | .clrf h d => some (execClrf h d s)
  | .frame h d a => some (execFrame h d a s)
  | .unframe h d a => some (execUnframe h d a s)
  | .fpack h r sl d a b => some (execFpack h r sl d a b s)
  | .funpack h sl d a b => some (execFunpack h sl d a b s)
  | .p2v h ty d => some (execP2v h ty d s)
  | .ld h z d a b => some (execLd h z d a b s)
  | .st h z d a b => some (execSt h z d a b s)
  | .stl h sc z d a b => some (execStl h sc z d a b s)
  | .red h o t p a b => some (execRed h o t p a b s)
  | .lda h sc z d a b => some (execLda h sc z d a b s)
  | .atom h o t p d a b => some (execAtom h o t p d a b s)
  | .cpy h z dsp ssp d a b => some (execCpy h z dsp ssp d a b s)
  | .cpym h g d a => some (execCpym h g d a s)
  | .tcopy h st kvm g d a b => some (execTcopy h st kvm g d a b s)
  | .tsld h g d a b => some (execTsld h g d a b s)
  | .tsev h g d => some (execTsev h g d s)
  | .pull h ack g d a => some (execPull h ack g d a s)
  | .abinit h d a => some (execAbinit h d a s)
  | .abexp h d a => some (execAbexp h d a s)
  | .abarv h d a => some (execAbarv h d a s)
  | .abwait h a b => some (execAbwait h a b s)
  | .sign h a => some (execSign h a s)
  | .rconv h d a b => some (execRconv h d a b s)
  | .sysc h d a b => some (execSysc h d a b s)
  | .mma h g k sl d a b => some (execMma h g k sl d a b s)
  | .att h g k sl d a b => some (execAtt h g k sl d a b s)
  | .attfin h g k d a => some (execAttfin h g k d a s)
  | .ladinit h g k d a b => some (execLadinit h g k d a b s)
  | .ladpush h g k d a => some (execLadpush h g k d a s)
  | .ladread h g k d a b => some (execLadread h g k d a b s)
  | .ladld h g k d a b => some (execLadld h g k d a b s)
  | .wld h g n d a b => some (execWld h g n d a b s)
  | .aclr h g st d => some (execAclr h g st d s)
  | .ald h g reg d a b => some (execAld h g reg d a b s)
  | .asto h g r int sl d a => some (execAsto h g r int sl d a s)
  | .wqpost h a b => some (execWqpost h a b s)
  | .tarm h time c a b => some (execTarm h time c a b s)
  | .cntadd h aft set d a b => some (execCntadd h aft set d a b s)
  | .sched h a => some (execSched h a s)
  | .kwait h tag d a => some (execKwait h tag d a s)
  | .cntrd h d a => some (execCntrd h d a s)
  | .mfsr h d a => some (execMfsr h d a s)
  | .fbrd h d a => some (execFbrd h d a s)
  | .lnkctlStat h d a b => some (execLnkctlStat h d a b s)
  | .winqPush h a => some (execWinqPush h a s)
  | .winqPop h d => some (execWinqPop h d s)
  | _ => none

/-- The run waits at its instruction for something other than a row of its stack, which only the attempt asks for. -/
def State.stalledAt (s : State) (key wk : Nat) : Bool :=
  ((s.run key).map (fun r => r.stalled)).getD false && (s.warp wk).stkNeed.isNone

/-- A first instruction is ready for every member, whatever its guard; one that fails a check of R91 is. -/
def State.firstReady (s : State) (key wk : Nat) (pc : DWord) (members : Word) (i : Instr) : Bool :=
  match i.sig, i.hdr with
  | some g, some h =>
    let r := { newRun wk pc members with act := some members }
    let s1 := { s.setRun key (some r) with focus := key }
    (s.fate wk i).isSome ||
    ((maskList members).all (fun t => s.prep wk t h g != .wait && !s.acqDue wk t) && s.indRoom r g && (s1.pops key wk g).isSome &&
      (match tryExec s1 i with
       | some (.next s2) => !s2.stalledAt key wk
       | _ => true))
  | _, _ => true

/-! ### Groups (R30, R37) -/

/-- A group: its PC, its members and its wait. -/
structure Group where
  pc   : DWord
  mem  : Word
  wait : Nat
  deriving DecidableEq, Repr

/-- Inserts a thread into a table of groups with rising PCs. -/
def insGroup (pc : DWord) (t wait : Nat) : List Group → List Group
  | [] => [⟨pc, bit1 t, wait⟩]
  | g :: gs =>
    if pc = g.pc then ⟨g.pc, g.mem ||| bit1 t, max g.wait wait⟩ :: gs
    else if pc.toNat < g.pc.toNat then ⟨pc, bit1 t, wait⟩ :: g :: gs
    else g :: insGroup pc t wait gs

/-- The groups of a warp's table, lowest PC first. -/
def State.groupsOf (s : State) (wk : Nat) : List Group :=
  (maskList (s.liveMask wk)).foldl (fun l t => insGroup (s.thread wk t).pc t (s.thread wk t).wait.toNat l) []

/-- Groups in the order step 1 of R37 takes them. -/
def insWait (g : Group) : List Group → List Group
  | [] => [g]
  | x :: l => if x.wait < g.wait then g :: x :: l else x :: insWait g l

/-- The order in which groups are examined: those at or above `%patience`, the greatest wait first, then all by PC. -/
def State.groupOrder (s : State) (wk : Nat) : List Group :=
  let gs := s.groupsOf wk
  (gs.filter (fun g => (s.warp wk).patience.toNat ≤ g.wait)).foldl (fun l g => insWait g l) [] ++ gs

/-- The run of a group is eligible: no member is held, and its first instruction, if it can be fetched, is ready. -/
def State.groupReady (s : State) (key wk : Nat) (g : Group) : Bool :=
  (maskList g.mem).all (fun t => !s.isHeld wk t) &&
  !((maskList g.mem).any (fun t => (s.thread wk t).ftag.isSome) && s.replaying (dieOf (coreOf wk))) &&
  (match (s.fetchWord wk g.pc).1 with
   | .word w =>
     (match decodeWord w with
      | .ok i => s.firstReady key wk g.pc g.mem i
      | .error _ => true)
   | .away => false
   | _ => true)

/-- The group that R37 chooses. -/
def State.choice (s : State) (key wk : Nat) : Option Group := (s.groupOrder wk).find? (fun g => s.groupReady key wk g)

/-- Bit S of the group's first word. -/
def State.groupSafe (s : State) (wk : Nat) (g : Group) : Bool :=
  match (s.fetchWord wk g.pc).1 with
  | .word w => w.getLsbD 6
  | _ => false

/-! ### Lanes (R40, R280) -/

/-- Warp slot, the system warps in slots 256 and 257. -/
def State.slotOfWarp (s : State) (wk : Nat) : Nat := if isSys wk then 256 + (wk - 0x40000000) % 2 else (s.warp wk).wslot

def State.running (s : State) (wk : Nat) : Bool := s.runList.any (fun p => p.2.wk == wk)

/-- The warp may begin a run if a group of it is eligible: it is on its core, has no run in progress, is not stopped nor
about to stop, no mailbox entry of it waits, and its block is not being taken off (R47, R216, R319, R322). -/
def State.mayRun (s : State) (wk : Nat) : Bool :=
  let w := s.warp wk
  let b := s.block (bkOf wk)
  w.alive && !isSlice wk && !w.stopped && !s.running wk && w.stopReq.isNone && !s.mboxHeld wk &&
    (isSys wk || (b.resident && !b.leaving && !s.ctxWanted (bkOf wk)))

/-- The group whose run the warp may begin on a lane; a warp asked to stop at a safe point begins no run there. -/
def State.runnable (s : State) (key wk : Nat) : Option Group :=
  if !s.mayRun wk then none else
  match s.choice key wk with
  | some g => if (s.warp wk).stopSafe.isSome && s.groupSafe wk g then none else some g
  | none => none

/-- The warps of a core, system warps included. -/
def State.coreWarps (s : State) (core : Nat) : List Nat := (s.warps.filter (fun p => p.2.alive && !isSlice p.1 && coreOf p.1 == core)).map Prod.fst

/-- Key under which a run of a core is tried: that of no lane. -/
def tryKey (core : Nat) : Nat := 0x20000000000 + core

/-- Brings the eligible times of a core's warps up to the present cycle. -/
def State.markElig (s : State) (core : Nat) : State :=
  foldS (s.coreWarps core) s (fun s wk =>
    if (s.runnable (tryKey core) wk).isSome then (if (s.warp wk).elig = 0 then s.modWarp wk (fun w => { w with elig := s.clk + 1 }) else s)
    else if (s.warp wk).elig = 0 then s else s.modWarp wk (fun w => { w with elig := 0 }))

/-- One warp goes before another: system warps by slot, then the longest eligible, then the lower slot. -/
def State.before (s : State) (a b : Nat) : Bool :=
  if isSys a ∨ isSys b then (isSys a && (!isSys b || a < b))
  else (s.warp a).elig < (s.warp b).elig || ((s.warp a).elig == (s.warp b).elig && s.slotOfWarp a < s.slotOfWarp b)

/-- The warp that a free lane is given to. -/
def State.winner (s : State) (core : Nat) : Option Nat :=
  ((s.coreWarps core).filter (fun wk => (s.runnable (tryKey core) wk).isSome)).foldl (fun m wk => match m with
    | none => some wk
    | some x => if s.before wk x then some wk else some x) none

/-- A lane that no run holds; one that is over holds it until its last thread has entered (R33). -/
def State.laneFree (s : State) (key : Nat) : Bool :=
  match s.run key with
  | none => true
  | some r => r.ended && r.busyTo ≤ s.clk
def State.freeLane (s : State) (core : Nat) : Option Nat := (List.range 64).find? (fun l => s.laneFree (64 * core + l))

/-! ### The start of a run -/

/-- Wait counts at the start of a run (R38). -/
def State.countWaits (s : State) (wk : Nat) (members : Word) : State :=
  foldS (maskList (s.liveMask wk)) s (fun s t => s.modThread wk t (fun r => { r with wait := if members.getLsbD t then 0 else if r.wait = 255 then 255 else r.wait + 1 }))

/-- A run begins at a safe point (R323, R325). -/
def State.safeStart (s : State) (wk : Nat) (pc : DWord) : State :=
  let b := s.block (bkOf wk)
  let ord := if isSys wk then 0 else s.ordinalAt b.lid pc
  let core := coreOf wk
  let s := s.noteHits core wk (s.watchSafe core ord)
  if !isSys wk && (s.launch b.lid).trace then s.trace (dieOf core) 2 ord core (btagOf wk) (widx wk) else s

/-- Threads whose fetch meets a page that is not present are held; the count under which they were first held stays theirs (R257, R361). -/
def State.parkFetch (s : State) (wk : Nat) (m : Word) : State :=
  foldS (maskList m) s (fun s t => s.modThread wk t (fun r => { r with hold := .fetch, ftag := r.ftag <|> some s.dev.qcnt }))
/-- Their fetch is over. -/
def State.clearFetch (s : State) (wk : Nat) (m : Word) : State :=
  foldS (maskList m) s (fun s t => if (s.thread wk t).ftag.isNone then s else s.modThread wk t (fun r => { r with ftag := none }))

/-- The chosen group's run begins; a step taken by SSTEP asks for its stop (R218). A group whose page is not present is
parked (R356), and one whose fetch fails traps (R348). -/
def State.beginRun (s : State) (core key wk : Nat) (g : Group) : State :=
  match s.fetchWord wk g.pc with
  | (.word w, s1) =>
    let s2 := ((s1.tdSync core).countWaits wk g.mem).setRun key (some (newRun wk g.pc g.mem))
    let s3 := if w.getLsbD 6 then s2.safeStart wk g.pc else s2
    let s4 := (s3.modWarp wk (fun r => { r with elig := 0, stepping := false })).clearFetch wk g.mem
    if (s.warp wk).stepping then s4.askStop wk 5 0 else s4
  | (.page va lv, s1) =>
    ((s1.parkFetch wk g.mem).addReq core s.nextId (s.warp wk).asid va 3 lv false).bumpId
  | (.trap, s1) => (s1.clearFetch wk g.mem).raiseAll wk (maskList g.mem) kFetch g.pc 0
  | (.away, _) => s

/-- RUN_START: the lowest free lane of a core is given to the warp that R40 and R280 choose. -/
def execRunStart (core lane : Nat) (s : State) : Result :=
  if s.freeLane core ≠ some lane then .next s else
  let key := 64 * core + lane
  let s := s.markElig core
  match s.winner core with
  | none => .next s
  | some wk =>
    match s.runnable (tryKey core) wk with
    | some g => .next (s.beginRun core key wk g)
    | none => .next s

/-! ### Delivery and stops -/

/-- The warp takes deliveries: it is on its core, and its run has ended (R338, R339, R349). -/
def State.mayDeliver (s : State) (wk : Nat) : Bool :=
  (isSys wk || (s.block (bkOf wk)).resident) && (isSlice wk || !s.running wk)

/-- TRAP_DELIVER; a slice instance that ends by it holds its place in the engine no longer. -/
def execTrapDeliver (wk : Nat) (s : State) : Result :=
  if !s.mayDeliver wk then .next s else
  let s1 := s.deliver wk
  .next (if isSlice wk && !(s1.thread wk 0).live then s1.setRun (sliceRun wk) none else s1)

/-- A requested stop takes effect at the end of a cycle, when every cause of the cycle is known (R319): that of cause 0x01 before a run that
begins at a safe point, any other when the warp holds no lane. -/
def State.mayStop (s : State) (wk : Nat) : Bool :=
  let w := s.warp wk
  s.closing && w.alive && !s.running wk && !w.stopped && (s.hitCycle (dieOf (coreOf wk))).isNone &&
    (w.stopReq.isSome ||
      (w.stopSafe.isSome && s.mayRun wk && (match s.choice (tryKey (coreOf wk)) wk with
       | some g => s.groupSafe wk g
       | none => false)))

/-- WARP_STOP. -/
def execWarpStop (wk : Nat) (s : State) : Result := if s.mayStop wk then .next (s.stopWarp wk) else .next s

end Sys2Proof.Machine
end

