-- ==== Sys2Proof/Machine/Place.lean ====
section
/-! DEFINITION. Placing one instruction where the next step fetches it (log 26). -/

namespace Sys2Proof.Machine

/-- Where `withFetchWord` puts a lane instruction: system warp 0 of die 0, thread 0, at virtual address 0 and placed address 0. -/
def fetchWk : Nat := 0x40000000

/-- A lane instruction of 96 bits, in the run that the next step serves: a run of system warp 0 on lane 0 of core 0, with a
cached translation of the page it fetches from and every die link open; no other run is in progress, and no other system warp of the die
goes first. -/
def State.withLaneWord (s : State) (w : Nat) : State :=
  let s := { s with agenda := [], fatal := false, runs := [], laneLast := false, closing := false, bank := [], links := [],
                    accs := s.accs.filter (fun (p : Nat × Option Access) => match p.2 with | some a => a.wk != fetchWk | none => true) }
  let s := s.modWarp fetchWk (fun x => { x with alive := true, asid := 0, alloc := ⟨1024, 1024, 128, 64, 64, 32, 1⟩ })
  let s := s.modThread fetchWk 0 (fun x => { x with live := true, pc := 0, hold := .none, trap := none, ftag := none })
  let s := if (s.warp (fetchWk + 1)).alive then s.modWarp (fetchWk + 1) (fun x => { x with alive := false }) else s
  let s := s.modCore 0 (fun c => { c with tlb := ⟨0, 0, false, 0x3D⟩ :: c.tlb })
  let s := { s with bad := Fmap.set false s.bad (placeOf s.dev.chtab 0 0 / 32) false }
  (s.writeBytes 0 0 (leBytes 12 w)).setRun 0 (some (newRun fetchWk 0 1))

/-- A schedule word of 64 bits, in schedule context 0, which runs and is at that word. -/
def State.withScheduleWord (s : State) (w : Nat) : State :=
  let s := { s with agenda := [], fatal := false, runs := [], laneLast := false, closing := false, cursor := 1 }
  s.setSched 0 { s.sched 0 with run := some ⟨⟨0, 128, 0, 0, 0, 0, 1, none⟩, .running, [BitVec.ofNat 64 w], [], [], [], 0, 0, 0, false, 0, none, false, none, none, 0, 0, false, false, []⟩ }

end Sys2Proof.Machine
end

