-- ==== Sys2Proof/Machine/Dispatch.lean ====
section
/-! DEFINITION. One arm per constructor of `Instr`, each a direct call of its meaning. -/

namespace Sys2Proof.Machine

/-- What an instruction, a schedule word or a step of the device does. -/
def exec (i : Instr) (s : State) : Host.Outcome State Fault Refusal :=
  match i with
  | .iadd h m d a b => Sys2Proof.Machine.execIadd h m d a b s
  | .isub h m d a b => Sys2Proof.Machine.execIsub h m d a b s
  | .iadc h m d a b => Sys2Proof.Machine.execIadc h m d a b s
  | .imul h m d a b => Sys2Proof.Machine.execImul h m d a b s
  | .imulh h m d a b => Sys2Proof.Machine.execImulh h m d a b s
  | .imad h m d a b => Sys2Proof.Machine.execImad h m d a b s
  | .imadw h m d a b => Sys2Proof.Machine.execImadw h m d a b s
  | .idiv h m d a b => Sys2Proof.Machine.execIdiv h m d a b s
  | .irem h m d a b => Sys2Proof.Machine.execIrem h m d a b s
  | .imin h m d a b => Sys2Proof.Machine.execImin h m d a b s
  | .imax h m d a b => Sys2Proof.Machine.execImax h m d a b s
  | .iabs h m d a => Sys2Proof.Machine.execIabs h m d a s
  | .ineg h m d a => Sys2Proof.Machine.execIneg h m d a s
  | .lea h m d a b => Sys2Proof.Machine.execLea h m d a b s
  | .idot4 h m d a b => Sys2Proof.Machine.execIdot4 h m d a b s
  | .isad h m d a b => Sys2Proof.Machine.execIsad h m d a b s
  | .land h m d a b => Sys2Proof.Machine.execLand h m d a b s
  | .lor h m d a b => Sys2Proof.Machine.execLor h m d a b s
  | .lxor h m d a b => Sys2Proof.Machine.execLxor h m d a b s
  | .andn h m d a b => Sys2Proof.Machine.execAndn h m d a b s
  | .lnot h m d a => Sys2Proof.Machine.execLnot h m d a s
  | .lop3 h m d a b => Sys2Proof.Machine.execLop3 h m d a b s
  | .shl h m d a b => Sys2Proof.Machine.execShl h m d a b s
  | .shr h m d a b => Sys2Proof.Machine.execShr h m d a b s
  | .sar h m d a b => Sys2Proof.Machine.execSar h m d a b s
  | .rol h m d a b => Sys2Proof.Machine.execRol h m d a b s
  | .fshl h m d a b => Sys2Proof.Machine.execFshl h m d a b s
  | .bfe h m d a b => Sys2Proof.Machine.execBfe h m d a b s
  | .bfi h m d a b => Sys2Proof.Machine.execBfi h m d a b s
  | .popc h m d a => Sys2Proof.Machine.execPopc h m d a s
  | .clz h m d a => Sys2Proof.Machine.execClz h m d a s
  | .ctz h m d a => Sys2Proof.Machine.execCtz h m d a s
  | .brev h m d a => Sys2Proof.Machine.execBrev h m d a s
  | .prmt h m d a b => Sys2Proof.Machine.execPrmt h m d a b s
  | .mov h d a => Sys2Proof.Machine.execMov h d a s
  | .movi h d c => Sys2Proof.Machine.execMovi h d c s
  | .mov64 h hnd d a => Sys2Proof.Machine.execMov64 h hnd d a s
  | .movx h sp d a b => Sys2Proof.Machine.execMovx h sp d a b s
  | .stx h sp d a b => Sys2Proof.Machine.execStx h sp d a b s
  | .shfl h mode d a b => Sys2Proof.Machine.execShfl h mode d a b s
  | .bcast h d a b => Sys2Proof.Machine.execBcast h d a b s
  | .vote h kind d a => Sys2Proof.Machine.execVote h kind d a s
  | .redux h ty oper d a => Sys2Proof.Machine.execRedux h ty oper d a s
  | .expw h scope group d a b => Sys2Proof.Machine.execExpw h scope group d a b s
  | .revw h d => Sys2Proof.Machine.execRevw h d s
  | .bindw h d a => Sys2Proof.Machine.execBindw h d a s
  | .setf h d => Sys2Proof.Machine.execSetf h d s
  | .clrf h d => Sys2Proof.Machine.execClrf h d s
  | .testf h d a => Sys2Proof.Machine.execTestf h d a s
  | .frame h d a => Sys2Proof.Machine.execFrame h d a s
  | .unframe h d a => Sys2Proof.Machine.execUnframe h d a s
  | .isetp h ty rel d a b => Sys2Proof.Machine.execIsetp h ty rel d a b s
  | .iset h ty rel d a b => Sys2Proof.Machine.execIset h ty rel d a b s
  | .sel h ty d a b => Sys2Proof.Machine.execSel h ty d a b s
  | .psetp h ty tt d a b => Sys2Proof.Machine.execPsetp h ty tt d a b s
  | .p2v h ty d => Sys2Proof.Machine.execP2v h ty d s
  | .v2p h ty a b => Sys2Proof.Machine.execV2p h ty a b s
  | .fadd h m d a b => Sys2Proof.Machine.execFadd h m d a b s
  | .fsub h m d a b => Sys2Proof.Machine.execFsub h m d a b s
  | .fmul h m d a b => Sys2Proof.Machine.execFmul h m d a b s
  | .ffma h m d a b => Sys2Proof.Machine.execFfma h m d a b s
  | .fmin h m d a b => Sys2Proof.Machine.execFmin h m d a b s
  | .fmax h m d a b => Sys2Proof.Machine.execFmax h m d a b s
  | .fminm h m d a b => Sys2Proof.Machine.execFminm h m d a b s
  | .fmaxm h m d a b => Sys2Proof.Machine.execFmaxm h m d a b s
  | .fsetp h m d a b => Sys2Proof.Machine.execFsetp h m d a b s
  | .fclass h m d a => Sys2Proof.Machine.execFclass h m d a s
  | .frnd h m d a => Sys2Proof.Machine.execFrnd h m d a s
  | .ffrc h m d a => Sys2Proof.Machine.execFfrc h m d a s
  | .fscale h m d a b => Sys2Proof.Machine.execFscale h m d a b s
  | .fgetexp h m d a => Sys2Proof.Machine.execFgetexp h m d a s
  | .fdiv h m d a b => Sys2Proof.Machine.execFdiv h m d a b s
  | .fsqrt h m d a => Sys2Proof.Machine.execFsqrt h m d a s
  | .frcp h m d a => Sys2Proof.Machine.execFrcp h m d a s
  | .frsq h m d a => Sys2Proof.Machine.execFrsq h m d a s
  | .fexp2 h m d a => Sys2Proof.Machine.execFexp2 h m d a s
  | .flog2 h m d a => Sys2Proof.Machine.execFlog2 h m d a s
  | .fsinpi h m d a => Sys2Proof.Machine.execFsinpi h m d a s
  | .fcospi h m d a => Sys2Proof.Machine.execFcospi h m d a s
  | .ftanh h m d a => Sys2Proof.Machine.execFtanh h m d a s
  | .hadd2 h m d a b => Sys2Proof.Machine.execHadd2 h m d a b s
  | .hmul2 h m d a b => Sys2Proof.Machine.execHmul2 h m d a b s
  | .hfma2 h m d a b => Sys2Proof.Machine.execHfma2 h m d a b s
  | .hmin2 h m d a b => Sys2Proof.Machine.execHmin2 h m d a b s
  | .hmax2 h m d a b => Sys2Proof.Machine.execHmax2 h m d a b s
  | .hsetp2 h m d a b => Sys2Proof.Machine.execHsetp2 h m d a b s
  | .fcvt h rnd dirFrom slot d a => Sys2Proof.Machine.execFcvt h rnd dirFrom slot d a s
  | .f2i h rnd dt sf d a => Sys2Proof.Machine.execF2i h rnd dt sf d a s
  | .i2f h rnd df st d a => Sys2Proof.Machine.execI2f h rnd df st d a s
  | .fpack h rnd slot d a b => Sys2Proof.Machine.execFpack h rnd slot d a b s
  | .funpack h slot d a b => Sys2Proof.Machine.execFunpack h slot d a b s
  | .qblk h j slot d a => Sys2Proof.Machine.execQblk h j slot d a s
  | .ld h size d a b => Sys2Proof.Machine.execLd h size d a b s
  | .st h size d a b => Sys2Proof.Machine.execSt h size d a b s
  | .lda h scope size d a b => Sys2Proof.Machine.execLda h scope size d a b s
  | .stl h scope size d a b => Sys2Proof.Machine.execStl h scope size d a b s
  | .atom h ord ty oper d a b => Sys2Proof.Machine.execAtom h ord ty oper d a b s
  | .red h ord ty oper a b => Sys2Proof.Machine.execRed h ord ty oper a b s
  | .fence h scope kind => Sys2Proof.Machine.execFence h scope kind s
  | .cpy h size dsp ssp d a b => Sys2Proof.Machine.execCpy h size dsp ssp d a b s
  | .cpym h g d a => Sys2Proof.Machine.execCpym h g d a s
  | .tcopy h st kvm g d a b => Sys2Proof.Machine.execTcopy h st kvm g d a b s
  | .tsld h g d a b => Sys2Proof.Machine.execTsld h g d a b s
  | .tsev h g d => Sys2Proof.Machine.execTsev h g d s
  | .kick h a b => Sys2Proof.Machine.execKick h a b s
  | .kwait h tag d a => Sys2Proof.Machine.execKwait h tag d a s
  | .pull h ack g d a => Sys2Proof.Machine.execPull h ack g d a s
  | .ack h a => Sys2Proof.Machine.execAck h a s
  | .tlrd h c d a => Sys2Proof.Machine.execTlrd h c d a s
  | .tltag h c d a => Sys2Proof.Machine.execTltag h c d a s
  | .tlwait h c scope a b => Sys2Proof.Machine.execTlwait h c scope a b s
  | .bar h cnt a b => Sys2Proof.Machine.execBar h cnt a b s
  | .gbar h a => Sys2Proof.Machine.execGbar h a s
  | .abinit h d a => Sys2Proof.Machine.execAbinit h d a s
  | .abexp h d a => Sys2Proof.Machine.execAbexp h d a s
  | .abarv h d a => Sys2Proof.Machine.execAbarv h d a s
  | .abwait h a b => Sys2Proof.Machine.execAbwait h a b s
  | .kdecl h block d a => Sys2Proof.Machine.execKdecl h block d a s
  | .sign h a => Sys2Proof.Machine.execSign h a s
  | .rconv h d a b => Sys2Proof.Machine.execRconv h d a b s
  | .gres h d a => Sys2Proof.Machine.execGres h d a s
  | .gclr h d => Sys2Proof.Machine.execGclr h d s
  | .yield h => Sys2Proof.Machine.execYield h s
  | .sleep h a => Sys2Proof.Machine.execSleep h a s
  | .bra h cnt d off => Sys2Proof.Machine.execBra h cnt d off s
  | .brx h a => Sys2Proof.Machine.execBrx h a s
  | .call h off => Sys2Proof.Machine.execCall h off s
  | .callx h a => Sys2Proof.Machine.execCallx h a s
  | .ret h => Sys2Proof.Machine.execRet h s
  | .exit h => Sys2Proof.Machine.execExit h s
  | .trap h a => Sys2Proof.Machine.execTrap h a s
  | .tret h => Sys2Proof.Machine.execTret h s
  | .sysc h d a b => Sys2Proof.Machine.execSysc h d a b s
  | .nop h => Sys2Proof.Machine.execNop h s
  | .setpat h a => Sys2Proof.Machine.execSetpat h a s
  | .mma h gsel kreg slot d a b => Sys2Proof.Machine.execMma h gsel kreg slot d a b s
  | .wld h gsel nsm1 d a b => Sys2Proof.Machine.execWld h gsel nsm1 d a b s
  | .aclr h gsel st d => Sys2Proof.Machine.execAclr h gsel st d s
  | .ald h gsel reg d a b => Sys2Proof.Machine.execAld h gsel reg d a b s
  | .asto h gsel rnd int slot d a => Sys2Proof.Machine.execAsto h gsel rnd int slot d a s
  | .att h gsel kreg slot d a b => Sys2Proof.Machine.execAtt h gsel kreg slot d a b s
  | .attfin h gsel kreg d a => Sys2Proof.Machine.execAttfin h gsel kreg d a s
  | .ladinit h gsel kreg d a b => Sys2Proof.Machine.execLadinit h gsel kreg d a b s
  | .ladpush h gsel kreg d a => Sys2Proof.Machine.execLadpush h gsel kreg d a s
  | .ladread h gsel kreg d a b => Sys2Proof.Machine.execLadread h gsel kreg d a b s
  | .ladld h gsel kreg d a b => Sys2Proof.Machine.execLadld h gsel kreg d a b s
  | .wqpost h a b => Sys2Proof.Machine.execWqpost h a b s
  | .tarm h time cidx a b => Sys2Proof.Machine.execTarm h time cidx a b s
  | .cntadd h aft set d a b => Sys2Proof.Machine.execCntadd h aft set d a b s
  | .sched h a => Sys2Proof.Machine.execSched h a s
  | .mfsr h d a => Sys2Proof.Machine.execMfsr h d a s
  | .mtsr h d a => Sys2Proof.Machine.execMtsr h d a s
  | .eret h a b => Sys2Proof.Machine.execEret h a b s
  | .halt h => Sys2Proof.Machine.execHalt h s
  | .tlbfls h a => Sys2Proof.Machine.execTlbfls h a s
  | .tldrain h => Sys2Proof.Machine.execTldrain h s
  | .fbrd h d a => Sys2Proof.Machine.execFbrd h d a s
  | .fbpop h => Sys2Proof.Machine.execFbpop h s
  | .replay h => Sys2Proof.Machine.execReplay h s
  | .winqPush h a => Sys2Proof.Machine.execWinqPush h a s
  | .winqPop h d => Sys2Proof.Machine.execWinqPop h d s
  | .ctxsv h a b => Sys2Proof.Machine.execCtxsv h a b s
  | .ctxld h a b => Sys2Proof.Machine.execCtxld h a b s
  | .lnkctlStat h d a b => Sys2Proof.Machine.execLnkctlStat h d a b s
  | .lnkctlPause h a b => Sys2Proof.Machine.execLnkctlPause h a b s
  | .lnkctlResume h a b => Sys2Proof.Machine.execLnkctlResume h a b s
  | .lnkctlRemap h a b => Sys2Proof.Machine.execLnkctlRemap h a b s
  | .lnkctlTrain h a b => Sys2Proof.Machine.execLnkctlTrain h a b s
  | .lnkctlHalf h a b => Sys2Proof.Machine.execLnkctlHalf h a b s
  | .bkpt h a => Sys2Proof.Machine.execBkpt h a s
  | .sstep h a => Sys2Proof.Machine.execSstep h a s
  | .trcmk h a => Sys2Proof.Machine.execTrcmk h a s
  | .cntrd h d a => Sys2Proof.Machine.execCntrd h d a s
  | .florealNop => Sys2Proof.Machine.execFlorealNop s
  | .florealSend port c buf tmo => Sys2Proof.Machine.execFlorealSend port c buf tmo s
  | .florealRecv port c buf tmo => Sys2Proof.Machine.execFlorealRecv port c buf tmo s
  | .florealRed port c buf tmo fwd rop => Sys2Proof.Machine.execFlorealRed port c buf tmo fwd rop s
  | .florealCopy dst dbuf src sbuf => Sys2Proof.Machine.execFlorealCopy dst dbuf src sbuf s
  | .florealWait port time idx operand => Sys2Proof.Machine.execFlorealWait port time idx operand s
  | .florealSignal port peer idx operand => Sys2Proof.Machine.execFlorealSignal port peer idx operand s
  | .florealLoop count target => Sys2Proof.Machine.execFlorealLoop count target s
  | .florealEnd => Sys2Proof.Machine.execFlorealEnd s
  | .runStart core lane => Sys2Proof.Machine.execRunStart core lane s
  | .trapDeliver wk => Sys2Proof.Machine.execTrapDeliver wk s
  | .jointRoundClose bk k => Sys2Proof.Machine.execJointRoundClose bk k s
  | .releaseTakesEffect wk t => Sys2Proof.Machine.execReleaseTakesEffect wk t s
  | .sleepExpiry wk t => Sys2Proof.Machine.execSleepExpiry wk t s
  | .rconvTimeout wk t => Sys2Proof.Machine.execRconvTimeout wk t s
  | .revwComplete wk => Sys2Proof.Machine.execRevwComplete wk s
  | .guardDiscard cid => Sys2Proof.Machine.execGuardDiscard cid s
  | .copyCmdAccept cid => Sys2Proof.Machine.execCopyCmdAccept cid s
  | .engineMemResponse cid ecc => Sys2Proof.Machine.execEngineMemResponse cid ecc s
  | .engineLanding cid => Sys2Proof.Machine.execEngineLanding cid s
  | .copyCmdRetire cid => Sys2Proof.Machine.execCopyCmdRetire cid s
  | .stackSpillFill wk => Sys2Proof.Machine.execStackSpillFill wk s
  | .cntaddAftApply wk => Sys2Proof.Machine.execCntaddAftApply wk s
  | .arrayCmdStart cid res => Sys2Proof.Machine.execArrayCmdStart cid res s
  | .arraySrcConsumed cid => Sys2Proof.Machine.execArraySrcConsumed cid s
  | .arrayCmdEnd cid => Sys2Proof.Machine.execArrayCmdEnd cid s
  | .arrayCmdRetire cid => Sys2Proof.Machine.execArrayCmdRetire cid s
  | .multicastLanding cid => Sys2Proof.Machine.execMulticastLanding cid s
  | .kickNoticeArrive core => Sys2Proof.Machine.execKickNoticeArrive core s
  | .remoteReadServe cid ecc => Sys2Proof.Machine.execRemoteReadServe cid ecc s
  | .ackArrive wk => Sys2Proof.Machine.execAckArrive wk s
  | .loadDataLand iid t => Sys2Proof.Machine.execLoadDataLand iid t s
  | .walkComplete aid => Sys2Proof.Machine.execWalkComplete aid s
  | .faultPresent die => Sys2Proof.Machine.execFaultPresent die s
  | .sideLogEnter wk => Sys2Proof.Machine.execSideLogEnter wk s
  | .sliceRequestServe aid ecc => Sys2Proof.Machine.execSliceRequestServe aid ecc s
  | .mnqOvfRetry => Sys2Proof.Machine.execMnqOvfRetry s
  | .qcntAdvance => Sys2Proof.Machine.execQcntAdvance s
  | .scrubVisit target ecc => Sys2Proof.Machine.execScrubVisit target ecc s
  | .tldrainComplete die slot => Sys2Proof.Machine.execTldrainComplete die slot s
  | .winqPopComplete die slot => Sys2Proof.Machine.execWinqPopComplete die slot s
  | .ctxsvComplete die slot => Sys2Proof.Machine.execCtxsvComplete die slot s
  | .ctxldComplete die slot => Sys2Proof.Machine.execCtxldComplete die slot s
  | .warpStop wk => Sys2Proof.Machine.execWarpStop wk s
  | .mboxDeviceEntry die => Sys2Proof.Machine.execMboxDeviceEntry die s
  | .traceCounterLimit die => Sys2Proof.Machine.execTraceCounterLimit die s
  | .quantumExpiry core => Sys2Proof.Machine.execQuantumExpiry core s
  | .blockAssign lid => Sys2Proof.Machine.execBlockAssign lid s
  | .blockRetire core btag => Sys2Proof.Machine.execBlockRetire core btag s
  | .dispatchTakeCommand => Sys2Proof.Machine.execDispatchTakeCommand s
  | .launchComplete lid => Sys2Proof.Machine.execLaunchComplete lid s
  | .timeTriggerFire port => Sys2Proof.Machine.execTimeTriggerFire port s
  | .schedStart sid => Sys2Proof.Machine.execSchedStart sid s
  | .florealWaitTimeExpiry sid => Sys2Proof.Machine.execFlorealWaitTimeExpiry sid s
  | .florealStepTimeout sid => Sys2Proof.Machine.execFlorealStepTimeout sid s
  | .linkPauseComplete die slot => Sys2Proof.Machine.execLinkPauseComplete die slot s
  | .linkRemapComplete die slot => Sys2Proof.Machine.execLinkRemapComplete die slot s
  | .sysreqRead die slot => Sys2Proof.Machine.execSysreqRead die slot s
  | .mnqRead => Sys2Proof.Machine.execMnqRead s
  | .mboxRead die => Sys2Proof.Machine.execMboxRead die s
  | .chdataWrite x => Sys2Proof.Machine.execChdataWrite x s
  | .mclrWrite x => Sys2Proof.Machine.execMclrWrite x s
  | .quantumWrite die x => Sys2Proof.Machine.execQuantumWrite die x s
  | .fpownWrite port x => Sys2Proof.Machine.execFpownWrite port x s
  | .dbgdatWrite die x => Sys2Proof.Machine.execDbgdatWrite die x s
  | .dbgStop die => Sys2Proof.Machine.execDbgStop die s
  | .dbgRun die => Sys2Proof.Machine.execDbgRun die s
  | .dbgStopBlock die => Sys2Proof.Machine.execDbgStopBlock die s
  | .dbgRunBlock die => Sys2Proof.Machine.execDbgRunBlock die s
  | .dbgStopnow die => Sys2Proof.Machine.execDbgStopnow die s
  | .registerWrite die slot n x => Sys2Proof.Machine.execRegisterWrite die slot n x s
  | .doorbellWrite q tail => Sys2Proof.Machine.execDoorbellWrite q tail s
  | .remoteWriteArrive port rva rop data rc => Sys2Proof.Machine.execRemoteWriteArrive port rva rop data rc s
  | .schedSignalArrive port idx addend => Sys2Proof.Machine.execSchedSignalArrive port idx addend s
  | .entryComplete port idx err => Sys2Proof.Machine.execEntryComplete port idx err s
  | .chunkArrive port sid fmt data => Sys2Proof.Machine.execChunkArrive port sid fmt data s
  | .fabricTimeExchange port peerTime => Sys2Proof.Machine.execFabricTimeExchange port peerTime s
  | .linkTrainComplete die slot badLanes peerDev peerPort peerTime => Sys2Proof.Machine.execLinkTrainComplete die slot badLanes peerDev peerPort peerTime s
  | .fabricFlitCrcError port retryOk => Sys2Proof.Machine.execFabricFlitCrcError port retryOk s
  | .ucieFlitCrcError module fate => Sys2Proof.Machine.execUcieFlitCrcError module fate s
  | .nocFlitCrcError retryOk downward hop => Sys2Proof.Machine.execNocFlitCrcError retryOk downward hop s
  | .switchParityError control packet => Sys2Proof.Machine.execSwitchParityError control packet s
  | .thermidorTick pwr ptemp => Sys2Proof.Machine.execThermidorTick pwr ptemp s
  | .thermalEmergency ptemp alarm => Sys2Proof.Machine.execThermalEmergency ptemp alarm s
  | .coolantFlowLost => Sys2Proof.Machine.execCoolantFlowLost s
  | .thermalTrip ptemp => Sys2Proof.Machine.execThermalTrip ptemp s
  | .hostMemRead pa n ecc => Sys2Proof.Machine.execHostMemRead pa n ecc s
  | .hostMemWrite pa data => Sys2Proof.Machine.execHostMemWrite pa data s
  | .hostMboxWrite die x => Sys2Proof.Machine.execHostMboxWrite die x s
  | .mboxOvrClear die x => Sys2Proof.Machine.execMboxOvrClear die x s
  | .powerOnBoot image => Sys2Proof.Machine.execPowerOnBoot image s
  | .recoveryStart image => Sys2Proof.Machine.execRecoveryStart image s
  | .deviceReset => Sys2Proof.Machine.execDeviceReset s
  | .spdmGetVersion => Sys2Proof.Machine.execSpdmGetVersion s
  | .spdmGetCapabilities => Sys2Proof.Machine.execSpdmGetCapabilities s
  | .spdmNegotiateAlgorithms => Sys2Proof.Machine.execSpdmNegotiateAlgorithms s
  | .spdmGetCertificate => Sys2Proof.Machine.execSpdmGetCertificate s
  | .spdmChallenge => Sys2Proof.Machine.execSpdmChallenge s
  | .spdmGetMeasurements => Sys2Proof.Machine.execSpdmGetMeasurements s
  | .coolantFlowReturn => Sys2Proof.Machine.execCoolantFlowReturn s
  | .fabricLinkDown port => Sys2Proof.Machine.execFabricLinkDown port s
  | .farEndBufferSpace port bytes => Sys2Proof.Machine.execFarEndBufferSpace port bytes s
  | .dispatcherTableError => Sys2Proof.Machine.execDispatcherTableError s

end Sys2Proof.Machine
end

