-- ==== Sys2Proof/Machine/Turn.lean ====
section
/-! DEFINITION. Whose turn it is: the instruction, the schedule word or the step of the device that comes next when the
outside world and the agenda leave it open. The order is the model's (log 6); what each step does and when it may happen
is in its meaning. -/

namespace Sys2Proof.Machine

/-- What the next step is. -/
inductive Turn where
  | instr (i : Instr) (s : State)
  /-- A move of the machine that no row of the opcode table names. -/
  | quiet (s : State)
  deriving DecidableEq, Repr

namespace State

/-- Runs that wait try again. -/
def unstall (s : State) : State := { s with runs := s.runs.map (fun p => (p.1, p.2.map (fun r => { r with stalled := false }))) }

/-! ### Runs (R31 to R35, R282) -/

/-- The run goes on in this cycle: it does not wait, and a thread may enter. -/
def goesOn (s : State) (r : Run) : Bool := !r.stalled && !r.ended && r.busyTo ≤ s.clk && r.bankTo ≤ s.clk

/-- The instruction that a run has in hand, or would fetch. -/
def inHandNow (s : State) (r : Run) : Option Instr :=
  match r.word with
  | some w => (decodeWord w).toOption
  | none => match (s.fetchWord r.wk r.pc).1 with
    | .word w => (decodeWord w).toOption
    | _ => none

/-- What the two system warps of a die do in one order within a cycle: slot 0 takes the older entry of a queue, and FBRD, FBPOP and REPLAY
act slot 0 first (R213, R215, R264, R322), but for the FBPOPs, which come before what else meets the buffer (R360). -/
def rankOf : Instr → Option Nat
  | .fbpop _ => some 0
  | .fbrd _ _ _ => some 1
  | .replay _ => some 1
  | .mfsr _ _ a => if srOf a = 0x202 ∨ srOf a = 0x246 ∨ srOf a = 0x2E6 ∨ srOf a = 0x208 then some 1 else none
  | _ => none

/-- The other system warp of the die. -/
def otherSlot (wk : Nat) : Nat := sysKey (sysDie wk) (1 - wk % 2)

/-- A warp may begin a run in this cycle. -/
def startsNow (s : State) (wk : Nat) : Bool := (s.freeLane (coreOf wk)).isSome && (s.runnable (tryKey (coreOf wk)) wk).isSome

/-- A run of a system warp waits for the other one of its die, whose instruction of this cycle comes first. -/
def slotWaits (s : State) (r : Run) : Bool :=
  isSys r.wk && (s.warp (otherSlot r.wk)).alive && (match (s.inHandNow r).bind rankOf with
    | none => false
    | some n =>
      (n != 0 && s.startsNow (otherSlot r.wk)) ||
      s.runList.any (fun p => p.2.wk == otherSlot r.wk && s.goesOn p.2 && (match (s.inHandNow p.2).bind rankOf with
        | some m => m < n || (m == n && r.wk % 2 == 1)
        | none => false)))

/-- Warps, in use, of the whole device. -/
def liveWarps (s : State) : List Nat := (s.warps.filter (fun p => p.2.alive && !isSlice p.1)).map Prod.fst

/-- Cores with warps. -/
def liveCores (s : State) : List Nat := (s.liveWarps.map coreOf).eraseDups

/-- An instruction that changes a trigger counter as it passes its lane. -/
def addsNow : Instr → Bool
  | .cntadd _ aft _ _ _ _ => !aft
  | _ => false

/-- The next run of a core begins in this cycle with such an instruction. -/
def startsAdd (s : State) (c : Nat) : Bool :=
  (s.freeLane c).isSome && (match s.winner c with
    | none => false
    | some wk => match s.runnable (tryKey c) wk with
      | none => false
      | some g => match (s.fetchWord wk g.pc).1 with
        | .word w => ((decodeWord w).toOption.map addsNow).getD false
        | _ => false)

/-- On some of the cores, a lane has such an instruction in hand that may pass in this cycle, or will. -/
def addComes (s : State) (f : Nat → Bool) : Bool :=
  s.runList.any (fun p => p.1 < 0x10000000000 && f (coreOf p.2.wk) && s.goesOn p.2 && ((s.inHandNow p.2).map addsNow).getD false) ||
    s.liveCores.any (fun c => f c && s.startsAdd c)

/-- A run waits for the changes of trigger counters that come before its own in this cycle: those of lower cores (R286), and for WQPOST and
TARM all (R289). -/
def addWaits (s : State) (r : Run) : Bool :=
  s.liveWarps.length != 1 && (match s.inHandNow r with
    | some (.cntadd _ false _ _ _ _) => s.addComes (fun c => c < coreOf r.wk)
    | some (.wqpost _ _ _) => s.addComes (fun _ => true)
    | some (.tarm _ _ _ _ _) => s.addComes (fun _ => true)
    | _ => false)

/-- The lane whose turn it is: of those whose run goes on, the lowest. -/
def pickLane (s : State) : Option Nat :=
  (s.runList.find? (fun p => p.1 < 0x10000000000 && s.goesOn p.2 && !s.slotWaits p.2 && !s.addWaits p.2)).map Prod.fst

/-- Access-slice instances that can go on: their blocks are on their cores, they are held by nothing, and the engine of the core may
issue in this cycle. Each with its core and its warp slot. -/
def readySlices (s : State) : List (Nat × Nat) :=
  (s.runList.filter (fun p => 0x10000000000 ≤ p.1 && s.goesOn p.2 && (s.block (bkOf p.2.wk)).resident && !s.isHeld p.2.wk 0 &&
    (s.core (coreOf p.2.wk)).sliceAt ≤ s.clk)).map (fun p => (512 * coreOf p.2.wk + (s.warp (parent p.2.wk)).wslot, p.1))

/-- Of some numbered runs, the one with the least number. -/
def leastRun : List (Nat × Nat) → Option (Nat × Nat)
  | [] => none
  | p :: l => match leastRun l with
    | some q => if q.1 < p.1 then some q else some p
    | none => some p

/-- The instance whose turn it is: on the first core that has one, round-robin by warp slot. -/
def pickSlice (s : State) : Option (Nat × Nat) :=
  match leastRun s.readySlices with
  | none => none
  | some p =>
    let c := p.1 / 512
    let l := s.readySlices.filter (fun q => q.1 / 512 == c)
    match leastRun (l.filter (fun q => (s.core c).sliceLast ≤ q.1 % 512)) with
    | some q => some q
    | none => some p

/-- A word that stands for no instruction traps in every member of the run (R91). -/
def illegalWord (s : State) (key : Nat) (r : Run) : State :=
  (s.raiseAll r.wk (maskList r.members) kIll r.pc 0).endInstr key (.nop ⟨.always, false, false, true, false⟩) ⟨.always, false, false, true, false⟩ 0
    (max 1 (maskList r.members).length)

/-- A run whose next instruction cannot be fetched: on a lane it ends before it, and the group's next run begins there; a
slice instance is parked or traps. -/
def noWord (s : State) (key : Nat) (r : Run) : FetchRes → State
  | .page va lv =>
    if isSlice r.wk then
      ((s.parkFetch r.wk 1).addReq (coreOf r.wk) s.nextId (s.warp (parent r.wk)).asid va 3 lv false).bumpId
    else s.setRun key none
  | .away => s.stall key
  | _ => if isSlice r.wk then s.raise r.wk 0 kFetch r.pc 0 else s.setRun key none

/-- The word in hand: decoded, for the run in focus. -/
def wordTurn (s : State) (key : Nat) (r : Run) (w : BitVec 96) : Turn :=
  match decodeWord w with
  | .ok i => .instr i { s.setRun key (some { r with word := some w }) with focus := key }
  | .error _ => .quiet (s.illegalWord key r)

/-- The reads of a lane's next instruction are deferred: its lane idles (R53). -/
def deferRead (s : State) (key n : Nat) : State :=
  ({ s.tdSync (key / 64) with bank := Fmap.set 0 s.bank key 0 }).modRun key (fun r => { r with bankTo := s.clk + n })

/-- The turn of a run: an instruction once begun goes on; before the next one, a run with a held member ends. -/
def runTurn (s : State) (key : Nat) : Turn :=
  match s.run key with
  | none => .quiet s
  | some r =>
    match r.word with
    | some w => s.wordTurn key r w
    | none =>
      if !isSlice r.wk && (maskList r.members).any (fun t => s.isHeld r.wk t) then .quiet (s.setRun key none) else
      if Fmap.get 0 s.bank key != 0 then .quiet (s.deferRead key (Fmap.get 0 s.bank key)) else
      match s.fetchWord r.wk r.pc with
      | (.word w, s1) => if isSlice r.wk && (s.thread r.wk 0).ftag.isSome then .quiet (s1.clearFetch r.wk 1) else s1.wordTurn key r w
      | (x, s1) => .quiet (s1.noWord key r x)

/-! ### Steps that come about by themselves -/

/-- Steps of one access. -/
def accEvents (p : Nat × Access) : List Instr :=
  match p.2.st with
  | .issued => [.walkComplete p.1]
  | .ready => [.sliceRequestServe p.1 .clean]
  | .served => [.loadDataLand p.2.iid p.2.t]
  | .waitLog => [.sideLogEnter p.2.wk]
  | _ => []

/-- Steps of one engine command. -/
def cmdEvents (p : Nat × Cmd) : List Instr :=
  .guardDiscard p.1 ::
    (if p.2.array then [.arrayCmdStart p.1 .clean, .engineMemResponse p.1 .clean, .engineLanding p.1, .arraySrcConsumed p.1, .arrayCmdEnd p.1, .arrayCmdRetire p.1]
     else [.copyCmdAccept p.1, .remoteReadServe p.1 .clean, .multicastLanding p.1, .engineMemResponse p.1 .clean, .engineLanding p.1, .copyCmdRetire p.1])

/-- Steps of one warp. -/
def warpEvents (s : State) (wk : Nat) : List Instr :=
  (if s.trapped wk = [] then [] else [.trapDeliver wk]) ++
  (if (s.warp wk).stkNeed.isSome then [.stackSpillFill wk] else []) ++
  (if (s.warp wk).revPend.isSome then [.revwComplete wk] else []) ++
  (if (s.warp wk).aft = [] ∨ s.addComes (fun c => c < coreOf wk) then [] else [.cntaddAftApply wk])

/-- Steps of one held thread. -/
def holdEvents (wk t : Nat) : Hold → List Instr
  | .sleep _ => [.sleepExpiry wk t]
  | .tldrain => [.tldrainComplete (sysDie wk) (wk % 2)]
  | .winqPop _ _ _ => [.winqPopComplete (sysDie wk) (wk % 2)]
  | .ctxsv _ _ => [.ctxsvComplete (sysDie wk) (wk % 2)]
  | .ctxld _ _ => [.ctxldComplete (sysDie wk) (wk % 2)]
  | .linkPause _ _ => [.linkPauseComplete (sysDie wk) (wk % 2)]
  | .linkRemap _ _ _ => [.linkRemapComplete (sysDie wk) (wk % 2)]
  | _ => []

/-- Steps of one core. -/
def coreEvents (s : State) (c : Nat) : List Instr :=
  (if (s.core c).kickNet = [] then [] else [.kickNoticeArrive c]) ++ (if (s.core c).waiting = [] then [] else [.quantumExpiry c])

/-- Steps of one die. -/
def dieEvents (s : State) (d : Nat) : List Instr := if (s.die d).mboxWait = [] then [] else [.mboxDeviceEntry d]

/-- Steps of one block. -/
def blockEvents (s : State) (bk : Nat) : List Instr :=
  (((s.block bk).k.filter (fun p => s.roundDue bk p.1)).map (fun p => Instr.jointRoundClose bk p.1)) ++
  (if s.mayRetire bk then [.blockRetire (bk / 4096) (bk % 4096)] else [])

/-- A free lane of a core that some warp could be given. -/
def startEvents (s : State) : List Instr :=
  s.liveCores.filterMap (fun c =>
    match s.freeLane c with
    | some l => if (s.winner c).isSome then some (.runStart c l) else none
    | none => none)

/-- Steps of the device that may come next, by kind; some of them may find nothing to do. -/
def events (s : State) : List (List Instr) :=
  [(s.warps.map Prod.fst).flatMap s.warpEvents ++ (s.blocks.map Prod.fst).flatMap s.blockEvents,
   s.threads.flatMap (fun p => holdEvents (p.1 / 32) (p.1 % 32) p.2.hold),
   s.accList.flatMap accEvents,
   (s.diesT.map Prod.fst).flatMap s.dieEvents ++ [.qcntAdvance],
   s.cmdList.flatMap cmdEvents,
   (s.cores.map Prod.fst).flatMap s.coreEvents ++ s.acks.map (fun a => .ackArrive a.wk),
   (s.scheds.map Prod.fst).flatMap (fun k => [.schedStart k, .florealWaitTimeExpiry k, .florealStepTimeout k]) ++
     (s.ports.map Prod.fst).map (fun p => .timeTriggerFire p),
   (s.launches.map Prod.fst).flatMap (fun l => [.blockAssign l, .launchComplete l]) ++ [.dispatchTakeCommand],
   s.startEvents]

/-- The step does something. -/
def does (s : State) (i : Instr) : Bool :=
  match exec i s with
  | .next s2 => s2 != s
  | _ => false

/-- Moves of ports, schedules and the host's port that no row of the table names: what has arrived and was held back acts, before what changes
a trigger counter after an arrival (R286): an ended schedule or entry whose writing was stopped. Then a fired entry sends, and a host access
whose way has opened is performed. -/
def portMoves (s : State) : List State :=
  let ps := s.ports.map Prod.fst
  ps.map (fun p => s.retryHeld p) ++ ps.map (fun p => s.behindGo p) ++ (s.scheds.map Prod.fst).map (fun k => s.schedResume k) ++
    ps.flatMap (fun p => (s.port p).entry.map (fun e => s.retryRecord p e.1)) ++
    ps.flatMap (fun p => (s.port p).entry.map (fun e => s.sendEntry p e.1)) ++ (if s.dev.hostWait = [] then [] else [s.hostMove])

/-- A schedule word that changes a trigger counter of this end of a link, which what has arrived at a port comes before (R286). -/
def afterArrivals : Instr → Bool
  | .florealSignal _ peer _ _ => !peer
  | .florealEnd => true
  | _ => false

/-- The schedule whose word can go on, and the word. -/
def schedTurn (s : State) : Option (Nat × Instr) :=
  match (s.scheds.map Prod.fst).find? (fun k => s.schedMoves k &&
      !(s.arriveMoves && (((s.sched k).run.bind SRun.word).map afterArrivals).getD false)) with
  | none => none
  | some k => match (s.sched k).run with
    | some r => r.word.map (fun i => (k, i))
    | none => none

/-- A die whose counters have hits of this cycle or an earlier one to see. -/
def hitDie (s : State) : Option Nat := (s.diesT.find? (fun p => (s.hitCycle p.1).isSome)).map Prod.fst

/-- The steps that end a cycle, in which nothing else happens any more, in turn: the limits of RCONV that it reaches (R200), the entries that have
fired start, in ascending index (R289), the counters and the sequencers see its hits (R324), stops take effect (R319), and faults and
notifications reach their queues (R360, R367). -/
def closers (s : State) : Option Turn :=
  match (s.threads.filterMap (fun p => match p.2.hold with
      | .rconv _ _ d => if d ≤ s.clk then some (Instr.rconvTimeout (p.1 / 32) (p.1 % 32)) else none
      | _ => none)).find? (fun i => s.does i), s.dueEntry, s.hitDie with
  | some i, _, _ => some (.instr i s)
  | none, some e, _ => some (.quiet (s.startEntry e.1 e.2))
  | none, none, some d => some (.instr (.traceCounterLimit d) s)
  | none, none, none =>
    let l : List Instr := (s.warps.filter (fun p => p.2.stopReq.isSome || p.2.stopSafe.isSome)).map (fun p => Instr.warpStop p.1) ++
      (s.diesT.filter (fun p => p.2.freqs != [])).map (fun p => Instr.faultPresent p.1) ++ [.mnqOvfRetry]
    (l.find? (fun i => s.does i)).map (fun i => Turn.instr i s)

/-- Cycles in which something may come about that waits for a cycle: on a lane or in a slice, a result that becomes available, a limit
of a thread, a full round, a row or the end of an array command, a schedule word, a hit, a mailbox entry, a quiescence count, a request
that reaches its slice. -/
def dueCycles (s : State) : List Nat :=
  s.travel.map Prod.snd ++ s.runList.map (fun p => p.2.bankTo) ++ s.runList.map (fun p => p.2.busyTo) ++ s.cores.map (fun p => p.2.sliceAt) ++
  s.warps.flatMap (fun p => p.2.recent.map Prod.snd ++ p.2.ranges.filterMap (fun r => match r.owner with | .lane d => some d | _ => none)) ++
  s.threads.filterMap (fun p => match p.2.hold with | .sleep d => some d | .rconv _ _ d => some d | _ => none) ++
  s.blocks.flatMap (fun p => p.2.k.map (fun k => k.2.last)) ++
  s.cmdList.flatMap (fun p => if p.2.array then p.2.dues else []) ++
  s.scheds.filterMap (fun p => p.2.run.map (fun r => r.turn)) ++
  s.diesT.flatMap (fun p => p.2.hits.map Prod.fst ++ p.2.mboxWait.map (fun m => m.cyc + 1)) ++ [s.dev.qcntClk + 256]

/-- Nanoseconds until the word in hand of a running schedule may end by itself: a WAIT on fabric time, or a step timeout. -/
def schedDue (s : State) (S : Sched) : Option Nat :=
  match S.run with
  | none => none
  | some r => match r.word with
    | some (.florealWait _ true _ x) => some (r.target x - (s.ftime r.start.port).toNat)
    | some i => match s.wordLimit i, r.tword with
      | some n, some t => some (t + n - s.dev.now)
      | _, _ => none
    | none => none

/-- Nanoseconds until something may come about that waits for real time or fabric time. -/
def dueTimes (s : State) : List Nat :=
  s.cores.filterMap (fun p => if p.2.waiting = [] then none else some (p.2.qStart + 1000 * p.2.quantum.toNat - s.dev.now)) ++
    s.ports.flatMap (fun p => p.2.entry.filterMap (fun e =>
      if e.2.st == .armed && e.2.time then some (e.2.thresh.toNat - (s.ftime p.1).toNat) else none)) ++
    s.scheds.filterMap (fun p => s.schedDue p.2)

/-- Cycles that certainly pass before n nanoseconds have. -/
def cyclesBefore (s : State) (n : Nat) : Nat := (n - 1) * (3 * s.dev.m) / 80

/-- Cycles that pass where nothing can happen: up to the next one in which something may. -/
def idleCycles (s : State) : Nat :=
  match (s.dueCycles.filterMap (fun c => if s.clk < c then some (c - s.clk) else none)) ++
      (s.dueTimes.filterMap (fun n => if n = 0 then none else some (max 1 (s.cyclesBefore n)))) with
  | [] => 1
  | c :: cs => cs.foldl min c

/-- What is left of a cycle in which nothing more can happen: the records of the dies are put away, crossings are queued (R263), and of
every core's warps it is known which were eligible in it (R280) and what its lanes did up to the next (R327). -/
def closeCycle (s : State) (n : Nat) : State :=
  let s := (foldS (s.diesT.map Prod.fst) s (fun s d => s.endCycle d)).takeCrossings
  let s := foldS s.liveCores s (fun s c => s.markElig c)
  foldS (s.cores.map Prod.fst) s (fun s c => s.tdSyncTo c (s.clk + n))

/-- Time passes where nothing can happen in this cycle. -/
def idle (s : State) : State :=
  let n := s.idleCycles
  ({ (s.closeCycle n).unstall with closing := false, emptied := s.emptied.filter (fun p => s.clk < p.2.2) }).tick n

/-- Kinds of moves of the device: a wait that ends, a word of a schedule, the nine kinds of `events`, a move of a port, an
access slice. -/
abbrev kinds : Nat := 13

/-- A move of one kind, if there is one. -/
def moveOf (s : State) : Nat → Option Turn
  | 0 => s.nextWake.map (fun p => .quiet ((s.wake p.1 p.2).unstall))
  | 1 => s.schedTurn.map (fun p => .instr p.2 { s.unstall with sfocus := p.1 })
  | 11 => (s.portMoves.find? (fun s2 => s2 != s)).map (fun s2 => .quiet s2.unstall)
  | 12 => s.pickSlice.map (fun p => s.runTurn p.2)
  | k => ((s.events.getD (k - 2) []).find? (fun i => s.does i)).map (fun i => .instr i s.unstall)

/-- The state in which the next move of the device is sought among the kinds after this one. -/
def moved (s : State) (k : Nat) : State := { s with laneLast := false, cursor := k + 1 }

def markMoved (k : Nat) : Turn → Turn
  | .instr i s => .instr i (s.moved k)
  | .quiet s => .quiet (s.moved k)

/-- A move of the device: the kinds take turns, so that none is kept waiting by another. -/
def otherTurn (s : State) : Option Turn :=
  (List.range kinds).findSome? (fun j => let k := (s.cursor + j) % kinds; (s.moveOf k).map (markMoved k))

/-- The end of a cycle: what closes it, and time passes. -/
def closeTurn (s : State) : Turn :=
  let s := { s with closing := true }
  match s.closers with
  | some t => t
  | none => .quiet s.idle

/-- The turn: a lane and another move of the device in alternation; where there is none of these the cycle ends. -/
def turn1 (s : State) : Turn :=
  if s.closing then s.closeTurn else
  match (if s.laneLast || s.pickLane.isNone then s.otherTurn else none), s.pickLane with
  | some t, _ => t
  | none, some k => ({ s with laneLast := true } : State).runTurn k
  | none, none => s.closeTurn

end State

/-- Steps of the outside world that a stopped device still takes (R398). -/
def whenFatal : Instr → Bool
  | .deviceReset => true
  | .powerOnBoot _ => true
  | .hostMemRead _ _ _ => true
  | .hostMemWrite _ _ => true
  | _ => false

end Sys2Proof.Machine
end

