-- ==== Sys2Proof/Machine/Step.lean ====
section
/-! DEFINITION. One step: the head of the agenda, or the turn that comes next. -/

namespace Sys2Proof.Machine

/-- One step of the device. An instruction of a run passes its lane for all its threads, or as far as they are ready. -/
def step (s : State) : Host.Outcome State Fault Refusal :=
  match s.agenda with
  | i :: rest => if s.fatal && !whenFatal i then .next { s with agenda := rest } else exec i { s.unstall with agenda := rest }
  | [] =>
    if s.fatal then .fault .deviceStopped
    else match s.turn1 with
      | .instr i s1 => exec i s1
      | .quiet s1 => .next s1

/-- The state whose next step runs the instruction of the given bits: a schedule word where 64 bits are given, and a lane
instruction otherwise. -/
def State.withFetchWord (s : State) (nbits w : Nat) : State := if nbits = 64 then s.withScheduleWord w else s.withLaneWord w

end Sys2Proof.Machine
end

