-- ==== Sys2Proof/Laws/Encoding.lean ====
section
/-! SUPPORT. The encoding read back, field by field: operands, guards and the FAM layouts of every entry, chunk fields, and the
decoding of the word of a legal instruction. -/

namespace Sys2Proof.Laws

/-- A field of the upper part of a word, and of its lower part. -/
theorem extract_append_hi {n m s l : Nat} (x : BitVec n) (y : BitVec m) (h : m ≤ s) :
    (x ++ y).extractLsb' s l = x.extractLsb' (s - m) l := by
  apply BitVec.eq_of_getLsbD_eq; intro i hi
  simp only [BitVec.getLsbD_extractLsb', BitVec.getLsbD_append, show ¬ s + i < m by omega, hi, show s + i - m = s - m + i by omega]; simp

theorem extract_append_lo {n m s l : Nat} (x : BitVec n) (y : BitVec m) (h : s + l ≤ m) :
    (x ++ y).extractLsb' s l = y.extractLsb' s l := by
  apply BitVec.eq_of_getLsbD_eq; intro i hi
  simp only [BitVec.getLsbD_extractLsb', BitVec.getLsbD_append, show s + i < m by omega, hi]; simp

theorem get_append_hi {n m s : Nat} (x : BitVec n) (y : BitVec m) (h : m ≤ s) : (x ++ y).getLsbD s = x.getLsbD (s - m) := by
  simp [BitVec.getLsbD_append, show ¬ s < m by omega]
theorem get_append_lo {n m s : Nat} (x : BitVec n) (y : BitVec m) (h : s < m) : (x ++ y).getLsbD s = y.getLsbD s := by
  simp [BitVec.getLsbD_append, h]
theorem extract_self {n : Nat} (x : BitVec n) : x.extractLsb' 0 n = x := by simp
theorem get_bits1 (x : Bool) : (bits1 x).getLsbD 0 = x := by cases x <;> rfl

theorem ofWord_toWord (f : Fields) : Fields.ofWord f.toWord = f := by
  rcases f with ⟨op, gn, gp, d, a, b, take, nf, fam, hb, hs, zero⟩
  simp (disch := omega) only [Fields.ofWord, Fields.toWord, extract_append_hi, extract_append_lo, get_append_hi, get_append_lo, extract_self, get_bits1,
    Nat.reduceSub]

theorem decOperand_enc (x : Operand) : decOperand (encOperand x) = some x := by
  cases x <;>
    simp (disch := omega) only [decOperand, encOperand, extract_append_hi, extract_append_lo, extract_self, Nat.reduceSub, BitVec.reduceExtractLsb',
      BitVec.reduceToNat, BitVec.ofNat_eq_ofNat, if_true]

theorem decRnd_enc (x : Rnd) : decRnd (encRnd x) = some x := by cases x <;> rfl
theorem ofCode_code (x : Ty) : Ty.ofCode x.code = some x := by cases x <;> rfl
theorem decArith_enc (m : Arith) : decArith (encArith m) = some m := by
  simp (disch := omega) only [decArith, encArith, decTy, extract_append_hi, extract_append_lo, get_append_hi, get_append_lo, extract_self, get_bits1,
    Nat.reduceSub, decRnd_enc, ofCode_code, Option.bind_eq_bind, Option.bind_some]
theorem fcond_code (x : FCond) : FCond.ofCode (x.code.extractLsb' 1 2 ++ x.code.extractLsb' 0 1) = x := by cases x <;> rfl
theorem decFCmp_enc (m : FCmp) : decFCmp (encFCmp m) = some m := by
  simp (disch := omega) only [decFCmp, encFCmp, decTy, extract_append_hi, extract_append_lo, get_append_hi, get_append_lo, extract_self, get_bits1,
    Nat.reduceSub, ofCode_code, Option.bind_eq_bind, Option.bind_some, fcond_code]

theorem decode_ok {op : BitVec 10} {h : Hdr} {d a b : BitVec 20} {fam : BitVec 10} {i : Instr} (he : encode i = wordOf op h d a b fam)
    (hh : i.hdr = some h) (hc : decodeClass h (wordOf op h d a b fam) = some i) (hl : i.legal = true) : decodeWord (encodeWord i) = .ok i := by
  have hg : h.guard.legal = true := by
    unfold Instr.legal at hl; rw [hh] at hl; cases hs : i.sig <;> simp [hs] at hl; exact hl.1.1.1.1.1
  rw [decodeWord, encodeWord, ofWord_toWord, he, decode]
  have hd : decGuard (wordOf op h d a b fam) = some h.guard := by
    rcases h with ⟨g, t, n, x, y⟩
    cases g with
    | always => rfl
    | pred p neg =>
      simp only [Guard.legal, decide_eq_true_eq] at hg
      have : p ≠ 31 := by rintro rfl; simp at hg
      simp only [decGuard, wordOf, Guard.gp, Guard.gn]
      exact (if_neg this).trans (if_pos hg)
  rw [if_neg (by simp [wordOf]), hd]
  simp only []
  rw [show (Hdr.mk h.guard (wordOf op h d a b fam).take (wordOf op h d a b fam).nf (wordOf op h d a b fam).hb (wordOf op h d a b fam).hs) = h from rfl, hc]
  simp [hl]


/-! ### FAM layouts -/

theorem fam_num : (0#10 == 0) = true ∧ (1#10 == 1) = true ∧ (2#10 == 2) = true ∧ (3#10 == 3) = true ∧ (4#10 == 4) = true ∧ (5#10 == 5) = true ∧
    (∀ n : Fin 5, (BitVec.ofNat 10 (n + 1) == 0) = false) := by decide
theorem fam_bit (x : Bool) : (bit x 0 &&& 0x3FE == 0) = true ∧ (bit x 0).getLsbD 0 = x := by cases x <;> decide
theorem decShfl_enc (x : ShflMode) : decShfl (encShfl x) = some x := by cases x <;> rfl
theorem decVote_enc (x : VoteKind) : decVote (encVote x) = some x := by cases x <;> rfl
theorem fam_redux (ty : Ty) (x : RedOper) : ((encTy ty ||| encRed x) &&& 0x308 == 0) = true ∧
    decTy (encTy ty ||| encRed x) = some ty ∧ decRed (encTy ty ||| encRed x) = some x := by cases ty <;> cases x <;> decide
theorem fam_expw (x : WScope) (g : BitVec 8) : decWScope (encWScope x ++ g) = some x ∧ (encWScope x ++ g).extractLsb' 0 8 = g := by
  constructor
  · rw [decWScope, extract_append_hi _ _ (by omega), Nat.sub_self, extract_self]; cases x <;> rfl
  · rw [extract_append_lo _ _ (by omega), extract_self]
theorem fam_rel (ty : Ty) (r : BitVec 4) : ((encTy ty ||| r.setWidth 10) &&& 0x300 == 0) = true ∧ decTy (encTy ty ||| r.setWidth 10) = some ty ∧
    (encTy ty ||| r.setWidth 10).extractLsb' 0 4 = r := by cases ty <;> revert r <;> decide
theorem fam_ty (ty : Ty) : (encTy ty &&& 0x30F == 0) = true ∧ decTy (encTy ty) = some ty := by cases ty <;> decide
theorem fam_fcvt (r : Rnd) (x : Bool) (n : BitVec 3) : ((encRnd r ++ bits1 x ++ 0#4 ++ n) &&& 0x078 == 0) = true := by
  cases r <;> cases x <;> revert n <;> decide
theorem decVFmt_enc (x : VFmt) : decVFmt (encVFmt x) = some x := by cases x <;> rfl
theorem decITy_enc (x : ITy) : decITy (encITy x) = some x := by cases x <;> rfl
theorem fam_fpack (r : Rnd) (n : BitVec 3) : ((encRnd r ++ 0#5 ++ n) &&& 0x0F8 == 0) = true := by cases r <;> revert n <;> decide
theorem fam_funpack (n : BitVec 3) : ((0#7 ++ n) &&& 0x3F8 == 0) = true := by revert n; decide
theorem fam_qblk (n : BitVec 3) (j : BlkIdx) : ((0#5 ++ n ++ j) &&& 0x3E0 == 0) = true := by revert n j; decide
theorem fam_size (x : Size) : (encSize x &&& 0x3F8 == 0) = true ∧ decSize (encSize x) = some x := by cases x <;> decide
theorem fam_scope (y : Scope) (x : Size) : ((encScope y ||| encSize x) &&& 0x078 == 0) = true ∧ decScope (encScope y ||| encSize x) = some y ∧
    decSize (encScope y ||| encSize x) = some x := by cases y <;> cases x <;> decide
theorem fam_atom (o : AOrd) (ty : Ty) (x : AOper) : decOrd (encOrd o ||| encTy ty ||| encAOper x) = some o ∧
    decTy (encOrd o ||| encTy ty ||| encAOper x) = some ty ∧ decAOper (encOrd o ||| encTy ty ||| encAOper x) = some x := by
  cases o <;> cases ty <;> cases x <;> decide
theorem fam_fence (y : Scope) (x : FenceKind) : ((encScope y ||| encFence x) &&& 0x07C == 0) = true ∧ decScope (encScope y ||| encFence x) = some y ∧
    decFence (encScope y ||| encFence x) = some x := by cases y <;> cases x <;> decide
theorem fam_cpy (z : CpySize) (x y : Space) : ((encCpySize z ++ encSpace x ++ encSpace y ++ 0#2) &&& 0x003 == 0) = true := by
  cases z <;> cases x <;> cases y <;> decide
theorem decCpySize_enc (x : CpySize) : decCpySize (encCpySize x) = some x := by cases x <;> rfl
theorem decSpace_enc (x : Space) : decSpace (encSpace x) = some x := by cases x <;> rfl
theorem fam_eguard (e : EGuard) : (encEGuard e &&& 0x30F == 0) = true ∧ decEGuard (encEGuard e) = e := by
  rcases e with ⟨g, n⟩; cases g <;> revert n <;> decide
theorem fam_tcopy (x y : Bool) (e : EGuard) : ((bit x 9 ||| bit y 8 ||| encEGuard e) &&& 0x00F == 0) = true ∧
    (bit x 9 ||| bit y 8 ||| encEGuard e).getLsbD 9 = x ∧ (bit x 9 ||| bit y 8 ||| encEGuard e).getLsbD 8 = y ∧
    decEGuard (bit x 9 ||| bit y 8 ||| encEGuard e) = e := by
  rcases e with ⟨g, n⟩; cases x <;> cases y <;> cases g <;> revert n <;> decide
theorem fam_pull (x : Bool) (e : EGuard) : ((bit x 9 ||| encEGuard e) &&& 0x10F == 0) = true ∧
    (bit x 9 ||| encEGuard e).getLsbD 9 = x ∧ decEGuard (bit x 9 ||| encEGuard e) = e := by
  rcases e with ⟨g, n⟩; cases x <;> cases g <;> revert n <;> decide
theorem fam_tctx (c : Tctx) : (encTctx c &&& 0x3F8 == 0) = true ∧ decTctx (encTctx c) = some c := by cases c <;> decide
theorem fam_tlwait (y : Scope) (c : Tctx) : ((encScope y ||| encTctx c) &&& 0x078 == 0) = true ∧ decTctx (encScope y ||| encTctx c) = some c ∧
    decScope (encScope y ||| encTctx c) = some y := by cases y <;> cases c <;> decide
theorem fam_wld (g : BitVec 3) (n : BitVec 6) : ((g ++ 0#1 ++ n) &&& 0x040 == 0) = true := by
  revert g n; decide +kernel
theorem fam_gbit (g : BitVec 3) (x : Bool) : ((g ++ 0#6 ++ bits1 x) &&& 0x07E == 0) = true := by cases x <;> revert g <;> decide
theorem fam_asto (g : BitVec 3) (r : Rnd) (x : Bool) (n : BitVec 3) : ((g ++ encRnd r ++ bits1 x ++ 0#1 ++ n) &&& 0x008 == 0) = true := by
  cases r <;> cases x <;> revert g n <;> decide
theorem fam_kreg (g : BitVec 3) (k : BitVec 4) : ((g ++ k ++ 0#3) &&& 0x007 == 0) = true := by revert g k; decide
theorem fam_tarm (x : Bool) (c : BitVec 8) : ((0#1 ++ bits1 x ++ c) &&& 0x200 == 0) = true := by cases x <;> revert c <;> decide +kernel
theorem fam_cntadd (x y : Bool) : ((bit x 1 ||| bit y 0) &&& 0x3FC == 0) = true ∧ (bit x 1 ||| bit y 0).getLsbD 1 = x ∧
    (bit x 1 ||| bit y 0).getLsbD 0 = y := by cases x <;> cases y <;> decide
theorem join {n m : Nat} (x : BitVec (n + m)) : x.extractLsb' m n ++ x.extractLsb' 0 m = x := by
  apply BitVec.eq_of_getLsbD_eq; intro i hi
  simp only [BitVec.getLsbD_append, BitVec.getLsbD_extractLsb']
  by_cases h : i < m
  · simp [h]
  · simp [h, show i - m < n by omega, show m + (i - m) = i by omega]
theorem decMovi_enc (c : Word) : decMovi (moviA c) (moviB c) = some c := by
  have h : (moviA c).extractLsb' 15 5 = 0b10000#5 := by
    rw [moviA, extract_append_hi _ _ (by omega)]; rfl
  rw [decMovi, if_pos ⟨h, by rw [moviB, extract_append_hi _ _ (by omega)]; rfl⟩, moviA, moviB, extract_append_lo _ _ (by omega), extract_self,
    extract_append_lo _ _ (by omega), extract_self]
  exact congrArg some (join (n := 15) (m := 17) c)
theorem decOff_enc (o : BitVec 34) : decOff (offA o) (offB o) = some o := by
  rw [decOff, if_pos ⟨by rw [offA, extract_append_hi _ _ (by omega)]; rfl, by rw [offB, extract_append_hi _ _ (by omega)]; rfl⟩, offA, offB,
    extract_append_lo _ _ (by omega), extract_self, extract_append_lo _ _ (by omega), extract_self]
  exact congrArg some (join (n := 17) (m := 17) o)

/-! ### Schedule words -/
theorem decChunk_enc (c : ChunkRef) : decChunk (encChunk c) = some c := by
  rcases c with ⟨r, b⟩
  cases r <;> (rw [decChunk, encChunk, extract_append_hi _ _ (by omega), extract_append_lo _ _ (by omega), extract_self]; exact congrArg some (congrArg _ (extract_self b)))
theorem ropCode (x : Rop) : Rop.ofCode x.code = some x := by cases x <;> rfl

end Sys2Proof.Laws
end

