-- ==== Sys2Proof/Laws/PerInstr.lean ====
section
/-! SUPPORT. Statements made instruction by instruction: decoding an encoded instruction gives it back. -/

namespace Sys2Proof.Laws.RoundTrip

/-- Decoding the word of a legal instruction, or of a legal schedule word, gives it back. -/
def Statement (i : Instr) : Prop :=
  (i.legal = true → decodeWord (encodeWord i) = .ok i) ∧ (i.florealOk = true → decodeFloreal (encodeFloreal i) = some i)

theorem lane {op : BitVec 10} {h : Hdr} {d a b : BitVec 20} {fam : BitVec 10} {i : Instr} (he : encode i = wordOf op h d a b fam)
    (hh : i.hdr = some h) (hf : i.florealOk = false) (hc : decodeClass h (wordOf op h d a b fam) = some i) : Statement i :=
  ⟨decode_ok he hh hc, fun h => by rw [hf] at h; cases h⟩
/-- A step is neither an instruction word nor a schedule word. -/
theorem step {i : Instr} (hl : i.legal = false) (hf : i.florealOk = false) : Statement i :=
  ⟨fun h => by rw [hl] at h; (cases h), fun h => by rw [hf] at h; (cases h)⟩
/-- A schedule word is no instruction word. -/
theorem word {i : Instr} (hl : i.legal = false) (hf : i.florealOk = true → decodeFloreal (encodeFloreal i) = some i) : Statement i :=
  ⟨fun h => by rw [hl] at h; (cases h), hf⟩
theorem iadd (h : Hdr) (m : Arith) (d a b : Operand) : Statement (.iadd h m d a b) := lane rfl rfl rfl (by
  simp only [decodeClass, wordOf, decodeInt, BitVec.reduceExtractLsb', BitVec.reduceToNat, Option.bind_eq_bind, Option.bind_some, decOperand_enc,
    decArith_enc])
theorem isub (h : Hdr) (m : Arith) (d a b : Operand) : Statement (.isub h m d a b) := lane rfl rfl rfl (by
  simp only [decodeClass, wordOf, decodeInt, BitVec.reduceExtractLsb', BitVec.reduceToNat, Option.bind_eq_bind, Option.bind_some, decOperand_enc,
    decArith_enc])
theorem iadc (h : Hdr) (m : Arith) (d a b : Operand) : Statement (.iadc h m d a b) := lane rfl rfl rfl (by
  simp only [decodeClass, wordOf, decodeInt, BitVec.reduceExtractLsb', BitVec.reduceToNat, Option.bind_eq_bind, Option.bind_some, decOperand_enc,
    decArith_enc])
theorem imul (h : Hdr) (m : Arith) (d a b : Operand) : Statement (.imul h m d a b) := lane rfl rfl rfl (by
  simp only [decodeClass, wordOf, decodeInt, BitVec.reduceExtractLsb', BitVec.reduceToNat, Option.bind_eq_bind, Option.bind_some, decOperand_enc,
    decArith_enc])
theorem imulh (h : Hdr) (m : Arith) (d a b : Operand) : Statement (.imulh h m d a b) := lane rfl rfl rfl (by
  simp only [decodeClass, wordOf, decodeInt, BitVec.reduceExtractLsb', BitVec.reduceToNat, Option.bind_eq_bind, Option.bind_some, decOperand_enc,
    decArith_enc])
theorem imad (h : Hdr) (m : Arith) (d a b : Operand) : Statement (.imad h m d a b) := lane rfl rfl rfl (by
  simp only [decodeClass, wordOf, decodeInt, BitVec.reduceExtractLsb', BitVec.reduceToNat, Option.bind_eq_bind, Option.bind_some, decOperand_enc,
    decArith_enc])
theorem imadw (h : Hdr) (m : Arith) (d a b : Operand) : Statement (.imadw h m d a b) := lane rfl rfl rfl (by
  simp only [decodeClass, wordOf, decodeInt, BitVec.reduceExtractLsb', BitVec.reduceToNat, Option.bind_eq_bind, Option.bind_some, decOperand_enc,
    decArith_enc])
theorem idiv (h : Hdr) (m : Arith) (d a b : Operand) : Statement (.idiv h m d a b) := lane rfl rfl rfl (by
  simp only [decodeClass, wordOf, decodeInt, BitVec.reduceExtractLsb', BitVec.reduceToNat, Option.bind_eq_bind, Option.bind_some, decOperand_enc,
    decArith_enc])
theorem irem (h : Hdr) (m : Arith) (d a b : Operand) : Statement (.irem h m d a b) := lane rfl rfl rfl (by
  simp only [decodeClass, wordOf, decodeInt, BitVec.reduceExtractLsb', BitVec.reduceToNat, Option.bind_eq_bind, Option.bind_some, decOperand_enc,
    decArith_enc])
theorem imin (h : Hdr) (m : Arith) (d a b : Operand) : Statement (.imin h m d a b) := lane rfl rfl rfl (by
  simp only [decodeClass, wordOf, decodeInt, BitVec.reduceExtractLsb', BitVec.reduceToNat, Option.bind_eq_bind, Option.bind_some, decOperand_enc,
    decArith_enc])
theorem imax (h : Hdr) (m : Arith) (d a b : Operand) : Statement (.imax h m d a b) := lane rfl rfl rfl (by
  simp only [decodeClass, wordOf, decodeInt, BitVec.reduceExtractLsb', BitVec.reduceToNat, Option.bind_eq_bind, Option.bind_some, decOperand_enc,
    decArith_enc])
theorem iabs (h : Hdr) (m : Arith) (d a : Operand) : Statement (.iabs h m d a) := lane rfl rfl rfl (by
  simp only [decodeClass, wordOf, decodeInt, BitVec.reduceExtractLsb', BitVec.reduceToNat, Option.bind_eq_bind, Option.bind_some, decOperand_enc,
    decArith_enc, chk, BEq.rfl, if_true])
theorem ineg (h : Hdr) (m : Arith) (d a : Operand) : Statement (.ineg h m d a) := lane rfl rfl rfl (by
  simp only [decodeClass, wordOf, decodeInt, BitVec.reduceExtractLsb', BitVec.reduceToNat, Option.bind_eq_bind, Option.bind_some, decOperand_enc,
    decArith_enc, chk, BEq.rfl, if_true])
theorem lea (h : Hdr) (m : Arith) (d a b : Operand) : Statement (.lea h m d a b) := lane rfl rfl rfl (by
  simp only [decodeClass, wordOf, decodeInt, BitVec.reduceExtractLsb', BitVec.reduceToNat, Option.bind_eq_bind, Option.bind_some, decOperand_enc,
    decArith_enc])
theorem idot4 (h : Hdr) (m : Arith) (d a b : Operand) : Statement (.idot4 h m d a b) := lane rfl rfl rfl (by
  simp only [decodeClass, wordOf, decodeInt, BitVec.reduceExtractLsb', BitVec.reduceToNat, Option.bind_eq_bind, Option.bind_some, decOperand_enc,
    decArith_enc])
theorem isad (h : Hdr) (m : Arith) (d a b : Operand) : Statement (.isad h m d a b) := lane rfl rfl rfl (by
  simp only [decodeClass, wordOf, decodeInt, BitVec.reduceExtractLsb', BitVec.reduceToNat, Option.bind_eq_bind, Option.bind_some, decOperand_enc,
    decArith_enc])
theorem land (h : Hdr) (m : Arith) (d a b : Operand) : Statement (.land h m d a b) := lane rfl rfl rfl (by
  simp only [decodeClass, wordOf, decodeLogic, BitVec.reduceExtractLsb', BitVec.reduceToNat, Option.bind_eq_bind, Option.bind_some,
    decOperand_enc, decArith_enc])
theorem lor (h : Hdr) (m : Arith) (d a b : Operand) : Statement (.lor h m d a b) := lane rfl rfl rfl (by
  simp only [decodeClass, wordOf, decodeLogic, BitVec.reduceExtractLsb', BitVec.reduceToNat, Option.bind_eq_bind, Option.bind_some,
    decOperand_enc, decArith_enc])
theorem lxor (h : Hdr) (m : Arith) (d a b : Operand) : Statement (.lxor h m d a b) := lane rfl rfl rfl (by
  simp only [decodeClass, wordOf, decodeLogic, BitVec.reduceExtractLsb', BitVec.reduceToNat, Option.bind_eq_bind, Option.bind_some,
    decOperand_enc, decArith_enc])
theorem andn (h : Hdr) (m : Arith) (d a b : Operand) : Statement (.andn h m d a b) := lane rfl rfl rfl (by
  simp only [decodeClass, wordOf, decodeLogic, BitVec.reduceExtractLsb', BitVec.reduceToNat, Option.bind_eq_bind, Option.bind_some,
    decOperand_enc, decArith_enc])
theorem lnot (h : Hdr) (m : Arith) (d a : Operand) : Statement (.lnot h m d a) := lane rfl rfl rfl (by
  simp only [decodeClass, wordOf, decodeLogic, BitVec.reduceExtractLsb', BitVec.reduceToNat, Option.bind_eq_bind, Option.bind_some,
    decOperand_enc, decArith_enc, chk, BEq.rfl, if_true])
theorem lop3 (h : Hdr) (m : Arith) (d a b : Operand) : Statement (.lop3 h m d a b) := lane rfl rfl rfl (by
  simp only [decodeClass, wordOf, decodeLogic, BitVec.reduceExtractLsb', BitVec.reduceToNat, Option.bind_eq_bind, Option.bind_some,
    decOperand_enc, decArith_enc])
theorem shl (h : Hdr) (m : Arith) (d a b : Operand) : Statement (.shl h m d a b) := lane rfl rfl rfl (by
  simp only [decodeClass, wordOf, decodeLogic, BitVec.reduceExtractLsb', BitVec.reduceToNat, Option.bind_eq_bind, Option.bind_some,
    decOperand_enc, decArith_enc])
theorem shr (h : Hdr) (m : Arith) (d a b : Operand) : Statement (.shr h m d a b) := lane rfl rfl rfl (by
  simp only [decodeClass, wordOf, decodeLogic, BitVec.reduceExtractLsb', BitVec.reduceToNat, Option.bind_eq_bind, Option.bind_some,
    decOperand_enc, decArith_enc])
theorem sar (h : Hdr) (m : Arith) (d a b : Operand) : Statement (.sar h m d a b) := lane rfl rfl rfl (by
  simp only [decodeClass, wordOf, decodeLogic, BitVec.reduceExtractLsb', BitVec.reduceToNat, Option.bind_eq_bind, Option.bind_some,
    decOperand_enc, decArith_enc])
theorem rol (h : Hdr) (m : Arith) (d a b : Operand) : Statement (.rol h m d a b) := lane rfl rfl rfl (by
  simp only [decodeClass, wordOf, decodeLogic, BitVec.reduceExtractLsb', BitVec.reduceToNat, Option.bind_eq_bind, Option.bind_some,
    decOperand_enc, decArith_enc])
theorem fshl (h : Hdr) (m : Arith) (d a b : Operand) : Statement (.fshl h m d a b) := lane rfl rfl rfl (by
  simp only [decodeClass, wordOf, decodeLogic, BitVec.reduceExtractLsb', BitVec.reduceToNat, Option.bind_eq_bind, Option.bind_some,
    decOperand_enc, decArith_enc])
theorem bfe (h : Hdr) (m : Arith) (d a b : Operand) : Statement (.bfe h m d a b) := lane rfl rfl rfl (by
  simp only [decodeClass, wordOf, decodeLogic, BitVec.reduceExtractLsb', BitVec.reduceToNat, Option.bind_eq_bind, Option.bind_some,
    decOperand_enc, decArith_enc])
theorem bfi (h : Hdr) (m : Arith) (d a b : Operand) : Statement (.bfi h m d a b) := lane rfl rfl rfl (by
  simp only [decodeClass, wordOf, decodeLogic, BitVec.reduceExtractLsb', BitVec.reduceToNat, Option.bind_eq_bind, Option.bind_some,
    decOperand_enc, decArith_enc])
theorem popc (h : Hdr) (m : Arith) (d a : Operand) : Statement (.popc h m d a) := lane rfl rfl rfl (by
  simp only [decodeClass, wordOf, decodeLogic, BitVec.reduceExtractLsb', BitVec.reduceToNat, Option.bind_eq_bind, Option.bind_some,
    decOperand_enc, decArith_enc, chk, BEq.rfl, if_true])
theorem clz (h : Hdr) (m : Arith) (d a : Operand) : Statement (.clz h m d a) := lane rfl rfl rfl (by
  simp only [decodeClass, wordOf, decodeLogic, BitVec.reduceExtractLsb', BitVec.reduceToNat, Option.bind_eq_bind, Option.bind_some,
    decOperand_enc, decArith_enc, chk, BEq.rfl, if_true])
theorem ctz (h : Hdr) (m : Arith) (d a : Operand) : Statement (.ctz h m d a) := lane rfl rfl rfl (by
  simp only [decodeClass, wordOf, decodeLogic, BitVec.reduceExtractLsb', BitVec.reduceToNat, Option.bind_eq_bind, Option.bind_some,
    decOperand_enc, decArith_enc, chk, BEq.rfl, if_true])
theorem brev (h : Hdr) (m : Arith) (d a : Operand) : Statement (.brev h m d a) := lane rfl rfl rfl (by
  simp only [decodeClass, wordOf, decodeLogic, BitVec.reduceExtractLsb', BitVec.reduceToNat, Option.bind_eq_bind, Option.bind_some,
    decOperand_enc, decArith_enc, chk, BEq.rfl, if_true])
theorem prmt (h : Hdr) (m : Arith) (d a b : Operand) : Statement (.prmt h m d a b) := lane rfl rfl rfl (by
  simp only [decodeClass, wordOf, decodeLogic, BitVec.reduceExtractLsb', BitVec.reduceToNat, Option.bind_eq_bind, Option.bind_some,
    decOperand_enc, decArith_enc])
theorem mov (h : Hdr) (d a : Operand) : Statement (.mov h d a) := lane rfl rfl rfl (by
  simp only [decodeClass, wordOf, decodeMove, BitVec.reduceExtractLsb', BitVec.reduceToNat, Option.bind_eq_bind, Option.bind_some, decOperand_enc,
    fam_num, chk, BEq.rfl, if_true])
theorem movi (h : Hdr) (d : Operand) (c : Word) : Statement (.movi h d c) := lane rfl rfl rfl (by
  simp only [decodeClass, wordOf, decodeMove, BitVec.reduceExtractLsb', BitVec.reduceToNat, Option.bind_eq_bind, Option.bind_some, decOperand_enc,
    fam_num, decMovi_enc, chk, if_true])
theorem mov64 (h : Hdr) (hnd : Bool) (d a : Operand) : Statement (.mov64 h hnd d a) := lane rfl rfl rfl (by
  simp only [decodeClass, wordOf, decodeMove, BitVec.reduceExtractLsb', BitVec.reduceToNat, Option.bind_eq_bind, Option.bind_some, decOperand_enc,
    fam_bit, chk, BEq.rfl, if_true])
theorem movx (h : Hdr) (sp : Bool) (d a b : Operand) : Statement (.movx h sp d a b) := lane rfl rfl rfl (by
  simp only [decodeClass, wordOf, decodeMove, BitVec.reduceExtractLsb', BitVec.reduceToNat, Option.bind_eq_bind, Option.bind_some, decOperand_enc,
    fam_bit, chk, if_true])
theorem stx (h : Hdr) (sp : Bool) (d a b : Operand) : Statement (.stx h sp d a b) := lane rfl rfl rfl (by
  simp only [decodeClass, wordOf, decodeMove, BitVec.reduceExtractLsb', BitVec.reduceToNat, Option.bind_eq_bind, Option.bind_some, decOperand_enc,
    fam_bit, chk, if_true])
theorem shfl (h : Hdr) (mode : ShflMode) (d a b : Operand) : Statement (.shfl h mode d a b) := lane rfl rfl rfl (by
  simp only [decodeClass, wordOf, decodeMove, BitVec.reduceExtractLsb', BitVec.reduceToNat, Option.bind_eq_bind, Option.bind_some, decOperand_enc,
    decShfl_enc])
theorem bcast (h : Hdr) (d a b : Operand) : Statement (.bcast h d a b) := lane rfl rfl rfl (by
  simp only [decodeClass, wordOf, decodeMove, BitVec.reduceExtractLsb', BitVec.reduceToNat, Option.bind_eq_bind, Option.bind_some, decOperand_enc,
    fam_num, chk, if_true])
theorem vote (h : Hdr) (kind : VoteKind) (d a : Operand) : Statement (.vote h kind d a) := lane rfl rfl rfl (by
  simp only [decodeClass, wordOf, decodeMove, BitVec.reduceExtractLsb', BitVec.reduceToNat, Option.bind_eq_bind, Option.bind_some, decOperand_enc,
    decVote_enc, chk, BEq.rfl, if_true])
theorem redux (h : Hdr) (ty : Ty) (oper : RedOper) (d a : Operand) : Statement (.redux h ty oper d a) := lane rfl rfl rfl (by
  simp only [decodeClass, wordOf, decodeMove, BitVec.reduceExtractLsb', BitVec.reduceToNat, Option.bind_eq_bind, Option.bind_some, decOperand_enc,
    fam_redux, chk, BEq.rfl, if_true])
theorem expw (h : Hdr) (scope : WScope) (group : BitVec 8) (d a b : Operand) : Statement (.expw h scope group d a b) := lane rfl rfl rfl (by
  simp only [decodeClass, wordOf, decodeMove, BitVec.reduceExtractLsb', BitVec.reduceToNat, Option.bind_eq_bind, Option.bind_some, decOperand_enc,
    fam_expw])
theorem revw (h : Hdr) (d : Operand) : Statement (.revw h d) := lane rfl rfl rfl (by
  simp only [decodeClass, wordOf, decodeMove, BitVec.reduceExtractLsb', BitVec.reduceToNat, Option.bind_eq_bind, Option.bind_some, decOperand_enc,
    fam_num, chk, BEq.rfl, if_true])
theorem bindw (h : Hdr) (d a : Operand) : Statement (.bindw h d a) := lane rfl rfl rfl (by
  simp only [decodeClass, wordOf, decodeMove, BitVec.reduceExtractLsb', BitVec.reduceToNat, Option.bind_eq_bind, Option.bind_some, decOperand_enc,
    fam_num, chk, BEq.rfl, if_true])
theorem setf (h : Hdr) (d : Operand) : Statement (.setf h d) := lane rfl rfl rfl (by
  simp only [decodeClass, wordOf, decodeMove, BitVec.reduceExtractLsb', BitVec.reduceToNat, Option.bind_eq_bind, Option.bind_some, decOperand_enc,
    fam_num, chk, BEq.rfl, if_true])
theorem clrf (h : Hdr) (d : Operand) : Statement (.clrf h d) := lane rfl rfl rfl (by
  simp only [decodeClass, wordOf, decodeMove, BitVec.reduceExtractLsb', BitVec.reduceToNat, Option.bind_eq_bind, Option.bind_some, decOperand_enc,
    fam_num, chk, BEq.rfl, if_true])
theorem testf (h : Hdr) (d a : Operand) : Statement (.testf h d a) := lane rfl rfl rfl (by
  simp only [decodeClass, wordOf, decodeMove, BitVec.reduceExtractLsb', BitVec.reduceToNat, Option.bind_eq_bind, Option.bind_some, decOperand_enc,
    fam_num, chk, BEq.rfl, if_true])
theorem frame (h : Hdr) (d a : Operand) : Statement (.frame h d a) := lane rfl rfl rfl (by
  simp only [decodeClass, wordOf, decodeMove, BitVec.reduceExtractLsb', BitVec.reduceToNat, Option.bind_eq_bind, Option.bind_some, decOperand_enc,
    fam_num, chk, BEq.rfl, if_true])
theorem unframe (h : Hdr) (d a : Operand) : Statement (.unframe h d a) := lane rfl rfl rfl (by
  simp only [decodeClass, wordOf, decodeMove, BitVec.reduceExtractLsb', BitVec.reduceToNat, Option.bind_eq_bind, Option.bind_some, decOperand_enc,
    fam_num, chk, BEq.rfl, if_true])
theorem isetp (h : Hdr) (ty : Ty) (rel : BitVec 4) (d a b : Operand) : Statement (.isetp h ty rel d a b) := lane rfl rfl rfl (by
  simp only [decodeClass, wordOf, decodeCmp, BitVec.reduceExtractLsb', BitVec.reduceToNat, Option.bind_eq_bind, Option.bind_some, decOperand_enc,
    fam_rel, chk, if_true])
theorem iset (h : Hdr) (ty : Ty) (rel : BitVec 4) (d a b : Operand) : Statement (.iset h ty rel d a b) := lane rfl rfl rfl (by
  simp only [decodeClass, wordOf, decodeCmp, BitVec.reduceExtractLsb', BitVec.reduceToNat, Option.bind_eq_bind, Option.bind_some, decOperand_enc,
    fam_rel, chk, if_true])
theorem sel (h : Hdr) (ty : Ty) (d a b : Operand) : Statement (.sel h ty d a b) := lane rfl rfl rfl (by
  simp only [decodeClass, wordOf, decodeCmp, BitVec.reduceExtractLsb', BitVec.reduceToNat, Option.bind_eq_bind, Option.bind_some, decOperand_enc,
    fam_ty, chk, if_true])
theorem psetp (h : Hdr) (ty : Ty) (tt : BitVec 4) (d a b : Operand) : Statement (.psetp h ty tt d a b) := lane rfl rfl rfl (by
  simp only [decodeClass, wordOf, decodeCmp, BitVec.reduceExtractLsb', BitVec.reduceToNat, Option.bind_eq_bind, Option.bind_some, decOperand_enc,
    fam_rel, chk, if_true])
theorem p2v (h : Hdr) (ty : Ty) (d : Operand) : Statement (.p2v h ty d) := lane rfl rfl rfl (by
  simp only [decodeClass, wordOf, decodeCmp, BitVec.reduceExtractLsb', BitVec.reduceToNat, Option.bind_eq_bind, Option.bind_some, decOperand_enc,
    fam_ty, chk, BEq.rfl, if_true])
theorem v2p (h : Hdr) (ty : Ty) (a b : Operand) : Statement (.v2p h ty a b) := lane rfl rfl rfl (by
  simp only [decodeClass, wordOf, decodeCmp, BitVec.reduceExtractLsb', BitVec.reduceToNat, Option.bind_eq_bind, Option.bind_some, decOperand_enc,
    fam_ty, chk, BEq.rfl, if_true])
theorem fadd (h : Hdr) (m : Arith) (d a b : Operand) : Statement (.fadd h m d a b) := lane rfl rfl rfl (by
  simp only [decodeClass, wordOf, decodeF32, BitVec.reduceExtractLsb', BitVec.reduceToNat, Option.bind_eq_bind, Option.bind_some, decOperand_enc,
    decArith_enc])
theorem fsub (h : Hdr) (m : Arith) (d a b : Operand) : Statement (.fsub h m d a b) := lane rfl rfl rfl (by
  simp only [decodeClass, wordOf, decodeF32, BitVec.reduceExtractLsb', BitVec.reduceToNat, Option.bind_eq_bind, Option.bind_some, decOperand_enc,
    decArith_enc])
theorem fmul (h : Hdr) (m : Arith) (d a b : Operand) : Statement (.fmul h m d a b) := lane rfl rfl rfl (by
  simp only [decodeClass, wordOf, decodeF32, BitVec.reduceExtractLsb', BitVec.reduceToNat, Option.bind_eq_bind, Option.bind_some, decOperand_enc,
    decArith_enc])
theorem ffma (h : Hdr) (m : Arith) (d a b : Operand) : Statement (.ffma h m d a b) := lane rfl rfl rfl (by
  simp only [decodeClass, wordOf, decodeF32, BitVec.reduceExtractLsb', BitVec.reduceToNat, Option.bind_eq_bind, Option.bind_some, decOperand_enc,
    decArith_enc])
theorem fmin (h : Hdr) (m : Arith) (d a b : Operand) : Statement (.fmin h m d a b) := lane rfl rfl rfl (by
  simp only [decodeClass, wordOf, decodeF32, BitVec.reduceExtractLsb', BitVec.reduceToNat, Option.bind_eq_bind, Option.bind_some, decOperand_enc,
    decArith_enc])
theorem fmax (h : Hdr) (m : Arith) (d a b : Operand) : Statement (.fmax h m d a b) := lane rfl rfl rfl (by
  simp only [decodeClass, wordOf, decodeF32, BitVec.reduceExtractLsb', BitVec.reduceToNat, Option.bind_eq_bind, Option.bind_some, decOperand_enc,
    decArith_enc])
theorem fminm (h : Hdr) (m : Arith) (d a b : Operand) : Statement (.fminm h m d a b) := lane rfl rfl rfl (by
  simp only [decodeClass, wordOf, decodeF32, BitVec.reduceExtractLsb', BitVec.reduceToNat, Option.bind_eq_bind, Option.bind_some, decOperand_enc,
    decArith_enc])
theorem fmaxm (h : Hdr) (m : Arith) (d a b : Operand) : Statement (.fmaxm h m d a b) := lane rfl rfl rfl (by
  simp only [decodeClass, wordOf, decodeF32, BitVec.reduceExtractLsb', BitVec.reduceToNat, Option.bind_eq_bind, Option.bind_some, decOperand_enc,
    decArith_enc])
theorem fsetp (h : Hdr) (m : FCmp) (d a b : Operand) : Statement (.fsetp h m d a b) := lane rfl rfl rfl (by
  simp only [decodeClass, wordOf, decodeF32, BitVec.reduceExtractLsb', BitVec.reduceToNat, Option.bind_eq_bind, Option.bind_some, decOperand_enc,
    decFCmp_enc])
theorem fclass (h : Hdr) (m : Arith) (d a : Operand) : Statement (.fclass h m d a) := lane rfl rfl rfl (by
  simp only [decodeClass, wordOf, decodeF32, BitVec.reduceExtractLsb', BitVec.reduceToNat, Option.bind_eq_bind, Option.bind_some, decOperand_enc,
    decArith_enc, chk, BEq.rfl, if_true])
theorem frnd (h : Hdr) (m : Arith) (d a : Operand) : Statement (.frnd h m d a) := lane rfl rfl rfl (by
  simp only [decodeClass, wordOf, decodeF32, BitVec.reduceExtractLsb', BitVec.reduceToNat, Option.bind_eq_bind, Option.bind_some, decOperand_enc,
    decArith_enc, chk, BEq.rfl, if_true])
theorem ffrc (h : Hdr) (m : Arith) (d a : Operand) : Statement (.ffrc h m d a) := lane rfl rfl rfl (by
  simp only [decodeClass, wordOf, decodeF32, BitVec.reduceExtractLsb', BitVec.reduceToNat, Option.bind_eq_bind, Option.bind_some, decOperand_enc,
    decArith_enc, chk, BEq.rfl, if_true])
theorem fscale (h : Hdr) (m : Arith) (d a b : Operand) : Statement (.fscale h m d a b) := lane rfl rfl rfl (by
  simp only [decodeClass, wordOf, decodeF32, BitVec.reduceExtractLsb', BitVec.reduceToNat, Option.bind_eq_bind, Option.bind_some, decOperand_enc,
    decArith_enc])
theorem fgetexp (h : Hdr) (m : Arith) (d a : Operand) : Statement (.fgetexp h m d a) := lane rfl rfl rfl (by
  simp only [decodeClass, wordOf, decodeF32, BitVec.reduceExtractLsb', BitVec.reduceToNat, Option.bind_eq_bind, Option.bind_some, decOperand_enc,
    decArith_enc, chk, BEq.rfl, if_true])
theorem fdiv (h : Hdr) (m : Arith) (d a b : Operand) : Statement (.fdiv h m d a b) := lane rfl rfl rfl (by
  simp only [decodeClass, wordOf, decodeF32, BitVec.reduceExtractLsb', BitVec.reduceToNat, Option.bind_eq_bind, Option.bind_some, decOperand_enc,
    decArith_enc])
theorem fsqrt (h : Hdr) (m : Arith) (d a : Operand) : Statement (.fsqrt h m d a) := lane rfl rfl rfl (by
  simp only [decodeClass, wordOf, decodeF32, BitVec.reduceExtractLsb', BitVec.reduceToNat, Option.bind_eq_bind, Option.bind_some, decOperand_enc,
    decArith_enc, chk, BEq.rfl, if_true])
theorem frcp (h : Hdr) (m : Arith) (d a : Operand) : Statement (.frcp h m d a) := lane rfl rfl rfl (by
  simp only [decodeClass, wordOf, decodeF32, BitVec.reduceExtractLsb', BitVec.reduceToNat, Option.bind_eq_bind, Option.bind_some, decOperand_enc,
    decArith_enc, chk, BEq.rfl, if_true])
theorem frsq (h : Hdr) (m : Arith) (d a : Operand) : Statement (.frsq h m d a) := lane rfl rfl rfl (by
  simp only [decodeClass, wordOf, decodeF32, BitVec.reduceExtractLsb', BitVec.reduceToNat, Option.bind_eq_bind, Option.bind_some, decOperand_enc,
    decArith_enc, chk, BEq.rfl, if_true])
theorem fexp2 (h : Hdr) (m : Arith) (d a : Operand) : Statement (.fexp2 h m d a) := lane rfl rfl rfl (by
  simp only [decodeClass, wordOf, decodeF32, BitVec.reduceExtractLsb', BitVec.reduceToNat, Option.bind_eq_bind, Option.bind_some, decOperand_enc,
    decArith_enc, chk, BEq.rfl, if_true])
theorem flog2 (h : Hdr) (m : Arith) (d a : Operand) : Statement (.flog2 h m d a) := lane rfl rfl rfl (by
  simp only [decodeClass, wordOf, decodeF32, BitVec.reduceExtractLsb', BitVec.reduceToNat, Option.bind_eq_bind, Option.bind_some, decOperand_enc,
    decArith_enc, chk, BEq.rfl, if_true])
theorem fsinpi (h : Hdr) (m : Arith) (d a : Operand) : Statement (.fsinpi h m d a) := lane rfl rfl rfl (by
  simp only [decodeClass, wordOf, decodeF32, BitVec.reduceExtractLsb', BitVec.reduceToNat, Option.bind_eq_bind, Option.bind_some, decOperand_enc,
    decArith_enc, chk, BEq.rfl, if_true])
theorem fcospi (h : Hdr) (m : Arith) (d a : Operand) : Statement (.fcospi h m d a) := lane rfl rfl rfl (by
  simp only [decodeClass, wordOf, decodeF32, BitVec.reduceExtractLsb', BitVec.reduceToNat, Option.bind_eq_bind, Option.bind_some, decOperand_enc,
    decArith_enc, chk, BEq.rfl, if_true])
theorem ftanh (h : Hdr) (m : Arith) (d a : Operand) : Statement (.ftanh h m d a) := lane rfl rfl rfl (by
  simp only [decodeClass, wordOf, decodeF32, BitVec.reduceExtractLsb', BitVec.reduceToNat, Option.bind_eq_bind, Option.bind_some, decOperand_enc,
    decArith_enc, chk, BEq.rfl, if_true])
theorem hadd2 (h : Hdr) (m : Arith) (d a b : Operand) : Statement (.hadd2 h m d a b) := lane rfl rfl rfl (by
  simp only [decodeClass, wordOf, decodeHalf, BitVec.reduceExtractLsb', BitVec.reduceToNat, Option.bind_eq_bind, Option.bind_some, decOperand_enc,
    decArith_enc])
theorem hmul2 (h : Hdr) (m : Arith) (d a b : Operand) : Statement (.hmul2 h m d a b) := lane rfl rfl rfl (by
  simp only [decodeClass, wordOf, decodeHalf, BitVec.reduceExtractLsb', BitVec.reduceToNat, Option.bind_eq_bind, Option.bind_some, decOperand_enc,
    decArith_enc])
theorem hfma2 (h : Hdr) (m : Arith) (d a b : Operand) : Statement (.hfma2 h m d a b) := lane rfl rfl rfl (by
  simp only [decodeClass, wordOf, decodeHalf, BitVec.reduceExtractLsb', BitVec.reduceToNat, Option.bind_eq_bind, Option.bind_some, decOperand_enc,
    decArith_enc])
theorem hmin2 (h : Hdr) (m : Arith) (d a b : Operand) : Statement (.hmin2 h m d a b) := lane rfl rfl rfl (by
  simp only [decodeClass, wordOf, decodeHalf, BitVec.reduceExtractLsb', BitVec.reduceToNat, Option.bind_eq_bind, Option.bind_some, decOperand_enc,
    decArith_enc])
theorem hmax2 (h : Hdr) (m : Arith) (d a b : Operand) : Statement (.hmax2 h m d a b) := lane rfl rfl rfl (by
  simp only [decodeClass, wordOf, decodeHalf, BitVec.reduceExtractLsb', BitVec.reduceToNat, Option.bind_eq_bind, Option.bind_some, decOperand_enc,
    decArith_enc])
theorem hsetp2 (h : Hdr) (m : FCmp) (d a b : Operand) : Statement (.hsetp2 h m d a b) := lane rfl rfl rfl (by
  simp only [decodeClass, wordOf, decodeHalf, BitVec.reduceExtractLsb', BitVec.reduceToNat, Option.bind_eq_bind, Option.bind_some, decOperand_enc,
    decFCmp_enc])
theorem fcvt (h : Hdr) (rnd : Rnd) (dirFrom : Bool) (slot : BitVec 3) (d a : Operand) : Statement (.fcvt h rnd dirFrom slot d a) := lane rfl rfl rfl
  (by
  simp (disch := omega) only [decodeClass, wordOf, decodeConv, BitVec.reduceExtractLsb', BitVec.reduceToNat, Option.bind_eq_bind,
    Option.bind_some, decOperand_enc, fam_fcvt, decRnd_enc, extract_append_hi, extract_append_lo, get_append_hi, get_append_lo, extract_self,
    get_bits1, Nat.reduceSub, chk, BEq.rfl, if_true])
theorem f2i (h : Hdr) (rnd : Rnd) (dt : ITy) (sf : VFmt) (d a : Operand) : Statement (.f2i h rnd dt sf d a) := lane rfl rfl rfl (by
  simp (disch := omega) only [decodeClass, wordOf, decodeConv, BitVec.reduceExtractLsb', BitVec.reduceToNat, Option.bind_eq_bind,
    Option.bind_some, decOperand_enc, decRnd_enc, decITy_enc, decVFmt_enc, extract_append_hi, extract_append_lo, extract_self, Nat.reduceSub, chk,
    BEq.rfl, if_true])
theorem i2f (h : Hdr) (rnd : Rnd) (df : VFmt) (st : ITy) (d a : Operand) : Statement (.i2f h rnd df st d a) := lane rfl rfl rfl (by
  simp (disch := omega) only [decodeClass, wordOf, decodeConv, BitVec.reduceExtractLsb', BitVec.reduceToNat, Option.bind_eq_bind,
    Option.bind_some, decOperand_enc, decRnd_enc, decITy_enc, decVFmt_enc, extract_append_hi, extract_append_lo, extract_self, Nat.reduceSub, chk,
    BEq.rfl, if_true])
theorem fpack (h : Hdr) (rnd : Rnd) (slot : BitVec 3) (d a b : Operand) : Statement (.fpack h rnd slot d a b) := lane rfl rfl rfl (by
  simp (disch := omega) only [decodeClass, wordOf, decodeConv, BitVec.reduceExtractLsb', BitVec.reduceToNat, Option.bind_eq_bind,
    Option.bind_some, decOperand_enc, fam_fpack, decRnd_enc, extract_append_hi, extract_append_lo, extract_self, Nat.reduceSub, chk, if_true])
theorem funpack (h : Hdr) (slot : BitVec 3) (d a b : Operand) : Statement (.funpack h slot d a b) := lane rfl rfl rfl (by
  simp (disch := omega) only [decodeClass, wordOf, decodeConv, BitVec.reduceExtractLsb', BitVec.reduceToNat, Option.bind_eq_bind,
    Option.bind_some, decOperand_enc, fam_funpack, extract_append_lo, extract_self, chk, if_true])
theorem qblk (h : Hdr) (j : BlkIdx) (slot : BitVec 3) (d a : Operand) : Statement (.qblk h j slot d a) := lane rfl rfl rfl (by
  simp (disch := omega) only [decodeClass, wordOf, decodeConv, BitVec.reduceExtractLsb', BitVec.reduceToNat, Option.bind_eq_bind,
    Option.bind_some, decOperand_enc, fam_qblk, extract_append_hi, extract_append_lo, extract_self, Nat.reduceSub, chk, BEq.rfl, if_true])
theorem ld (h : Hdr) (size : Size) (d a b : Operand) : Statement (.ld h size d a b) := lane rfl rfl rfl (by
  simp only [decodeClass, wordOf, decodeLoad, BitVec.reduceExtractLsb', BitVec.reduceToNat, Option.bind_eq_bind, Option.bind_some, decOperand_enc,
    fam_size, chk, if_true])
theorem st (h : Hdr) (size : Size) (d a b : Operand) : Statement (.st h size d a b) := lane rfl rfl rfl (by
  simp only [decodeClass, wordOf, decodeLoad, BitVec.reduceExtractLsb', BitVec.reduceToNat, Option.bind_eq_bind, Option.bind_some, decOperand_enc,
    fam_size, chk, if_true])
theorem lda (h : Hdr) (scope : Scope) (size : Size) (d a b : Operand) : Statement (.lda h scope size d a b) := lane rfl rfl rfl (by
  simp only [decodeClass, wordOf, decodeLoad, BitVec.reduceExtractLsb', BitVec.reduceToNat, Option.bind_eq_bind, Option.bind_some, decOperand_enc,
    fam_scope, chk, if_true])
theorem stl (h : Hdr) (scope : Scope) (size : Size) (d a b : Operand) : Statement (.stl h scope size d a b) := lane rfl rfl rfl (by
  simp only [decodeClass, wordOf, decodeLoad, BitVec.reduceExtractLsb', BitVec.reduceToNat, Option.bind_eq_bind, Option.bind_some, decOperand_enc,
    fam_scope, chk, if_true])
theorem atom (h : Hdr) (ord : AOrd) (ty : Ty) (oper : AOper) (d a b : Operand) : Statement (.atom h ord ty oper d a b) := lane rfl rfl rfl (by
  simp only [decodeClass, wordOf, decodeAtomic, BitVec.reduceExtractLsb', BitVec.reduceToNat, Option.bind_eq_bind, Option.bind_some,
    decOperand_enc, fam_atom])
theorem red (h : Hdr) (ord : AOrd) (ty : Ty) (oper : AOper) (a b : Operand) : Statement (.red h ord ty oper a b) := lane rfl rfl rfl (by
  simp only [decodeClass, wordOf, decodeAtomic, BitVec.reduceExtractLsb', BitVec.reduceToNat, Option.bind_eq_bind, Option.bind_some,
    decOperand_enc, fam_atom, chk, BEq.rfl, if_true])
theorem fence (h : Hdr) (scope : Scope) (kind : FenceKind) : Statement (.fence h scope kind) := lane rfl rfl rfl (by
  simp only [decodeClass, wordOf, decodeAtomic, BitVec.reduceExtractLsb', BitVec.reduceToNat, Option.bind_eq_bind, Option.bind_some, fam_fence,
    chk, BEq.rfl, if_true])
theorem cpy (h : Hdr) (size : CpySize) (dsp ssp : Space) (d a b : Operand) : Statement (.cpy h size dsp ssp d a b) := lane rfl rfl rfl (by
  simp (disch := omega) only [decodeClass, wordOf, decodeCopy, BitVec.reduceExtractLsb', BitVec.reduceToNat, Option.bind_eq_bind,
    Option.bind_some, decOperand_enc, fam_cpy, decCpySize_enc, decSpace_enc, extract_append_hi, extract_append_lo, extract_self, Nat.reduceSub,
    chk, if_true])
theorem cpym (h : Hdr) (g : EGuard) (d a : Operand) : Statement (.cpym h g d a) := lane rfl rfl rfl (by
  simp only [decodeClass, wordOf, decodeCopy, BitVec.reduceExtractLsb', BitVec.reduceToNat, Option.bind_eq_bind, Option.bind_some, decOperand_enc,
    fam_eguard, chk, BEq.rfl, if_true])
theorem tcopy (h : Hdr) (st kvm : Bool) (g : EGuard) (d a b : Operand) : Statement (.tcopy h st kvm g d a b) := lane rfl rfl rfl (by
  simp only [decodeClass, wordOf, decodeCopy, BitVec.reduceExtractLsb', BitVec.reduceToNat, Option.bind_eq_bind, Option.bind_some, decOperand_enc,
    fam_tcopy, chk, if_true])
theorem tsld (h : Hdr) (g : EGuard) (d a b : Operand) : Statement (.tsld h g d a b) := lane rfl rfl rfl (by
  simp only [decodeClass, wordOf, decodeCopy, BitVec.reduceExtractLsb', BitVec.reduceToNat, Option.bind_eq_bind, Option.bind_some, decOperand_enc,
    fam_eguard, chk, if_true])
theorem tsev (h : Hdr) (g : EGuard) (d : Operand) : Statement (.tsev h g d) := lane rfl rfl rfl (by
  simp only [decodeClass, wordOf, decodeCopy, BitVec.reduceExtractLsb', BitVec.reduceToNat, Option.bind_eq_bind, Option.bind_some, decOperand_enc,
    fam_eguard, chk, BEq.rfl, if_true])
theorem kick (h : Hdr) (a b : Operand) : Statement (.kick h a b) := lane rfl rfl rfl (by
  simp only [decodeClass, wordOf, decodeCopy, BitVec.reduceExtractLsb', BitVec.reduceToNat, Option.bind_eq_bind, Option.bind_some, decOperand_enc,
    fam_num, chk, BEq.rfl, if_true])
theorem kwait (h : Hdr) (tag : Bool) (d a : Operand) : Statement (.kwait h tag d a) := lane rfl rfl rfl (by
  simp only [decodeClass, wordOf, decodeCopy, BitVec.reduceExtractLsb', BitVec.reduceToNat, Option.bind_eq_bind, Option.bind_some, decOperand_enc,
    fam_bit, chk, BEq.rfl, if_true])
theorem pull (h : Hdr) (ack : Bool) (g : EGuard) (d a : Operand) : Statement (.pull h ack g d a) := lane rfl rfl rfl (by
  simp only [decodeClass, wordOf, decodeCopy, BitVec.reduceExtractLsb', BitVec.reduceToNat, Option.bind_eq_bind, Option.bind_some, decOperand_enc,
    fam_pull, chk, BEq.rfl, if_true])
theorem ack (h : Hdr) (a : Operand) : Statement (.ack h a) := lane rfl rfl rfl (by
  simp only [decodeClass, wordOf, decodeCopy, BitVec.reduceExtractLsb', BitVec.reduceToNat, Option.bind_eq_bind, Option.bind_some, decOperand_enc,
    fam_num, chk, BEq.rfl, if_true])
theorem tlrd (h : Hdr) (c : Tctx) (d a : Operand) : Statement (.tlrd h c d a) := lane rfl rfl rfl (by
  simp only [decodeClass, wordOf, decodeSync, BitVec.reduceExtractLsb', BitVec.reduceToNat, Option.bind_eq_bind, Option.bind_some, decOperand_enc,
    fam_tctx, chk, BEq.rfl, if_true])
theorem tltag (h : Hdr) (c : Tctx) (d a : Operand) : Statement (.tltag h c d a) := lane rfl rfl rfl (by
  simp only [decodeClass, wordOf, decodeSync, BitVec.reduceExtractLsb', BitVec.reduceToNat, Option.bind_eq_bind, Option.bind_some, decOperand_enc,
    fam_tctx, chk, BEq.rfl, if_true])
theorem tlwait (h : Hdr) (c : Tctx) (scope : Scope) (a b : Operand) : Statement (.tlwait h c scope a b) := lane rfl rfl rfl (by
  simp only [decodeClass, wordOf, decodeSync, BitVec.reduceExtractLsb', BitVec.reduceToNat, Option.bind_eq_bind, Option.bind_some, decOperand_enc,
    fam_tlwait, chk, BEq.rfl, if_true])
theorem bar (h : Hdr) (cnt : Bool) (a b : Operand) : Statement (.bar h cnt a b) := lane rfl rfl rfl (by
  simp only [decodeClass, wordOf, decodeSync, BitVec.reduceExtractLsb', BitVec.reduceToNat, Option.bind_eq_bind, Option.bind_some, decOperand_enc,
    fam_bit, chk, BEq.rfl, if_true])
theorem gbar (h : Hdr) (a : Operand) : Statement (.gbar h a) := lane rfl rfl rfl (by
  simp only [decodeClass, wordOf, decodeSync, BitVec.reduceExtractLsb', BitVec.reduceToNat, Option.bind_eq_bind, Option.bind_some, decOperand_enc,
    fam_num, chk, BEq.rfl, if_true])
theorem abinit (h : Hdr) (d a : Operand) : Statement (.abinit h d a) := lane rfl rfl rfl (by
  simp only [decodeClass, wordOf, decodeSync, BitVec.reduceExtractLsb', BitVec.reduceToNat, Option.bind_eq_bind, Option.bind_some, decOperand_enc,
    fam_num, chk, BEq.rfl, if_true])
theorem abexp (h : Hdr) (d a : Operand) : Statement (.abexp h d a) := lane rfl rfl rfl (by
  simp only [decodeClass, wordOf, decodeSync, BitVec.reduceExtractLsb', BitVec.reduceToNat, Option.bind_eq_bind, Option.bind_some, decOperand_enc,
    fam_num, chk, BEq.rfl, if_true])
theorem abarv (h : Hdr) (d a : Operand) : Statement (.abarv h d a) := lane rfl rfl rfl (by
  simp only [decodeClass, wordOf, decodeSync, BitVec.reduceExtractLsb', BitVec.reduceToNat, Option.bind_eq_bind, Option.bind_some, decOperand_enc,
    fam_num, chk, BEq.rfl, if_true])
theorem abwait (h : Hdr) (a b : Operand) : Statement (.abwait h a b) := lane rfl rfl rfl (by
  simp only [decodeClass, wordOf, decodeSync, BitVec.reduceExtractLsb', BitVec.reduceToNat, Option.bind_eq_bind, Option.bind_some, decOperand_enc,
    fam_num, chk, BEq.rfl, if_true])
theorem kdecl (h : Hdr) (block : Bool) (d a : Operand) : Statement (.kdecl h block d a) := lane rfl rfl rfl (by
  simp only [decodeClass, wordOf, decodeSync, BitVec.reduceExtractLsb', BitVec.reduceToNat, Option.bind_eq_bind, Option.bind_some, decOperand_enc,
    fam_bit, chk, BEq.rfl, if_true])
theorem sign (h : Hdr) (a : Operand) : Statement (.sign h a) := lane rfl rfl rfl (by
  simp only [decodeClass, wordOf, decodeSync, BitVec.reduceExtractLsb', BitVec.reduceToNat, Option.bind_eq_bind, Option.bind_some, decOperand_enc,
    fam_num, chk, BEq.rfl, if_true])
theorem rconv (h : Hdr) (d a b : Operand) : Statement (.rconv h d a b) := lane rfl rfl rfl (by
  simp only [decodeClass, wordOf, decodeSync, BitVec.reduceExtractLsb', BitVec.reduceToNat, Option.bind_eq_bind, Option.bind_some, decOperand_enc,
    fam_num, chk, if_true])
theorem gres (h : Hdr) (d a : Operand) : Statement (.gres h d a) := lane rfl rfl rfl (by
  simp only [decodeClass, wordOf, decodeSync, BitVec.reduceExtractLsb', BitVec.reduceToNat, Option.bind_eq_bind, Option.bind_some, decOperand_enc,
    fam_num, chk, BEq.rfl, if_true])
theorem gclr (h : Hdr) (d : Operand) : Statement (.gclr h d) := lane rfl rfl rfl (by
  simp only [decodeClass, wordOf, decodeSync, BitVec.reduceExtractLsb', BitVec.reduceToNat, Option.bind_eq_bind, Option.bind_some, decOperand_enc,
    fam_num, chk, BEq.rfl, if_true])
theorem yield (h : Hdr) : Statement (.yield h) := lane rfl rfl rfl (by
  simp only [decodeClass, wordOf, decodeSync, BitVec.reduceExtractLsb', BitVec.reduceToNat, Option.bind_eq_bind, Option.bind_some, fam_num, chk,
    BEq.rfl, if_true])
theorem sleep (h : Hdr) (a : Operand) : Statement (.sleep h a) := lane rfl rfl rfl (by
  simp only [decodeClass, wordOf, decodeSync, BitVec.reduceExtractLsb', BitVec.reduceToNat, Option.bind_eq_bind, Option.bind_some, decOperand_enc,
    fam_num, chk, BEq.rfl, if_true])
theorem bra (h : Hdr) (cnt : Bool) (d : Operand) (off : BitVec 34) : Statement (.bra h cnt d off) := lane rfl rfl rfl (by
  simp only [decodeClass, wordOf, decodeCtl, BitVec.reduceExtractLsb', BitVec.reduceToNat, Option.bind_eq_bind, Option.bind_some, decOperand_enc,
    fam_bit, decOff_enc, chk, if_true])
theorem brx (h : Hdr) (a : Operand) : Statement (.brx h a) := lane rfl rfl rfl (by
  simp only [decodeClass, wordOf, decodeCtl, BitVec.reduceExtractLsb', BitVec.reduceToNat, Option.bind_eq_bind, Option.bind_some, decOperand_enc,
    fam_num, chk, BEq.rfl, if_true])
theorem call (h : Hdr) (off : BitVec 34) : Statement (.call h off) := lane rfl rfl rfl (by
  simp only [decodeClass, wordOf, decodeCtl, BitVec.reduceExtractLsb', BitVec.reduceToNat, Option.bind_eq_bind, Option.bind_some, fam_num,
    decOff_enc, chk, BEq.rfl, if_true])
theorem callx (h : Hdr) (a : Operand) : Statement (.callx h a) := lane rfl rfl rfl (by
  simp only [decodeClass, wordOf, decodeCtl, BitVec.reduceExtractLsb', BitVec.reduceToNat, Option.bind_eq_bind, Option.bind_some, decOperand_enc,
    fam_num, chk, BEq.rfl, if_true])
theorem ret (h : Hdr) : Statement (.ret h) := lane rfl rfl rfl (by
  simp only [decodeClass, wordOf, decodeCtl, BitVec.reduceExtractLsb', BitVec.reduceToNat, Option.bind_eq_bind, Option.bind_some, fam_num, chk,
    BEq.rfl, if_true])
theorem exit (h : Hdr) : Statement (.exit h) := lane rfl rfl rfl (by
  simp only [decodeClass, wordOf, decodeCtl, BitVec.reduceExtractLsb', BitVec.reduceToNat, Option.bind_eq_bind, Option.bind_some, fam_num, chk,
    BEq.rfl, if_true])
theorem trap (h : Hdr) (a : Operand) : Statement (.trap h a) := lane rfl rfl rfl (by
  simp only [decodeClass, wordOf, decodeCtl, BitVec.reduceExtractLsb', BitVec.reduceToNat, Option.bind_eq_bind, Option.bind_some, decOperand_enc,
    fam_num, chk, BEq.rfl, if_true])
theorem tret (h : Hdr) : Statement (.tret h) := lane rfl rfl rfl (by
  simp only [decodeClass, wordOf, decodeCtl, BitVec.reduceExtractLsb', BitVec.reduceToNat, Option.bind_eq_bind, Option.bind_some, fam_num, chk,
    BEq.rfl, if_true])
theorem sysc (h : Hdr) (d a b : Operand) : Statement (.sysc h d a b) := lane rfl rfl rfl (by
  simp only [decodeClass, wordOf, decodeCtl, BitVec.reduceExtractLsb', BitVec.reduceToNat, Option.bind_eq_bind, Option.bind_some, decOperand_enc,
    fam_num, chk, if_true])
theorem nop (h : Hdr) : Statement (.nop h) := lane rfl rfl rfl (by
  simp only [decodeClass, wordOf, decodeCtl, BitVec.reduceExtractLsb', BitVec.reduceToNat, Option.bind_eq_bind, Option.bind_some, fam_num, chk,
    BEq.rfl, if_true])
theorem setpat (h : Hdr) (a : Operand) : Statement (.setpat h a) := lane rfl rfl rfl (by
  simp only [decodeClass, wordOf, decodeCtl, BitVec.reduceExtractLsb', BitVec.reduceToNat, Option.bind_eq_bind, Option.bind_some, decOperand_enc,
    fam_num, chk, BEq.rfl, if_true])
theorem mma (h : Hdr) (gsel : BitVec 3) (kreg : BitVec 4) (slot : BitVec 3) (d a b : Operand) : Statement (.mma h gsel kreg slot d a b) := lane rfl
  rfl rfl (by
  simp (disch := omega) only [decodeClass, wordOf, decodeArray, BitVec.reduceExtractLsb', BitVec.reduceToNat, Option.bind_eq_bind,
    Option.bind_some, decOperand_enc, extract_append_hi, extract_append_lo, extract_self, Nat.reduceSub])
theorem wld (h : Hdr) (gsel : BitVec 3) (nsm1 : BitVec 6) (d a b : Operand) : Statement (.wld h gsel nsm1 d a b) := lane rfl rfl rfl (by
  simp (disch := omega) only [decodeClass, wordOf, decodeArray, BitVec.reduceExtractLsb', BitVec.reduceToNat, Option.bind_eq_bind,
    Option.bind_some, decOperand_enc, fam_wld, extract_append_hi, extract_append_lo, extract_self, Nat.reduceSub, chk, if_true])
theorem aclr (h : Hdr) (gsel : BitVec 3) (st : Bool) (d : Operand) : Statement (.aclr h gsel st d) := lane rfl rfl rfl (by
  simp (disch := omega) only [decodeClass, wordOf, decodeArray, BitVec.reduceExtractLsb', BitVec.reduceToNat, Option.bind_eq_bind,
    Option.bind_some, decOperand_enc, fam_gbit, extract_append_hi, get_append_lo, extract_self, get_bits1, Nat.reduceSub, chk, BEq.rfl, if_true])
theorem ald (h : Hdr) (gsel : BitVec 3) (reg : Bool) (d a b : Operand) : Statement (.ald h gsel reg d a b) := lane rfl rfl rfl (by
  simp (disch := omega) only [decodeClass, wordOf, decodeArray, BitVec.reduceExtractLsb', BitVec.reduceToNat, Option.bind_eq_bind,
    Option.bind_some, decOperand_enc, fam_gbit, extract_append_hi, get_append_lo, extract_self, get_bits1, Nat.reduceSub, chk, if_true])
theorem asto (h : Hdr) (gsel : BitVec 3) (rnd : Rnd) (int : Bool) (slot : BitVec 3) (d a : Operand) : Statement (.asto h gsel rnd int slot d a) :=
  lane rfl rfl rfl (by
  simp (disch := omega) only [decodeClass, wordOf, decodeArray, BitVec.reduceExtractLsb', BitVec.reduceToNat, Option.bind_eq_bind,
    Option.bind_some, decOperand_enc, fam_asto, decRnd_enc, extract_append_hi, extract_append_lo, get_append_hi, get_append_lo, extract_self,
    get_bits1, Nat.reduceSub, chk, BEq.rfl, if_true])
theorem att (h : Hdr) (gsel : BitVec 3) (kreg : BitVec 4) (slot : BitVec 3) (d a b : Operand) : Statement (.att h gsel kreg slot d a b) := lane rfl
  rfl rfl (by
  simp (disch := omega) only [decodeClass, wordOf, decodeArray, BitVec.reduceExtractLsb', BitVec.reduceToNat, Option.bind_eq_bind,
    Option.bind_some, decOperand_enc, extract_append_hi, extract_append_lo, extract_self, Nat.reduceSub])
theorem attfin (h : Hdr) (gsel : BitVec 3) (kreg : BitVec 4) (d a : Operand) : Statement (.attfin h gsel kreg d a) := lane rfl rfl rfl (by
  simp (disch := omega) only [decodeClass, wordOf, decodeArray, BitVec.reduceExtractLsb', BitVec.reduceToNat, Option.bind_eq_bind,
    Option.bind_some, decOperand_enc, fam_kreg, extract_append_hi, extract_append_lo, extract_self, Nat.reduceSub, chk, BEq.rfl, if_true])
theorem ladinit (h : Hdr) (gsel : BitVec 3) (kreg : BitVec 4) (d a b : Operand) : Statement (.ladinit h gsel kreg d a b) := lane rfl rfl rfl (by
  simp (disch := omega) only [decodeClass, wordOf, decodeArray, BitVec.reduceExtractLsb', BitVec.reduceToNat, Option.bind_eq_bind,
    Option.bind_some, decOperand_enc, fam_kreg, extract_append_hi, extract_append_lo, extract_self, Nat.reduceSub, chk, if_true])
theorem ladpush (h : Hdr) (gsel : BitVec 3) (kreg : BitVec 4) (d a : Operand) : Statement (.ladpush h gsel kreg d a) := lane rfl rfl rfl (by
  simp (disch := omega) only [decodeClass, wordOf, decodeArray, BitVec.reduceExtractLsb', BitVec.reduceToNat, Option.bind_eq_bind,
    Option.bind_some, decOperand_enc, fam_kreg, extract_append_hi, extract_append_lo, extract_self, Nat.reduceSub, chk, BEq.rfl, if_true])
theorem ladread (h : Hdr) (gsel : BitVec 3) (kreg : BitVec 4) (d a b : Operand) : Statement (.ladread h gsel kreg d a b) := lane rfl rfl rfl (by
  simp (disch := omega) only [decodeClass, wordOf, decodeArray, BitVec.reduceExtractLsb', BitVec.reduceToNat, Option.bind_eq_bind,
    Option.bind_some, decOperand_enc, fam_kreg, extract_append_hi, extract_append_lo, extract_self, Nat.reduceSub, chk, if_true])
theorem ladld (h : Hdr) (gsel : BitVec 3) (kreg : BitVec 4) (d a b : Operand) : Statement (.ladld h gsel kreg d a b) := lane rfl rfl rfl (by
  simp (disch := omega) only [decodeClass, wordOf, decodeArray, BitVec.reduceExtractLsb', BitVec.reduceToNat, Option.bind_eq_bind,
    Option.bind_some, decOperand_enc, fam_kreg, extract_append_hi, extract_append_lo, extract_self, Nat.reduceSub, chk, if_true])
theorem wqpost (h : Hdr) (a b : Operand) : Statement (.wqpost h a b) := lane rfl rfl rfl (by
  simp only [decodeClass, wordOf, decodeColl, BitVec.reduceExtractLsb', BitVec.reduceToNat, Option.bind_eq_bind, Option.bind_some, decOperand_enc,
    fam_num, chk, BEq.rfl, if_true])
theorem tarm (h : Hdr) (time : Bool) (cidx : BitVec 8) (a b : Operand) : Statement (.tarm h time cidx a b) := lane rfl rfl rfl (by
  simp (disch := omega) only [decodeClass, wordOf, decodeColl, BitVec.reduceExtractLsb', BitVec.reduceToNat, Option.bind_eq_bind,
    Option.bind_some, decOperand_enc, fam_tarm, extract_append_lo, get_append_hi, get_append_lo, extract_self, get_bits1, Nat.reduceSub, chk,
    BEq.rfl, if_true])
theorem cntadd (h : Hdr) (aft set : Bool) (d a b : Operand) : Statement (.cntadd h aft set d a b) := lane rfl rfl rfl (by
  simp only [decodeClass, wordOf, decodeColl, BitVec.reduceExtractLsb', BitVec.reduceToNat, Option.bind_eq_bind, Option.bind_some, decOperand_enc,
    fam_cntadd, chk, if_true])
theorem sched (h : Hdr) (a : Operand) : Statement (.sched h a) := lane rfl rfl rfl (by
  simp only [decodeClass, wordOf, decodeColl, BitVec.reduceExtractLsb', BitVec.reduceToNat, Option.bind_eq_bind, Option.bind_some, decOperand_enc,
    fam_num, chk, BEq.rfl, if_true])
theorem mfsr (h : Hdr) (d a : Operand) : Statement (.mfsr h d a) := lane rfl rfl rfl (by
  simp only [decodeClass, wordOf, decodeSys, BitVec.reduceExtractLsb', BitVec.reduceToNat, Option.bind_eq_bind, Option.bind_some, decOperand_enc,
    fam_num, chk, BEq.rfl, if_true])
theorem mtsr (h : Hdr) (d a : Operand) : Statement (.mtsr h d a) := lane rfl rfl rfl (by
  simp only [decodeClass, wordOf, decodeSys, BitVec.reduceExtractLsb', BitVec.reduceToNat, Option.bind_eq_bind, Option.bind_some, decOperand_enc,
    fam_num, chk, BEq.rfl, if_true])
theorem eret (h : Hdr) (a b : Operand) : Statement (.eret h a b) := lane rfl rfl rfl (by
  simp only [decodeClass, wordOf, decodeSys, BitVec.reduceExtractLsb', BitVec.reduceToNat, Option.bind_eq_bind, Option.bind_some, decOperand_enc,
    fam_num, chk, BEq.rfl, if_true])
theorem halt (h : Hdr) : Statement (.halt h) := lane rfl rfl rfl (by
  simp only [decodeClass, wordOf, decodeSys, BitVec.reduceExtractLsb', BitVec.reduceToNat, Option.bind_eq_bind, Option.bind_some, fam_num, chk,
    BEq.rfl, if_true])
theorem tlbfls (h : Hdr) (a : Operand) : Statement (.tlbfls h a) := lane rfl rfl rfl (by
  simp only [decodeClass, wordOf, decodeSys, BitVec.reduceExtractLsb', BitVec.reduceToNat, Option.bind_eq_bind, Option.bind_some, decOperand_enc,
    fam_num, chk, BEq.rfl, if_true])
theorem tldrain (h : Hdr) : Statement (.tldrain h) := lane rfl rfl rfl (by
  simp only [decodeClass, wordOf, decodeSys, BitVec.reduceExtractLsb', BitVec.reduceToNat, Option.bind_eq_bind, Option.bind_some, fam_num, chk,
    BEq.rfl, if_true])
theorem fbrd (h : Hdr) (d a : Operand) : Statement (.fbrd h d a) := lane rfl rfl rfl (by
  simp only [decodeClass, wordOf, decodeSys, BitVec.reduceExtractLsb', BitVec.reduceToNat, Option.bind_eq_bind, Option.bind_some, decOperand_enc,
    fam_num, chk, BEq.rfl, if_true])
theorem fbpop (h : Hdr) : Statement (.fbpop h) := lane rfl rfl rfl (by
  simp only [decodeClass, wordOf, decodeSys, BitVec.reduceExtractLsb', BitVec.reduceToNat, Option.bind_eq_bind, Option.bind_some, fam_num, chk,
    BEq.rfl, if_true])
theorem replay (h : Hdr) : Statement (.replay h) := lane rfl rfl rfl (by
  simp only [decodeClass, wordOf, decodeSys, BitVec.reduceExtractLsb', BitVec.reduceToNat, Option.bind_eq_bind, Option.bind_some, fam_num, chk,
    BEq.rfl, if_true])
theorem winqPush (h : Hdr) (a : Operand) : Statement (.winqPush h a) := lane rfl rfl rfl (by
  simp only [decodeClass, wordOf, decodeSys, BitVec.reduceExtractLsb', BitVec.reduceToNat, Option.bind_eq_bind, Option.bind_some, decOperand_enc,
    fam_num, chk, BEq.rfl, if_true]; rfl)
theorem winqPop (h : Hdr) (d : Operand) : Statement (.winqPop h d) := lane rfl rfl rfl (by
  simp only [decodeClass, wordOf, decodeSys, BitVec.reduceExtractLsb', BitVec.reduceToNat, Option.bind_eq_bind, Option.bind_some, decOperand_enc,
    fam_num, chk, BEq.rfl, if_true]; rfl)
theorem ctxsv (h : Hdr) (a b : Operand) : Statement (.ctxsv h a b) := lane rfl rfl rfl (by
  simp only [decodeClass, wordOf, decodeSys, BitVec.reduceExtractLsb', BitVec.reduceToNat, Option.bind_eq_bind, Option.bind_some, decOperand_enc,
    fam_num, chk, BEq.rfl, if_true])
theorem ctxld (h : Hdr) (a b : Operand) : Statement (.ctxld h a b) := lane rfl rfl rfl (by
  simp only [decodeClass, wordOf, decodeSys, BitVec.reduceExtractLsb', BitVec.reduceToNat, Option.bind_eq_bind, Option.bind_some, decOperand_enc,
    fam_num, chk, BEq.rfl, if_true])
theorem lnkctlStat (h : Hdr) (d a b : Operand) : Statement (.lnkctlStat h d a b) := lane rfl rfl rfl (by
  simp only [decodeClass, wordOf, decodeSys, BitVec.reduceExtractLsb', BitVec.reduceToNat, Option.bind_eq_bind, Option.bind_some, decOperand_enc,
    fam_num, chk, if_true]; rfl)
theorem lnkctlPause (h : Hdr) (a b : Operand) : Statement (.lnkctlPause h a b) := lane rfl rfl rfl (by
  simp only [decodeClass, wordOf, decodeSys, BitVec.reduceExtractLsb', BitVec.reduceToNat, Option.bind_eq_bind, Option.bind_some, decOperand_enc,
    fam_num, chk, BEq.rfl, if_true]; rfl)
theorem lnkctlResume (h : Hdr) (a b : Operand) : Statement (.lnkctlResume h a b) := lane rfl rfl rfl (by
  simp only [decodeClass, wordOf, decodeSys, BitVec.reduceExtractLsb', BitVec.reduceToNat, Option.bind_eq_bind, Option.bind_some, decOperand_enc,
    fam_num, chk, BEq.rfl, if_true]; rfl)
theorem lnkctlRemap (h : Hdr) (a b : Operand) : Statement (.lnkctlRemap h a b) := lane rfl rfl rfl (by
  simp only [decodeClass, wordOf, decodeSys, BitVec.reduceExtractLsb', BitVec.reduceToNat, Option.bind_eq_bind, Option.bind_some, decOperand_enc,
    fam_num, chk, BEq.rfl, if_true]; rfl)
theorem lnkctlTrain (h : Hdr) (a b : Operand) : Statement (.lnkctlTrain h a b) := lane rfl rfl rfl (by
  simp only [decodeClass, wordOf, decodeSys, BitVec.reduceExtractLsb', BitVec.reduceToNat, Option.bind_eq_bind, Option.bind_some, decOperand_enc,
    fam_num, chk, BEq.rfl, if_true]; rfl)
theorem lnkctlHalf (h : Hdr) (a b : Operand) : Statement (.lnkctlHalf h a b) := lane rfl rfl rfl (by
  simp only [decodeClass, wordOf, decodeSys, BitVec.reduceExtractLsb', BitVec.reduceToNat, Option.bind_eq_bind, Option.bind_some, decOperand_enc,
    fam_num, chk, BEq.rfl, if_true]; rfl)
theorem bkpt (h : Hdr) (a : Operand) : Statement (.bkpt h a) := lane rfl rfl rfl (by
  simp only [decodeClass, wordOf, decodeDbg, BitVec.reduceExtractLsb', BitVec.reduceToNat, Option.bind_eq_bind, Option.bind_some, decOperand_enc,
    fam_num, chk, BEq.rfl, if_true])
theorem sstep (h : Hdr) (a : Operand) : Statement (.sstep h a) := lane rfl rfl rfl (by
  simp only [decodeClass, wordOf, decodeDbg, BitVec.reduceExtractLsb', BitVec.reduceToNat, Option.bind_eq_bind, Option.bind_some, decOperand_enc,
    fam_num, chk, BEq.rfl, if_true])
theorem trcmk (h : Hdr) (a : Operand) : Statement (.trcmk h a) := lane rfl rfl rfl (by
  simp only [decodeClass, wordOf, decodeDbg, BitVec.reduceExtractLsb', BitVec.reduceToNat, Option.bind_eq_bind, Option.bind_some, decOperand_enc,
    fam_num, chk, BEq.rfl, if_true])
theorem cntrd (h : Hdr) (d a : Operand) : Statement (.cntrd h d a) := lane rfl rfl rfl (by
  simp only [decodeClass, wordOf, decodeDbg, BitVec.reduceExtractLsb', BitVec.reduceToNat, Option.bind_eq_bind, Option.bind_some, decOperand_enc,
    fam_num, chk, BEq.rfl, if_true])
theorem runStart (core lane : Nat) : Statement (.runStart core lane) := step rfl rfl
theorem trapDeliver (wk : Nat) : Statement (.trapDeliver wk) := step rfl rfl
theorem jointRoundClose (bk k : Nat) : Statement (.jointRoundClose bk k) := step rfl rfl
theorem releaseTakesEffect (wk t : Nat) : Statement (.releaseTakesEffect wk t) := step rfl rfl
theorem sleepExpiry (wk t : Nat) : Statement (.sleepExpiry wk t) := step rfl rfl
theorem rconvTimeout (wk t : Nat) : Statement (.rconvTimeout wk t) := step rfl rfl
theorem revwComplete (wk : Nat) : Statement (.revwComplete wk) := step rfl rfl
theorem guardDiscard (cid : Nat) : Statement (.guardDiscard cid) := step rfl rfl
theorem copyCmdAccept (cid : Nat) : Statement (.copyCmdAccept cid) := step rfl rfl
theorem engineMemResponse (cid : Nat) (ecc : Ecc) : Statement (.engineMemResponse cid ecc) := step rfl rfl
theorem engineLanding (cid : Nat) : Statement (.engineLanding cid) := step rfl rfl
theorem copyCmdRetire (cid : Nat) : Statement (.copyCmdRetire cid) := step rfl rfl
theorem stackSpillFill (wk : Nat) : Statement (.stackSpillFill wk) := step rfl rfl
theorem cntaddAftApply (wk : Nat) : Statement (.cntaddAftApply wk) := step rfl rfl
theorem arrayCmdStart (cid : Nat) (res : Residue) : Statement (.arrayCmdStart cid res) := step rfl rfl
theorem arraySrcConsumed (cid : Nat) : Statement (.arraySrcConsumed cid) := step rfl rfl
theorem arrayCmdEnd (cid : Nat) : Statement (.arrayCmdEnd cid) := step rfl rfl
theorem arrayCmdRetire (cid : Nat) : Statement (.arrayCmdRetire cid) := step rfl rfl
theorem multicastLanding (cid : Nat) : Statement (.multicastLanding cid) := step rfl rfl
theorem kickNoticeArrive (core : Nat) : Statement (.kickNoticeArrive core) := step rfl rfl
theorem remoteReadServe (cid : Nat) (ecc : Ecc) : Statement (.remoteReadServe cid ecc) := step rfl rfl
theorem ackArrive (wk : Nat) : Statement (.ackArrive wk) := step rfl rfl
theorem loadDataLand (iid t : Nat) : Statement (.loadDataLand iid t) := step rfl rfl
theorem walkComplete (aid : Nat) : Statement (.walkComplete aid) := step rfl rfl
theorem faultPresent (die : Nat) : Statement (.faultPresent die) := step rfl rfl
theorem sideLogEnter (wk : Nat) : Statement (.sideLogEnter wk) := step rfl rfl
theorem sliceRequestServe (aid : Nat) (ecc : Ecc) : Statement (.sliceRequestServe aid ecc) := step rfl rfl
theorem mnqOvfRetry : Statement (.mnqOvfRetry) := step rfl rfl
theorem qcntAdvance : Statement (.qcntAdvance) := step rfl rfl
theorem scrubVisit (target : ScrubTarget) (ecc : Ecc) : Statement (.scrubVisit target ecc) := step rfl rfl
theorem tldrainComplete (die slot : Nat) : Statement (.tldrainComplete die slot) := step rfl rfl
theorem winqPopComplete (die slot : Nat) : Statement (.winqPopComplete die slot) := step rfl rfl
theorem ctxsvComplete (die slot : Nat) : Statement (.ctxsvComplete die slot) := step rfl rfl
theorem ctxldComplete (die slot : Nat) : Statement (.ctxldComplete die slot) := step rfl rfl
theorem warpStop (wk : Nat) : Statement (.warpStop wk) := step rfl rfl
theorem mboxDeviceEntry (die : Nat) : Statement (.mboxDeviceEntry die) := step rfl rfl
theorem traceCounterLimit (die : Nat) : Statement (.traceCounterLimit die) := step rfl rfl
theorem quantumExpiry (core : Nat) : Statement (.quantumExpiry core) := step rfl rfl
theorem blockAssign (lid : Nat) : Statement (.blockAssign lid) := step rfl rfl
theorem blockRetire (core btag : Nat) : Statement (.blockRetire core btag) := step rfl rfl
theorem dispatchTakeCommand : Statement (.dispatchTakeCommand) := step rfl rfl
theorem launchComplete (lid : Nat) : Statement (.launchComplete lid) := step rfl rfl
theorem timeTriggerFire (port : Nat) : Statement (.timeTriggerFire port) := step rfl rfl
theorem schedStart (sid : Nat) : Statement (.schedStart sid) := step rfl rfl
theorem florealWaitTimeExpiry (sid : Nat) : Statement (.florealWaitTimeExpiry sid) := step rfl rfl
theorem florealStepTimeout (sid : Nat) : Statement (.florealStepTimeout sid) := step rfl rfl
theorem linkPauseComplete (die slot : Nat) : Statement (.linkPauseComplete die slot) := step rfl rfl
theorem linkRemapComplete (die slot : Nat) : Statement (.linkRemapComplete die slot) := step rfl rfl
theorem sysreqRead (die slot : Nat) : Statement (.sysreqRead die slot) := step rfl rfl
theorem mnqRead : Statement (.mnqRead) := step rfl rfl
theorem mboxRead (die : Nat) : Statement (.mboxRead die) := step rfl rfl
theorem chdataWrite (x : Word) : Statement (.chdataWrite x) := step rfl rfl
theorem mclrWrite (x : Word) : Statement (.mclrWrite x) := step rfl rfl
theorem quantumWrite (die : Nat) (x : Word) : Statement (.quantumWrite die x) := step rfl rfl
theorem fpownWrite (port : Nat) (x : Word) : Statement (.fpownWrite port x) := step rfl rfl
theorem dbgdatWrite (die : Nat) (x : Word) : Statement (.dbgdatWrite die x) := step rfl rfl
theorem dbgStop (die : Nat) : Statement (.dbgStop die) := step rfl rfl
theorem dbgRun (die : Nat) : Statement (.dbgRun die) := step rfl rfl
theorem dbgStopBlock (die : Nat) : Statement (.dbgStopBlock die) := step rfl rfl
theorem dbgRunBlock (die : Nat) : Statement (.dbgRunBlock die) := step rfl rfl
theorem dbgStopnow (die : Nat) : Statement (.dbgStopnow die) := step rfl rfl
theorem registerWrite (die slot : Nat) (n : BitVec 10) (x : DWord) : Statement (.registerWrite die slot n x) := step rfl rfl
theorem doorbellWrite (q : Nat) (tail : Word) : Statement (.doorbellWrite q tail) := step rfl rfl
theorem remoteWriteArrive (port : Nat) (rva : DWord) (rop : Option Rop) (data : List Byte) (rc : Option (BitVec 8)) : Statement (.remoteWriteArrive
  port rva rop data rc) := step rfl rfl
theorem schedSignalArrive (port : Nat) (idx : BitVec 8) (addend : Word) : Statement (.schedSignalArrive port idx addend) := step rfl rfl
theorem entryComplete (port idx : Nat) (err : BitVec 8) : Statement (.entryComplete port idx err) := step rfl rfl
theorem chunkArrive (port sid : Nat) (fmt : BitVec 2) (data : List Byte) : Statement (.chunkArrive port sid fmt data) := step rfl rfl
theorem fabricTimeExchange (port : Nat) (peerTime : DWord) : Statement (.fabricTimeExchange port peerTime) := step rfl rfl
theorem linkTrainComplete (die slot : Nat) (badLanes : Nat) (peerDev : BitVec 8) (peerPort : BitVec 4) (peerTime : DWord) : Statement
  (.linkTrainComplete die slot badLanes peerDev peerPort peerTime) := step rfl rfl
theorem fabricFlitCrcError (port : Nat) (retryOk : Bool) : Statement (.fabricFlitCrcError port retryOk) := step rfl rfl
theorem ucieFlitCrcError (module : Nat) (fate : FlitFate) : Statement (.ucieFlitCrcError module fate) := step rfl rfl
theorem nocFlitCrcError (retryOk downward : Bool) (hop : Nat) : Statement (.nocFlitCrcError retryOk downward hop) := step rfl rfl
theorem switchParityError (control : Bool) (packet : Packet) : Statement (.switchParityError control packet) := step rfl rfl
theorem thermidorTick (pwr ptemp : Nat) : Statement (.thermidorTick pwr ptemp) := step rfl rfl
theorem thermalEmergency (ptemp : Nat) (alarm : Bool) : Statement (.thermalEmergency ptemp alarm) := step rfl rfl
theorem coolantFlowLost : Statement (.coolantFlowLost) := step rfl rfl
theorem thermalTrip (ptemp : Nat) : Statement (.thermalTrip ptemp) := step rfl rfl
theorem hostMemRead (pa n : Nat) (ecc : Ecc) : Statement (.hostMemRead pa n ecc) := step rfl rfl
theorem hostMemWrite (pa : Nat) (data : List Byte) : Statement (.hostMemWrite pa data) := step rfl rfl
theorem hostMboxWrite (die : Nat) (x : DWord) : Statement (.hostMboxWrite die x) := step rfl rfl
theorem mboxOvrClear (die : Nat) (x : DWord) : Statement (.mboxOvrClear die x) := step rfl rfl
theorem powerOnBoot (image : Option Firmware) : Statement (.powerOnBoot image) := step rfl rfl
theorem recoveryStart (image : Firmware) : Statement (.recoveryStart image) := step rfl rfl
theorem deviceReset : Statement (.deviceReset) := step rfl rfl
theorem spdmGetVersion : Statement (.spdmGetVersion) := step rfl rfl
theorem spdmGetCapabilities : Statement (.spdmGetCapabilities) := step rfl rfl
theorem spdmNegotiateAlgorithms : Statement (.spdmNegotiateAlgorithms) := step rfl rfl
theorem spdmGetCertificate : Statement (.spdmGetCertificate) := step rfl rfl
theorem spdmChallenge : Statement (.spdmChallenge) := step rfl rfl
theorem spdmGetMeasurements : Statement (.spdmGetMeasurements) := step rfl rfl
theorem coolantFlowReturn : Statement (.coolantFlowReturn) := step rfl rfl
theorem fabricLinkDown (port : Nat) : Statement (.fabricLinkDown port) := step rfl rfl
theorem farEndBufferSpace (port bytes : Nat) : Statement (.farEndBufferSpace port bytes) := step rfl rfl
theorem dispatcherTableError : Statement (.dispatcherTableError) := step rfl rfl
theorem dec_of {opc : BitVec 6} {peer : BitVec 5} {chunk : BitVec 13} {buf : BitVec 8} {x : Word} :
    (florealOf opc peer chunk buf x).extractLsb' 58 6 = opc ∧ (florealOf opc peer chunk buf x).extractLsb' 53 5 = peer ∧
    (florealOf opc peer chunk buf x).extractLsb' 40 13 = chunk ∧ (florealOf opc peer chunk buf x).extractLsb' 32 8 = buf ∧
    (florealOf opc peer chunk buf x).extractLsb' 0 32 = x := by
  simp (disch := omega) only [florealOf, extract_append_hi, extract_append_lo, extract_self, Nat.reduceSub, and_self]
theorem florealNop : Statement (.florealNop) := word rfl (fun _ => by
  change decodeFloreal (florealOf 0 0 0 0 0) = _; rfl)
theorem florealSend (port : BitVec 5) (c : ChunkRef) (buf : BitVec 8) (tmo : BitVec 16) : Statement (.florealSend port c buf tmo) := word rfl (fun h
  => by
  change decodeFloreal (florealOf 1 port (encChunk c) buf (tmo ++ 0#16)) = _; rw [decodeFloreal]
  simp (disch := omega) only [dec_of, BitVec.ofNat_eq_ofNat, BitVec.reduceToNat, extract_append_hi, extract_append_lo, extract_self,
    Nat.reduceSub, chk, BEq.rfl, if_true, decChunk_enc, Option.bind_eq_bind, Option.bind_some, h])
theorem florealRecv (port : BitVec 5) (c : ChunkRef) (buf : BitVec 8) (tmo : BitVec 16) : Statement (.florealRecv port c buf tmo) := word rfl (fun h
  => by
  change decodeFloreal (florealOf 2 port (encChunk c) buf (tmo ++ 0#16)) = _; rw [decodeFloreal]
  simp (disch := omega) only [dec_of, BitVec.ofNat_eq_ofNat, BitVec.reduceToNat, extract_append_hi, extract_append_lo, extract_self,
    Nat.reduceSub, chk, BEq.rfl, if_true, decChunk_enc, Option.bind_eq_bind, Option.bind_some, h])
theorem florealRed (port : BitVec 5) (c : ChunkRef) (buf : BitVec 8) (tmo : BitVec 16) (fwd : BitVec 5) (rop : Rop) :
    Statement (.florealRed port c buf tmo fwd rop) := word rfl (fun h => by
  change decodeFloreal (florealOf 3 port (encChunk c) buf (tmo ++ fwd ++ 0#8 ++ rop.code)) = _; rw [decodeFloreal]
  simp (disch := omega) only [dec_of, BitVec.ofNat_eq_ofNat, BitVec.reduceToNat, extract_append_hi, extract_append_lo, extract_self,
    Nat.reduceSub, chk, BEq.rfl, if_true, decChunk_enc, ropCode, Option.bind_eq_bind, Option.bind_some, h])
theorem florealCopy (dst : ChunkRef) (dbuf : BitVec 8) (src : ChunkRef) (sbuf : BitVec 8) : Statement (.florealCopy dst dbuf src sbuf) := word rfl
  (fun h => by
  change decodeFloreal (florealOf 4 0 (encChunk dst) dbuf (0#11 ++ encChunk src ++ sbuf)) = _; rw [decodeFloreal]
  simp (disch := omega) only [dec_of, BitVec.ofNat_eq_ofNat, BitVec.reduceToNat, extract_append_hi, extract_append_lo, extract_self,
    Nat.reduceSub, chk, BEq.rfl, if_true, decChunk_enc, Bool.and_self, Option.bind_eq_bind, Option.bind_some, h])
theorem florealWait (port : BitVec 5) (time : Bool) (idx : BitVec 8) (operand : Word) : Statement (.florealWait port time idx operand) := word rfl
  (fun h => by
  change decodeFloreal (florealOf 5 port (if time then 1 else 0) idx operand) = _; rw [decodeFloreal]
  simp only [dec_of]
  cases time
  · rfl
  · have : (Instr.florealWait port true idx operand).florealOk = true := h
    change (if (Instr.florealWait port true idx operand).florealOk then _ else _) = _
    rw [this]; rfl)
theorem florealSignal (port : BitVec 5) (peer : Bool) (idx : BitVec 8) (operand : Word) : Statement (.florealSignal port peer idx operand) := word
  rfl (fun _ => by
  change decodeFloreal (florealOf 6 port (if peer then 1 else 0) idx operand) = _; rw [decodeFloreal]
  simp only [dec_of]
  cases peer <;> rfl)
theorem florealLoop (count : BitVec 16) (target : BitVec 13) : Statement (.florealLoop count target) := word rfl (fun h => by
  change decodeFloreal (florealOf 7 0 0 0 (count ++ 0#3 ++ target)) = _; rw [decodeFloreal]
  simp (disch := omega) only [dec_of, BitVec.ofNat_eq_ofNat, BitVec.reduceToNat, extract_append_hi, extract_append_lo, extract_self,
    Nat.reduceSub, chk, BEq.rfl, if_true, Bool.and_self, Option.bind_eq_bind, Option.bind_some, h])
theorem florealEnd : Statement (.florealEnd) := word rfl (fun _ => by
  change decodeFloreal (florealOf 8 0 0 0 0) = _; rfl)
end Sys2Proof.Laws.RoundTrip
end

