-- ==== Sys2Proof/Safety.lean ====
section
/-! DEFINITION. The terms in which claims are stated: a lane that stands at an instruction with one active thread whose
operands are ready, the state in which such an instruction leaves the machine, and what it leaves as it was. -/

namespace Sys2Proof.Machine

/-- The run in focus, `r`, stands at instruction `i`, to which R91 objects nothing (`fate`); thread `t` alone has a guard that
holds (R79) and has not been served; no acquire of the thread is due (R249), and an indirect D finds a range entry (R69). -/
structure Stands (i : Instr) (g : Sig) (h : Hdr) (s : State) (r : Run) (t : Nat) : Prop where
  run    : s.run s.focus = some r
  sig    : i.sig = some g
  hdr    : i.hdr = some h
  fate   : s.fate r.wk i = none
  thread : t < 32
  act    : r.act.getD (s.guardMask r h.guard) = bit1 t
  served : r.served = 0
  acq    : s.acqDue r.wk t = false
  room   : s.indRoom r g = true

/-- The run's active threads are known: thread `t`. -/
def State.opened (s : State) (t : Nat) : State := s.modRun s.focus (fun r => { r with act := some (bit1 t) })

/-- The operands of thread `t` are ready (R35, R36, R338): D, A and B name the registers `d`, `a` and `b`, and the queue entries
they pop are `x` and `y`, after which the state is `s1`. -/
structure Operands (s : State) (h : Hdr) (g : Sig) (r : Run) (t : Nat) (d a b : List Loc) (x y : Word) (s1 : State) : Prop where
  ready : (s.opened t).prep r.wk t h g = .ok d a b
  pops  : (s.opened t).pops s.focus r.wk g = some (x, y, s1)

/-- The instruction of one thread that entered the lane in cycle `now` has passed with the effect that `s2` shows: TAKE, the end of the
instruction; `br`: the thread has written its own PC. -/
def State.passed (s2 : State) (now : Nat) (c : TC) (i : Instr) (br : Bool) : State :=
  (((s2.noteOps c).markServed c.key (bit1 c.t)).setClk now).endInstr c.key i c.h (if br then bit1 c.t else 0) 1

/-- So with FP conditions raised (R142, R343). -/
def State.passedFp (s2 : State) (now : Nat) (c : TC) (i : Instr) (f : Word) : State :=
  ((((s2.noteOps c).fpDone c [c.t] f).markServed c.key (bit1 c.t)).setClk now).endInstr c.key i c.h 0 1

/-! ### Statements about one instruction -/

/-- The run in focus, `r`, stands at instruction `i`, to which R91 objects nothing (`fate`); the threads of `m` have a guard that
holds (R79), none of them has been served, and none has an acquire due (R249); an indirect D finds a range entry (R69). -/
structure At (i : Instr) (g : Sig) (h : Hdr) (s : State) (r : Run) (m : Word) : Prop where
  run    : s.run s.focus = some r
  sig    : i.sig = some g
  hdr    : i.hdr = some h
  fate   : s.fate r.wk i = none
  act    : r.act.getD (s.guardMask r h.guard) = m
  served : r.served = 0
  acq    : (maskList m).any (fun t => s.acqDue r.wk t) = false
  room   : s.indRoom r g = true

/-- The run's active threads are known. -/
def State.openedM (s : State) (m : Word) : State := s.modRun s.focus (fun r => { r with act := some m })

/-- What an instruction makes of one thread that is served for the threads `who`, the use of its operands included. -/
abbrev Effect := TC → List Nat → State → State

/-- From `s` to `u` the threads of a list are served one after another, in successive cycles where the instruction is not uniform (R33),
each with its operands ready (R35, R36, R338), what the instruction has itself written not holding them up (R68), where `P` holds and with effect `Z`. -/
def Served (h : Hdr) (g : Sig) (ka kb : ImmK) (key : Nat) (r : Run) (m : Word) (P : TC → State → Prop) (Z : Effect) :
    List Nat → State → State → Prop
  | [], s, u => u = s
  | t :: ts, s, u => ∃ d a b x y s1, (s.run key).map (fun r => r.served.getLsbD t) = some false ∧
      (s.sameInstr key g).prep r.wk t h g = .ok d a b ∧ s.pops key r.wk g = some (x, y, s1) ∧ P (s1.ctx h g ka kb key r m t d a b x y) s1 ∧
      Served h g ka kb key r m P Z ts
        (((Z (s1.ctx h g ka kb key r m t d a b x y) [t] s1).markServed key (bit1 t)).setClk (s.clk + if sigUniform g then 0 else 1)) u

/-- Instruction `i` passes the lane with effect `Z` where `P` holds, in so many cycles as R33 gives it: for each active thread in ascending
order, or, in a uniform form of an entry that knows one (`uni`), once with the lowest active thread. `ka` and `kb` say how its immediates read (R85),
`br` that its threads write their own PC. -/
def Passes (i : Instr) (uni br : Bool) (ka kb : ImmK) (P : TC → State → Prop) (Z : Effect) : Prop :=
  ∀ (g : Sig) (h : Hdr) (s : State) (r : Run) (m : Word), At i g h s r m →
    (((uni && sigUniform g && m != 0) = false → ∀ u, Served h g ka kb s.focus r m P Z (maskList m) (s.openedM m) u →
      exec i s = .next ((u.setClk s.clk).endInstr s.focus i h (if br then m else 0) (cyclesOf g (maskList m).length))) ∧
     ((uni && sigUniform g && m != 0) = true → ∀ d a b x y s1, (s.openedM m).prep r.wk (lowest m) h g = .ok d a b →
      (s.openedM m).pops s.focus r.wk g = some (x, y, s1) → P (s1.ctx h g ka kb s.focus r m (lowest m) d a b x y) s1 →
      exec i s = .next ((((Z (s1.ctx h g ka kb s.focus r m (lowest m) d a b x y) (maskList m) s1).markServed s.focus m).setClk s.clk).endInstr
        s.focus i h (if br then m else 0) 1)))

/-- It completes with effect `E`: TAKE and the watching comparators follow the effect (R61, R323). -/
def Completes (i : Instr) (uni br : Bool) (ka kb : ImmK) (P : TC → State → Prop) (E : TC → State → State) : Prop :=
  Passes i uni br ka kb P (fun c _ s => (E c s).noteOps c)

/-- It completes with effect `E` and FP conditions raised (R142, R343). -/
def CompletesFp (i : Instr) (uni : Bool) (ka kb : ImmK) (P : TC → State → Prop) (E : TC → State → State × Word) : Prop :=
  Passes i uni false ka kb P (fun c who s => ((E c s).1.noteOps c).fpDone c who (E c s).2)

/-- Instruction `i` acts once for the warp with the operands of the lowest active thread; with no active thread it has no effect. -/
def CompletesOnce (i : Instr) (ka kb : ImmK) (P : TC → State → Prop) (E : TC → State → State) : Prop :=
  ∀ (g : Sig) (h : Hdr) (s : State) (r : Run) (m : Word), At i g h s r m →
    ((m = 0 → exec i s = .next ((s.openedM m).endInstr s.focus i h 0 1)) ∧
     (m ≠ 0 → ∀ d a b x y s1, (s.openedM m).prep r.wk (lowest m) h g = .ok d a b →
      (s.openedM m).pops s.focus r.wk g = some (x, y, s1) → P (s1.ctx h g ka kb s.focus r m (lowest m) d a b x y) s1 →
      exec i s = .next (((((E (s1.ctx h g ka kb s.focus r m (lowest m) d a b x y) s1).noteOps
        (s1.ctx h g ka kb s.focus r m (lowest m) d a b x y)).markServed s.focus m).setClk s.clk).endInstr s.focus i h 0
          (cyclesOf g (maskList m).length))))

/-- The active threads have consumed A, one after the other where each takes a fill of its own (R61); and whether one of them waits. -/
def State.taken (s : State) (h : Hdr) (g : Sig) (key : Nat) (r : Run) (m : Word) : State × Bool :=
  if takesEach h g then s.takeEach h g .int .int key r m (maskList m) else (s, false)

/-- Instruction `i` acts on the operands of all active threads at once; with no active thread it has no effect. -/
def CompletesAll (i : Instr) (P : List TC → State → Prop) (E : List TC → State → State) : Prop :=
  ∀ (g : Sig) (h : Hdr) (s : State) (r : Run) (m : Word), At i g h s r m →
    (m = 0 → exec i s = .next ((s.openedM m).endInstr s.focus i h 0 1)) ∧
    ∀ x y s0 s1 cs, m ≠ 0 → (s.openedM m).pops s.focus r.wk g = some (x, y, s0) → s0.taken h g s.focus r m = (s1, false) →
      s1.prepAll h g .int .int s.focus r m x y (maskList m) = some (cs, []) → P cs s1 →
      exec i s = .next ((((E cs s1).noteAll (if sigUniform g then 0 else 1) cs).setClk s.clk).endInstr s.focus i h 0
        (cyclesOf g (maskList m).length))

/-- The granule of a register (R51). -/
def Loc.gran : Loc → Bool × Nat × Nat × Nat
  | .v wk t i => (false, wk, t, granOf i)
  | .s wk i => (true, wk, 0, granOf i)

/-- A register of a thread that a warp has. -/
def Loc.Ok : Loc → Prop
  | .v _ t _ => t < Config.warpThreads
  | .s _ _ => True

/-- What a thread holds besides its registers, their F and poison bits, and its PC. -/
def Thread.rest (x : Thread) : Thread := { x with v := [], vEmpty := [], vPois := [], pc := 0 }
/-- An entry of the range list that an indirect D of a lane instruction holds until its result is available (R69). -/
def Rng.isLane (r : Rng) : Bool := match r.owner with
  | .lane _ => true
  | _ => false
/-- What a warp holds besides its s registers and their F and poison bits, and the results of lane instructions that are not yet
available (R35, R69). -/
def Warp.rest (x : Warp) : Warp :=
  { x with s := [], sEmpty := [], sPois := [], recent := [], ranges := x.ranges.filter (fun r => !r.isLane) }
/-- What a core holds besides its account of lane cycles (R327) and the turn of its address engine (R282). -/
def Core.rest (x : Core) : Core := { x with td := [], tdClk := 0, sliceAt := 0, sliceLast := 0 }

/-- Between `s` and `u` only the registers `ds` have been written and the F bits of the granules of `tk` taken (R61); `own` says
which other fields of a thread may differ. Time has passed, a run has gone on, counters that watch lanes have counted. -/
structure OnlyRegs (ds tk : List Loc) (own : Nat → Nat → Thread → Thread) (s u : State) : Prop where
  regs    : ∀ l, l.Ok → l ∉ ds → (l.gran ∉ ds.map Loc.gran ∨ s.pois l = false) → u.readLoc l = s.readLoc l
  pois    : ∀ l, l.Ok → l.gran ∉ ds.map Loc.gran → u.pois l = s.pois l
  clean   : ∀ l, l.Ok → s.pois l = false → u.pois l = false
  full    : ∀ l, l.Ok → l.gran ∉ tk.map Loc.gran → u.full l = s.full l
  threads : ∀ wk t, t < 32 → own wk t (u.thread wk t).rest = own wk t (s.thread wk t).rest
  warps   : ∀ wk, (u.warp wk).rest = (s.warp wk).rest
  memory  : ∀ swz pa, u.byteAt swz pa = s.byteAt swz pa
  dies    : ∀ k, { u.die k with hits := [] } = { s.die k with hits := [] }
  coresK  : ∀ k, (u.core k).rest = (s.core k).rest
  device  : { u.dev with now := 0, sub := 0 } = { s.dev with now := 0, sub := 0 }
  runs    : ∀ k, k ≠ s.focus → u.run k = s.run k
  tables  : (u.bad, u.blocks, u.launches, u.ports, u.scheds, u.queues, u.links, u.accs, u.cmds, u.acks) =
            (s.bad, s.blocks, s.launches, s.ports, s.scheds, s.queues, s.links, s.accs, s.cmds, s.acks)
  others  : (u.focus, u.laneLast, u.cursor, u.sfocus, u.agenda, u.out, u.nextId, u.tseq, u.fresh, u.fatal, u.closing, u.travel, u.bank, u.emptied) =
            (s.focus, s.laneLast, s.cursor, s.sfocus, s.agenda, s.out, s.nextId, s.tseq, s.fresh, s.fatal, s.closing, s.travel, s.bank, s.emptied)

/-- A value as the registers of D take it: one word, or a pair. -/
def narrow : List Loc → DWord → DWord
  | [], _ => 0
  | [_], x => x.lo.setWidth 64
  | _ :: _ :: _, x => x

/-- Instruction `i` computes `f` into D where `P` holds: D of its one active thread reads the value, and nothing else has changed. -/
def Writes (i : Instr) (ka kb : ImmK) (P : TC → State → Prop) (f : TC → State → DWord) : Prop :=
  ∀ (g : Sig) (h : Hdr) (s : State) (r : Run) (t : Nat) (d a b : List Loc) (x y : Word) (s1 : State),
    Stands i g h s r t → Operands s h g r t d a b x y s1 →
    P (s1.ctx h g ka kb s.focus r (bit1 t) t d a b x y) s1 →
    ∃ u, exec i s = .next u ∧
      u.locsVal d = narrow d (f (s1.ctx h g ka kb s.focus r (bit1 t) t d a b x y) s1) ∧
      OnlyRegs d (if h.take then a else []) (fun _ _ x => x) s1 u

/-- So, and with any active threads it writes D of each in turn, or once in a uniform form. -/
def Computes (i : Instr) (uni : Bool) (ka kb : ImmK) (P : TC → State → Prop) (f : TC → State → DWord) : Prop :=
  Writes i ka kb P f ∧ Completes i uni false ka kb P (fun c s => s.writeD2 c.d (f c s))

/-- The fields of a thread that FP conditions may change: `%fflags`, and a trap with the hold that goes with it. -/
def fpOwn (wk t wk2 t2 : Nat) (x : Thread) : Thread :=
  if wk2 = wk ∧ t2 = t then { x with fflags := 0, trap := none, hold := .none } else x

/-- FP conditions `f` of thread t as R142 and R343 have them: recorded unless NF is 1; the first that is recorded and enabled
raises its trap, but for a thread in handler state (R341). -/
def FpRaised (h : Hdr) (g : Sig) (d : List Loc) (pc : DWord) (f : Word) (x y : Thread) : Prop :=
  y.fflags = (if h.nf then x.fflags else x.fflags ||| f) ∧
  (y.trap, y.hold) = (match (if h.nf || x.inHandler then none else fpKind f x.ften) with
    | some k => (some ⟨k, pc, pc + 12, tdDest g d⟩, .trap)
    | none => (x.trap, x.hold))

/-- Instruction `i` computes a value with FP conditions into D where `P` holds: D of its one active thread reads the value, the
conditions are raised, and nothing else has changed. -/
def WritesFp (i : Instr) (ka kb : ImmK) (P : TC → State → Prop) (f : TC → State → DWord × Word) : Prop :=
  ∀ (g : Sig) (h : Hdr) (s : State) (r : Run) (t : Nat) (d a b : List Loc) (x y : Word) (s1 : State),
    Stands i g h s r t → Operands s h g r t d a b x y s1 →
    P (s1.ctx h g ka kb s.focus r (bit1 t) t d a b x y) s1 →
    ∃ u, exec i s = .next u ∧
      u.locsVal d = narrow d (f (s1.ctx h g ka kb s.focus r (bit1 t) t d a b x y) s1).1 ∧
      FpRaised h g d r.pc (f (s1.ctx h g ka kb s.focus r (bit1 t) t d a b x y) s1).2 (s1.thread r.wk t) (u.thread r.wk t) ∧
      OnlyRegs d (if h.take then a else []) (fpOwn r.wk t) s1 u

/-- So, and with any active threads it writes D of each in turn, or once in a uniform form. -/
def ComputesFp (i : Instr) (uni : Bool) (ka kb : ImmK) (P : TC → State → Prop) (f : TC → State → DWord × Word) : Prop :=
  WritesFp i ka kb P f ∧ CompletesFp i uni ka kb P (fun c s => (s.writeD2 c.d (f c s).1, (f c s).2))

/-- No premise. -/
def Always : TC → State → Prop := fun _ _ => True

/-- Register k of the granule of a register (R51). -/
def Loc.inGranule (l : Loc) (k : Nat) : Loc :=
  match l with
  | .v wk t i => .v wk t (4 * granOf i + k)
  | .s wk i => .s wk (4 * granOf i + k)

/-- The stack of a thread has room for n more entries, and their rows are in the window (R75, R76). -/
def State.PushFits (s : State) (c : TC) (n : Nat) : Prop :=
  (s.thread c.wk c.t).sbuf = [] ∧ 128 * ((s.thread c.wk c.t).sdepth + n) ≤ (s.warp c.wk).stklim.toNat ∧
    ∀ k < n, s.stkHas c.wk ((s.thread c.wk c.t).sdepth + k) = true

/-- The state after a push. -/
def State.pushed (s : State) (c : TC) (xs : List Word) : State :=
  match s.stackPush c xs with
  | .ok u _ => u
  | _ => s

/-- The stack of a thread has n entries, the top n rows are in the window (R75, R76), and the granules that hold the entries are full
and hold no poison (R59, R345). -/
def State.PopFits (s : State) (c : TC) (n : Nat) : Prop :=
  (s.thread c.wk c.t).sbuf = [] ∧ n ≤ (s.thread c.wk c.t).sdepth ∧
    ∀ k < n, s.stkHas c.wk ((s.thread c.wk c.t).sdepth - 1 - k) = true ∧ s.stkFull c.wk c.t ((s.thread c.wk c.t).sdepth - 1 - k) = true ∧
      s.stkBad c.wk c.t ((s.thread c.wk c.t).sdepth - 1 - k) = false

/-- The state after a pop, and the words popped, the top one first. -/
def State.popped (s : State) (c : TC) (n : Nat) : State × List Word :=
  match s.stackPop c n with
  | .ok u ws => (u, ws)
  | _ => (s, [])

/-- The return PC as a call pushes it (R204). -/
def retWords (c : TC) : List Word := [(c.pc + 12).lo, ((c.pc + 12).extractLsb' 32 24).setWidth 32]

/-- An access may be issued: nothing in the side log holds it (R362), its core has room for its requests (R14), and an indirect D finds a
range entry (R69). -/
def State.MayIssue (s : State) (c : TC) (d : Operand) (q : Req) : Prop :=
  s.logHold c q = [] ∧ s.reqRoom c.wk q.parts.length = true ∧ (s.accRange c.key c.wk (some d) c.d).isSome = true

/-- The state after its issue; a release holds its threads while earlier accesses are due (R246). -/
def State.issued (s : State) (c : TC) (d : Operand) (q : Req) : State :=
  let s1 := (s.accRange c.key c.wk (some d) c.d).getD s
  if q.rel then (s1.issue c q).holdRel c.wk c.who s1.nextId true (.fence true) else s1.issue c q

/-- D of every active thread is ready. -/
def State.DestsReady (s : State) (c : TC) : Prop := ∀ t ∈ maskList c.act, ∃ ls, s.prepOp c.wk t c.g.d = .ok ls

/-- The registers that D names in the active threads. -/
def State.destLocs (s : State) (c : TC) : List Loc := (maskList c.act).flatMap (fun t => (s.prepOp c.wk t c.g.d).locs)

/-- A register of another thread may be read for a collective (R134): a thread in its table has it ready and free of poison; of a thread
that has left, what it held at EXIT counts, and its poison. -/
def State.GatherReady (s : State) (wk u i : Nat) : Prop :=
  if (s.thread wk u).live then s.readable (.v wk u i) = true ∧ s.pois (.v wk u i) = false
  else Fmap.get false (s.thread wk u).exitPois (granOf i) = false

/-- What is read. -/
def State.gathered (s : State) (wk u i : Nat) : Word :=
  if (s.thread wk u).live then s.readLoc (.v wk u i) else Fmap.get 0 (s.thread wk u).exitV i

/-- The entry of the range list that an instruction's indirect write takes is free, or taken already (R69). -/
def State.indFree (s : State) (c : TC) : Prop := ((s.run c.key).bind (fun r => r.ind)).isSome = true ∨ s.rangeRoom c.wk 1 = true

/-- Words written into D of every active thread, as D was named in state `s`: one thread a cycle where the instruction is not uniform,
seen by the comparators that watch D, in the range list where D is indirect, and available after 8 cycles (R33, R35, R69, R323). -/
def State.writeAll (u : State) (c : TC) (s : State) (xs : List Word) : State :=
  (foldS (maskList c.act) u (fun u t =>
    let ls := (s.prepOp c.wk t c.g.d).locs
    let v := u.writeLocs ls xs
    ((if t = c.t then v else (if isInd c.g.d then v.noteInd c.key 8 ls else v).watchLocs c.wk [] ls).soon c.wk ((ls.filter (fun l => l.wk == c.wk)).map Res.reg) 8).setClk
      (u.clk + if sigUniform c.g then 0 else 1))).setClk s.clk

/-- From `u` on, an instruction holds its active threads until a result comes into D, as D was named in state `s` (R68). -/
def State.holdFrom (u : State) (c : TC) (s : State) (h : List Loc → Hold) : State :=
  foldS (maskList c.act) (u.expect c.key c.wk (s.destLocs c)) (fun u t =>
    u.modThread c.wk t (fun r => { r with hold := h (s.prepOp c.wk t c.g.d).locs }))
/-- The state after an instruction that so holds its active threads. -/
def State.holdFor (s : State) (c : TC) (h : List Loc → Hold) : State := s.bumpId.holdFrom c s h

/-- An indirect D of every active thread finds its place in the range list, until the result comes (R69). -/
def State.destRanges (s : State) (c : TC) : Option State :=
  (maskList c.act).foldl (fun o t => o.bind (fun u => u.accRange c.key c.wk (c.g.d.map OpS.x) (s.prepOp c.wk t c.g.d).locs)) (some s.bumpId)

/-- A pull or a multicast may enter its queue: there is room, and its status granule and what it writes of its own warp may be lent. -/
def State.WinFree (s : State) (c : TC) (x : Cmd) : Prop :=
  s.issueDue c.wk c.act = [] ∧ s.queueFull c.wk false = false ∧
    s.rangeRoom c.wk (spanRng true c.d ++ s.ownRngs x).length = true ∧ s.lendW (c.d ++ (s.ownRngs x).flatMap rngLocs) = true

/-- The hold of a thread that an ERET's request held: the result pair comes into D (R207). -/
def State.sysResult (s : State) (wk t id : Nat) (res : DWord) : State :=
  match (s.thread wk t).hold with
  | .sysc i d => if i = id then (s.deliverTo wk [.v wk t d, .v wk t (d + 1)] (words2 res)).release wk t else s
  | _ => s

/-- A signature that went through, and the state after it. -/
def SignRes.IsSigned : SignRes → Prop
  | .signed _ => True
  | _ => False
def SignRes.state : SignRes → State → State
  | .signed u, _ => u
  | _, s => s

/-- A joint array instruction signs its convergence register for each active thread (R42, R223, R224). -/
def SignsJointly (i : Instr) (k : Nat) (warpKind : Bool) : Prop :=
  Completes i false false .int .int
    (fun c s => arrExt (s.warp c.wk).alloc (s.fsWord c.wk (arrSlot i)) i = none ∧ (s.sign c.wk c.t k i c.pc warpKind).IsSigned ∧
      arrSlotBad (s.fsWord c.wk (arrSlot i)) i = false ∧ s.issueDue c.wk (bit1 c.t) = [] ∧ s.jointFree i k c = true)
    (fun c s => s.jointSign ((s.sign c.wk c.t k i c.pc warpKind).state s) i k c)

/-- An array instruction enters its command into the warp's array queue once (R222). -/
def EntersOnce (i : Instr) (va : TC → List Word) : Prop :=
  CompletesOnce i .int .int
    (fun c s => arrExt (s.warp c.wk).alloc (s.fsWord c.wk (arrSlot i)) i = none ∧ arrSlotBad (s.fsWord c.wk (arrSlot i)) i = false ∧
      s.issueDue c.wk c.act = [] ∧ s.onceArrFree i c (va c) = true)
    (fun c s => (s.takeNum c.wk true).enqueue (s.onceArrCmd i c (va c))
      ((arrRngs (s.fsWord c.wk (arrSlot i)) (.cmd 0) i).map (fun r => (c.wk, r))))

/-- The block of a warp is a member of a group barrier (R195). -/
def State.gbarMember (s : State) (wk g : Nat) : Bool :=
  (Fmap.get [] (s.launch (s.block (bkOf wk)).lid).groups g).contains (s.block (bkOf wk)).bidx

/-- The granule of a byte-counting barrier's object is full and holds no poison (R59, R345). -/
def State.ObjReadable (s : State) (o : List Loc) : Prop := s.obReady o = true ∧ ∀ l ∈ o, s.pois l = false

/-- The schedule that a word acts for runs. -/
def Running (s : State) (r : SRun) : Prop := (s.sched s.sfocus).run = some r ∧ r.phase = .running ∧ r.stopped = false

/-- The schedule goes on after a word, in a later cycle (R297; log 69). -/
def State.wordDone (s t : State) (r : SRun) : State :=
  t.setSRun s.sfocus (some { r with steps := r.steps + 1, tword := none, fwd := none, sent := 0, turn := s.clk + 1 })

/-- OP of an instruction word (R88). -/
def opOf (i : Instr) : Nat :=
  match i.sig with
  | some g => g.op
  | none => 1024

/-- An instruction names a system register, or host memory (R87, R179). -/
def namesSystem (i : Instr) : Bool :=
  match i.sig with
  | some g => optSys g.d || optSys g.a || optSys g.b || (match i with
    | .cpy _ _ dsp ssp _ _ _ => dsp == .hst || ssp == .hst
    | _ => false)
  | none => false

end Sys2Proof.Machine
end

