-- ==== Sys2Proof/Certificates/Slice0/Obligations.lean ====
section
/-! DEFINITION. The statements put to the provers. Each docstring names the rules of the manual that the statement formalises; the words
they are stated in stand in Safety.lean. -/

open Sys2Proof Sys2Proof.Machine

/-! ### Results of the instruction classes -/

/-- R120 to R122: every instruction of class 0x0 but IADC writes its exact result, limited under SAT, modulo the width of D. -/
def Obligations.IntegerResults : Prop :=
  ∀ (h : Hdr) (m : Arith) (d a b : Operand),
    Computes (.iadd h m d a b) true .int .int Always (fun c _ => intRes m (negA m (tyInt m.ty c.av) + negB m (tyInt m.ty c.bv))) ∧
    Computes (.isub h m d a b) true .int .int Always (fun c _ => intRes m (negA m (tyInt m.ty c.av) - negB m (tyInt m.ty c.bv))) ∧
    Computes (.imul h m d a b) true .int .int Always (fun c _ => intRes m (negA m (tyInt m.ty c.av) * negB m (tyInt m.ty c.bv))) ∧
    Computes (.imulh h m d a b) true .int .int Always
      (fun c _ => intRes m (negA m (tyInt m.ty c.av) * negB m (tyInt m.ty c.bv) / 2 ^ tyBits m.ty)) ∧
    Computes (.imad h m d a b) true .int .int Always
      (fun c _ => intRes m (negA m (tyInt m.ty c.av) * negB m (tyInt m.ty c.bv) + tyInt m.ty c.dv)) ∧
    Computes (.imadw h m d a b) true .int .int Always (fun c _ => BitVec.ofInt 64 (c.dv.toNat + ext64 m.ty c.av * ext64 m.ty c.bv)) ∧
    Computes (.idiv h m d a b) true .int .int Always
      (fun c _ => intRes m (divInt (negA m (tyInt m.ty c.av)) (negB m (tyInt m.ty c.bv)))) ∧
    Computes (.irem h m d a b) true .int .int Always
      (fun c _ => intRes m (remInt (negA m (tyInt m.ty c.av)) (negB m (tyInt m.ty c.bv)))) ∧
    Computes (.imin h m d a b) true .int .int Always
      (fun c _ => intRes m (min (negA m (tyInt m.ty c.av)) (negB m (tyInt m.ty c.bv)))) ∧
    Computes (.imax h m d a b) true .int .int Always
      (fun c _ => intRes m (max (negA m (tyInt m.ty c.av)) (negB m (tyInt m.ty c.bv)))) ∧
    Computes (.iabs h m d a) true .int .int Always (fun c _ => intRes m (negA m (tyInt m.ty c.av)).natAbs) ∧
    Computes (.ineg h m d a) true .int .int Always (fun c _ => intRes m (-negA m (tyInt m.ty c.av))) ∧
    Computes (.lea h m d a b) true .int .int Always
      (fun c _ => BitVec.ofInt 64 (c.dv.toNat + ext64 m.ty c.av * 2 ^ (c.bv.toNat % 64))) ∧
    Computes (.idot4 h m d a b) true .int .int Always (fun c _ => intRes m (tyInt m.ty c.dv + dot4 m.ty c.av c.bv)) ∧
    Computes (.isad h m d a b) true .int .int Always
      (fun c _ => intRes m (tyInt m.ty c.dv + (negA m (tyInt m.ty c.av) - negB m (tyInt m.ty c.bv)).natAbs))

/-- R123: IADC adds its operands and the carry that stands in bit 0 of the high register of its pair, and the pair receives the 32-bit
sum and the carry out. -/
def Obligations.CarryAdd : Prop :=
  ∀ (h : Hdr) (m : Arith) (d a b : Operand),
    Computes (.iadc h m d a b) true .int .int Always (fun c _ => iadcVal c.av c.bv c.dv) ∧
    ∀ av bv dv : DWord,
      ((iadcVal av bv dv).lo = av.lo + bv.lo + (if dv.hi.getLsbD 0 then 1 else 0)) ∧
      ((iadcVal av bv dv).hi = if 2 ^ 32 ≤ av.lo.toNat + bv.lo.toNat + (if dv.hi.getLsbD 0 then 1 else 0) then 1 else 0)

/-- R122: what IDIV and IREM give, as numbers of their type: division toward zero, and the borderline cases, which raise no trap. -/
def Obligations.DivisionCases : Prop :=
  (∀ a b : Word, b = 0 → intRes ⟨.rne, .z32, false, false, false, false⟩ (divInt a.toNat b.toNat) = -1 ∧ remInt (a.toNat : Int) b.toNat = a.toNat) ∧
  (∀ a b : Word, b = 0 → divInt a.toInt b.toInt = -1 ∧ remInt a.toInt b.toInt = a.toInt) ∧
  (∀ a b : DWord, b = 0 → intRes ⟨.rne, .z64, false, false, false, false⟩ (divInt a.toNat b.toNat) = -1 ∧ remInt (a.toNat : Int) b.toNat = a.toNat) ∧
  (∀ a b : DWord, b = 0 → divInt a.toInt b.toInt = -1 ∧ remInt a.toInt b.toInt = a.toInt) ∧
  ((intRes ⟨.rne, .s32, false, false, false, false⟩ (divInt (-2147483648) (-1))).lo = 0x80000000 ∧ remInt (-2147483648) (-1) = 0) ∧
  (intRes ⟨.rne, .s64, false, false, false, false⟩ (divInt (-9223372036854775808) (-1)) = 0x8000000000000000 ∧ remInt (-9223372036854775808) (-1) = 0) ∧
  (∀ a b : Int, b ≠ 0 → a = divInt a b * b + remInt a b ∧ (remInt a b).natAbs < b.natAbs ∧ (0 ≤ a → 0 ≤ remInt a b) ∧ (a ≤ 0 → remInt a b ≤ 0))

/-- R124 to R127: every instruction of class 0x1 writes its result. -/
def Obligations.LogicResults : Prop :=
  ∀ (h : Hdr) (m : Arith) (d a b : Operand),
    Computes (.land h m d a b) true .int .int Always (fun c _ => c.av &&& c.bv) ∧
    Computes (.lor h m d a b) true .int .int Always (fun c _ => c.av ||| c.bv) ∧
    Computes (.lxor h m d a b) true .int .int Always (fun c _ => c.av ^^^ c.bv) ∧
    Computes (.andn h m d a b) true .int .int Always (fun c _ => c.av &&& ~~~c.bv) ∧
    Computes (.lnot h m d a) true .int .int Always (fun c _ => ~~~c.av) ∧
    Computes (.shl h m d a b) true .int .int Always (fun c _ => shlVal m.ty c.av c.bv.lo.toNat) ∧
    Computes (.shr h m d a b) true .int .int Always (fun c _ => shrVal m.ty c.av c.bv.lo.toNat) ∧
    Computes (.sar h m d a b) true .int .int Always (fun c _ => sarVal m.ty c.av c.bv.lo.toNat) ∧
    Computes (.rol h m d a b) true .int .int Always (fun c _ => rolVal m.ty c.av c.bv.lo.toNat) ∧
    Computes (.fshl h m d a b) true .int .int Always (fun c _ => fshlVal c.dv c.av c.bv.lo.toNat) ∧
    Computes (.bfe h m d a b) true .int .int Always (fun c _ => bfeVal m.ty c.av (byteAt c.bv 0) (byteAt c.bv 1)) ∧
    Computes (.bfi h m d a b) true .int .int Always (fun c _ => bfiVal m.ty c.dv c.av (byteAt c.bv 0) (byteAt c.bv 1)) ∧
    Computes (.popc h m d a) true .int .int Always (fun c _ => popcVal m.ty c.av) ∧
    Computes (.clz h m d a) true .int .int Always (fun c _ => clzVal m.ty c.av) ∧
    Computes (.ctz h m d a) true .int .int Always (fun c _ => ctzVal m.ty c.av) ∧
    Computes (.brev h m d a) true .int .int Always (fun c _ => brevVal m.ty c.av)

/-- R124: the shifts are multiplications and divisions by powers of two at the width of the type, a count of the width or more
included, and FSHL is a shift of the old D over A. -/
def Obligations.ShiftArithmetic : Prop :=
  (∀ (ty : Ty) (a : DWord) (n : Nat), (shlVal ty a n).toNat % 2 ^ tyBits ty = a.toNat * 2 ^ n % 2 ^ tyBits ty) ∧
  (∀ (ty : Ty) (a : DWord) (n : Nat), (shrVal ty a n).toNat = a.toNat % 2 ^ tyBits ty / 2 ^ n) ∧
  (∀ (a : DWord) (n : Nat), (sarVal .b64 a n).toInt = a.toInt / 2 ^ n) ∧
  (∀ (a : DWord) (n : Nat), (sarVal .b32 a n).lo.toInt = a.lo.toInt / 2 ^ n) ∧
  (∀ (a : DWord) (n j : Nat), j < 32 → (rolVal .b32 a n).getLsbD ((j + n) % 32) = a.getLsbD j) ∧
  (∀ (a : DWord) (n j : Nat), j < 64 → (rolVal .b64 a n).getLsbD ((j + n) % 64) = a.getLsbD j) ∧
  (∀ (d a : DWord) (n : Nat), (fshlVal d a n).toNat = (d.lo.toNat * 2 ^ 32 + a.lo.toNat) * 2 ^ (n % 32) / 2 ^ 32 % 2 ^ 32)

/-- R125: LOP3 gives in each bit the function that its table holds for the bits of the low and the high register of A and of the old D. -/
def Obligations.Lop3Table : Prop :=
  ∀ (h : Hdr) (m : Arith) (d a b : Operand),
    Computes (.lop3 h m d a b) true .int .int Always (fun c _ => lop3Val c.av.lo c.av.hi c.dv.lo (b.payload.setWidth 8)) ∧
    ∀ (x y z : Word) (f : BitVec 8) (j : Nat), j < 32 →
      (lop3Val x y z f).getLsbD j = f.getLsbD ((x.getLsbD j).toNat + 2 * (y.getLsbD j).toNat + 4 * (z.getLsbD j).toNat)

/-- R127: PRMT builds each byte from the eight bytes of A and B as a byte of the old D directs. -/
def Obligations.PermuteBytes : Prop :=
  ∀ (h : Hdr) (m : Arith) (d a b : Operand),
    Computes (.prmt h m d a b) true .int .int Always (fun c _ => prmtVal c.av.lo c.bv.lo c.dv.lo) ∧
    ∀ (x y s : Word) (j : Nat), j < 4 →
      (prmtVal x y s).toNat / 256 ^ j % 256 =
        (let ctl := s.toNat / 256 ^ j % 256
         let v := (y.toNat * 2 ^ 32 + x.toNat) / 256 ^ (ctl % 8) % 256
         if ctl / 8 % 4 = 0 then v else if ctl / 8 % 4 = 1 then 0 else if ctl / 8 % 4 = 2 then (if 128 ≤ v then 255 else 0) else 255)

/-- R126: BFE takes the named bits, zeros or copies of the sign above the width and above the field; BFI replaces the named bits of the
old D alone. -/
def Obligations.BitFields : Prop :=
  (∀ (ty : Ty) (a : DWord) (pos len j : Nat), j < tyBits ty →
    (bfeVal ty a pos len).getLsbD j =
      (let w := tyBits ty
       let sg : Bool := ty = .s32 ∨ ty = .s64
       let f : Nat → Bool := fun j => if pos + j < w then a.getLsbD (pos + j) else sg && a.getLsbD (w - 1)
       if min len w = 0 then false else if j < min len w then f j else sg && f (min len w - 1))) ∧
  (∀ (ty : Ty) (d a : DWord) (pos len j : Nat), j < tyBits ty →
    (bfiVal ty d a pos len).getLsbD j = if pos ≤ j ∧ j < pos + len then a.getLsbD (j - pos) else d.getLsbD j)

/-- R124: the counts of bits, and the reversal. -/
def Obligations.BitCounts : Prop :=
  (∀ (ty : Ty) (a : DWord), (popcVal ty a).toNat = ((List.range (tyBits ty)).map (fun j => (a.getLsbD j).toNat)).sum) ∧
  (∀ (ty : Ty) (a : DWord) (n : Nat), n < tyBits ty → a.getLsbD (tyBits ty - 1 - n) = true →
    (∀ k, k < n → a.getLsbD (tyBits ty - 1 - k) = false) → (clzVal ty a).toNat = n) ∧
  (∀ (ty : Ty) (a : DWord) (n : Nat), n < tyBits ty → a.getLsbD n = true → (∀ k, k < n → a.getLsbD k = false) → (ctzVal ty a).toNat = n) ∧
  (∀ ty : Ty, (clzVal ty 0).toNat = tyBits ty ∧ (ctzVal ty 0).toNat = tyBits ty) ∧
  (∀ (ty : Ty) (a : DWord) (j : Nat), j < tyBits ty → (brevVal ty a).getLsbD j = a.getLsbD (tyBits ty - 1 - j))

/-- R128, R129, R131, R151, R192: moves, compares and selections into registers.
An access-slice instance's `%fflags` and `%ften` are the model's choice (log 66). -/
def Obligations.MoveResults : Prop :=
  (∀ (h : Hdr) (d a : Operand), (∀ n, d ≠ .q n) → (∀ n, d ≠ .sr n) → Computes (.mov h d a) true .int .int Always (fun c _ => c.av)) ∧
  (∀ (h : Hdr) (n : BitVec 10) (a : Operand), Completes (.mov h (.sr n) a) true false .int .int Always (fun c s =>
    s.modThread (parent c.wk) c.t (fun r => if n.toNat = 0x20 then { r with fflags := c.av.lo &&& 31 } else { r with ften := c.av.lo &&& 31 }))) ∧
  (∀ (h : Hdr) (n : BitVec 5) (a : Operand), CompletesOnce (.mov h (.q n) a) .int .int (fun c s => s.queueLen (parent c.wk) n.toNat < 16)
    (fun c s => s.pushQ (parent c.wk) n.toNat ⟨true, c.av.lo, 0⟩)) ∧
  (∀ (h : Hdr) (d : Operand) (k : Word), Computes (.movi h d k) true .int .int Always (fun _ _ => k.setWidth 64)) ∧
  (∀ (h : Hdr) (hnd : Bool) (d a : Operand), Computes (.mov64 h hnd d a) true .int .int Always
    (fun c s => if hnd then Fmap.get 0 (s.warp c.wk).w (slotOf a) else c.av)) ∧
  (∀ (h : Hdr) (ty : Ty) (rel : BitVec 4) (d a b : Operand), Computes (.iset h ty rel d a b) true .int .int Always
    (fun c _ => if relHolds ty rel c.av c.bv then 1 else 0)) ∧
  (∀ (h : Hdr) (ty : Ty) (d a b : Operand), Computes (.sel h ty d a b) false .int .int (fun c _ => c.av ≠ 0) (fun c _ => c.bv)) ∧
  (∀ (h : Hdr) (ty : Ty) (d a b : Operand), Completes (.sel h ty d a b) false false .int .int Always
    (fun c s => if c.av ≠ 0 then s.writeD2 c.d c.bv else s)) ∧
  (∀ (h : Hdr) (ty : Ty) (d : Operand),
    let ps : TC → State → List Nat := fun c s => List.range (s.warp c.wk).alloc.np
    let P : TC → State → Prop := fun c s => ∀ p ∈ ps c s, s.avail c.wk (.pred c.t p) = true
    Writes (.p2v h ty d) .int .int P (fun c s => (s.predWord c.wk c.t).setWidth 64) ∧
    Completes (.p2v h ty d) false false .int .int P (fun c s =>
      (s.writeD2 c.d ((s.predWord c.wk c.t).setWidth 64)).watchCells c.wk ((ps c s).map (fun p => .pred c.wk p)) [])) ∧
  (∀ (h : Hdr) (m : Arith) (d a : Operand), Computes (.fclass h m d a) true .f32 .f32 Always (fun c _ => BitVec.ofNat 64 (fclass c.av.lo.toNat))) ∧
  (∀ (h : Hdr) (k : Tctx) (d a : Operand), Computes (.tlrd h k d a) true .int .int (fun c _ => k = .sched → schedRefBad c.av.lo = false)
    (fun c s => BitVec.ofNat 64 (s.tlComp c.wk k (refSid c.av.lo)))) ∧
  (∀ (h : Hdr) (k : Tctx) (d a : Operand), Computes (.tltag h k d a) true .int .int (fun c _ => k = .sched → schedRefBad c.av.lo = false)
    (fun c s => BitVec.ofNat 64 (s.tlLast c.wk k (refSid c.av.lo))))

/-- R128, R129, R139, R150, R155: instructions that write predicate bits. V2P writes the predicates that its mask names. -/
def Obligations.PredicateResults : Prop :=
  (∀ (h : Hdr) (ty : Ty) (rel : BitVec 4) (d a b : Operand), Completes (.isetp h ty rel d a b) false false .int .int Always
    (fun c s => s.setPred c.wk c.t (pIdx d) (relHolds ty rel c.av c.bv))) ∧
  (∀ (h : Hdr) (ty : Ty) (tt : BitVec 4) (d a b : Operand), Completes (.psetp h ty tt d a b) false false .int .int Always
    (fun c s => s.setPred c.wk c.t (pIdx d) (tt.getLsbD ((if c.av ≠ 0 then 2 else 0) + (if c.bv ≠ 0 then 1 else 0))))) ∧
  (∀ (h : Hdr) (ty : Ty) (a b : Operand), Completes (.v2p h ty a b) false false .int .int Always
    (fun c s =>
      let ps := (List.range (s.warp c.wk).alloc.np).filter (fun j => c.bv.getLsbD j)
      ((foldS ps s (fun s j => s.setPred c.wk c.t j (c.av.getLsbD j))).watchCells c.wk [] (ps.map (fun p => .pred c.wk p))).soon c.wk
        (ps.map (fun p => .pred c.t p)) 8)) ∧
  (∀ (h : Hdr) (d a : Operand), Completes (.testf h d a) false false .int .int Always
    (fun c s => s.setPred c.wk c.t (pIdx d) (match c.a with | l :: _ => s.full l || s.pois l | [] => true))) ∧
  (∀ (h : Hdr) (m : FCmp) (d a b : Operand), CompletesFp (.fsetp h m d a b) false .f32 .f32 Always
    (fun c s =>
      let r := fF32.cond m.cond (fF32.signs m.abs m.nega c.av.lo.toNat) (fF32.signs (m.abs && b.isReg) m.negb c.bv.lo.toNat)
      (s.setPred c.wk c.t (pIdx d) r.1, r.2))) ∧
  (∀ (h : Hdr) (m : FCmp) (d a b : Operand), CompletesFp (.hsetp2 h m d a b) false .half .half Always
    (fun c s =>
      let g := halfFmt m.ty
      let r : Nat → Bool × Word := fun k =>
        g.cond m.cond (g.signs m.abs m.nega (halfOf c.av k)) (g.signs (m.abs && b.isReg) m.negb (halfOf c.bv k))
      ((s.setPred c.wk c.t (pIdx d) (r 0).1).setPred c.wk c.t (pIdx d + 1) (r 1).1, (r 0).2 ||| (r 1).2)))

/-- R128, R129: a written predicate bit reads back, and the bits of other threads and of other predicates stand as they did; the relation
mask selects among less, equal and greater. -/
def Obligations.PredicateBits : Prop :=
  (∀ (s : State) (wk t p : Nat) (x : Bool), t < 32 → (s.setPred wk t p x).predBit wk t p = x) ∧
  (∀ (s : State) (wk t p wk2 t2 p2 : Nat) (x : Bool), t < 32 → t2 < 32 → (wk2, t2, p2) ≠ (wk, t, p) →
    (s.setPred wk t p x).predBit wk2 t2 p2 = s.predBit wk2 t2 p2) ∧
  (∀ (ty : Ty) (rel : BitVec 4) (a b : DWord), relHolds ty rel a b =
    ((rel.getLsbD 0 && tyInt ty a < tyInt ty b) || (rel.getLsbD 1 && tyInt ty a = tyInt ty b) || (rel.getLsbD 2 && tyInt ty b < tyInt ty a)))

/-! ### Floating point -/

/-- R143 to R153: every F32 instruction that writes a register writes its result, rounded once, and raises the conditions of it. -/
def Obligations.FloatResults : Prop :=
  ∀ (h : Hdr) (m : Arith) (d a b : Operand),
    let x : TC → Nat := fun c => codeA fF32 m c.av.lo.toNat
    let y : TC → Nat := fun c => codeB fF32 m b c.bv.lo.toNat
    let out : Nat × Word → DWord × Word := fun r => (BitVec.ofNat 64 r.1, r.2)
    let arith : (FVal → FVal → FVal → Nat × Word) → TC → State → DWord × Word := fun f c _ =>
      out (satIf fF32 m.sat (f (fF32.decode (x c)) (fF32.decode (y c)) (fF32.decode c.dv.lo.toNat)))
    ComputesFp (.fadd h m d a b) true .f32 .f32 Always (arith (fun x y _ => fF32.add m.rnd x y)) ∧
    ComputesFp (.fsub h m d a b) true .f32 .f32 Always (arith (fun x y _ => fF32.add m.rnd x y.neg)) ∧
    ComputesFp (.fmul h m d a b) true .f32 .f32 Always (arith (fun x y _ => fF32.mul m.rnd x y)) ∧
    ComputesFp (.ffma h m d a b) true .f32 .f32 Always (arith (fun x y z => fF32.fma m.rnd x y z)) ∧
    ComputesFp (.fdiv h m d a b) true .f32 .f32 Always (arith (fun x y _ => fF32.div m.rnd x y)) ∧
    ComputesFp (.fmin h m d a b) true .f32 .f32 Always (fun c _ => out (fF32.minmax false false (x c) (y c))) ∧
    ComputesFp (.fmax h m d a b) true .f32 .f32 Always (fun c _ => out (fF32.minmax true false (x c) (y c))) ∧
    ComputesFp (.fminm h m d a b) true .f32 .f32 Always (fun c _ => out (fF32.minmax false true (x c) (y c))) ∧
    ComputesFp (.fmaxm h m d a b) true .f32 .f32 Always (fun c _ => out (fF32.minmax true true (x c) (y c))) ∧
    ComputesFp (.frnd h m d a) true .f32 .f32 Always (fun c _ => out (frnd m.rnd (x c))) ∧
    ComputesFp (.ffrc h m d a) true .f32 .f32 Always (fun c _ => out (ffrc (x c))) ∧
    ComputesFp (.fscale h m d a b) true .f32 .int Always (fun c _ => out (fscale m.rnd (x c) c.bv.lo.toInt)) ∧
    ComputesFp (.fgetexp h m d a) true .f32 .f32 Always (fun c _ => out (fgetexp (x c)))

/-- R146, R153: the elementary functions, each with the value that the model computes for it and with its conditions. That this value
is the correctly rounded one rests on log 12 (DEDUCED). -/
def Obligations.ElementaryResults : Prop :=
  ∀ (h : Hdr) (m : Arith) (d a : Operand),
    let el : (FVal → Nat × Word) → TC → State → DWord × Word := fun f c _ =>
      let r := satIf fF32 m.sat (f (fF32.decode (codeA fF32 m c.av.lo.toNat)))
      (BitVec.ofNat 64 r.1, r.2)
    ComputesFp (.fsqrt h m d a) true .f32 .f32 Always (el (fF32.sqrt m.rnd)) ∧
    ComputesFp (.frcp h m d a) true .f32 .f32 Always (el (fF32.rcp m.rnd)) ∧
    ComputesFp (.frsq h m d a) true .f32 .f32 Always (el (fF32.rsq m.rnd)) ∧
    ComputesFp (.fexp2 h m d a) true .f32 .f32 Always (el (fF32.exp2 m.rnd)) ∧
    ComputesFp (.flog2 h m d a) true .f32 .f32 Always (el (fF32.log2 m.rnd)) ∧
    ComputesFp (.fsinpi h m d a) true .f32 .f32 Always (el (fF32.sinpi m.rnd)) ∧
    ComputesFp (.fcospi h m d a) true .f32 .f32 Always (el (fF32.cospi m.rnd)) ∧
    ComputesFp (.ftanh h m d a) true .f32 .f32 Always (el (fF32.tanh m.rnd))

/-- R154, R155: the packed instructions compute each half on its own, in F16 or B16, and OR the conditions of both. -/
def Obligations.PackedResults : Prop :=
  ∀ (h : Hdr) (m : Arith) (d a b : Operand),
    let g := halfFmt m.ty
    let x : TC → Nat → Nat := fun c k => codeA g m (halfOf c.av k)
    let y : TC → Nat → Nat := fun c k => codeB g m b (halfOf c.bv k)
    let both : (Nat → Nat × Word) → DWord × Word := fun f => (BitVec.ofNat 64 ((f 1).1 * 65536 + (f 0).1), (f 0).2 ||| (f 1).2)
    let arith : (FVal → FVal → FVal → Nat × Word) → TC → State → DWord × Word := fun f c _ =>
      both (fun k => satIf g m.sat (f (g.decode (x c k)) (g.decode (y c k)) (g.decode (halfOf c.dv k))))
    ComputesFp (.hadd2 h m d a b) true .half .half Always (arith (fun x y _ => g.add m.rnd x y)) ∧
    ComputesFp (.hmul2 h m d a b) true .half .half Always (arith (fun x y _ => g.mul m.rnd x y)) ∧
    ComputesFp (.hfma2 h m d a b) true .half .half Always (arith (fun x y z => g.fma m.rnd x y z)) ∧
    ComputesFp (.hmin2 h m d a b) true .half .half Always (fun c _ => both (fun k => g.minmax false false (x c k) (y c k))) ∧
    ComputesFp (.hmax2 h m d a b) true .half .half Always (fun c _ => both (fun k => g.minmax true false (x c k) (y c k)))

/-- R156 to R161: conversions. FCVT, FPACK, FUNPACK and QBLK read the format slot they name, which must have no scale and be dense (QBLK:
scale E8); FPACK and FUNPACK touch the registers of one element of a string, which must be in the allocation and available; TAKE on FUNPACK
empties the granules of that element, and it raises IV for F16 and B16 alone. Which granules TAKE on FUNPACK empties is read by inference
(log 5, DEDUCED), and what FCVT .from makes of payload bit 16 of an immediate is the model's choice (log 66, DESIGN CHOICE). -/
def Obligations.ConvertResults : Prop :=
  (∀ (h : Hdr) (rnd : Rnd) (dirFrom : Bool) (slot : BitVec 3) (d a : Operand),
    ComputesFp (.fcvt h rnd dirFrom slot d a) true .f32 .int (fun c s => fsPlain (s.fsWord c.wk slot.toNat) = true) (fun c s =>
      let fm := fsAfmt (s.fsWord c.wk slot.toNat)
      let r := if dirFrom then fcvtFrom fm (fcvtSrc dirFrom fm a c.av) else fcvtTo fm rnd (fcvtSrc dirFrom fm a c.av)
      (BitVec.ofNat 64 r.1, r.2))) ∧
  (∀ (h : Hdr) (rnd : Rnd) (dt : ITy) (sf : VFmt) (d a : Operand),
    ComputesFp (.f2i h rnd dt sf d a) true (if sf = .f32 then .f32 else .code) .int Always (fun c _ =>
      let r := ((vfmt sf).decode c.av.lo.toNat).toInt rnd (ityLo dt) (ityHi dt)
      (BitVec.ofInt 64 r.1, r.2))) ∧
  (∀ (h : Hdr) (rnd : Rnd) (df : VFmt) (st : ITy) (d a : Operand),
    ComputesFp (.i2f h rnd df st d a) true .int .int Always (fun c _ =>
      let r := (vfmt df).roundDy rnd false (ityVal st c.av, 0)
      (BitVec.ofNat 64 r.1, r.2))) ∧
  (∀ (h : Hdr) (rnd : Rnd) (slot : BitVec 3) (d a b : Operand),
    CompletesFp (.fpack h rnd slot d a b) false .f32 .int
      (fun c s =>
        let w := s.fsWord c.wk slot.toNat
        let ls := elemLocs c.wk c.t (vIdx d) (fmtOf (fsAfmt w)).width (c.bv.toNat % 128)
        fsPlain w = true ∧ s.elemBad c.wk ls = none ∧ ls.all (fun l => s.readable l && s.writable l && !s.pois l) = true ∧ s.indFree c)
      (fun c s =>
        let w := s.fsWord c.wk slot.toNat
        let wd := (fmtOf (fsAfmt w)).width
        let ls := elemLocs c.wk c.t (vIdx d) wd (c.bv.toNat % 128)
        let r := fcvtTo (fsAfmt w) rnd c.av.lo.toNat
        let o := wd * (c.bv.toNat % 128) % 32
        let old := s.strVal ls
        (((s.writeLocs ls (wordsOf ls.length (old - old / 2 ^ o % 2 ^ wd * 2 ^ o + r.1 * 2 ^ o))).watchLocs c.wk ls ls).noteInd c.key (latOf c.g) ls, r.2))) ∧
  (∀ (h : Hdr) (slot : BitVec 3) (d a b : Operand),
    CompletesFp (.funpack h slot d a b) false .int .int
      (fun c s =>
        let w := s.fsWord c.wk slot.toNat
        let ls := elemLocs c.wk c.t (vIdx a) (fmtOf (fsAfmt w)).width (c.bv.toNat % 128)
        fsPlain w = true ∧ s.elemBad c.wk ls = none ∧ ls.all (fun l => s.readable l && !s.pois l) = true)
      (fun c s =>
        let w := s.fsWord c.wk slot.toNat
        let wd := (fmtOf (fsAfmt w)).width
        let ls := elemLocs c.wk c.t (vIdx a) wd (c.bv.toNat % 128)
        let r := fcvtFrom (fsAfmt w) (s.strVal ls / 2 ^ (wd * (c.bv.toNat % 128) % 32) % 2 ^ wd)
        (((s.watchLocs c.wk ls []).takeLocs c.h ls).writeD2 c.d (BitVec.ofNat 64 r.1), if fsAfmt w = 0 then 0 else r.2))) ∧
  (∀ (h : Hdr) (j : BlkIdx) (slot : BitVec 3) (d a : Operand),
    ComputesFp (.qblk h j slot d a) false .int .int
      (fun c s => (qblkEmax (fsAfmt (s.fsWord c.wk slot.toNat))).isSome = true ∧ fsScale (s.fsWord c.wk slot.toNat) = 1)
      (fun c s =>
        let xs := c.a.map (fun l => (s.readLoc l).toNat)
        let o := 8 * j.toNat
        let old := c.dv.lo.toNat
        (BitVec.ofNat 64 (old - old / 2 ^ o % 256 * 2 ^ o + qblkScale ((qblkEmax (fsAfmt (s.fsWord c.wk slot.toNat))).getD 0) xs * 2 ^ o),
         if xs.any (fun x => isNan (fF32.decode x)) then fIV else 0)))

/-- R145, R146: rounding leaves a value alone that the format holds, in every mode and without a condition; the sign of a zero included. -/
def Obligations.RoundingExact : Prop :=
  ∀ (f : FFmt), f = fF32 ∨ f = fF16 ∨ f = fB16 → ∀ (rnd : Rnd) (x : Nat), x < 2 ^ f.width →
    ∀ (neg : Bool) (m : Nat) (e : Int), f.decode x = .fin neg m e → f.round rnd neg m e false = (x, 0)

/-! ### Indexed access, collectives, windows, F bits (R133 to R139) -/

/-- R133: MOVX and STX name their register by the sum of A and B, which must be below the allocation; the register itself must be
available, and STX takes a range entry until what it writes is (R69). -/
def Obligations.IndexedMoves : Prop :=
  ∀ (h : Hdr) (sp : Bool) (d a b : Operand),
    let reg : TC → Loc := fun c => if sp then .s c.wk (c.av.lo + c.bv.lo).toNat else .v c.wk c.t (c.av.lo + c.bv.lo).toNat
    let inside : TC → State → Prop := fun c s => (c.av.lo + c.bv.lo).toNat < (if sp then (s.warp c.wk).alloc.ns else (s.warp c.wk).alloc.nv)
    Completes (.movx h sp d a b) sp false .int .int
      (fun c s => inside c s ∧ s.readable (reg c) = true ∧ s.pois (reg c) = false)
      (fun c s => (s.writeD1 c.d (s.readLoc (reg c))).watchLocs c.wk [reg c] []) ∧
    Completes (.stx h sp d a b) sp false .int .int
      (fun c s => inside c s ∧ s.writable (reg c) = true ∧ s.indFree c)
      (fun c s => ((s.writeLoc (reg c) c.dv.lo).watchLocs c.wk [] [reg c]).noteInd c.key 8 [reg c])

/-- R134, R135: the collectives read every value before any is written; SHFL and BCAST read of a thread that has left its table what the
register held at its EXIT.
TAKE clears the reading thread's granule: the model's choice (log 66). -/
def Obligations.Collectives : Prop :=
  (∀ (h : Hdr) (mode : ShflMode) (d a b : Operand), CompletesAll (.shfl h mode d a b)
    (fun cs s => ∀ c ∈ cs, s.GatherReady c.wk (shflSrc mode c.t c.bv) (vIdx a))
    (fun cs s => foldS (cs.map (fun c => (c, s.gathered c.wk (shflSrc mode c.t c.bv) (vIdx a)))) s (fun s p => s.writeD1 p.1.d p.2))) ∧
  (∀ (h : Hdr) (d a b : Operand), CompletesAll (.bcast h d a b)
    (fun cs s => ∀ c ∈ cs, s.GatherReady c.wk (c.bv.toNat % 32) (vIdx a))
    (fun cs s => foldS (cs.map (fun c => (c, s.gathered c.wk (c.bv.toNat % 32) (vIdx a)))) s (fun s p => s.writeD1 p.1.d p.2))) ∧
  (∀ (h : Hdr) (kind : VoteKind) (d a : Operand), CompletesAll (.vote h kind d a) (fun _ _ => True)
    (fun cs s => foldS cs s (fun s c => match d with
      | .p i => s.setPred c.wk c.t i.toNat (voteVal kind cs != 0)
      | _ => s.writeD1 c.d (voteVal kind cs)))) ∧
  (∀ (h : Hdr) (ty : Ty) (oper : RedOper) (d a : Operand), CompletesAll (.redux h ty oper d a) (fun _ _ => True)
    (fun cs s => match cs.map (fun c => c.av.lo) with
      | [] => s
      | x :: xs => foldS cs s (fun s c => s.writeD1 c.d (xs.foldl (redOp ty oper) x))))

/-- R134: the source threads of SHFL, and the values of VOTE. -/
def Obligations.CollectiveValues : Prop :=
  (∀ (t : Nat) (b : DWord), shflSrc .idx t b = b.toNat % 32) ∧
  (∀ (t : Nat) (b : DWord), t < 32 → shflSrc .xor t b < 32 ∧ shflSrc .xor (shflSrc .xor t b) b = t) ∧
  (∀ (t g k : Nat), t < 32 → g ≤ 5 → k < 32 →
    shflSrc .seg t (BitVec.ofNat 64 (32 * g + k)) / 2 ^ g = t / 2 ^ g ∧ shflSrc .seg t (BitVec.ofNat 64 (32 * g + k)) % 2 ^ g = (t + k) % 2 ^ g) ∧
  (∀ (t : Nat) (b : DWord), t < 32 → shflSrc .ext t b =
    if 0 ≤ (t : Int) + (b.extractLsb' 0 6).toInt ∧ (t : Int) + (b.extractLsb' 0 6).toInt ≤ 31 then ((t : Int) + (b.extractLsb' 0 6).toInt).toNat else t) ∧
  (∀ cs : List TC, (∀ c ∈ cs, c.t < 32) → (cs.map TC.t).Nodup → ∀ c ∈ cs, (voteVal .mask cs).getLsbD c.t = (c.av != 0)) ∧
  (∀ cs : List TC, cs.length ≤ 32 → (voteVal .count cs).toNat = (cs.filter (fun c => c.av != 0)).length) ∧
  (∀ cs : List TC, (voteVal .testAll cs != 0) = cs.all (fun c => c.av != 0)) ∧
  (∀ cs : List TC, (voteVal .testAny cs != 0) = cs.any (fun c => c.av != 0)) ∧
  (∀ cs : List TC, (voteVal .testNone cs != 0) = cs.all (fun c => c.av == 0)) ∧
  (∀ cs : List TC, (voteVal .testSame cs != 0) = (cs.all (fun c => c.av != 0) || cs.all (fun c => c.av == 0)))

/-- R62 to R66, R136 to R139: windows and F bits. EXPW exports an aligned range none of whose registers has a result due, or one not yet
available (R68), or is lent; REVW revokes an export at once where no access works through it, and makes a binding invalid; BINDW takes a handle
that R65 admits; SETF and CLRF set the F bit of the granule of D once every result due in it is available, and clear its poison; of a SETF and
a command's acceptance in one cycle the granule ends empty.
The handle of a system warp is the model's choice (log 66); what a revocation waits for is deduced (log 34). -/
def Obligations.Windows : Prop :=
  (∀ (h : Hdr) (sc : WScope) (grp : BitVec 8) (d a b : Operand), CompletesOnce (.expw h sc grp d a b) .int .int
    (fun c s => vIdx a % 4 = 0 ∧ expLen b % 4 = 0 ∧ 4 ≤ expLen b ∧ vIdx a + expLen b ≤ (s.warp c.wk).alloc.nv ∧
      (s.exporters sc c).all (fun p => (locsV p.1 p.2 (vIdx a) (expLen b)).all (fun l => s.settled l && !s.inRange true l)) = true ∧
      s.isExport c.wk (slotOf d) = false)
    (fun c s =>
      let w := slotOf d
      let gen := (Fmap.get {} (s.warp c.wk).edesc w).gen
      s.modWarp c.wk (fun r =>
        { r with edesc := Fmap.set {} r.edesc w ⟨vIdx a, expLen b, expRw b, scopeBits sc, grp, gen⟩,
                 w := Fmap.set 0 r.w w (handleOf gen (coreOf c.wk) (btagOf c.wk) (widx c.wk) w (scopeBits sc) (expRw b)) }))) ∧
  (∀ (h : Hdr) (d : Operand), CompletesOnce (.revw h d) .int .int
    (fun c s => s.isExport c.wk (slotOf d) = true → (s.warp c.wk).revPend = none ∧ s.winUsers c.wk (slotOf d) = [] ∧ s.winThreads c.wk (slotOf d) = [])
    (fun c s => if hValid (Fmap.get 0 (s.warp c.wk).w (slotOf d)) = false then s
      else if s.isExport c.wk (slotOf d) then s.revoke c.wk (slotOf d) else s.invalidate c.wk (slotOf d))) ∧
  (∀ (h : Hdr) (d a : Operand), CompletesOnce (.bindw h d a) .int .int
    (fun c s => s.bindOk c.wk c.av = true ∧ s.isExport c.wk (slotOf d) = false)
    (fun c s => s.modWarp c.wk (fun r => { r with w := Fmap.set 0 r.w (slotOf d) c.av, bindGo := false }))) ∧
  (∀ (h : Hdr) (d : Operand), Completes (.setf h d) true false .int .int
    (fun c s => ∀ l ∈ c.d, l.wk = c.wk → ∀ k < 4, s.settled (l.inGranule k) = true)
    (fun c s => match c.d with | l :: _ => if s.wasEmptied true l then s.clearPois l else (s.clearPois l).setFull true l | [] => s)) ∧
  (∀ (h : Hdr) (d : Operand), Completes (.clrf h d) true false .int .int
    (fun c s => ∀ l ∈ c.d, l.wk = c.wk → ∀ k < 4, s.settled (l.inGranule k) = true)
    (fun c s => match c.d with | l :: _ => ((s.noteEmptied false l).clearPois l).setFull false l | [] => s))

/-! ### Frames, calls and control (R140, R203 to R208) -/

/-- R75, R140, R204: FRAME, UNFRAME, CALL, CALLX and RET move words between registers or the PC and the thread's stack, where the stack has
room or depth for them and their rows are in the window. -/
def Obligations.StackInstructions : Prop :=
  (∀ (h : Hdr) (d a : Operand), Completes (.frame h d a) false false .int .int
    (fun c s => (locsV c.wk c.t (vIdx d) (immNat a)).all (fun l => s.readable l && !s.pois l) = true ∧ s.PushFits c (immNat a))
    (fun c s => (s.pushed c ((locsV c.wk c.t (vIdx d) (immNat a)).map s.readLoc)).watchLocs c.wk (locsV c.wk c.t (vIdx d) (immNat a)) [])) ∧
  (∀ (h : Hdr) (d a : Operand), Completes (.unframe h d a) false false .int .int
    (fun c s => (locsV c.wk c.t (vIdx d) (immNat a)).all (fun l => s.writable l) = true ∧ s.PopFits c (immNat a))
    (fun c s => (((s.popped c (immNat a)).1.writeLocs (locsV c.wk c.t (vIdx d) (immNat a)).reverse (s.popped c (immNat a)).2).watchLocs c.wk []
      (locsV c.wk c.t (vIdx d) (immNat a))).soon c.wk ((locsV c.wk c.t (vIdx d) (immNat a)).map Res.reg) 8)) ∧
  (∀ (h : Hdr) (off : BitVec 34), Completes (.call h off) false true .int .int (fun c s => s.PushFits c 2)
    (fun c s => (s.pushed c (retWords c)).modThread c.wk c.t (fun x => { x with pc := branchTo c.pc off }))) ∧
  (∀ (h : Hdr) (a : Operand), Completes (.callx h a) false true .int .int (fun c s => s.PushFits c 2)
    (fun c s => (s.pushed c (retWords c)).modThread c.wk c.t (fun x => { x with pc := c.av }))) ∧
  (∀ (h : Hdr), Completes (.ret h) false true .int .int (fun c s => s.PopFits c 2)
    (fun c s => (s.popped c 2).1.modThread c.wk c.t (fun x =>
      { x with pc := Word.pair ((s.popped c 2).2.getD 1 0) ((s.popped c 2).2.getD 0 0 &&& 0xFFFFFF) })))

/-- R75: what a push leaves. The depth grows by the number of words, the entries hold them, the first lowest, and every other entry of the
thread and of others in the window stands as it did, but for those of a poisoned granule; a pop gives the words back, the top one first, and
takes the depth down. -/
def Obligations.StackEntries : Prop :=
  (∀ (c : TC) (s : State) (xs : List Word), s.PushFits c xs.length → c.t < 32 →
    ((s.pushed c xs).thread c.wk c.t).sdepth = (s.thread c.wk c.t).sdepth + xs.length ∧
    (∀ k < xs.length, (s.pushed c xs).stkGet c.wk c.t ((s.thread c.wk c.t).sdepth + k) = xs.getD k 0) ∧
    (∀ t e, t < 32 → s.stkHas c.wk e = true → s.stkBad c.wk t e = false → (t ≠ c.t ∨ e < (s.thread c.wk c.t).sdepth) → (s.pushed c xs).stkGet c.wk t e = s.stkGet c.wk t e)) ∧
  (∀ (c : TC) (s : State) (n : Nat), s.PopFits c n → c.t < 32 →
    ((s.popped c n).1.thread c.wk c.t).sdepth = (s.thread c.wk c.t).sdepth - n ∧
    (s.popped c n).2 = (List.range n).map (fun k => s.stkGet c.wk c.t ((s.thread c.wk c.t).sdepth - 1 - k)) ∧
    (s.popped c n).1.warps = s.warps)

/-- R204 to R208, R90: branches, EXIT, TRAP, TRET in a handler, NOP, SETPAT; SYSC where its die's queue has room.
Which request number SYSC takes is the model's choice (log 66). -/
def Obligations.ControlInstructions : Prop :=
  (∀ (h : Hdr) (cnt : Bool) (d : Operand) (off : BitVec 34), Completes (.bra h cnt d off) true true .int .int Always (fun c s =>
    if cnt then (s.writeD1 c.d (c.dv.lo - 1)).goAll c (if c.dv.lo - 1 = 0 then c.pc + 12 else c.pc + 12 * off.signExtend 64)
    else s.goAll c (c.pc + 12 * off.signExtend 64))) ∧
  (∀ (h : Hdr) (a : Operand), Completes (.brx h a) true true .int .int Always (fun c s => s.goAll c c.av)) ∧
  (∀ (h : Hdr), Completes (.exit h) false false .int .int Always (fun c s => s.exitThread c.wk c.t)) ∧
  (∀ (h : Hdr) (a : Operand), Passes (.trap h a) false false .int .int Always
    (fun c who s => (s.noteOps c).raiseAll c.wk who kSw c.pc (BitVec.ofNat 32 (immNat a)))) ∧
  (∀ (h : Hdr), Completes (.tret h) false true .int .int (fun c s => (s.thread c.wk c.t).inHandler = true)
    (fun c s => s.modThread c.wk c.t (fun r => { r with pc := r.resume, inHandler := false }))) ∧
  (∀ (h : Hdr), CompletesOnce (.nop h) .int .int Always (fun _ s => s)) ∧
  (∀ (h : Hdr) (a : Operand), CompletesOnce (.setpat h a) .int .int Always
    (fun c s => s.modWarp c.wk (fun w => { w with patience := BitVec.ofNat 32 (max 1 (min 255 c.av.lo.toNat)) }))) ∧
  (∀ (h : Hdr) (d a b : Operand), CompletesOnce (.sysc h d a b) .int .int
    (fun c s =>
      let u := s.expect c.key c.wk (s.destLocs c)
      (s.die (dieOf (coreOf c.wk))).sysq.length < 64 ∧ s.DestsReady c ∧
        ∀ t ∈ maskList c.act, u.relDue c.wk t u.nextId false (.sysc (immNat b) c.av (vIdx d) c.act) = false)
    (fun c s => (s.expect c.key c.wk (s.destLocs c)).sysRequest c.wk (immNat b) c.av (vIdx d) c.act))

/-! ### Memory (R162 to R173) -/

/-- R162 to R173: loads, stores, atomics and reductions are issued where no access of the thread in the side log holds them (R362) and an
indirect D finds a range entry (R69) and the core has room for the requests (R14); a load into a queue reserves one entry of a queue with room; FENCE marks the thread and, but for an
acquire, holds it for its stores and reductions. -/
def Obligations.MemoryIssue : Prop :=
  (∀ (h : Hdr) (size : Size) (d a b : Operand), (∀ n, d ≠ .q n) → Completes (.ld h size d a b) true false .int .int
    (fun c s => s.MayIssue c d (loadReq size false false (.regs c.d) c)) (fun c s => s.issued c d (loadReq size false false (.regs c.d) c))) ∧
  (∀ (h : Hdr) (size : Size) (n : BitVec 5) (a b : Operand), CompletesOnce (.ld h size (.q n) a b) .int .int
    (fun c s => s.queueLen (parent c.wk) n.toNat < 16 ∧ s.reqRoom c.wk 2 = true ∧ s.logHold c (loadReq size false false (.queue (parent c.wk) n.toNat) c) = [])
    (fun c s => (((s.runIid c.key).2.pushQ (parent c.wk) n.toNat ⟨false, 0, (s.runIid c.key).1⟩).issue { c with g := { c.g with d := none } }
      (loadReq size false false (.queue (parent c.wk) n.toNat) c)))) ∧
  (∀ (h : Hdr) (size : Size) (d a b : Operand), Completes (.st h size d a b) true false .int .int
    (fun c s => s.MayIssue c (.v 0) (storeReq size false c s)) (fun c s => s.issued c (.v 0) (storeReq size false c s))) ∧
  (∀ (h : Hdr) (scope : Scope) (size : Size) (d a b : Operand), Completes (.lda h scope size d a b) true false .int .int
    (fun c s => s.MayIssue c d (loadReq size true (scopeWide scope) (.regs c.d) c))
    (fun c s => s.issued c d (loadReq size true (scopeWide scope) (.regs c.d) c))) ∧
  (∀ (h : Hdr) (scope : Scope) (size : Size) (d a b : Operand), Completes (.stl h scope size d a b) true false .int .int
    (fun c s => s.MayIssue c (.v 0) (storeReq size true c s)) (fun c s => s.issued c (.v 0) (storeReq size true c s))) ∧
  (∀ (h : Hdr) (ord : AOrd) (ty : Ty) (oper : AOper) (d a b : Operand), Completes (.atom h ord ty oper d a b) true false .int (atomImm ty)
    (fun c s => s.MayIssue c d (atomReq .atom ord ty oper (.regs c.d) c s)) (fun c s => s.issued c d (atomReq .atom ord ty oper (.regs c.d) c s))) ∧
  (∀ (h : Hdr) (ord : AOrd) (ty : Ty) (oper : AOper) (a b : Operand), Completes (.red h ord ty oper a b) true false .int (atomImm ty)
    (fun c s => s.MayIssue c (.v 0) (atomReq .red ord ty oper .none c s)) (fun c s => s.issued c (.v 0) (atomReq .red ord ty oper .none c s))) ∧
  (∀ (h : Hdr) (scope : Scope) (kind : FenceKind), Completes (.fence h scope kind) false false .int .int Always (fun c s =>
    let n := s.nextId
    let s1 := s.modThread c.wk c.t (fun r =>
      { r with barLoad := (if kind = .rel then r.barLoad else n), barAll := (if kind = .acq then r.barAll else n),
               barReg := (if scopeWide scope then n else r.barReg) })
    if kind = .acq then s1 else s1.holdRel c.wk (bit1 c.t) n false (.fence false)))

/-! ### Engine commands (R174 to R190, R219 to R241) -/

/-- R174 to R190: the commands of the copy engine enter the warp's queue with the next number of their context, where the accesses of
their threads are performed, the queue and the list of range entries have room, and their registers may be lent. The registers of the warp's own
window that a pull or a multicast writes are lent as well (R69). -/
def Obligations.CopyIssue : Prop :=
  (∀ (h : Hdr) (size : CpySize) (dsp ssp : Space) (d a b : Operand),
    let i : Instr := .cpy h size dsp ssp d a b
    CompletesAll i
      (fun cs s => match cs with
        | [] => True
        | c0 :: _ => s.issueDue c0.wk (maskOf (cs.map (fun c => c.t))) = [] ∧ s.queueFull (parent c0.wk) false = false ∧
            s.rangeRoom c0.wk (cpyRngs i cs).length = true ∧ s.lendW (cpyStat cs ++ cpyDstRegs i cs) = true ∧ s.lendR (cpySrcRegs i cs) = true ∧
            s.footBusy (s.cpyCmd i c0 cs) = false)
      (fun cs s => match cs with
        | [] => s
        | c0 :: _ => (s.takeNum (parent c0.wk) false).enqueue (s.cpyCmd i c0 cs) (cpyRngs i cs))) ∧
  (∀ (h : Hdr) (sto kvm : Bool) (g : EGuard) (d a b : Operand),
    let i : Instr := .tcopy h sto kvm g d a b
    CompletesOnce i .int .int
      (fun c s => s.issueDue c.wk c.act = [] ∧ (c.b.take 8).all (fun l => s.readable l && !s.pois l) = true ∧
        s.queueFull (parent c.wk) false = false ∧ s.rangeRoom (parent c.wk) (tcopyRngs sto (c.b.drop 8) (s.tcopySide (parent c.wk) d)).length = true ∧
        s.lendW (c.b.drop 8) = true ∧ (if sto then s.lendR (s.tcopySide (parent c.wk) d) else s.lendW (s.tcopySide (parent c.wk) d)) = true ∧
        s.footBusy (s.tcopyCmd i sto g c) = false)
      (fun c s => (s.takeNum (parent c.wk) false).enqueue (s.tcopyCmd i sto g c) (tcopyRngs sto (c.b.drop 8) (s.tcopySide (parent c.wk) d)))) ∧
  (∀ (h : Hdr) (g : EGuard) (d a b : Operand),
    let i : Instr := .tsld h g d a b
    CompletesOnce i .int .int (fun c s => s.issueDue c.wk c.act = [] ∧ s.queueFull c.wk false = false)
      (fun c s => (s.takeNum c.wk false).enqueue
        (s.onceCmd c i .copy (s.nextNum c.wk false) g (words2 (c.av + (b.payload.signExtend 64))) []) [])) ∧
  (∀ (h : Hdr) (g : EGuard) (d : Operand),
    let i : Instr := .tsev h g d
    CompletesOnce i .int .int (fun c s => s.issueDue c.wk c.act = [] ∧ s.queueFull c.wk false = false)
      (fun c s => (s.takeNum c.wk false).enqueue (s.onceCmd c i .copy (s.nextNum c.wk false) g [] []) [])) ∧
  (∀ (h : Hdr) (g : EGuard) (d a : Operand),
    let i : Instr := .cpym h g d a
    let x : TC → State → Cmd := fun c s => s.onceCmd c i .copy (s.nextNum c.wk false) g (c.a.map s.readLoc) c.d
    CompletesOnce i .int .int (fun c s => s.WinFree c (x c s))
      (fun c s => (s.takeNum c.wk false).enqueue (x c s) (spanRng true c.d ++ s.ownRngs (x c s)))) ∧
  (∀ (h : Hdr) (ack : Bool) (g : EGuard) (d a : Operand),
    let i : Instr := .pull h ack g d a
    CompletesOnce i .int .int (fun c s => s.WinFree c (s.pullCmd i g c))
      (fun c s => (s.takePull c.wk).enqueue (s.pullCmd i g c) (spanRng true c.d ++ s.ownRngs (s.pullCmd i g c))))

/-- R188, R189: KICK sends its notice to a block of the launch once its thread's accesses are performed; KWAIT takes the oldest notice that
answers it into D of every active thread, and with none its threads are held; ACK sends an acknowledgement to the warp of a handle. -/
def Obligations.Notices : Prop :=
  (∀ (h : Hdr) (a b : Operand), Completes (.kick h a b) false false .int .int
    (fun c s => s.kickOk c.wk c.av.lo = true ∧
      s.relDue c.wk c.t s.nextId false (.kick (s.kickTo c.key c.av.lo) (BitVec.ofNat 128 (s.locsNat c.b))) = false)
    (fun c s => s.kick c.wk c.t (s.kickTo c.key c.av.lo) (BitVec.ofNat 128 (s.locsNat c.b)))) ∧
  (∀ (h : Hdr) (tag : Bool) (d a : Operand),
    let tg : TC → Option (BitVec 20) := fun c => if tag then some (c.av.setWidth 20) else none
    CompletesOnce (.kwait h tag d a) .int .int (fun c s => (s.notice c.wk (tg c)).isSome = true ∧ s.DestsReady c)
      (fun c s => match s.notice c.wk (tg c) with
        | some (i, n) => (s.dropNotice (coreOf c.wk) i).writeAll c s (wordsOf 4 n.toNat)
        | none => s)) ∧
  (∀ (h : Hdr) (tag : Bool) (d a : Operand),
    let tg : TC → Option (BitVec 20) := fun c => if tag then some (c.av.setWidth 20) else none
    CompletesOnce (.kwait h tag d a) .int .int (fun c s => s.notice c.wk (tg c) = none ∧ s.DestsReady c)
      (fun c s => s.holdFor c (fun ls => .kwait s.nextId (tg c) ls))) ∧
  (∀ (h : Hdr) (a : Operand),
    let dst : TC → State → Nat := fun c s => hWk ((BitVec.ofNat 128 (s.locsNat c.a)).extractLsb' 64 64)
    CompletesOnce (.ack h a) .int .int
      (fun c s => ∀ t ∈ maskList c.act, s.relDue c.wk t s.nextId false (.ack (dst c s) (c.key % 64)) = false)
      (fun c s => s.sendAck (dst c s) (coreOf c.wk) (c.key % 64)))

/-- R219 to R241: an array instruction signs its convergence register for a thread, or enters the warp's array queue once. -/
def Obligations.ArrayIssue : Prop :=
  (∀ (h : Hdr) (g : BitVec 3) (k : BitVec 4) (sl : BitVec 3) (d a b : Operand), SignsJointly (.mma h g k sl d a b) k.toNat true) ∧
  (∀ (h : Hdr) (g : BitVec 3) (k : BitVec 4) (sl : BitVec 3) (d a b : Operand), SignsJointly (.att h g k sl d a b) k.toNat true) ∧
  (∀ (h : Hdr) (g : BitVec 3) (k : BitVec 4) (d a : Operand), SignsJointly (.attfin h g k d a) k.toNat true) ∧
  (∀ (h : Hdr) (g : BitVec 3) (k : BitVec 4) (d a b : Operand), SignsJointly (.ladinit h g k d a b) k.toNat false) ∧
  (∀ (h : Hdr) (g : BitVec 3) (k : BitVec 4) (d a : Operand), SignsJointly (.ladpush h g k d a) k.toNat false) ∧
  (∀ (h : Hdr) (g : BitVec 3) (k : BitVec 4) (d a b : Operand), SignsJointly (.ladread h g k d a b) k.toNat false) ∧
  (∀ (h : Hdr) (g : BitVec 3) (k : BitVec 4) (d a b : Operand), SignsJointly (.ladld h g k d a b) k.toNat true) ∧
  (∀ (h : Hdr) (g : BitVec 3) (n : BitVec 6) (d a b : Operand), EntersOnce (.wld h g n d a b) (arrVA b)) ∧
  (∀ (h : Hdr) (g : BitVec 3) (st : Bool) (d : Operand), EntersOnce (.aclr h g st d) (fun _ => [])) ∧
  (∀ (h : Hdr) (g : BitVec 3) (reg : Bool) (d a b : Operand), EntersOnce (.ald h g reg d a b) (arrVA b)) ∧
  (∀ (h : Hdr) (g : BitVec 3) (rnd : Rnd) (int : Bool) (sl : BitVec 3) (d a : Operand), EntersOnce (.asto h g rnd int sl d a) (fun _ => []))

/-! ### Synchronization (R191 to R202) -/

/-- R193 to R197: TLWAIT and ABWAIT pass where what they wait for has come about and hold their threads elsewhere; BAR and GBAR arrive
once the thread's accesses are performed, and GBAR passes a block that is no member; the operations of a byte-counting barrier act on an
object that is full. -/
def Obligations.BarrierInstructions : Prop :=
  (∀ (h : Hdr) (k : Tctx) (scope : Scope) (a b : Operand), Completes (.tlwait h k scope a b) false false .int .int
    (fun c _ => k = .sched → schedRefBad c.bv.lo = false)
    (fun c s => if c.av.toNat ≤ s.tlComp c.wk k (refSid c.bv.lo) then s
      else s.modThread c.wk c.t (fun r => { r with hold := .tlwait k (refSid c.bv.lo) c.av }))) ∧
  (∀ (h : Hdr) (cnt : Bool) (a b : Operand),
    let n : TC → Option Nat := fun c => if cnt then some c.bv.lo.toNat else none
    Completes (.bar h cnt a b) false false .int .int
      (fun c s => (cnt = true → 1 ≤ c.bv.lo.toNat ∧ c.bv.lo.toNat ≤ 1024) ∧ s.relDue c.wk c.t s.nextId false (.bar (immNat a) (n c)) = false)
      (fun c s => s.barArrive c.wk c.t (immNat a) (n c))) ∧
  (∀ (h : Hdr) (a : Operand), Completes (.gbar h a) false false .int .int
    (fun c s => s.gbarMember c.wk (immNat a) = true → s.relDue c.wk c.t s.nextId false (.gbar (immNat a)) = false)
    (fun c s => if s.gbarMember c.wk (immNat a) then s.gbarArrive c.wk c.t (immNat a) else s)) ∧
  (∀ (h : Hdr) (d a : Operand), Completes (.abinit h d a) true false .int .int
    (fun c s => s.obReady c.d = true ∧ 1 ≤ c.av.lo.toNat ∧ c.av.lo.toNat ≤ 65535)
    (fun c s => s.obPut c.d 0 0 (c.av.setWidth 16) (c.av.setWidth 16))) ∧
  (∀ (h : Hdr) (d a : Operand), Completes (.abexp h d a) true false .int .int
    (fun c s => s.ObjReadable c.d ∧ 1 ≤ c.av.lo.toNat ∧ c.av.lo.toNat ≤ 2147483647) (fun c s => s.obAdd c.d c.av.lo)) ∧
  (∀ (h : Hdr) (d a : Operand), Completes (.abarv h d a) true false .int .int
    (fun c s => s.ObjReadable c.a ∧ ∀ t ∈ maskList c.who, s.relDue c.wk t s.nextId false
      (.abarv c.a c.d (sigUniform c.g) (s.winsOf c.wk c.g.a ++ s.winsOf c.wk c.g.d)) = false)
    (fun c s => s.obArrive c.a c.d)) ∧
  (∀ (h : Hdr) (a b : Operand), Completes (.abwait h a b) true false .int .int (fun c s => s.ObjReadable c.a)
    (fun c s => if s.obPhase c.a ≠ c.bv.lo then s
      else foldS (maskList (if sigUniform c.g then c.mem else bit1 c.t)) s (fun s t => s.modThread c.wk t (fun r =>
        { r with hold := .abwait c.a c.bv.lo (s.winsOf c.wk c.g.a) }))))

/-- R196, R197: an object's phase completes when its last arrival has come and no byte is expected; an object names four registers. -/
def Obligations.BarrierObjects : Prop :=
  ∀ (s : State) (p0 p1 p2 p3 : Loc), [p0, p1, p2, p3].Nodup → (∀ l ∈ [p0, p1, p2, p3], l.Ok) → s.anyPois [p0, p1, p2, p3] = false →
    (∀ (n : Half), (s.obPut [p0, p1, p2, p3] 0 0 n n).obPhase [p0, p1, p2, p3] = 0 ∧ (s.obPut [p0, p1, p2, p3] 0 0 n n).obBytes [p0, p1, p2, p3] = 0 ∧
      (s.obPut [p0, p1, p2, p3] 0 0 n n).obCount [p0, p1, p2, p3] = n ++ n) ∧
    (∀ x : Word,
      let c := s.obCount [p0, p1, p2, p3]
      let o := [p0, p1, p2, p3]
      if obArrv c = 0 ∧ s.obBytes o + x = 0 then
        (s.obAdd o x).obPhase o = s.obPhase o + 1 ∧ (s.obAdd o x).obBytes o = 0 ∧ (s.obAdd o x).obCount o = obInit c ++ obInit c
      else (s.obAdd o x).obPhase o = s.obPhase o ∧ (s.obAdd o x).obBytes o = s.obBytes o + x ∧ (s.obAdd o x).obCount o = c)

/-- R198 to R202: convergence registers, guard slots, YIELD and SLEEP.
The cycle from which SLEEP counts is the model's choice (log 66). -/
def Obligations.SchedulingInstructions : Prop :=
  (∀ (h : Hdr) (block : Bool) (d a : Operand), CompletesOnce (.kdecl h block d a) .int .int Always (fun c s =>
    let m := if block then c.av.lo &&& maskOf ((s.blockWarps (bkOf c.wk)).map widx) else c.av.lo
    let dec := if m = 0 then KDecl.none else if block then .block m else .warp c.wk m
    s.modBlock (bkOf c.wk) (fun b => { b with k := Fmap.set {} b.k (opNum d) { Fmap.get {} b.k (opNum d) with next := some dec } }))) ∧
  (∀ (h : Hdr) (a : Operand),
    let i : Instr := .sign h a
    Completes i false false .int .int
      (fun c s => (s.signHold c.wk c.t (opNum a) i c.pc (.sign (opNum a))).IsSigned ∧
        s.relDue c.wk c.t s.nextId false (.sign (opNum a) i) = false)
      (fun c s => (s.signHold c.wk c.t (opNum a) i c.pc (.sign (opNum a))).state s)) ∧
  (∀ (h : Hdr) (d a b : Operand),
    let i : Instr := .rconv h d a b
    let hold : TC → State → Hold := fun c s => .rconv (opNum a) (pIdx d) (s.clk + c.bv.lo.toNat)
    Completes i false false .int .int
      (fun c s => (s.signHold c.wk c.t (opNum a) i c.pc (hold c s)).IsSigned ∧
        s.relDue c.wk c.t s.nextId false (.rconv (opNum a) (pIdx d) c.bv.lo.toNat i) = false)
      (fun c s => (s.signHold c.wk c.t (opNum a) i c.pc (hold c s)).state s)) ∧
  (∀ (h : Hdr) (d a : Operand), CompletesOnce (.gres h d a) .int .int Always
    (fun c s => s.setGuard c.wk (opNum d) (if c.av = 0 then .false else .true))) ∧
  (∀ (h : Hdr) (d : Operand), CompletesOnce (.gclr h d) .int .int Always (fun c s => s.setGuard c.wk (opNum d) .pending)) ∧
  (∀ (h : Hdr), CompletesOnce (.yield h) .int .int Always (fun c s => s.modWarp c.wk (fun w => { w with elig := 0 }))) ∧
  (∀ (h : Hdr) (a : Operand), Completes (.sleep h a) false false .int .int Always (fun c s =>
    if c.av.lo = 0 then s else s.modThread c.wk c.t (fun r => { r with hold := .sleep (s.clk + c.av.lo.toNat) })))

/-! ### Work entries (R284 to R294) -/

/-- R292 to R294: WQPOST posts an entry that is not active, TARM arms one, CNTADD adds at once and returns the old value or defers its
addition, SCHED takes its number and queues its start; each once the accesses of its threads are performed and its reference is sound. -/
def Obligations.WorkInstructions : Prop :=
  (∀ (h : Hdr) (a b : Operand), CompletesOnce (.wqpost h a b) .int .int
    (fun c s => portEarly entMask c s = none ∧ s.issueDue c.wk c.act = [] ∧ s.entryBusy (refPort c.av.lo) (refEntry c.av.lo) = false)
    (fun c s => s.setEnt (refPort c.av.lo) (refEntry c.av.lo) { st := .posted, bits := s.block256 c.b })) ∧
  (∀ (h : Hdr) (time : Bool) (cidx : BitVec 8) (a b : Operand), (time = true → cidx = 0) → CompletesOnce (.tarm h time cidx a b) .int .int
    (fun c s => portEarly entMask c s = none ∧ s.issueDue c.wk c.act = [] ∧ s.entryBusy (refPort c.av.lo) (refEntry c.av.lo) = false)
    (fun c s => s.arm (refPort c.av.lo) (refEntry c.av.lo) time cidx.toNat c.bv)) ∧
  (∀ (h : Hdr) (set : Bool) (d a b : Operand), CompletesOnce (.cntadd h true set d a b) .int .int
    (fun c s => portEarly refMask c s = none ∧ s.issueDue c.wk c.act = [] ∧ (s.warp c.wk).aft.length < 16)
    (fun c s => (s.modWarp c.wk (fun w =>
      { w with aft := w.aft ++ [⟨w.tlCopy.issue, s.nextId, ⟨refPort c.av.lo, refSid c.av.lo⟩, set, c.bv⟩] })).bumpId)) ∧
  (∀ (h : Hdr) (set : Bool) (d a b : Operand), CompletesOnce (.cntadd h false set d a b) .int .int
    (fun c s => portEarly refMask c s = none ∧ s.issueDue c.wk c.act = [] ∧ s.counterMoves = false ∧
      (∀ q ∈ s.aftList, coreOf c.wk < q.1) ∧ s.DestsReady c)
    (fun c s => (s.counterChange (refPort c.av.lo) (refSid c.av.lo) set c.bv).writeAll c s (words2 (s.counterOf (refPort c.av.lo) (refSid c.av.lo))))) ∧
  (∀ (h : Hdr) (a : Operand),
    let w : TC → State → Nat → Word := fun c s k => s.readLoc (c.a.getD k (.s 0 0))
    CompletesOnce (.sched h a) .int .int
      (fun c s => s.anyPois c.a = false ∧ w c s 0 &&& refMask = 0 ∧ s.issueDue c.wk c.act = [] ∧ s.startsWaiting < 16)
      (fun c s =>
        let sid := refSid (w c s 0)
        let n := (s.sched sid).issue + 1
        ((s.takeSched sid).modWarp c.wk (fun x => { x with lastSched := Fmap.set 0 x.lastSched sid n })).queueStart sid
          ⟨refPort (w c s 0), (w c s 1).toNat, Word.pair (w c s 2) (w c s 3), Word.pair (w c s 4) (w c s 5), Word.pair (w c s 6) (w c s 7),
           (s.warp c.wk).asid, n, none⟩))

/-! ### System and debug instructions (R209 to R218) -/

/-- R209 to R218: the instructions of class 0xF and those that read and write special registers, the fault buffer and links: a result goes
to D of every active thread. For CNTRD, and wherever no rule says so, that is read by inference (log 31, DEDUCED). -/
def Obligations.RegisterInstructions : Prop :=
  (∀ (h : Hdr) (d a : Operand), CompletesOnce (.mfsr h d a) .int .int (fun c s => s.DestsReady c)
    (fun c s => (s.mfsr c.wk (srOf a)).2.writeAll c s (words2 (s.mfsr c.wk (srOf a)).1))) ∧
  (∀ (h : Hdr) (d a : Operand), CompletesOnce (.mtsr h d a) .int .int Always (fun c s => s.mtsr c.wk (srOf d) c.av)) ∧
  (∀ (h : Hdr) (d a : Operand), CompletesOnce (.fbrd h d a) .int .int (fun c s => s.DestsReady c)
    (fun c s => s.writeAll c s (wordsOf 4 (match (s.die (sysDie c.wk)).fb[c.av.toNat]? with | some e => e.bits | none => 0)))) ∧
  (∀ (h : Hdr), CompletesOnce (.fbpop h) .int .int Always (fun c s => s.modDie (sysDie c.wk) (fun D => { D with fb := D.fb.drop 1 }))) ∧
  (∀ (h : Hdr) (d a b : Operand), CompletesOnce (.lnkctlStat h d a b) .int .int (fun c s => s.DestsReady c)
    (fun c s => match linkOf (sysDie c.wk) c.av.lo with
      | some k => (s.setLink k { s.link k with retry := 0 }).writeAll c s [BitVec.ofNat 32 ((s.link k).word k.1)]
      | none => s.writeAll c s [0])) ∧
  (∀ (h : Hdr) (a : Operand), CompletesOnce (.bkpt h a) .int .int Always (fun c s => s.askStop c.wk 2 (immNat a))) ∧
  (∀ (h : Hdr) (a : Operand), CompletesOnce (.sstep h a) .int .int Always (fun c s => match s.dbgWarp c.av.lo with
    | some wk => s.modWarp wk (fun w => if w.stopped then { w with stopped := false, cause := 0, stepping := true } else w)
    | none => s)) ∧
  (∀ (h : Hdr) (a : Operand), CompletesOnce (.trcmk h a) .int .int Always (fun c s =>
    if isSys c.wk = false ∧ (s.launch (s.block (bkOf c.wk)).lid).trace = true then
      s.trace (dieOf (coreOf c.wk)) 1 (c.av.toNat % 65536) (coreOf c.wk) (btagOf c.wk) (widx c.wk)
    else s)) ∧
  (∀ (h : Hdr) (d a : Operand), CompletesOnce (.cntrd h d a) .int .int (fun c s => s.DestsReady c)
    (fun c s => (s.cntrd c.wk (c.av.toNat % 4096)).2.writeAll c s (words2 (s.cntrd c.wk (c.av.toNat % 4096)).1)))

/-- R212 to R217, R258, R361: HALT, ERET, flushes, REPLAY, the winter queue, block contexts and links. Each of the fourteen instructions
answers a next state from every state in which its lane stands at it with its operands ready (R35, R36): for ERET its warp's earlier
accesses are performed (R246), for WINQ `.push` the queue holds fewer than 4,096 pages (R258), for WINQ `.pop` D of every active thread is
ready and finds its place in the range list; the others ask for nothing more. What an instruction waits for beyond that stands in SystemSteps.
That CTXSV and CTXLD do nothing where no block is named, or one in that state already, and that a module found dead stays paused at `.resume`,
are the model's choices (logs 22, 40). -/
def Obligations.SystemInstructions : Prop :=
  (∀ (h : Hdr), CompletesOnce (.halt h) .int .int Always (fun c s => if s.wakes c.wk then s else s.holdAll c .halt)) ∧
  (∀ (h : Hdr) (a b : Operand), CompletesOnce (.eret h a b) .int .int
    (fun c s => ∀ t ∈ maskList c.act, s.relDue c.wk t s.nextId false (.eret (c.av.toNat % 64) c.bv) = false)
    (fun c s => match (s.die (sysDie c.wk)).sysq.find? (fun r => r.id == c.av.toNat % 64 && r.taken) with
      | none => s
      | some r => foldS (List.range 32)
          (s.modDie (sysDie c.wk) (fun D => { D with sysq := D.sysq.filter (fun q => q.id != c.av.toNat % 64) }))
          (fun u t => u.sysResult r.wk t (c.av.toNat % 64) c.bv))) ∧
  (∀ (h : Hdr) (a : Operand), CompletesOnce (.tlbfls h a) .int .int Always (fun c s =>
    let cut (l : List TlbE) : List TlbE := l.filter (fun e => e.asid != c.av.setWidth 16)
    let s1 := foldS (s.cores.map Prod.fst) s (fun s k => s.modCore k (fun x => { x with tlb := cut x.tlb }))
    let s2 := foldS (s1.diesT.map Prod.fst) s1 (fun s k => s.modDie k (fun x => { x with tlb := cut x.tlb }))
    s2.modWarp c.wk (fun w => { w with flushAt := s2.tseq }))) ∧
  (∀ (h : Hdr), CompletesOnce (.tldrain h) .int .int Always (fun c s => s.holdAll c .tldrain)) ∧
  (∀ (h : Hdr), CompletesOnce (.replay h) .int .int Always (fun c s => s.replay (sysDie c.wk))) ∧
  (∀ (h : Hdr) (a : Operand), CompletesOnce (.winqPush h a) .int .int (fun c s => (s.die (sysDie c.wk)).winq.length < 4096)
    (fun c s => s.modDie (sysDie c.wk) (fun D => { D with winq := D.winq ++ [(c.av.extractLsb' 16 36 ++ 0#16, s.dev.qcnt)] }))) ∧
  (∀ (h : Hdr) (d : Operand), CompletesOnce (.winqPop h d) .int .int (fun c s => s.DestsReady c ∧ (s.destRanges c).isSome = true)
    (fun c s => ((s.destRanges c).getD s).holdFrom c s (fun ls => .winqPop s.nextId ls (s.winsOf c.wk c.g.d)))) ∧
  (∀ (h : Hdr) (a b : Operand), CompletesOnce (.ctxsv h a b) .int .int Always (fun c s => match s.ctxBlock c.av.lo with
    | some bk => if (s.block bk).ctxOff then s else s.holdAll c (.ctxsv bk c.bv)
    | none => s)) ∧
  (∀ (h : Hdr) (a b : Operand), CompletesOnce (.ctxld h a b) .int .int Always (fun c s => match s.ctxBlock c.av.lo with
    | some bk => if (s.block bk).ctxOff then s.holdAll c (.ctxld bk c.bv) else s
    | none => s)) ∧
  (∀ (h : Hdr) (a b : Operand), CompletesOnce (.lnkctlPause h a b) .int .int Always (fun c s => match linkOf (sysDie c.wk) c.av.lo with
    | some k => if (s.link k).paused && !s.draining k then s else (s.setLink k { s.link k with paused := true }).holdAll c (.linkPause k.1 k.2)
    | none => s)) ∧
  (∀ (h : Hdr) (a b : Operand), CompletesOnce (.lnkctlResume h a b) .int .int Always (fun c s => match linkOf (sysDie c.wk) c.av.lo with
    | some k => if (s.link k).dead then s else (if k.1 then s else s.unstick k.2).setLink k { s.link k with paused := false, kept := 0 }
    | none => s)) ∧
  (∀ (h : Hdr) (a b : Operand), CompletesOnce (.lnkctlRemap h a b) .int .int Always (fun c s => match linkOf (sysDie c.wk) c.av.lo with
    | some k => if k.1 = false ∧ (s.link k).paused = true then s.holdAll c (.linkRemap k.2 (c.bv.toNat % 64) (c.bv.toNat / 64 % 4)) else s
    | none => s)) ∧
  (∀ (h : Hdr) (a b : Operand), CompletesOnce (.lnkctlTrain h a b) .int .int Always (fun c s => match linkOf (sysDie c.wk) c.av.lo with
    | some k => if (s.link k).paused then s.holdAll c (.linkTrain k.1 k.2 false) else s
    | none => s)) ∧
  (∀ (h : Hdr) (a b : Operand), CompletesOnce (.lnkctlHalf h a b) .int .int Always (fun c s => match linkOf (sysDie c.wk) c.av.lo with
    | some k => if k.1 = false ∧ (s.link k).paused = true then s.holdAll c (.linkTrain k.1 k.2 true) else s
    | none => s))

/-! ### Schedule words (R297, R298) -/

/-- R297, R298: every word of a schedule that runs, where its link is up and its chunk or its room is there, has its effect, and the
schedule goes on at the next word, or at the target of LOOP; END writes the staged chunks back. RED takes its chunk, and forwards what it
has reduced at once or when there is room. That one word a cycle is taken, and that a waiting forward has a timer of its own, are the model's
choices (logs 69, 70). -/
def Obligations.ScheduleWords : Prop :=
  ∀ (s : State) (r : SRun), Running s r →
    (exec .florealNop s = .next (s.wordDone s { r with pc := r.pc + 1 })) ∧
    (∀ (p : BitVec 5) (c : ChunkRef) (b : BitVec 8) (t : BitVec 16),
      let l := r.chunk b.toNat (r.chunkNo c b.toNat)
      s.linkUp p.toNat = true → r.spoils b.toNat (r.chunkNo c b.toNat) = false → s.sendRoom p.toNat (r.toSend l) = true →
      exec (.florealSend p c b t) s = .next (s.wordDone (s.sendChunk p.toNat s.sfocus (bufFmt (r.buf b.toNat)) (r.toSend l) l) { r with pc := r.pc + 1 })) ∧
    (∀ (p : BitVec 5) (c : ChunkRef) (b : BitVec 8) (t : BitVec 16) (x : Chunk) (u : State), s.linkUp p.toNat = true →
      s.takeChunk p.toNat s.sfocus = some (x, u) → r.takes b.toNat x = true →
      exec (.florealRecv p c b t) s = .next (s.wordDone u
        { r.putChunk b.toNat (r.chunkNo c b.toNat) (wordsLE x.data) with pc := r.pc + 1 })) ∧
    (∀ (p : BitVec 5) (c : ChunkRef) (b : BitVec 8) (t : BitVec 16) (f : BitVec 5) (rop : Rop) (x : Chunk) (u : State), s.linkUp p.toNat = true →
      r.fwd = none → s.takeChunk p.toNat s.sfocus = some (x, u) → r.takes b.toNat x = true → r.spoils b.toNat (r.chunkNo c b.toNat) = false →
      let l := List.zipWith (ropStage rop) (r.chunk b.toNat (r.chunkNo c b.toNat)) (wordsLE x.data)
      (f.toNat = 31 → exec (.florealRed p c b t f rop) s = .next (s.wordDone u
        { r.putChunk b.toNat (r.chunkNo c b.toNat) l with pc := r.pc + 1 })) ∧
      (f.toNat ≠ 31 → s.linkUp f.toNat = true → u.sendRoom f.toNat (r.toSend l) = true → exec (.florealRed p c b t f rop) s = .next (s.wordDone
        (u.sendChunk f.toNat s.sfocus (bufFmt (r.buf b.toNat)) (r.toSend l) l) { r.putChunk b.toNat (r.chunkNo c b.toNat) l with pc := r.pc + 1 })) ∧
      (f.toNat ≠ 31 → s.linkUp f.toNat = true → u.sendRoom f.toNat (r.toSend l) = false → 4 * l.length ≤ 262144 →
        exec (.florealRed p c b t f rop) s = .next (u.setSRun s.sfocus (some { r with fwd := some l, tword := some s.dev.now })))) ∧
    (∀ (p : BitVec 5) (c : ChunkRef) (b : BitVec 8) (t : BitVec 16) (f : BitVec 5) (rop : Rop) (l : List Word), s.linkUp f.toNat = true →
      r.fwd = some l → s.sendRoom f.toNat (r.toSend l) = true → exec (.florealRed p c b t f rop) s = .next (s.wordDone
        (s.sendChunk f.toNat s.sfocus (bufFmt (r.buf b.toNat)) (r.toSend l) l) { r.putChunk b.toNat (r.chunkNo c b.toNat) l with pc := r.pc + 1 })) ∧
    (∀ (dst : ChunkRef) (db : BitVec 8) (src : ChunkRef) (sb : BitVec 8), r.spoils sb.toNat (r.chunkNo src sb.toNat) = false → exec (.florealCopy dst db src sb) s = .next (s.wordDone s
      { r.putChunk db.toNat (r.chunkNo dst db.toNat) (r.chunk sb.toNat (r.chunkNo src sb.toNat)) with pc := r.pc + 1 })) ∧
    (∀ (p : BitVec 5) (i : BitVec 8) (x : Word), x.toNat ≤ (s.counterOf p.toNat i.toNat).toNat →
      exec (.florealWait p false i x) s = .next (s.wordDone s { r with pc := r.pc + 1 })) ∧
    (∀ (p : BitVec 5) (i : BitVec 8) (x : Word), r.tstart.toNat + x.toNat ≤ (s.ftime r.start.port).toNat →
      exec (.florealWait p true i x) s = .next (s.wordDone s { r with
        pc := r.pc + 1, late := r.late || (r.tword.isNone && r.tstart.toNat + x.toNat < (s.ftime r.start.port).toNat) })) ∧
    (∀ (p : BitVec 5) (i : BitVec 8) (x : Word), exec (.florealSignal p false i x) s = .next (s.wordDone
      (s.counterChange p.toNat i.toNat false (x.setWidth 64)) { r with pc := r.pc + 1 })) ∧
    (∀ (p : BitVec 5) (i : BitVec 8) (x : Word), s.linkFlows p.toNat = true → exec (.florealSignal p true i x) s = .next (s.wordDone
      (s.emit (.signal p.toNat i x)) { r with pc := r.pc + 1 })) ∧
    (∀ (n : BitVec 16) (t : BitVec 13), r.i + 1 < n.toNat → exec (.florealLoop n t) s = .next (s.wordDone s { r with i := r.i + 1, pc := t.toNat })) ∧
    (∀ (n : BitVec 16) (t : BitVec 13), n.toNat ≤ r.i + 1 → exec (.florealLoop n t) s = .next (s.wordDone s { r with i := 0, pc := r.pc + 1 })) ∧
    (exec .florealEnd s = .next (s.schedEnd s.sfocus r 0))

/-! ### Steps of runs and warps -/

/-- R36 to R40, R42, R66, R76, R200, R202, R220, R293, R319, R338, R339: the start of a run, the delivery of traps, a stop, the ends of
SLEEP and of RCONV, a release that takes effect, the end of a revocation, a row that the stack window moves, the close of a joint round, and a
deferred addition. That RCONV gives up once nothing of the cycle of its limit is left is the model's choice (log 63); which accesses a
revocation waits for and which rows a move fills are read by inference (logs 34, 16). -/
def Obligations.WarpSteps : Prop :=
  (∀ (core lane wk : Nat) (g : Group) (s : State),
    let u := s.markElig core
    s.freeLane core = some lane → u.winner core = some wk → u.runnable (tryKey core) wk = some g →
    exec (.runStart core lane) s = .next (u.beginRun core (64 * core + lane) wk g)) ∧
  (∀ (wk : Nat) (s : State), s.mayDeliver wk = true → isSlice wk = false → exec (.trapDeliver wk) s = .next (s.deliver wk)) ∧
  (∀ (wk : Nat) (s : State), s.mayStop wk = true → exec (.warpStop wk) s = .next (s.stopWarp wk)) ∧
  (∀ (wk t d : Nat) (s : State), (s.thread wk t).hold = .sleep d → d ≤ s.clk → exec (.sleepExpiry wk t) s = .next (s.release wk t)) ∧
  (∀ (wk t k p d : Nat) (s : State), s.closing = true → (s.thread wk t).hold = .rconv k p d → d ≤ s.clk →
    (s.roundFull (bkOf wk) k = true → d < (s.kreg (bkOf wk) k).last) →
    exec (.rconvTimeout wk t) s = .next (((s.unsign (bkOf wk) k (tkey wk t)).setPred wk t p true).release wk t)) ∧
  (∀ (wk t n : Nat) (sg : Bool) (a : Act) (s : State), (s.thread wk t).hold = .release n sg a → s.relReady wk t = true →
    exec (.releaseTakesEffect wk t) s = .next (s.relAct wk t (if a.together then s.relGroup wk (.release n sg a) else [t]) a)) ∧
  (∀ (wk w : Nat) (s : State), (s.warp wk).revPend = some w → (∀ c ∈ (s.warp wk).revWait, s.cmd c = none ∧ s.acc c = none) →
    (∀ p ∈ (s.warp wk).revThr, p.2 ∉ (s.thread (p.1 / 32) (p.1 % 32)).hold.wins) →
    exec (.revwComplete wk) s = .next ((s.revoke wk w).modWarp wk (fun r => { r with revPend := none, revWait := [], revThr := [] }))) ∧
  (∀ (wk e : Nat) (s u : State), (s.warp wk).stkNeed = some e → (s.warp wk).stkStop = false → s.stackMove wk e = .ok u →
    exec (.stackSpillFill wk) s = .next (u.modWarp wk (fun w => { w with stkNeed := none, stkTag := none }))) ∧
  (∀ (bk k : Nat) (i : Instr) (s : State), s.roundFull bk k = true → (s.kreg bk k).last ≤ s.clk → (s.kreg bk k).first = some i →
    exec (.jointRoundClose bk k) s = .next (if isJoint i then s.closeArray bk k else s.closeRound bk k)) ∧
  (∀ (wk : Nat) (x : Deferred) (l : List Deferred) (s : State), (s.warp wk).aft = x :: l → x.n ≤ (s.warp wk).tlCopy.comp → s.counterMoves = false →
    s.aftFirst wk = true → exec (.cntaddAftApply wk) s = .next ((s.setWarp wk { s.warp wk with aft := l }).counterChange x.c.port x.c.idx x.set x.x))

/-- R37, R38, R91: a run that begins holds the group's threads at the group's PC with no instruction done, the wait counts of its members
are zero, and those of the warp's other threads have gone up by one, to at most 255. -/
def Obligations.RunBegins : Prop :=
  ∀ (core lane wk : Nat) (g : Group) (s : State) (w : BitVec 96),
    let s1 := (s.fetchWord wk g.pc).2
    (s.fetchWord wk g.pc).1 = .word w →
    let u := s.beginRun core (64 * core + lane) wk g
    u.run (64 * core + lane) = some (newRun wk g.pc g.mem) ∧
    (∀ t ∈ maskList (((s1.tdSync core)).liveMask wk), (u.thread wk t).wait =
      if g.mem.getLsbD t then 0 else if ((s1.tdSync core).thread wk t).wait = 255 then 255 else ((s1.tdSync core).thread wk t).wait + 1)

/-! ### Steps of memory (R165, R243 to R257, R355 to R369) -/

/-- R165, R168, R243, R254, R257, R360, R362, R364, R367 to R370, R396: the steps by which accesses walk, are presented, logged, served and
land, and what a visit of the scrubber counts and marks. That the scrubber's address is the placed one, that what a read finds stands as such a
visit, and that a chunk of the staging store is marked so, are read by inference (logs 36, 42). -/
def Obligations.MemorySteps : Prop :=
  (∀ (aid : Nat) (s : State), exec (.walkComplete aid) s = .next (s.walkDone aid)) ∧
  (∀ (die : Nat) (s : State), s.closing = true → exec (.faultPresent die) s = .next (s.faultPresent die)) ∧
  (∀ (wk : Nat) (p : Nat × Access) (s : State), s.accList.find? (fun p => p.2.wk == wk && p.2.st == .waitLog) = some p → s.logCount wk < 64 →
    exec (.sideLogEnter wk) s = .next ((s.enterLog p.1).logBehind p.1)) ∧
  (∀ (aid : Nat) (ecc : Ecc) (s : State), exec (.sliceRequestServe aid ecc) s = .next (s.serveReq aid ecc)) ∧
  (∀ (iid t : Nat) (s : State), exec (.loadDataLand iid t) s = .next (s.land iid t)) ∧
  (∀ (s : State), exec .mnqOvfRetry s = .next s.mnqRetry) ∧
  (∀ (s : State), exec .qcntAdvance s = .next s.qcntAdvance) ∧
  (∀ (pa sl : Nat) (s : State), slicePlaced pa = some sl → Fmap.get false s.bad (pa / 32) = false →
    exec (.scrubVisit (.memory pa) .lasting) s = .next (({ s with bad := Fmap.set false s.bad (pa / 32) true }).bumpCnt (0xE41 + 2 * sl) 1) ∧
    exec (.scrubVisit (.memory pa) .corrected) s = .next (s.bumpCnt (0xE40 + 2 * sl) 1)) ∧
  (∀ (wk t g : Nat) (s : State), exec (.scrubVisit (.vgran wk t g) .lasting) s =
    .next ((s.poison (.v wk t (4 * g))).bumpCnt (0xED1 + 2 * dieOf (coreOf wk)) 1)) ∧
  (∀ (wk g : Nat) (s : State), exec (.scrubVisit (.sgran wk g) .lasting) s =
    .next ((s.poison (.s wk (4 * g))).bumpCnt (0xED1 + 2 * dieOf (coreOf wk)) 1)) ∧
  (∀ (sid b k : Nat) (r : SRun) (s : State), (s.sched sid).run = some r →
    exec (.scrubVisit (.stage sid b k) .lasting) s = .next (s.setSRun sid (some { r with spoilt := (2048 * b + k) :: r.spoilt })))

/-! ### Steps of the engines (R44, R45, R174 to R190, R222 to R241, R371 to R380) -/

/-- The steps of commands: discard by a false guard, acceptance, memory accesses, landings, the ends and the retirement, notices and
acknowledgements.
Which of several senders' notices arrives first is a free value (log 1). -/
def Obligations.EngineSteps : Prop :=
  (∀ (cid : Nat) (c : Cmd) (s : State), s.cmd cid = some c → s.atHead cid c = true → s.guardOf c = .false →
    exec (.guardDiscard cid) s = .next ((foldS c.stats s (fun s p =>
      (s.writeLocs p.2 (statusWords c.num 0 c.tctx 0 0)).watchLand c.wk ((p.2.take 1).map Spot.reg))).endCmd cid)) ∧
  (∀ (cid : Nat) (c : Cmd) (s : State), s.cmd cid = some c → s.mayCopy cid c = true → s.outstanding (coreOf c.wk) < 8192 →
    (∀ p ∈ s.cmdList, p.1 < cid → coreOf p.2.wk = coreOf c.wk → s.mayCopy p.1 p.2 = false) →
    exec (.copyCmdAccept cid) s = .next (match c.ins with
      | .cpy .. => s.acceptCpy cid c
      | .tcopy .. => s.acceptTcopy cid c
      | .pull .. => s.acceptPull cid c
      | .cpym .. => s.acceptCpym cid c
      | .tsld .. => s.modCmd cid (fun c => { c with st := .running, total := 1 })
      | _ => s.modCmd cid (fun c => { c with st := .running, total := 1, rdone := 1 }))) ∧
  (∀ (cid : Nat) (ecc : Ecc) (c : Cmd) (s : State), s.cmd cid = some c → c.st = .running → s.onCore c = true →
    (c.qtag.isSome = true → s.replaying (dieOf (coreOf c.wk)) = false) →
    exec (.engineMemResponse cid ecc) s = .next ((if c.array then s.arrMem cid c ecc else s.copyMem cid c ecc).clearTag cid)) ∧
  (∀ (cid : Nat) (c : Cmd) (s : State), s.cmd cid = some c → c.st = .running → s.onCore c = true →
    exec (.engineLanding cid) s = .next (if c.array then s.arrLand cid c else s.copyLand cid c)) ∧
  (∀ (cid : Nat) (c : Cmd) (s : State), s.cmd cid = some c → c.st = .stopped → c.array = true → s.onCore c = true →
    exec (.engineLanding cid) s = .next (s.arrLand cid c)) ∧
  (∀ (cid : Nat) (c : Cmd) (s : State), s.cmd cid = some c → c.array = false → c.st = .ended → s.onCore c = true →
    exec (.copyCmdRetire cid) s = .next (((s.dropRanges cid).setCmd cid none).completeNum c)) ∧
  (∀ (cid : Nat) (ecc : Ecc) (s : State), exec (.remoteReadServe cid ecc) s = .next (s.remoteServe cid ecc)) ∧
  (∀ (cid : Nat) (s : State), exec (.multicastLanding cid) s = .next (s.multiLand cid)) ∧
  (∀ (core c0 : Nat) (n : Kick) (s : State), s.kickSenders core = [c0] → (s.core core).kickNet.find? (fun n => n.src == c0) = some n →
    let b := s.block (bkey core n.btag)
    exec (.kickNoticeArrive core) s = .next (s.modCore core (fun k =>
      { k with kickNet := k.kickNet.erase n, kicks := (if b.present && b.lid == n.lid && b.bidx == n.bidx then k.kicks ++ [n] else k.kicks) }))) ∧
  (∀ (core : Nat) (s : State), 2 ≤ (s.kickSenders core).length →
    ∃ c0 ∈ s.kickSenders core, ∃ n, (s.core core).kickNet.find? (fun n => n.src == c0) = some n ∧
      let b := s.block (bkey core n.btag)
      exec (.kickNoticeArrive core) s = .next (s.free.2.modCore core (fun k =>
        { k with kickNet := k.kickNet.erase n, kicks := (if b.present && b.lid == n.lid && b.bidx == n.bidx then k.kicks ++ [n] else k.kicks) }))) ∧
  (∀ (wk : Nat) (a : Ack) (s : State), s.ackDue wk = some a → (s.block (bkOf wk)).present = true →
    exec (.ackArrive wk) s = .next ({ s with acks := s.acks.erase a }.modWarp wk (fun w => { w with pack := w.pack + 1 })))

/-- R222 to R224, R379, R380: the steps of array commands. A command starts where no head that entered its queue before it waits for the unit;
it reads its sources unit by unit and puts its results in place unit by unit, each in its cycle; it reports its sources, ends and retires in
the cycles that the rules give. In which cycles it reads its sources is deduced (log 45); that a unit idles for a head that must wait is the
model's choice (log 66). -/
def Obligations.ArraySteps : Prop :=
  (∀ (cid : Nat) (r : Residue) (c : Cmd) (s : State), s.cmd cid = some c → s.mayStart cid c = true →
    (c.array = true → c.st = .queued) →
    (∀ p ∈ s.cmdList, p.1 < cid → coreOf p.2.wk = coreOf c.wk → xferUnit p.2.ins = xferUnit c.ins → s.arrHead p.1 p.2 = false) →
    exec (.arrayCmdStart cid r) s = .next (s.beginArray cid c r)) ∧
  (∀ (cid : Nat) (r : Residue) (c : Cmd) (s : State), s.cmd cid = some c → c.array = true → c.st = .running → s.onCore c = true → c.await = 1 →
    s.ladReady c = true → exec (.arrayCmdStart cid r) s = .next (s.beginArray cid { c with await := 0 } r)) ∧
  (∀ (cid : Nat) (c : Cmd) (s : State), s.cmd cid = some c → c.array = true → c.st = .running → s.onCore c = true → c.qtag = none →
    fromMem c.ins = false → s.unitDue c = true → c.unit ≠ c.rdone →
    let d := if c.readOff c.rdone < c.elapsed s.clk then { c with start := s.clk, skip := c.readOff c.rdone } else c
    (s.arrUses d (c.units.getD c.rdone 0)).any (fun p => s.arrPois d p) = false →
    exec (.engineMemResponse cid .clean) s = .next ((s.setCmd cid (some { d with
      rdone := c.rdone + 1, res := c.res ++ s.arrOut d (c.units.getD c.rdone 0) })).clearTag cid)) ∧
  (∀ (cid : Nat) (c : Cmd) (ws : List (Nat × Word)) (l : List (List (Nat × Word))) (s : State), s.cmd cid = some c → c.array = true →
    c.st = .running → s.onCore c = true → fromMem c.ins = false → c.res = ws :: l → c.landOff c.ldone ≤ c.elapsed s.clk →
    let fills := s.arrFills c c.ldone
    let u := foldS fills (foldS ws s (fun s p => s.spotPut p.2 (c.resSpot p.1))) (fun s p => s.spotFill p)
    exec (.engineLanding cid) s = .next ((u.watchLand c.wk (if fills = [] then granSpots (ws.map (fun p => c.resSpot p.1)) else fills)).setCmd cid
      (some { c with res := l, ldone := c.ldone + 1, landClk := if c.landClk.1 = s.clk then c.landClk else (s.clk, c.ldone) }))) ∧
  (∀ (cid : Nat) (c : Cmd) (s : State), s.cmd cid = some c → c.array = true → c.st = .running → c.consumed = false → c.await = 0 → fromMem c.ins = false →
    c.err = 0 → c.rdone = c.units.length → c.units ≠ [] → c.consumeOff ≤ c.elapsed s.clk → exec (.arraySrcConsumed cid) s = .next ((s.consume cid).modCmd cid (fun c => { c with consumed := true }))) ∧
  (∀ (cid : Nat) (c : Cmd) (s : State), s.cmd cid = some c → c.array = true → c.st = .running → s.onCore c = true → c.atEnd s.clk = true →
    exec (.arrayCmdEnd cid) s = .next (s.endArray cid c)) ∧
  (∀ (cid : Nat) (c : Cmd) (s : State), s.cmd cid = some c → c.array = true → c.st = .ended → c.start + 8 ≤ s.clk →
    (s.warp c.wk).aprogOld.1 ≠ s.clk → exec (.arrayCmdRetire cid) s =
      .next ((((s.modWarp c.wk (fun w => { w with aprogOld := (s.clk, s.aprog c.wk) })).dropRanges cid).setCmd cid none).completeNum c))

/-! ### Steps of blocks and launches (R46, R47, R205, R267 to R279) -/

/-- The dispatcher and residency: a doorbell, a command taken, assignment, rotation, retirement, completion. -/
def Obligations.DispatchSteps : Prop :=
  (∀ (q : Nat) (tail : Word) (s : State),
    let Q := s.queue (q % 65536)
    (tail - Q.head).toNat ≤ 2 ^ Q.log2 → exec (.doorbellWrite q tail) s = .next (s.setQueue (q % 65536) { Q with tail := tail })) ∧
  (∀ (q : Nat) (s : State), s.pickQueue = some q →
    let Q := s.queue q
    let n := Q.qtl.issue + 1
    ((s.headCmd Q).kind = 1 → s.launchReach Q.asid (s.headCmd Q).recva = true) →
    let s1 := s.countD Q.asid (Q.ring + BitVec.ofNat 64 (64 * (Q.head.toNat % 2 ^ Q.log2))) 64 false
    let u := (s1.setQueue q { Q with head := Q.head + 1, qtl := Q.qtl.next }).setDev { s1.dev with served := Fmap.set 0 s1.dev.served Q.prio (q + 1) }
    exec .dispatchTakeCommand s = .next (if (s.headCmd Q).kind = 1 then u.startLaunch q n Q.prio Q.asid (s.headCmd Q).recva else u.completeCmd q n)) ∧
  (∀ (lid b tag : Nat) (s : State),
    let L := s.launch lid
    L.present = true → L.unassigned.find? (fun b => (s.freeTag (L.home b)).isSome && !s.earlierWaits lid (L.home b)) = some b →
    s.freeTag (L.home b) = some tag → exec (.blockAssign lid) s = .next (s.assignTo lid b (L.home b) tag)) ∧
  (∀ (core head : Nat) (l : List Nat) (s : State), (s.core core).waiting = head :: l →
    ((s.core core).qStart + 1000 * (s.core core).quantum.toNat ≤ s.dev.now ∨ s.leaving core = true) →
    exec (.quantumExpiry core) s = .next (s.rotate core head ((s.core core).resident.length + 1))) ∧
  (∀ (core btag : Nat) (s : State), s.mayRetire (bkey core btag) = true →
    let b := s.block (bkey core btag)
    ∃ u : State, exec (.blockRetire core btag) s = .next (u.fill core) ∧
      u.block (bkey core btag) = { tile := b.tile, tileEmpty := b.tileEmpty, tilePois := b.tilePois, slot := b.slot, slotEmpty := b.slotEmpty, slotPois := b.slotPois } ∧
      (u.core core).resident = ((s.tdSync core).core core).resident.filter (fun x => x != bkey core btag)) ∧
  (∀ (lid : Nat) (s : State),
    let L := s.launch lid
    L.present = true → L.retired = L.nblocks → (∀ p ∈ s.accList, p.2.lid = lid → isSys p.2.wk = true) →
    s.rangeReach 4 L.asid L.doneva 16 = true → exec (.launchComplete lid) s =
      .next (((s.writeTry L.asid L.doneva (doneRecord L.cmdnum L.written 0 L.failed)).setLaunch lid {}).completeCmd L.qnum L.cmdnum))

/-! ### Steps of collectives (R286 to R300, R308, R383 to R392) -/

/-- Entries, arrivals, the sequencer's starts and ends, chunks, fabric time and the link.
What an early chunk holds back, and which ports of a device take a time, are read by inference (logs 71, 74); from when the time of a schedule
counts that a page stopped at its start is the model's choice (log 70). -/
def Obligations.CollectiveSteps : Prop :=
  (∀ (port : Nat) (s : State), exec (.timeTriggerFire port) s = .next (foldS
    (((s.port port).entry.filter (fun e => e.2.st == .armed && e.2.time && e.2.thresh.toNat ≤ (s.ftime port).toNat)).map Prod.fst) s (fun s i => s.fire port i))) ∧
  (∀ (port idx : Nat) (err : BitVec 8) (s : State), (s.ent port idx).st = .active → (s.ent port idx).sent = true → (s.ent port idx).fin = false →
    exec (.entryComplete port idx err) s = .next (s.doneEntry port idx (if err = 0 then 0 else 0x61) 0 (s.ent port idx).late)) ∧
  (∀ (port : Nat) (rva : DWord) (rop : Option Rop) (data : List Byte) (rc : Option (BitVec 8)) (s u : State), s.linkUp port = true →
    s.heldBack port = false → (s.port port).held = [] → s.arrive port ⟨s.inAsid port, rva, rop, data, rc, false, none⟩ = (u, none) →
    exec (.remoteWriteArrive port rva rop data rc) s = .next u) ∧
  (∀ (port : Nat) (s : State), s.linkUp port = true → s.heldBack port = true →
    (∀ (rva : DWord) (rop : Option Rop) (data : List Byte) (rc : Option (BitVec 8)), exec (.remoteWriteArrive port rva rop data rc) s =
      .next (s.modPort port (fun P => { P with behind := P.behind ++ [.write ⟨s.inAsid port, rva, rop, data, rc, false, none⟩] }))) ∧
    (∀ (idx : BitVec 8) (addend : Word), exec (.schedSignalArrive port idx addend) s =
      .next (s.modPort port (fun P => { P with behind := P.behind ++ [.signal idx addend] }))) ∧
    (∀ (sid : Nat) (fmt : BitVec 2) (data : List Byte), s.rxUsed port + data.length ≤ 262144 → exec (.chunkArrive port sid fmt data) s =
      .next (s.modPort port (fun P => { P with behind := P.behind ++ [.chunk ⟨sid % 256, fmt, data⟩] })))) ∧
  (∀ (port : Nat) (idx : BitVec 8) (addend : Word) (s : State), s.linkUp port = true → s.heldBack port = false →
    exec (.schedSignalArrive port idx addend) s = .next (s.counterChange port idx.toNat false (addend.setWidth 64))) ∧
  (∀ (sid : Nat) (x : SStart) (q : List SStart) (s : State), (s.sched sid).run = none → (s.sched sid).queue = x :: q →
    exec (.schedStart sid) s = .next ((s.setSched sid { s.sched sid with queue := q }).schedLoad sid (x.fresh (s.ftime x.port)))) ∧
  (∀ (sid : Nat) (r : SRun) (s : State), (s.sched sid).run = some r → r.phase = .starting → r.stopped = false →
    exec (.schedStart sid) s = .next (s.schedLoad sid r)) ∧
  (∀ (sid : Nat) (p : BitVec 5) (i : BitVec 8) (x : Word) (r : SRun) (s : State), Running { s with sfocus := sid } r →
    r.word = some (.florealWait p true i x) → r.tstart.toNat + x.toNat ≤ (s.ftime r.start.port).toNat →
    exec (.florealWaitTimeExpiry sid) s = .next (({ s with sfocus := sid } : State).wordDone { s with sfocus := sid } { r with
      pc := r.pc + 1, late := r.late || (r.tword.isNone && r.tstart.toNat + x.toNat < (s.ftime r.start.port).toNat) })) ∧
  (∀ (sid n t : Nat) (i : Instr) (r r2 : SRun) (s : State), (s.sched sid).run = some r → r.phase = .running → r.stopped = false →
    r.word = some i → r.tword = some t → s.wordLimit i = some n → s.wordTry sid r i = .wait r2 → t + n ≤ s.dev.now →
    exec (.florealStepTimeout sid) s = .next (s.schedEnd sid r 0x64)) ∧
  (∀ (port sid : Nat) (fmt : BitVec 2) (data : List Byte) (s : State), s.linkUp port = true → s.heldBack port = false →
    s.rxUsed port + data.length ≤ 262144 →
    exec (.chunkArrive port sid fmt data) s = .next (s.modPort port (fun P => { P with rx := P.rx ++ [⟨sid % 256, fmt, data⟩] }))) ∧
  (∀ (port bytes : Nat) (s : State), exec (.farEndBufferSpace port bytes) s =
    .next (s.modPort port (fun P => { P with space := min 262144 (P.space + bytes) }))) ∧
  (∀ (port : Nat) (peer : DWord) (s : State), s.linkUp port = true →
    ((s.ftime port).toNat + 100 < peer.toNat ∨ peer.toNat + 100 < (s.ftime port).toNat) → s.adoptsTime port = false →
    exec (.fabricTimeExchange port peer) s = .next (s.modPort port (fun P => { P with skews := P.skews + 1 }))) ∧
  (∀ (port : Nat) (peer : DWord) (s : State), s.linkUp port = true →
    (s.ftime port).toNat < peer.toNat → peer.toNat ≤ (s.ftime port).toNat + 100 → s.adoptsTime port = true →
    exec (.fabricTimeExchange port peer) s = .next (s.adoptTime port peer false)) ∧
  (∀ (port : Nat) (s : State), s.linkUp port = true → exec (.fabricLinkDown port) s = .next (s.linkDown port) ∧
    exec (.fabricFlitCrcError port false) s = .next (s.linkDown port) ∧
    exec (.fabricFlitCrcError port true) s = .next (s.modPort port (fun P =>
      { P with retries := P.retries + 1, link := { P.link with retry := min 65535 (P.link.retry + 1) } })))

/-- R286, R289, R385, R387: a change of a trigger counter is modulo 2^64, counts a wrap of an addition, leaves every other counter, and fires
the entries of its port that are armed on it with a threshold that it has reached, and no others. -/
def Obligations.TriggerCounters : Prop :=
  ∀ (s : State) (p idx : Nat) (set : Bool) (x : DWord),
    let new := if set then x else s.counterOf p idx + x
    let hits : Entry → Prop := fun e => e.st = .armed ∧ e.time = false ∧ e.cidx = idx ∧ e.thresh.toNat ≤ new.toNat
    (s.counterChange p idx set x).counterOf p idx = (if set then x else s.counterOf p idx + x) ∧
    (∀ p2 idx2, (p2, idx2) ≠ (p, idx) → (s.counterChange p idx set x).counterOf p2 idx2 = s.counterOf p2 idx2) ∧
    ((s.counterChange p idx set x).port p).wraps =
      (s.port p).wraps + (if set = false ∧ 2 ^ 64 ≤ (s.counterOf p idx).toNat + x.toNat then 1 else 0) ∧
    (∀ i, (∃ e, (i, e) ∈ (s.port p).entry ∧ hits e) → ((s.counterChange p idx set x).ent p i).st = .active) ∧
    (∀ i, (∀ e, (i, e) ∈ (s.port p).entry → ¬ hits e) → (s.counterChange p idx set x).ent p i = s.ent p i)

/-! ### Steps of system warps -/

/-- R213 to R217, R258, R308, R309, R363, R393: the ends of what a system warp waits for. What CTXSV writes and CTXLD reads beside the side logs
is private to the device, and open (log 22); what a paused module's links hold, and how training and remapping end, are the model's choices
(log 40); that a port trained with a lower (device id, port) takes its peer's time at once is R308. -/
def Obligations.SystemSteps : Prop :=
  (∀ (die slot : Nat) (s : State),
    let ts := s.heldBy (sysKey die slot) (fun h => h == .tldrain)
    ts ≠ [] → (∀ p ∈ s.accList, p.2.tseq = 0 ∨ (s.warp (sysKey die slot)).flushAt < p.2.rseq) →
    exec (.tldrainComplete die slot) s = .next (foldS ts (foldS (s.cores.map Prod.fst) s (fun s k => s.modCore k (fun x => { x with last := [] })))
      (fun s t => s.release (sysKey die slot) t))) ∧
  (∀ (die slot n : Nat) (ns : List Nat) (page : BitVec 52) (q : Nat) (l : List (BitVec 52 × Nat)) (s : State),
    (s.die die).winq = (page, q) :: l → s.winterReady die = true →
    (List.range 32).filterMap (fun t => popNum (s.thread (sysKey die slot) t).hold) = n :: ns →
    exec (.winqPopComplete die slot) s = .next (foldS (List.range 32) (s.modDie die (fun D => { D with winq := l })) (fun s t =>
      match (s.thread (sysKey die slot) t).hold with
      | .winqPop k ls _ => if k = ns.foldl min n then (s.deliverTo (sysKey die slot) ls (words2 (page.setWidth 64))).release (sysKey die slot) t else s
      | _ => s))) ∧
  (∀ (die slot bk : Nat) (va : DWord) (s : State),
    (List.range 32).findSome? (fun t => match (s.thread (sysKey die slot) t).hold with | .ctxsv b v => some (b, v) | _ => none) = some (bk, va) →
    s.ctxReady bk = true → s.imageReach bk (0, va) = true → (∀ t ∈ s.heldBy (sysKey die slot) (fun h => h == .ctxsv bk va), s.relDue (sysKey die slot) t s.nextId false (.fence true) = false) →
    ∃ u : State, exec (.ctxsvComplete die slot) s = .next (u.fill (bk / 4096)) ∧
      (∀ t ∈ s.heldBy (sysKey die slot) (fun h => h == .ctxsv bk va), (u.thread (sysKey die slot) t).hold = .none) ∧
      (u.block bk).resident = false ∧ (u.block bk).ctxOff = true ∧ (u.block bk).ctxImage = va ∧ bk ∉ (u.core (bk / 4096)).resident ∧ bk ∉ (u.core (bk / 4096)).waiting) ∧
  (∀ (die slot bk : Nat) (va : DWord) (s : State),
    (List.range 32).findSome? (fun t => match (s.thread (sysKey die slot) t).hold with | .ctxld b v => some (b, v) | _ => none) = some (bk, va) →
    s.imageReach bk (0, va) = true → s.imageReach bk (s.imagePlace bk) = true →
    exec (.ctxldComplete die slot) s = .next (((foldS (s.heldBy (sysKey die slot) (fun h => h == .ctxld bk va))
      ((s.readImage (0, va)).writeFree (s.imagePlace bk).1 (s.imagePlace bk).2 Config.ctxSize) (fun s t =>
        s.release (sysKey die slot) t)).modBlock bk (fun b => { b with ctxOff := false })).joinWaiting (bk / 4096) bk)) ∧
  (∀ (die slot i : Nat) (k : Bool) (s : State),
    s.firstHold (sysKey die slot) (fun h => match h with | .linkPause k i => some (k, i) | _ => none) = some (k, i) →
    (k = false → s.inFlight i = false) → exec (.linkPauseComplete die slot) s = .next (foldS (s.heldBy (sysKey die slot) (fun h => h == .linkPause k i)) s
      (fun s t => s.release (sysKey die slot) t))) ∧
  (∀ (die slot i l p : Nat) (s : State),
    s.firstHold (sysKey die slot) (fun h => match h with | .linkRemap i l p => some (i, l, p) | _ => none) = some (i, l, p) →
    let u := s.setLink (false, i) ((s.link (false, i)).remap l p)
    exec (.linkRemapComplete die slot) s = .next (foldS (u.heldBy (sysKey die slot) (fun h => h == .linkRemap i l p)) u
      (fun s t => s.release (sysKey die slot) t))) ∧
  (∀ (die slot bad i : Nat) (dev : BitVec 8) (pp : BitVec 4) (time : DWord) (s : State),
    s.firstHold (sysKey die slot) (fun h => match h with | .linkTrain k i b => some (k, i, b) | _ => none) = some (false, i, false) →
    let u := s.setLink (false, i) ((s.link (false, i)).train bad)
    exec (.linkTrainComplete die slot bad dev pp time) s = .next (foldS (u.heldBy (sysKey die slot) (fun h => h == .linkTrain false i false)) u
      (fun s t => s.release (sysKey die slot) t))) ∧
  (∀ (die slot bad i : Nat) (dev : BitVec 8) (pp : BitVec 4) (time : DWord) (s : State),
    s.firstHold (sysKey die slot) (fun h => match h with | .linkTrain k i b => some (k, i, b) | _ => none) = some (false, i, true) →
    let u := s.setLink (false, i) (if 64 - bad < 32 then { s.link (false, i) with dead := true } else { s.link (false, i) with half := true })
    exec (.linkTrainComplete die slot bad dev pp time) s = .next (foldS (u.heldBy (sysKey die slot) (fun h => h == .linkTrain false i true)) u
      (fun s t => s.release (sysKey die slot) t))) ∧
  (∀ (die slot bad i : Nat) (b : Bool) (dev : BitVec 8) (pp : BitVec 4) (time : DWord) (s : State),
    s.firstHold (sysKey die slot) (fun h => match h with | .linkTrain k i b => some (k, i, b) | _ => none) = some (true, i, b) →
    ∃ u : State, exec (.linkTrainComplete die slot bad dev pp time) s = .next (foldS (u.heldBy (sysKey die slot) (fun h => h == .linkTrain true i b)) u
        (fun s t => s.release (sysKey die slot) t)) ∧
      (u.port i).plnk = BitVec.ofNat 32 (2 ^ 31 + 256 * dev.toNat + pp.toNat) ∧
      (dev.toNat < s.dev.devid.toNat ∨ (dev.toNat = s.dev.devid.toNat ∧ pp.toNat < i) → i < 16 → u.ftime i = time))

/-- R211, R213, R264, R266, R309, R320 to R322: reads and writes of registers that have effects of their own. A stop of a warp that has one
pending is ruled by log 68. That %dbgtgt and %dbgsel exist once for each die, that RUN keeps a stop that is pending, and that a write of %dbgdat keeps poison,
are read by inference (logs 20, 39). -/
def Obligations.RegisterSteps : Prop :=
  (∀ (die slot : Nat) (r : SysReq) (s : State), (s.die die).sysq.find? (fun r => !r.taken) = some r → slot < 2 →
    exec (.sysreqRead die slot) s = .next ((s.modDie die (fun D =>
      { D with sysq := D.sysq.map (fun q => if q.id == r.id then { q with taken := true } else q) })).modWarp (sysKey die slot)
        (fun w => { w with sysarg := r.arg }))) ∧
  (∀ (p : Nat × Nat) (l : List (Nat × Nat)) (s : State), s.dev.mnq = p :: l → exec .mnqRead s = .next (s.setDev { s.dev with mnq := l })) ∧
  (∀ (die : Nat) (e : DWord) (l : List DWord) (s : State), (s.die die).mboxWait = [] → (s.die die).mbox = e :: l →
    exec (.mboxRead die) s = .next (s.modDie die (fun D => { D with mbox := l }))) ∧
  (∀ (x : Word) (s : State), s.dev.chsel.toNat % 16 ≤ 8 → exec (.chdataWrite x) s = .next (s.writeChdata x) ∧
    (s.writeChdata x).dev.chtab = s.dev.chtab.set (9 * (s.dev.chsel.toNat / 16 % 16) + s.dev.chsel.toNat % 16) (x &&& 0xF07FFFFF)) ∧
  (∀ (x : Word) (s : State), exec (.mclrWrite x) s = .next (s.setDev { s.dev with group := Fmap.set {} s.dev.group (x.toNat % 4096) {} })) ∧
  (∀ (die i : Nat) (x : Word) (s : State), i < 48 → ∃ u : State, exec (.quantumWrite die x) s = .next u ∧
    (u.core (48 * die + i)).quantum.toNat = max 1 (min 65535 x.toNat)) ∧
  (∀ (port : Nat) (x : Word) (s : State), (s.port port).own.toNat / 65536 = x.toNat / 65536 →
    exec (.fpownWrite port x) s = .next (s.modPort port (fun P => { P with own := x }))) ∧
  (∀ (die : Nat) (x : Word) (l : Loc) (s : State), s.dbgReg (s.die die).dbgtgt (s.die die).dbgsel = some (.reg l) →
    exec (.dbgdatWrite die x) s = .next (s.putLoc x l)) ∧
  (∀ (die wk : Nat) (s : State), s.dbgWarp (s.die die).dbgtgt = some wk →
    exec (.dbgStop die) s = .next (s.askSafe wk) ∧ exec (.dbgStopnow die) s = .next (s.askStop wk 6 0) ∧
    exec (.dbgRun die) s = .next (s.modWarp wk (fun w => if w.stopped then { w with stopped := false, cause := 0 } else w))) ∧
  (∀ (die : Nat) (s : State),
    exec (.dbgStopBlock die) s = .next (foldS (s.dbgBlock (s.die die).dbgtgt) s (fun s wk => s.askSafe wk)) ∧
    exec (.dbgRunBlock die) s = .next (foldS (s.dbgBlock (s.die die).dbgtgt) s (fun s wk => s.runWarp wk))) ∧
  (∀ (die slot : Nat) (n : BitVec 10) (x : DWord) (s : State), exec (.registerWrite die slot n x) s = .next (s.writePlain (sysKey die slot) n.toNat x))

/-- R322 to R325: the mailbox and the counters of comparator hits.
Which of several warps has an event is the model's choice (log 68); that the hits of a cycle are taken together, once nothing else of it is
left, is read by inference (log 54). -/
def Obligations.DebugSteps : Prop :=
  (∀ (die : Nat) (m : MEntry) (l : List MEntry) (s : State), (s.die die).mboxWait = m :: l → m.cyc < s.clk → (∀ x ∈ l, s.clk ≤ x.cyc) →
    ∃ u : State, exec (.mboxDeviceEntry die) s = .next u ∧ u.die die =
      (if (s.die die).mbox.length < 16 then { s.die die with mbox := (s.die die).mbox ++ [m.e], mboxWait := l }
       else if m.idx = 5 then { s.die die with ovr := true, mboxWait := l } else s.die die)) ∧
  (∀ (die : Nat) (x : DWord) (s : State), (s.die die).mboxWait = [] → exec (.hostMboxWrite die x) s = .next (s.modDie die (fun D => { D with
    mboxWait := [⟨s.clk, 5, 0, BitVec.ofNat 64 (2 ^ 63 + 2 ^ 60 + (x.toNat / 2 ^ 52 % 256) * 2 ^ 52 + x.toNat % 2 ^ 32)⟩] }))) ∧
  (∀ (die : Nat) (x : DWord) (s : State), x.getLsbD 31 = true → exec (.mboxOvrClear die x) s = .next (s.modDie die (fun D => { D with ovr := false }))) ∧
  (∀ (die c : Nat) (s : State), s.closing = true → s.hitCycle die = some c → exec (.traceCounterLimit die) s =
    .next ((((s.modDie die (fun D => { D with hits := D.hits.filter (fun h => h.1 != c) })).setClk c).trigCycle die
      (((s.die die).hits.filter (fun h => h.1 == c)).map (fun h => (parent h.2.1, h.2.2)))).setClk s.clk))

/-! ### Steps of the outside world -/

/-- R316, R393, R398, R399: power, temperature, coolant and errors that stop the device, and a flit that fails on a module. A tick clears an
emergency that no temperature shows any more, one of a current-limit alarm included: the model's choice (log 50). Which packet a failed flit
holds is read by inference (log 40). -/
def Obligations.PowerSteps : Prop :=
  (∀ (pwr ptemp : Nat) (s : State), 105 ≤ ptemp ∧ ptemp < 115 ∨ ptemp < 105 ∧ s.dev.coolantLost = true → exec (.thermidorTick pwr ptemp) s =
    .next (s.setDev { s.dev with pwr := pwr, ptemp := ptemp, emergency := 105 ≤ ptemp, m := 16, hot := true })) ∧
  (∀ (pwr ptemp : Nat) (s : State), 115 ≤ ptemp → ∃ u : State, exec (.thermidorTick pwr ptemp) s = .next u ∧ u.fatal = true) ∧
  (∀ (pwr ptemp : Nat) (s : State), ptemp < 105 → s.dev.coolantLost = false → s.dev.m ≤ s.dev.pcap.toNat % 64 →
    s.dev.plimit.toNat % 4096 < pwr ∨ 95 ≤ ptemp →
    exec (.thermidorTick pwr ptemp) s =
      .next (s.setDev { s.dev with pwr := pwr, ptemp := ptemp, emergency := false, m := max 16 (s.dev.m - 1), hot := true })) ∧
  (∀ (pwr ptemp : Nat) (s : State), ptemp < 95 → s.dev.coolantLost = false → s.dev.m < s.dev.pcap.toNat % 64 → pwr + 50 < s.dev.plimit.toNat % 4096 →
    exec (.thermidorTick pwr ptemp) s = .next (s.setDev { s.dev with
      pwr := pwr, ptemp := ptemp, emergency := false, m := s.dev.m + 1, hot := s.dev.hot && s.dev.m + 1 < s.dev.pcap.toNat % 64 })) ∧
  (∀ (pwr ptemp : Nat) (s : State), ptemp < 105 → s.dev.coolantLost = false → s.dev.pcap.toNat % 64 < s.dev.m →
    exec (.thermidorTick pwr ptemp) s =
      .next (s.setDev { s.dev with pwr := pwr, ptemp := ptemp, emergency := false, m := s.dev.pcap.toNat % 64, hot := false })) ∧
  (∀ (pwr ptemp : Nat) (s : State), ptemp < 95 → s.dev.coolantLost = false → s.dev.m ≤ s.dev.pcap.toNat % 64 → pwr ≤ s.dev.plimit.toNat % 4096 →
    (pwr + 50 < s.dev.plimit.toNat % 4096 → s.dev.m = s.dev.pcap.toNat % 64) →
    exec (.thermidorTick pwr ptemp) s = .next (s.setDev { s.dev with
      pwr := pwr, ptemp := ptemp, emergency := false, hot := s.dev.m < s.dev.pcap.toNat % 64 })) ∧
  (∀ (ptemp : Nat) (alarm : Bool) (s : State), (105 ≤ ptemp ∨ alarm = true) →
    exec (.thermalEmergency ptemp alarm) s = .next (s.setDev { s.dev with ptemp := ptemp, emergency := true, m := 16, hot := true })) ∧
  (∀ (s : State), exec .coolantFlowLost s = .next (s.setDev { s.dev with coolantLost := true, m := 16, hot := true })) ∧
  (∀ (s : State), exec .coolantFlowReturn s = .next (s.setDev { s.dev with coolantLost := false })) ∧
  (∀ (ptemp : Nat) (s : State), 115 ≤ ptemp → ∃ u : State, exec (.thermalTrip ptemp) s = .next u ∧ u.fatal = true) ∧
  (∀ (s : State), ∃ u : State, exec .dispatcherTableError s = .next u ∧ u.fatal = true) ∧
  (∀ (p : Packet) (s : State), ∃ u : State, exec (.switchParityError true p) s = .next u ∧ u.fatal = true) ∧
  (∀ (hop : Nat) (s : State), ∃ u : State, exec (.nocFlitCrcError false true hop) s = .next u ∧ u.fatal = true) ∧
  (∀ (hop : Nat) (s : State), hop ∉ s.dev.hopsOff → exec (.nocFlitCrcError false false hop) s = .next (s.setDev { s.dev with hopsOff := s.dev.hopsOff ++ [hop] })) ∧
  (∀ (m : Nat) (s : State), m < 40 →
    let u := s.setLink (false, m) { s.link (false, m) with retry := 65535, paused := true, kept := (s.link (false, m)).kept + 1 }
    exec (.ucieFlitCrcError m .retried) s =
      .next (s.setLink (false, m) { s.link (false, m) with retry := min 65535 ((s.link (false, m)).retry + 1) }) ∧
    exec (.ucieFlitCrcError m (.failed none)) s = .next u ∧
    (∀ (i : Nat) (a : Access), s.acc i = some a → a.stuck = none → s.crosses m a = true →
      exec (.ucieFlitCrcError m (.failed (some i))) s = .next (u.setAcc i (some { a with stuck := some m }))))

/-- R210, R310 to R315, R368: host accesses, boot, recovery, attestation and reset.
Where the host sees the register window, the hash entry of its accesses, what a reset keeps, and the SPDM codes that the manual does
not write out are the model's (logs 2, 23, 24, 25). -/
def Obligations.HostSteps : Prop :=
  (∀ (o n : Nat) (s : State), 0 < n → o + n ≤ 2 ^ 39 → s.dev.hdm0 + o < bar0 → s.badAt 0 o n = false →
    s.hostBehind s.dev.hostWait (.read (s.dev.hdm0 + o) n .clean) = false →
    ∃ u : State, exec (.hostMemRead (s.dev.hdm0 + o) n .clean) s = .next u ∧ u.out = s.out ++ [.hostData (s.dev.hdm0 + o) (s.readMem 0 o n) false] ∧ u.mem = s.mem) ∧
  (∀ (o : Nat) (data : List Byte) (s : State), data ≠ [] → o + data.length ≤ 2 ^ 39 → s.dev.hdm0 + o < bar0 →
    s.hostBehind s.dev.hostWait (.write (s.dev.hdm0 + o) data) = false → exec (.hostMemWrite (s.dev.hdm0 + o) data) s = .next ((s.hostCount o data.length true).writeMem 0 o data)) ∧
  (∀ (pa n a : Nat) (s : State), pa < bar0 → s.hdmPA pa n = some a → s.badAt 0 a n = false →
    s.hostBehind s.dev.hostWait (.read pa n .clean) = false →
    ∃ u : State, exec (.hostMemRead pa n .clean) s = .next u ∧ u.out = s.out ++ [.hostData pa (s.readMem 0 a n) false] ∧ u.mem = s.mem) ∧
  (∀ (pa a : Nat) (data : List Byte) (s : State), pa < bar0 → s.hdmPA pa data.length = some a →
    s.hostBehind s.dev.hostWait (.write pa data) = false → exec (.hostMemWrite pa data) s = .next ((s.hostCount a data.length true).writeMem 0 a data)) ∧
  (∀ (f : Firmware) (s : State), s.dev.bootState = 0 → exec (.powerOnBoot (some f)) s = .next (
    if Config.signatureGood f.raw = false then (s.setBoot 1 0).setBoot 3 1
    else if Config.imageFormatGood f.raw = false then (s.setBoot 1 0).setBoot 3 2
    else ((s.setBoot 1 0).runImage f).setBoot 2 0)) ∧
  (∀ (s : State), s.dev.bootState = 0 → exec (.powerOnBoot none) s = .next ((s.setBoot 1 0).setBoot 3 3)) ∧
  (∀ (f : Firmware) (s : State), s.dev.bootState = 3 → s.windowHolds f.raw = true → exec (.recoveryStart f) s = .next (
    if Config.signatureGood f.raw = false then (s.setBoot 1 0).setBoot 3 1
    else if Config.imageFormatGood f.raw = false then (s.setBoot 1 0).setBoot 3 2
    else (((s.setBoot 1 0).emit (.flash f.raw)).runImage f).setBoot 2 0)) ∧
  (∀ (s : State), exec .deviceReset s = .next { State.reset with mem := s.mem, bad := s.bad, agenda := s.agenda, out := s.out, fresh := s.fresh }) ∧
  (∀ (s : State), exec .spdmGetMeasurements s =
    .next (s.emit (.spdm 0xE0 (leBytes 32 (Config.sha256 s.dev.image).toNat ++ leBytes 32 Config.fusedKeyHash.toNat)))) ∧
  (∀ (s : State), ∀ x ∈ [(Instr.spdmGetVersion, 0x84, [0x00, 0x12]), (Instr.spdmGetCapabilities, 0xE1, []),
      (Instr.spdmNegotiateAlgorithms, 0xE3, [4, 0, 0, 0, 1, 0, 0, 0]), (Instr.spdmGetCertificate, 0x82, leBytes 384 Config.identityKey.toNat)],
    exec x.1 s = .next (s.free.2.emit (.spdm x.2.1 (x.2.2 ++ leBytes 8 s.free.1.toNat)))) ∧
  (∀ (s : State), ∃ d : List Byte, exec .spdmChallenge s =
    .next (s.free.2.free.2.emit (.spdm 0x83 (leBytes 384 (Config.identitySign (Config.sha256 d)).toNat ++ leBytes 8 s.free.2.free.1.toNat))))

/-! ### Reset, memory and encoding -/

/-- R191, R211, R257, R260, R263, R266, R284, R309, R320, R324, R326: the values the manual gives for reset, as MFSR reads them, the
counters, and the tables: no thread lives, no warp is present, no block is on a core, no run is in progress.
That empty tables read as zeros where the manual states no value is the model's choice (log 15). -/
def Obligations.ResetState : Prop :=
  (∀ wk : Nat, ∀ p ∈ ([(0x201, 0), (0x240, 0), (0x242, 0), (0x244, 0), (0x249, 0), (0x24B, 0), (0x2A0, 0), (0x2A1, 1000), (0x2A2, 2400), (0x2A3, 60),
      (0x2C0, 0), (0x2C3, 0), (0x2E0, 0), (0x2DC, 0xF), (0x2DD, 0xF), (0x2DE, 0xF), (0x2DF, 0xF)] : List (Nat × DWord)), (State.reset.mfsr wk p.1).1 = p.2) ∧
  (∀ e j : Nat, e < 16 → j < 9 → Dev.reset.chtab.getD (9 * e + j) 0 = BitVec.ofNat 32 (0x10000000 * j)) ∧
  (∀ g : Nat, Fmap.get {} State.reset.dev.group g = ⟨0, false, false, 0⟩) ∧
  (∀ n : Nat, Fmap.get 0 State.reset.dev.cnt n = 0) ∧
  (∀ p k : Nat, Fmap.get 0 (State.reset.port p).ctr k = 0 ∧ (State.reset.port p).entry = [] ∧ State.reset.ftime p = 0) ∧
  (∀ k : Nat, (State.reset.sched k).issue = 0 ∧ (State.reset.sched k).comp = 0 ∧ (State.reset.sched k).run = none) ∧
  (∀ wk t : Nat, (State.reset.thread wk t).live = false ∧ (State.reset.warp wk).alive = false) ∧
  (∀ bk : Nat, (State.reset.block bk).resident = false) ∧
  State.reset.runs = [] ∧ State.reset.clk = 0 ∧ State.reset.fatal = false

/-- A lane that stands before an instruction fetches the twelve bytes at its PC, and a step runs the instruction they decode to, in the
state in which the fetch has left the machine (R77, R348); an instruction that has begun goes on; a word that stands for none raises `ill`
in every member (R91). A schedule's turn runs its word, and what the agenda holds comes first. Which lane has its turn is the model's choice
(log 6). -/
def Obligations.StepRunsDecoded : Prop :=
  (∀ (s : State) (i : Instr) (rest : List Instr), s.agenda = i :: rest → (s.fatal = false ∨ whenFatal i = true) →
    step s = exec i { s.unstall with agenda := rest }) ∧
  (∀ (s : State) (k : Nat) (r : Run), s.agenda = [] → s.fatal = false → s.closing = false → s.laneLast = false → s.pickLane = some k →
    s.run k = some r →
    (∀ w i, r.word = some w → decodeWord w = .ok i →
      step s = exec i { ({ s with laneLast := true } : State).setRun k (some { r with word := some w }) with focus := k }) ∧
    (∀ w i s1, r.word = none → (maskList r.members).any (fun t => s.isHeld r.wk t) = false → Fmap.get 0 s.bank k = 0 →
      (isSlice r.wk = true → (s1.thread r.wk 0).ftag = none) →
      ({ s with laneLast := true } : State).fetchWord r.wk r.pc = (.word w, s1) → decodeWord w = .ok i →
      step s = exec i { s1.setRun k (some { r with word := some w }) with focus := k }) ∧
    (∀ w e s1, r.word = none → (maskList r.members).any (fun t => s.isHeld r.wk t) = false → Fmap.get 0 s.bank k = 0 →
      (isSlice r.wk = true → (s1.thread r.wk 0).ftag = none) →
      ({ s with laneLast := true } : State).fetchWord r.wk r.pc = (.word w, s1) → decodeWord w = .error e →
      step s = .next ((s1.raiseAll r.wk (maskList r.members) kIll r.pc 0).endInstr k (.nop ⟨.always, false, false, true, false⟩)
        ⟨.always, false, false, true, false⟩ 0 (max 1 (maskList r.members).length)))) ∧
  (∀ (s s1 : State) (wk : Nat) (pc : DWord) (x : Xl), pc.toNat % 12 = 0 → pc.toNat < 2 ^ 56 → pc.toNat % 65536 ≤ 65524 →
    s.walkReach (coreOf wk) none (s.warp (parent wk)).asid pc = true → s.xlate (coreOf wk) none (s.warp (parent wk)).asid pc .x = (.ok x, s1) →
    s1.reach (coreOf wk) x.swz x.pa = true → s1.badAt x.swz x.pa 12 = false →
    s.fetchWord wk pc = (.word (BitVec.ofNat 96 (leNat (s1.readMem x.swz x.pa 12))), s1.countLines x 12 false)) ∧
  (∀ (s : State) (k : Nat) (i : Instr), s.agenda = [] → s.fatal = false → s.closing = false → s.pickLane = none →
    s.cursor % 13 = 1 → s.schedTurn = some (k, i) →
    step s = exec i (({ s.unstall with sfocus := k } : State).moved 1))

/-- R77 to R88, R297: words that the manual writes out, and what they decode to: `ffma`, `imadw.z32 v12, v0, 4 |`, `isetp.ne.s32 p0, s5, 0`,
`fsetp.lt.f32 p1, v3, 0`, `ld.b32 q0, [s2]`, `bra.cnt s4, fill |`, `halt |`, NOP, and the worked schedule word. -/
def Obligations.DecodeWords : Prop :=
  decodeWord (0x411F0000#32 ++ 0xC0000D00#32 ++ 0x00E05000#32) =
    .ok (.ffma ⟨.always, false, false, false, false⟩ ⟨.rne, .f32, false, false, false, false⟩ (.v 12) (.v 13) (.v 14)) ∧
  decodeWord (0x01DF0000#32 ++ 0xC0000080#32 ++ 0x00401080#32) =
    .ok (.imadw ⟨.always, false, false, true, false⟩ ⟨.rne, .z32, false, false, false, false⟩ (.v 12) (.v 0) (.imm 4)) ∧
  decodeWord (0x305FC000#32 ++ 0x02000580#32 ++ 0x00000500#32) = .ok (.isetp ⟨.always, false, false, false, false⟩ .s32 5 (.p 0) (.s 5) (.imm 0)) ∧
  decodeWord (0x425FC000#32 ++ 0x10000380#32 ++ 0x00015000#32) =
    .ok (.fsetp ⟨.always, false, false, false, false⟩ ⟨.lt, .f32, false, false, false⟩ (.p 1) (.v 3) (.imm 0)) ∧
  decodeWord (0x705FD800#32 ++ 0x02000280#32 ++ 0x00000200#32) = .ok (.ld ⟨.always, false, false, false, false⟩ .b32 (.q 0) (.s 2) (.imm 0)) ∧
  decodeWord (0xB05F2000#32 ++ 0x49FFFF9F#32 ++ 0xFFE00180#32) = .ok (.bra ⟨.always, false, false, true, false⟩ true (.s 4) (-2)) ∧
  decodeWord (0xE11F0000#32 ++ 0x00000000#32 ++ 0x00000080#32) = .ok (.halt ⟨.always, false, false, true, false⟩) ∧
  decodeWord (0xB29F0000#32 ++ 0x00000000#32 ++ 0x00000000#32) = .ok (.nop ⟨.always, false, false, false, false⟩) ∧
  decodeFloreal 0x0C4005010064F800 = some (.florealRed 2 ⟨.abs, 5⟩ 1 100 31 .faddF32)

/-- R77 to R88, R297: for every instruction word and every schedule word, decoding what it encodes to gives it back, with every operand
and modifier at every value that its encoding admits. -/
def Obligations.DecodeEncode : Prop := ∀ i : Instr, Sys2Proof.Laws.RoundTrip.Statement i

/-- Memory is in its canonical form at reset.
What an unlisted address reads as is the model's choice (log 7). -/
def Obligations.MemoryFormAtReset : Prop := State.reset.memWf = true

/-- Every step keeps memory in its canonical form: addresses strictly rising, and no entry equal to what an unlisted address reads as.
What an unlisted address reads as is the model's choice (log 7). -/
def Obligations.MemoryFormKept : Prop := ∀ s t : State, step s = .next t → s.memWf = true → t.memWf = true

/-- R261: a line of HBM4E goes to the channel whose bit j is one bit of the line number XORed with a parity of the bits above it, at the
location that its upper bits and its byte offset name; no two bytes share a location, whatever the channel hash table holds. -/
def Obligations.HashPlacement : Prop :=
  (∀ (tab : List Word) (swz pa j : Nat), pa < 2 ^ 39 → j < 9 → (channelOf tab swz pa).testBit j =
    xor (pa.testBit (7 + (chPos tab swz).getD j 0)) (parity ((BitVec.ofNat 52 pa).extractLsb' 16 23 &&& (tab.getD (9 * swz + j) 0).extractLsb' 0 23))) ∧
  (∀ (tab : List Word) (swz pa : Nat), pa < 2 ^ 39 → channelOf tab swz pa < 512 ∧ sliceOf tab swz pa = some (channelOf tab swz pa / 8) ∧
    placeOf tab swz pa / 65536 = pa / 65536 ∧
    placeOf tab swz pa / 128 % 512 = channelOf tab swz pa ∧ placeOf tab swz pa % 128 = pa % 128) ∧
  (∀ (tab : List Word) (swz a b : Nat), placeOf tab swz a = placeOf tab swz b → a = b) ∧
  (∀ (tab : List Word) (swz page c : Nat), page < 2 ^ 23 → c < 512 → ∃ l, l < 512 ∧ channelOf tab swz (65536 * page + 128 * l) = c)

/-- What is written to memory reads back, and every other address reads as before, whatever the channel hash table holds. -/
def Obligations.MemoryReadsBack : Prop :=
  ∀ (s : State) (swz pa : Nat) (l : List Byte),
    (s.writeMem swz pa l).readMem swz pa l.length = l ∧
    ∀ a, (∀ k < l.length, a ≠ pa + k) → (s.writeMem swz pa l).byteAt swz a = s.byteAt swz a

/-- R164, R169, R243: an access that its slice performs. A store puts its bytes at its address; a load takes the bytes there and changes
no memory; an atomic or a reduction puts there the new value of its operation on the old one, which an atomic takes. Every other cell of
memory stands as it did. -/
def Obligations.AccessPerformed : Prop :=
  (∀ (s : State) (id : Nat) (a : Access), a.kind = .store → a.off + a.n ≤ 16 →
    (s.perform id a).2 = true ∧ (s.perform id a).1.acc id = none ∧
    (∀ k < a.n, (s.perform id a).1.byteAt a.swz (a.pa + k) = a.data.extractLsb' (8 * (a.off + k)) 8)) ∧
  (∀ (s : State) (id : Nat) (a : Access), a.kind = .load → s.badAt a.swz a.pa a.n = false → a.off + a.n ≤ 16 →
    (s.perform id a).2 = true ∧ (s.perform id a).1.mem = s.mem ∧
    ∃ b, (s.perform id a).1.acc id = some b ∧ b.st = .served ∧ b.dest = a.dest ∧
      ∀ k < a.n, b.data.extractLsb' (8 * (a.off + k)) 8 = s.byteAt a.swz (a.pa + k)) ∧
  (∀ (s : State) (id : Nat) (a : Access), a.kind = .atom ∨ a.kind = .red → s.badAt a.swz a.pa a.n = false → a.n = a.total → a.total = 4 ∨ a.total = 8 →
    let old : DWord := BitVec.ofNat 64 (leNat (s.readMem a.swz a.pa a.n))
    let new := atomNew a.oper a.ty old (cutTo a.total (a.data.extractLsb' 0 64))
      (if a.total = 4 then (a.data.extractLsb' 32 32).setWidth 64 else a.data.extractLsb' 64 64)
    (s.perform id a).2 = true ∧ leNat ((s.perform id a).1.readMem a.swz a.pa a.n) = new.toNat % 2 ^ (8 * a.n) ∧
    (a.kind = .red → (s.perform id a).1.acc id = none) ∧
    (a.kind = .atom → ∃ b, (s.perform id a).1.acc id = some b ∧ b.st = .served ∧ b.dest = a.dest ∧ b.data = old.setWidth 128)) ∧
  (∀ (s : State) (id : Nat) (a : Access) (p : Nat), (∀ k < a.n, p ≠ placeOf s.dev.chtab a.swz (a.pa + k)) →
    Fmap.get memDefault (s.perform id a).1.mem p = Fmap.get memDefault s.mem p)

/-- R164, R165, R168: the data of a thread's load or atomic, all of whose pieces have been served, lands: its registers hold it, low word
first, and none of them waits for it any longer; no memory changes. -/
def Obligations.LoadLands : Prop :=
  ∀ (s : State) (iid t : Nat) (p : Nat × Access) (ps : List (Nat × Access)) (ls : List Loc),
    s.accList.filter (fun q => q.2.iid == iid && q.2.t == t && q.2.reads) = p :: ps → (∀ q ∈ p :: ps, q.2.st = .served) →
    p.2.dest = .regs ls → ls.Nodup → (∀ l ∈ ls, l.Ok) →
    ∃ u, exec (.loadDataLand iid t) s = .next u ∧
      ls.map u.readLoc = wordsOf ls.length (extend p.2.size ((p :: ps).foldl (fun n q => n + q.2.data.toNat) 0)) ∧
      (∀ l ∈ ls, u.pend l = if s.pend l = iid then 0 else s.pend l) ∧ (∀ q ∈ p :: ps, u.acc q.1 = none) ∧ u.mem = s.mem

/-- R338 to R341: a raised trap is pending and holds its thread. A delivery takes the lowest pending kind and, of the threads that pend it,
the lowest PC: `%tpc` and `%tmask` name them, and each enters handler state at the handler of the kind with its resume PC and `%tdst`
recorded, while every other thread stands as it did; with no handler, they end.
An access-slice instance has no handler: deduced (log 11). -/
def Obligations.TrapDelivery : Prop :=
  (∀ (s : State) (wk t kind : Nat) (pc : DWord) (td : Word), t < 32 → (s.thread wk t).inHandler = false →
    (s.raise wk t kind pc td).thread wk t = { s.thread wk t with
      trap := some ⟨kind, pc, if kind = kFetch ∨ kind = kPois then pc else pc + 12, td⟩, hold := .trap }) ∧
  (∀ (s : State) (wk k : Nat) (pc : DWord),
    let pends : Nat → PTrap → Prop := fun t p => t < 32 ∧ (s.thread wk t).live = true ∧ (s.thread wk t).trap = some p
    let first : Nat → PTrap → Prop := fun t p => pends t p ∧ p.kind = k ∧ p.pc = pc
    s.mayDeliver wk = true → (s.warp wk).stopped = false →
    (∀ t < 32, (s.thread wk t).live = true → (s.thread wk t).inHandler = false) → k ≤ 15 →
    (∀ t p, pends t p → k < p.kind ∨ (k = p.kind ∧ pc.toNat ≤ p.pc.toNat)) → (∃ t p, first t p) →
    (∀ h, s.handlerOf wk k = some h → ∃ u, exec (.trapDeliver wk) s = .next u ∧ (u.warp wk).tpc = pc ∧
      (∀ t < 32, (u.warp wk).tmask.getLsbD t = true ↔ ∃ p, first t p) ∧
      (∀ t p, first t p → u.thread wk t = { s.thread wk t with
        tdst := p.tdst, resume := p.resume, trap := none, hold := .none, inHandler := true, pc := h }) ∧
      (∀ t < 32, (¬ ∃ p, first t p) → u.thread wk t = s.thread wk t)) ∧
    (s.handlerOf wk k = none → ∃ u, exec (.trapDeliver wk) s = .next u ∧
      (∀ t p, first t p → (u.thread wk t).live = false ∧ (u.thread wk t).trap = none ∧ (u.thread wk t).tdst = p.tdst)))

/-- R87, R89, R91: a word to which R91 objects raises its trap in every member of the run, whatever its guard, and has no other effect. The
privilege trap is raised outside the system warps by every instruction of class 0xE, by SSTEP (0x3C2) and by those that name a system register or
host memory, and by no other; an illegal word traps so before that. -/
def Obligations.DecodeTraps : Prop :=
  (∀ (s : State) (i : Instr) (g : Sig) (h : Hdr) (r : Run) (k : Nat) (td : Word), s.run s.focus = some r → i.sig = some g → i.hdr = some h →
    s.fate r.wk i = some (k, td) →
    exec i s = .next ((s.raiseAll r.wk (maskList r.members) k r.pc td).endInstr s.focus i h 0 (cyclesOf g (maskList r.members).length))) ∧
  (∀ (s : State) (wk : Nat) (i : Instr), i.legal = false → s.fate wk i = some (kIll, 0)) ∧
  (∀ (s : State) (wk : Nat) (i : Instr), i.legal = true → isSlice wk = false → i.warpOk = true → isSys wk = false →
    (i.cls = 0xE ∨ opOf i = 0x3C2 ∨ namesSystem i = true) → s.fate wk i = some (kPriv, 0)) ∧
  (∀ (s : State) (wk : Nat) (i : Instr), isSys wk = true ∨ (i.cls ≠ 0xE ∧ opOf i ≠ 0x3C2 ∧ namesSystem i = false) →
    ∀ td, s.fate wk i ≠ some (kPriv, td))
end

