-- ==== Sys2Proof/Laws/Tables.lean ====
section
/-! SUPPORT. Laws of the sparse tables: a read after a write, and the canonical form that every write keeps. -/

namespace Sys2Proof.Machine

variable {β : Type}

@[simp] theorem Fmap.get_nil (d : β) (k : Nat) : Fmap.get d [] k = d := rfl

theorem Fmap.get_erase_self (d : β) (m : List (Nat × β)) (k : Nat) : Fmap.get d (Fmap.erase m k) k = d := by
  induction m with
  | nil => rfl
  | cons p r ih =>
    obtain ⟨j, v⟩ := p
    by_cases h : j = k
    · simpa [Fmap.erase, h] using ih
    · simp only [Fmap.erase, List.filter_cons, bne_iff_ne, ne_eq, h, not_false_eq_true, if_true, Fmap.get, if_false]
      exact ih

theorem Fmap.get_erase_ne (d : β) (m : List (Nat × β)) {k j : Nat} (h : k ≠ j) : Fmap.get d (Fmap.erase m k) j = Fmap.get d m j := by
  induction m with
  | nil => rfl
  | cons p r ih =>
    obtain ⟨i, v⟩ := p
    by_cases hi : i = k
    · subst hi
      simp only [Fmap.erase, List.filter_cons, bne_self_eq_false, Bool.false_eq_true, if_false, Fmap.get, h]
      exact ih
    · simp only [Fmap.erase, List.filter_cons, bne_iff_ne, ne_eq, hi, not_false_eq_true, if_true, Fmap.get]
      split
      · rfl
      · exact ih

theorem Fmap.get_insert_self (d : β) (k : Nat) (v : β) (m : List (Nat × β)) (h : ∀ p ∈ m, p.1 ≠ k) :
    Fmap.get d (Fmap.insert k v m) k = v := by
  induction m with
  | nil => simp [Fmap.insert, Fmap.get]
  | cons p r ih =>
    obtain ⟨j, w⟩ := p
    have hj : j ≠ k := h (j, w) (by simp)
    simp only [Fmap.insert]
    split
    · simp [Fmap.get]
    · simp only [Fmap.get, hj, if_false]
      exact ih (fun p hp => h p (by simp [hp]))

theorem Fmap.get_insert_ne (d : β) {k j : Nat} (v : β) (m : List (Nat × β)) (h : k ≠ j) :
    Fmap.get d (Fmap.insert k v m) j = Fmap.get d m j := by
  induction m with
  | nil => simp [Fmap.insert, Fmap.get, h]
  | cons p r ih =>
    obtain ⟨i, w⟩ := p
    simp only [Fmap.insert]
    split
    · simp [Fmap.get, h]
    · simp only [Fmap.get, ih]

theorem Fmap.erase_keys (m : List (Nat × β)) (k : Nat) : ∀ p ∈ Fmap.erase m k, p.1 ≠ k := by
  intro p hp
  simpa using (List.mem_filter.1 hp).2

variable [DecidableEq β]

/-- Reading back what was written. -/
@[simp] theorem Fmap.get_set_self (d : β) (m : List (Nat × β)) (k : Nat) (v : β) : Fmap.get d (Fmap.set d m k v) k = v := by
  unfold Fmap.set
  split
  · next h => rw [Fmap.get_erase_self, h]
  · exact Fmap.get_insert_self d k v _ (Fmap.erase_keys m k)

/-- A write leaves every other key alone. -/
theorem Fmap.get_set_ne (d : β) (m : List (Nat × β)) {k j : Nat} (v : β) (h : k ≠ j) :
    Fmap.get d (Fmap.set d m k v) j = Fmap.get d m j := by
  unfold Fmap.set
  split
  · exact Fmap.get_erase_ne d m h
  · rw [Fmap.get_insert_ne d v _ h, Fmap.get_erase_ne d m h]

theorem Fmap.get_set (d : β) (m : List (Nat × β)) (k j : Nat) (v : β) :
    Fmap.get d (Fmap.set d m k v) j = if k = j then v else Fmap.get d m j := by
  split
  · next h => rw [← h, Fmap.get_set_self]
  · next h => exact Fmap.get_set_ne d m v h

/-! ### The canonical form -/

omit [DecidableEq β] in
theorem Fmap.mem_insert {k : Nat} {v : β} {m : List (Nat × β)} {p : Nat × β} (h : p ∈ Fmap.insert k v m) : p = (k, v) ∨ p ∈ m := by
  induction m with
  | nil => simpa [Fmap.insert] using h
  | cons q r ih =>
    obtain ⟨j, w⟩ := q
    simp only [Fmap.insert] at h
    split at h
    · simpa using h
    · rcases List.mem_cons.1 h with h | h
      · exact .inr (by simp [h])
      · rcases ih h with h | h
        · exact .inl h
        · exact .inr (by simp [h])

theorem Fmap.wf_iff (d : β) (m : List (Nat × β)) :
    Fmap.wf d m = true ↔ (m.map Prod.fst).Pairwise (· < ·) ∧ ∀ p ∈ m, p.2 ≠ d := by
  simp [Fmap.wf]

@[simp] theorem Fmap.wf_nil (d : β) : Fmap.wf d [] = true := by simp [Fmap.wf]

theorem Fmap.wf_erase (d : β) (m : List (Nat × β)) (k : Nat) (h : Fmap.wf d m = true) : Fmap.wf d (Fmap.erase m k) = true := by
  rw [Fmap.wf_iff] at h ⊢
  refine ⟨?_, fun p hp => h.2 p (List.mem_of_mem_filter hp)⟩
  have : ((Fmap.erase m k).map Prod.fst).Sublist (m.map Prod.fst) := List.Sublist.map _ List.filter_sublist
  exact h.1.sublist this

omit [DecidableEq β] in
theorem Fmap.pairwise_insert (k : Nat) (v : β) (m : List (Nat × β)) (h : (m.map Prod.fst).Pairwise (· < ·)) (hk : ∀ p ∈ m, p.1 ≠ k) :
    ((Fmap.insert k v m).map Prod.fst).Pairwise (· < ·) := by
  induction m with
  | nil => simp [Fmap.insert]
  | cons q r ih =>
    obtain ⟨j, w⟩ := q
    simp only [List.map_cons, List.pairwise_cons] at h
    have hj : j ≠ k := hk (j, w) (by simp)
    simp only [Fmap.insert]
    split
    · next hlt =>
      simp only [List.map_cons, List.pairwise_cons, List.mem_cons]
      refine ⟨?_, h⟩
      rintro a (rfl | ha)
      · exact hlt
      · exact lt_trans hlt (h.1 a ha)
    · next hlt =>
      simp only [List.map_cons, List.pairwise_cons]
      refine ⟨?_, ih h.2 (fun p hp => hk p (by simp [hp]))⟩
      intro a ha
      obtain ⟨p, hp, rfl⟩ := List.mem_map.1 ha
      rcases Fmap.mem_insert hp with rfl | hp
      · simp only; omega
      · exact h.1 _ (List.mem_map.2 ⟨p, hp, rfl⟩)

/-- Every write keeps the canonical form. -/
theorem Fmap.wf_set (d : β) (m : List (Nat × β)) (k : Nat) (v : β) (h : Fmap.wf d m = true) : Fmap.wf d (Fmap.set d m k v) = true := by
  unfold Fmap.set
  split
  · exact Fmap.wf_erase d m k h
  · next hv =>
    have he := (Fmap.wf_iff d _).1 (Fmap.wf_erase d m k h)
    rw [Fmap.wf_iff]
    refine ⟨Fmap.pairwise_insert k v _ he.1 (Fmap.erase_keys m k), fun p hp => ?_⟩
    rcases Fmap.mem_insert hp with rfl | hp
    · exact hv
    · exact he.2 p hp

end Sys2Proof.Machine
end

