-- ==== Sys2Proof/Laws/State.lean ====
section
/-! SUPPORT. Laws of the state's own operations: what each update leaves alone, one line per field and per table, and what a
table reads after an update of one entry. Updates by a function are those of `set`, so that one spelling is enough. -/

namespace Sys2Proof.Machine

namespace State

/-! ### `setThread` -/

@[simp] theorem setThread_mem (s : State) (wk t : Nat) (x : Thread) : (s.setThread wk t x).mem = s.mem := rfl
@[simp] theorem setThread_bad (s : State) (wk t : Nat) (x : Thread) : (s.setThread wk t x).bad = s.bad := rfl
@[simp] theorem setThread_warps (s : State) (wk t : Nat) (x : Thread) : (s.setThread wk t x).warps = s.warps := rfl
@[simp] theorem setThread_blocks (s : State) (wk t : Nat) (x : Thread) : (s.setThread wk t x).blocks = s.blocks := rfl
@[simp] theorem setThread_launches (s : State) (wk t : Nat) (x : Thread) : (s.setThread wk t x).launches = s.launches := rfl
@[simp] theorem setThread_cores (s : State) (wk t : Nat) (x : Thread) : (s.setThread wk t x).cores = s.cores := rfl
@[simp] theorem setThread_diesT (s : State) (wk t : Nat) (x : Thread) : (s.setThread wk t x).diesT = s.diesT := rfl
@[simp] theorem setThread_ports (s : State) (wk t : Nat) (x : Thread) : (s.setThread wk t x).ports = s.ports := rfl
@[simp] theorem setThread_scheds (s : State) (wk t : Nat) (x : Thread) : (s.setThread wk t x).scheds = s.scheds := rfl
@[simp] theorem setThread_queues (s : State) (wk t : Nat) (x : Thread) : (s.setThread wk t x).queues = s.queues := rfl
@[simp] theorem setThread_links (s : State) (wk t : Nat) (x : Thread) : (s.setThread wk t x).links = s.links := rfl
@[simp] theorem setThread_accs (s : State) (wk t : Nat) (x : Thread) : (s.setThread wk t x).accs = s.accs := rfl
@[simp] theorem setThread_cmds (s : State) (wk t : Nat) (x : Thread) : (s.setThread wk t x).cmds = s.cmds := rfl
@[simp] theorem setThread_runs (s : State) (wk t : Nat) (x : Thread) : (s.setThread wk t x).runs = s.runs := rfl
@[simp] theorem setThread_acks (s : State) (wk t : Nat) (x : Thread) : (s.setThread wk t x).acks = s.acks := rfl
@[simp] theorem setThread_dev (s : State) (wk t : Nat) (x : Thread) : (s.setThread wk t x).dev = s.dev := rfl
@[simp] theorem setThread_focus (s : State) (wk t : Nat) (x : Thread) : (s.setThread wk t x).focus = s.focus := rfl
@[simp] theorem setThread_laneLast (s : State) (wk t : Nat) (x : Thread) : (s.setThread wk t x).laneLast = s.laneLast := rfl
@[simp] theorem setThread_cursor (s : State) (wk t : Nat) (x : Thread) : (s.setThread wk t x).cursor = s.cursor := rfl
@[simp] theorem setThread_sfocus (s : State) (wk t : Nat) (x : Thread) : (s.setThread wk t x).sfocus = s.sfocus := rfl
@[simp] theorem setThread_agenda (s : State) (wk t : Nat) (x : Thread) : (s.setThread wk t x).agenda = s.agenda := rfl
@[simp] theorem setThread_out (s : State) (wk t : Nat) (x : Thread) : (s.setThread wk t x).out = s.out := rfl
@[simp] theorem setThread_clk (s : State) (wk t : Nat) (x : Thread) : (s.setThread wk t x).clk = s.clk := rfl
@[simp] theorem setThread_nextId (s : State) (wk t : Nat) (x : Thread) : (s.setThread wk t x).nextId = s.nextId := rfl
@[simp] theorem setThread_tseq (s : State) (wk t : Nat) (x : Thread) : (s.setThread wk t x).tseq = s.tseq := rfl
@[simp] theorem setThread_fresh (s : State) (wk t : Nat) (x : Thread) : (s.setThread wk t x).fresh = s.fresh := rfl
@[simp] theorem setThread_fatal (s : State) (wk t : Nat) (x : Thread) : (s.setThread wk t x).fatal = s.fatal := rfl
@[simp] theorem setThread_closing (s : State) (wk t : Nat) (x : Thread) : (s.setThread wk t x).closing = s.closing := rfl
@[simp] theorem setThread_travel (s : State) (wk t : Nat) (x : Thread) : (s.setThread wk t x).travel = s.travel := rfl
@[simp] theorem setThread_bank (s : State) (wk t : Nat) (x : Thread) : (s.setThread wk t x).bank = s.bank := rfl
@[simp] theorem setThread_emptied (s : State) (wk t : Nat) (x : Thread) : (s.setThread wk t x).emptied = s.emptied := rfl
@[simp] theorem setThread_warp (s : State) (wk t k2 : Nat) (x : Thread) : (s.setThread wk t x).warp k2 = s.warp k2 := rfl
@[simp] theorem setThread_block (s : State) (wk t k2 : Nat) (x : Thread) : (s.setThread wk t x).block k2 = s.block k2 := rfl
@[simp] theorem setThread_launch (s : State) (wk t k2 : Nat) (x : Thread) : (s.setThread wk t x).launch k2 = s.launch k2 := rfl
@[simp] theorem setThread_core (s : State) (wk t k2 : Nat) (x : Thread) : (s.setThread wk t x).core k2 = s.core k2 := rfl
@[simp] theorem setThread_die (s : State) (wk t k2 : Nat) (x : Thread) : (s.setThread wk t x).die k2 = s.die k2 := rfl
@[simp] theorem setThread_port (s : State) (wk t k2 : Nat) (x : Thread) : (s.setThread wk t x).port k2 = s.port k2 := rfl
@[simp] theorem setThread_sched (s : State) (wk t k2 : Nat) (x : Thread) : (s.setThread wk t x).sched k2 = s.sched k2 := rfl
@[simp] theorem setThread_queue (s : State) (wk t k2 : Nat) (x : Thread) : (s.setThread wk t x).queue k2 = s.queue k2 := rfl
@[simp] theorem setThread_acc (s : State) (wk t k2 : Nat) (x : Thread) : (s.setThread wk t x).acc k2 = s.acc k2 := rfl
@[simp] theorem setThread_cmd (s : State) (wk t k2 : Nat) (x : Thread) : (s.setThread wk t x).cmd k2 = s.cmd k2 := rfl
@[simp] theorem setThread_run (s : State) (wk t k2 : Nat) (x : Thread) : (s.setThread wk t x).run k2 = s.run k2 := rfl

/-! ### `setWarp` -/

@[simp] theorem setWarp_mem (s : State) (k : Nat) (x : Warp) : (s.setWarp k x).mem = s.mem := rfl
@[simp] theorem setWarp_bad (s : State) (k : Nat) (x : Warp) : (s.setWarp k x).bad = s.bad := rfl
@[simp] theorem setWarp_threads (s : State) (k : Nat) (x : Warp) : (s.setWarp k x).threads = s.threads := rfl
@[simp] theorem setWarp_blocks (s : State) (k : Nat) (x : Warp) : (s.setWarp k x).blocks = s.blocks := rfl
@[simp] theorem setWarp_launches (s : State) (k : Nat) (x : Warp) : (s.setWarp k x).launches = s.launches := rfl
@[simp] theorem setWarp_cores (s : State) (k : Nat) (x : Warp) : (s.setWarp k x).cores = s.cores := rfl
@[simp] theorem setWarp_diesT (s : State) (k : Nat) (x : Warp) : (s.setWarp k x).diesT = s.diesT := rfl
@[simp] theorem setWarp_ports (s : State) (k : Nat) (x : Warp) : (s.setWarp k x).ports = s.ports := rfl
@[simp] theorem setWarp_scheds (s : State) (k : Nat) (x : Warp) : (s.setWarp k x).scheds = s.scheds := rfl
@[simp] theorem setWarp_queues (s : State) (k : Nat) (x : Warp) : (s.setWarp k x).queues = s.queues := rfl
@[simp] theorem setWarp_links (s : State) (k : Nat) (x : Warp) : (s.setWarp k x).links = s.links := rfl
@[simp] theorem setWarp_accs (s : State) (k : Nat) (x : Warp) : (s.setWarp k x).accs = s.accs := rfl
@[simp] theorem setWarp_cmds (s : State) (k : Nat) (x : Warp) : (s.setWarp k x).cmds = s.cmds := rfl
@[simp] theorem setWarp_runs (s : State) (k : Nat) (x : Warp) : (s.setWarp k x).runs = s.runs := rfl
@[simp] theorem setWarp_acks (s : State) (k : Nat) (x : Warp) : (s.setWarp k x).acks = s.acks := rfl
@[simp] theorem setWarp_dev (s : State) (k : Nat) (x : Warp) : (s.setWarp k x).dev = s.dev := rfl
@[simp] theorem setWarp_focus (s : State) (k : Nat) (x : Warp) : (s.setWarp k x).focus = s.focus := rfl
@[simp] theorem setWarp_laneLast (s : State) (k : Nat) (x : Warp) : (s.setWarp k x).laneLast = s.laneLast := rfl
@[simp] theorem setWarp_cursor (s : State) (k : Nat) (x : Warp) : (s.setWarp k x).cursor = s.cursor := rfl
@[simp] theorem setWarp_sfocus (s : State) (k : Nat) (x : Warp) : (s.setWarp k x).sfocus = s.sfocus := rfl
@[simp] theorem setWarp_agenda (s : State) (k : Nat) (x : Warp) : (s.setWarp k x).agenda = s.agenda := rfl
@[simp] theorem setWarp_out (s : State) (k : Nat) (x : Warp) : (s.setWarp k x).out = s.out := rfl
@[simp] theorem setWarp_clk (s : State) (k : Nat) (x : Warp) : (s.setWarp k x).clk = s.clk := rfl
@[simp] theorem setWarp_nextId (s : State) (k : Nat) (x : Warp) : (s.setWarp k x).nextId = s.nextId := rfl
@[simp] theorem setWarp_tseq (s : State) (k : Nat) (x : Warp) : (s.setWarp k x).tseq = s.tseq := rfl
@[simp] theorem setWarp_fresh (s : State) (k : Nat) (x : Warp) : (s.setWarp k x).fresh = s.fresh := rfl
@[simp] theorem setWarp_fatal (s : State) (k : Nat) (x : Warp) : (s.setWarp k x).fatal = s.fatal := rfl
@[simp] theorem setWarp_closing (s : State) (k : Nat) (x : Warp) : (s.setWarp k x).closing = s.closing := rfl
@[simp] theorem setWarp_travel (s : State) (k : Nat) (x : Warp) : (s.setWarp k x).travel = s.travel := rfl
@[simp] theorem setWarp_bank (s : State) (k : Nat) (x : Warp) : (s.setWarp k x).bank = s.bank := rfl
@[simp] theorem setWarp_emptied (s : State) (k : Nat) (x : Warp) : (s.setWarp k x).emptied = s.emptied := rfl
@[simp] theorem setWarp_thread (s : State) (k wk2 t2 : Nat) (x : Warp) : (s.setWarp k x).thread wk2 t2 = s.thread wk2 t2 := rfl
@[simp] theorem setWarp_block (s : State) (k k2 : Nat) (x : Warp) : (s.setWarp k x).block k2 = s.block k2 := rfl
@[simp] theorem setWarp_launch (s : State) (k k2 : Nat) (x : Warp) : (s.setWarp k x).launch k2 = s.launch k2 := rfl
@[simp] theorem setWarp_core (s : State) (k k2 : Nat) (x : Warp) : (s.setWarp k x).core k2 = s.core k2 := rfl
@[simp] theorem setWarp_die (s : State) (k k2 : Nat) (x : Warp) : (s.setWarp k x).die k2 = s.die k2 := rfl
@[simp] theorem setWarp_port (s : State) (k k2 : Nat) (x : Warp) : (s.setWarp k x).port k2 = s.port k2 := rfl
@[simp] theorem setWarp_sched (s : State) (k k2 : Nat) (x : Warp) : (s.setWarp k x).sched k2 = s.sched k2 := rfl
@[simp] theorem setWarp_queue (s : State) (k k2 : Nat) (x : Warp) : (s.setWarp k x).queue k2 = s.queue k2 := rfl
@[simp] theorem setWarp_acc (s : State) (k k2 : Nat) (x : Warp) : (s.setWarp k x).acc k2 = s.acc k2 := rfl
@[simp] theorem setWarp_cmd (s : State) (k k2 : Nat) (x : Warp) : (s.setWarp k x).cmd k2 = s.cmd k2 := rfl
@[simp] theorem setWarp_run (s : State) (k k2 : Nat) (x : Warp) : (s.setWarp k x).run k2 = s.run k2 := rfl

/-! ### `setBlock` -/

@[simp] theorem setBlock_mem (s : State) (k : Nat) (x : Block) : (s.setBlock k x).mem = s.mem := rfl
@[simp] theorem setBlock_bad (s : State) (k : Nat) (x : Block) : (s.setBlock k x).bad = s.bad := rfl
@[simp] theorem setBlock_threads (s : State) (k : Nat) (x : Block) : (s.setBlock k x).threads = s.threads := rfl
@[simp] theorem setBlock_warps (s : State) (k : Nat) (x : Block) : (s.setBlock k x).warps = s.warps := rfl
@[simp] theorem setBlock_launches (s : State) (k : Nat) (x : Block) : (s.setBlock k x).launches = s.launches := rfl
@[simp] theorem setBlock_cores (s : State) (k : Nat) (x : Block) : (s.setBlock k x).cores = s.cores := rfl
@[simp] theorem setBlock_diesT (s : State) (k : Nat) (x : Block) : (s.setBlock k x).diesT = s.diesT := rfl
@[simp] theorem setBlock_ports (s : State) (k : Nat) (x : Block) : (s.setBlock k x).ports = s.ports := rfl
@[simp] theorem setBlock_scheds (s : State) (k : Nat) (x : Block) : (s.setBlock k x).scheds = s.scheds := rfl
@[simp] theorem setBlock_queues (s : State) (k : Nat) (x : Block) : (s.setBlock k x).queues = s.queues := rfl
@[simp] theorem setBlock_links (s : State) (k : Nat) (x : Block) : (s.setBlock k x).links = s.links := rfl
@[simp] theorem setBlock_accs (s : State) (k : Nat) (x : Block) : (s.setBlock k x).accs = s.accs := rfl
@[simp] theorem setBlock_cmds (s : State) (k : Nat) (x : Block) : (s.setBlock k x).cmds = s.cmds := rfl
@[simp] theorem setBlock_runs (s : State) (k : Nat) (x : Block) : (s.setBlock k x).runs = s.runs := rfl
@[simp] theorem setBlock_acks (s : State) (k : Nat) (x : Block) : (s.setBlock k x).acks = s.acks := rfl
@[simp] theorem setBlock_dev (s : State) (k : Nat) (x : Block) : (s.setBlock k x).dev = s.dev := rfl
@[simp] theorem setBlock_focus (s : State) (k : Nat) (x : Block) : (s.setBlock k x).focus = s.focus := rfl
@[simp] theorem setBlock_laneLast (s : State) (k : Nat) (x : Block) : (s.setBlock k x).laneLast = s.laneLast := rfl
@[simp] theorem setBlock_cursor (s : State) (k : Nat) (x : Block) : (s.setBlock k x).cursor = s.cursor := rfl
@[simp] theorem setBlock_sfocus (s : State) (k : Nat) (x : Block) : (s.setBlock k x).sfocus = s.sfocus := rfl
@[simp] theorem setBlock_agenda (s : State) (k : Nat) (x : Block) : (s.setBlock k x).agenda = s.agenda := rfl
@[simp] theorem setBlock_out (s : State) (k : Nat) (x : Block) : (s.setBlock k x).out = s.out := rfl
@[simp] theorem setBlock_clk (s : State) (k : Nat) (x : Block) : (s.setBlock k x).clk = s.clk := rfl
@[simp] theorem setBlock_nextId (s : State) (k : Nat) (x : Block) : (s.setBlock k x).nextId = s.nextId := rfl
@[simp] theorem setBlock_tseq (s : State) (k : Nat) (x : Block) : (s.setBlock k x).tseq = s.tseq := rfl
@[simp] theorem setBlock_fresh (s : State) (k : Nat) (x : Block) : (s.setBlock k x).fresh = s.fresh := rfl
@[simp] theorem setBlock_fatal (s : State) (k : Nat) (x : Block) : (s.setBlock k x).fatal = s.fatal := rfl
@[simp] theorem setBlock_closing (s : State) (k : Nat) (x : Block) : (s.setBlock k x).closing = s.closing := rfl
@[simp] theorem setBlock_travel (s : State) (k : Nat) (x : Block) : (s.setBlock k x).travel = s.travel := rfl
@[simp] theorem setBlock_bank (s : State) (k : Nat) (x : Block) : (s.setBlock k x).bank = s.bank := rfl
@[simp] theorem setBlock_emptied (s : State) (k : Nat) (x : Block) : (s.setBlock k x).emptied = s.emptied := rfl
@[simp] theorem setBlock_thread (s : State) (k wk2 t2 : Nat) (x : Block) : (s.setBlock k x).thread wk2 t2 = s.thread wk2 t2 := rfl
@[simp] theorem setBlock_warp (s : State) (k k2 : Nat) (x : Block) : (s.setBlock k x).warp k2 = s.warp k2 := rfl
@[simp] theorem setBlock_launch (s : State) (k k2 : Nat) (x : Block) : (s.setBlock k x).launch k2 = s.launch k2 := rfl
@[simp] theorem setBlock_core (s : State) (k k2 : Nat) (x : Block) : (s.setBlock k x).core k2 = s.core k2 := rfl
@[simp] theorem setBlock_die (s : State) (k k2 : Nat) (x : Block) : (s.setBlock k x).die k2 = s.die k2 := rfl
@[simp] theorem setBlock_port (s : State) (k k2 : Nat) (x : Block) : (s.setBlock k x).port k2 = s.port k2 := rfl
@[simp] theorem setBlock_sched (s : State) (k k2 : Nat) (x : Block) : (s.setBlock k x).sched k2 = s.sched k2 := rfl
@[simp] theorem setBlock_queue (s : State) (k k2 : Nat) (x : Block) : (s.setBlock k x).queue k2 = s.queue k2 := rfl
@[simp] theorem setBlock_acc (s : State) (k k2 : Nat) (x : Block) : (s.setBlock k x).acc k2 = s.acc k2 := rfl
@[simp] theorem setBlock_cmd (s : State) (k k2 : Nat) (x : Block) : (s.setBlock k x).cmd k2 = s.cmd k2 := rfl
@[simp] theorem setBlock_run (s : State) (k k2 : Nat) (x : Block) : (s.setBlock k x).run k2 = s.run k2 := rfl

/-! ### `setLaunch` -/

@[simp] theorem setLaunch_mem (s : State) (k : Nat) (x : Launch) : (s.setLaunch k x).mem = s.mem := rfl
@[simp] theorem setLaunch_bad (s : State) (k : Nat) (x : Launch) : (s.setLaunch k x).bad = s.bad := rfl
@[simp] theorem setLaunch_threads (s : State) (k : Nat) (x : Launch) : (s.setLaunch k x).threads = s.threads := rfl
@[simp] theorem setLaunch_warps (s : State) (k : Nat) (x : Launch) : (s.setLaunch k x).warps = s.warps := rfl
@[simp] theorem setLaunch_blocks (s : State) (k : Nat) (x : Launch) : (s.setLaunch k x).blocks = s.blocks := rfl
@[simp] theorem setLaunch_cores (s : State) (k : Nat) (x : Launch) : (s.setLaunch k x).cores = s.cores := rfl
@[simp] theorem setLaunch_diesT (s : State) (k : Nat) (x : Launch) : (s.setLaunch k x).diesT = s.diesT := rfl
@[simp] theorem setLaunch_ports (s : State) (k : Nat) (x : Launch) : (s.setLaunch k x).ports = s.ports := rfl
@[simp] theorem setLaunch_scheds (s : State) (k : Nat) (x : Launch) : (s.setLaunch k x).scheds = s.scheds := rfl
@[simp] theorem setLaunch_queues (s : State) (k : Nat) (x : Launch) : (s.setLaunch k x).queues = s.queues := rfl
@[simp] theorem setLaunch_links (s : State) (k : Nat) (x : Launch) : (s.setLaunch k x).links = s.links := rfl
@[simp] theorem setLaunch_accs (s : State) (k : Nat) (x : Launch) : (s.setLaunch k x).accs = s.accs := rfl
@[simp] theorem setLaunch_cmds (s : State) (k : Nat) (x : Launch) : (s.setLaunch k x).cmds = s.cmds := rfl
@[simp] theorem setLaunch_runs (s : State) (k : Nat) (x : Launch) : (s.setLaunch k x).runs = s.runs := rfl
@[simp] theorem setLaunch_acks (s : State) (k : Nat) (x : Launch) : (s.setLaunch k x).acks = s.acks := rfl
@[simp] theorem setLaunch_dev (s : State) (k : Nat) (x : Launch) : (s.setLaunch k x).dev = s.dev := rfl
@[simp] theorem setLaunch_focus (s : State) (k : Nat) (x : Launch) : (s.setLaunch k x).focus = s.focus := rfl
@[simp] theorem setLaunch_laneLast (s : State) (k : Nat) (x : Launch) : (s.setLaunch k x).laneLast = s.laneLast := rfl
@[simp] theorem setLaunch_cursor (s : State) (k : Nat) (x : Launch) : (s.setLaunch k x).cursor = s.cursor := rfl
@[simp] theorem setLaunch_sfocus (s : State) (k : Nat) (x : Launch) : (s.setLaunch k x).sfocus = s.sfocus := rfl
@[simp] theorem setLaunch_agenda (s : State) (k : Nat) (x : Launch) : (s.setLaunch k x).agenda = s.agenda := rfl
@[simp] theorem setLaunch_out (s : State) (k : Nat) (x : Launch) : (s.setLaunch k x).out = s.out := rfl
@[simp] theorem setLaunch_clk (s : State) (k : Nat) (x : Launch) : (s.setLaunch k x).clk = s.clk := rfl
@[simp] theorem setLaunch_nextId (s : State) (k : Nat) (x : Launch) : (s.setLaunch k x).nextId = s.nextId := rfl
@[simp] theorem setLaunch_tseq (s : State) (k : Nat) (x : Launch) : (s.setLaunch k x).tseq = s.tseq := rfl
@[simp] theorem setLaunch_fresh (s : State) (k : Nat) (x : Launch) : (s.setLaunch k x).fresh = s.fresh := rfl
@[simp] theorem setLaunch_fatal (s : State) (k : Nat) (x : Launch) : (s.setLaunch k x).fatal = s.fatal := rfl
@[simp] theorem setLaunch_closing (s : State) (k : Nat) (x : Launch) : (s.setLaunch k x).closing = s.closing := rfl
@[simp] theorem setLaunch_travel (s : State) (k : Nat) (x : Launch) : (s.setLaunch k x).travel = s.travel := rfl
@[simp] theorem setLaunch_bank (s : State) (k : Nat) (x : Launch) : (s.setLaunch k x).bank = s.bank := rfl
@[simp] theorem setLaunch_emptied (s : State) (k : Nat) (x : Launch) : (s.setLaunch k x).emptied = s.emptied := rfl
@[simp] theorem setLaunch_thread (s : State) (k wk2 t2 : Nat) (x : Launch) : (s.setLaunch k x).thread wk2 t2 = s.thread wk2 t2 := rfl
@[simp] theorem setLaunch_warp (s : State) (k k2 : Nat) (x : Launch) : (s.setLaunch k x).warp k2 = s.warp k2 := rfl
@[simp] theorem setLaunch_block (s : State) (k k2 : Nat) (x : Launch) : (s.setLaunch k x).block k2 = s.block k2 := rfl
@[simp] theorem setLaunch_core (s : State) (k k2 : Nat) (x : Launch) : (s.setLaunch k x).core k2 = s.core k2 := rfl
@[simp] theorem setLaunch_die (s : State) (k k2 : Nat) (x : Launch) : (s.setLaunch k x).die k2 = s.die k2 := rfl
@[simp] theorem setLaunch_port (s : State) (k k2 : Nat) (x : Launch) : (s.setLaunch k x).port k2 = s.port k2 := rfl
@[simp] theorem setLaunch_sched (s : State) (k k2 : Nat) (x : Launch) : (s.setLaunch k x).sched k2 = s.sched k2 := rfl
@[simp] theorem setLaunch_queue (s : State) (k k2 : Nat) (x : Launch) : (s.setLaunch k x).queue k2 = s.queue k2 := rfl
@[simp] theorem setLaunch_acc (s : State) (k k2 : Nat) (x : Launch) : (s.setLaunch k x).acc k2 = s.acc k2 := rfl
@[simp] theorem setLaunch_cmd (s : State) (k k2 : Nat) (x : Launch) : (s.setLaunch k x).cmd k2 = s.cmd k2 := rfl
@[simp] theorem setLaunch_run (s : State) (k k2 : Nat) (x : Launch) : (s.setLaunch k x).run k2 = s.run k2 := rfl

/-! ### `setCore` -/

@[simp] theorem setCore_mem (s : State) (k : Nat) (x : Core) : (s.setCore k x).mem = s.mem := rfl
@[simp] theorem setCore_bad (s : State) (k : Nat) (x : Core) : (s.setCore k x).bad = s.bad := rfl
@[simp] theorem setCore_threads (s : State) (k : Nat) (x : Core) : (s.setCore k x).threads = s.threads := rfl
@[simp] theorem setCore_warps (s : State) (k : Nat) (x : Core) : (s.setCore k x).warps = s.warps := rfl
@[simp] theorem setCore_blocks (s : State) (k : Nat) (x : Core) : (s.setCore k x).blocks = s.blocks := rfl
@[simp] theorem setCore_launches (s : State) (k : Nat) (x : Core) : (s.setCore k x).launches = s.launches := rfl
@[simp] theorem setCore_diesT (s : State) (k : Nat) (x : Core) : (s.setCore k x).diesT = s.diesT := rfl
@[simp] theorem setCore_ports (s : State) (k : Nat) (x : Core) : (s.setCore k x).ports = s.ports := rfl
@[simp] theorem setCore_scheds (s : State) (k : Nat) (x : Core) : (s.setCore k x).scheds = s.scheds := rfl
@[simp] theorem setCore_queues (s : State) (k : Nat) (x : Core) : (s.setCore k x).queues = s.queues := rfl
@[simp] theorem setCore_links (s : State) (k : Nat) (x : Core) : (s.setCore k x).links = s.links := rfl
@[simp] theorem setCore_accs (s : State) (k : Nat) (x : Core) : (s.setCore k x).accs = s.accs := rfl
@[simp] theorem setCore_cmds (s : State) (k : Nat) (x : Core) : (s.setCore k x).cmds = s.cmds := rfl
@[simp] theorem setCore_runs (s : State) (k : Nat) (x : Core) : (s.setCore k x).runs = s.runs := rfl
@[simp] theorem setCore_acks (s : State) (k : Nat) (x : Core) : (s.setCore k x).acks = s.acks := rfl
@[simp] theorem setCore_dev (s : State) (k : Nat) (x : Core) : (s.setCore k x).dev = s.dev := rfl
@[simp] theorem setCore_focus (s : State) (k : Nat) (x : Core) : (s.setCore k x).focus = s.focus := rfl
@[simp] theorem setCore_laneLast (s : State) (k : Nat) (x : Core) : (s.setCore k x).laneLast = s.laneLast := rfl
@[simp] theorem setCore_cursor (s : State) (k : Nat) (x : Core) : (s.setCore k x).cursor = s.cursor := rfl
@[simp] theorem setCore_sfocus (s : State) (k : Nat) (x : Core) : (s.setCore k x).sfocus = s.sfocus := rfl
@[simp] theorem setCore_agenda (s : State) (k : Nat) (x : Core) : (s.setCore k x).agenda = s.agenda := rfl
@[simp] theorem setCore_out (s : State) (k : Nat) (x : Core) : (s.setCore k x).out = s.out := rfl
@[simp] theorem setCore_clk (s : State) (k : Nat) (x : Core) : (s.setCore k x).clk = s.clk := rfl
@[simp] theorem setCore_nextId (s : State) (k : Nat) (x : Core) : (s.setCore k x).nextId = s.nextId := rfl
@[simp] theorem setCore_tseq (s : State) (k : Nat) (x : Core) : (s.setCore k x).tseq = s.tseq := rfl
@[simp] theorem setCore_fresh (s : State) (k : Nat) (x : Core) : (s.setCore k x).fresh = s.fresh := rfl
@[simp] theorem setCore_fatal (s : State) (k : Nat) (x : Core) : (s.setCore k x).fatal = s.fatal := rfl
@[simp] theorem setCore_closing (s : State) (k : Nat) (x : Core) : (s.setCore k x).closing = s.closing := rfl
@[simp] theorem setCore_travel (s : State) (k : Nat) (x : Core) : (s.setCore k x).travel = s.travel := rfl
@[simp] theorem setCore_bank (s : State) (k : Nat) (x : Core) : (s.setCore k x).bank = s.bank := rfl
@[simp] theorem setCore_emptied (s : State) (k : Nat) (x : Core) : (s.setCore k x).emptied = s.emptied := rfl
@[simp] theorem setCore_thread (s : State) (k wk2 t2 : Nat) (x : Core) : (s.setCore k x).thread wk2 t2 = s.thread wk2 t2 := rfl
@[simp] theorem setCore_warp (s : State) (k k2 : Nat) (x : Core) : (s.setCore k x).warp k2 = s.warp k2 := rfl
@[simp] theorem setCore_block (s : State) (k k2 : Nat) (x : Core) : (s.setCore k x).block k2 = s.block k2 := rfl
@[simp] theorem setCore_launch (s : State) (k k2 : Nat) (x : Core) : (s.setCore k x).launch k2 = s.launch k2 := rfl
@[simp] theorem setCore_die (s : State) (k k2 : Nat) (x : Core) : (s.setCore k x).die k2 = s.die k2 := rfl
@[simp] theorem setCore_port (s : State) (k k2 : Nat) (x : Core) : (s.setCore k x).port k2 = s.port k2 := rfl
@[simp] theorem setCore_sched (s : State) (k k2 : Nat) (x : Core) : (s.setCore k x).sched k2 = s.sched k2 := rfl
@[simp] theorem setCore_queue (s : State) (k k2 : Nat) (x : Core) : (s.setCore k x).queue k2 = s.queue k2 := rfl
@[simp] theorem setCore_acc (s : State) (k k2 : Nat) (x : Core) : (s.setCore k x).acc k2 = s.acc k2 := rfl
@[simp] theorem setCore_cmd (s : State) (k k2 : Nat) (x : Core) : (s.setCore k x).cmd k2 = s.cmd k2 := rfl
@[simp] theorem setCore_run (s : State) (k k2 : Nat) (x : Core) : (s.setCore k x).run k2 = s.run k2 := rfl

/-! ### `setDie` -/

@[simp] theorem setDie_mem (s : State) (k : Nat) (x : Die) : (s.setDie k x).mem = s.mem := rfl
@[simp] theorem setDie_bad (s : State) (k : Nat) (x : Die) : (s.setDie k x).bad = s.bad := rfl
@[simp] theorem setDie_threads (s : State) (k : Nat) (x : Die) : (s.setDie k x).threads = s.threads := rfl
@[simp] theorem setDie_warps (s : State) (k : Nat) (x : Die) : (s.setDie k x).warps = s.warps := rfl
@[simp] theorem setDie_blocks (s : State) (k : Nat) (x : Die) : (s.setDie k x).blocks = s.blocks := rfl
@[simp] theorem setDie_launches (s : State) (k : Nat) (x : Die) : (s.setDie k x).launches = s.launches := rfl
@[simp] theorem setDie_cores (s : State) (k : Nat) (x : Die) : (s.setDie k x).cores = s.cores := rfl
@[simp] theorem setDie_ports (s : State) (k : Nat) (x : Die) : (s.setDie k x).ports = s.ports := rfl
@[simp] theorem setDie_scheds (s : State) (k : Nat) (x : Die) : (s.setDie k x).scheds = s.scheds := rfl
@[simp] theorem setDie_queues (s : State) (k : Nat) (x : Die) : (s.setDie k x).queues = s.queues := rfl
@[simp] theorem setDie_links (s : State) (k : Nat) (x : Die) : (s.setDie k x).links = s.links := rfl
@[simp] theorem setDie_accs (s : State) (k : Nat) (x : Die) : (s.setDie k x).accs = s.accs := rfl
@[simp] theorem setDie_cmds (s : State) (k : Nat) (x : Die) : (s.setDie k x).cmds = s.cmds := rfl
@[simp] theorem setDie_runs (s : State) (k : Nat) (x : Die) : (s.setDie k x).runs = s.runs := rfl
@[simp] theorem setDie_acks (s : State) (k : Nat) (x : Die) : (s.setDie k x).acks = s.acks := rfl
@[simp] theorem setDie_dev (s : State) (k : Nat) (x : Die) : (s.setDie k x).dev = s.dev := rfl
@[simp] theorem setDie_focus (s : State) (k : Nat) (x : Die) : (s.setDie k x).focus = s.focus := rfl
@[simp] theorem setDie_laneLast (s : State) (k : Nat) (x : Die) : (s.setDie k x).laneLast = s.laneLast := rfl
@[simp] theorem setDie_cursor (s : State) (k : Nat) (x : Die) : (s.setDie k x).cursor = s.cursor := rfl
@[simp] theorem setDie_sfocus (s : State) (k : Nat) (x : Die) : (s.setDie k x).sfocus = s.sfocus := rfl
@[simp] theorem setDie_agenda (s : State) (k : Nat) (x : Die) : (s.setDie k x).agenda = s.agenda := rfl
@[simp] theorem setDie_out (s : State) (k : Nat) (x : Die) : (s.setDie k x).out = s.out := rfl
@[simp] theorem setDie_clk (s : State) (k : Nat) (x : Die) : (s.setDie k x).clk = s.clk := rfl
@[simp] theorem setDie_nextId (s : State) (k : Nat) (x : Die) : (s.setDie k x).nextId = s.nextId := rfl
@[simp] theorem setDie_tseq (s : State) (k : Nat) (x : Die) : (s.setDie k x).tseq = s.tseq := rfl
@[simp] theorem setDie_fresh (s : State) (k : Nat) (x : Die) : (s.setDie k x).fresh = s.fresh := rfl
@[simp] theorem setDie_fatal (s : State) (k : Nat) (x : Die) : (s.setDie k x).fatal = s.fatal := rfl
@[simp] theorem setDie_closing (s : State) (k : Nat) (x : Die) : (s.setDie k x).closing = s.closing := rfl
@[simp] theorem setDie_travel (s : State) (k : Nat) (x : Die) : (s.setDie k x).travel = s.travel := rfl
@[simp] theorem setDie_bank (s : State) (k : Nat) (x : Die) : (s.setDie k x).bank = s.bank := rfl
@[simp] theorem setDie_emptied (s : State) (k : Nat) (x : Die) : (s.setDie k x).emptied = s.emptied := rfl
@[simp] theorem setDie_thread (s : State) (k wk2 t2 : Nat) (x : Die) : (s.setDie k x).thread wk2 t2 = s.thread wk2 t2 := rfl
@[simp] theorem setDie_warp (s : State) (k k2 : Nat) (x : Die) : (s.setDie k x).warp k2 = s.warp k2 := rfl
@[simp] theorem setDie_block (s : State) (k k2 : Nat) (x : Die) : (s.setDie k x).block k2 = s.block k2 := rfl
@[simp] theorem setDie_launch (s : State) (k k2 : Nat) (x : Die) : (s.setDie k x).launch k2 = s.launch k2 := rfl
@[simp] theorem setDie_core (s : State) (k k2 : Nat) (x : Die) : (s.setDie k x).core k2 = s.core k2 := rfl
@[simp] theorem setDie_port (s : State) (k k2 : Nat) (x : Die) : (s.setDie k x).port k2 = s.port k2 := rfl
@[simp] theorem setDie_sched (s : State) (k k2 : Nat) (x : Die) : (s.setDie k x).sched k2 = s.sched k2 := rfl
@[simp] theorem setDie_queue (s : State) (k k2 : Nat) (x : Die) : (s.setDie k x).queue k2 = s.queue k2 := rfl
@[simp] theorem setDie_acc (s : State) (k k2 : Nat) (x : Die) : (s.setDie k x).acc k2 = s.acc k2 := rfl
@[simp] theorem setDie_cmd (s : State) (k k2 : Nat) (x : Die) : (s.setDie k x).cmd k2 = s.cmd k2 := rfl
@[simp] theorem setDie_run (s : State) (k k2 : Nat) (x : Die) : (s.setDie k x).run k2 = s.run k2 := rfl

/-! ### `setPort` -/

@[simp] theorem setPort_mem (s : State) (k : Nat) (x : Port) : (s.setPort k x).mem = s.mem := rfl
@[simp] theorem setPort_bad (s : State) (k : Nat) (x : Port) : (s.setPort k x).bad = s.bad := rfl
@[simp] theorem setPort_threads (s : State) (k : Nat) (x : Port) : (s.setPort k x).threads = s.threads := rfl
@[simp] theorem setPort_warps (s : State) (k : Nat) (x : Port) : (s.setPort k x).warps = s.warps := rfl
@[simp] theorem setPort_blocks (s : State) (k : Nat) (x : Port) : (s.setPort k x).blocks = s.blocks := rfl
@[simp] theorem setPort_launches (s : State) (k : Nat) (x : Port) : (s.setPort k x).launches = s.launches := rfl
@[simp] theorem setPort_cores (s : State) (k : Nat) (x : Port) : (s.setPort k x).cores = s.cores := rfl
@[simp] theorem setPort_diesT (s : State) (k : Nat) (x : Port) : (s.setPort k x).diesT = s.diesT := rfl
@[simp] theorem setPort_scheds (s : State) (k : Nat) (x : Port) : (s.setPort k x).scheds = s.scheds := rfl
@[simp] theorem setPort_queues (s : State) (k : Nat) (x : Port) : (s.setPort k x).queues = s.queues := rfl
@[simp] theorem setPort_links (s : State) (k : Nat) (x : Port) : (s.setPort k x).links = s.links := rfl
@[simp] theorem setPort_accs (s : State) (k : Nat) (x : Port) : (s.setPort k x).accs = s.accs := rfl
@[simp] theorem setPort_cmds (s : State) (k : Nat) (x : Port) : (s.setPort k x).cmds = s.cmds := rfl
@[simp] theorem setPort_runs (s : State) (k : Nat) (x : Port) : (s.setPort k x).runs = s.runs := rfl
@[simp] theorem setPort_acks (s : State) (k : Nat) (x : Port) : (s.setPort k x).acks = s.acks := rfl
@[simp] theorem setPort_dev (s : State) (k : Nat) (x : Port) : (s.setPort k x).dev = s.dev := rfl
@[simp] theorem setPort_focus (s : State) (k : Nat) (x : Port) : (s.setPort k x).focus = s.focus := rfl
@[simp] theorem setPort_laneLast (s : State) (k : Nat) (x : Port) : (s.setPort k x).laneLast = s.laneLast := rfl
@[simp] theorem setPort_cursor (s : State) (k : Nat) (x : Port) : (s.setPort k x).cursor = s.cursor := rfl
@[simp] theorem setPort_sfocus (s : State) (k : Nat) (x : Port) : (s.setPort k x).sfocus = s.sfocus := rfl
@[simp] theorem setPort_agenda (s : State) (k : Nat) (x : Port) : (s.setPort k x).agenda = s.agenda := rfl
@[simp] theorem setPort_out (s : State) (k : Nat) (x : Port) : (s.setPort k x).out = s.out := rfl
@[simp] theorem setPort_clk (s : State) (k : Nat) (x : Port) : (s.setPort k x).clk = s.clk := rfl
@[simp] theorem setPort_nextId (s : State) (k : Nat) (x : Port) : (s.setPort k x).nextId = s.nextId := rfl
@[simp] theorem setPort_tseq (s : State) (k : Nat) (x : Port) : (s.setPort k x).tseq = s.tseq := rfl
@[simp] theorem setPort_fresh (s : State) (k : Nat) (x : Port) : (s.setPort k x).fresh = s.fresh := rfl
@[simp] theorem setPort_fatal (s : State) (k : Nat) (x : Port) : (s.setPort k x).fatal = s.fatal := rfl
@[simp] theorem setPort_closing (s : State) (k : Nat) (x : Port) : (s.setPort k x).closing = s.closing := rfl
@[simp] theorem setPort_travel (s : State) (k : Nat) (x : Port) : (s.setPort k x).travel = s.travel := rfl
@[simp] theorem setPort_bank (s : State) (k : Nat) (x : Port) : (s.setPort k x).bank = s.bank := rfl
@[simp] theorem setPort_emptied (s : State) (k : Nat) (x : Port) : (s.setPort k x).emptied = s.emptied := rfl
@[simp] theorem setPort_thread (s : State) (k wk2 t2 : Nat) (x : Port) : (s.setPort k x).thread wk2 t2 = s.thread wk2 t2 := rfl
@[simp] theorem setPort_warp (s : State) (k k2 : Nat) (x : Port) : (s.setPort k x).warp k2 = s.warp k2 := rfl
@[simp] theorem setPort_block (s : State) (k k2 : Nat) (x : Port) : (s.setPort k x).block k2 = s.block k2 := rfl
@[simp] theorem setPort_launch (s : State) (k k2 : Nat) (x : Port) : (s.setPort k x).launch k2 = s.launch k2 := rfl
@[simp] theorem setPort_core (s : State) (k k2 : Nat) (x : Port) : (s.setPort k x).core k2 = s.core k2 := rfl
@[simp] theorem setPort_die (s : State) (k k2 : Nat) (x : Port) : (s.setPort k x).die k2 = s.die k2 := rfl
@[simp] theorem setPort_sched (s : State) (k k2 : Nat) (x : Port) : (s.setPort k x).sched k2 = s.sched k2 := rfl
@[simp] theorem setPort_queue (s : State) (k k2 : Nat) (x : Port) : (s.setPort k x).queue k2 = s.queue k2 := rfl
@[simp] theorem setPort_acc (s : State) (k k2 : Nat) (x : Port) : (s.setPort k x).acc k2 = s.acc k2 := rfl
@[simp] theorem setPort_cmd (s : State) (k k2 : Nat) (x : Port) : (s.setPort k x).cmd k2 = s.cmd k2 := rfl
@[simp] theorem setPort_run (s : State) (k k2 : Nat) (x : Port) : (s.setPort k x).run k2 = s.run k2 := rfl

/-! ### `setSched` -/

@[simp] theorem setSched_mem (s : State) (k : Nat) (x : Sched) : (s.setSched k x).mem = s.mem := rfl
@[simp] theorem setSched_bad (s : State) (k : Nat) (x : Sched) : (s.setSched k x).bad = s.bad := rfl
@[simp] theorem setSched_threads (s : State) (k : Nat) (x : Sched) : (s.setSched k x).threads = s.threads := rfl
@[simp] theorem setSched_warps (s : State) (k : Nat) (x : Sched) : (s.setSched k x).warps = s.warps := rfl
@[simp] theorem setSched_blocks (s : State) (k : Nat) (x : Sched) : (s.setSched k x).blocks = s.blocks := rfl
@[simp] theorem setSched_launches (s : State) (k : Nat) (x : Sched) : (s.setSched k x).launches = s.launches := rfl
@[simp] theorem setSched_cores (s : State) (k : Nat) (x : Sched) : (s.setSched k x).cores = s.cores := rfl
@[simp] theorem setSched_diesT (s : State) (k : Nat) (x : Sched) : (s.setSched k x).diesT = s.diesT := rfl
@[simp] theorem setSched_ports (s : State) (k : Nat) (x : Sched) : (s.setSched k x).ports = s.ports := rfl
@[simp] theorem setSched_queues (s : State) (k : Nat) (x : Sched) : (s.setSched k x).queues = s.queues := rfl
@[simp] theorem setSched_links (s : State) (k : Nat) (x : Sched) : (s.setSched k x).links = s.links := rfl
@[simp] theorem setSched_accs (s : State) (k : Nat) (x : Sched) : (s.setSched k x).accs = s.accs := rfl
@[simp] theorem setSched_cmds (s : State) (k : Nat) (x : Sched) : (s.setSched k x).cmds = s.cmds := rfl
@[simp] theorem setSched_runs (s : State) (k : Nat) (x : Sched) : (s.setSched k x).runs = s.runs := rfl
@[simp] theorem setSched_acks (s : State) (k : Nat) (x : Sched) : (s.setSched k x).acks = s.acks := rfl
@[simp] theorem setSched_dev (s : State) (k : Nat) (x : Sched) : (s.setSched k x).dev = s.dev := rfl
@[simp] theorem setSched_focus (s : State) (k : Nat) (x : Sched) : (s.setSched k x).focus = s.focus := rfl
@[simp] theorem setSched_laneLast (s : State) (k : Nat) (x : Sched) : (s.setSched k x).laneLast = s.laneLast := rfl
@[simp] theorem setSched_cursor (s : State) (k : Nat) (x : Sched) : (s.setSched k x).cursor = s.cursor := rfl
@[simp] theorem setSched_sfocus (s : State) (k : Nat) (x : Sched) : (s.setSched k x).sfocus = s.sfocus := rfl
@[simp] theorem setSched_agenda (s : State) (k : Nat) (x : Sched) : (s.setSched k x).agenda = s.agenda := rfl
@[simp] theorem setSched_out (s : State) (k : Nat) (x : Sched) : (s.setSched k x).out = s.out := rfl
@[simp] theorem setSched_clk (s : State) (k : Nat) (x : Sched) : (s.setSched k x).clk = s.clk := rfl
@[simp] theorem setSched_nextId (s : State) (k : Nat) (x : Sched) : (s.setSched k x).nextId = s.nextId := rfl
@[simp] theorem setSched_tseq (s : State) (k : Nat) (x : Sched) : (s.setSched k x).tseq = s.tseq := rfl
@[simp] theorem setSched_fresh (s : State) (k : Nat) (x : Sched) : (s.setSched k x).fresh = s.fresh := rfl
@[simp] theorem setSched_fatal (s : State) (k : Nat) (x : Sched) : (s.setSched k x).fatal = s.fatal := rfl
@[simp] theorem setSched_closing (s : State) (k : Nat) (x : Sched) : (s.setSched k x).closing = s.closing := rfl
@[simp] theorem setSched_travel (s : State) (k : Nat) (x : Sched) : (s.setSched k x).travel = s.travel := rfl
@[simp] theorem setSched_bank (s : State) (k : Nat) (x : Sched) : (s.setSched k x).bank = s.bank := rfl
@[simp] theorem setSched_emptied (s : State) (k : Nat) (x : Sched) : (s.setSched k x).emptied = s.emptied := rfl
@[simp] theorem setSched_thread (s : State) (k wk2 t2 : Nat) (x : Sched) : (s.setSched k x).thread wk2 t2 = s.thread wk2 t2 := rfl
@[simp] theorem setSched_warp (s : State) (k k2 : Nat) (x : Sched) : (s.setSched k x).warp k2 = s.warp k2 := rfl
@[simp] theorem setSched_block (s : State) (k k2 : Nat) (x : Sched) : (s.setSched k x).block k2 = s.block k2 := rfl
@[simp] theorem setSched_launch (s : State) (k k2 : Nat) (x : Sched) : (s.setSched k x).launch k2 = s.launch k2 := rfl
@[simp] theorem setSched_core (s : State) (k k2 : Nat) (x : Sched) : (s.setSched k x).core k2 = s.core k2 := rfl
@[simp] theorem setSched_die (s : State) (k k2 : Nat) (x : Sched) : (s.setSched k x).die k2 = s.die k2 := rfl
@[simp] theorem setSched_port (s : State) (k k2 : Nat) (x : Sched) : (s.setSched k x).port k2 = s.port k2 := rfl
@[simp] theorem setSched_queue (s : State) (k k2 : Nat) (x : Sched) : (s.setSched k x).queue k2 = s.queue k2 := rfl
@[simp] theorem setSched_acc (s : State) (k k2 : Nat) (x : Sched) : (s.setSched k x).acc k2 = s.acc k2 := rfl
@[simp] theorem setSched_cmd (s : State) (k k2 : Nat) (x : Sched) : (s.setSched k x).cmd k2 = s.cmd k2 := rfl
@[simp] theorem setSched_run (s : State) (k k2 : Nat) (x : Sched) : (s.setSched k x).run k2 = s.run k2 := rfl

/-! ### `setQueue` -/

@[simp] theorem setQueue_mem (s : State) (k : Nat) (x : WQueue) : (s.setQueue k x).mem = s.mem := rfl
@[simp] theorem setQueue_bad (s : State) (k : Nat) (x : WQueue) : (s.setQueue k x).bad = s.bad := rfl
@[simp] theorem setQueue_threads (s : State) (k : Nat) (x : WQueue) : (s.setQueue k x).threads = s.threads := rfl
@[simp] theorem setQueue_warps (s : State) (k : Nat) (x : WQueue) : (s.setQueue k x).warps = s.warps := rfl
@[simp] theorem setQueue_blocks (s : State) (k : Nat) (x : WQueue) : (s.setQueue k x).blocks = s.blocks := rfl
@[simp] theorem setQueue_launches (s : State) (k : Nat) (x : WQueue) : (s.setQueue k x).launches = s.launches := rfl
@[simp] theorem setQueue_cores (s : State) (k : Nat) (x : WQueue) : (s.setQueue k x).cores = s.cores := rfl
@[simp] theorem setQueue_diesT (s : State) (k : Nat) (x : WQueue) : (s.setQueue k x).diesT = s.diesT := rfl
@[simp] theorem setQueue_ports (s : State) (k : Nat) (x : WQueue) : (s.setQueue k x).ports = s.ports := rfl
@[simp] theorem setQueue_scheds (s : State) (k : Nat) (x : WQueue) : (s.setQueue k x).scheds = s.scheds := rfl
@[simp] theorem setQueue_links (s : State) (k : Nat) (x : WQueue) : (s.setQueue k x).links = s.links := rfl
@[simp] theorem setQueue_accs (s : State) (k : Nat) (x : WQueue) : (s.setQueue k x).accs = s.accs := rfl
@[simp] theorem setQueue_cmds (s : State) (k : Nat) (x : WQueue) : (s.setQueue k x).cmds = s.cmds := rfl
@[simp] theorem setQueue_runs (s : State) (k : Nat) (x : WQueue) : (s.setQueue k x).runs = s.runs := rfl
@[simp] theorem setQueue_acks (s : State) (k : Nat) (x : WQueue) : (s.setQueue k x).acks = s.acks := rfl
@[simp] theorem setQueue_dev (s : State) (k : Nat) (x : WQueue) : (s.setQueue k x).dev = s.dev := rfl
@[simp] theorem setQueue_focus (s : State) (k : Nat) (x : WQueue) : (s.setQueue k x).focus = s.focus := rfl
@[simp] theorem setQueue_laneLast (s : State) (k : Nat) (x : WQueue) : (s.setQueue k x).laneLast = s.laneLast := rfl
@[simp] theorem setQueue_cursor (s : State) (k : Nat) (x : WQueue) : (s.setQueue k x).cursor = s.cursor := rfl
@[simp] theorem setQueue_sfocus (s : State) (k : Nat) (x : WQueue) : (s.setQueue k x).sfocus = s.sfocus := rfl
@[simp] theorem setQueue_agenda (s : State) (k : Nat) (x : WQueue) : (s.setQueue k x).agenda = s.agenda := rfl
@[simp] theorem setQueue_out (s : State) (k : Nat) (x : WQueue) : (s.setQueue k x).out = s.out := rfl
@[simp] theorem setQueue_clk (s : State) (k : Nat) (x : WQueue) : (s.setQueue k x).clk = s.clk := rfl
@[simp] theorem setQueue_nextId (s : State) (k : Nat) (x : WQueue) : (s.setQueue k x).nextId = s.nextId := rfl
@[simp] theorem setQueue_tseq (s : State) (k : Nat) (x : WQueue) : (s.setQueue k x).tseq = s.tseq := rfl
@[simp] theorem setQueue_fresh (s : State) (k : Nat) (x : WQueue) : (s.setQueue k x).fresh = s.fresh := rfl
@[simp] theorem setQueue_fatal (s : State) (k : Nat) (x : WQueue) : (s.setQueue k x).fatal = s.fatal := rfl
@[simp] theorem setQueue_closing (s : State) (k : Nat) (x : WQueue) : (s.setQueue k x).closing = s.closing := rfl
@[simp] theorem setQueue_travel (s : State) (k : Nat) (x : WQueue) : (s.setQueue k x).travel = s.travel := rfl
@[simp] theorem setQueue_bank (s : State) (k : Nat) (x : WQueue) : (s.setQueue k x).bank = s.bank := rfl
@[simp] theorem setQueue_emptied (s : State) (k : Nat) (x : WQueue) : (s.setQueue k x).emptied = s.emptied := rfl
@[simp] theorem setQueue_thread (s : State) (k wk2 t2 : Nat) (x : WQueue) : (s.setQueue k x).thread wk2 t2 = s.thread wk2 t2 := rfl
@[simp] theorem setQueue_warp (s : State) (k k2 : Nat) (x : WQueue) : (s.setQueue k x).warp k2 = s.warp k2 := rfl
@[simp] theorem setQueue_block (s : State) (k k2 : Nat) (x : WQueue) : (s.setQueue k x).block k2 = s.block k2 := rfl
@[simp] theorem setQueue_launch (s : State) (k k2 : Nat) (x : WQueue) : (s.setQueue k x).launch k2 = s.launch k2 := rfl
@[simp] theorem setQueue_core (s : State) (k k2 : Nat) (x : WQueue) : (s.setQueue k x).core k2 = s.core k2 := rfl
@[simp] theorem setQueue_die (s : State) (k k2 : Nat) (x : WQueue) : (s.setQueue k x).die k2 = s.die k2 := rfl
@[simp] theorem setQueue_port (s : State) (k k2 : Nat) (x : WQueue) : (s.setQueue k x).port k2 = s.port k2 := rfl
@[simp] theorem setQueue_sched (s : State) (k k2 : Nat) (x : WQueue) : (s.setQueue k x).sched k2 = s.sched k2 := rfl
@[simp] theorem setQueue_acc (s : State) (k k2 : Nat) (x : WQueue) : (s.setQueue k x).acc k2 = s.acc k2 := rfl
@[simp] theorem setQueue_cmd (s : State) (k k2 : Nat) (x : WQueue) : (s.setQueue k x).cmd k2 = s.cmd k2 := rfl
@[simp] theorem setQueue_run (s : State) (k k2 : Nat) (x : WQueue) : (s.setQueue k x).run k2 = s.run k2 := rfl

/-! ### `setAcc` -/

@[simp] theorem setAcc_mem (s : State) (k : Nat) (x : Option Access) : (s.setAcc k x).mem = s.mem := rfl
@[simp] theorem setAcc_bad (s : State) (k : Nat) (x : Option Access) : (s.setAcc k x).bad = s.bad := rfl
@[simp] theorem setAcc_threads (s : State) (k : Nat) (x : Option Access) : (s.setAcc k x).threads = s.threads := rfl
@[simp] theorem setAcc_warps (s : State) (k : Nat) (x : Option Access) : (s.setAcc k x).warps = s.warps := rfl
@[simp] theorem setAcc_blocks (s : State) (k : Nat) (x : Option Access) : (s.setAcc k x).blocks = s.blocks := rfl
@[simp] theorem setAcc_launches (s : State) (k : Nat) (x : Option Access) : (s.setAcc k x).launches = s.launches := rfl
@[simp] theorem setAcc_cores (s : State) (k : Nat) (x : Option Access) : (s.setAcc k x).cores = s.cores := rfl
@[simp] theorem setAcc_diesT (s : State) (k : Nat) (x : Option Access) : (s.setAcc k x).diesT = s.diesT := rfl
@[simp] theorem setAcc_ports (s : State) (k : Nat) (x : Option Access) : (s.setAcc k x).ports = s.ports := rfl
@[simp] theorem setAcc_scheds (s : State) (k : Nat) (x : Option Access) : (s.setAcc k x).scheds = s.scheds := rfl
@[simp] theorem setAcc_queues (s : State) (k : Nat) (x : Option Access) : (s.setAcc k x).queues = s.queues := rfl
@[simp] theorem setAcc_links (s : State) (k : Nat) (x : Option Access) : (s.setAcc k x).links = s.links := rfl
@[simp] theorem setAcc_cmds (s : State) (k : Nat) (x : Option Access) : (s.setAcc k x).cmds = s.cmds := rfl
@[simp] theorem setAcc_runs (s : State) (k : Nat) (x : Option Access) : (s.setAcc k x).runs = s.runs := rfl
@[simp] theorem setAcc_acks (s : State) (k : Nat) (x : Option Access) : (s.setAcc k x).acks = s.acks := rfl
@[simp] theorem setAcc_dev (s : State) (k : Nat) (x : Option Access) : (s.setAcc k x).dev = s.dev := rfl
@[simp] theorem setAcc_focus (s : State) (k : Nat) (x : Option Access) : (s.setAcc k x).focus = s.focus := rfl
@[simp] theorem setAcc_laneLast (s : State) (k : Nat) (x : Option Access) : (s.setAcc k x).laneLast = s.laneLast := rfl
@[simp] theorem setAcc_cursor (s : State) (k : Nat) (x : Option Access) : (s.setAcc k x).cursor = s.cursor := rfl
@[simp] theorem setAcc_sfocus (s : State) (k : Nat) (x : Option Access) : (s.setAcc k x).sfocus = s.sfocus := rfl
@[simp] theorem setAcc_agenda (s : State) (k : Nat) (x : Option Access) : (s.setAcc k x).agenda = s.agenda := rfl
@[simp] theorem setAcc_out (s : State) (k : Nat) (x : Option Access) : (s.setAcc k x).out = s.out := rfl
@[simp] theorem setAcc_clk (s : State) (k : Nat) (x : Option Access) : (s.setAcc k x).clk = s.clk := rfl
@[simp] theorem setAcc_nextId (s : State) (k : Nat) (x : Option Access) : (s.setAcc k x).nextId = s.nextId := rfl
@[simp] theorem setAcc_tseq (s : State) (k : Nat) (x : Option Access) : (s.setAcc k x).tseq = s.tseq := rfl
@[simp] theorem setAcc_fresh (s : State) (k : Nat) (x : Option Access) : (s.setAcc k x).fresh = s.fresh := rfl
@[simp] theorem setAcc_fatal (s : State) (k : Nat) (x : Option Access) : (s.setAcc k x).fatal = s.fatal := rfl
@[simp] theorem setAcc_closing (s : State) (k : Nat) (x : Option Access) : (s.setAcc k x).closing = s.closing := rfl
@[simp] theorem setAcc_travel (s : State) (k : Nat) (x : Option Access) : (s.setAcc k x).travel = s.travel := rfl
@[simp] theorem setAcc_bank (s : State) (k : Nat) (x : Option Access) : (s.setAcc k x).bank = s.bank := rfl
@[simp] theorem setAcc_emptied (s : State) (k : Nat) (x : Option Access) : (s.setAcc k x).emptied = s.emptied := rfl
@[simp] theorem setAcc_thread (s : State) (k wk2 t2 : Nat) (x : Option Access) : (s.setAcc k x).thread wk2 t2 = s.thread wk2 t2 := rfl
@[simp] theorem setAcc_warp (s : State) (k k2 : Nat) (x : Option Access) : (s.setAcc k x).warp k2 = s.warp k2 := rfl
@[simp] theorem setAcc_block (s : State) (k k2 : Nat) (x : Option Access) : (s.setAcc k x).block k2 = s.block k2 := rfl
@[simp] theorem setAcc_launch (s : State) (k k2 : Nat) (x : Option Access) : (s.setAcc k x).launch k2 = s.launch k2 := rfl
@[simp] theorem setAcc_core (s : State) (k k2 : Nat) (x : Option Access) : (s.setAcc k x).core k2 = s.core k2 := rfl
@[simp] theorem setAcc_die (s : State) (k k2 : Nat) (x : Option Access) : (s.setAcc k x).die k2 = s.die k2 := rfl
@[simp] theorem setAcc_port (s : State) (k k2 : Nat) (x : Option Access) : (s.setAcc k x).port k2 = s.port k2 := rfl
@[simp] theorem setAcc_sched (s : State) (k k2 : Nat) (x : Option Access) : (s.setAcc k x).sched k2 = s.sched k2 := rfl
@[simp] theorem setAcc_queue (s : State) (k k2 : Nat) (x : Option Access) : (s.setAcc k x).queue k2 = s.queue k2 := rfl
@[simp] theorem setAcc_cmd (s : State) (k k2 : Nat) (x : Option Access) : (s.setAcc k x).cmd k2 = s.cmd k2 := rfl
@[simp] theorem setAcc_run (s : State) (k k2 : Nat) (x : Option Access) : (s.setAcc k x).run k2 = s.run k2 := rfl

/-! ### `setCmd` -/

@[simp] theorem setCmd_mem (s : State) (k : Nat) (x : Option Cmd) : (s.setCmd k x).mem = s.mem := rfl
@[simp] theorem setCmd_bad (s : State) (k : Nat) (x : Option Cmd) : (s.setCmd k x).bad = s.bad := rfl
@[simp] theorem setCmd_threads (s : State) (k : Nat) (x : Option Cmd) : (s.setCmd k x).threads = s.threads := rfl
@[simp] theorem setCmd_warps (s : State) (k : Nat) (x : Option Cmd) : (s.setCmd k x).warps = s.warps := rfl
@[simp] theorem setCmd_blocks (s : State) (k : Nat) (x : Option Cmd) : (s.setCmd k x).blocks = s.blocks := rfl
@[simp] theorem setCmd_launches (s : State) (k : Nat) (x : Option Cmd) : (s.setCmd k x).launches = s.launches := rfl
@[simp] theorem setCmd_cores (s : State) (k : Nat) (x : Option Cmd) : (s.setCmd k x).cores = s.cores := rfl
@[simp] theorem setCmd_diesT (s : State) (k : Nat) (x : Option Cmd) : (s.setCmd k x).diesT = s.diesT := rfl
@[simp] theorem setCmd_ports (s : State) (k : Nat) (x : Option Cmd) : (s.setCmd k x).ports = s.ports := rfl
@[simp] theorem setCmd_scheds (s : State) (k : Nat) (x : Option Cmd) : (s.setCmd k x).scheds = s.scheds := rfl
@[simp] theorem setCmd_queues (s : State) (k : Nat) (x : Option Cmd) : (s.setCmd k x).queues = s.queues := rfl
@[simp] theorem setCmd_links (s : State) (k : Nat) (x : Option Cmd) : (s.setCmd k x).links = s.links := rfl
@[simp] theorem setCmd_accs (s : State) (k : Nat) (x : Option Cmd) : (s.setCmd k x).accs = s.accs := rfl
@[simp] theorem setCmd_runs (s : State) (k : Nat) (x : Option Cmd) : (s.setCmd k x).runs = s.runs := rfl
@[simp] theorem setCmd_acks (s : State) (k : Nat) (x : Option Cmd) : (s.setCmd k x).acks = s.acks := rfl
@[simp] theorem setCmd_dev (s : State) (k : Nat) (x : Option Cmd) : (s.setCmd k x).dev = s.dev := rfl
@[simp] theorem setCmd_focus (s : State) (k : Nat) (x : Option Cmd) : (s.setCmd k x).focus = s.focus := rfl
@[simp] theorem setCmd_laneLast (s : State) (k : Nat) (x : Option Cmd) : (s.setCmd k x).laneLast = s.laneLast := rfl
@[simp] theorem setCmd_cursor (s : State) (k : Nat) (x : Option Cmd) : (s.setCmd k x).cursor = s.cursor := rfl
@[simp] theorem setCmd_sfocus (s : State) (k : Nat) (x : Option Cmd) : (s.setCmd k x).sfocus = s.sfocus := rfl
@[simp] theorem setCmd_agenda (s : State) (k : Nat) (x : Option Cmd) : (s.setCmd k x).agenda = s.agenda := rfl
@[simp] theorem setCmd_out (s : State) (k : Nat) (x : Option Cmd) : (s.setCmd k x).out = s.out := rfl
@[simp] theorem setCmd_clk (s : State) (k : Nat) (x : Option Cmd) : (s.setCmd k x).clk = s.clk := rfl
@[simp] theorem setCmd_nextId (s : State) (k : Nat) (x : Option Cmd) : (s.setCmd k x).nextId = s.nextId := rfl
@[simp] theorem setCmd_tseq (s : State) (k : Nat) (x : Option Cmd) : (s.setCmd k x).tseq = s.tseq := rfl
@[simp] theorem setCmd_fresh (s : State) (k : Nat) (x : Option Cmd) : (s.setCmd k x).fresh = s.fresh := rfl
@[simp] theorem setCmd_fatal (s : State) (k : Nat) (x : Option Cmd) : (s.setCmd k x).fatal = s.fatal := rfl
@[simp] theorem setCmd_closing (s : State) (k : Nat) (x : Option Cmd) : (s.setCmd k x).closing = s.closing := rfl
@[simp] theorem setCmd_travel (s : State) (k : Nat) (x : Option Cmd) : (s.setCmd k x).travel = s.travel := rfl
@[simp] theorem setCmd_bank (s : State) (k : Nat) (x : Option Cmd) : (s.setCmd k x).bank = s.bank := rfl
@[simp] theorem setCmd_emptied (s : State) (k : Nat) (x : Option Cmd) : (s.setCmd k x).emptied = s.emptied := rfl
@[simp] theorem setCmd_thread (s : State) (k wk2 t2 : Nat) (x : Option Cmd) : (s.setCmd k x).thread wk2 t2 = s.thread wk2 t2 := rfl
@[simp] theorem setCmd_warp (s : State) (k k2 : Nat) (x : Option Cmd) : (s.setCmd k x).warp k2 = s.warp k2 := rfl
@[simp] theorem setCmd_block (s : State) (k k2 : Nat) (x : Option Cmd) : (s.setCmd k x).block k2 = s.block k2 := rfl
@[simp] theorem setCmd_launch (s : State) (k k2 : Nat) (x : Option Cmd) : (s.setCmd k x).launch k2 = s.launch k2 := rfl
@[simp] theorem setCmd_core (s : State) (k k2 : Nat) (x : Option Cmd) : (s.setCmd k x).core k2 = s.core k2 := rfl
@[simp] theorem setCmd_die (s : State) (k k2 : Nat) (x : Option Cmd) : (s.setCmd k x).die k2 = s.die k2 := rfl
@[simp] theorem setCmd_port (s : State) (k k2 : Nat) (x : Option Cmd) : (s.setCmd k x).port k2 = s.port k2 := rfl
@[simp] theorem setCmd_sched (s : State) (k k2 : Nat) (x : Option Cmd) : (s.setCmd k x).sched k2 = s.sched k2 := rfl
@[simp] theorem setCmd_queue (s : State) (k k2 : Nat) (x : Option Cmd) : (s.setCmd k x).queue k2 = s.queue k2 := rfl
@[simp] theorem setCmd_acc (s : State) (k k2 : Nat) (x : Option Cmd) : (s.setCmd k x).acc k2 = s.acc k2 := rfl
@[simp] theorem setCmd_run (s : State) (k k2 : Nat) (x : Option Cmd) : (s.setCmd k x).run k2 = s.run k2 := rfl

/-! ### `setRun` -/

@[simp] theorem setRun_mem (s : State) (k : Nat) (x : Option Run) : (s.setRun k x).mem = s.mem := rfl
@[simp] theorem setRun_bad (s : State) (k : Nat) (x : Option Run) : (s.setRun k x).bad = s.bad := rfl
@[simp] theorem setRun_threads (s : State) (k : Nat) (x : Option Run) : (s.setRun k x).threads = s.threads := rfl
@[simp] theorem setRun_warps (s : State) (k : Nat) (x : Option Run) : (s.setRun k x).warps = s.warps := rfl
@[simp] theorem setRun_blocks (s : State) (k : Nat) (x : Option Run) : (s.setRun k x).blocks = s.blocks := rfl
@[simp] theorem setRun_launches (s : State) (k : Nat) (x : Option Run) : (s.setRun k x).launches = s.launches := rfl
@[simp] theorem setRun_cores (s : State) (k : Nat) (x : Option Run) : (s.setRun k x).cores = s.cores := rfl
@[simp] theorem setRun_diesT (s : State) (k : Nat) (x : Option Run) : (s.setRun k x).diesT = s.diesT := rfl
@[simp] theorem setRun_ports (s : State) (k : Nat) (x : Option Run) : (s.setRun k x).ports = s.ports := rfl
@[simp] theorem setRun_scheds (s : State) (k : Nat) (x : Option Run) : (s.setRun k x).scheds = s.scheds := rfl
@[simp] theorem setRun_queues (s : State) (k : Nat) (x : Option Run) : (s.setRun k x).queues = s.queues := rfl
@[simp] theorem setRun_links (s : State) (k : Nat) (x : Option Run) : (s.setRun k x).links = s.links := rfl
@[simp] theorem setRun_accs (s : State) (k : Nat) (x : Option Run) : (s.setRun k x).accs = s.accs := rfl
@[simp] theorem setRun_cmds (s : State) (k : Nat) (x : Option Run) : (s.setRun k x).cmds = s.cmds := rfl
@[simp] theorem setRun_acks (s : State) (k : Nat) (x : Option Run) : (s.setRun k x).acks = s.acks := rfl
@[simp] theorem setRun_dev (s : State) (k : Nat) (x : Option Run) : (s.setRun k x).dev = s.dev := rfl
@[simp] theorem setRun_focus (s : State) (k : Nat) (x : Option Run) : (s.setRun k x).focus = s.focus := rfl
@[simp] theorem setRun_laneLast (s : State) (k : Nat) (x : Option Run) : (s.setRun k x).laneLast = s.laneLast := rfl
@[simp] theorem setRun_cursor (s : State) (k : Nat) (x : Option Run) : (s.setRun k x).cursor = s.cursor := rfl
@[simp] theorem setRun_sfocus (s : State) (k : Nat) (x : Option Run) : (s.setRun k x).sfocus = s.sfocus := rfl
@[simp] theorem setRun_agenda (s : State) (k : Nat) (x : Option Run) : (s.setRun k x).agenda = s.agenda := rfl
@[simp] theorem setRun_out (s : State) (k : Nat) (x : Option Run) : (s.setRun k x).out = s.out := rfl
@[simp] theorem setRun_clk (s : State) (k : Nat) (x : Option Run) : (s.setRun k x).clk = s.clk := rfl
@[simp] theorem setRun_nextId (s : State) (k : Nat) (x : Option Run) : (s.setRun k x).nextId = s.nextId := rfl
@[simp] theorem setRun_tseq (s : State) (k : Nat) (x : Option Run) : (s.setRun k x).tseq = s.tseq := rfl
@[simp] theorem setRun_fresh (s : State) (k : Nat) (x : Option Run) : (s.setRun k x).fresh = s.fresh := rfl
@[simp] theorem setRun_fatal (s : State) (k : Nat) (x : Option Run) : (s.setRun k x).fatal = s.fatal := rfl
@[simp] theorem setRun_closing (s : State) (k : Nat) (x : Option Run) : (s.setRun k x).closing = s.closing := rfl
@[simp] theorem setRun_travel (s : State) (k : Nat) (x : Option Run) : (s.setRun k x).travel = s.travel := rfl
@[simp] theorem setRun_bank (s : State) (k : Nat) (x : Option Run) : (s.setRun k x).bank = s.bank := rfl
@[simp] theorem setRun_emptied (s : State) (k : Nat) (x : Option Run) : (s.setRun k x).emptied = s.emptied := rfl
@[simp] theorem setRun_thread (s : State) (k wk2 t2 : Nat) (x : Option Run) : (s.setRun k x).thread wk2 t2 = s.thread wk2 t2 := rfl
@[simp] theorem setRun_warp (s : State) (k k2 : Nat) (x : Option Run) : (s.setRun k x).warp k2 = s.warp k2 := rfl
@[simp] theorem setRun_block (s : State) (k k2 : Nat) (x : Option Run) : (s.setRun k x).block k2 = s.block k2 := rfl
@[simp] theorem setRun_launch (s : State) (k k2 : Nat) (x : Option Run) : (s.setRun k x).launch k2 = s.launch k2 := rfl
@[simp] theorem setRun_core (s : State) (k k2 : Nat) (x : Option Run) : (s.setRun k x).core k2 = s.core k2 := rfl
@[simp] theorem setRun_die (s : State) (k k2 : Nat) (x : Option Run) : (s.setRun k x).die k2 = s.die k2 := rfl
@[simp] theorem setRun_port (s : State) (k k2 : Nat) (x : Option Run) : (s.setRun k x).port k2 = s.port k2 := rfl
@[simp] theorem setRun_sched (s : State) (k k2 : Nat) (x : Option Run) : (s.setRun k x).sched k2 = s.sched k2 := rfl
@[simp] theorem setRun_queue (s : State) (k k2 : Nat) (x : Option Run) : (s.setRun k x).queue k2 = s.queue k2 := rfl
@[simp] theorem setRun_acc (s : State) (k k2 : Nat) (x : Option Run) : (s.setRun k x).acc k2 = s.acc k2 := rfl
@[simp] theorem setRun_cmd (s : State) (k k2 : Nat) (x : Option Run) : (s.setRun k x).cmd k2 = s.cmd k2 := rfl

/-! ### `setDev` -/

@[simp] theorem setDev_mem (s : State) (x : Dev) : (s.setDev x).mem = s.mem := rfl
@[simp] theorem setDev_bad (s : State) (x : Dev) : (s.setDev x).bad = s.bad := rfl
@[simp] theorem setDev_threads (s : State) (x : Dev) : (s.setDev x).threads = s.threads := rfl
@[simp] theorem setDev_warps (s : State) (x : Dev) : (s.setDev x).warps = s.warps := rfl
@[simp] theorem setDev_blocks (s : State) (x : Dev) : (s.setDev x).blocks = s.blocks := rfl
@[simp] theorem setDev_launches (s : State) (x : Dev) : (s.setDev x).launches = s.launches := rfl
@[simp] theorem setDev_cores (s : State) (x : Dev) : (s.setDev x).cores = s.cores := rfl
@[simp] theorem setDev_diesT (s : State) (x : Dev) : (s.setDev x).diesT = s.diesT := rfl
@[simp] theorem setDev_ports (s : State) (x : Dev) : (s.setDev x).ports = s.ports := rfl
@[simp] theorem setDev_scheds (s : State) (x : Dev) : (s.setDev x).scheds = s.scheds := rfl
@[simp] theorem setDev_queues (s : State) (x : Dev) : (s.setDev x).queues = s.queues := rfl
@[simp] theorem setDev_links (s : State) (x : Dev) : (s.setDev x).links = s.links := rfl
@[simp] theorem setDev_accs (s : State) (x : Dev) : (s.setDev x).accs = s.accs := rfl
@[simp] theorem setDev_cmds (s : State) (x : Dev) : (s.setDev x).cmds = s.cmds := rfl
@[simp] theorem setDev_runs (s : State) (x : Dev) : (s.setDev x).runs = s.runs := rfl
@[simp] theorem setDev_acks (s : State) (x : Dev) : (s.setDev x).acks = s.acks := rfl
@[simp] theorem setDev_focus (s : State) (x : Dev) : (s.setDev x).focus = s.focus := rfl
@[simp] theorem setDev_laneLast (s : State) (x : Dev) : (s.setDev x).laneLast = s.laneLast := rfl
@[simp] theorem setDev_cursor (s : State) (x : Dev) : (s.setDev x).cursor = s.cursor := rfl
@[simp] theorem setDev_sfocus (s : State) (x : Dev) : (s.setDev x).sfocus = s.sfocus := rfl
@[simp] theorem setDev_agenda (s : State) (x : Dev) : (s.setDev x).agenda = s.agenda := rfl
@[simp] theorem setDev_out (s : State) (x : Dev) : (s.setDev x).out = s.out := rfl
@[simp] theorem setDev_clk (s : State) (x : Dev) : (s.setDev x).clk = s.clk := rfl
@[simp] theorem setDev_nextId (s : State) (x : Dev) : (s.setDev x).nextId = s.nextId := rfl
@[simp] theorem setDev_tseq (s : State) (x : Dev) : (s.setDev x).tseq = s.tseq := rfl
@[simp] theorem setDev_fresh (s : State) (x : Dev) : (s.setDev x).fresh = s.fresh := rfl
@[simp] theorem setDev_fatal (s : State) (x : Dev) : (s.setDev x).fatal = s.fatal := rfl
@[simp] theorem setDev_closing (s : State) (x : Dev) : (s.setDev x).closing = s.closing := rfl
@[simp] theorem setDev_travel (s : State) (x : Dev) : (s.setDev x).travel = s.travel := rfl
@[simp] theorem setDev_bank (s : State) (x : Dev) : (s.setDev x).bank = s.bank := rfl
@[simp] theorem setDev_emptied (s : State) (x : Dev) : (s.setDev x).emptied = s.emptied := rfl
@[simp] theorem setDev_thread (s : State) (x : Dev) (wk2 t2 : Nat) : (s.setDev x).thread wk2 t2 = s.thread wk2 t2 := rfl
@[simp] theorem setDev_warp (s : State) (x : Dev) (k2 : Nat) : (s.setDev x).warp k2 = s.warp k2 := rfl
@[simp] theorem setDev_block (s : State) (x : Dev) (k2 : Nat) : (s.setDev x).block k2 = s.block k2 := rfl
@[simp] theorem setDev_launch (s : State) (x : Dev) (k2 : Nat) : (s.setDev x).launch k2 = s.launch k2 := rfl
@[simp] theorem setDev_core (s : State) (x : Dev) (k2 : Nat) : (s.setDev x).core k2 = s.core k2 := rfl
@[simp] theorem setDev_die (s : State) (x : Dev) (k2 : Nat) : (s.setDev x).die k2 = s.die k2 := rfl
@[simp] theorem setDev_port (s : State) (x : Dev) (k2 : Nat) : (s.setDev x).port k2 = s.port k2 := rfl
@[simp] theorem setDev_sched (s : State) (x : Dev) (k2 : Nat) : (s.setDev x).sched k2 = s.sched k2 := rfl
@[simp] theorem setDev_queue (s : State) (x : Dev) (k2 : Nat) : (s.setDev x).queue k2 = s.queue k2 := rfl
@[simp] theorem setDev_acc (s : State) (x : Dev) (k2 : Nat) : (s.setDev x).acc k2 = s.acc k2 := rfl
@[simp] theorem setDev_cmd (s : State) (x : Dev) (k2 : Nat) : (s.setDev x).cmd k2 = s.cmd k2 := rfl
@[simp] theorem setDev_run (s : State) (x : Dev) (k2 : Nat) : (s.setDev x).run k2 = s.run k2 := rfl

/-! ### `bumpId` -/

@[simp] theorem bumpId_mem (s : State)  : (s.bumpId ).mem = s.mem := rfl
@[simp] theorem bumpId_bad (s : State)  : (s.bumpId ).bad = s.bad := rfl
@[simp] theorem bumpId_threads (s : State)  : (s.bumpId ).threads = s.threads := rfl
@[simp] theorem bumpId_warps (s : State)  : (s.bumpId ).warps = s.warps := rfl
@[simp] theorem bumpId_blocks (s : State)  : (s.bumpId ).blocks = s.blocks := rfl
@[simp] theorem bumpId_launches (s : State)  : (s.bumpId ).launches = s.launches := rfl
@[simp] theorem bumpId_cores (s : State)  : (s.bumpId ).cores = s.cores := rfl
@[simp] theorem bumpId_diesT (s : State)  : (s.bumpId ).diesT = s.diesT := rfl
@[simp] theorem bumpId_ports (s : State)  : (s.bumpId ).ports = s.ports := rfl
@[simp] theorem bumpId_scheds (s : State)  : (s.bumpId ).scheds = s.scheds := rfl
@[simp] theorem bumpId_queues (s : State)  : (s.bumpId ).queues = s.queues := rfl
@[simp] theorem bumpId_links (s : State)  : (s.bumpId ).links = s.links := rfl
@[simp] theorem bumpId_accs (s : State)  : (s.bumpId ).accs = s.accs := rfl
@[simp] theorem bumpId_cmds (s : State)  : (s.bumpId ).cmds = s.cmds := rfl
@[simp] theorem bumpId_runs (s : State)  : (s.bumpId ).runs = s.runs := rfl
@[simp] theorem bumpId_acks (s : State)  : (s.bumpId ).acks = s.acks := rfl
@[simp] theorem bumpId_dev (s : State)  : (s.bumpId ).dev = s.dev := rfl
@[simp] theorem bumpId_focus (s : State)  : (s.bumpId ).focus = s.focus := rfl
@[simp] theorem bumpId_laneLast (s : State)  : (s.bumpId ).laneLast = s.laneLast := rfl
@[simp] theorem bumpId_cursor (s : State)  : (s.bumpId ).cursor = s.cursor := rfl
@[simp] theorem bumpId_sfocus (s : State)  : (s.bumpId ).sfocus = s.sfocus := rfl
@[simp] theorem bumpId_agenda (s : State)  : (s.bumpId ).agenda = s.agenda := rfl
@[simp] theorem bumpId_out (s : State)  : (s.bumpId ).out = s.out := rfl
@[simp] theorem bumpId_clk (s : State)  : (s.bumpId ).clk = s.clk := rfl
@[simp] theorem bumpId_tseq (s : State)  : (s.bumpId ).tseq = s.tseq := rfl
@[simp] theorem bumpId_fresh (s : State)  : (s.bumpId ).fresh = s.fresh := rfl
@[simp] theorem bumpId_fatal (s : State)  : (s.bumpId ).fatal = s.fatal := rfl
@[simp] theorem bumpId_closing (s : State)  : (s.bumpId ).closing = s.closing := rfl
@[simp] theorem bumpId_travel (s : State)  : (s.bumpId ).travel = s.travel := rfl
@[simp] theorem bumpId_bank (s : State)  : (s.bumpId ).bank = s.bank := rfl
@[simp] theorem bumpId_emptied (s : State)  : (s.bumpId ).emptied = s.emptied := rfl
@[simp] theorem bumpId_thread (s : State)  (wk2 t2 : Nat) : (s.bumpId ).thread wk2 t2 = s.thread wk2 t2 := rfl
@[simp] theorem bumpId_warp (s : State)  (k2 : Nat) : (s.bumpId ).warp k2 = s.warp k2 := rfl
@[simp] theorem bumpId_block (s : State)  (k2 : Nat) : (s.bumpId ).block k2 = s.block k2 := rfl
@[simp] theorem bumpId_launch (s : State)  (k2 : Nat) : (s.bumpId ).launch k2 = s.launch k2 := rfl
@[simp] theorem bumpId_core (s : State)  (k2 : Nat) : (s.bumpId ).core k2 = s.core k2 := rfl
@[simp] theorem bumpId_die (s : State)  (k2 : Nat) : (s.bumpId ).die k2 = s.die k2 := rfl
@[simp] theorem bumpId_port (s : State)  (k2 : Nat) : (s.bumpId ).port k2 = s.port k2 := rfl
@[simp] theorem bumpId_sched (s : State)  (k2 : Nat) : (s.bumpId ).sched k2 = s.sched k2 := rfl
@[simp] theorem bumpId_queue (s : State)  (k2 : Nat) : (s.bumpId ).queue k2 = s.queue k2 := rfl
@[simp] theorem bumpId_acc (s : State)  (k2 : Nat) : (s.bumpId ).acc k2 = s.acc k2 := rfl
@[simp] theorem bumpId_cmd (s : State)  (k2 : Nat) : (s.bumpId ).cmd k2 = s.cmd k2 := rfl
@[simp] theorem bumpId_run (s : State)  (k2 : Nat) : (s.bumpId ).run k2 = s.run k2 := rfl

/-! ### `emit` -/

@[simp] theorem emit_mem (s : State) (x : Out) : (s.emit x).mem = s.mem := rfl
@[simp] theorem emit_bad (s : State) (x : Out) : (s.emit x).bad = s.bad := rfl
@[simp] theorem emit_threads (s : State) (x : Out) : (s.emit x).threads = s.threads := rfl
@[simp] theorem emit_warps (s : State) (x : Out) : (s.emit x).warps = s.warps := rfl
@[simp] theorem emit_blocks (s : State) (x : Out) : (s.emit x).blocks = s.blocks := rfl
@[simp] theorem emit_launches (s : State) (x : Out) : (s.emit x).launches = s.launches := rfl
@[simp] theorem emit_cores (s : State) (x : Out) : (s.emit x).cores = s.cores := rfl
@[simp] theorem emit_diesT (s : State) (x : Out) : (s.emit x).diesT = s.diesT := rfl
@[simp] theorem emit_ports (s : State) (x : Out) : (s.emit x).ports = s.ports := rfl
@[simp] theorem emit_scheds (s : State) (x : Out) : (s.emit x).scheds = s.scheds := rfl
@[simp] theorem emit_queues (s : State) (x : Out) : (s.emit x).queues = s.queues := rfl
@[simp] theorem emit_links (s : State) (x : Out) : (s.emit x).links = s.links := rfl
@[simp] theorem emit_accs (s : State) (x : Out) : (s.emit x).accs = s.accs := rfl
@[simp] theorem emit_cmds (s : State) (x : Out) : (s.emit x).cmds = s.cmds := rfl
@[simp] theorem emit_runs (s : State) (x : Out) : (s.emit x).runs = s.runs := rfl
@[simp] theorem emit_acks (s : State) (x : Out) : (s.emit x).acks = s.acks := rfl
@[simp] theorem emit_dev (s : State) (x : Out) : (s.emit x).dev = s.dev := rfl
@[simp] theorem emit_focus (s : State) (x : Out) : (s.emit x).focus = s.focus := rfl
@[simp] theorem emit_laneLast (s : State) (x : Out) : (s.emit x).laneLast = s.laneLast := rfl
@[simp] theorem emit_cursor (s : State) (x : Out) : (s.emit x).cursor = s.cursor := rfl
@[simp] theorem emit_sfocus (s : State) (x : Out) : (s.emit x).sfocus = s.sfocus := rfl
@[simp] theorem emit_agenda (s : State) (x : Out) : (s.emit x).agenda = s.agenda := rfl
@[simp] theorem emit_clk (s : State) (x : Out) : (s.emit x).clk = s.clk := rfl
@[simp] theorem emit_nextId (s : State) (x : Out) : (s.emit x).nextId = s.nextId := rfl
@[simp] theorem emit_tseq (s : State) (x : Out) : (s.emit x).tseq = s.tseq := rfl
@[simp] theorem emit_fresh (s : State) (x : Out) : (s.emit x).fresh = s.fresh := rfl
@[simp] theorem emit_fatal (s : State) (x : Out) : (s.emit x).fatal = s.fatal := rfl
@[simp] theorem emit_closing (s : State) (x : Out) : (s.emit x).closing = s.closing := rfl
@[simp] theorem emit_travel (s : State) (x : Out) : (s.emit x).travel = s.travel := rfl
@[simp] theorem emit_bank (s : State) (x : Out) : (s.emit x).bank = s.bank := rfl
@[simp] theorem emit_emptied (s : State) (x : Out) : (s.emit x).emptied = s.emptied := rfl
@[simp] theorem emit_thread (s : State) (x : Out) (wk2 t2 : Nat) : (s.emit x).thread wk2 t2 = s.thread wk2 t2 := rfl
@[simp] theorem emit_warp (s : State) (x : Out) (k2 : Nat) : (s.emit x).warp k2 = s.warp k2 := rfl
@[simp] theorem emit_block (s : State) (x : Out) (k2 : Nat) : (s.emit x).block k2 = s.block k2 := rfl
@[simp] theorem emit_launch (s : State) (x : Out) (k2 : Nat) : (s.emit x).launch k2 = s.launch k2 := rfl
@[simp] theorem emit_core (s : State) (x : Out) (k2 : Nat) : (s.emit x).core k2 = s.core k2 := rfl
@[simp] theorem emit_die (s : State) (x : Out) (k2 : Nat) : (s.emit x).die k2 = s.die k2 := rfl
@[simp] theorem emit_port (s : State) (x : Out) (k2 : Nat) : (s.emit x).port k2 = s.port k2 := rfl
@[simp] theorem emit_sched (s : State) (x : Out) (k2 : Nat) : (s.emit x).sched k2 = s.sched k2 := rfl
@[simp] theorem emit_queue (s : State) (x : Out) (k2 : Nat) : (s.emit x).queue k2 = s.queue k2 := rfl
@[simp] theorem emit_acc (s : State) (x : Out) (k2 : Nat) : (s.emit x).acc k2 = s.acc k2 := rfl
@[simp] theorem emit_cmd (s : State) (x : Out) (k2 : Nat) : (s.emit x).cmd k2 = s.cmd k2 := rfl
@[simp] theorem emit_run (s : State) (x : Out) (k2 : Nat) : (s.emit x).run k2 = s.run k2 := rfl

/-! ### `setClk` -/

@[simp] theorem setClk_out (s : State) (x : Nat) : (s.setClk x).out = s.out := rfl
@[simp] theorem setClk_mem (s : State) (x : Nat) : (s.setClk x).mem = s.mem := rfl
@[simp] theorem setClk_bad (s : State) (x : Nat) : (s.setClk x).bad = s.bad := rfl
@[simp] theorem setClk_threads (s : State) (x : Nat) : (s.setClk x).threads = s.threads := rfl
@[simp] theorem setClk_warps (s : State) (x : Nat) : (s.setClk x).warps = s.warps := rfl
@[simp] theorem setClk_blocks (s : State) (x : Nat) : (s.setClk x).blocks = s.blocks := rfl
@[simp] theorem setClk_launches (s : State) (x : Nat) : (s.setClk x).launches = s.launches := rfl
@[simp] theorem setClk_cores (s : State) (x : Nat) : (s.setClk x).cores = s.cores := rfl
@[simp] theorem setClk_diesT (s : State) (x : Nat) : (s.setClk x).diesT = s.diesT := rfl
@[simp] theorem setClk_ports (s : State) (x : Nat) : (s.setClk x).ports = s.ports := rfl
@[simp] theorem setClk_scheds (s : State) (x : Nat) : (s.setClk x).scheds = s.scheds := rfl
@[simp] theorem setClk_queues (s : State) (x : Nat) : (s.setClk x).queues = s.queues := rfl
@[simp] theorem setClk_links (s : State) (x : Nat) : (s.setClk x).links = s.links := rfl
@[simp] theorem setClk_accs (s : State) (x : Nat) : (s.setClk x).accs = s.accs := rfl
@[simp] theorem setClk_cmds (s : State) (x : Nat) : (s.setClk x).cmds = s.cmds := rfl
@[simp] theorem setClk_runs (s : State) (x : Nat) : (s.setClk x).runs = s.runs := rfl
@[simp] theorem setClk_acks (s : State) (x : Nat) : (s.setClk x).acks = s.acks := rfl
@[simp] theorem setClk_dev (s : State) (x : Nat) : (s.setClk x).dev = s.dev := rfl
@[simp] theorem setClk_focus (s : State) (x : Nat) : (s.setClk x).focus = s.focus := rfl
@[simp] theorem setClk_laneLast (s : State) (x : Nat) : (s.setClk x).laneLast = s.laneLast := rfl
@[simp] theorem setClk_cursor (s : State) (x : Nat) : (s.setClk x).cursor = s.cursor := rfl
@[simp] theorem setClk_sfocus (s : State) (x : Nat) : (s.setClk x).sfocus = s.sfocus := rfl
@[simp] theorem setClk_agenda (s : State) (x : Nat) : (s.setClk x).agenda = s.agenda := rfl
@[simp] theorem setClk_nextId (s : State) (x : Nat) : (s.setClk x).nextId = s.nextId := rfl
@[simp] theorem setClk_tseq (s : State) (x : Nat) : (s.setClk x).tseq = s.tseq := rfl
@[simp] theorem setClk_fresh (s : State) (x : Nat) : (s.setClk x).fresh = s.fresh := rfl
@[simp] theorem setClk_fatal (s : State) (x : Nat) : (s.setClk x).fatal = s.fatal := rfl
@[simp] theorem setClk_closing (s : State) (x : Nat) : (s.setClk x).closing = s.closing := rfl
@[simp] theorem setClk_travel (s : State) (x : Nat) : (s.setClk x).travel = s.travel := rfl
@[simp] theorem setClk_bank (s : State) (x : Nat) : (s.setClk x).bank = s.bank := rfl
@[simp] theorem setClk_emptied (s : State) (x : Nat) : (s.setClk x).emptied = s.emptied := rfl
@[simp] theorem setClk_thread (s : State) (x : Nat) (wk2 t2 : Nat) : (s.setClk x).thread wk2 t2 = s.thread wk2 t2 := rfl
@[simp] theorem setClk_warp (s : State) (x : Nat) (k2 : Nat) : (s.setClk x).warp k2 = s.warp k2 := rfl
@[simp] theorem setClk_block (s : State) (x : Nat) (k2 : Nat) : (s.setClk x).block k2 = s.block k2 := rfl
@[simp] theorem setClk_launch (s : State) (x : Nat) (k2 : Nat) : (s.setClk x).launch k2 = s.launch k2 := rfl
@[simp] theorem setClk_core (s : State) (x : Nat) (k2 : Nat) : (s.setClk x).core k2 = s.core k2 := rfl
@[simp] theorem setClk_die (s : State) (x : Nat) (k2 : Nat) : (s.setClk x).die k2 = s.die k2 := rfl
@[simp] theorem setClk_port (s : State) (x : Nat) (k2 : Nat) : (s.setClk x).port k2 = s.port k2 := rfl
@[simp] theorem setClk_sched (s : State) (x : Nat) (k2 : Nat) : (s.setClk x).sched k2 = s.sched k2 := rfl
@[simp] theorem setClk_queue (s : State) (x : Nat) (k2 : Nat) : (s.setClk x).queue k2 = s.queue k2 := rfl
@[simp] theorem setClk_acc (s : State) (x : Nat) (k2 : Nat) : (s.setClk x).acc k2 = s.acc k2 := rfl
@[simp] theorem setClk_cmd (s : State) (x : Nat) (k2 : Nat) : (s.setClk x).cmd k2 = s.cmd k2 := rfl
@[simp] theorem setClk_run (s : State) (x : Nat) (k2 : Nat) : (s.setClk x).run k2 = s.run k2 := rfl

@[simp] theorem setDev_dev (s : State) (x : Dev) : (s.setDev x).dev = x := rfl
@[simp] theorem bumpId_nextId (s : State) : s.bumpId.nextId = s.nextId + 1 := rfl
@[simp] theorem setClk_clk (s : State) (x : Nat) : (s.setClk x).clk = x := rfl
@[simp] theorem setClk_self (s : State) : s.setClk s.clk = s := rfl
@[simp] theorem setClk_setClk (s : State) (x y : Nat) : (s.setClk x).setClk y = s.setClk y := rfl
@[simp] theorem emit_out (s : State) (x : Out) : (s.emit x).out = s.out ++ [x] := rfl
@[simp] theorem noteEmptied_emptied (s : State) (b : Bool) (l : Loc) : (s.noteEmptied b l).emptied = (l, b, s.clk) :: s.emptied := rfl

/-! ### Reads of the updated table -/

theorem tkey_inj {wk t wk2 t2 : Nat} (h : t < 32) (h2 : t2 < 32) : tkey wk t = tkey wk2 t2 ↔ wk = wk2 ∧ t = t2 := by
  unfold tkey
  constructor
  · intro e
    omega
  · rintro ⟨rfl, rfl⟩
    rfl

@[simp] theorem setThread_thread_self (s : State) (wk t : Nat) (x : Thread) : (s.setThread wk t x).thread wk t = x := Fmap.get_set_self ..
theorem setThread_thread (s : State) (wk t wk2 t2 : Nat) (x : Thread) :
    (s.setThread wk t x).thread wk2 t2 = if tkey wk t = tkey wk2 t2 then x else s.thread wk2 t2 := Fmap.get_set ..
@[simp] theorem setWarp_warp_self (s : State) (k : Nat) (x : Warp) : (s.setWarp k x).warp k = x := Fmap.get_set_self ..
theorem setWarp_warp (s : State) (k k2 : Nat) (x : Warp) : (s.setWarp k x).warp k2 = if k = k2 then x else s.warp k2 := Fmap.get_set ..
@[simp] theorem setBlock_block_self (s : State) (k : Nat) (x : Block) : (s.setBlock k x).block k = x := Fmap.get_set_self ..
theorem setBlock_block (s : State) (k k2 : Nat) (x : Block) : (s.setBlock k x).block k2 = if k = k2 then x else s.block k2 := Fmap.get_set ..
@[simp] theorem setLaunch_launch_self (s : State) (k : Nat) (x : Launch) : (s.setLaunch k x).launch k = x := Fmap.get_set_self ..
theorem setLaunch_launch (s : State) (k k2 : Nat) (x : Launch) : (s.setLaunch k x).launch k2 = if k = k2 then x else s.launch k2 := Fmap.get_set ..
@[simp] theorem setCore_core_self (s : State) (k : Nat) (x : Core) : (s.setCore k x).core k = x := Fmap.get_set_self ..
theorem setCore_core (s : State) (k k2 : Nat) (x : Core) : (s.setCore k x).core k2 = if k = k2 then x else s.core k2 := Fmap.get_set ..
@[simp] theorem setDie_die_self (s : State) (k : Nat) (x : Die) : (s.setDie k x).die k = x := Fmap.get_set_self ..
theorem setDie_die (s : State) (k k2 : Nat) (x : Die) : (s.setDie k x).die k2 = if k = k2 then x else s.die k2 := Fmap.get_set ..
@[simp] theorem setPort_port_self (s : State) (k : Nat) (x : Port) : (s.setPort k x).port k = x := Fmap.get_set_self ..
theorem setPort_port (s : State) (k k2 : Nat) (x : Port) : (s.setPort k x).port k2 = if k = k2 then x else s.port k2 := Fmap.get_set ..
@[simp] theorem setSched_sched_self (s : State) (k : Nat) (x : Sched) : (s.setSched k x).sched k = x := Fmap.get_set_self ..
theorem setSched_sched (s : State) (k k2 : Nat) (x : Sched) : (s.setSched k x).sched k2 = if k = k2 then x else s.sched k2 := Fmap.get_set ..
@[simp] theorem setQueue_queue_self (s : State) (k : Nat) (x : WQueue) : (s.setQueue k x).queue k = x := Fmap.get_set_self ..
theorem setQueue_queue (s : State) (k k2 : Nat) (x : WQueue) : (s.setQueue k x).queue k2 = if k = k2 then x else s.queue k2 := Fmap.get_set ..
@[simp] theorem setAcc_acc_self (s : State) (k : Nat) (x : Option Access) : (s.setAcc k x).acc k = x := Fmap.get_set_self ..
theorem setAcc_acc (s : State) (k k2 : Nat) (x : Option Access) : (s.setAcc k x).acc k2 = if k = k2 then x else s.acc k2 := Fmap.get_set ..
@[simp] theorem setCmd_cmd_self (s : State) (k : Nat) (x : Option Cmd) : (s.setCmd k x).cmd k = x := Fmap.get_set_self ..
theorem setCmd_cmd (s : State) (k k2 : Nat) (x : Option Cmd) : (s.setCmd k x).cmd k2 = if k = k2 then x else s.cmd k2 := Fmap.get_set ..
@[simp] theorem setRun_run_self (s : State) (k : Nat) (x : Option Run) : (s.setRun k x).run k = x := Fmap.get_set_self ..
theorem setRun_run (s : State) (k k2 : Nat) (x : Option Run) : (s.setRun k x).run k2 = if k = k2 then x else s.run k2 := Fmap.get_set ..

/-! ### Updates by a function -/

@[simp] theorem modThread_eq (s : State) (wk t : Nat) (f : Thread → Thread) : s.modThread wk t f = s.setThread wk t (f (s.thread wk t)) := rfl
@[simp] theorem modWarp_eq (s : State) (k : Nat) (f : Warp → Warp) : s.modWarp k f = s.setWarp k (f (s.warp k)) := rfl
@[simp] theorem modBlock_eq (s : State) (k : Nat) (f : Block → Block) : s.modBlock k f = s.setBlock k (f (s.block k)) := rfl
@[simp] theorem modLaunch_eq (s : State) (k : Nat) (f : Launch → Launch) : s.modLaunch k f = s.setLaunch k (f (s.launch k)) := rfl
@[simp] theorem modCore_eq (s : State) (k : Nat) (f : Core → Core) : s.modCore k f = s.setCore k (f (s.core k)) := rfl
@[simp] theorem modDie_eq (s : State) (k : Nat) (f : Die → Die) : s.modDie k f = s.setDie k (f (s.die k)) := rfl
@[simp] theorem modPort_eq (s : State) (k : Nat) (f : Port → Port) : s.modPort k f = s.setPort k (f (s.port k)) := rfl
@[simp] theorem modCmd_eq (s : State) (k : Nat) (f : Cmd → Cmd) : s.modCmd k f = s.setCmd k ((s.cmd k).map f) := rfl
@[simp] theorem modAcc_eq (s : State) (k : Nat) (f : Access → Access) : s.modAcc k f = s.setAcc k ((s.acc k).map f) := rfl
@[simp] theorem modRun_eq (s : State) (k : Nat) (f : Run → Run) : s.modRun k f = s.setRun k ((s.run k).map f) := rfl

end State

end Sys2Proof.Machine
end

