-- ==== Sys2Proof/Laws/Lane.lean ====
section
/-! SUPPORT. What a pass through a lane comes to: one lemma per form, for one active thread whose operands are ready. A proof
about an instruction cites these and unfolds its body alone. -/

namespace Sys2Proof.Machine

/-! ### Masks -/

theorem maskList_bit1 {t : Nat} (h : t < 32) : maskList (bit1 t) = [t] := by
  interval_cases t <;> decide

theorem bit1_ne_zero {t : Nat} (h : t < 32) : bit1 t ≠ 0 := by
  interval_cases t <;> decide

theorem bit1_getLsbD {t u : Nat} (h : t < 32) (hu : u < 32) : (bit1 t).getLsbD u = decide (t = u) := by
  interval_cases t <;> interval_cases u <;> rfl

theorem lowest_bit1 {t : Nat} (h : t < 32) : lowest (bit1 t) = t := by
  simp [lowest, maskList_bit1 h]

/-! ### One active thread -/

variable {i : Instr} {g : Sig} {h : Hdr} {s : State} {r : Run} {t : Nat}

theorem Stands.enter (p : Stands i g h s r t) (f : Run → Sig → Hdr → Word → State → State) :
    s.enter i f = .next (f r g h (bit1 t) (s.opened t)) := by
  simp [State.enter, p.run, p.sig, p.hdr, p.fate, p.act, maskList_bit1 p.thread, p.acq, p.room, State.opened]

theorem opened_run (p : Stands i g h s r t) : (s.opened t).run s.focus = some { r with act := some (bit1 t) } := by
  simp [State.opened, p.run]

@[simp] theorem opened_focus (s : State) (t : Nat) : (s.opened t).focus = s.focus := rfl

/-- Before any thread has been served, nothing that the instruction has written is left out of account. -/
theorem sameInstr_fresh {s : State} {key : Nat} {r : Run} (hr : s.run key = some r) (h0 : r.served = 0) (g : Sig) : s.sameInstr key g = s := by
  unfold State.sameInstr
  rw [hr]
  split
  · rename_i h1 _
    cases h1
    simp [h0]
  · rfl

theorem Stands.same (p : Stands i g h s r t) : (s.opened t).sameInstr s.focus g = s.opened t :=
  sameInstr_fresh (opened_run p) (by simp [p.served]) g

theorem At.same {m : Word} (p : At i g h s r m) : (s.openedM m).sameInstr s.focus g = s.openedM m :=
  sameInstr_fresh (r := { r with act := some m }) (by simp [State.openedM, p.run]) (by simp [p.served]) g

variable {d a b : List Loc} {x y : Word} {s1 : State}

/-- The turn of a thread whose operands are ready, by what its body comes to. -/
theorem turn_done (ka kb : ImmK) (m : Word) (early : Early) (body : TC → State → TRes) (key : Nat) (sop : State)
    (hr : (sop.sameInstr key g).prep r.wk t h g = .ok d a b) (hp : sop.pops key r.wk g = some (x, y, s1)) (act : Word) (s2 : State)
    (hb : body (s1.ctx h g ka kb key r act t d a b x y) s1 = .done s2) :
    sop.turnFor h g ka kb key r act m early body t =
      ((s2.noteOps (s1.ctx h g ka kb key r act t d a b x y)).markServed key m, false) := by
  simp [State.turnFor, State.turn, hr, hp, hb, State.settle]

theorem turn_fp (ka kb : ImmK) (m : Word) (early : Early) (body : TC → State → TRes) (key : Nat) (sop : State)
    (hr : (sop.sameInstr key g).prep r.wk t h g = .ok d a b) (hp : sop.pops key r.wk g = some (x, y, s1)) (act : Word) (s2 : State) (f : Word)
    (hb : body (s1.ctx h g ka kb key r act t d a b x y) s1 = .fp s2 f) :
    sop.turnFor h g ka kb key r act m early body t =
      (((s2.noteOps (s1.ctx h g ka kb key r act t d a b x y)).fpDone (s1.ctx h g ka kb key r act t d a b x y) (maskList m) f).markServed key m, false) := by
  simp [State.turnFor, State.turn, hr, hp, hb, State.settle]

theorem serve_one (p : Stands i g h s r t) (ka kb : ImmK) (early : Early) (body : TC → State → TRes) (n : Nat) :
    (s.opened t).serve h g ka kb s.focus r (bit1 t) early body n [t] =
      (let q := (s.opened t).turnFor h g ka kb s.focus r (bit1 t) (bit1 t) early body t
       if q.2 then q else (q.1.setClk (s.clk + n), false)) := by
  have h0 : ((s.opened t).run s.focus).map (fun r => r.served.getLsbD t) = some false := by
    simp [opened_run p, p.served]
  simp only [State.serve, h0]
  generalize (s.opened t).turnFor h g ka kb s.focus r (bit1 t) (bit1 t) early body t = q
  obtain ⟨s2, w⟩ := q
  cases w <;> rfl

/-- One active thread whose turn comes to an end passes the lane in one cycle. -/
theorem laneEarly_turn (p : Stands i g h s r t) (uni br : Bool) (ka kb : ImmK) (early : Early) (body : TC → State → TRes) (z : State)
    (hz : (s.opened t).turnFor h g ka kb s.focus r (bit1 t) (bit1 t) early body t = (z, false)) :
    laneEarly i uni br ka kb early body s = .next ((z.setClk s.clk).endInstr s.focus i h (if br then bit1 t else 0) 1) := by
  have hm : maskList (bit1 t &&& ~~~r.served) = [t] := by
    rw [p.served, show ~~~(0 : Word) = BitVec.allOnes 32 from rfl, BitVec.and_allOnes, maskList_bit1 p.thread]
  have hc : (s.opened t).clk = s.clk := rfl
  unfold laneEarly
  rw [p.enter]
  simp only [opened_focus, hm, lowest_bit1 p.thread, serve_one p, hz, hc]
  have h1 : max 1 (s.clk + (if sigUniform g = true then 0 else 1) - s.clk) = 1 := by split <;> omega
  generalize (uni && sigUniform g && bit1 t != 0) = once
  cases once
  · simp only [Bool.false_eq_true, if_false, State.setClk_clk, State.setClk_setClk, h1]
  · rfl

/-- An instruction whose body is done: it has passed with that effect. -/
theorem laneEarly_done (p : Stands i g h s r t) (o : Operands s h g r t d a b x y s1) (uni br : Bool) (ka kb : ImmK) (early : Early)
    (body : TC → State → TRes) (s2 : State)
    (hb : body (s1.ctx h g ka kb s.focus r (bit1 t) t d a b x y) s1 = .done s2) :
    laneEarly i uni br ka kb early body s = .next (s2.passed s.clk (s1.ctx h g ka kb s.focus r (bit1 t) t d a b x y) i br) := by
  exact laneEarly_turn p uni br ka kb early body _ (turn_done ka kb (bit1 t) early body s.focus (s.opened t) (p.same.symm ▸ o.ready) o.pops (bit1 t) s2 hb)

theorem laneEach_done (p : Stands i g h s r t) (o : Operands s h g r t d a b x y s1) (uni br : Bool) (ka kb : ImmK)
    (body : TC → State → TRes) (s2 : State)
    (hb : body (s1.ctx h g ka kb s.focus r (bit1 t) t d a b x y) s1 = .done s2) :
    laneEach i uni br ka kb body s = .next (s2.passed s.clk (s1.ctx h g ka kb s.focus r (bit1 t) t d a b x y) i br) :=
  laneEarly_done p o uni br ka kb noEarly body s2 hb

/-- An instruction whose body raises FP conditions. -/
theorem laneEarly_fp (p : Stands i g h s r t) (o : Operands s h g r t d a b x y s1) (uni : Bool) (ka kb : ImmK) (early : Early)
    (body : TC → State → TRes) (s2 : State) (f : Word)
    (hb : body (s1.ctx h g ka kb s.focus r (bit1 t) t d a b x y) s1 = .fp s2 f) :
    laneEarly i uni false ka kb early body s = .next (s2.passedFp s.clk (s1.ctx h g ka kb s.focus r (bit1 t) t d a b x y) i f) := by
  rw [laneEarly_turn p uni false ka kb early body _ (turn_fp ka kb (bit1 t) early body s.focus (s.opened t) (p.same.symm ▸ o.ready) o.pops (bit1 t) s2 f hb)]
  simp [State.passedFp, State.ctx, maskList_bit1 p.thread]

theorem laneEach_fp (p : Stands i g h s r t) (o : Operands s h g r t d a b x y s1) (uni : Bool) (ka kb : ImmK)
    (body : TC → State → TRes) (s2 : State) (f : Word)
    (hb : body (s1.ctx h g ka kb s.focus r (bit1 t) t d a b x y) s1 = .fp s2 f) :
    laneEach i uni false ka kb body s = .next (s2.passedFp s.clk (s1.ctx h g ka kb s.focus r (bit1 t) t d a b x y) i f) :=
  laneEarly_fp p o uni ka kb noEarly body s2 f hb

theorem laneOnceEarly_done (p : Stands i g h s r t) (o : Operands s h g r t d a b x y s1) (ka kb : ImmK) (early : Early)
    (body : TC → State → TRes) (s2 : State)
    (hb : body (s1.ctx h g ka kb s.focus r (bit1 t) t d a b x y) s1 = .done s2) :
    laneOnceEarly i ka kb early body s = .next (s2.passed s.clk (s1.ctx h g ka kb s.focus r (bit1 t) t d a b x y) i false) := by
  unfold laneOnceEarly
  rw [p.enter]
  simp only [opened_focus, bit1_ne_zero p.thread, if_false, lowest_bit1 p.thread, maskList_bit1 p.thread]
  rw [turn_done ka kb (bit1 t) early body s.focus (s.opened t) (p.same.symm ▸ o.ready) o.pops (bit1 t) s2 hb]
  have : cyclesOf g [t].length = 1 := by unfold cyclesOf; split <;> rfl
  simp only [this]
  rfl

theorem laneOnce_done (p : Stands i g h s r t) (o : Operands s h g r t d a b x y s1) (ka kb : ImmK)
    (body : TC → State → TRes) (s2 : State)
    (hb : body (s1.ctx h g ka kb s.focus r (bit1 t) t d a b x y) s1 = .done s2) :
    laneOnce i ka kb body s = .next (s2.passed s.clk (s1.ctx h g ka kb s.focus r (bit1 t) t d a b x y) i false) :=
  laneOnceEarly_done p o ka kb noEarly body s2 hb

/-! ### Any active threads -/

theorem At.enter {m : Word} (p : At i g h s r m) (f : Run → Sig → Hdr → Word → State → State) :
    s.enter i f = .next (f r g h m (s.openedM m)) := by
  simp [State.enter, p.run, p.sig, p.hdr, p.fate, p.act, p.acq, p.room, State.openedM]

@[simp] theorem openedM_focus (s : State) (m : Word) : (s.openedM m).focus = s.focus := rfl

/-- The turn of a thread whose operands are ready, where its body comes to an end with state `z`. -/
theorem turnFor_settle (ka kb : ImmK) (act m : Word) (early : Early) (body : TC → State → TRes) (key : Nat) (sop z : State)
    (hr : (sop.sameInstr key g).prep r.wk t h g = .ok d a b) (hp : sop.pops key r.wk g = some (x, y, s1))
    (hb : sop.settle (s1.ctx h g ka kb key r act t d a b x y) (maskList m) (body (s1.ctx h g ka kb key r act t d a b x y) s1) = (z, false)) :
    sop.turnFor h g ka kb key r act m early body t = (z.markServed key m, false) := by
  have e : sop.turn h g ka kb key r act (maskList m) early body t = (z, false) := by
    simp only [State.turn, hr, hp]
    generalize body (s1.ctx h g ka kb key r act t d a b x y) s1 = q at hb ⊢
    cases q with
    | wait s2 => simp [State.settle] at hb
    | _ => exact hb
  simp only [State.turnFor, e]

theorem serve_served (ka kb : ImmK) (early : Early) (body : TC → State → TRes) (key : Nat) (m : Word) (P : TC → State → Prop) (Z : Effect)
    (hb : ∀ c s s0 who, P c s → State.settle s0 c who (body c s) = (Z c who s, false)) :
    ∀ (ts : List Nat) (s u : State), (∀ t ∈ ts, t < 32) → Served h g ka kb key r m P Z ts s u →
      s.serve h g ka kb key r m early body (if sigUniform g then 0 else 1) ts = (u, false) := by
  intro ts
  induction ts with
  | nil => intro s u _ e; simp only [Served] at e; rw [e]; rfl
  | cons t ts ih =>
    intro s u ht e
    obtain ⟨d, a, b, x, y, s1, h0, hr, hp, hP, e⟩ := e
    have h1 := turnFor_settle (h := h) (m := bit1 t) ka kb m early body key s _ hr hp (hb _ _ s _ hP)
    rw [maskList_bit1 (ht t (by simp))] at h1
    simp only [State.serve, h0, Option.getD_some, Bool.false_eq_true, if_false, h1]
    exact ih _ _ (fun t h => ht t (by simp [h])) e

theorem served_clk (ka kb : ImmK) (key : Nat) (m : Word) (P : TC → State → Prop) (Z : Effect) :
    ∀ (ts : List Nat) (s u : State), Served h g ka kb key r m P Z ts s u → u.clk = s.clk + (if sigUniform g then 0 else 1) * ts.length := by
  intro ts
  induction ts with
  | nil => intro s u e; simp only [Served] at e; simp [e]
  | cons t ts ih =>
    intro s u e
    obtain ⟨d, a, b, x, y, s1, -, -, -, -, e⟩ := e
    rw [ih _ _ e, State.setClk_clk, List.length_cons, Nat.mul_succ]
    omega

theorem cycles_eq (g : Sig) (c n : Nat) : max 1 (c + (if sigUniform g then 0 else 1) * n - c) = cyclesOf g n := by
  unfold cyclesOf
  split <;> simp

theorem laneEarly_passes (uni br : Bool) (ka kb : ImmK) (early : Early) (body : TC → State → TRes) (P : TC → State → Prop) (Z : Effect)
    (he : ∀ s, exec i s = laneEarly i uni br ka kb early body s)
    (hb : ∀ c s s0 who, P c s → State.settle s0 c who (body c s) = (Z c who s, false)) : Passes i uni br ka kb P Z := by
  intro g h s r m p
  constructor
  · intro hu u hs
    rw [he, laneEarly, p.enter]
    have hm : m &&& ~~~r.served = m := by
      rw [p.served, show ~~~(0 : Word) = BitVec.allOnes 32 from rfl, BitVec.and_allOnes]
    simp only [hu, hm, openedM_focus, Bool.false_eq_true, if_false]
    rw [serve_served ka kb early body s.focus m P Z hb _ _ _ (fun t h => by simpa [maskList] using (List.mem_filter.1 h).1) hs]
    have hc : (s.openedM m).clk = s.clk := rfl
    simp only [Bool.false_eq_true, if_false, served_clk ka kb s.focus m P Z _ _ _ hs, hc, cycles_eq]
  · intro hu d a b x y s1 hr hp hP
    rw [he, laneEarly, p.enter]
    simp only [hu, openedM_focus, if_true]
    rw [turnFor_settle (m := m) ka kb m early body s.focus _ _ (p.same.symm ▸ hr) hp (hb _ _ _ _ hP)]
    rfl

theorem laneEarly_completes (uni br : Bool) (ka kb : ImmK) (early : Early) (body : TC → State → TRes) (P : TC → State → Prop)
    (E : TC → State → State) (he : ∀ s, exec i s = laneEarly i uni br ka kb early body s) (hb : ∀ c s, P c s → body c s = .done (E c s)) :
    Completes i uni br ka kb P E :=
  laneEarly_passes uni br ka kb early body P _ he (fun c s s0 who hP => by rw [hb c s hP]; rfl)

theorem laneEach_completes (uni br : Bool) (ka kb : ImmK) (body : TC → State → TRes) (P : TC → State → Prop)
    (E : TC → State → State) (he : ∀ s, exec i s = laneEach i uni br ka kb body s) (hb : ∀ c s, P c s → body c s = .done (E c s)) :
    Completes i uni br ka kb P E := laneEarly_completes uni br ka kb noEarly body P E he hb

theorem laneEarly_completesFp (uni : Bool) (ka kb : ImmK) (early : Early) (body : TC → State → TRes) (P : TC → State → Prop)
    (E : TC → State → State × Word) (he : ∀ s, exec i s = laneEarly i uni false ka kb early body s)
    (hb : ∀ c s, P c s → body c s = .fp (E c s).1 (E c s).2) : CompletesFp i uni ka kb P E :=
  laneEarly_passes uni false ka kb early body P _ he (fun c s s0 who hP => by rw [hb c s hP]; rfl)

theorem laneOnceEarly_completes (ka kb : ImmK) (early : Early) (body : TC → State → TRes) (P : TC → State → Prop)
    (E : TC → State → State) (he : ∀ s, exec i s = laneOnceEarly i ka kb early body s) (hb : ∀ c s, P c s → body c s = .done (E c s)) :
    CompletesOnce i ka kb P E := by
  intro g h s r m p
  constructor
  · intro hm
    subst hm
    rw [he, laneOnceEarly, p.enter]
    rw [show 1 = cyclesOf g (maskList (0 : Word)).length by unfold cyclesOf; split <;> rfl]
    rfl
  · intro hm d a b x y s1 hr hp hP
    rw [he, laneOnceEarly, p.enter]
    simp only [hm, openedM_focus, if_false]
    rw [turnFor_settle (m := m) (z := (E (s1.ctx h g ka kb s.focus r m (lowest m) d a b x y) s1).noteOps (s1.ctx h g ka kb s.focus r m (lowest m) d a b x y))
      ka kb m early body s.focus _ (p.same.symm ▸ hr) hp (by rw [hb _ _ hP]; rfl)]
    rfl

theorem laneOnce_completes (ka kb : ImmK) (body : TC → State → TRes) (P : TC → State → Prop)
    (E : TC → State → State) (he : ∀ s, exec i s = laneOnce i ka kb body s) (hb : ∀ c s, P c s → body c s = .done (E c s)) :
    CompletesOnce i ka kb P E := laneOnceEarly_completes ka kb noEarly body P E he hb

theorem maskList_ne_nil {m : Word} (h : m ≠ 0) : maskList m ≠ [] := by
  intro e
  apply h
  apply BitVec.eq_of_getLsbD_eq
  intro k hk
  have h1 : k ∉ maskList m := by rw [e]; simp
  simpa [maskList, hk] using h1

theorem laneAll_completes (body : List TC → State → ARes) (P : List TC → State → Prop) (E : List TC → State → State)
    (he : ∀ s, exec i s = laneAll i .int .int body s) (hb : ∀ cs s, P cs s → body cs s = .done (E cs s) []) : CompletesAll i P E := by
  intro g h s r m p
  constructor
  · intro hm
    subst hm
    rw [he, laneAll, p.enter]
    rfl
  · intro x y s0 s1 cs hm hp ht hc hP
    rw [he, laneAll, p.enter]
    have hf : cs.filter (fun c => ([] : List (Nat × Nat × Word)).all (fun p => p.1 != c.t)) = cs := by simp
    have hn : (maskList m).all (fun t => ([] : List (Nat × Nat × Word)).any (fun p => p.1 == t)) = false := by
      cases e : maskList m with
      | nil => exact absurd e (maskList_ne_nil hm)
      | cons t ts => rfl
    unfold State.taken at ht
    simp only [openedM_focus, hm, if_false, hp, ht, Bool.false_eq_true, hc, hb _ _ hP, List.append_nil, hf, hn]
    rfl

end Sys2Proof.Machine
end

