-- ==== Sys2Proof/Laws/Frame.lean ====
section
/-! SUPPORT. What register instructions leave alone: `OnlyRegs` for each operation that such an instruction is made of, and for
the whole of it. -/

namespace Sys2Proof.Machine

variable {ds tk : List Loc} {own : Nat → Nat → Thread → Thread} {s u w : State}

namespace OnlyRegs

theorem refl (ds tk : List Loc) (own : Nat → Nat → Thread → Thread) (s : State) : OnlyRegs ds tk own s s where
  regs _ _ _ _ := rfl
  pois _ _ _ := rfl
  clean _ _ h := h
  full _ _ _ := rfl
  threads _ _ _ := rfl
  warps _ := rfl
  memory _ _ := rfl
  dies _ := rfl
  coresK _ := rfl
  device := rfl
  runs _ _ := rfl
  tables := rfl
  others := rfl

theorem focus (p : OnlyRegs ds tk own s u) : u.focus = s.focus := congrArg Prod.fst p.others

theorem trans (p : OnlyRegs ds tk own s u) (q : OnlyRegs ds tk own u w) : OnlyRegs ds tk own s w where
  regs l hl hd hg := (q.regs l hl hd (hg.imp id (p.clean l hl))).trans (p.regs l hl hd hg)
  pois l hl hg := (q.pois l hl hg).trans (p.pois l hl hg)
  clean l hl h := q.clean l hl (p.clean l hl h)
  full l hl hg := (q.full l hl hg).trans (p.full l hl hg)
  threads k t ht := (q.threads k t ht).trans (p.threads k t ht)
  warps k := (q.warps k).trans (p.warps k)
  memory a b := (q.memory a b).trans (p.memory a b)
  dies k := (q.dies k).trans (p.dies k)
  coresK k := (q.coresK k).trans (p.coresK k)
  device := q.device.trans p.device
  runs k hk := (q.runs k (by rwa [p.focus])).trans (p.runs k hk)
  tables := q.tables.trans p.tables
  others := q.others.trans p.others

end OnlyRegs

/-! ### Keys of threads -/

theorem tkey_eq {wk t wk2 t2 : Nat} (h : t < 32) (h2 : t2 < 32) (e : tkey wk t = tkey wk2 t2) : wk = wk2 ∧ t = t2 :=
  (State.tkey_inj h h2).1 e

/-- An update of one thread that changes only its registers, F and poison bits and PC, and what `own` allows. -/
theorem onlyRegs_setThread (wk t : Nat) (ht : t < 32) (x : Thread)
    (hrest : own wk t x.rest = own wk t (s.thread wk t).rest)
    (hregs : ∀ i, Loc.v wk t i ∉ ds → ((Loc.v wk t i).gran ∉ ds.map Loc.gran ∨ s.pois (.v wk t i) = false) →
      Fmap.get 0 x.v i = Fmap.get 0 (s.thread wk t).v i)
    (hpois : ∀ i, (Loc.v wk t i).gran ∉ ds.map Loc.gran → Fmap.get false x.vPois (granOf i) = Fmap.get false (s.thread wk t).vPois (granOf i))
    (hclean : ∀ i, Fmap.get false (s.thread wk t).vPois (granOf i) = false → Fmap.get false x.vPois (granOf i) = false)
    (hfull : ∀ i, (Loc.v wk t i).gran ∉ tk.map Loc.gran → Fmap.get false x.vEmpty (granOf i) = Fmap.get false (s.thread wk t).vEmpty (granOf i)) :
    OnlyRegs ds tk own s (s.setThread wk t x) where
  regs l hl hd hg := by
    cases l with
    | s => rfl
    | v wk2 t2 i =>
      simp only [State.readLoc, State.setThread_thread]
      split
      · next e =>
        obtain ⟨rfl, rfl⟩ := tkey_eq ht hl e
        exact hregs i hd hg
      · rfl
  pois l hl hg := by
    cases l with
    | s => rfl
    | v wk2 t2 i =>
      simp only [State.pois, State.setThread_thread]
      split
      · next e =>
        obtain ⟨rfl, rfl⟩ := tkey_eq ht hl e
        exact hpois i hg
      · rfl
  clean l hl h := by
    cases l with
    | s => exact h
    | v wk2 t2 i =>
      simp only [State.pois, State.setThread_thread] at h ⊢
      split
      · next e =>
        obtain ⟨rfl, rfl⟩ := tkey_eq ht hl e
        exact hclean i h
      · exact h
  full l hl hg := by
    cases l with
    | s => rfl
    | v wk2 t2 i =>
      simp only [State.full, State.setThread_thread]
      split
      · next e =>
        obtain ⟨rfl, rfl⟩ := tkey_eq ht hl e
        rw [hfull i hg]
      · rfl
  threads wk2 t2 ht2 := by
    simp only [State.setThread_thread]
    split
    · next e =>
      obtain ⟨rfl, rfl⟩ := tkey_eq ht ht2 e
      exact hrest
    · rfl
  warps _ := rfl
  memory _ _ := rfl
  dies _ := rfl
  coresK _ := rfl
  device := rfl
  runs _ _ := rfl
  tables := rfl
  others := rfl

/-- An update of one warp that changes only its s registers with their F and poison bits. -/
theorem onlyRegs_setWarp (wk : Nat) (x : Warp) (hrest : x.rest = (s.warp wk).rest)
    (hregs : ∀ i, Loc.s wk i ∉ ds → ((Loc.s wk i).gran ∉ ds.map Loc.gran ∨ s.pois (.s wk i) = false) →
      Fmap.get 0 x.s i = Fmap.get 0 (s.warp wk).s i)
    (hpois : ∀ i, (Loc.s wk i).gran ∉ ds.map Loc.gran → Fmap.get false x.sPois (granOf i) = Fmap.get false (s.warp wk).sPois (granOf i))
    (hclean : ∀ i, Fmap.get false (s.warp wk).sPois (granOf i) = false → Fmap.get false x.sPois (granOf i) = false)
    (hfull : ∀ i, (Loc.s wk i).gran ∉ tk.map Loc.gran → Fmap.get false x.sEmpty (granOf i) = Fmap.get false (s.warp wk).sEmpty (granOf i)) :
    OnlyRegs ds tk own s (s.setWarp wk x) where
  regs l hl hd hg := by
    cases l with
    | v => rfl
    | s wk2 i =>
      simp only [State.readLoc, State.setWarp_warp]
      split
      · next e => subst e; exact hregs i hd hg
      · rfl
  pois l hl hg := by
    cases l with
    | v => rfl
    | s wk2 i =>
      simp only [State.pois, State.setWarp_warp]
      split
      · next e => subst e; exact hpois i hg
      · rfl
  clean l hl h := by
    cases l with
    | v => exact h
    | s wk2 i =>
      simp only [State.pois, State.setWarp_warp] at h ⊢
      split
      · next e => subst e; exact hclean i h
      · exact h
  full l hl hg := by
    cases l with
    | v => rfl
    | s wk2 i =>
      simp only [State.full, State.setWarp_warp]
      split
      · next e => subst e; rw [hfull i hg]
      · rfl
  threads _ _ _ := rfl
  warps wk2 := by
    simp only [State.setWarp_warp]
    split
    · next e => subst e; exact hrest
    · rfl
  memory _ _ := rfl
  dies _ := rfl
  coresK _ := rfl
  device := rfl
  runs _ _ := rfl
  tables := rfl
  others := rfl

/-! ### Writing a register -/

theorem gran_v_mem {wk t i j : Nat} (hi : Loc.v wk t i ∈ ds) (e : granOf i = granOf j) : (Loc.v wk t j).gran ∈ ds.map Loc.gran := by
  refine List.mem_map.2 ⟨_, hi, ?_⟩
  simp [Loc.gran, e]

theorem gran_s_mem {wk i j : Nat} (hi : Loc.s wk i ∈ ds) (e : granOf i = granOf j) : (Loc.s wk j).gran ∈ ds.map Loc.gran := by
  refine List.mem_map.2 ⟨_, hi, ?_⟩
  simp [Loc.gran, e]

theorem get_zeroGran (m : Fmap Word) (i j : Nat) (h : granOf i ≠ granOf j) : Fmap.get 0 (zeroGran m i) j = Fmap.get 0 m j := by
  have h' : ∀ k, k < 4 → granOf i * 4 + k ≠ j := by
    unfold granOf at h ⊢
    omega
  simp only [zeroGran, Fmap.setKeys]
  have h0 := h' 0 (by omega)
  rw [Nat.add_zero] at h0
  rw [Fmap.get_set_ne _ _ _ (h' 3 (by omega)), Fmap.get_set_ne _ _ _ (h' 2 (by omega)), Fmap.get_set_ne _ _ _ (h' 1 (by omega)),
    Fmap.get_set_ne _ _ _ h0]

theorem onlyRegs_clearPois (l : Loc) (hl : l.Ok) (hm : l ∈ ds) : OnlyRegs ds tk own s (s.clearPois l) := by
  unfold State.clearPois
  split
  · next hp =>
    cases l with
    | v wk t i =>
      refine onlyRegs_setThread wk t hl _ rfl ?_ ?_ ?_ (fun _ _ => rfl)
      · intro j hj hg
        simp only
        refine get_zeroGran _ _ _ (fun e => ?_)
        rcases hg with hg | hg
        · exact hg (gran_v_mem hm e)
        · simp only [State.pois] at hp hg
          rw [e] at hp
          rw [hg] at hp
          exact Bool.noConfusion hp
      · intro j hg
        exact Fmap.get_set_ne false _ false (fun e => hg (gran_v_mem hm e))
      · intro j hj
        simp only [Fmap.get_set]
        split <;> simp_all
    | s wk i =>
      refine onlyRegs_setWarp wk _ rfl ?_ ?_ ?_ (fun _ _ => rfl)
      · intro j hj hg
        simp only
        refine get_zeroGran _ _ _ (fun e => ?_)
        rcases hg with hg | hg
        · exact hg (gran_s_mem hm e)
        · simp only [State.pois] at hp hg
          rw [e] at hp
          rw [hg] at hp
          exact Bool.noConfusion hp
      · intro j hg
        exact Fmap.get_set_ne false _ false (fun e => hg (gran_s_mem hm e))
      · intro j hj
        simp only [Fmap.get_set]
        split <;> simp_all
  · exact OnlyRegs.refl ..

theorem onlyRegs_putLoc (l : Loc) (hl : l.Ok) (hm : l ∈ ds) (x : Word) : OnlyRegs ds tk own s (s.putLoc x l) := by
  cases l with
  | v wk t i =>
    refine onlyRegs_setThread wk t hl _ rfl ?_ (fun _ _ => rfl) (fun _ h => h) (fun _ _ => rfl)
    intro j hj _
    exact Fmap.get_set_ne _ _ _ (fun e => hj (e ▸ hm))
  | s wk i =>
    refine onlyRegs_setWarp wk _ rfl ?_ (fun _ _ => rfl) (fun _ h => h) (fun _ _ => rfl)
    intro j hj _
    exact Fmap.get_set_ne _ _ _ (fun e => hj (e ▸ hm))

/-- A lane write of a register of D. -/
theorem onlyRegs_writeLoc (l : Loc) (hl : l.Ok) (hm : l ∈ ds) (x : Word) : OnlyRegs ds tk own s (s.writeLoc l x) :=
  (onlyRegs_clearPois l hl hm).trans (onlyRegs_putLoc l hl hm x)

theorem onlyRegs_writeD1 (d : List Loc) (hd : ∀ l ∈ d, l.Ok) (x : Word) : OnlyRegs d tk own s (s.writeD1 d x) := by
  cases d with
  | nil => exact OnlyRegs.refl ..
  | cons l r => exact onlyRegs_writeLoc l (hd l (by simp)) (by simp) x

theorem onlyRegs_writeD2 (d : List Loc) (hd : ∀ l ∈ d, l.Ok) (x : DWord) : OnlyRegs d tk own s (s.writeD2 d x) := by
  match d with
  | [] => exact OnlyRegs.refl ..
  | [l] => exact onlyRegs_writeLoc l (hd l (by simp)) (by simp) _
  | l :: m :: r => exact (onlyRegs_writeLoc l (hd l (by simp)) (by simp) _).trans (onlyRegs_writeLoc m (hd m (by simp)) (by simp) _)

/-! ### The end of an instruction -/

theorem onlyRegs_setFull (x : Bool) (l : Loc) (hl : l.Ok) (hm : l ∈ tk) : OnlyRegs ds tk own s (s.setFull x l) := by
  cases l with
  | v wk t i =>
    refine onlyRegs_setThread wk t hl _ rfl (fun _ _ _ => rfl) (fun _ _ => rfl) (fun _ h => h) ?_
    intro j hj
    exact Fmap.get_set_ne _ _ _ (fun e => hj (gran_v_mem hm e))
  | s wk i =>
    refine onlyRegs_setWarp wk _ rfl (fun _ _ _ => rfl) (fun _ _ => rfl) (fun _ h => h) ?_
    intro j hj
    exact Fmap.get_set_ne _ _ _ (fun e => hj (gran_s_mem hm e))

theorem onlyRegs_foldS {α : Type} (l : List α) (f : State → α → State) (h : ∀ s, ∀ a ∈ l, OnlyRegs ds tk own s (f s a)) :
    OnlyRegs ds tk own s (foldS l s f) := by
  induction l generalizing s with
  | nil => exact OnlyRegs.refl ..
  | cons a r ih => exact (h s a (by simp)).trans (ih (fun s b hb => h s b (by simp [hb])))

theorem onlyRegs_takeLocs (h : Hdr) (ls : List Loc) (hl : ∀ l ∈ ls, l.Ok) (hm : h.take = true → ∀ l ∈ ls, l ∈ tk) :
    OnlyRegs ds tk own s (s.takeLocs h ls) := by
  unfold State.takeLocs
  split
  · next ht => exact onlyRegs_foldS ls _ (fun s a ha => onlyRegs_setFull false a (hl a ha) (hm ht a ha))
  · exact OnlyRegs.refl ..

theorem onlyRegs_hits (k : Nat) (x : List (Nat × Nat × BitVec 4)) : OnlyRegs ds tk own s (s.setDie k { s.die k with hits := x }) := by
  refine { OnlyRegs.refl ds tk own s with dies := fun j => ?_ }
  simp only [State.setDie_die]
  split
  · next e => subst e; rfl
  · rfl

theorem onlyRegs_noteHits (c k : Nat) (m : BitVec 4) : OnlyRegs ds tk own s (s.noteHits c k m) := by
  unfold State.noteHits
  split
  · exact OnlyRegs.refl ..
  · exact onlyRegs_hits _ _

theorem onlyRegs_watchCells (k : Nat) (rd wr : List Cell) : OnlyRegs ds tk own s (s.watchCells k rd wr) := by
  unfold State.watchCells
  simp only
  split
  · exact OnlyRegs.refl ..
  · exact onlyRegs_noteHits _ _ _

theorem onlyRegs_watchLocs (k : Nat) (rd wr : List Loc) : OnlyRegs ds tk own s (s.watchLocs k rd wr) := onlyRegs_watchCells _ _ _

theorem onlyRegs_setRun (x : Option Run) : OnlyRegs ds tk own s (s.setRun s.focus x) :=
  { OnlyRegs.refl ds tk own s with
    runs := fun k hk => by rw [State.setRun_run, if_neg (Ne.symm hk)] }

/-- An update of what a warp holds of the results of lane instructions. -/
theorem onlyRegs_late (wk : Nat) (x : Warp) (h : x.rest = (s.warp wk).rest) (hs : x.s = (s.warp wk).s) (he : x.sEmpty = (s.warp wk).sEmpty)
    (hp : x.sPois = (s.warp wk).sPois) : OnlyRegs ds tk own s (s.setWarp wk x) :=
  onlyRegs_setWarp wk x h (fun _ _ _ => by rw [hs]) (fun _ _ => by rw [hp]) (fun _ h => by rwa [hp]) (fun _ _ => by rw [he])

theorem onlyRegs_soon (wk : Nat) (xs : List Res) (n : Nat) : OnlyRegs ds tk own s (s.soon wk xs n) := by
  unfold State.soon
  split
  · exact OnlyRegs.refl ..
  · exact onlyRegs_late wk _ rfl rfl rfl rfl

theorem onlyRegs_setRunK {k : Nat} (hk : s.focus = k) (x : Option Run) : OnlyRegs ds tk own s (s.setRun k x) := hk ▸ onlyRegs_setRun x

theorem onlyRegs_noteInd (k n : Nat) : ∀ (ls : List Loc) (s : State), s.focus = k → OnlyRegs ds tk own s (s.noteInd k n ls)
  | [], s, _ => OnlyRegs.refl ..
  | _ :: ls, s, hk => OnlyRegs.trans (onlyRegs_setRunK hk _) (onlyRegs_noteInd k n ls _ hk)

theorem onlyRegs_noteOps (c : TC) (late : Nat) (hk : c.key = s.focus) (hl : ∀ l ∈ c.a, l.Ok) (hm : c.h.take = true → ∀ l ∈ c.a, l ∈ tk) :
    OnlyRegs ds tk own s (s.noteOps c late) := by
  have ht : ∀ l ∈ takenOf c, l ∈ c.a := by
    unfold takenOf
    split <;> simp
  unfold State.noteOps
  dsimp only
  generalize (if latOf c.g = 0 then 0 else latOf c.g + late) = lat
  refine OnlyRegs.trans ?_ ((onlyRegs_soon _ _ _).trans (onlyRegs_soon _ _ _))
  have h1 : OnlyRegs ds tk own s _ := (onlyRegs_takeLocs c.h (takenOf c) (fun l h => hl l (ht l h)) (fun h l hl => hm h l (ht l hl))).trans
    (onlyRegs_watchCells c.wk (guardCells c.wk c.h.guard ++ opCells c.wk c.t c.g.a ++ opCells c.wk c.t c.g.b ++ opCells c.wk c.t c.g.d ++
      ((if (c.g.a.map OpS.rd).getD false then c.a else []) ++ (if (c.g.b.map OpS.rd).getD false then c.b else []) ++
        (if (c.g.d.map OpS.rd).getD false then c.d else [])).map Cell.reg)
      (opWrites c.wk c.g.d ++ (if (c.g.d.map OpS.wr).getD false then c.d.map Cell.reg else [])))
  split
  · exact h1.trans (onlyRegs_noteInd _ _ _ _ (h1.focus.trans hk.symm))
  · exact h1

theorem onlyRegs_markServed (m : Word) : OnlyRegs ds tk own s (s.markServed s.focus m) := onlyRegs_setRun _

theorem onlyRegs_pc (wk t : Nat) (ht : t < 32) (x : DWord) : OnlyRegs ds tk own s (s.modThread wk t (fun r => { r with pc := x })) :=
  onlyRegs_setThread wk t ht _ rfl (fun _ _ _ => rfl) (fun _ _ => rfl) (fun _ h => h) (fun _ _ => rfl)

theorem onlyRegs_core (c : Nat) (x : Core) (h : x.rest = (s.core c).rest) : OnlyRegs ds tk own s (s.setCore c x) := by
  refine { OnlyRegs.refl ds tk own s with coresK := fun j => ?_ }
  simp only [State.setCore_core]
  split
  · next e => subst e; exact h
  · rfl

theorem onlyRegs_setClk (n : Nat) : OnlyRegs ds tk own s (s.setClk n) := { OnlyRegs.refl ds tk own s with }

theorem onlyRegs_tdSync (c : Nat) : OnlyRegs ds tk own s (s.tdSync c) := by
  unfold State.tdSync State.tdSyncTo
  dsimp only
  split
  · exact OnlyRegs.refl ..
  · exact onlyRegs_core _ _ rfl

theorem onlyRegs_passLane (k cls n : Nat) (hk : s.focus = k) : OnlyRegs ds tk own s (s.passLane k cls n) := by
  unfold State.passLane
  split
  · exact OnlyRegs.refl ..
  · have h1 : OnlyRegs ds tk own s (if k < 0x10000000000 then s.tdSync (k / 64)
        else match s.run k with
          | some r => if isSlice r.wk then s.tookSlice r.wk else s
          | none => s) := by
      split
      · exact onlyRegs_tdSync _
      · split
        · split
          · exact onlyRegs_core _ _ rfl
          · exact OnlyRegs.refl ..
        · exact OnlyRegs.refl ..
    exact h1.trans (onlyRegs_setRunK (h1.focus.trans hk) _)

theorem rangesNow_rest (s : State) (wk : Nat) : (s.rangesNow wk).filter (fun r => !r.isLane) = (s.warp wk).ranges.filter (fun r => !r.isLane) := by
  unfold State.rangesNow
  rw [List.filter_filter]
  refine List.filter_congr (fun x _ => ?_)
  unfold Rng.isLane
  cases x.owner <;> simp

theorem onlyRegs_pushInd (r : Run) : OnlyRegs ds tk own s (s.pushInd r) := by
  unfold State.pushInd
  split
  · exact OnlyRegs.refl ..
  · refine onlyRegs_late _ _ ?_ rfl rfl rfl
    simp only [Warp.rest, List.filter_append, rangesNow_rest]
    simp [Rng.isLane]

theorem maskList_lt {m : Word} {t : Nat} (h : t ∈ maskList m) : t < 32 := by
  simpa using (List.mem_filter.1 h).1

theorem onlyRegs_ite {p : Prop} [Decidable p] {v : State} (hu : OnlyRegs ds tk own s u) (hv : OnlyRegs ds tk own s v) :
    OnlyRegs ds tk own s (if p then u else v) := by
  split
  · exact hu
  · exact hv

/-- The end of an instruction writes the PCs of its run, the run itself, the clock and the core's account. -/
theorem onlyRegs_endInstr (i : Instr) (h : Hdr) (br : Word) (n : Nat) : OnlyRegs ds tk own s (s.endInstr s.focus i h br n) := by
  unfold State.endInstr
  split
  · exact OnlyRegs.refl ..
  · next r _ =>
    have h1 : OnlyRegs ds tk own s (foldS (maskList r.members) s (fun s t =>
        if (s.thread r.wk t).trap.isSome || br.getLsbD t || (s.thread r.wk t).hold.atInstr then s
        else s.modThread r.wk t (fun x => { x with pc := x.pc + 12 }))) := by
      refine onlyRegs_foldS _ _ (fun s t ht => ?_)
      split
      · exact OnlyRegs.refl ..
      · exact onlyRegs_pc _ _ (maskList_lt ht) _
    have h2 := h1.trans ((onlyRegs_passLane _ i.cls n h1.focus).trans (onlyRegs_pushInd r))
    exact h2.trans (onlyRegs_ite (onlyRegs_setRunK h2.focus _) (onlyRegs_setRunK h2.focus _))

end Sys2Proof.Machine
end

