-- ==== Sys2Proof/Laws/Memory.lean ====
section
/-! SUPPORT. Laws of placed memory: what a write changes, and the canonical form that every operation over memory keeps. -/

namespace Sys2Proof.Machine

variable {s : State}

@[simp] theorem putByte_chtab (swz pa : Nat) (x : Byte) : (s.putByte swz pa x).dev.chtab = s.dev.chtab := rfl
@[simp] theorem byteAt_putByte_self (swz pa : Nat) (x : Byte) : (s.putByte swz pa x).byteAt swz pa = x := by
  unfold State.byteAt State.putByte; exact Fmap.get_set_self ..

/-- A byte written at one place leaves every other place as it was. -/
theorem mem_putByte_ne (swz pa : Nat) (x : Byte) {p : Nat} (h : placeOf s.dev.chtab swz pa ≠ p) :
    Fmap.get memDefault (s.putByte swz pa x).mem p = Fmap.get memDefault s.mem p := Fmap.get_set_ne _ _ _ h

theorem memWf_putByte (swz pa : Nat) (x : Byte) (h : s.memWf = true) : (s.putByte swz pa x).memWf = true := Fmap.wf_set _ _ _ _ h

theorem writeBytes_dev (swz pa : Nat) (l : List Byte) : (s.writeBytes swz pa l).dev = s.dev := by
  induction l generalizing s pa with
  | nil => rfl
  | cons b r ih => exact ih (s := s.putByte swz pa b) (pa + 1)

theorem memWf_writeBytes (swz pa : Nat) (l : List Byte) (h : s.memWf = true) : (s.writeBytes swz pa l).memWf = true := by
  induction l generalizing s pa with
  | nil => exact h
  | cons b r ih => exact ih _ (memWf_putByte swz pa b h)

/-- A string of bytes written leaves every place but theirs as it was. -/
theorem mem_writeBytes_ne (swz pa : Nat) (l : List Byte) {p : Nat} (h : ∀ k < l.length, placeOf s.dev.chtab swz (pa + k) ≠ p) :
    Fmap.get memDefault (s.writeBytes swz pa l).mem p = Fmap.get memDefault s.mem p := by
  induction l generalizing s pa with
  | nil => rfl
  | cons b r ih =>
    have h1 := ih (s := s.putByte swz pa b) (pa + 1) (fun k hk => by
      rw [show pa + 1 + k = pa + (k + 1) by omega]; exact h (k + 1) (by simpa using hk))
    exact h1.trans (mem_putByte_ne swz pa b (h 0 (by simp)))

/-- Marking and healing check codes changes no byte of memory. -/
theorem foldl_mem {α : Type} (l : List α) (f : State → α → State) (h : ∀ s a, (f s a).mem = s.mem ∧ (f s a).dev = s.dev) :
    (l.foldl f s).mem = s.mem ∧ (l.foldl f s).dev = s.dev := by
  induction l generalizing s with
  | nil => exact ⟨rfl, rfl⟩
  | cons a r ih => exact ⟨(ih (s := f s a)).1.trans (h s a).1, (ih (s := f s a)).2.trans (h s a).2⟩

theorem healAt_mem (swz pa n : Nat) : (s.healAt swz pa n).mem = s.mem ∧ (s.healAt swz pa n).dev = s.dev := by
  unfold State.healAt
  split
  · exact ⟨rfl, rfl⟩
  · exact foldl_mem _ _ (fun s a => by split <;> exact ⟨rfl, rfl⟩)

theorem markBad_mem (swz pa n : Nat) : (s.markBad swz pa n).mem = s.mem ∧ (s.markBad swz pa n).dev = s.dev :=
  foldl_mem _ _ (fun _ _ => ⟨rfl, rfl⟩)

theorem writeMem_dev (swz pa : Nat) (l : List Byte) : (s.writeMem swz pa l).dev = s.dev :=
  (writeBytes_dev swz pa l).trans (healAt_mem swz pa l.length).2

/-- A write to memory keeps its canonical form. -/
theorem memWf_writeMem (swz pa : Nat) (l : List Byte) (h : s.memWf = true) : (s.writeMem swz pa l).memWf = true :=
  memWf_writeBytes swz pa l (by unfold State.memWf at h ⊢; rwa [(healAt_mem swz pa l.length).1])

/-- A write to memory leaves every place but those of its bytes as it was. -/
theorem mem_writeMem_ne (swz pa : Nat) (l : List Byte) {p : Nat} (h : ∀ k < l.length, placeOf s.dev.chtab swz (pa + k) ≠ p) :
    Fmap.get memDefault (s.writeMem swz pa l).mem p = Fmap.get memDefault s.mem p :=
  (mem_writeBytes_ne swz pa l (by rwa [(healAt_mem swz pa l.length).2])).trans (by rw [(healAt_mem swz pa l.length).1])

end Sys2Proof.Machine
end

