-- ==== Sys2Proof/Laws/Results.lean ====
section
/-! SUPPORT. From a body to a claim: the registers an operand names are distinct registers of a warp, what a write to D reads as
afterwards, and `Computes` and `ComputesFp` for every instruction whose body writes D. -/

namespace Sys2Proof.Machine

/-! ### The registers an operand names -/

theorem locsV_ok (wk t i n : Nat) (h : t < 32) : ∀ l ∈ locsV wk t i n, l.Ok := by
  intro l hl
  obtain ⟨k, -, rfl⟩ := List.mem_map.1 hl
  exact h

theorem locsV_nodup (wk t i n : Nat) : (locsV wk t i n).Nodup :=
  List.Nodup.map (fun a b e => by simpa using e) List.nodup_range

theorem locsS_ok (wk i n : Nat) : ∀ l ∈ locsS wk i n, l.Ok := by
  intro l hl
  obtain ⟨k, -, rfl⟩ := List.mem_map.1 hl
  trivial

theorem locsS_nodup (wk i n : Nat) : (locsS wk i n).Nodup :=
  List.Nodup.map (fun a b e => by simpa using e) List.nodup_range

theorem winReg_ok {s : State} {h : DWord} {t o : Nat} {l : Loc} (ht : t < 32) (e : s.winReg h t o = some l) : l.Ok := by
  unfold State.winReg at e
  simp only at e
  split at e
  · split at e
    · cases e; exact ht
    · cases e
  · split at e
    · next hlt => cases e; exact Nat.div_lt_of_lt_mul (by rwa [Nat.mul_comm] at hlt)
    · cases e
  · split at e
    · cases e; exact Nat.mod_lt _ (by decide)
    · cases e
  · cases e

theorem div_mod_inj {a b n : Nat} (h : a / n = b / n) (h2 : a % n = b % n) : a = b := by
  rw [← Nat.div_add_mod a n, ← Nat.div_add_mod b n, h, h2]

theorem winReg_inj {s : State} {h : DWord} {t o o2 : Nat} {l : Loc} (e : s.winReg h t o = some l) (e2 : s.winReg h t o2 = some l) : o = o2 := by
  unfold State.winReg at e e2
  simp only at e e2
  generalize (s.hDesc h).len = n, (s.hDesc h).base = b at e e2
  generalize hScope h = k at e e2
  match k with
  | 0 =>
    simp only [Option.ite_none_right_eq_some, Option.some.injEq] at e e2
    have := e.2.trans e2.2.symm
    simp only [Loc.v.injEq] at this
    omega
  | 1 =>
    simp only [Option.ite_none_right_eq_some, Option.some.injEq] at e e2
    have := e.2.trans e2.2.symm
    simp only [Loc.v.injEq] at this
    exact div_mod_inj this.2.1 (by omega)
  | 2 =>
    simp only [Option.ite_none_right_eq_some, Option.some.injEq] at e e2
    have := e.2.trans e2.2.symm
    simp only [Loc.v.injEq] at this
    obtain ⟨e3, e4, e5⟩ := this
    refine div_mod_inj (n := n) (div_mod_inj (n := 32) ?_ e4) (by omega)
    rw [Nat.div_div_eq_div_mul, Nat.div_div_eq_div_mul, Nat.mul_comm]
    omega
  | k + 3 => simp at e

/-- The registers of an operand that is ready are distinct registers of a warp. -/
theorem target_regs {s : State} {wk t : Nat} {o : OpS} {w : Bool} {ls : List Loc} (ht : t < 32) (e : s.target wk t o w = .regs ls) :
    ls.Nodup ∧ ∀ l ∈ ls, l.Ok := by
  unfold State.target at e
  split at e
  · cases e; exact ⟨locsV_nodup .., locsV_ok _ _ _ _ ht⟩
  · cases e; exact ⟨locsS_nodup .., locsS_ok _ _ _⟩
  · simp only at e
    split at e
    · cases e
    · cases e; exact ⟨locsV_nodup .., locsV_ok _ _ _ _ ht⟩
  · split at e
    · cases e; simp
    · simp only at e
      split at e
      · cases e
      · cases e
        constructor
        · refine List.Nodup.filterMap ?_ List.nodup_range
          intro a a' b hb hb'
          have := winReg_inj hb hb'
          omega
        · intro l hl
          obtain ⟨k, -, hk⟩ := List.mem_filterMap.1 hl
          exact winReg_ok ht hk
  · cases e; simp

theorem prepOp_regs {s : State} {wk t : Nat} {o : Option OpS} {ls : List Loc} (ht : t < 32) (e : s.prepOp wk t o = .ok ls) :
    ls.Nodup ∧ ∀ l ∈ ls, l.Ok := by
  cases o with
  | none =>
    simp only [State.prepOp, Prep.ok.injEq] at e
    simp [← e]
  | some o =>
    simp only [State.prepOp] at e
    generalize (if o.regs = 0 then [] else idxLoc wk t o.x) = idx at e
    split at e
    · simp at e
    · split at e
      · simp at e
      · split at e
        · simp at e
        · next hls =>
          split at e
          · simp at e
          · simp only [Prep.ok.injEq] at e
            exact e ▸ target_regs ht hls

theorem prepOp_locs {s : State} {wk t : Nat} {o : Option OpS} (ht : t < 32) :
    (s.prepOp wk t o).locs.Nodup ∧ ∀ l ∈ (s.prepOp wk t o).locs, l.Ok := by
  cases e : s.prepOp wk t o with
  | ok ls => exact prepOp_regs ht e
  | wait => simp [Prep.locs]
  | trap => simp [Prep.locs]

theorem prep_regs {s : State} {wk t : Nat} {h : Hdr} {g : Sig} {d a b : List Loc} (ht : t < 32) (e : s.prep wk t h g = .ok d a b) :
    (d.Nodup ∧ ∀ l ∈ d, l.Ok) ∧ (a.Nodup ∧ ∀ l ∈ a, l.Ok) ∧ (b.Nodup ∧ ∀ l ∈ b, l.Ok) := by
  unfold State.prep at e
  simp only at e
  split at e
  · cases e
  · split at e
    · cases e
    · split at e
      · cases e
      · split at e
        · cases e
        · cases e; exact ⟨prepOp_locs ht, prepOp_locs ht, prepOp_locs ht⟩

/-! ### Reading back -/

variable {s u : State}

theorem readLoc_putLoc_self (s : State) (l : Loc) (x : Word) : (s.putLoc x l).readLoc l = x := by
  cases l <;> simp [State.putLoc, State.readLoc]

theorem readLoc_writeLoc_self (s : State) (l : Loc) (x : Word) : (s.writeLoc l x).readLoc l = x := readLoc_putLoc_self _ _ _

theorem pois_putLoc (s : State) (l m : Loc) (x : Word) : (s.putLoc x l).pois m = s.pois m := by
  cases l <;> cases m <;> simp only [State.putLoc, State.pois, State.modThread_eq, State.modWarp_eq, State.setThread_thread, State.setWarp_warp,
    State.setThread_warp, State.setWarp_thread]
  · split
    · next e => simp only [State.thread]; rw [e]
    · rfl
  · split
    · next e => rw [e]
    · rfl

theorem pois_clearPois_self (s : State) (l : Loc) : (s.clearPois l).pois l = false := by
  unfold State.clearPois
  split
  · cases l <;> simp [State.pois]
  · next h => simpa using h

theorem pois_writeLoc_self (s : State) (l : Loc) (x : Word) : (s.writeLoc l x).pois l = false := by
  rw [State.writeLoc, pois_putLoc, pois_clearPois_self]

/-- Another register keeps its value where its granule is not poisoned. -/
theorem readLoc_writeLoc_ne (s : State) {l m : Loc} (hl : l.Ok) (hm : m.Ok) (x : Word) (h : m ≠ l) (hp : s.pois m = false) :
    (s.writeLoc l x).readLoc m = s.readLoc m :=
  (onlyRegs_writeLoc (ds := [l]) (tk := []) (own := fun _ _ x => x) l hl (by simp) x).regs m hm (by simpa using h) (.inr hp)

theorem pair_halves (x : DWord) : Word.pair x.lo x.hi = x := by
  refine BitVec.eq_of_getLsbD_eq (fun i hi => ?_)
  simp only [Word.pair, DWord.lo, DWord.hi, BitVec.getLsbD_append, BitVec.getLsbD_setWidth, BitVec.getLsbD_ushiftRight]
  by_cases h : i < 32
  · simp [h]
  · have h2 : 32 + (i - 32) = i := by omega
    simp [h, h2, show i - 32 < 32 by omega]

/-- What D reads as after a write. -/
theorem locsVal_writeD2 (s : State) (d : List Loc) (hn : d.Nodup) (hd : ∀ l ∈ d, l.Ok) (x : DWord) : (s.writeD2 d x).locsVal d = narrow d x := by
  match d, hn, hd with
  | [], _, _ => rfl
  | [l], _, _ => simp [State.writeD2, State.locsVal, narrow, readLoc_writeLoc_self]
  | l :: m :: r, hn, hd =>
    have hne : l ≠ m := by
      intro e
      simp [e] at hn
    simp only [State.writeD2, State.locsVal, narrow, State.readPair, readLoc_writeLoc_self]
    rw [readLoc_writeLoc_ne _ (hd m (by simp)) (hd l (by simp)) _ hne (pois_writeLoc_self _ _ _), readLoc_writeLoc_self]
    exact pair_halves x

/-! ### Whole instructions -/

theorem popOp_focus {s s2 : State} {key wk pos : Nat} {o : Option OpS} {x : Word} (e : s.popOp key wk pos o = some (x, s2)) : s2.focus = s.focus := by
  unfold State.popOp at e
  split at e
  · split at e
    · simp at e
    · split at e
      · simp only [Option.some.injEq, Prod.mk.injEq] at e
        rw [← e.2]
      · split at e
        · split at e
          · simp only [Option.some.injEq, Prod.mk.injEq] at e
            rw [← e.2]
            rfl
          · simp at e
        · simp at e
  · simp only [Option.some.injEq, Prod.mk.injEq] at e
    rw [← e.2]

theorem pops_focus {s s2 : State} {key wk : Nat} {g : Sig} {x y : Word} (e : s.pops key wk g = some (x, y, s2)) : s2.focus = s.focus := by
  unfold State.pops at e
  split at e
  · simp at e
  · next h1 =>
    split at e
    · simp at e
    · next h2 =>
      simp only [Option.some.injEq, Prod.mk.injEq] at e
      rw [← e.2.2, popOp_focus h2, popOp_focus h1]

variable {i : Instr} {g : Sig} {h : Hdr} {r : Run} {t : Nat} {d a b : List Loc} {x y : Word} {s1 : State}

theorem Operands.focus (o : Operands s h g r t d a b x y s1) : s1.focus = s.focus := (pops_focus o.pops).trans (opened_focus s t)

variable {ds tk : List Loc} {own : Nat → Nat → Thread → Thread}

theorem locsVal_congr {u : State} (d : List Loc) (h : ∀ l ∈ d, u.readLoc l = s.readLoc l) : u.locsVal d = s.locsVal d := by
  match d, h with
  | [], _ => rfl
  | [l], h => simp only [State.locsVal]; rw [h l (by simp)]
  | l :: m :: q, h => simp only [State.locsVal, State.readPair]; rw [h l (by simp), h m (by simp)]

/-- The passage through the lane itself writes no register. -/
theorem onlyRegs_passed {s2 : State} (now : Nat) (c : TC) (i : Instr) (br : Bool) (hk : c.key = s2.focus) (ha : ∀ l ∈ c.a, l.Ok)
    (hm : c.h.take = true → ∀ l ∈ c.a, l ∈ tk) : OnlyRegs ds tk own s2 (s2.passed now c i br) := by
  have h1 : OnlyRegs ds tk own s2 (s2.noteOps c) := onlyRegs_noteOps c 0 hk ha hm
  have h2 := h1.trans ((onlyRegs_markServed (bit1 c.t)).trans (onlyRegs_setClk now))
  refine h2.trans ?_
  unfold State.passed
  rw [hk, ← h1.focus]
  exact onlyRegs_endInstr _ _ _ _

/-- A body that writes D, and does no more to registers after that: the instruction computes that value. -/
theorem writes_then {uni : Bool} {ka kb : ImmK} {early : Early} {body : TC → State → TRes} {P : TC → State → Prop} {f : TC → State → DWord}
    {V : TC → State → State} (he : ∀ s, exec i s = laneEarly i uni false ka kb early body s)
    (hv : ∀ c s ds tk own, OnlyRegs ds tk own (s.writeD2 c.d (f c s)) (V c s))
    (hb : ∀ c s, P c s → body c s = .done (V c s)) : Writes i ka kb P f := by
  intro g h s r t d a b x y s1 p o hP
  obtain ⟨⟨hn, hd⟩, ⟨-, ha⟩, -⟩ := prep_regs p.thread o.ready
  generalize hc : s1.ctx h g ka kb s.focus r (bit1 t) t d a b x y = c at hP ⊢
  have cd : c.d = d := by rw [← hc]; rfl
  have ca : c.a = a := by rw [← hc]; rfl
  have ckey : c.key = s.focus := by rw [← hc]; rfl
  have ch : c.h = h := by rw [← hc]; rfl
  have hac : ∀ l ∈ c.a, l.Ok := by rw [ca]; exact ha
  have hv1 : ∀ ds tk own, OnlyRegs ds tk own (s1.writeD2 d (f c s1)) (V c s1) := cd ▸ hv c s1
  have hw := (onlyRegs_writeD2 (tk := if h.take = true then a else []) (own := fun _ _ x => x) (s := s1) d hd (f c s1)).trans (hv1 _ _ _)
  have hk : c.key = (V c s1).focus := by rw [hw.focus, o.focus, ckey]
  have hex := (he s).trans (laneEarly_done p o uni false ka kb early body _ (by rw [hc]; exact hb _ _ hP))
  rw [hc] at hex
  refine ⟨_, hex, ?_, ?_⟩
  · rw [← locsVal_writeD2 s1 d hn hd]
    have hp := (hv1 [] a (fun _ _ x => x)).trans (onlyRegs_passed s.clk c i false hk hac (fun _ l hl => ca ▸ hl))
    have hl : ∀ l ∈ d, _ := fun l hl => hp.regs l (hd l hl) (by simp) (.inl (by simp))
    exact locsVal_congr d hl
  · exact hw.trans (onlyRegs_passed s.clk c i false hk hac (fun ht l hl => by
      rw [ch] at ht
      rw [ca] at hl
      simpa [ht] using hl))

theorem writes_done {uni : Bool} {ka kb : ImmK} {early : Early} {body : TC → State → TRes} {P : TC → State → Prop} {f : TC → State → DWord}
    (he : ∀ s, exec i s = laneEarly i uni false ka kb early body s)
    (hb : ∀ c s, P c s → body c s = .done (s.writeD2 c.d (f c s))) : Writes i ka kb P f :=
  writes_then he (fun _ _ _ _ _ => OnlyRegs.refl _ _ _ _) hb

theorem computes_done {uni : Bool} {ka kb : ImmK} {early : Early} {body : TC → State → TRes} {P : TC → State → Prop} {f : TC → State → DWord}
    (he : ∀ s, exec i s = laneEarly i uni false ka kb early body s)
    (hb : ∀ c s, P c s → body c s = .done (s.writeD2 c.d (f c s))) : Computes i uni ka kb P f :=
  ⟨writes_done he hb, laneEarly_completes uni false ka kb early body P _ he hb⟩

theorem computes_val {uni : Bool} {ka kb : ImmK} {f : TC → DWord} (he : ∀ s, exec i s = laneEach i uni false ka kb (valBody f) s) :
    Computes i uni ka kb (fun _ _ => True) (fun c _ => f c) :=
  computes_done he (fun _ _ _ => rfl)

/-! ### FP conditions -/

theorem fpKind_ge {f en : Word} {k : Nat} (e : fpKind f en = some k) : 0xA ≤ k := by
  unfold fpKind at e
  simp only at e
  split at e
  · cases e; decide
  · split at e
    · cases e; decide
    · split at e
      · cases e; decide
      · split at e
        · cases e; decide
        · split at e
          · cases e; decide
          · cases e

/-- A thread after its FP conditions. -/
def fpThread (c : TC) (f : Word) (x : Thread) : Thread :=
  if c.h.nf then x else
  let x1 : Thread := if f = 0 then x else { x with fflags := x.fflags ||| f }
  match fpKind f x.ften with
  | some k => if x.inHandler then x1 else { x1 with trap := some ⟨k, c.pc, c.pc + 12, tdDest c.g c.d⟩, hold := .trap }
  | none => x1

/-- The state in which FP conditions are recorded: `%fflags` is due (R142). -/
def fpStart (s : State) (c : TC) : State := if c.h.nf then s else s.soon c.wk [.flags c.t] (latOf c.g)

@[simp] theorem soon_thread (s : State) (k : Nat) (xs : List Res) (n wk t : Nat) : (s.soon k xs n).thread wk t = s.thread wk t := by
  unfold State.soon
  split <;> rfl

theorem fpStart_thread (s : State) (c : TC) (wk t : Nat) : (fpStart s c).thread wk t = s.thread wk t := by
  unfold fpStart
  split
  · rfl
  · exact soon_thread ..

theorem onlyRegs_fpStart {own : Nat → Nat → Thread → Thread} {ds tk : List Loc} (s : State) (c : TC) : OnlyRegs ds tk own s (fpStart s c) := by
  unfold fpStart
  split
  · exact OnlyRegs.refl ..
  · exact onlyRegs_soon _ _ _

theorem fpDone_one (s : State) (c : TC) (f : Word) :
    s.fpDone c [c.t] f = fpStart s c ∧ fpThread c f (s.thread c.wk c.t) = s.thread c.wk c.t ∨
    s.fpDone c [c.t] f = (fpStart s c).setThread c.wk c.t (fpThread c f (s.thread c.wk c.t)) ∨
    (∃ z, s.fpDone c [c.t] f = ((fpStart s c).setThread c.wk c.t z).setThread c.wk c.t (fpThread c f (s.thread c.wk c.t))) := by
  unfold State.fpDone fpThread fpStart
  by_cases hn : c.h.nf = true
  · exact .inl (by simp [hn])
  · simp only [hn, Bool.false_eq_true, if_false, foldS, List.foldl_cons, List.foldl_nil, List.map_cons, List.map_nil]
    by_cases hf : f = 0
    · subst hf
      simp [State.setFlags, fpKind]
    · simp only [State.setFlags, hf, if_false, State.modThread_eq, State.setThread_thread_self, soon_thread]
      cases hk : fpKind f (s.thread c.wk c.t).ften with
      | none => exact .inr (.inl rfl)
      | some k =>
        have hge := fpKind_ge hk
        simp only [State.raise, State.setThread_thread_self, hge, if_true]
        split
        · exact .inr (.inl rfl)
        · have h1 : ¬(k = kFetch ∨ k = kPois) := by unfold kFetch kPois; omega
          simp only [h1, if_false]
          exact .inr (.inr ⟨{ s.thread c.wk c.t with fflags := (s.thread c.wk c.t).fflags ||| f }, rfl⟩)

theorem fpThread_rest (c : TC) (f : Word) (x : Thread) : fpOwn c.wk c.t c.wk c.t (fpThread c f x).rest = fpOwn c.wk c.t c.wk c.t x.rest := by
  unfold fpThread fpOwn
  simp only [and_self, if_true]
  split
  · rfl
  · split
    · split <;> split <;> rfl
    · split <;> rfl

theorem fpThread_regs (c : TC) (f : Word) (x : Thread) :
    (fpThread c f x).v = x.v ∧ (fpThread c f x).vPois = x.vPois ∧ (fpThread c f x).vEmpty = x.vEmpty := by
  unfold fpThread
  split
  · simp
  · simp only
    split
    · split <;> split <;> simp
    · split <;> simp

theorem fpDone_thread (s : State) (c : TC) (f : Word) : (s.fpDone c [c.t] f).thread c.wk c.t = fpThread c f (s.thread c.wk c.t) := by
  rcases fpDone_one s c f with ⟨h1, h2⟩ | h | ⟨z, h⟩
  · rw [h1, h2, fpStart_thread]
  · rw [h, State.setThread_thread_self]
  · rw [h, State.setThread_thread_self]

theorem setThread_setThread_regs (s : State) (wk t : Nat) (z x : Thread) (u : State) (h : OnlyRegs ds tk own s (s.setThread wk t x))
    (e : u = (s.setThread wk t z).setThread wk t x) : OnlyRegs ds tk own s u := by
  subst e
  have ht : ∀ w2 t2, ((s.setThread wk t z).setThread wk t x).thread w2 t2 = (s.setThread wk t x).thread w2 t2 := by
    intro w2 t2
    simp only [State.setThread_thread]
    split <;> rfl
  constructor
  · intro l hl hd hg
    rw [← h.regs l hl hd hg]
    cases l with
    | v w2 t2 j => simp only [State.readLoc, ht]
    | s => rfl
  · intro l hl hg
    rw [← h.pois l hl hg]
    cases l with
    | v w2 t2 j => simp only [State.pois, ht]
    | s => rfl
  · intro l hl hp
    rw [← h.clean l hl hp]
    cases l with
    | v w2 t2 j => simp only [State.pois, ht]
    | s => rfl
  · intro l hl hg
    rw [← h.full l hl hg]
    cases l with
    | v w2 t2 j => simp only [State.full, ht]
    | s => rfl
  · intro w2 t2 h2
    rw [ht, h.threads w2 t2 h2]
  · exact h.warps
  · exact h.memory
  · exact h.dies
  · exact h.coresK
  · exact h.device
  · exact h.runs
  · exact h.tables
  · exact h.others

theorem onlyRegs_fpDone (s : State) (c : TC) (f : Word) (ht : c.t < 32) : OnlyRegs ds tk (fpOwn c.wk c.t) s (s.fpDone c [c.t] f) := by
  have h0 : OnlyRegs ds tk (fpOwn c.wk c.t) s (fpStart s c) := onlyRegs_fpStart s c
  have hx : OnlyRegs ds tk (fpOwn c.wk c.t) (fpStart s c) ((fpStart s c).setThread c.wk c.t (fpThread c f (s.thread c.wk c.t))) := by
    obtain ⟨h1, h2, h3⟩ := fpThread_regs c f (s.thread c.wk c.t)
    rw [← fpStart_thread s c] at h1 h2 h3 ⊢
    refine onlyRegs_setThread c.wk c.t ht _ (fpThread_rest c f _) ?_ ?_ ?_ ?_
    · intro j _ _; rw [h1]
    · intro j _; rw [h2]
    · intro j hj; rw [h2]; exact hj
    · intro j _; rw [h3]
  rcases fpDone_one s c f with ⟨h1, -⟩ | h | ⟨z, h⟩
  · rw [h1]; exact h0
  · rw [h]; exact h0.trans hx
  · exact h0.trans (setThread_setThread_regs (fpStart s c) c.wk c.t z _ _ hx h)

theorem onlyRegs_passedFp {s2 : State} (now : Nat) (c : TC) (i : Instr) (f : Word) (hk : c.key = s2.focus) (ht : c.t < 32) (ha : ∀ l ∈ c.a, l.Ok)
    (hm : c.h.take = true → ∀ l ∈ c.a, l ∈ tk) : OnlyRegs ds tk (fpOwn c.wk c.t) s2 (s2.passedFp now c i f) := by
  have h1 : OnlyRegs ds tk (fpOwn c.wk c.t) s2 (s2.noteOps c) := onlyRegs_noteOps c 0 hk ha hm
  have h2 := h1.trans (onlyRegs_fpDone (s2.noteOps c) c f ht)
  have h3 := h2.trans ((onlyRegs_markServed (bit1 c.t)).trans (onlyRegs_setClk now))
  refine h3.trans ?_
  unfold State.passedFp
  rw [hk, ← h2.focus]
  exact onlyRegs_endInstr _ _ _ _

theorem fpRaised_fpThread (c : TC) (f : Word) (x : Thread) : FpRaised c.h c.g c.d c.pc f x (fpThread c f x) := by
  unfold FpRaised fpThread
  by_cases hn : c.h.nf = true
  · simp [hn]
  · simp only [hn, Bool.false_eq_true, if_false, Bool.false_or]
    by_cases hf : f = 0
    · subst hf
      simp [fpKind]
    · simp only [hf, if_false]
      by_cases hh : x.inHandler = true
      · simp only [hh, if_true]
        split <;> simp
      · simp only [hh, Bool.false_eq_true, if_false]
        split <;> simp [*]

/-- The fields of FP conditions are fields that a passage through the lane leaves alone. -/
theorem fpRaised_congr {h : Hdr} {g : Sig} {d : List Loc} {pc : DWord} {f : Word} {x x2 y y2 : Thread} (hx : x.rest = x2.rest) (hy : y.rest = y2.rest)
    (p : FpRaised h g d pc f x y) : FpRaised h g d pc f x2 y2 := by
  have e1 : x.fflags = x2.fflags := (congrArg Thread.fflags hx : _)
  have e2 : x.ften = x2.ften := (congrArg Thread.ften hx : _)
  have e3 : x.inHandler = x2.inHandler := (congrArg Thread.inHandler hx : _)
  have e4 : x.trap = x2.trap := (congrArg Thread.trap hx : _)
  have e5 : x.hold = x2.hold := (congrArg Thread.hold hx : _)
  have e6 : y.fflags = y2.fflags := (congrArg Thread.fflags hy : _)
  have e7 : y.trap = y2.trap := (congrArg Thread.trap hy : _)
  have e8 : y.hold = y2.hold := (congrArg Thread.hold hy : _)
  unfold FpRaised at p ⊢
  rw [e1, e2, e3, e4, e5, e6, e7, e8] at p
  exact p

/-- A body that writes D and raises FP conditions. -/
theorem writesFp_fp {uni : Bool} {ka kb : ImmK} {early : Early} {body : TC → State → TRes} {P : TC → State → Prop}
    {f : TC → State → DWord × Word} (he : ∀ s, exec i s = laneEarly i uni false ka kb early body s)
    (hb : ∀ c s, P c s → body c s = .fp (s.writeD2 c.d (f c s).1) (f c s).2) : WritesFp i ka kb P f := by
  intro g h s r t d a b x y s1 p o hP
  obtain ⟨⟨hn, hd⟩, ⟨-, ha⟩, -⟩ := prep_regs p.thread o.ready
  generalize hc : s1.ctx h g ka kb s.focus r (bit1 t) t d a b x y = c at hP ⊢
  have ct : c.t = t := by rw [← hc]; rfl
  have cwk : c.wk = r.wk := by rw [← hc]; rfl
  have cd : c.d = d := by rw [← hc]; rfl
  have ca : c.a = a := by rw [← hc]; rfl
  have ckey : c.key = s.focus := by rw [← hc]; rfl
  have ch : c.h = h := by rw [← hc]; rfl
  have cg : c.g = g := by rw [← hc]; rfl
  have cpc : c.pc = r.pc := by rw [← hc]; rfl
  have ht : c.t < 32 := by rw [ct]; exact p.thread
  have hac : ∀ l ∈ c.a, l.Ok := by rw [ca]; exact ha
  have hw : ∀ own, OnlyRegs d (if h.take = true then a else []) own s1 (s1.writeD2 d (f c s1).1) := fun own => onlyRegs_writeD2 d hd (f c s1).1
  have hk : c.key = (s1.writeD2 d (f c s1).1).focus := by rw [(hw fun _ _ x => x).focus, o.focus, ckey]
  have hex := (he s).trans (laneEarly_fp p o uni ka kb early body _ _ (by rw [hc]; exact hb _ _ hP))
  rw [hc, cd] at hex
  refine ⟨_, hex, ?_, ?_, ?_⟩
  · rw [← locsVal_writeD2 s1 d hn hd]
    have hp := onlyRegs_passedFp (ds := []) (tk := a) s.clk c i (f c s1).2 hk ht hac (fun _ l hl => ca ▸ hl)
    have hl : ∀ l ∈ d, _ := fun l hl => hp.regs l (hd l hl) (by simp) (.inl (by simp))
    exact locsVal_congr d hl
  · generalize hs2 : s1.writeD2 d (f c s1).1 = s2 at hk
    have h1 : OnlyRegs d a (fun _ _ x => x) s1 (s2.noteOps c) :=
      (hs2 ▸ onlyRegs_writeD2 d hd (f c s1).1).trans (onlyRegs_noteOps c 0 hk hac (fun _ l hl => ca ▸ hl))
    have h2 : OnlyRegs d a (fpOwn c.wk c.t) s2 ((s2.noteOps c).fpDone c [c.t] (f c s1).2) :=
      (onlyRegs_noteOps c 0 hk hac (fun _ l hl => ca ▸ hl)).trans (onlyRegs_fpDone _ c _ ht)
    have h3 : OnlyRegs d a (fun _ _ x => x) ((s2.noteOps c).fpDone c [c.t] (f c s1).2) (s2.passedFp s.clk c i (f c s1).2) := by
      have h4 := onlyRegs_markServed (ds := d) (tk := a) (own := fun _ _ x => x) (s := (s2.noteOps c).fpDone c [c.t] (f c s1).2) (bit1 c.t)
      refine h4.trans ((onlyRegs_setClk s.clk).trans ?_)
      unfold State.passedFp
      rw [hk, ← h2.focus]
      exact onlyRegs_endInstr _ _ _ _
    have q := fpRaised_fpThread c (f c s1).2 ((s2.noteOps c).thread c.wk c.t)
    rw [← fpDone_thread, ch, cg, cd, cpc] at q
    rw [← cwk, ← ct]
    exact fpRaised_congr (h1.threads c.wk c.t ht) (h3.threads c.wk c.t ht).symm q
  · have := (hw (fpOwn r.wk t)).trans (ct ▸ cwk ▸ onlyRegs_passedFp (ds := d) (tk := if h.take = true then a else []) s.clk c i (f c s1).2 hk ht hac (fun ht l hl => by
      rw [ch] at ht
      rw [ca] at hl
      simpa [ht] using hl))
    exact this

theorem computesFp_fp {uni : Bool} {ka kb : ImmK} {early : Early} {body : TC → State → TRes} {P : TC → State → Prop}
    {f : TC → State → DWord × Word} (he : ∀ s, exec i s = laneEarly i uni false ka kb early body s)
    (hb : ∀ c s, P c s → body c s = .fp (s.writeD2 c.d (f c s).1) (f c s).2) : ComputesFp i uni ka kb P f :=
  ⟨writesFp_fp he hb, laneEarly_completesFp uni ka kb early body P _ he hb⟩

end Sys2Proof.Machine
end

