-- ==== Sys2Proof/Laws/Step.lean ====
section
/-! SUPPORT. Whose turn a step takes. -/

namespace Sys2Proof.Machine

/-- With nothing on the agenda a running device takes its turn. -/
theorem step_turn {s : State} (ha : s.agenda = []) (hf : s.fatal = false) :
    step s = match s.turn1 with | .instr i s1 => exec i s1 | .quiet s1 => .next s1 := by
  unfold step; rw [ha, hf]; rfl

/-- The head of the agenda comes first. -/
theorem step_agenda {s : State} {i : Instr} {rest : List Instr} (ha : s.agenda = i :: rest) (hf : s.fatal = false ∨ whenFatal i = true) :
    step s = exec i { s.unstall with agenda := rest } := by
  unfold step; rw [ha]
  rcases hf with hf | hf <;> simp [hf]

theorem turn1_lane {s : State} {k : Nat} (hc : s.closing = false) (hl : s.laneLast = false) (hp : s.pickLane = some k) :
    s.turn1 = ({ s with laneLast := true } : State).runTurn k := by
  unfold State.turn1; rw [hl, hp]; simp [hc]

theorem turn1_other {s : State} {t : Turn} (hc : s.closing = false) (hp : s.pickLane = none) (ht : s.otherTurn = some t) : s.turn1 = t := by
  unfold State.turn1; rw [hp, ht]; simp [hc]

/-- The kind that the cursor names has the first try. -/
theorem otherTurn_first {s : State} {t : Turn} (h : s.moveOf (s.cursor % 13) = some t) :
    s.otherTurn = some (State.markMoved (s.cursor % 13) t) := by
  unfold State.otherTurn
  rw [show List.range State.kinds = 0 :: (List.range 12).map (· + 1) by decide, List.findSome?_cons]
  simp only [Nat.add_zero, State.kinds, h]; rfl

end Sys2Proof.Machine
end

