-- ==== Sys2Proof/Tests/Slice0.lean ====
section
/-! SUPPORT. Tests of the model: what is refused, words written out from the encoding tables, states that meet the premises of the
statements, and single steps. Expected values are the manual's, or worked by hand from its rules. -/

set_option Elab.async false

namespace Sys2Proof.Tests

open Sys2Proof.Machine

/-- No guard, no modifier, no hint. -/
def h0 : Hdr := Hdr.plain

/-! ### Decoding: one word for each constructor, its fields written out from R77, R83, R88 and the FAM table of its entry -/

/-- R77: a word with no guard (GP = 31) and no hint, from its OP, operand fields and FAM. -/
def wd (op : BitVec 10) (d a b : BitVec 20) (fam : BitVec 10) : BitVec 96 :=
  op ++ 0b0#1 ++ 0b11111#5 ++ d ++ a ++ b ++ 0b00#2 ++ fam ++ 0b00000000#8

/-- Every word of a list decodes to the instruction beside it. -/
def readsAll (l : List (BitVec 96 × Instr)) : Bool :=
  l.all (fun p => match decodeWord p.1 with | .ok i => decide (i = p.2) | .error _ => false)

/-- No modifiers but a type. -/
def ty (t : Ty) : Arith := ⟨.rne, t, false, false, false, false⟩

/-- Class 0x0 (R88, R120). -/
def wordsInteger : List (BitVec 96 × Instr) := [
    (wd 0x001 0x0000C 0x0000D 0x20005 0b0000001110, .iadd h0 ⟨.rne, .s32, true, true, true, false⟩ (.v 12) (.v 13) (.s 5)),
    (wd 0x002 0x0000C 0x0000E 0x00010 0b0010000000, .isub h0 (ty .b64) (.v 12) (.v 14) (.v 16)),
    (wd 0x003 0x00002 0x00005 0x9FFFF 0b0001000000, .iadc h0 (ty .b32) (.v 2) (.v 5) (.imm 0x1FFFF)),
    (wd 0x004 0x40402 0x00001 0x20003 0b0000011000, .imul h0 ⟨.rne, .z32, true, false, false, false⟩ (.ind 8 2) (.v 1) (.s 3)),
    (wd 0x005 0x00004 0x00006 0x00008 0b0000100000, .imulh h0 (ty .s64) (.v 4) (.v 6) (.v 8)),
    (wd 0x006 0x00001 0x00002 0x00003 0b0000000100, .imad h0 ⟨.rne, .s32, false, true, false, false⟩ (.v 1) (.v 2) (.v 3)),
    (wd 0x007 0x0000C 0x00000 0x80004 0b0000010000, .imadw h0 (ty .z32) (.v 12) (.v 0) (.imm 4)),
    (wd 0x008 0x00001 0x00002 0x00003 0b0000000000, .idiv h0 (ty .s32) (.v 1) (.v 2) (.v 3)),
    (wd 0x009 0x00001 0x00002 0x00003 0b0000010000, .irem h0 (ty .z32) (.v 1) (.v 2) (.v 3)),
    (wd 0x00A 0x00001 0x00002 0x00003 0b0000000000, .imin h0 (ty .s32) (.v 1) (.v 2) (.v 3)),
    (wd 0x00B 0x00002 0x00004 0x00006 0b0000110000, .imax h0 (ty .z64) (.v 2) (.v 4) (.v 6)),
    (wd 0x00C 0x00001 0x00002 0x00000 0b0000001000, .iabs h0 ⟨.rne, .s32, true, false, false, false⟩ (.v 1) (.v 2)),
    (wd 0x00D 0x00001 0x00002 0x00000 0b0001000000, .ineg h0 (ty .b32) (.v 1) (.v 2)),
    (wd 0x00E 0x00002 0x00005 0x80003 0b0000000000, .lea h0 (ty .s32) (.v 2) (.v 5) (.imm 3)),
    (wd 0x00F 0x00001 0x00002 0x00003 0b0000000000, .idot4 h0 (ty .s32) (.v 1) (.v 2) (.v 3)),
    (wd 0x010 0x00001 0x00002 0x00003 0b0000011000, .isad h0 ⟨.rne, .z32, true, false, false, false⟩ (.v 1) (.v 2) (.v 3))]
theorem test_decode_integer : readsAll wordsInteger = true := by decide +kernel

/-- Class 0x1 (R88, R124). -/
def wordsLogic : List (BitVec 96 × Instr) := [
    (wd 0x041 0x00001 0x00002 0x00003 0b0001000000, .land h0 (ty .b32) (.v 1) (.v 2) (.v 3)),
    (wd 0x042 0x00002 0x00004 0x00006 0b0010000000, .lor h0 (ty .b64) (.v 2) (.v 4) (.v 6)),
    (wd 0x043 0x20001 0x20002 0x20003 0b0001000000, .lxor h0 (ty .b32) (.s 1) (.s 2) (.s 3)),
    (wd 0x044 0x00001 0x00002 0x00003 0b0001000000, .andn h0 (ty .b32) (.v 1) (.v 2) (.v 3)),
    (wd 0x045 0x00001 0x00002 0x00000 0b0001000000, .lnot h0 (ty .b32) (.v 1) (.v 2)),
    (wd 0x046 0x00001 0x00002 0x80096 0b0001000000, .lop3 h0 (ty .b32) (.v 1) (.v 2) (.imm 0x96)),
    (wd 0x047 0x00002 0x00004 0x80005 0b0010000000, .shl h0 (ty .b64) (.v 2) (.v 4) (.imm 5)),
    (wd 0x048 0x00001 0x00002 0x00003 0b0001000000, .shr h0 (ty .b32) (.v 1) (.v 2) (.v 3)),
    (wd 0x049 0x00001 0x00002 0x00003 0b0001000000, .sar h0 (ty .b32) (.v 1) (.v 2) (.v 3)),
    (wd 0x04A 0x00001 0x00002 0x00003 0b0001000000, .rol h0 (ty .b32) (.v 1) (.v 2) (.v 3)),
    (wd 0x04B 0x00001 0x00002 0x00003 0b0001000000, .fshl h0 (ty .b32) (.v 1) (.v 2) (.v 3)),
    (wd 0x04C 0x00001 0x00002 0x00003 0b0000000000, .bfe h0 (ty .s32) (.v 1) (.v 2) (.v 3)),
    (wd 0x04D 0x00001 0x00002 0x00003 0b0001000000, .bfi h0 (ty .b32) (.v 1) (.v 2) (.v 3)),
    (wd 0x04E 0x00001 0x00002 0x00000 0b0010000000, .popc h0 (ty .b64) (.v 1) (.v 2)),
    (wd 0x04F 0x00001 0x00002 0x00000 0b0001000000, .clz h0 (ty .b32) (.v 1) (.v 2)),
    (wd 0x050 0x00001 0x00002 0x00000 0b0001000000, .ctz h0 (ty .b32) (.v 1) (.v 2)),
    (wd 0x051 0x00001 0x00002 0x00000 0b0001000000, .brev h0 (ty .b32) (.v 1) (.v 2)),
    (wd 0x052 0x00001 0x00002 0x00003 0b0001000000, .prmt h0 (ty .b32) (.v 1) (.v 2) (.v 3))]
theorem test_decode_logic : readsAll wordsLogic = true := by decide +kernel

/-- Class 0x2 (R86, R88, R130). -/
def wordsMove : List (BitVec 96 × Instr) := [
    (wd 0x081 0x00001 0xA0000 0x00000 0b0000000000, .mov h0 (.v 1) (.sr 0)),
    (wd 0x082 0x00001 0x86F56 0x9BEEF 0b0000000000, .movi h0 (.v 1) 0xDEADBEEF),
    (wd 0x083 0x00002 0x66000 0x00000 0b0000000001, .mov64 h0 true (.v 2) (.win 3 0)),
    (wd 0x084 0x00001 0x00002 0x80003 0b0000000001, .movx h0 true (.v 1) (.v 2) (.imm 3)),
    (wd 0x085 0x00001 0x00002 0x80003 0b0000000000, .stx h0 false (.v 1) (.v 2) (.imm 3)),
    (wd 0x086 0x00001 0x00002 0x80003 0b0000000010, .shfl h0 .xor (.v 1) (.v 2) (.imm 3)),
    (wd 0x087 0x00001 0x00002 0x80003 0b0000000000, .bcast h0 (.v 1) (.v 2) (.imm 3)),
    (wd 0x088 0xC0002 0xC0001 0x00000 0b0000001011, .vote h0 .testSame (.p 2) (.p 1)),
    (wd 0x089 0x00001 0x00002 0x00000 0b0001000101, .redux h0 .b32 .xor (.v 1) (.v 2)),
    (wd 0x08A 0x64000 0x00004 0x80804 0b0100000001, .expw h0 .warp 1 (.win 2 0) (.v 4) (.imm 0x804)),
    (wd 0x08B 0x66000 0x00000 0x00000 0b0000000000, .revw h0 (.win 3 0)),
    (wd 0x08C 0x66000 0x00002 0x00000 0b0000000000, .bindw h0 (.win 3 0) (.v 2)),
    (wd 0x08D 0x00003 0x00000 0x00000 0b0000000000, .setf h0 (.v 3)),
    (wd 0x08E 0x40403 0x00000 0x00000 0b0000000000, .clrf h0 (.ind 8 3)),
    (wd 0x08F 0xC0001 0x00003 0x00000 0b0000000000, .testf h0 (.p 1) (.v 3)),
    (wd 0x090 0x00008 0x80003 0x00000 0b0000000000, .frame h0 (.v 8) (.imm 3)),
    (wd 0x091 0x00008 0x80003 0x00000 0b0000000000, .unframe h0 (.v 8) (.imm 3))]
theorem test_decode_move : readsAll wordsMove = true := by decide +kernel

/-- Class 0x3 (R88, R128). -/
def wordsCompare : List (BitVec 96 × Instr) := [
    (wd 0x0C1 0xC0000 0x20005 0x80000 0b0000000101, .isetp h0 .s32 5 (.p 0) (.s 5) (.imm 0)),
    (wd 0x0C2 0x00001 0x00002 0x00004 0b0000110001, .iset h0 .z64 1 (.v 1) (.v 2) (.v 4)),
    (wd 0x0C3 0x00001 0xC0002 0x00003 0b0001000000, .sel h0 .b32 (.v 1) (.p 2) (.v 3)),
    (wd 0x0C4 0xC0001 0xC0002 0xC0003 0b0001001000, .psetp h0 .b32 8 (.p 1) (.p 2) (.p 3)),
    (wd 0x0C5 0x00001 0x00000 0x00000 0b0001000000, .p2v h0 .b32 (.v 1)),
    (wd 0x0C6 0x00000 0x00001 0x8000F 0b0001000000, .v2p h0 .b32 (.v 1) (.imm 15))]
theorem test_decode_compare : readsAll wordsCompare = true := by decide +kernel

/-- Class 0x4 (R88, R146, R150). -/
def wordsFloat : List (BitVec 96 × Instr) := [
    (wd 0x101 0x00001 0x00002 0x87F00 0b1001011101, .fadd h0 ⟨.rup, .f32, true, true, false, true⟩ (.v 1) (.v 2) (.imm 0x7F00)),
    (wd 0x102 0x00001 0x00002 0x00003 0b0001010000, .fsub h0 (ty .f32) (.v 1) (.v 2) (.v 3)),
    (wd 0x103 0x00001 0x00002 0x00003 0b0001010010, .fmul h0 ⟨.rne, .f32, false, false, true, false⟩ (.v 1) (.v 2) (.v 3)),
    (wd 0x104 0x0000C 0x0000D 0x0000E 0b0001010000, .ffma h0 (ty .f32) (.v 12) (.v 13) (.v 14)),
    (wd 0x105 0x00001 0x00002 0x00003 0b0001010000, .fmin h0 (ty .f32) (.v 1) (.v 2) (.v 3)),
    (wd 0x106 0x00001 0x00002 0x00003 0b0001010000, .fmax h0 (ty .f32) (.v 1) (.v 2) (.v 3)),
    (wd 0x107 0x00001 0x00002 0x00003 0b0001010000, .fminm h0 (ty .f32) (.v 1) (.v 2) (.v 3)),
    (wd 0x108 0x00001 0x00002 0x00003 0b0001010000, .fmaxm h0 (ty .f32) (.v 1) (.v 2) (.v 3)),
    (wd 0x109 0xC0001 0x00003 0x80000 0b0101010000, .fsetp h0 ⟨.lt, .f32, false, false, false⟩ (.p 1) (.v 3) (.imm 0)),
    (wd 0x10A 0x00001 0x00002 0x00000 0b0001010000, .fclass h0 (ty .f32) (.v 1) (.v 2)),
    (wd 0x10B 0x00001 0x00002 0x00000 0b1101010000, .frnd h0 ⟨.rdn, .f32, false, false, false, false⟩ (.v 1) (.v 2)),
    (wd 0x10C 0x00001 0x00002 0x00000 0b0001010000, .ffrc h0 (ty .f32) (.v 1) (.v 2)),
    (wd 0x10D 0x00001 0x00002 0x80003 0b0001010000, .fscale h0 (ty .f32) (.v 1) (.v 2) (.imm 3)),
    (wd 0x10E 0x00001 0x00002 0x00000 0b0001010000, .fgetexp h0 (ty .f32) (.v 1) (.v 2)),
    (wd 0x10F 0x00001 0x00002 0x00003 0b0101010000, .fdiv h0 ⟨.rtz, .f32, false, false, false, false⟩ (.v 1) (.v 2) (.v 3)),
    (wd 0x110 0x00001 0x00002 0x00000 0b0001010000, .fsqrt h0 (ty .f32) (.v 1) (.v 2)),
    (wd 0x111 0x00001 0x00002 0x00000 0b0001010000, .frcp h0 (ty .f32) (.v 1) (.v 2)),
    (wd 0x112 0x00001 0x00002 0x00000 0b0001010000, .frsq h0 (ty .f32) (.v 1) (.v 2)),
    (wd 0x113 0x00001 0x00002 0x00000 0b0001010000, .fexp2 h0 (ty .f32) (.v 1) (.v 2)),
    (wd 0x114 0x00001 0x00002 0x00000 0b0001010000, .flog2 h0 (ty .f32) (.v 1) (.v 2)),
    (wd 0x115 0x00001 0x00002 0x00000 0b0001010000, .fsinpi h0 (ty .f32) (.v 1) (.v 2)),
    (wd 0x116 0x00001 0x00002 0x00000 0b0001010000, .fcospi h0 (ty .f32) (.v 1) (.v 2)),
    (wd 0x117 0x00001 0x00002 0x00000 0b0001010000, .ftanh h0 (ty .f32) (.v 1) (.v 2))]
theorem test_decode_float : readsAll wordsFloat = true := by decide +kernel

/-- Classes 0x5 and 0x6 (R88, R154, R156). -/
def wordsPackedConvert : List (BitVec 96 × Instr) := [
    (wd 0x141 0x00001 0x00002 0x83C00 0b0001100000, .hadd2 h0 (ty .f16x2) (.v 1) (.v 2) (.imm 0x3C00)),
    (wd 0x142 0x00001 0x00002 0x00003 0b0001110000, .hmul2 h0 (ty .b16x2) (.v 1) (.v 2) (.v 3)),
    (wd 0x143 0x00001 0x00002 0x00003 0b0001100000, .hfma2 h0 (ty .f16x2) (.v 1) (.v 2) (.v 3)),
    (wd 0x144 0x00001 0x00002 0x00003 0b0001100000, .hmin2 h0 (ty .f16x2) (.v 1) (.v 2) (.v 3)),
    (wd 0x145 0x00001 0x00002 0x00003 0b0001110000, .hmax2 h0 (ty .b16x2) (.v 1) (.v 2) (.v 3)),
    (wd 0x146 0xC0004 0x00002 0x00003 0b1001101000, .hsetp2 h0 ⟨.ge, .f16x2, false, false, false⟩ (.p 4) (.v 2) (.v 3)),
    (wd 0x181 0x00001 0x00002 0x00000 0b0110000011, .fcvt h0 .rtz true 3 (.v 1) (.v 2)),
    (wd 0x182 0x00002 0x00003 0x00000 0b1000100001, .f2i h0 .rup .s64 .f16 (.v 2) (.v 3)),
    (wd 0x183 0x00001 0x20004 0x00000 0b0000000001, .i2f h0 .rne .f32 .z32 (.v 1) (.s 4)),
    (wd 0x184 0x00001 0x00002 0x80003 0b1100000010, .fpack h0 .rdn 2 (.v 1) (.v 2) (.imm 3)),
    (wd 0x185 0x00001 0x00002 0x80003 0b0000000010, .funpack h0 2 (.v 1) (.v 2) (.imm 3)),
    (wd 0x186 0x00001 0x00020 0x00000 0b0000000110, .qblk h0 2 1 (.v 1) (.v 32))]
theorem test_decode_packed_convert : readsAll wordsPackedConvert = true := by decide +kernel

/-- Classes 0x7 and 0x8 (R88, R164, R169, R173). -/
def wordsMemory : List (BitVec 96 × Instr) := [
    (wd 0x1C1 0xD8000 0x20002 0x80000 0b0000000010, .ld h0 .b32 (.q 0) (.s 2) (.imm 0)),
    (wd 0x1C2 0x00004 0x00002 0x9FFFC 0b0000000100, .st h0 .b128 (.v 4) (.v 2) (.imm 0x1FFFC)),
    (wd 0x1C3 0x00004 0x00002 0x80008 0b1010000011, .lda h0 .dev .b64 (.v 4) (.v 2) (.imm 8)),
    (wd 0x1C4 0x00005 0x00002 0x80008 0b1100000001, .stl h0 .sys .b16 (.v 5) (.v 2) (.imm 8)),
    (wd 0x201 0x00001 0x00002 0x00004 0b0101000111, .atom h0 .acq .b32 .cas (.v 1) (.v 2) (.v 4)),
    (wd 0x202 0x00000 0x00002 0x80001 0b1000010000, .red h0 .rel .z32 .add (.v 2) (.imm 1)),
    (wd 0x203 0x00000 0x00000 0x00000 0b1010000010, .fence h0 .dev .rel)]
theorem test_decode_memory : readsAll wordsMemory = true := by decide +kernel

/-- Class 0x9 (R88, R175, R179, R182, R184, R187, R189). The first word is the one the manual writes out for
`cpy.b128.reg.glb v20, v24, [v4]`. -/
def wordsCopy : List (BitVec 96 × Instr) := [
    (0x905F0001#32 ++ 0x40001800#32 ++ 0x00422000#32, .cpy h0 .b128 .reg .glb (.v 20) (.v 24) (.v 4)),
    (wd 0x242 0x20004 0x20008 0x00000 0b0010110000, .cpym h0 ⟨true, 3⟩ (.s 4) (.s 8)),
    (wd 0x243 0xE0003 0xE8002 0x2000C 0b0000000000, .tcopy h0 false false ⟨false, 0⟩ (.tile 3) (.shape 2) (.s 12)),
    (wd 0x244 0xE8003 0x20002 0x80040 0b0000000000, .tsld h0 ⟨false, 0⟩ (.shape 3) (.s 2) (.imm 64)),
    (wd 0x245 0xE8003 0x00000 0x00000 0b0010000000, .tsev h0 ⟨true, 0⟩ (.shape 3)),
    (wd 0x246 0x00000 0x00001 0x00004 0b0000000000, .kick h0 (.v 1) (.v 4)),
    (wd 0x247 0x00004 0x00001 0x00000 0b0000000001, .kwait h0 true (.v 4) (.v 1)),
    (wd 0x248 0x20004 0x20008 0x00000 0b1000000000, .pull h0 true ⟨false, 0⟩ (.s 4) (.s 8)),
    (wd 0x249 0x00000 0x00004 0x00000 0b0000000000, .ack h0 (.v 4))]
theorem test_decode_copy : readsAll wordsCopy = true := by decide +kernel

/-- Class 0xA (R88, R192 to R202). -/
def wordsSync : List (BitVec 96 × Instr) := [
    (wd 0x281 0x00002 0x00000 0x00000 0b0000000001, .tlrd h0 .array (.v 2) (.v 0)),
    (wd 0x282 0x00002 0x00001 0x00000 0b0000000100, .tltag h0 .sched (.v 2) (.v 1)),
    (wd 0x283 0x00000 0x00002 0x00000 0b1010000010, .tlwait h0 .pull .dev (.v 2) (.v 0)),
    (wd 0x284 0x00000 0x80003 0x20001 0b0000000001, .bar h0 true (.imm 3) (.s 1)),
    (wd 0x285 0x00000 0x80007 0x00000 0b0000000000, .gbar h0 (.imm 7)),
    (wd 0x286 0x00004 0x80001 0x00000 0b0000000000, .abinit h0 (.v 4) (.imm 1)),
    (wd 0x287 0x00004 0x80010 0x00000 0b0000000000, .abexp h0 (.v 4) (.imm 16)),
    (wd 0x288 0x00001 0x00004 0x00000 0b0000000000, .abarv h0 (.v 1) (.v 4)),
    (wd 0x289 0x00000 0x00004 0x00001 0b0000000000, .abwait h0 (.v 4) (.v 1)),
    (wd 0x28A 0xC8003 0x9FFFF 0x00000 0b0000000001, .kdecl h0 true (.k 3) (.imm 0x1FFFF)),
    (wd 0x28B 0x00000 0xC8003 0x00000 0b0000000000, .sign h0 (.k 3)),
    (wd 0x28C 0xC0001 0xC8003 0x80064 0b0000000000, .rconv h0 (.p 1) (.k 3) (.imm 100)),
    (wd 0x28D 0xD0001 0xC0002 0x00000 0b0000000000, .gres h0 (.g 1) (.p 2)),
    (wd 0x28E 0xD0001 0x00000 0x00000 0b0000000000, .gclr h0 (.g 1)),
    (wd 0x28F 0x00000 0x00000 0x00000 0b0000000000, .yield h0),
    (wd 0x290 0x00000 0x80064 0x00000 0b0000000000, .sleep h0 (.imm 100))]
theorem test_decode_sync : readsAll wordsSync = true := by decide +kernel

/-- Class 0xB (R86, R88, R203). The first word is the one the manual works to the bit for `?p0 bra sum |`. -/
def wordsControl : List (BitVec 96 × Instr) := [
    (0xB0400000#32 ++ 0x09FFFF9F#32 ++ 0xFFD00080#32, .bra ⟨.pred 0 false, false, false, true, false⟩ false (.v 0) (-3)),
    (wd 0x2C2 0x00000 0x00002 0x00000 0b0000000000, .brx h0 (.v 2)),
    (wd 0x2C3 0x00000 0x80001 0x80005 0b0000000000, .call h0 0x20005),
    (wd 0x2C4 0x00000 0x20002 0x00000 0b0000000000, .callx h0 (.s 2)),
    (wd 0x2C5 0x00000 0x00000 0x00000 0b0000000000, .ret h0),
    (wd 0x2C6 0x00000 0x00000 0x00000 0b0000000000, .exit h0),
    (wd 0x2C7 0x00000 0x80007 0x00000 0b0000000000, .trap h0 (.imm 7)),
    (wd 0x2C8 0x00000 0x00000 0x00000 0b0000000000, .tret h0),
    (wd 0x2C9 0x00002 0x00004 0x80007 0b0000000000, .sysc h0 (.v 2) (.v 4) (.imm 7)),
    (0xB29F0000#32 ++ 0x00000000#32 ++ 0x00000000#32, .nop h0),
    (wd 0x2CB 0x00000 0x80008 0x00000 0b0000000000, .setpat h0 (.imm 8))]
theorem test_decode_control : readsAll wordsControl = true := by decide +kernel

/-- Class 0xC (R88, R221). -/
def wordsMatrix : List (BitVec 96 × Instr) := [
    (wd 0x301 0xE0004 0x00010 0xE4006 0b0000010001, .mma h0 0 2 1 (.tile 4) (.v 16) (.slot 6)),
    (wd 0x302 0xE4006 0x20002 0x80040 0b0010000001, .wld h0 1 1 (.slot 6) (.s 2) (.imm 64)),
    (wd 0x303 0xE0004 0x00000 0x00000 0b0000000001, .aclr h0 0 true (.tile 4)),
    (wd 0x304 0xE0004 0x00010 0x00000 0b0000000001, .ald h0 0 true (.tile 4) (.v 16) (.v 0)),
    (wd 0x305 0x00010 0xE0004 0x00000 0b1110110011, .asto h0 7 .rtz true 3 (.v 16) (.tile 4)),
    (wd 0x306 0xE0004 0x00010 0xE4006 0b0001111101, .att h0 0 15 5 (.tile 4) (.v 16) (.slot 6)),
    (wd 0x307 0x00010 0xE0004 0x00000 0b0000001000, .attfin h0 0 1 (.v 16) (.tile 4)),
    (wd 0x308 0x20010 0xE0004 0x80010 0b0000001000, .ladinit h0 0 1 (.s 16) (.tile 4) (.imm 16)),
    (wd 0x309 0x20010 0xE0004 0x00000 0b0000001000, .ladpush h0 0 1 (.s 16) (.tile 4)),
    (wd 0x30A 0xE0004 0x20010 0x20014 0b0000001000, .ladread h0 0 1 (.tile 4) (.s 16) (.s 20)),
    (wd 0x30B 0x00010 0x20010 0x8000F 0b0000001000, .ladld h0 0 1 (.v 16) (.s 16) (.imm 15))]
theorem test_decode_matrix : readsAll wordsMatrix = true := by decide +kernel

/-- Classes 0xD, 0xE and 0xF (R88, R209, R218, R292). -/
def wordsSystem : List (BitVec 96 × Instr) := [
    (wd 0x341 0x00000 0x00001 0x20008 0b0000000000, .wqpost h0 (.v 1) (.s 8)),
    (wd 0x342 0x00000 0x00001 0x00002 0b0000000101, .tarm h0 false 5 (.v 1) (.v 2)),
    (wd 0x343 0x00014 0x20010 0x80001 0b0000000000, .cntadd h0 false false (.v 20) (.s 16) (.imm 1)),
    (wd 0x344 0x00000 0x20008 0x00000 0b0000000000, .sched h0 (.s 8)),
    (wd 0x381 0x00001 0xA0206 0x00000 0b0000000000, .mfsr h0 (.v 1) (.sr 0x206)),
    (wd 0x382 0xA0201 0x00001 0x00000 0b0000000000, .mtsr h0 (.sr 0x201) (.v 1)),
    (wd 0x383 0x00000 0x00001 0x00002 0b0000000000, .eret h0 (.v 1) (.v 2)),
    (wd 0x384 0x00000 0x00000 0x00000 0b0000000000, .halt h0),
    (wd 0x385 0x00000 0x00001 0x00000 0b0000000000, .tlbfls h0 (.v 1)),
    (wd 0x386 0x00000 0x00000 0x00000 0b0000000000, .tldrain h0),
    (wd 0x387 0x00004 0x80000 0x00000 0b0000000000, .fbrd h0 (.v 4) (.imm 0)),
    (wd 0x388 0x00000 0x00000 0x00000 0b0000000000, .fbpop h0),
    (wd 0x389 0x00000 0x00000 0x00000 0b0000000000, .replay h0),
    (wd 0x38A 0x00000 0x00002 0x00000 0b0000000000, .winqPush h0 (.v 2)),
    (wd 0x38A 0x00002 0x00000 0x00000 0b0000000001, .winqPop h0 (.v 2)),
    (wd 0x38B 0x00000 0x00001 0x00002 0b0000000000, .ctxsv h0 (.v 1) (.v 2)),
    (wd 0x38C 0x00000 0x00001 0x00002 0b0000000000, .ctxld h0 (.v 1) (.v 2)),
    (wd 0x38D 0x00003 0x00001 0x00002 0b0000000000, .lnkctlStat h0 (.v 3) (.v 1) (.v 2)),
    (wd 0x38D 0x00000 0x00001 0x00002 0b0000000001, .lnkctlPause h0 (.v 1) (.v 2)),
    (wd 0x38D 0x00000 0x00001 0x00002 0b0000000010, .lnkctlResume h0 (.v 1) (.v 2)),
    (wd 0x38D 0x00000 0x00001 0x00002 0b0000000011, .lnkctlRemap h0 (.v 1) (.v 2)),
    (wd 0x38D 0x00000 0x00001 0x00002 0b0000000100, .lnkctlTrain h0 (.v 1) (.v 2)),
    (wd 0x38D 0x00000 0x00001 0x00002 0b0000000101, .lnkctlHalf h0 (.v 1) (.v 2)),
    (wd 0x3C1 0x00000 0x80007 0x00000 0b0000000000, .bkpt h0 (.imm 7)),
    (wd 0x3C2 0x00000 0x00001 0x00000 0b0000000000, .sstep h0 (.v 1)),
    (wd 0x3C3 0x00000 0x80007 0x00000 0b0000000000, .trcmk h0 (.imm 7)),
    (wd 0x3C4 0x00002 0x80007 0x00000 0b0000000000, .cntrd h0 (.v 2) (.imm 7))]
theorem test_decode_system : readsAll wordsSystem = true := by decide +kernel

/-- The remaining words the manual writes out: `i2f`, `expw.rw.g1 w2, v4, 4`, `tcopy.ld.kv b4, ts0, s44`, `att.fs0.k0 a0, v16, b0`,
`bra.cnt s4, fill |`, `mma.fs1.k2 a4, v16, b6`, CNTADD, `halt |` and `trcmk 0x0107 |`. -/
def wordsManualWords : List (BitVec 96 × Instr) := [
    (0x60DF0000#32 ++ 0x10000100#32 ++ 0x00000000#32, .i2f h0 .rne .f32 .s32 (.v 1) (.v 1)),
    (0x229F6400#32 ++ 0x00000480#32 ++ 0x80400100#32, .expw h0 .thread 1 (.win 2 0) (.v 4) (.imm 0x804)),
    (0x90DFE400#32 ++ 0x4E800020#32 ++ 0x02C10000#32, .tcopy h0 false true ⟨false, 0⟩ (.slot 4) (.shape 0) (.s 44)),
    (0xC19FE000#32 ++ 0x000010E4#32 ++ 0x00000000#32, .att h0 0 0 0 (.tile 0) (.v 16) (.slot 0)),
    (0xB05F2000#32 ++ 0x49FFFF9F#32 ++ 0xFFE00180#32, .bra ⟨.always, false, false, true, false⟩ true (.s 4) (-2)),
    (0xC05FE000#32 ++ 0x400010E4#32 ++ 0x00601100#32, .mma h0 0 2 1 (.tile 4) (.v 16) (.slot 6)),
    (0xD0DF0001#32 ++ 0x42000280#32 ++ 0x00100000#32, .cntadd h0 false false (.v 20) (.s 2) (.imm 1)),
    (0xE11F0000#32 ++ 0x00000000#32 ++ 0x00000080#32, .halt ⟨.always, false, false, true, false⟩),
    (0xF0DF0000#32 ++ 0x08010700#32 ++ 0x00000080#32, .trcmk ⟨.always, false, false, true, false⟩ (.imm 0x107))]
theorem test_decode_manual_words : readsAll wordsManualWords = true := by decide +kernel

/-- Schedule words (R297), OPC, PEER, CHUNK, BUF and OPERAND written side by side; the fourth is the manual's worked word. -/
theorem test_decode_schedule :
    decodeFloreal (0x00#6 ++ 0#5 ++ 0#13 ++ 0#8 ++ 0#32) = some .florealNop ∧
    decodeFloreal (0x01#6 ++ 2#5 ++ (0b01#2 ++ 3#11) ++ 1#8 ++ (100#16 ++ 0#16)) = some (.florealSend 2 ⟨.plus, 3⟩ 1 100) ∧
    decodeFloreal (0x02#6 ++ 3#5 ++ (0b10#2 ++ 4#11) ++ 2#8 ++ (0#16 ++ 0#16)) = some (.florealRecv 3 ⟨.minus, 4⟩ 2 0) ∧
    decodeFloreal 0x0C4005010064F800 = some (.florealRed 2 ⟨.abs, 5⟩ 1 100 31 .faddF32) ∧
    decodeFloreal (0x04#6 ++ 0#5 ++ (0b00#2 ++ 1#11) ++ 2#8 ++ (0#11 ++ (0b01#2 ++ 3#11) ++ 4#8)) = some (.florealCopy ⟨.abs, 1⟩ 2 ⟨.plus, 3⟩ 4) ∧
    decodeFloreal (0x05#6 ++ 6#5 ++ 0#13 ++ 7#8 ++ 9#32) = some (.florealWait 6 false 7 9) ∧
    decodeFloreal (0x06#6 ++ 6#5 ++ 1#13 ++ 7#8 ++ 9#32) = some (.florealSignal 6 true 7 9) ∧
    decodeFloreal (0x07#6 ++ 0#5 ++ 0#13 ++ 0#8 ++ (4#16 ++ 0#3 ++ 2#13)) = some (.florealLoop 4 2) ∧
    decodeFloreal (0x08#6 ++ 0#5 ++ 0#13 ++ 0#8 ++ 0#32) = some .florealEnd := by
  decide +kernel

/-- Operand fields as R92 works them, in MOV: `v[v8-1]`, `w2[v9]`, `-1`, `%tid`, `q0`, with a negated guard, TAKE, NF and S. -/
theorem test_decode_operands : readsAll [
    (wd 0x081 0x4047F 0x64048 0x00000 0b0000000000, .mov h0 (.ind 8 0x7F) (.win 2 9)),
    (wd 0x081 0x20005 0x9FFFF 0x00000 0b0000000000, .mov h0 (.s 5) (.imm 0x1FFFF)),
    (wd 0x081 0x0000C 0xD8000 0x00000 0b0000000000, .mov h0 (.v 12) (.q 0)),
    (0x081#10 ++ 0b1#1 ++ 7#5 ++ 0x0000C#20 ++ 0x0000D#20 ++ 0#20 ++ 0b11#2 ++ 0#10 ++ 0b01000000#8,
      .mov ⟨.pred 7 true, true, true, false, true⟩ (.v 12) (.v 13))] = true := by decide +kernel

/-! ### What is refused: an ill-formed term for each check -/

/-- R84, R91: a mode the entry does not accept: an immediate D, a window A of LOP3's pair in mode 100, a v register as FBRD's s operand
BCAST takes only v, a tile where a slot belongs, a special register no entry may write, a queue where REG is asked, and a handle slot
with an offset register. -/
theorem test_refused_modes : [
    Instr.iadd h0 (ty .s32) (.imm 0) (.v 0) (.v 1), .lop3 h0 (ty .b32) (.v 1) (.imm 2) (.imm 0x96), .bcast h0 (.v 1) (.s 2) (.imm 3),
    .mma h0 0 0 0 (.slot 4) (.v 16) (.slot 6), .mov h0 (.sr 0x10) (.v 1), .brx h0 (.q 0), .revw h0 (.win 3 1), .mov h0 (.q 0) (.v 1),
    .ld h0 .b64 (.q 0) (.s 2) (.imm 0), .mtsr h0 (.sr 0x206) (.v 1), .mfsr h0 (.v 1) (.sr 0x10),
    .cpy h0 .b32 .win .glb (.v 4) (.v 8) (.v 2)].all (fun i => !i.legal) = true := by
  decide +kernel

/-- R83, R91: an index beyond its range, an odd index of a pair, an index that is no multiple of 4. -/
theorem test_refused_indices : [
    Instr.sel h0 .b32 (.v 1) (.p 24) (.v 3), .sign h0 (.k 16), .gclr h0 (.g 8), .mov h0 (.v 1) (.q 8), .tsev h0 ⟨false, 0⟩ (.shape 32),
    .iadd h0 (ty .s64) (.v 1) (.v 2) (.v 4), .iadd h0 (ty .z64) (.v 2) (.v 4) (.s 5), .st h0 .b128 (.v 6) (.v 2) (.imm 0),
    .mma h0 0 0 0 (.tile 4) (.v 18) (.slot 6), .kick h0 (.v 1) (.v 6), .hsetp2 h0 ⟨.eq, .f16x2, false, false, false⟩ (.p 23) (.v 1) (.v 2)].all
      (fun i => !i.legal) = true := by
  decide +kernel

/-- R80, R81, R117, R120, R128, R146, R164, R169, R173: a type, a modifier or a relation that the entry does not list. -/
theorem test_refused_modifiers : [
    Instr.iadd h0 (ty .f32) (.v 1) (.v 2) (.v 3), .iadd h0 ⟨.rtz, .s32, false, false, false, false⟩ (.v 1) (.v 2) (.v 3),
    .iadd h0 ⟨.rne, .b32, true, false, false, false⟩ (.v 1) (.v 2) (.v 3), .iadd h0 ⟨.rne, .s32, false, true, false, false⟩ (.v 1) (.imm 2) (.v 3),
    .iadd h0 ⟨.rne, .s32, false, false, true, false⟩ (.v 1) (.v 2) (.sr 0), .fadd h0 ⟨.rne, .f32, false, false, false, true⟩ (.v 1) (.imm 2) (.v 3),
    .imulh h0 (ty .b32) (.v 1) (.v 2) (.v 3), .isetp h0 .s32 0 (.p 0) (.v 1) (.v 2), .isetp h0 .s32 7 (.p 0) (.v 1) (.v 2),
    .isetp h0 .b32 1 (.p 0) (.v 1) (.v 2), .redux h0 .b32 .min (.v 1) (.v 2), .st h0 .s8 (.v 1) (.v 2) (.imm 0),
    .lda h0 .none .b32 (.v 1) (.v 2) (.imm 0), .fence h0 .none .ar, .red h0 .relaxed .b32 .cas (.v 2) (.v 4), .red h0 .acq .z32 .add (.v 2) (.v 4),
    .atom h0 .relaxed .f32 .add (.v 1) (.v 2) (.v 3), .hadd2 h0 (ty .f16x2) (.v 1) (.v 2) (.imm 0x10000), .tltag h0 .pack (.v 2) (.v 0),
    .tcopy h0 true true ⟨false, 0⟩ (.tile 3) (.shape 2) (.s 12)].all (fun i => !i.legal) = true := by
  decide +kernel

/-- R84, R140, R194, R195, R207: an unused field that is not zero, an immediate outside its range. -/
theorem test_refused_fields : [
    Instr.tlrd h0 .copy (.v 2) (.v 1), .bar h0 false (.imm 3) (.v 1), .bar h0 false (.imm 8) (.v 0), .gbar h0 (.imm 256), .trap h0 (.imm 256),
    .sysc h0 (.v 2) (.v 4) (.imm 0x10000), .gres h0 (.g 1) (.imm 2), .ladinit h0 0 1 (.s 16) (.tile 4) (.imm 1), .ladld h0 0 1 (.v 16) (.s 16) (.imm 16),
    .bra h0 false (.v 1) 3, .cntadd h0 true false (.v 20) (.s 2) (.imm 1), .bkpt h0 (.imm 256)].all (fun i => !i.legal) = true := by
  decide +kernel

/-- R61, R79, R80, R220: TAKE without an A source, TAKE on an immediate A, TAKE in class 0xC, a guard above p23. -/
theorem test_refused_headers : [
    Instr.nop ⟨.always, true, false, false, false⟩, .mov ⟨.always, true, false, false, false⟩ (.v 1) (.imm 3),
    .ladpush ⟨.always, true, false, false, false⟩ 0 1 (.s 16) (.tile 4), .nop ⟨.pred 24 false, false, false, false, false⟩].all (fun i => !i.legal) = true := by
  decide +kernel

/-- R88, R91: words that are refused before they are an instruction: slot 0, a reserved cell, a reserved GP, GP 31 negated, HINT[0], a TYPE
code 0x9, a payload bit that must be zero, a tile region that is not assigned, MOVI with A.payload[15]. -/
theorem test_refused_words : [
    (0#96, DecodeError.notAnInstruction), (wd 0x011 0 0 0 0, .notAnInstruction), (wd 0x2CA 0 0 0 0 - (7#96 <<< 80), .badGuard),
    (wd 0x2CA 0 0 0 0 ||| (1#96 <<< 85), .badGuard), (wd 0x2CA 0 0 0 0 ||| 1#96, .badHint), (wd 0x001 1 2 3 0b0010010000, .notAnInstruction),
    (wd 0x001 0x00401 2 3 0, .notAnInstruction), (wd 0x303 0xEC000 0 0 0, .notAnInstruction), (wd 0x082 1 0x88000 0x80000 0, .notAnInstruction),
    (wd 0x2CA 1 0 0 0, .notAnInstruction)].all (fun p => match decodeWord p.1 with | .ok _ => false | .error e => e == p.2) = true := by
  decide +kernel

/-! ### States that meet the premises of the statements about instructions -/

/-- The machine after reset with one system warp on lane 0 of core 0, whose thread 0 is live and about to have an instruction served. -/
def base : State :=
  ((({ State.reset with focus := 0 }.modWarp fetchWk (fun x => { x with alive := true, alloc := ⟨1024, 1024, 128, 64, 64, 32, 1⟩ })).modThread fetchWk 0
    (fun x => { x with live := true })).modCore 0 (fun c => { c with tlb := ⟨0, 0, false, 0x3D⟩ :: c.tlb })).setRun 0 (some (newRun fetchWk 0 1))

/-- The premises of a statement about instruction `i` hold in state `s`, for its one active thread and `P`. -/
def Met (i : Instr) (P : TC → State → Prop) (s : State) : Prop :=
  ∃ g h r t d a b x y s1, Stands i g h s r t ∧ At i g h s r (bit1 t) ∧ lowest (bit1 t) = t ∧ maskList (bit1 t) = [t] ∧
    Operands s h g r t d a b x y s1 ∧ ((s.opened t).run s.focus).map (fun r => r.served.getLsbD t) = some false ∧
    P (s1.ctx h g .int .int s.focus r (bit1 t) t d a b x y) s1

/-- The same, computed for thread 0. -/
def meets (i : Instr) (P : TC → State → Bool) (s : State) : Bool :=
  match s.run s.focus, i.sig, i.hdr with
  | some r, some g, some h =>
    s.fate r.wk i == none && r.act.getD (s.guardMask r h.guard) == bit1 0 && r.served == 0 && !s.acqDue r.wk 0 && s.indRoom r g &&
    ((s.opened 0).run s.focus).map (fun r => r.served.getLsbD 0) == some false &&
    (match (s.opened 0).prep r.wk 0 h g, (s.opened 0).pops s.focus r.wk g with
     | .ok d a b, some (x, y, s1) => P (s1.ctx h g .int .int s.focus r (bit1 0) 0 d a b x y) s1
     | _, _ => false)
  | _, _, _ => false

theorem met_of_meets {i : Instr} {p : TC → State → Bool} {P : TC → State → Prop} {s : State} (hp : ∀ c s, p c s = true → P c s)
    (h : meets i p s = true) : Met i P s := by
  unfold meets at h
  split at h
  · rename_i r g hd hr hg hh
    simp only [Bool.and_eq_true, beq_iff_eq, Bool.not_eq_true'] at h
    obtain ⟨⟨⟨⟨⟨⟨hf, ha⟩, hs⟩, hq⟩, hi⟩, hv⟩, hm⟩ := h
    split at hm
    · rename_i d a b x y s1 hprep hpops
      exact ⟨g, hd, r, 0, d, a, b, x, y, s1, ⟨hr, hg, hh, hf, by decide, ha, hs, hq, hi⟩,
        ⟨hr, hg, hh, hf, ha, hs, by simpa [show maskList (bit1 0) = [0] from by decide] using hq, hi⟩, by decide, by decide, ⟨hprep, hpops⟩, hv,
        hp _ _ hm⟩
    · exact absurd hm (by decide)
  · exact absurd h (by decide)

/-- Every word of a list stands with its operands ready after `f`. -/
def allMeet (f : State → State) (l : List (BitVec 96 × Instr)) : Bool := l.all (fun p => meets p.2 (fun _ _ => true) (f base))

/-- So each has a state that meets the premises with no further condition. -/
theorem met_always {f : State → State} {l : List (BitVec 96 × Instr)} (h : allMeet f l = true) : ∀ p ∈ l, Met p.2 Always (f base) := by
  intro p hp
  exact met_of_meets (p := fun _ _ => true) (fun _ _ _ => trivial) ((List.all_eq_true.mp h) p hp)

theorem test_meets_integer : ∀ p ∈ wordsInteger, Met p.2 Always base := met_always (f := id) (by decide +kernel)
theorem test_meets_logic : ∀ p ∈ wordsLogic, Met p.2 Always base := met_always (f := id) (by decide +kernel)
theorem test_meets_move : ∀ p ∈ wordsMove, Met p.2 Always base := met_always (f := id) (by decide +kernel)
theorem test_meets_compare : ∀ p ∈ wordsCompare, Met p.2 Always base := met_always (f := id) (by decide +kernel)
theorem test_meets_float : ∀ p ∈ wordsFloat, Met p.2 Always base := met_always (f := id) (by decide +kernel)
theorem test_meets_packed_convert : ∀ p ∈ wordsPackedConvert, Met p.2 Always base := met_always (f := id) (by decide +kernel)
theorem test_meets_memory : ∀ p ∈ wordsMemory, Met p.2 Always base := met_always (f := id) (by decide +kernel)
theorem test_meets_copy : ∀ p ∈ wordsCopy, Met p.2 Always base := met_always (f := id) (by decide +kernel)
theorem test_meets_sync : ∀ p ∈ wordsSync, Met p.2 Always base := met_always (f := id) (by decide +kernel)
theorem test_meets_control : ∀ p ∈ wordsControl, Met p.2 Always (base.setPred fetchWk 0 0 true) :=
  met_always (f := fun s => s.setPred fetchWk 0 0 true) (by decide +kernel)
theorem test_meets_matrix : ∀ p ∈ wordsMatrix, Met p.2 Always base := met_always (f := id) (by decide +kernel)
theorem test_meets_system : ∀ p ∈ wordsSystem, Met p.2 Always base := met_always (f := id) (by decide +kernel)

/-- So with a decidable further condition. -/
theorem met_dec {i : Instr} {P : TC → State → Prop} [∀ c s, Decidable (P c s)] {s : State} (h : meets i (fun c s => decide (P c s)) s = true) : Met i P s :=
  met_of_meets (fun _ _ => of_decide_eq_true) h

/-- A uniform form (R33) stands so as well, and so does one whose only thread has a false guard. -/
theorem test_meets_uniform : Met (.iadd h0 (ty .s32) (.s 1) (.s 2) (.s 3)) Always base ∧
    ((Instr.iadd h0 (ty .s32) (.s 1) (.s 2) (.s 3)).sig.map sigUniform = some true) ∧
    (∃ g h r, At (.nop ⟨.pred 0 false, false, false, false, false⟩) g h base r 0) :=
  ⟨met_always (f := id) (l := [(0#96, .iadd h0 (ty .s32) (.s 1) (.s 2) (.s 3))]) (by decide +kernel) _ (List.mem_singleton.mpr rfl), by decide +kernel,
    _, _, _, rfl, rfl, rfl, by decide +kernel, by decide +kernel, rfl, by decide +kernel, by decide +kernel⟩

/-- The registers of thread 0, the s registers and the thread and the warp themselves, set for a witness. -/
def setV (i : Nat) (x : Word) (s : State) : State := s.writeLoc (.v fetchWk 0 i) x
def setS (i : Nat) (x : Word) (s : State) : State := s.writeLoc (.s fetchWk i) x
def setT (f : Thread → Thread) (s : State) : State := s.modThread fetchWk 0 f
def setW (f : Warp → Warp) (s : State) : State := s.modWarp fetchWk f

/-- MoveResults: a queue with one free entry, a true predicate, the largest schedule context. -/
theorem test_meets_MoveResults :
    Met (.mov h0 (.q 7) (.s 1)) (fun c s => s.queueLen (parent c.wk) 7 < 16)
      (setW (fun w => { w with q := [(7, List.replicate 15 ⟨true, 0, 0⟩)] }) base) ∧
    Met (.sel h0 .b32 (.v 1) (.p 2) (.v 3)) (fun c _ => c.av ≠ 0) (base.setPred fetchWk 0 2 true) ∧
    Met (.p2v h0 .b32 (.v 1)) (fun c s => ∀ p ∈ List.range (s.warp c.wk).alloc.np, s.avail c.wk (.pred c.t p) = true) base ∧
    Met (.tlrd h0 .sched (.v 2) (.v 1)) (fun c _ => schedRefBad c.av.lo = false) (setV 1 0x000F00FF base) ∧
    Met (.tltag h0 .sched (.v 2) (.v 1)) (fun c _ => schedRefBad c.av.lo = false) (setV 1 0x000F00FF base) :=
  ⟨met_dec (by decide +kernel), met_dec (by decide +kernel), met_dec (by decide +kernel), met_dec (by decide +kernel), met_dec (by decide +kernel)⟩

/-- IndexedMoves: the last v register and the last s register of the allocation, the last free range entry. -/
theorem test_meets_IndexedMoves :
    Met (.movx h0 false (.v 1) (.v 2) (.imm 3)) (fun c s => (c.av.lo + c.bv.lo).toNat < (s.warp c.wk).alloc.nv ∧
      s.readable (.v c.wk c.t (c.av.lo + c.bv.lo).toNat) = true ∧ s.pois (.v c.wk c.t (c.av.lo + c.bv.lo).toNat) = false) (setV 2 1020 base) ∧
    Met (.stx h0 true (.v 1) (.v 2) (.imm 3)) (fun c s => (c.av.lo + c.bv.lo).toNat < (s.warp c.wk).alloc.ns ∧
      s.writable (.s c.wk (c.av.lo + c.bv.lo).toNat) = true ∧ (((s.run c.key).bind (fun r => r.ind)).isSome = true ∨ s.rangeRoom c.wk 1 = true))
      (setW (fun w => { w with ranges := List.replicate 15 ⟨false, false, 500, 4, .round 0⟩ }) (setV 2 1020 base)) :=
  ⟨met_dec (by decide +kernel), met_dec (by decide +kernel)⟩

/-- The operands of all threads at once (CompletesAll). -/
def meetsAll (i : Instr) (P : List TC → State → Bool) (s : State) : Bool :=
  match s.run s.focus, i.sig, i.hdr with
  | some r, some g, some h =>
    s.fate r.wk i == none && r.act.getD (s.guardMask r h.guard) == 1 && r.served == 0 && !s.acqDue r.wk 0 && s.indRoom r g &&
    (match (s.openedM 1).pops s.focus r.wk g with
     | some (x, y, s0) => match s0.taken h g s.focus r 1 with
       | (s1, false) => match s1.prepAll h g .int .int s.focus r 1 x y [0] with
         | some (cs, []) => P cs s1
         | _ => false
       | _ => false
     | _ => false)
  | _, _, _ => false

/-- The premises of `CompletesAll` hold with condition `P`. -/
def MetAll (i : Instr) (P : List TC → State → Prop) (s : State) : Prop :=
  ∃ g h r m x y s0 s1 cs, At i g h s r m ∧ m ≠ 0 ∧ (s.openedM m).pops s.focus r.wk g = some (x, y, s0) ∧ s0.taken h g s.focus r m = (s1, false) ∧
    s1.prepAll h g .int .int s.focus r m x y (maskList m) = some (cs, []) ∧ P cs s1

theorem metAll_of {i : Instr} {p : List TC → State → Bool} {P : List TC → State → Prop} {s : State} (hp : ∀ c s, p c s = true → P c s)
    (h : meetsAll i p s = true) : MetAll i P s := by
  unfold meetsAll at h
  split at h
  · rename_i r g hd hr hg hh
    simp only [Bool.and_eq_true, beq_iff_eq, Bool.not_eq_true'] at h
    obtain ⟨⟨⟨⟨⟨hf, ha⟩, hs⟩, hq⟩, hi⟩, hm⟩ := h
    split at hm
    · rename_i x y s0 hpops
      split at hm
      · rename_i s1 htaken
        split at hm
        · rename_i cs hcs
          have h1 : maskList (1#32) = [0] := by decide
          exact ⟨g, hd, r, 1#32, x, y, s0, s1, cs, ⟨hr, hg, hh, hf, ha, hs, by rw [h1]; simpa using hq, hi⟩, by decide, hpops, htaken,
            by rw [h1]; exact hcs, hp _ _ hm⟩
        · exact absurd hm (by decide)
      · exact absurd hm (by decide)
    · exact absurd hm (by decide)
  · exact absurd h (by decide)

/-- A guard that no thread meets, for an instruction on the operands of all. -/
theorem test_meets_CompletesAll_none :
    let i : Instr := .redux ⟨.pred 3 false, false, false, false, false⟩ .b32 .xor (.v 1) (.v 2)
    ∃ g h r, At i g h base r 0 :=
  ⟨_, _, _, by rfl, by rfl, by rfl, by decide +kernel, by decide +kernel, by decide +kernel, by decide +kernel, by decide +kernel⟩

theorem metAll_dec {i : Instr} {P : List TC → State → Prop} [∀ c s, Decidable (P c s)] {s : State}
    (h : meetsAll i (fun c s => decide (P c s)) s = true) : MetAll i P s := metAll_of (fun _ _ => of_decide_eq_true) h

/-- DestsReady, as it is computed. -/
def dests (c : TC) (s : State) : Bool := (maskList c.act).all (fun t => match s.prepOp c.wk t c.g.d with | .ok _ => true | _ => false)

theorem destsReady_of {c : TC} {s : State} (h : dests c s = true) : s.DestsReady c := by
  intro t ht
  have := (List.all_eq_true.mp h) t ht
  split at this
  · rename_i ls hl
    exact ⟨ls, hl⟩
  · exact absurd this (by decide)

/-- A decidable condition, and every D ready. -/
theorem met_dests {i : Instr} {Q : TC → State → Prop} [∀ c s, Decidable (Q c s)] {s : State} (h : meets i (fun c s => decide (Q c s) && dests c s) s = true) :
    Met i (fun c s => Q c s ∧ s.DestsReady c) s :=
  met_of_meets (fun _ _ h => ⟨of_decide_eq_true (Bool.and_eq_true_iff.mp h).1, destsReady_of (Bool.and_eq_true_iff.mp h).2⟩) h

/-- Collectives: the highest thread as source, which has left its table, and thread 0, which has not. -/
theorem test_meets_Collectives :
    MetAll (.shfl h0 .idx (.v 1) (.v 2) (.imm 31)) (fun cs s => ∀ c ∈ cs, (s.thread c.wk (shflSrc .idx c.t c.bv)).live = false ∧
      s.GatherReady c.wk (shflSrc .idx c.t c.bv) 2) base ∧
    MetAll (.bcast h0 (.v 1) (.v 2) (.imm 0)) (fun cs s => ∀ c ∈ cs, (s.thread c.wk (c.bv.toNat % 32)).live = true ∧
      s.GatherReady c.wk (c.bv.toNat % 32) 2) base ∧
    MetAll (.vote h0 .testSame (.p 2) (.p 1)) (fun _ _ => True) base ∧ MetAll (.redux h0 .b32 .xor (.v 1) (.v 2)) (fun _ _ => True) base := by
  have hg : ∀ (b : Bool) (f : TC → Nat) (cs : List TC) (s : State), cs.all (fun c => (s.thread c.wk (f c)).live == b &&
      (if b then s.readable (.v c.wk (f c) 2) && !s.pois (.v c.wk (f c) 2) else !Fmap.get false (s.thread c.wk (f c)).exitPois (granOf 2))) = true →
      ∀ c ∈ cs, (s.thread c.wk (f c)).live = b ∧ s.GatherReady c.wk (f c) 2 := by
    intro b f cs s h c hc
    have := List.all_eq_true.mp h c hc
    simp only [Bool.and_eq_true, beq_iff_eq] at this
    refine ⟨this.1, ?_⟩
    unfold State.GatherReady
    rw [this.1]
    cases b <;> simpa using this.2
  exact ⟨metAll_of (hg false _) (by decide +kernel), metAll_of (hg true _) (by decide +kernel), metAll_dec (by decide +kernel),
    metAll_dec (by decide +kernel)⟩

/-- Windows: the last quad of the allocation exported; an export and an empty slot revoked; an F bit set. -/
theorem test_meets_Windows :
    Met (.expw h0 .thread 1 (.win 2 0) (.v 1020) (.imm 0x804)) (fun c s => (1020 : Nat) % 4 = 0 ∧ expLen (.imm 0x804) % 4 = 0 ∧ 4 ≤ expLen (.imm 0x804) ∧
      1020 + expLen (.imm 0x804) ≤ (s.warp c.wk).alloc.nv ∧
      (s.exporters .thread c).all (fun p => (locsV p.1 p.2 1020 (expLen (.imm 0x804))).all (fun l => s.settled l && !s.inRange true l)) = true ∧
      s.isExport c.wk 2 = false) base ∧
    Met (.revw h0 (.win 3 0)) (fun c s => s.isExport c.wk 3 = true → (s.warp c.wk).revPend = none ∧ s.winUsers c.wk 3 = [] ∧ s.winThreads c.wk 3 = []) base ∧
    Met (.revw h0 (.win 3 0)) (fun c s => s.isExport c.wk 3 = true ∧ (s.warp c.wk).revPend = none ∧ s.winUsers c.wk 3 = [] ∧ s.winThreads c.wk 3 = [])
      (setW (fun w => { w with w := [(3, handleOf 0 0 0 0 3 0 true)] }) base) ∧
    Met (.setf h0 (.v 3)) (fun c s => ∀ l ∈ c.d, s.wasEmptied true l = true ∧ (l.wk = c.wk → ∀ k < 4, s.settled (l.inGranule k) = true)) { base with emptied := [(.v fetchWk 0 0, true, 0)] } ∧
    Met (.clrf h0 (.ind 8 3)) (fun c s => ∀ l ∈ c.d, l.wk = c.wk → ∀ k < 4, s.settled (l.inGranule k) = true) base :=
  ⟨met_dec (by decide +kernel), met_dec (by decide +kernel), met_dec (by decide +kernel),
    met_dec (by decide +kernel), met_dec (by decide +kernel)⟩

/-- StackInstructions and StackEntries: a stack that the push fills to its limit, and one that the pop empties. -/
theorem test_meets_StackInstructions :
    let full := setW (fun w => { w with stklim := 512, alloc := { w.alloc with win := 4 } }) base
    let deep := setT (fun x => { x with sdepth := 3 }) full
    Met (.frame h0 (.v 8) (.imm 4)) (fun c s => (locsV c.wk c.t 8 4).all (fun l => s.readable l && !s.pois l) = true ∧ s.PushFits c 4) full ∧
    Met (.unframe h0 (.v 8) (.imm 3)) (fun c s => (locsV c.wk c.t 8 3).all (fun l => s.writable l) = true ∧ s.PopFits c 3) deep ∧
    Met (.call h0 5) (fun c s => s.PushFits c 2) full ∧ Met (.callx h0 (.s 2)) (fun c s => s.PushFits c 2) full ∧ Met (.ret h0) (fun c s => s.PopFits c 2) deep := by
  have push : ∀ (n : Nat) (c : TC) (s : State), decide ((s.thread c.wk c.t).sbuf = [] ∧ 128 * ((s.thread c.wk c.t).sdepth + n) ≤ (s.warp c.wk).stklim.toNat ∧
      ∀ k < n, s.stkHas c.wk ((s.thread c.wk c.t).sdepth + k) = true) = true → s.PushFits c n := fun _ _ _ => of_decide_eq_true
  have pop : ∀ (n : Nat) (c : TC) (s : State), decide ((s.thread c.wk c.t).sbuf = [] ∧ n ≤ (s.thread c.wk c.t).sdepth ∧
      ∀ k < n, s.stkHas c.wk ((s.thread c.wk c.t).sdepth - 1 - k) = true ∧ s.stkFull c.wk c.t ((s.thread c.wk c.t).sdepth - 1 - k) = true ∧
        s.stkBad c.wk c.t ((s.thread c.wk c.t).sdepth - 1 - k) = false) = true → s.PopFits c n := fun _ _ _ => of_decide_eq_true
  refine ⟨met_of_meets (p := fun c s => (locsV c.wk c.t 8 4).all (fun l => s.readable l && !s.pois l) && decide _)
      (fun c s h => ⟨(Bool.and_eq_true_iff.mp h).1, push _ c s (Bool.and_eq_true_iff.mp h).2⟩) (by decide +kernel),
    met_of_meets (p := fun c s => (locsV c.wk c.t 8 3).all (fun l => s.writable l) && decide _)
      (fun c s h => ⟨(Bool.and_eq_true_iff.mp h).1, pop _ c s (Bool.and_eq_true_iff.mp h).2⟩) (by decide +kernel),
    met_of_meets (push 2) (by decide +kernel), met_of_meets (push 2) (by decide +kernel), met_of_meets (pop 2) (by decide +kernel)⟩

/-- ControlInstructions: a thread in handler state; a request queue with one free place. -/
theorem test_meets_ControlInstructions :
    Met (.tret h0) (fun c s => (s.thread c.wk c.t).inHandler = true) (setT (fun x => { x with inHandler := true }) base) ∧
    Met (.sysc h0 (.v 2) (.v 4) (.imm 7)) (fun c s =>
      let u := s.expect c.key c.wk (s.destLocs c)
      ((s.die (dieOf (coreOf c.wk))).sysq.length < 64 ∧ ∀ t ∈ maskList c.act, u.relDue c.wk t u.nextId false (.sysc 7 c.av 2 c.act) = false) ∧ s.DestsReady c)
      (base.modDie 0 (fun D => { D with sysq := List.replicate 63 ⟨0, 0, 0, 0, true⟩ })) :=
  ⟨met_dec (by decide +kernel), met_dests (by decide +kernel)⟩

/-- MemoryIssue: nothing logged; room for the last requests; an indirect D with the last free range entry; a queue with one free entry. -/
theorem test_meets_MemoryIssue :
    let busy := setW (fun w => { w with ranges := List.replicate 15 ⟨false, false, 500, 4, .round 0⟩ }) base
    Met (.ld h0 .b64 (.ind 8 2) (.v 4) (.imm 8)) (fun c s => s.MayIssue c (.ind 8 2) (loadReq .b64 false false (.regs c.d) c)) busy ∧
    Met (.ld h0 .b32 (.q 0) (.s 2) (.imm 0)) (fun c s => s.queueLen (parent c.wk) 0 < 16 ∧ s.reqRoom c.wk 2 = true ∧
      s.logHold c (loadReq .b32 false false (.queue (parent c.wk) 0) c) = []) (setW (fun w => { w with q := [(0, List.replicate 15 ⟨true, 0, 0⟩)] }) base) ∧
    Met (.st h0 .b128 (.v 4) (.v 2) (.imm 0x1FFFC)) (fun c s => s.MayIssue c (.v 0) (storeReq .b128 false c s)) base ∧
    Met (.lda h0 .dev .b64 (.v 4) (.v 2) (.imm 8)) (fun c s => s.MayIssue c (.v 4) (loadReq .b64 true (scopeWide .dev) (.regs c.d) c)) base ∧
    Met (.stl h0 .sys .b16 (.v 5) (.v 2) (.imm 8)) (fun c s => s.MayIssue c (.v 0) (storeReq .b16 true c s)) base ∧
    Met (.atom h0 .acq .b32 .cas (.v 1) (.v 2) (.v 4)) (fun c s => s.MayIssue c (.v 1) (atomReq .atom .acq .b32 .cas (.regs c.d) c s)) base ∧
    Met (.red h0 .rel .z32 .add (.v 2) (.imm 1)) (fun c s => s.MayIssue c (.v 0) (atomReq .red .rel .z32 .add .none c s)) base := by
  have hp : ∀ (d : Operand) (q : TC → State → Req) (c : TC) (s : State),
      (decide (s.logHold c (q c s) = []) && s.reqRoom c.wk (q c s).parts.length && (s.accRange c.key c.wk (some d) c.d).isSome) = true → s.MayIssue c d (q c s) := by
    intro d q c s h
    simpa [State.MayIssue, and_assoc] using h
  exact ⟨met_of_meets (hp _ (fun c _ => loadReq .b64 false false (.regs c.d) c)) (by decide +kernel), met_dec (by decide +kernel),
    met_of_meets (hp _ (fun c s => storeReq .b128 false c s)) (by decide +kernel),
    met_of_meets (hp _ (fun c _ => loadReq .b64 true (scopeWide .dev) (.regs c.d) c)) (by decide +kernel),
    met_of_meets (hp _ (fun c s => storeReq .b16 true c s)) (by decide +kernel),
    met_of_meets (hp _ (fun c s => atomReq .atom .acq .b32 .cas (.regs c.d) c s)) (by decide +kernel),
    met_of_meets (hp _ (fun c s => atomReq .red .rel .z32 .add .none c s)) (by decide +kernel)⟩

/-! ### An ordinary warp -/

/-- One block of a launch on core 0, its warp 0 on lane 0 with thread 0 live, and every convergence register declared for that thread. -/
def base1 : State :=
  let al : Alloc := ⟨1024, 128, 24, 64, 64, 32, 4⟩
  (((((({ State.reset with focus := 0 }.setLaunch 1 { present := true, alloc := al, fs := List.replicate 8 0x11000000 }).setBlock 0
    { present := true, lid := 1, resident := true, started := true,
      k := [(2, { next := some (.warp 0 1) }), (1, { next := some (.block 1) }), (3, { next := some (.block 1) })] }).modCore 0
    (fun c => { c with resident := [0], tlb := ⟨0, 0, false, 0x3D⟩ :: c.tlb })).modWarp 0 (fun x => { x with alive := true, lid := 1, alloc := al })).modThread 0 0
    (fun x => { x with live := true })).setRun 0 (some (newRun 0 0 1)))

def setV1 (i : Nat) (x : Word) (s : State) : State := s.writeLoc (.v 0 0 i) x
def setS1 (i : Nat) (x : Word) (s : State) : State := s.writeLoc (.s 0 i) x

/-- Windows, BINDW: a handle of the warp's own export. -/
theorem test_meets_Windows_bind :
    Met (.bindw h0 (.win 3 0) (.v 2)) (fun c s => s.bindOk c.wk c.av = true ∧ s.isExport c.wk 3 = false)
      (setV1 2 ((handleOf 0 0 0 0 5 0 true).setWidth 32) (setV1 3 (((handleOf 0 0 0 0 5 0 true) >>> 32).setWidth 32) base1)) := met_dec (by decide +kernel)

/-- ConvertResults: a slot of F8A without scale, and one of F8A with scale E8. -/
theorem test_meets_ConvertResults :
    Met (.fcvt h0 .rtz true 3 (.v 1) (.v 2)) (fun c s => fsPlain (s.fsWord c.wk 3) = true) base1 ∧
    Met (.fpack h0 .rdn 2 (.v 1) (.v 2) (.imm 127)) (fun c s =>
      fsPlain (s.fsWord c.wk 2) = true ∧ s.elemBad c.wk (elemLocs c.wk c.t 1 (fmtOf (fsAfmt (s.fsWord c.wk 2))).width (c.bv.toNat % 128)) = none ∧
      (elemLocs c.wk c.t 1 (fmtOf (fsAfmt (s.fsWord c.wk 2))).width (c.bv.toNat % 128)).all (fun l => s.readable l && s.writable l && !s.pois l) = true ∧
      (((s.run c.key).bind (fun r => r.ind)).isSome = true ∨ s.rangeRoom c.wk 1 = true)) base1 ∧
    Met (.funpack h0 2 (.v 1) (.v 2) (.imm 127)) (fun c s =>
      fsPlain (s.fsWord c.wk 2) = true ∧ s.elemBad c.wk (elemLocs c.wk c.t 2 (fmtOf (fsAfmt (s.fsWord c.wk 2))).width (c.bv.toNat % 128)) = none ∧
      (elemLocs c.wk c.t 2 (fmtOf (fsAfmt (s.fsWord c.wk 2))).width (c.bv.toNat % 128)).all (fun l => s.readable l && !s.pois l) = true) base1 ∧
    Met (.qblk h0 2 1 (.v 1) (.v 32)) (fun c s => (qblkEmax (fsAfmt (s.fsWord c.wk 1))).isSome = true ∧ fsScale (s.fsWord c.wk 1) = 1)
      (base1.modLaunch 1 (fun L => { L with fs := List.replicate 8 0x30400000 })) :=
  ⟨met_dec (by decide +kernel), met_dec (by decide +kernel), met_dec (by decide +kernel), met_dec (by decide +kernel)⟩

/-- CopyIssue: the last free place in the queue and in the list of range entries. -/
theorem test_meets_CopyIssue :
    let busy := setW (fun w => { w with ranges := List.replicate 13 ⟨false, false, 500, 4, .round 0⟩ }) base
    MetAll (.cpy h0 .b128 .reg .glb (.v 20) (.v 24) (.v 4)) (fun cs s => match cs with
      | [] => True
      | c0 :: _ => s.issueDue c0.wk (maskOf (cs.map (fun c => c.t))) = [] ∧ s.queueFull (parent c0.wk) false = false ∧
          s.rangeRoom c0.wk (cpyRngs (.cpy h0 .b128 .reg .glb (.v 20) (.v 24) (.v 4)) cs).length = true ∧
          s.lendW (cpyStat cs ++ cpyDstRegs (.cpy h0 .b128 .reg .glb (.v 20) (.v 24) (.v 4)) cs) = true ∧
          s.lendR (cpySrcRegs (.cpy h0 .b128 .reg .glb (.v 20) (.v 24) (.v 4)) cs) = true ∧
          s.footBusy (s.cpyCmd (.cpy h0 .b128 .reg .glb (.v 20) (.v 24) (.v 4)) c0 cs) = false) busy ∧
    Met (.tcopy h0 false true ⟨false, 0⟩ (.slot 4) (.shape 0) (.s 44)) (fun c s =>
      s.issueDue c.wk c.act = [] ∧ (c.b.take 8).all (fun l => s.readable l && !s.pois l) = true ∧
      s.queueFull (parent c.wk) false = false ∧
      s.rangeRoom (parent c.wk) (tcopyRngs false (c.b.drop 8) (s.tcopySide (parent c.wk) (.slot 4))).length = true ∧
      s.lendW (c.b.drop 8) = true ∧ s.lendW (s.tcopySide (parent c.wk) (.slot 4)) = true ∧
      s.footBusy (s.tcopyCmd (.tcopy h0 false true ⟨false, 0⟩ (.slot 4) (.shape 0) (.s 44)) false ⟨false, 0⟩ c) = false) busy ∧
    Met (.tcopy h0 true false ⟨false, 0⟩ (.v 1020) (.shape 0) (.s 44)) (fun c s =>
      s.rangeRoom (parent c.wk) (tcopyRngs true (c.b.drop 8) (s.tcopySide (parent c.wk) (.v 1020))).length = true ∧
      s.lendR (s.tcopySide (parent c.wk) (.v 1020)) = true) busy ∧
    Met (.tsld h0 ⟨false, 0⟩ (.shape 3) (.s 2) (.imm 64)) (fun c s => s.issueDue c.wk c.act = [] ∧ s.queueFull c.wk false = false) base ∧
    Met (.tsev h0 ⟨true, 0⟩ (.shape 3)) (fun c s => s.issueDue c.wk c.act = [] ∧ s.queueFull c.wk false = false) base ∧
    Met (.cpym h0 ⟨true, 3⟩ (.s 4) (.s 8)) (fun c s => s.WinFree c
      (s.onceCmd c (.cpym h0 ⟨true, 3⟩ (.s 4) (.s 8)) .copy (s.nextNum c.wk false) ⟨true, 3⟩ (c.a.map s.readLoc) c.d)) busy ∧
    Met (.pull h0 true ⟨false, 0⟩ (.s 4) (.s 8)) (fun c s => s.WinFree c (s.pullCmd (.pull h0 true ⟨false, 0⟩ (.s 4) (.s 8)) ⟨false, 0⟩ c)) busy := by
  have hc : ∀ (i : Instr) (cs : List TC) (s : State), (match cs with
      | [] => true
      | c0 :: _ => decide (s.issueDue c0.wk (maskOf (cs.map (fun c => c.t))) = [] ∧ s.queueFull (parent c0.wk) false = false ∧
          s.rangeRoom c0.wk (cpyRngs i cs).length = true ∧ s.lendW (cpyStat cs ++ cpyDstRegs i cs) = true ∧
          s.lendR (cpySrcRegs i cs) = true ∧ s.footBusy (s.cpyCmd i c0 cs) = false)) = true → (match cs with
      | [] => True
      | c0 :: _ => s.issueDue c0.wk (maskOf (cs.map (fun c => c.t))) = [] ∧ s.queueFull (parent c0.wk) false = false ∧
          s.rangeRoom c0.wk (cpyRngs i cs).length = true ∧ s.lendW (cpyStat cs ++ cpyDstRegs i cs) = true ∧
          s.lendR (cpySrcRegs i cs) = true ∧ s.footBusy (s.cpyCmd i c0 cs) = false) := by
    intro i cs s h
    cases cs with
    | nil => trivial
    | cons c0 l => exact of_decide_eq_true h
  have hw : ∀ (x : TC → State → Cmd) (c : TC) (s : State), decide (s.issueDue c.wk c.act = [] ∧ s.queueFull c.wk false = false ∧
      s.rangeRoom c.wk (spanRng true c.d ++ s.ownRngs (x c s)).length = true ∧ s.lendW (c.d ++ (s.ownRngs (x c s)).flatMap rngLocs) = true) = true →
      s.WinFree c (x c s) := fun _ _ _ => of_decide_eq_true
  exact ⟨metAll_of (hc _) (by decide +kernel), met_dec (by decide +kernel), met_dec (by decide +kernel), met_dec (by decide +kernel),
    met_dec (by decide +kernel), met_of_meets (hw (fun c s => s.onceCmd c (.cpym h0 ⟨true, 3⟩ (.s 4) (.s 8)) .copy (s.nextNum c.wk false) ⟨true, 3⟩
      (c.a.map s.readLoc) c.d)) (by decide +kernel),
    met_of_meets (hw (fun c s => s.pullCmd (.pull h0 true ⟨false, 0⟩ (.s 4) (.s 8)) ⟨false, 0⟩ c)) (by decide +kernel)⟩

/-- Notices: a kick to a block of the launch; the newest of two notices found by its tag; none at all; an acknowledgement. -/
theorem test_meets_Notices :
    Met (.kick h0 (.v 1) (.v 4)) (fun c s => s.kickOk c.wk c.av.lo = true ∧
      s.relDue c.wk c.t s.nextId false (.kick (s.kickTo c.key c.av.lo) (BitVec.ofNat 128 (s.locsNat c.b))) = false) base1 ∧
    Met (.kwait h0 true (.v 4) (.v 1)) (fun c s => (s.notice c.wk (some (c.av.setWidth 20))).isSome = true ∧ s.DestsReady c)
      (setV1 1 9 (base1.modCore 0 (fun k => { k with kicks := [⟨0, 1, 0, 0, 1, 8⟩, ⟨0, 1, 0, 0, 2, 9⟩] }))) ∧
    Met (.kwait h0 false (.v 4) (.v 0)) (fun c s => s.notice c.wk none = none ∧ s.DestsReady c) base1 ∧
    Met (.ack h0 (.v 4)) (fun c s => ∀ t ∈ maskList c.act,
      s.relDue c.wk t s.nextId false (.ack (hWk ((BitVec.ofNat 128 (s.locsNat c.a)).extractLsb' 64 64)) (c.key % 64)) = false) base1 :=
  ⟨met_dec (by decide +kernel), met_dests (by decide +kernel), met_dests (by decide +kernel), met_dec (by decide +kernel)⟩

/-- A joint array instruction of the warp may sign register k. -/
def jointOk (i : Instr) (k : Nat) (warpKind : Bool) : TC → State → Bool := fun c s =>
  decide (arrExt (s.warp c.wk).alloc (s.fsWord c.wk (arrSlot i)) i = none) &&
    (match s.sign c.wk c.t k i c.pc warpKind with | .signed _ => true | _ => false) &&
    decide (arrSlotBad (s.fsWord c.wk (arrSlot i)) i = false ∧ s.issueDue c.wk (bit1 c.t) = [] ∧ s.jointFree i k c = true)

theorem joint_of {i : Instr} {k : Nat} {wk : Bool} {c : TC} {s : State} (h : jointOk i k wk c s = true) :
    arrExt (s.warp c.wk).alloc (s.fsWord c.wk (arrSlot i)) i = none ∧ (s.sign c.wk c.t k i c.pc wk).IsSigned ∧
      arrSlotBad (s.fsWord c.wk (arrSlot i)) i = false ∧ s.issueDue c.wk (bit1 c.t) = [] ∧ s.jointFree i k c = true := by
  simp only [jointOk, Bool.and_eq_true, decide_eq_true_eq] at h
  obtain ⟨⟨h1, h2⟩, h3⟩ := h
  refine ⟨h1, ?_, h3⟩
  split at h2
  · rename_i u hu
    rw [hu]
    trivial
  · exact absurd h2 (by decide)

/-- One joint instruction of each kind, with its register and whether it asks for a declaration of warp kind. -/
def jointList : List (Instr × Nat × Bool) := [(.mma h0 0 2 1 (.tile 4) (.v 16) (.slot 6), 2, true), (.att h0 0 2 5 (.tile 4) (.v 16) (.slot 4), 2, true),
  (.attfin h0 0 2 (.v 16) (.tile 62), 2, true), (.ladinit h0 0 1 (.s 16) (.tile 4) (.imm 16), 1, false),
  (.ladpush h0 0 1 (.s 16) (.tile 4), 1, false), (.ladread h0 0 1 (.tile 4) (.s 40) (.s 20), 1, false),
  (.ladld h0 0 2 (.v 16) (.s 16) (.imm 15), 2, true)]

/-- ArrayIssue: each joint instruction with its register declared, and each command that enters once. -/
theorem test_meets_ArrayIssue :
    (∀ p ∈ jointList,
      Met p.1 (fun c s => arrExt (s.warp c.wk).alloc (s.fsWord c.wk (arrSlot p.1)) p.1 = none ∧ (s.sign c.wk c.t p.2.1 p.1 c.pc p.2.2).IsSigned ∧
        arrSlotBad (s.fsWord c.wk (arrSlot p.1)) p.1 = false ∧ s.issueDue c.wk (bit1 c.t) = [] ∧ s.jointFree p.1 p.2.1 c = true) base1) ∧
    (∀ p ∈ ([(.wld h0 1 1 (.slot 6) (.s 2) (.imm 64), arrVA (.imm 64)), (.aclr h0 0 true (.tile 4), fun _ => []),
        (.ald h0 0 true (.tile 4) (.v 16) (.v 0), arrVA (.v 0)), (.asto h0 7 .rtz true 3 (.v 16) (.tile 4), fun _ => [])] :
        List (Instr × (TC → List Word))),
      Met p.1 (fun c s => arrExt (s.warp c.wk).alloc (s.fsWord c.wk (arrSlot p.1)) p.1 = none ∧ arrSlotBad (s.fsWord c.wk (arrSlot p.1)) p.1 = false ∧
        s.issueDue c.wk c.act = [] ∧ s.onceArrFree p.1 c (p.2 c) = true) base1) := by
  constructor
  · have hl : jointList.all (fun p => meets p.1 (jointOk p.1 p.2.1 p.2.2) base1) = true := by decide +kernel
    exact fun p hp => met_of_meets (p := jointOk p.1 p.2.1 p.2.2) (fun _ _ => joint_of) (List.all_eq_true.mp hl p hp)
  · intro p hp
    simp only [List.mem_cons, List.not_mem_nil, or_false] at hp
    obtain rfl | rfl | rfl | rfl := hp
    all_goals exact met_dec (by decide +kernel)

/-- BarrierInstructions: bounds of counts at their ends, a group barrier of a member and of no member, readable objects. -/
theorem test_meets_BarrierInstructions :
    Met (.tlwait h0 .sched .dev (.v 2) (.v 1)) (fun c _ => schedRefBad c.bv.lo = false) (setV 1 0x000F00FF base) ∧
    (∀ n ∈ ([1, 1024] : List Word), Met (.bar h0 true (.imm 7) (.s 1)) (fun c s => (1 ≤ c.bv.lo.toNat ∧ c.bv.lo.toNat ≤ 1024) ∧
      s.relDue c.wk c.t s.nextId false (.bar 7 (some c.bv.lo.toNat)) = false) (setS1 1 n base1)) ∧
    Met (.gbar h0 (.imm 255)) (fun c s => s.gbarMember c.wk 255 = false) base1 ∧
    Met (.gbar h0 (.imm 255)) (fun c s => s.gbarMember c.wk 255 = true ∧ s.relDue c.wk c.t s.nextId false (.gbar 255) = false)
      (base1.modLaunch 1 (fun L => { L with groups := [(255, [0])] })) ∧
    (∀ n ∈ ([1, 65535] : List Word), Met (.abinit h0 (.v 4) (.v 1)) (fun c s => s.obReady c.d = true ∧ 1 ≤ c.av.lo.toNat ∧ c.av.lo.toNat ≤ 65535)
      (setV1 1 n base1)) ∧
    (∀ n ∈ ([1, 2147483647] : List Word), Met (.abexp h0 (.v 4) (.v 1)) (fun c s => (s.obReady c.d = true ∧ ∀ l ∈ c.d, s.pois l = false) ∧
      1 ≤ c.av.lo.toNat ∧ c.av.lo.toNat ≤ 2147483647) (setV1 1 n base1)) ∧
    Met (.abarv h0 (.v 1) (.v 4)) (fun c s => (s.obReady c.a = true ∧ ∀ l ∈ c.a, s.pois l = false) ∧
      ∀ t ∈ maskList c.who, s.relDue c.wk t s.nextId false (.abarv c.a c.d (sigUniform c.g) (s.winsOf c.wk c.g.a ++ s.winsOf c.wk c.g.d)) = false) base1 ∧
    Met (.abwait h0 (.v 4) (.v 1)) (fun c s => s.obReady c.a = true ∧ ∀ l ∈ c.a, s.pois l = false) base1 := by
  refine ⟨met_dec (by decide +kernel), ?_, met_dec (by decide +kernel), met_dec (by decide +kernel), ?_, ?_, met_dec (by decide +kernel),
    met_dec (by decide +kernel)⟩
  all_goals
    intro n hn
    simp only [List.mem_cons, List.not_mem_nil, or_false] at hn
    obtain rfl | rfl := hn
    all_goals exact met_dec (by decide +kernel)

/-- SchedulingInstructions: a declared register. -/
theorem test_meets_SchedulingInstructions :
    Met (.sign h0 (.k 3)) (fun c s => (s.signHold c.wk c.t 3 (.sign h0 (.k 3)) c.pc (.sign 3)).IsSigned ∧
      s.relDue c.wk c.t s.nextId false (.sign 3 (.sign h0 (.k 3))) = false) base1 ∧
    Met (.rconv h0 (.p 1) (.k 3) (.imm 100)) (fun c s =>
      (s.signHold c.wk c.t 3 (.rconv h0 (.p 1) (.k 3) (.imm 100)) c.pc (.rconv 3 1 (s.clk + c.bv.lo.toNat))).IsSigned ∧
      s.relDue c.wk c.t s.nextId false (.rconv 3 1 c.bv.lo.toNat (.rconv h0 (.p 1) (.k 3) (.imm 100))) = false) base1 := by
  have hs : ∀ r : SignRes, (match r with | .signed _ => true | _ => false) = true → r.IsSigned := by
    intro r h
    cases r with
    | signed u => trivial
    | wait => exact absurd h (by decide)
    | join => exact absurd h (by decide)
  exact ⟨met_of_meets (p := fun c s => (match s.signHold c.wk c.t 3 (.sign h0 (.k 3)) c.pc (.sign 3) with | .signed _ => true | _ => false) &&
      decide (s.relDue c.wk c.t s.nextId false (.sign 3 (.sign h0 (.k 3))) = false))
      (fun c s h => ⟨hs _ (Bool.and_eq_true_iff.mp h).1, of_decide_eq_true (Bool.and_eq_true_iff.mp h).2⟩) (by decide +kernel),
    met_of_meets (p := fun c s => (match s.signHold c.wk c.t 3 (.rconv h0 (.p 1) (.k 3) (.imm 100)) c.pc (.rconv 3 1 (s.clk + c.bv.lo.toNat)) with
        | .signed _ => true | _ => false) &&
      decide (s.relDue c.wk c.t s.nextId false (.rconv 3 1 c.bv.lo.toNat (.rconv h0 (.p 1) (.k 3) (.imm 100))) = false))
      (fun c s h => ⟨hs _ (Bool.and_eq_true_iff.mp h).1, of_decide_eq_true (Bool.and_eq_true_iff.mp h).2⟩) (by decide +kernel)⟩

/-- WorkInstructions: the last entry and counter of port 15 by a system warp; room for one more deferred addition and start. -/
theorem test_meets_WorkInstructions :
    Met (.wqpost h0 (.v 1) (.s 8)) (fun c s => portEarly entMask c s = none ∧ s.issueDue c.wk c.act = [] ∧
      s.entryBusy (refPort c.av.lo) (refEntry c.av.lo) = false) (setV 1 0x000F03FF base) ∧
    Met (.tarm h0 false 5 (.v 1) (.v 2)) (fun c s => portEarly entMask c s = none ∧ s.issueDue c.wk c.act = [] ∧
      s.entryBusy (refPort c.av.lo) (refEntry c.av.lo) = false) (setV 1 0x000F03FF base) ∧
    Met (.cntadd h0 true false (.v 0) (.v 1) (.imm 1)) (fun c s => portEarly refMask c s = none ∧ s.issueDue c.wk c.act = [] ∧ (s.warp c.wk).aft.length < 16)
      (setV 1 0x000F00FF (setW (fun w => { w with aft := List.replicate 15 ⟨1, 0, ⟨0, 0⟩, false, 1⟩ }) base)) ∧
    Met (.cntadd h0 false true (.v 20) (.v 1) (.imm 1)) (fun c s => (portEarly refMask c s = none ∧ s.issueDue c.wk c.act = [] ∧ s.counterMoves = false ∧
      ∀ q ∈ s.aftList, coreOf c.wk < q.1) ∧ s.DestsReady c)
      (setV 1 0x000F00FF base) ∧
    Met (.sched h0 (.s 8)) (fun c s => s.anyPois c.a = false ∧ s.readLoc (c.a.getD 0 (.s 0 0)) &&& refMask = 0 ∧ s.issueDue c.wk c.act = [] ∧
      s.startsWaiting < 16) (setS 8 0x000F00FF (base.setSched 3 { queue := List.replicate 15 ⟨0, 0, 0, 0, 0, 0, 1, none⟩ })) :=
  ⟨met_dec (by decide +kernel), met_dec (by decide +kernel), met_dec (by decide +kernel),
    met_dests (by decide +kernel), met_dec (by decide +kernel)⟩

/-- One instruction of each kind that asks only for its D to be ready. -/
def destList : List Instr := [.mfsr h0 (.v 1) (.sr 0x206), .fbrd h0 (.v 4) (.imm 7), .lnkctlStat h0 (.v 3) (.v 1) (.v 2), .cntrd h0 (.v 2) (.imm 0xFFF),
  .winqPop h0 (.v 2)]

/-- RegisterInstructions and SystemInstructions: D ready; no access due; room in the queue of winter. -/
theorem test_meets_SystemInstructions :
    (∀ i ∈ destList, Met i (fun c s => s.DestsReady c) base) ∧
    Met (.eret h0 (.v 1) (.v 2)) (fun c s => ∀ t ∈ maskList c.act, s.relDue c.wk t s.nextId false (.eret (c.av.toNat % 64) c.bv) = false) base ∧
    Met (.winqPop h0 (.ind 8 2)) (fun c s => s.DestsReady c ∧ (s.destRanges c).isSome = true)
      (setW (fun w => { w with ranges := List.replicate 15 ⟨false, false, 500, 4, .round 0⟩ }) base) ∧
    Met (.winqPush h0 (.v 2)) (fun c s => (s.die (sysDie c.wk)).winq.length < 4096) base := by
  have hl : destList.all (fun i => meets i dests base) = true := by decide +kernel
  exact ⟨fun i hi => met_of_meets (fun _ _ => destsReady_of) (List.all_eq_true.mp hl i hi), met_dec (by decide +kernel),
    met_of_meets (p := fun c s => dests c s && (s.destRanges c).isSome)
      (fun c s h => ⟨destsReady_of (Bool.and_eq_true_iff.mp h).1, (Bool.and_eq_true_iff.mp h).2⟩) (by decide +kernel), met_dec (by decide +kernel)⟩

/-! ### States that meet the premises of the statements about steps -/

/-- The ordinary warp with no run on its lane. -/
def idle1 : State := base1.setRun 0 none

/-- WarpSteps: each kind of step with its condition met; RCONV with a round that is not full, and with one that filled after the limit. -/
theorem test_meets_WarpSteps :
    ((base.setRun 0 none).freeLane 0 = some 0 ∧ ((base.setRun 0 none).markElig 0).winner 0 = some fetchWk ∧
      (((base.setRun 0 none).markElig 0).runnable (tryKey 0) fetchWk).isSome = true) ∧
    (idle1.mayDeliver 0 = true ∧ isSlice 0 = false) ∧
    ({ idle1 with closing := true }.modWarp 0 (fun w => { w with stopReq := some (6, 0, 0) })).mayStop 0 = true ∧
    (let s := { base with clk := 5 }.modThread fetchWk 0 (fun r => { r with hold := .sleep 5 }); (s.thread fetchWk 0).hold = .sleep 5 ∧ 5 ≤ s.clk) ∧
    (let s := { base1 with clk := 5, closing := true }.modThread 0 0 (fun r => { r with hold := .rconv 3 1 5 });
      s.closing = true ∧ (s.thread 0 0).hold = .rconv 3 1 5 ∧ 5 ≤ s.clk ∧ s.roundFull (bkOf 0) 3 = false) ∧
    (let s := ({ base1 with clk := 6, closing := true }.setKreg 0 3 { decl := .block 1, signed := [0], last := 6 }).modThread 0 0 (fun r => { r with hold := .rconv 3 1 5 });
      s.closing = true ∧ (s.thread 0 0).hold = .rconv 3 1 5 ∧ 5 ≤ s.clk ∧ s.roundFull (bkOf 0) 3 = true ∧ 5 < (s.kreg (bkOf 0) 3).last) ∧
    (let s := base.modThread fetchWk 0 (fun r => { r with hold := .release 1 false (.fence true) });
      (s.thread fetchWk 0).hold = .release 1 false (.fence true) ∧ s.relReady fetchWk 0 = true) ∧
    (let s := base.modWarp fetchWk (fun w => { w with revPend := some 3, revWait := [7], revThr := [(0, 9)] });
      (s.warp fetchWk).revPend = some 3 ∧ (∀ c ∈ (s.warp fetchWk).revWait, s.cmd c = none ∧ s.acc c = none) ∧
        ∀ p ∈ (s.warp fetchWk).revThr, p.2 ∉ (s.thread (p.1 / 32) (p.1 % 32)).hold.wins) ∧
    (let s := base1.modWarp 0 (fun w => { w with stkNeed := some 3 });
      (s.warp 0).stkNeed = some 3 ∧ (s.warp 0).stkStop = false ∧ s.stackMove 0 3 = .ok s) ∧
    (let i : Instr := .sign h0 (.k 3)
     let s := base1.setKreg 0 3 { decl := .block 1, signed := [0], first := some i };
      s.roundFull 0 3 = true ∧ (s.kreg 0 3).last ≤ s.clk ∧ (s.kreg 0 3).first = some i) ∧
    (let s := base.modWarp fetchWk (fun w => { w with aft := [⟨1, 9, ⟨2, 3⟩, false, 4⟩], tlCopy := ⟨1, 1, []⟩ });
      (s.warp fetchWk).aft = [⟨1, 9, ⟨2, 3⟩, false, 4⟩] ∧ 1 ≤ (s.warp fetchWk).tlCopy.comp ∧ s.counterMoves = false ∧ s.aftFirst fetchWk = true) := by
  refine ⟨⟨?_, ?_, ?_⟩, ⟨?_, ?_⟩, ?_, ⟨?_, ?_⟩, ⟨?_, ?_, ?_, ?_⟩, ⟨?_, ?_, ?_, ?_, ?_⟩, ⟨?_, ?_⟩, ⟨?_, ?_, ?_⟩, ⟨?_, ?_, ?_⟩, ⟨?_, ?_, ?_⟩, ⟨?_, ?_, ?_, ?_⟩⟩
  all_goals decide +kernel

/-- RunBegins: the run's word is fetched. -/
theorem test_meets_RunBegins : ((base.setRun 0 none).fetchWord fetchWk 0).1 = .word 0 := by decide +kernel

/-- An access of system warp 0 and of the ordinary warp. -/
def access (wk : Nat) (kind : AccKind) (st : AccSt) : Access :=
  { wk := wk, t := 0, iid := 1, lid := 0, bidx := 0, mask := 1, pc := 0, kind := kind, va := 0, n := 4, off := 0, size := .b32, total := 4, ty := .b32,
    oper := .add, acq := false, acqReg := false, rel := false, data := 0xAABBCCDD, dest := .regs [.v wk 0 9], wins := [], st := st, held := false,
    barLoad := 0, barAll := 0, tlog := 0, lane := none, asid := 0, pa := 0, swz := 0, pkind := 0, cgrp := none, tag := none, tseq := 0, rseq := 0, turn := 0, stuck := none,
    seen := [] }

/-- MemorySteps, AccessPerformed, LoadLands: an access that waits for the 64th place in its log; the ends of both memory tiers; a store, a
load, an atomic and a reduction; a load all of whose pieces have been served. -/
theorem test_meets_MemorySteps :
    (let s := { base with accs := [(8, some (access fetchWk .store .waitLog))] ++ (List.range 63).map (fun k => (k + 9, some { access fetchWk .store .logged with tlog := k + 1 })) };
      s.accList.find? (fun p => p.2.wk == fetchWk && p.2.st == .waitLog) = some (8, access fetchWk .store .waitLog) ∧ s.logCount fetchWk < 64) ∧
    ((slicePlaced 0).isSome = true ∧ (slicePlaced (2 ^ 39 - 1)).isSome = true ∧ Fmap.get false base.bad 0 = false) ∧
    (let a := access fetchWk .store .ready; a.kind = .store ∧ a.off + a.n ≤ 16) ∧
    (let a := { access fetchWk .load .ready with off := 12 };
      a.kind = .load ∧ base.badAt a.swz a.pa a.n = false ∧ a.off + a.n ≤ 16) ∧
    (let a := access fetchWk .atom .ready; a.kind = .atom ∧ base.badAt a.swz a.pa a.n = false ∧ a.n = a.total ∧ a.total = 4) ∧
    (let a := { access fetchWk .red .ready with n := 8, total := 8 }; a.kind = .red ∧ base.badAt a.swz a.pa a.n = false ∧ a.n = a.total ∧ a.total = 8) ∧
    (let s := { base with accs := [(8, some (access fetchWk .load .served))] };
      s.accList.filter (fun q => q.2.iid == 1 && q.2.t == 0 && q.2.reads) = [(8, access fetchWk .load .served)] ∧
      (∀ q ∈ [(8, access fetchWk .load .served)], q.2.st = .served) ∧ (access fetchWk .load .served).dest = .regs [.v fetchWk 0 9] ∧
      [Loc.v fetchWk 0 9].Nodup ∧ (0 : Nat) < Config.warpThreads) := by
  refine ⟨⟨?_, ?_⟩, ⟨?_, ?_, ?_⟩, ⟨?_, ?_⟩, ⟨?_, ?_, ?_⟩, ⟨?_, ?_, ?_, ?_⟩, ⟨?_, ?_, ?_, ?_⟩, ⟨?_, ?_, ?_, ?_, ?_⟩⟩
  all_goals decide +kernel

/-- A command of system warp 0. -/
def command (i : Instr) (st : CmdSt) : Cmd :=
  { wk := fetchWk, bk := fetchWk, array := false, ins := i, pc := 0, mask := 1, asid := 0, tctx := .copy, num := 1, st := st }

/-- EngineSteps: a head with a false guard, one that may be accepted, one that runs, one that has ended; notices of one sender and of two; an
acknowledgement. -/
theorem test_meets_EngineSteps :
    (let c := { command (.tsev h0 ⟨true, 0⟩ (.shape 3)) .queued with guard := some 0 }
     let s := (base.setCmd 5 (some c)).setGuard fetchWk 0 .false; s.cmd 5 = some c ∧ s.atHead 5 c = true ∧ s.guardOf c = .false) ∧
    (let c := command (.tsev h0 ⟨false, 0⟩ (.shape 3)) .queued
     let s := base.setCmd 5 (some c); s.cmd 5 = some c ∧ s.mayCopy 5 c = true ∧ s.outstanding (coreOf c.wk) < 8192 ∧
       ∀ p ∈ s.cmdList, p.1 < 5 → coreOf p.2.wk = coreOf c.wk → s.mayCopy p.1 p.2 = false) ∧
    (let c := command (.tsld h0 ⟨false, 0⟩ (.shape 3) (.s 2) (.imm 64)) .running
     let s := base.setCmd 5 (some c); s.cmd 5 = some c ∧ c.st = .running ∧ s.onCore c = true) ∧
    (let c := { command (.tsld h0 ⟨false, 0⟩ (.shape 3) (.s 2) (.imm 64)) .running with qtag := some 3 }
     let s := base.setCmd 5 (some c); s.cmd 5 = some c ∧ c.qtag.isSome = true ∧ s.replaying (dieOf (coreOf c.wk)) = false) ∧
    (let c := { command (.wld h0 1 1 (.slot 6) (.s 2) (.imm 64)) .stopped with array := true }
     let s := base.setCmd 5 (some c); s.cmd 5 = some c ∧ c.st = .stopped ∧ c.array = true ∧ s.onCore c = true) ∧
    (let c := command (.tsev h0 ⟨false, 0⟩ (.shape 3)) .ended
     let s := base.setCmd 5 (some c); s.cmd 5 = some c ∧ c.array = false ∧ c.st = .ended ∧ s.onCore c = true) ∧
    (let s := base1.modCore 0 (fun k => { k with kickNet := [⟨0, 1, 0, 7, 1, 9⟩] });
      s.kickSenders 0 = [7] ∧ (s.core 0).kickNet.find? (fun n => n.src == 7) = some ⟨0, 1, 0, 7, 1, 9⟩) ∧
    (let s := base1.modCore 0 (fun k => { k with kickNet := [⟨0, 1, 0, 7, 1, 9⟩, ⟨0, 1, 0, 100, 2, 9⟩] }); 2 ≤ (s.kickSenders 0).length) ∧
    (let s := { base1 with acks := [⟨0, 5, 64, 1⟩] };
      s.ackDue 0 = some ⟨0, 5, 64, 1⟩ ∧ (s.block (bkOf 0)).present = true) := by
  refine ⟨⟨?_, ?_, ?_⟩, ⟨?_, ?_, ?_, ?_⟩, ⟨?_, ?_, ?_⟩, ⟨?_, ?_, ?_⟩, ⟨?_, ?_, ?_, ?_⟩, ⟨?_, ?_, ?_, ?_⟩, ⟨?_, ?_⟩, ?_, ⟨?_, ?_⟩⟩
  all_goals decide +kernel

/-- ArraySteps: a command that may start; one whose ladder context has come; the last unit of a store, read late, and its landing; sources to
report; an end; a retirement. -/
theorem test_meets_ArraySteps :
    let c : Cmd := { wk := 0, bk := 0, array := true, ins := .aclr h0 0 false (.tile 4), pc := 0, mask := 1, asid := 0, tctx := .array, num := 1 }
    (let s := base1.setCmd 5 (some c); s.cmd 5 = some c ∧ s.mayStart 5 c = true ∧ c.st = .queued ∧
      ∀ p ∈ s.cmdList, p.1 < 5 → coreOf p.2.wk = coreOf c.wk → xferUnit p.2.ins = xferUnit c.ins → s.arrHead p.1 p.2 = false) ∧
    (let c := { c with ins := .ladld h0 0 2 (.v 16) (.s 16) (.imm 15), st := .running, await := 1 }
     let s := base1.setCmd 5 (some c); s.cmd 5 = some c ∧ c.st = .running ∧ s.onCore c = true ∧ c.await = 1 ∧ s.ladReady c = true) ∧
    (let c := { c with ins := .asto h0 7 .rtz true 3 (.v 16) (.tile 4), st := .running, units := List.range 32, rdone := 31, count := 32 }
     let s := { base1.setCmd 5 (some c) with clk := 40 }
     let d := { c with start := 40, skip := 31 }
     s.cmd 5 = some c ∧ c.qtag = none ∧ fromMem c.ins = false ∧ s.unitDue c = true ∧ c.unit ≠ c.rdone ∧ c.readOff c.rdone < c.elapsed s.clk ∧
       (s.arrUses d (c.units.getD c.rdone 0)).any (fun p => s.arrPois d p) = false) ∧
    (let c := { c with ins := .asto h0 7 .rtz true 3 (.v 16) (.tile 4), st := .running, units := List.range 32, rdone := 32, ldone := 31,
                       count := 32, res := [[(0, 7)]] }
     let s := { base1.setCmd 5 (some c) with clk := 32 }
     s.cmd 5 = some c ∧ c.st = .running ∧ s.onCore c = true ∧ fromMem c.ins = false ∧ c.res = [[(0, 7)]] ∧ c.landOff c.ldone ≤ c.elapsed s.clk) ∧
    (let c := { c with st := .running, count := 4, units := [0], rdone := 1 }
     let s := { base1.setCmd 5 (some c) with clk := 100 }; s.cmd 5 = some c ∧ c.array = true ∧ c.st = .running ∧ c.consumed = false ∧ c.await = 0 ∧
       fromMem c.ins = false ∧ c.err = 0 ∧ c.rdone = c.units.length ∧ c.units ≠ [] ∧ c.consumeOff ≤ c.elapsed s.clk ∧ s.onCore c = true ∧
       c.atEnd s.clk = true) ∧
    (let c := { c with st := .ended }
     let s := { base1.setCmd 5 (some c) with clk := 8 }; s.cmd 5 = some c ∧ c.array = true ∧ c.st = .ended ∧ c.start + 8 ≤ s.clk ∧
       (s.warp c.wk).aprogOld.1 ≠ s.clk) := by
  refine ⟨⟨?_, ?_, ?_, ?_⟩, ⟨?_, ?_, ?_, ?_, ?_⟩, ⟨?_, ?_, ?_, ?_, ?_, ?_, ?_⟩, ⟨?_, ?_, ?_, ?_, ?_, ?_⟩, ⟨?_, ?_, ?_, ?_, ?_, ?_, ?_, ?_, ?_, ?_, ?_, ?_⟩, ⟨?_, ?_, ?_, ?_, ?_⟩⟩
  all_goals decide +kernel

/-- DispatchSteps: a full ring, a queue with a command at its head, a block to assign, a timer that has run, a block on its way off, a block
and a launch at their end. -/
theorem test_meets_DispatchSteps :
    ((16 : Word) - ((base.setQueue 7 { log2 := 4 }).queue 7).head).toNat ≤ 2 ^ 4 ∧
    (base.setQueue 7 { log2 := 4, en := true, tail := 1 }).pickQueue = some 7 ∧
    (let s := base.setLaunch 1 { present := true, nblocks := 2, assigned := [(0, true)] }
     let L := s.launch 1; L.present = true ∧ L.unassigned.find? (fun b => (s.freeTag (L.home b)).isSome && !s.earlierWaits 1 (L.home b)) = some 1 ∧
       s.freeTag (L.home 1) = some 0) ∧
    (let s := { base1.modCore 0 (fun k => { k with waiting := [1] }) with dev := { Dev.reset with now := 200000 } }; (s.core 0).waiting = [1] ∧
      (s.core 0).qStart + 1000 * (s.core 0).quantum.toNat ≤ s.dev.now) ∧
    (let s := (base1.modCore 0 (fun k => { k with waiting := [1] })).modBlock 0 (fun b => { b with leaving := true });
      (s.core 0).waiting = [1] ∧ s.leaving 0 = true) ∧
    (idle1.modWarp 0 (fun w => { w with alive := false })).mayRetire (bkey 0 0) = true ∧
    (let s := base.setLaunch 1 { present := true, nblocks := 2, retired := 2 }
     let L := s.launch 1; L.present = true ∧ L.retired = L.nblocks ∧ ∀ p ∈ s.accList, p.2.lid = 1 → isSys p.2.wk = true) := by
  refine ⟨?_, ?_, ⟨?_, ?_, ?_⟩, ⟨?_, ?_⟩, ⟨?_, ?_⟩, ?_, ⟨?_, ?_, ?_⟩⟩
  all_goals decide +kernel

/-- A link that is up, port 2. -/
def linked : State := base.modPort 2 (fun P => { P with plnk := 0x80000000 })
/-- A schedule that runs on it: one buffer of one chunk of one F32 element, at a given word. -/
def schedule (w : DWord) : SRun :=
  { start := ⟨2, 8, 0, 0, 0, 0, 1, none⟩, phase := .running, words := [w], bufs := [(1#1 ++ 0#31 ++ 0#12 ++ 4#20 ++ 0#64)], stage := [], dirty := [], pc := 0,
    i := 0, steps := 0, late := false, tstart := 0, tword := none, stopped := false, qtag := none, fwd := none, sent := 0, turn := 0,
    abort := false, parity := false, spoilt := [] }
def sequencing (w : DWord) (s : State) : State := { s with sfocus := 0 }.setSched 0 { run := some (schedule w) }

/-- ScheduleWords: a schedule that runs, its link up with room, and a chunk that has come for it; a forward without room, and one in hand. -/
theorem test_meets_ScheduleWords :
    let r := schedule 0
    let s := sequencing 0 (linked.modPort 2 (fun P => { P with rx := [⟨0, bufFmt (r.buf 0), List.replicate (4 * r.elems 0) 1⟩] }))
    Running s r ∧ r.fwd = none ∧ r.spoils 0 (r.chunkNo ⟨.abs, 0⟩ 0) = false ∧ s.linkUp 2 = true ∧ s.linkFlows 2 = true ∧ s.sendRoom 2 (r.toSend (r.chunk 0 (r.chunkNo ⟨.abs, 0⟩ 0))) = true ∧
      (∃ x u, s.takeChunk 2 s.sfocus = some (x, u) ∧ r.takes 0 x = true) ∧
      ((0 : Word).toNat ≤ (s.counterOf 2 255).toNat ∧ r.tstart.toNat + (0 : Word).toNat ≤ (s.ftime r.start.port).toNat) ∧
      (r.i + 1 < (65535 : BitVec 16).toNat ∧ (1 : BitVec 16).toNat ≤ r.i + 1) ∧
      (let s := s.modPort 2 (fun P => { P with space := 3 })
       ∃ x u, s.takeChunk 2 s.sfocus = some (x, u) ∧ u.sendRoom 2 (r.toSend [1]) = false) ∧
      (let r := { r with fwd := some [1] }; r.fwd = some [1] ∧ s.sendRoom 2 (r.toSend [1]) = true) := by
  exact ⟨⟨by decide +kernel, rfl, rfl⟩, rfl, by decide +kernel, by decide +kernel, by decide +kernel, by decide +kernel,
    ⟨_, _, rfl, by decide +kernel⟩, ⟨by decide +kernel, by decide +kernel⟩, ⟨by decide +kernel, by decide +kernel⟩,
    ⟨_, _, rfl, by decide +kernel⟩, rfl, by decide +kernel⟩

/-- The link with a chunk of a schedule that has not started in its receive buffer. -/
def early : State := linked.modPort 2 (fun P => { P with rx := [⟨9, 0, [1, 2, 3, 4]⟩] })

/-- CollectiveSteps and TriggerCounters: what an early chunk holds back and what nothing does; the two ends of a link. -/
theorem test_meets_CollectiveSteps :
    (let s := linked.setEnt 2 1023 { st := .active, sent := true }; (s.ent 2 1023).st = .active ∧ (s.ent 2 1023).sent = true ∧ (s.ent 2 1023).fin = false) ∧
    (linked.linkUp 2 = true ∧ linked.heldBack 2 = false ∧ (linked.port 2).held = [] ∧ (linked.arrive 2 ⟨linked.inAsid 2, 0x100, none, [], none, false, none⟩).2 = none) ∧
    (early.linkUp 2 = true ∧ early.heldBack 2 = true ∧ early.rxUsed 2 + (List.replicate 8 (0 : Byte)).length ≤ 262144) ∧
    (let x : SStart := ⟨2, 8, 0, 0, 0, 0, 1, none⟩
     let s := base.setSched 0 { queue := [x] }; (s.sched 0).run = none ∧ (s.sched 0).queue = [x]) ∧
    (let r := { schedule 0 with phase := .starting }
     let s := base.setSched 0 { run := some r }; (s.sched 0).run = some r ∧ r.phase = .starting ∧ r.stopped = false) ∧
    (let r := schedule (0x05#6 ++ 2#5 ++ 1#13 ++ 0#8 ++ 0#32)
     let s := sequencing (0x05#6 ++ 2#5 ++ 1#13 ++ 0#8 ++ 0#32) linked
     Running { s with sfocus := 0 } r ∧ r.word = some (.florealWait 2 true 0 0) ∧ r.tstart.toNat + (0 : Word).toNat ≤ (s.ftime r.start.port).toNat) ∧
    (let i : Instr := .florealRecv 2 ⟨.abs, 0⟩ 0 1
     let r := { schedule (0x02#6 ++ 2#5 ++ 0#13 ++ 0#8 ++ 1#16 ++ 0#16) with tword := some 0 }
     let s := { linked.setSched 0 { run := some r } with dev := { Dev.reset with now := 1000 } }
     (s.sched 0).run = some r ∧ r.phase = .running ∧ r.stopped = false ∧ r.word = some i ∧ r.tword = some 0 ∧ s.wordLimit i = some 1000 ∧
       s.wordTry 0 r i = .wait r ∧ 0 + 1000 ≤ s.dev.now) ∧
    (linked.rxUsed 2 + (List.replicate 4 (1 : Byte)).length ≤ 262144) ∧
    ((linked.ftime 2).toNat + 100 < (101 : DWord).toNat ∧ linked.adoptsTime 2 = true ∧ (linked.ftime 2).toNat < (100 : DWord).toNat ∧
      (100 : DWord).toNat ≤ (linked.ftime 2).toNat + 100) ∧
    (let s := linked.modPort 2 (fun P => { P with plnk := 0x80000103 }); s.linkUp 2 = true ∧ s.adoptsTime 2 = false ∧
      (s.ftime 2).toNat + 100 < (101 : DWord).toNat) ∧
    (let s := linked.setEnt 2 1023 { st := .armed, cidx := 255, thresh := 9 }
     (1023, s.ent 2 1023) ∈ (s.port 2).entry ∧ (s.ent 2 1023).st = .armed ∧ (s.ent 2 1023).time = false ∧ (s.ent 2 1023).cidx = 255 ∧
       (s.ent 2 1023).thresh.toNat ≤ (s.counterOf 2 255 + 9).toNat) := by
  refine ⟨⟨?_, ?_, ?_⟩, ⟨?_, ?_, ?_, ?_⟩, ⟨?_, ?_, ?_⟩, ⟨?_, ?_⟩, ⟨?_, ?_, ?_⟩, ⟨⟨?_, ?_, ?_⟩, ?_, ?_⟩, ⟨?_, ?_, ?_, ?_, ?_, ?_, ?_, ?_⟩, ?_, ⟨?_, ?_, ?_, ?_⟩, ⟨?_, ?_, ?_⟩,
    ⟨?_, ?_, ?_, ?_, ?_⟩⟩
  all_goals decide +kernel

/-- Thread 0 of a system warp of die 0 held at what a step ends. -/
def holding (h : Hold) (s : State) : State := s.modThread (sysKey 0 0) 0 (fun r => { r with hold := h })

/-- SystemSteps: what each system warp waits for. -/
theorem test_meets_SystemSteps :
    ((holding .tldrain base).heldBy (sysKey 0 0) (fun h => h == .tldrain) ≠ [] ∧
      ∀ p ∈ (holding .tldrain base).accList, p.2.tseq = 0 ∨ ((holding .tldrain base).warp (sysKey 0 0)).flushAt < p.2.rseq) ∧
    (let s := { holding (.winqPop 6 [] []) (base.modDie 0 (fun D => { D with winq := [(5, 0)] })) with dev := { Dev.reset with qcnt := 2 } }
     (s.die 0).winq = [(5, 0)] ∧ s.winterReady 0 = true ∧ (List.range 32).filterMap (fun t => popNum (s.thread (sysKey 0 0) t).hold) = [6]) ∧
    (let s := holding (.ctxsv 0 64) idle1
     (List.range 32).findSome? (fun t => match (s.thread (sysKey 0 0) t).hold with | .ctxsv b v => some (b, v) | _ => none) = some (0, 64) ∧
     s.ctxReady 0 = true ∧ s.imageReach 0 (0, 64) = true ∧ ∀ t ∈ s.heldBy (sysKey 0 0) (fun h => h == .ctxsv 0 64), s.relDue (sysKey 0 0) t s.nextId false (.fence true) = false) ∧
    (let s := holding (.ctxld 0 64) idle1
     (List.range 32).findSome? (fun t => match (s.thread (sysKey 0 0) t).hold with | .ctxld b v => some (b, v) | _ => none) = some (0, (64 : DWord)) ∧
     s.imageReach 0 (0, 64) = true ∧ s.imageReach 0 (s.imagePlace 0) = true) ∧
    ((holding (.linkPause false 39) base).firstHold (sysKey 0 0) (fun h => match h with | .linkPause k i => some (k, i) | _ => none) = some (false, 39) ∧
      (holding (.linkPause false 39) base).inFlight 39 = false) ∧
    ((holding (.linkRemap 39 63 3) base).firstHold (sysKey 0 0) (fun h => match h with | .linkRemap i l p => some (i, l, p) | _ => none) = some (39, 63, 3)) ∧
    ((holding (.linkTrain false 0 false) base).firstHold (sysKey 0 0) (fun h => match h with | .linkTrain k i b => some (k, i, b) | _ => none) =
      some (false, 0, false)) ∧
    ((holding (.linkTrain false 0 true) base).firstHold (sysKey 0 0) (fun h => match h with | .linkTrain k i b => some (k, i, b) | _ => none) =
      some (false, 0, true)) ∧
    ((holding (.linkTrain true 15 false) base).firstHold (sysKey 0 0) (fun h => match h with | .linkTrain k i b => some (k, i, b) | _ => none) =
      some (true, 15, false) ∧ (0 : BitVec 8).toNat = base.dev.devid.toNat ∧ (14 : BitVec 4).toNat < 15) := by
  refine ⟨⟨?_, ?_⟩, ⟨?_, ?_, ?_⟩, ⟨?_, ?_, ?_, ?_⟩, ⟨?_, ?_, ?_⟩, ⟨?_, ?_⟩, ?_, ?_, ?_, ⟨?_, ?_, ?_⟩⟩
  all_goals decide +kernel

/-- The ordinary warp, stopped by its debugger. -/
def debugged : State := (idle1.modWarp 0 (fun w => { w with stopped := true })).modLaunch 1 (fun L => { L with dbg := true })

/-- RegisterSteps and DebugSteps: a mailbox with room, a full one and the host's entry, hits of one cycle. -/
theorem test_meets_RegisterSteps :
    ((base.modDie 0 (fun D => { D with sysq := [⟨3, 0, 0, 0, true⟩, ⟨4, 0, 7, 9, false⟩] })).die 0).sysq.find? (fun r => !r.taken) = some ⟨4, 0, 7, 9, false⟩ ∧
    (base.setDev { Dev.reset with mnq := [(5, 6)] }).dev.mnq = [(5, 6)] ∧
    (let D := (base.modDie 0 (fun D => { D with mbox := [7] })).die 0; D.mboxWait = [] ∧ D.mbox = [7]) ∧
    (0xF8 : Word).toNat % 16 ≤ 8 ∧
    (base.port 15).own.toNat / 65536 = (0x0000FFFF : Word).toNat / 65536 ∧
    debugged.dbgReg 0 1023 = some (.reg (.v 0 0 1023)) ∧ debugged.dbgWarp 0 = some 0 ∧
    (∀ n ∈ [15, 16], let s := { base.modDie 0 (fun D => { D with mboxWait := [⟨3, 5, 0, 7⟩], mbox := List.replicate n 0 }) with clk := 4 };
      (s.die 0).mboxWait = [⟨3, 5, 0, 7⟩] ∧ 3 < s.clk) ∧
    (0x80000000 : DWord).getLsbD 31 = true ∧
    (let s := { base.modDie 0 (fun D => { D with hits := [(4, fetchWk, 1), (3, fetchWk, 2)] }) with clk := 4, closing := true };
      s.closing = true ∧ s.hitCycle 0 = some 3) := by
  refine ⟨?_, ?_, ⟨?_, ?_⟩, ?_, ?_, ?_, ?_, ?_, ?_, ⟨?_, ?_⟩⟩
  all_goals decide +kernel

/-- PowerSteps at the edges of its ranges, and HostSteps. -/
theorem test_meets_PowerSteps :
    (State.reset.dev.coolantLost = false ∧ State.reset.dev.m ≤ State.reset.dev.pcap.toNat % 64 ∧ State.reset.dev.plimit.toNat % 4096 < 2401 ∧ 94 < 95) ∧
    (let s := State.reset.setDev { Dev.reset with m := 59 }; s.dev.m < s.dev.pcap.toNat % 64 ∧ 2349 + 50 < s.dev.plimit.toNat % 4096) ∧
    (let s := State.reset.setDev { Dev.reset with pcap := 59 }; s.dev.pcap.toNat % 64 < s.dev.m) ∧
    (2400 ≤ State.reset.dev.plimit.toNat % 4096 ∧ State.reset.dev.m = State.reset.dev.pcap.toNat % 64) ∧
    (115 ≤ 115 ∧ 105 ≤ 105 ∧ (0 : Nat) ∉ State.reset.dev.hopsOff ∧ 39 < 40) ∧
    (105 ≤ 114 ∧ 114 < 115 ∧ (State.reset.setDev { Dev.reset with coolantLost := true }).dev.coolantLost = true ∧ 95 ≤ 104 ∧ 104 < 105) ∧
    (let a := { access fetchWk .load .ready with pa := 2 ^ 39 }
     let s := base.setAcc 8 (some a); s.acc 8 = some a ∧ a.stuck = none ∧ s.crosses (10 * 0 + 1) a = true) := by
  refine ⟨⟨?_, ?_, ?_, ?_⟩, ⟨?_, ?_⟩, ?_, ⟨?_, ?_⟩, ⟨?_, ?_, ?_, ?_⟩, ⟨?_, ?_, ?_, ?_, ?_⟩, ⟨?_, ?_, ?_⟩⟩
  all_goals decide +kernel

theorem test_meets_HostSteps :
    (2 ^ 39 - 4 + 4 ≤ 2 ^ 39 ∧ State.reset.dev.hdm0 + (2 ^ 39 - 4) < bar0 ∧ State.reset.badAt 0 (2 ^ 39 - 4) 4 = false ∧
      State.reset.hostBehind State.reset.dev.hostWait (.read (State.reset.dev.hdm0 + (2 ^ 39 - 4)) 4 .clean) = false) ∧
    (State.reset.hdmPA (2 ^ 40) 4 = some (2 ^ 40) ∧ 2 ^ 40 < bar0 ∧ State.reset.badAt 0 (2 ^ 40) 4 = false ∧
      State.reset.hostBehind State.reset.dev.hostWait (.write (2 ^ 40) [1]) = false) ∧
    State.reset.dev.bootState = 0 ∧ (let s := State.reset.setDev { Dev.reset with bootState := 3, window := [(0, 7)] }; s.dev.bootState = 3 ∧ s.windowHolds [7] = true) := by
  refine ⟨⟨?_, ?_, ?_, ?_⟩, ⟨?_, ?_, ?_, ?_⟩, ?_, ?_, ?_⟩
  all_goals decide +kernel

/-- StepRunsDecoded: a lane that is next with its word in hand and before its fetch, an agenda, and a schedule whose turn it is. -/
theorem test_meets_StepRunsDecoded :
    let nop : BitVec 96 := 0xB29F0000#32 ++ 0#64
    let s := State.reset.withFetchWord 96 nop.toNat
    (s.agenda = [] ∧ s.fatal = false ∧ s.closing = false ∧ s.laneLast = false ∧ s.pickLane = some 0 ∧ Fmap.get 0 s.bank 0 = 0 ∧ isSlice fetchWk = false ∧ s.run 0 = some (newRun fetchWk 0 1) ∧
      (maskList 1).any (fun t => s.isHeld fetchWk t) = false ∧ (({ s with laneLast := true } : State).fetchWord fetchWk 0).1 = .word nop ∧
      decodeWord nop = .ok (.nop h0)) ∧
    ((({ s with laneLast := true } : State).xlate (coreOf fetchWk) none (s.warp (parent fetchWk)).asid 0 .x).1.isOk = true ∧ s.badAt 0 0 12 = false ∧
      s.walkReach (coreOf fetchWk) none (s.warp (parent fetchWk)).asid 0 = true ∧ s.reach (coreOf fetchWk) 0 0 = true) ∧
    (decodeWord 0 = .error .notAnInstruction) ∧
    (let s := State.reset.withFetchWord 64 0; s.agenda = [] ∧ s.fatal = false ∧ s.closing = false ∧ s.pickLane = none ∧ s.cursor % 13 = 1 ∧
      s.schedTurn = some (0, .florealNop)) := by
  refine ⟨⟨?_, ?_, ?_, ?_, ?_, ?_, ?_, ?_, ?_, ?_, ?_⟩, ⟨?_, ?_, ?_, ?_⟩, ?_, ?_, ?_, ?_, ?_, ?_, ?_⟩
  all_goals decide +kernel

/-- MemoryFormKept: a step from a state whose memory has its form. -/
theorem test_meets_MemoryFormKept :
    let s := State.reset.withFetchWord 96 (0xB29F0000#32 ++ 0#64 : BitVec 96).toNat
    s.memWf = true ∧ (match step s with | .next _ => true | _ => false) = true := by decide +kernel

/-- TrapDelivery: two threads with pending traps of two kinds, with a handler of the lower kind and with none. -/
def trapped (hd : Fmap DWord) : State :=
  ((idle1.modThread 0 0 (fun r => { r with trap := some ⟨3, 24, 36, 9⟩, hold := .trap })).modThread 0 1
    (fun r => { r with live := true, trap := some ⟨2, 12, 24, 8⟩, hold := .trap })).modLaunch 1 (fun L => { L with traps := hd })

theorem test_meets_TrapDelivery :
    (∀ hd ∈ ([[(2, 120)], []] : List (Fmap DWord)), (trapped hd).mayDeliver 0 = true ∧ ((trapped hd).warp 0).stopped = false ∧
      (∀ t < 32, ((trapped hd).thread 0 t).live = true → ((trapped hd).thread 0 t).inHandler = false) ∧
      (∀ t < 32, ∀ p ∈ ((trapped hd).thread 0 t).trap, ((trapped hd).thread 0 t).live = true → 2 < p.kind ∨ (2 = p.kind ∧ (12 : DWord).toNat ≤ p.pc.toNat)) ∧
      ((trapped hd).thread 0 1).trap = some ⟨2, 12, 24, 8⟩ ∧ ((trapped hd).thread 0 1).live = true) ∧
    (trapped [(2, 120)]).handlerOf 0 2 = some 120 ∧ (trapped []).handlerOf 0 2 = none := by
  refine ⟨?_, ?_, ?_⟩
  · intro hd h
    simp only [List.mem_cons, List.not_mem_nil, or_false] at h
    obtain rfl | rfl := h
    all_goals refine ⟨?_, ?_, ?_, ?_, ?_, ?_⟩
    all_goals decide +kernel
  all_goals decide +kernel

/-- DecodeTraps: an illegal, a privileged and a debug instruction, one that names a system register and one that names host memory, in an
ordinary warp; a register past the allocation. -/
theorem test_meets_DecodeTraps :
    (base1.fate 0 (.sel h0 .b32 (.v 1) (.p 24) (.v 3)) = some (kIll, 0)) ∧
    (∀ i ∈ [Instr.halt h0, .sstep h0 (.v 1), .mov h0 (.v 1) (.sr 0x206), .cpy h0 .b32 .glb .hst (.v 4) (.v 8) (.v 2)],
      i.legal = true ∧ i.warpOk = true ∧ (i.cls = 0xE ∨ opOf i = 0x3C2 ∨ namesSystem i = true)) ∧
    (base1.run base1.focus = some (newRun 0 0 1) ∧ (base1.fate 0 (.mov h0 (.s 130) (.v 1))).isSome = true) ∧ isSlice 0 = false ∧ isSys 0 = false ∧ isSys fetchWk = true := by
  refine ⟨?_, ?_, ⟨?_, ?_⟩, ?_, ?_, ?_⟩
  all_goals decide +kernel

/-- The statements about values: operands at the edges of their ranges. -/
theorem test_meets_values :
    (fF32.decode 0x3F800000 = .fin false 8388608 (-23) ∧ fF16.decode 0x8000 = .fin true 0 (-24) ∧ fB16.decode 0x0001 = .fin false 1 (-133)) ∧
    ((0x80000000 : DWord).getLsbD (tyBits .b32 - 1 - 0) = true ∧ (1 : DWord).getLsbD 0 = true ∧ 0 < tyBits .b32) ∧
    ([Loc.v 0 0 4, .v 0 0 5, .v 0 0 6, .v 0 0 7].Nodup ∧ base1.anyPois [Loc.v 0 0 4, .v 0 0 5, .v 0 0 6, .v 0 0 7] = false) ∧
    ((31 : Nat) < 32 ∧ 5 ≤ 5) ∧ ((2 : Int) ≠ 0) ∧ (2 ^ 39 - 1 < 2 ^ 39) := by
  refine ⟨⟨?_, ?_, ?_⟩, ⟨?_, ?_, ?_⟩, ⟨?_, ?_⟩, ?_, ?_, ?_⟩
  all_goals decide +kernel

/-! ### Single steps, their results worked by hand from the rules -/

/-- The state after an instruction of the base machine. -/
def after (i : Instr) (s : State) : State :=
  match exec i s with
  | .next u => u
  | _ => State.reset

/-- v registers from v2 upward, then D: what register v`n` holds after the instruction. -/
def gives (i : Instr) (vs : List (Nat × Word)) (n : Nat) (x : Word) : Bool :=
  (after i (vs.foldl (fun s p => setV p.1 p.2 s) base)).readLoc (.v fetchWk 0 n) == x

def ar (t : Ty) (sat : Bool) : Arith := ⟨.rne, t, sat, false, false, false⟩

/-- R117, R120 to R123. -/
theorem test_results_integer :
    gives (.iadd h0 (ar .s32 true) (.v 1) (.v 2) (.v 3)) [(2, 0x7FFFFFFF), (3, 1)] 1 0x7FFFFFFF ∧
    gives (.iadd h0 (ty .b32) (.v 2) (.v 2) (.v 2)) [(2, 0x80000001)] 2 2 ∧
    gives (.isub h0 (ar .z32 true) (.v 1) (.v 2) (.v 3)) [(3, 1)] 1 0 ∧
    gives (.iadc h0 (ty .b32) (.v 4) (.v 2) (.v 3)) [(2, 0xFFFFFFFF), (5, 1)] 4 0 ∧ gives (.iadc h0 (ty .b32) (.v 4) (.v 2) (.v 3)) [(2, 0xFFFFFFFF), (5, 1)] 5 1 ∧
    gives (.imul h0 (ty .s32) (.v 1) (.v 2) (.imm 5)) [(2, 0xFFFFFFFD)] 1 0xFFFFFFF1 ∧
    gives (.imulh h0 (ty .z32) (.v 1) (.v 2) (.imm 4)) [(2, 0x80000000)] 1 2 ∧ gives (.imulh h0 (ty .s32) (.v 1) (.v 2) (.imm 4)) [(2, 0x80000000)] 1 0xFFFFFFFE ∧
    gives (.imad h0 (ty .s32) (.v 1) (.v 2) (.imm 4)) [(1, 5), (2, 3)] 1 17 ∧
    gives (.imadw h0 (ty .z32) (.v 4) (.v 2) (.imm 1)) [(4, 0xFFFFFFFF), (5, 1), (2, 1)] 5 2 ∧
    gives (.idiv h0 (ty .s32) (.v 1) (.v 2) (.imm 2)) [(2, 0xFFFFFFF9)] 1 0xFFFFFFFD ∧ gives (.idiv h0 (ty .z32) (.v 1) (.v 2) (.v 3)) [(2, 7)] 1 0xFFFFFFFF ∧
    gives (.irem h0 (ty .s32) (.v 1) (.v 2) (.imm 2)) [(2, 0xFFFFFFF9)] 1 0xFFFFFFFF ∧
    gives (.imin h0 (ty .s32) (.v 1) (.v 2) (.imm 1)) [(2, 0xFFFFFFFF)] 1 0xFFFFFFFF ∧ gives (.imax h0 (ty .z32) (.v 1) (.v 2) (.imm 1)) [(2, 0xFFFFFFFF)] 1 0xFFFFFFFF ∧
    gives (.iabs h0 (ty .s32) (.v 1) (.v 2)) [(2, 0x80000000)] 1 0x80000000 ∧ gives (.iabs h0 (ar .s32 true) (.v 1) (.v 2)) [(2, 0x80000000)] 1 0x7FFFFFFF ∧
    gives (.ineg h0 (ty .s32) (.v 1) (.v 2)) [(2, 5)] 1 0xFFFFFFFB ∧
    gives (.lea h0 (ty .s32) (.v 4) (.v 2) (.imm 3)) [(4, 16), (2, 0xFFFFFFFF)] 4 8 ∧
    gives (.idot4 h0 (ty .s32) (.v 1) (.v 2) (.v 3)) [(1, 1), (2, 0x010203FF), (3, 0x01010101)] 1 6 ∧
    gives (.isad h0 (ty .z32) (.v 1) (.v 2) (.v 3)) [(1, 10), (2, 3), (3, 5)] 1 12 := by
  decide +kernel

/-- R124 to R127. -/
theorem test_results_logic :
    gives (.andn h0 (ty .b32) (.v 1) (.v 2) (.v 3)) [(2, 0xFF), (3, 0x0F)] 1 0xF0 ∧
    gives (.lop3 h0 (ty .b32) (.v 1) (.v 2) (.imm 0x96)) [(1, 0xF0F0F0F0), (2, 0xCCCCCCCC), (3, 0xAAAAAAAA)] 1 0x96969696 ∧
    gives (.shl h0 (ty .b32) (.v 1) (.v 2) (.imm 32)) [(2, 1)] 1 0 ∧ gives (.shr h0 (ty .b64) (.v 4) (.v 2) (.imm 36)) [(3, 0x80)] 4 8 ∧
    gives (.sar h0 (ty .b32) (.v 1) (.v 2) (.imm 40)) [(2, 0x80000000)] 1 0xFFFFFFFF ∧ gives (.rol h0 (ty .b32) (.v 1) (.v 2) (.imm 1)) [(2, 0x80000001)] 1 3 ∧
    gives (.fshl h0 (ty .b32) (.v 1) (.v 2) (.imm 1)) [(1, 1), (2, 0x80000000)] 1 3 ∧
    gives (.bfe h0 (ty .s32) (.v 1) (.v 2) (.imm 0x404)) [(2, 0xF0)] 1 0xFFFFFFFF ∧
    gives (.bfi h0 (ty .b32) (.v 1) (.v 2) (.imm 0x808)) [(1, 0xFFFFFFFF)] 1 0xFFFF00FF ∧
    gives (.popc h0 (ty .b64) (.v 1) (.v 2)) [(2, 0xF), (3, 0x80000001)] 1 6 ∧ gives (.clz h0 (ty .b32) (.v 1) (.v 2)) [(2, 1)] 1 31 ∧
    gives (.ctz h0 (ty .b32) (.v 1) (.v 2)) [] 1 32 ∧ gives (.brev h0 (ty .b32) (.v 1) (.v 2)) [(2, 1)] 1 0x80000000 ∧
    gives (.prmt h0 (ty .b32) (.v 1) (.v 2) (.v 3)) [(1, 0x10070800), (2, 0x03020180), (3, 0x07060504)] 1 0xFF070080 := by
  decide +kernel

/-- R131 to R133, R128, R129: MOV64 of a source that is also a destination, MOVI, MOVX, STX, ISET, SEL. -/
theorem test_results_move :
    gives (.mov64 h0 false (.v 2) (.v 4)) [(4, 7), (5, 8)] 3 8 ∧ gives (.movi h0 (.v 1) 0xDEADBEEF) [] 1 0xDEADBEEF ∧
    gives (.movx h0 false (.v 1) (.v 2) (.imm 1)) [(2, 2), (3, 9)] 1 9 ∧ gives (.stx h0 false (.v 1) (.v 2) (.imm 4)) [(1, 6), (2, 2)] 6 6 ∧
    gives (.iset h0 .s32 1 (.v 1) (.v 2) (.imm 0)) [(2, 0xFFFFFFFF)] 1 1 ∧ gives (.iset h0 .z32 1 (.v 1) (.v 2) (.imm 0)) [(2, 0xFFFFFFFF)] 1 0 ∧
    gives (.sel h0 .b32 (.v 1) (.p 2) (.v 3)) [(1, 4), (3, 5)] 1 4 := by
  decide +kernel

/-- R101, R145 to R149, R154, R158, R159: 1 + 2; 1 − 1 toward minus infinity; 3 · 0.5; a fused upward rounding of (1 + 2^-23)² − 1; 1 / 0; the square
root of 4; the smaller of a NaN and 1; halves of F16; 2.5 to the nearest even integer; −1 to an unsigned one; 2^24 + 1 to F32. -/
theorem test_results_float :
    gives (.fadd h0 (ty .f32) (.v 1) (.v 2) (.v 3)) [(2, 0x3F800000), (3, 0x40000000)] 1 0x40400000 ∧
    gives (.fsub h0 ⟨.rdn, .f32, false, false, false, false⟩ (.v 1) (.v 2) (.v 2)) [(2, 0x3F800000)] 1 0x80000000 ∧
    gives (.fmul h0 (ty .f32) (.v 1) (.v 2) (.v 3)) [(2, 0x40400000), (3, 0x3F000000)] 1 0x3FC00000 ∧
    gives (.ffma h0 ⟨.rup, .f32, false, false, false, false⟩ (.v 1) (.v 2) (.v 2)) [(1, 0xBF800000), (2, 0x3F800001)] 1 0x34800001 ∧
    gives (.fdiv h0 (ty .f32) (.v 1) (.v 2) (.v 3)) [(2, 0x3F800000)] 1 0x7F800000 ∧
    gives (.fsqrt h0 (ty .f32) (.v 1) (.v 2)) [(2, 0x40800000)] 1 0x40000000 ∧
    gives (.fmin h0 (ty .f32) (.v 1) (.v 2) (.v 3)) [(2, 0x7FC00000), (3, 0x3F800000)] 1 0x3F800000 ∧
    gives (.hadd2 h0 (ty .f16x2) (.v 1) (.v 2) (.v 3)) [(2, 0x3C004000), (3, 0x3C003C00)] 1 0x40004200 ∧
    gives (.f2i h0 .rne .s32 .f32 (.v 1) (.v 2)) [(2, 0x40200000)] 1 2 ∧ gives (.f2i h0 .rne .z32 .f32 (.v 1) (.v 2)) [(2, 0xBF800000)] 1 0 ∧
    gives (.i2f h0 .rne .f32 .s32 (.v 1) (.v 2)) [(2, 0x01000001)] 1 0x4B800000 := by
  decide +kernel

/-- R142: 1 / 0 raises DZ, and NF keeps `%fflags` as it stands. -/
theorem test_fflags :
    ((after (.fdiv h0 (ty .f32) (.v 1) (.v 2) (.v 3)) (setV 2 0x3F800000 base)).thread fetchWk 0).fflags = 8 ∧
    ((after (.fdiv ⟨.always, false, true, false, false⟩ (ty .f32) (.v 1) (.v 2) (.v 3)) (setV 2 0x3F800000 base)).thread fetchWk 0).fflags = 0 := by
  decide +kernel

/-- R61: TAKE empties the granule of its A source. -/
theorem test_take :
    (after (.mov ⟨.always, true, false, false, false⟩ (.v 1) (.v 9)) base).full (.v fetchWk 0 8) = false ∧
    (after (.mov ⟨.always, true, false, false, false⟩ (.v 1) (.v 9)) base).full (.v fetchWk 0 4) = true := by
  decide +kernel

/-- R79: a false guard leaves D alone, and the instruction is done. -/
theorem test_guard :
    gives (.movi ⟨.pred 3 false, false, false, false, false⟩ (.v 1) 7) [(1, 4)] 1 4 ∧ gives (.movi ⟨.pred 3 true, false, false, false, false⟩ (.v 1) 7) [(1, 4)] 1 7 := by
  decide +kernel

/-- R204: BRA of offset −2 goes back 24 bytes; a counted one that reaches zero goes on; R36, R32: the rest of a run goes on at PC + 12. -/
theorem test_branches :
    ((after (.bra h0 false (.v 0) 2) base).thread fetchWk 0).pc = 24 ∧ ((after (.bra h0 true (.v 1) 2) (setV 1 1 base)).thread fetchWk 0).pc = 12 ∧
    ((after (.bra h0 true (.v 1) 2) (setV 1 3 base)).thread fetchWk 0).pc = 24 ∧ ((after (.brx h0 (.v 2)) (setV 2 120 base)).thread fetchWk 0).pc = 120 := by
  decide +kernel

/-- R75, R204: CALL pushes its return PC, low word first, and goes to its target; RET comes back. -/
theorem test_call :
    let full := setW (fun w => { w with stklim := 512, alloc := { w.alloc with win := 4 } }) base
    let s := after (.call h0 5) full
    (s.thread fetchWk 0).pc = 60 ∧ (s.thread fetchWk 0).sdepth = 2 ∧ s.stkGet fetchWk 0 0 = 12 ∧ s.stkGet fetchWk 0 1 = 0 ∧
      ((after (.ret h0) (setT (fun x => { x with sdepth := 2 }) (full.stkPut fetchWk 0 0 36))).thread fetchWk 0).pc = 36 := by
  decide +kernel

/-- R205, R207, R212: EXIT takes the thread from its table; a system call waits in its die's queue; HALT holds. -/
theorem test_control :
    ((after (.exit h0) base1).thread 0 0).live = false ∧
    ((after (.sysc h0 (.v 2) (.v 4) (.imm 7)) (setV1 4 9 base1)).die 0).sysq.map (fun r => (r.code, r.arg)) = [(7, 9)] ∧
    ((after (.halt h0) base).thread fetchWk 0).hold = .halt := by
  decide +kernel

/-- R9, R89: HALT outside the system warps, and an illegal instruction, raise their traps and do nothing else. -/
theorem test_traps :
    (((after (.halt h0) base1).thread 0 0).trap.map (fun p => p.kind) = some kPriv) ∧
    (((after (.sel h0 .b32 (.v 1) (.p 24) (.v 3)) base).thread fetchWk 0).trap.map (fun p => p.kind) = some kIll) ∧
    (((after (.mov h0 (.v 1) (.sr 0x206)) base1).thread 0 0).trap.map (fun p => p.kind) = some kPriv) := by
  decide +kernel

/-- R162, R164, R169: a store and an atomic are issued as accesses at A + B. -/
theorem test_issue :
    (after (.st h0 .b32 (.v 1) (.v 2) (.imm 8)) (setV 1 7 (setV 2 0x1000 base))).accList.map (fun p => (p.2.kind, p.2.va, p.2.n, p.2.data)) =
      [(.store, 0x1008, 4, 7)] ∧
    (after (.atom h0 .acq .b32 .cas (.v 1) (.v 2) (.v 4)) (setV 2 0x1000 base)).accList.map (fun p => (p.2.kind, p.2.va, p.2.n, p.2.acq)) =
      [(.atom, 0x1000, 4, true)] := by
  decide +kernel

/-- R211: a read of `%asidtab` and a write of `%mthresh`, and what `%plimit` reads at reset. -/
theorem test_system_registers :
    gives (.mfsr h0 (.v 1) (.sr 0x2A2)) [] 1 2400 ∧
    ((after (.mtsr h0 (.sr 0x201) (.v 1)) (setV 1 5 base)).mfsr fetchWk 0x201).1 = 5 := by
  decide +kernel

/-- R30 to R32, R90: one step from the placed word: NOP leaves the run before its next instruction, its lane
held for one cycle (R33). -/
theorem test_step_nop :
    (match step (State.reset.withFetchWord 96 (0xB29F0000#32 ++ 0#64 : BitVec 96).toNat) with
     | .next u => (u.run 0).map (fun r => (r.wk, r.pc, r.members, r.count, r.busyTo)) == some (fetchWk, 12, 1, 1, 1)
     | _ => false) = true := by
  decide +kernel

/-- R297, R298: one step from the placed schedule word SIGNAL adds to its counter. -/
theorem test_step_signal :
    (match step (State.reset.withFetchWord 64 (0x06#6 ++ 3#5 ++ 0#13 ++ 7#8 ++ 9#32 : BitVec 64).toNat) with
     | .next u => u.counterOf 3 7 == 9
     | _ => false) = true := by
  decide +kernel

end Sys2Proof.Tests
end

section
/-! SUPPORT. Signatures and the entry of array commands (R42, R219 to R224, R198 to R202): what the shared bodies come to where
their instruction may act. -/

namespace Sys2Proof.Machine

variable {i : Instr} {k : Nat} {c : TC} {s : State}

theorem SignRes.eq_signed {r : SignRes} (h : r.IsSigned) (s : State) : r = .signed (r.state s) := by
  cases r with
  | signed u => rfl
  | wait => exact False.elim h
  | join => exact False.elim h

/-- A joint instruction whose operands fit signs, and its round takes note of its register (R42, R223). -/
theorem jointBody_done {warpKind : Bool} (hx : arrExt (s.warp c.wk).alloc (s.fsWord c.wk (arrSlot i)) i = none)
    (hs : (s.sign c.wk c.t k i c.pc warpKind).IsSigned) (hb : arrSlotBad (s.fsWord c.wk (arrSlot i)) i = false)
    (hd : s.issueDue c.wk (bit1 c.t) = []) (hf : s.jointFree i k c = true) :
    jointBody i k warpKind c s = .done (s.jointSign ((s.sign c.wk c.t k i c.pc warpKind).state s) i k c) := by
  have e := SignRes.eq_signed hs s
  unfold jointBody
  rw [hx]
  simp only
  rw [e]
  simp [hb, hd, hf, SignRes.state]

theorem signsJointly_of_exec {warpKind : Bool} (he : ∀ s, exec i s = laneEach i false false .int .int (jointBody i k warpKind) s) :
    SignsJointly i k warpKind :=
  laneEach_completes false false .int .int _ _ _ he (fun _ _ ⟨hx, hs, hb, hd, hf⟩ => jointBody_done hx hs hb hd hf)

/-- An instruction issued once whose queue has room enters its command (R222). -/
theorem onceArr_done {va : TC → List Word} (hx : arrExt (s.warp c.wk).alloc (s.fsWord c.wk (arrSlot i)) i = none)
    (hb : arrSlotBad (s.fsWord c.wk (arrSlot i)) i = false) (hd : s.issueDue c.wk c.act = []) (hf : s.onceArrFree i c (va c) = true) :
    onceArr i va c s = .done ((s.takeNum c.wk true).enqueue (s.onceArrCmd i c (va c))
      ((arrRngs (s.fsWord c.wk (arrSlot i)) (.cmd 0) i).map (fun r => (c.wk, r)))) := by
  simp [onceArr, issueBody, hx, hb, hd, hf]

theorem entersOnce_of_exec {va : TC → List Word} (early : Early) (he : ∀ s, exec i s = laneOnceEarly i .int .int early (onceArr i va) s) :
    EntersOnce i va :=
  laneOnceEarly_completes .int .int early _ _ _ he (fun _ _ ⟨hx, hb, hd, hf⟩ => onceArr_done hx hb hd hf)

/-- SIGN or RCONV of a thread whose accesses are performed signs and holds it (R198, R200, R246). -/
theorem signBody_done {act : Act} {hold : Hold} (hs : (s.signHold c.wk c.t k i c.pc hold).IsSigned)
    (hr : s.relDue c.wk c.t s.nextId false act = false) :
    signBody k i act hold c s = .done ((s.signHold c.wk c.t k i c.pc hold).state s) := by
  have e := SignRes.eq_signed hs s
  unfold signBody
  rw [e]
  simp [hr, SignRes.state]

/-- Settles O28: a joint instruction passes the lane with the body that signs, and each other one with the body that enters its command. -/
theorem arrayIssue : Obligations.ArrayIssue := by
  refine ⟨?_, ?_, ?_, ?_, ?_, ?_, ?_, ?_, ?_, ?_, ?_⟩
  · intro h g k sl d a b
    exact signsJointly_of_exec (fun _ => rfl)
  · intro h g k sl d a b
    exact signsJointly_of_exec (fun _ => rfl)
  · intro h g k d a
    exact signsJointly_of_exec (fun _ => rfl)
  · intro h g k d a b
    exact signsJointly_of_exec (fun _ => rfl)
  · intro h g k d a
    exact signsJointly_of_exec (fun _ => rfl)
  · intro h g k d a b
    exact signsJointly_of_exec (fun _ => rfl)
  · intro h g k d a b
    exact signsJointly_of_exec (fun _ => rfl)
  · intro h g n d a b
    exact entersOnce_of_exec _ (fun _ => rfl)
  · intro h g st d
    exact entersOnce_of_exec noEarly (fun _ => rfl)
  · intro h g reg d a b
    exact entersOnce_of_exec noEarly (fun _ => rfl)
  · intro h g rnd int sl d a
    exact entersOnce_of_exec noEarly (fun _ => rfl)

/-- Settles O31. Every clause but those of SIGN and RCONV holds without a premise; SLEEP splits at a count of 0. -/
theorem schedulingInstructions : Obligations.SchedulingInstructions := by
  refine ⟨?_, ?_, ?_, ?_, ?_, ?_, ?_⟩
  case refine_1 => -- KDECL
    intro h block d a
    exact laneOnce_completes .int .int _ Always _ (fun _ => rfl) (fun _ _ _ => rfl)
  case refine_2 => -- SIGN
    intro h a
    exact laneEach_completes false false .int .int _ _ _ (fun _ => rfl) (fun _ _ ⟨hs, hr⟩ => signBody_done hs hr)
  case refine_3 => -- RCONV
    intro h d a b
    exact laneEach_completes false false .int .int _ _ _ (fun _ => rfl) (fun _ _ ⟨hs, hr⟩ => signBody_done hs hr)
  case refine_4 => -- GRES
    intro h d a
    exact laneOnce_completes .int .int _ Always _ (fun _ => rfl) (fun _ _ _ => rfl)
  case refine_5 => -- GCLR
    intro h d
    exact laneOnce_completes .int .int _ Always _ (fun _ => rfl) (fun _ _ _ => rfl)
  case refine_6 => -- YIELD
    intro h
    exact laneOnce_completes .int .int _ Always _ (fun _ => rfl) (fun _ _ _ => rfl)
  case refine_7 => -- SLEEP
    intro h a
    refine laneEach_completes false false .int .int _ Always _ (fun _ => rfl) (fun c s _ => ?_)
    split
    · rfl
    · rfl

end Sys2Proof.Machine
end

section
/-! SUPPORT. What the start of a run, a fetch and the end of a block leave alone: projections of the state that an operation and a fold
of it keep. -/

namespace Sys2Proof.Machine

variable {α β : Type}

/-- A fold keeps what each of its steps keeps. -/
theorem foldS_keeps {l : List α} {f : State → α → State} (p : State → β) (h : ∀ s, ∀ a ∈ l, p (f s a) = p s) (s : State) :
    p (foldS l s f) = p s := by
  induction l generalizing s with
  | nil => rfl
  | cons a l ih =>
    calc p (foldS (a :: l) s f) = p (foldS l (f s a) f) := rfl
      _ = p (f s a) := ih (fun s b hb => h s b (List.mem_cons_of_mem a hb)) (f s a)
      _ = p s := h s a List.mem_cons_self

/-- Distinct threads of a warp that are updated one after another: each is updated once. -/
theorem foldS_modThread {wk t : Nat} {l : List Nat} (f : Nat → Thread → Thread) (hl : l.Nodup) (hb : ∀ u ∈ l, u < 32) (ht : t ∈ l) (s : State) :
    (foldS l s (fun s u => s.modThread wk u (f u))).thread wk t = f t (s.thread wk t) := by
  induction l generalizing s with
  | nil => cases ht
  | cons a l ih =>
    obtain ⟨ha, hn⟩ := List.nodup_cons.1 hl
    have hba := hb a List.mem_cons_self
    have hbl : ∀ u ∈ l, u < 32 := fun u hu => hb u (List.mem_cons_of_mem a hu)
    have step : foldS (a :: l) s (fun s u => s.modThread wk u (f u)) = foldS l (s.modThread wk a (f a)) (fun s u => s.modThread wk u (f u)) := rfl
    rw [step]
    rcases List.mem_cons.1 ht with rfl | htl
    · have keep := foldS_keeps (l := l) (f := fun s u => s.modThread wk u (f u)) (fun s => s.thread wk t)
        (fun s u hu => by
          have hne : ¬ tkey wk u = tkey wk t := fun e => ha ((State.tkey_inj (hbl u hu) hba).1 e |>.2 ▸ hu)
          simp [State.setThread_thread, hne]) (s.modThread wk t (f t))
      simpa using keep
    · have hne : ¬ tkey wk a = tkey wk t := fun e => ha ((State.tkey_inj hba (hbl t htl)).1 e |>.2 ▸ htl)
      rw [ih hn hbl htl]
      simp [State.setThread_thread, hne]

theorem maskList_nodup (m : Word) : (maskList m).Nodup := List.Nodup.filter _ List.nodup_range

/-! ### Counters, hits and records -/

namespace State

@[simp] theorem bumpCnt_threads (s : State) (n k : Nat) : (s.bumpCnt n k).threads = s.threads := by
  unfold State.bumpCnt
  rfl

@[simp] theorem countGroup_threads (s : State) (g : Nat) : (s.countGroup g).threads = s.threads := by
  simp only [State.countGroup, apply_ite State.threads, setDev_threads, ite_self]

@[simp] theorem countReq_threads (s : State) (swz pa : Nat) (write : Bool) (cgrp : Option Nat) : (s.countReq swz pa write cgrp).threads = s.threads := by
  unfold State.countReq
  split
  · rfl
  · simp only
    split
    · simp
    · simp

@[simp] theorem countWalk_threads (s : State) (asid : BitVec 16) (va : DWord) : (s.countWalk asid va).threads = s.threads :=
  foldS_keeps State.threads (fun _ _ _ => countReq_threads ..) s

@[simp] theorem countLines_threads (s : State) (x : Xl) (n : Nat) (write : Bool) : (s.countLines x n write).threads = s.threads :=
  foldS_keeps State.threads (fun _ _ _ => countReq_threads ..) s

@[simp] theorem setLast_threads (s : State) (core : Nat) (lane : Option Nat) (e : TlbE) : (s.setLast core lane e).threads = s.threads := by
  cases lane with
  | none => rfl
  | some l => rfl

theorem lookup_threads (s : State) (core : Nat) (lane : Option Nat) (asid : BitVec 16) (va : DWord) :
    (s.lookup core lane asid va).2.threads = s.threads := by
  unfold State.lookup
  simp only
  split
  · rfl
  · split
    · simp
    · split
      · simp
      · split
        · split
          · simp
          · simp
        · simp

theorem xlate_threads (s : State) (core : Nat) (lane : Option Nat) (asid : BitVec 16) (va : DWord) (p : Perm) :
    (s.xlate core lane asid va p).2.threads = s.threads := by
  have hl := lookup_threads s core lane asid va
  unfold State.xlate
  split
  · rfl
  · generalize s.lookup core lane asid va = q at hl ⊢
    obtain ⟨r, s1⟩ := q
    cases r with
    | bad c l => exact hl
    | ok leaf big =>
      simp only
      split
      · exact hl
      · split
        · exact hl
        · exact hl

theorem fetchGo_threads (core : Nat) (asid : BitVec 16) (ps : List (DWord × Nat)) (l : List Byte) (s : State) :
    (s.fetchGo core asid ps l).2.threads = s.threads := by
  induction ps generalizing l s with
  | nil => rfl
  | cons q qs ih =>
    have hx := xlate_threads s core none asid q.1 .x
    unfold State.fetchGo
    split
    · rfl
    · generalize s.xlate core none asid q.1 .x = r at hx ⊢
      obtain ⟨r, s1⟩ := r
      cases r with
      | error e => exact hx
      | ok x =>
        simp only
        split
        · exact hx
        · split
          · exact hx
          · rw [ih, countLines_threads]
            exact hx

/-- A fetch touches caches and counters, and no thread (R77, R255, R265). -/
theorem fetchWord_threads (s : State) (wk : Nat) (pc : DWord) : (s.fetchWord wk pc).2.threads = s.threads := by
  have hg := fetchGo_threads (coreOf wk) (s.warp (parent wk)).asid (pieces pc 12 2) [] s
  unfold State.fetchWord
  split
  · rfl
  · generalize s.fetchGo (coreOf wk) (s.warp (parent wk)).asid (pieces pc 12 2) [] = r at hg ⊢
    obtain ⟨r, s1⟩ := r
    cases r with
    | ok l => exact hg
    | error e => exact hg

theorem thread_congr {s u : State} (h : u.threads = s.threads) (wk t : Nat) : u.thread wk t = s.thread wk t := by
  unfold State.thread
  rw [h]

theorem run_congr {s u : State} (h : u.runs = s.runs) (key : Nat) : u.run key = s.run key := by
  unfold State.run
  rw [h]

@[simp] theorem noteHits_threads (s : State) (core wk : Nat) (m : BitVec 4) : (s.noteHits core wk m).threads = s.threads := by
  simp only [State.noteHits, apply_ite State.threads, modDie_eq, setDie_threads, ite_self]

@[simp] theorem noteHits_runs (s : State) (core wk : Nat) (m : BitVec 4) : (s.noteHits core wk m).runs = s.runs := by
  simp only [State.noteHits, apply_ite State.runs, modDie_eq, setDie_runs, ite_self]

@[simp] theorem trace_threads (s : State) (d kind value core btag warp : Nat) : (s.trace d kind value core btag warp).threads = s.threads := by
  simp only [State.trace, apply_ite State.threads, modDie_eq, setDie_threads, ite_self]

@[simp] theorem trace_runs (s : State) (d kind value core btag warp : Nat) : (s.trace d kind value core btag warp).runs = s.runs := by
  simp only [State.trace, apply_ite State.runs, modDie_eq, setDie_runs, ite_self]

/-! ### The start of a run -/

@[simp] theorem safeStart_threads (s : State) (wk : Nat) (pc : DWord) : (s.safeStart wk pc).threads = s.threads := by
  simp only [State.safeStart, apply_ite State.threads, trace_threads, noteHits_threads, ite_self]

@[simp] theorem safeStart_runs (s : State) (wk : Nat) (pc : DWord) : (s.safeStart wk pc).runs = s.runs := by
  simp only [State.safeStart, apply_ite State.runs, trace_runs, noteHits_runs, ite_self]

@[simp] theorem askStop_threads (s : State) (wk cause code : Nat) : (s.askStop wk cause code).threads = s.threads := by
  simp only [State.askStop, apply_ite State.threads, setWarp_threads, ite_self]

@[simp] theorem askStop_runs (s : State) (wk cause code : Nat) : (s.askStop wk cause code).runs = s.runs := by
  simp only [State.askStop, apply_ite State.runs, setWarp_runs, ite_self]

@[simp] theorem clearFetch_runs (s : State) (wk : Nat) (m : Word) : (s.clearFetch wk m).runs = s.runs :=
  foldS_keeps State.runs (fun s t _ => by split <;> rfl) s

/-- The end of a fetch leaves the wait counts as they are. -/
theorem clearFetch_wait (s : State) (wk : Nat) (m : Word) (wk2 t2 : Nat) : ((s.clearFetch wk m).thread wk2 t2).wait = (s.thread wk2 t2).wait := by
  refine foldS_keeps (fun s => (s.thread wk2 t2).wait) (fun s t _ => ?_) s
  split
  · rfl
  · simp only [State.modThread_eq, State.setThread_thread]
    split
    · next e => simp [State.thread, e]
    · rfl

/-- R38: each thread of the warp's table counts once. -/
theorem countWaits_wait (s : State) (wk : Nat) (members : Word) {t : Nat} (ht : t ∈ maskList (s.liveMask wk)) :
    ((s.countWaits wk members).thread wk t).wait =
      if members.getLsbD t then 0 else if (s.thread wk t).wait = 255 then 255 else (s.thread wk t).wait + 1 := by
  unfold State.countWaits
  rw [foldS_modThread (fun t r => { r with wait := if members.getLsbD t then 0 else if r.wait = 255 then 255 else r.wait + 1 })
    (maskList_nodup _) (fun _ => maskList_lt) ht]

/-- A run that begins is held by its lane at its PC, and what comes after its start in the same step changes no wait count. -/
theorem beginRun_word {s : State} {core key wk : Nat} {g : Group} {w : BitVec 96} (h : (s.fetchWord wk g.pc).1 = .word w) :
    (s.beginRun core key wk g).run key = some (newRun wk g.pc g.mem) ∧
    ∀ t, ((s.beginRun core key wk g).thread wk t).wait = ((((s.fetchWord wk g.pc).2.tdSync core).countWaits wk g.mem).thread wk t).wait := by
  unfold State.beginRun
  generalize s.fetchWord wk g.pc = q at h ⊢
  obtain ⟨r, s1⟩ := q
  obtain rfl : r = .word w := h
  simp only
  set s2 := ((s1.tdSync core).countWaits wk g.mem).setRun key (some (newRun wk g.pc g.mem))
  set s3 := if w.getLsbD 6 = true then s2.safeStart wk g.pc else s2
  have hr3 : s3.runs = s2.runs := by
    unfold s3
    split
    · simp
    · rfl
  have ht3 : s3.threads = s2.threads := by
    unfold s3
    split
    · simp
    · rfl
  set s4 := (s3.modWarp wk (fun r => { r with elig := 0, stepping := false })).clearFetch wk g.mem
  have hr4 : s4.runs = s2.runs := by simpa [s4] using hr3
  have ht4 (t : Nat) : (s4.thread wk t).wait = (s2.thread wk t).wait := by
    rw [clearFetch_wait, State.modWarp_eq, State.setWarp_thread, thread_congr ht3]
  split
  · exact ⟨(run_congr ((askStop_runs ..).trans hr4) key).trans (setRun_run_self ..),
      fun t => (congrArg Thread.wait (thread_congr (askStop_threads ..) wk t)).trans (ht4 t)⟩
  · exact ⟨(run_congr hr4 key).trans (setRun_run_self ..), ht4⟩

end State

/-- Settles O37: the run is the one that `beginRun` has put on the lane, and the wait counts are those of `countWaits`. -/
theorem runBegins : Obligations.RunBegins := by
  intro core lane wk g s w s1 h u
  obtain ⟨hrun, hwait⟩ := State.beginRun_word (core := core) (key := 64 * core + lane) h
  refine ⟨hrun, fun t ht => ?_⟩
  rw [hwait t]
  exact State.countWaits_wait _ _ _ ht

end Sys2Proof.Machine
end

section
/-! SUPPORT. The turn of a run (R31, R77, R91): what it comes to with a word in hand and before its fetch. -/

namespace Sys2Proof.Machine

variable {s s1 : State} {k : Nat} {r : Run} {w : BitVec 96} {i : Instr}

theorem step_instr {u : State} (ha : s.agenda = []) (hf : s.fatal = false) (ht : s.turn1 = .instr i u) : step s = exec i u := by
  rw [step_turn ha hf, ht]

theorem step_quiet {u : State} (ha : s.agenda = []) (hf : s.fatal = false) (ht : s.turn1 = .quiet u) : step s = .next u := by
  rw [step_turn ha hf, ht]

namespace State

/-- An instruction once begun goes on. -/
theorem runTurn_begun (hr : s.run k = some r) (hw : r.word = some w) : s.runTurn k = s.wordTurn k r w := by
  unfold State.runTurn
  rw [hr]
  simp only [hw]

/-- Before an instruction a run that nothing holds up fetches its word; the fetch has left its threads as they were. -/
theorem runTurn_fetched (hr : s.run k = some r) (hw : r.word = none) (hh : (maskList r.members).any (fun t => s.isHeld r.wk t) = false)
    (hb : Fmap.get 0 s.bank k = 0) (hs : isSlice r.wk = true → (s1.thread r.wk 0).ftag = none)
    (hf : s.fetchWord r.wk r.pc = (.word w, s1)) : s.runTurn k = s1.wordTurn k r w := by
  have ht : s1.thread r.wk 0 = s.thread r.wk 0 := thread_congr (by rw [← fetchWord_threads s r.wk r.pc, hf]) r.wk 0
  have hg : (isSlice r.wk && (s.thread r.wk 0).ftag.isSome) = false := by
    cases hsl : isSlice r.wk with
    | false => rfl
    | true => simp [← ht, hs hsl]
  unfold State.runTurn
  rw [hr]
  simp [hw, hh, hb, hf, hg]

theorem wordTurn_ok (hd : decodeWord w = .ok i) :
    s.wordTurn k r w = .instr i { s.setRun k (some { r with word := some w }) with focus := k } := by
  unfold State.wordTurn
  rw [hd]

theorem wordTurn_error {e : DecodeError} (hd : decodeWord w = .error e) : s.wordTurn k r w = .quiet (s.illegalWord k r) := by
  unfold State.wordTurn
  rw [hd]

/-- The twelve bytes at a PC lie in one page where 65,524 or fewer bytes of it come before them. -/
theorem pieces_one {pc : DWord} (h : pc.toNat % 65536 ≤ 65524) : pieces pc 12 2 = [(pc, 12)] := by
  have hroom : 12 ≤ 65536 - pc.toNat % 65536 := by omega
  simp [pieces, hroom]

/-- A fetch that finds its page and its way, and good bytes, gives the bytes as memory stands (R77, R348). -/
theorem fetchWord_word {wk : Nat} {pc : DWord} {x : Xl} (h12 : pc.toNat % 12 = 0) (h56 : pc.toNat < 2 ^ 56) (hp : pc.toNat % 65536 ≤ 65524)
    (hw : s.walkReach (coreOf wk) none (s.warp (parent wk)).asid pc = true)
    (hx : s.xlate (coreOf wk) none (s.warp (parent wk)).asid pc .x = (.ok x, s1)) (hr : s1.reach (coreOf wk) x.swz x.pa = true)
    (hb : s1.badAt x.swz x.pa 12 = false) :
    s.fetchWord wk pc = (.word (BitVec.ofNat 96 (leNat (s1.readMem x.swz x.pa 12))), s1.countLines x 12 false) := by
  have hpc : ¬ (pc.toNat % 12 ≠ 0 ∨ 2 ^ 56 ≤ pc.toNat) := by omega
  unfold State.fetchWord
  rw [if_neg hpc, pieces_one hp]
  simp [State.fetchGo, hw, hx, hr, hb]

end State

/-- Settles O50. A lane's turn is a word in hand or a fetch; a word that stands for no instruction raises its trap; a schedule has its
turn where the cursor names it. -/
theorem stepRunsDecoded : Obligations.StepRunsDecoded := by
  refine ⟨fun s i rest ha hf => step_agenda ha hf, ?_, ?_, ?_⟩
  · intro s k r ha hf hc hl hp hr
    have hlane := turn1_lane hc hl hp
    have hrun : ({ s with laneLast := true } : State).run k = some r := hr
    refine ⟨?_, ?_, ?_⟩
    · intro w i hw hd
      exact step_instr ha hf (hlane.trans ((State.runTurn_begun hrun hw).trans (State.wordTurn_ok hd)))
    · intro w i s1 hw hh hb hs hf1 hd
      exact step_instr ha hf (hlane.trans ((State.runTurn_fetched hrun hw hh hb hs hf1).trans (State.wordTurn_ok hd)))
    · intro w e s1 hw hh hb hs hf1 hd
      exact step_quiet ha hf (hlane.trans ((State.runTurn_fetched hrun hw hh hb hs hf1).trans (State.wordTurn_error hd)))
  · intro s s1 wk pc x h12 h56 hp hw hx hr hb
    exact State.fetchWord_word h12 h56 hp hw hx hr hb
  · intro s k i ha hf hc hp hk hs
    have hm : s.moveOf (s.cursor % 13) = some (.instr i { s.unstall with sfocus := k }) := by
      rw [hk]
      simp [State.moveOf, hs]
    have ht : s.turn1 = .instr i (({ s.unstall with sfocus := k } : State).moved (s.cursor % 13)) := turn1_other hc hp (otherTurn_first hm)
    rw [step_instr ha hf ht, hk]

end Sys2Proof.Machine
end

section
/-! SUPPORT. Steps that come about by themselves: what the guards of a step say where the step acts. -/

namespace Sys2Proof.Machine

/-- Settles O36: each step's guards are the premises of its clause. -/
theorem warpSteps : Obligations.WarpSteps := by
  refine ⟨?_, ?_, ?_, ?_, ?_, ?_, ?_, ?_, ?_, ?_⟩
  case refine_1 => -- the start of a run
    intro core lane wk g s u hl hw hg
    show execRunStart core lane s = _
    unfold execRunStart
    rw [if_neg (not_not.2 hl)]
    dsimp only
    rw [hw]
    dsimp only
    rw [hg]
  case refine_2 => -- the delivery of traps
    intro wk s hm hs
    show execTrapDeliver wk s = _
    simp [execTrapDeliver, hm, hs]
  case refine_3 => -- a stop
    intro wk s hm
    exact if_pos hm
  case refine_4 => -- the end of SLEEP
    intro wk t d s hh hd
    show execSleepExpiry wk t s = _
    unfold execSleepExpiry
    rw [hh]
    exact if_neg (Nat.not_lt.2 hd)
  case refine_5 => -- the end of RCONV
    intro wk t k p d s hc hh hd hf
    have hg : ¬ ((!s.closing) = true ∨ s.clk < d ∨ (s.roundFull (bkOf wk) k = true ∧ (s.kreg (bkOf wk) k).last ≤ d)) := by
      rintro (h | h | ⟨h, hl⟩)
      · simp [hc] at h
      · omega
      · exact absurd (hf h) (Nat.not_lt.2 hl)
    show execRconvTimeout wk t s = _
    unfold execRconvTimeout
    rw [hh]
    exact if_neg hg
  case refine_6 => -- a release that takes effect
    intro wk t n sg a s hh hr
    show Host.Outcome.next (s.relTake wk t) = _
    unfold State.relTake
    rw [hh]
    exact congrArg Host.Outcome.next (if_pos hr)
  case refine_7 => -- the end of a revocation
    intro wk w s hp hw ht
    have hg : ¬ ((s.warp wk).revWait.any (fun c => (s.cmd c).isSome || (s.acc c).isSome) = true ∨
        (s.warp wk).revThr.any (fun p => (s.thread (p.1 / 32) (p.1 % 32)).hold.wins.contains p.2) = true) := by
      rintro (h | h)
      · obtain ⟨c, hc, h⟩ := List.any_eq_true.1 h
        obtain ⟨hcmd, hacc⟩ := hw c hc
        simp [hcmd, hacc] at h
      · obtain ⟨p, hp, h⟩ := List.any_eq_true.1 h
        exact ht p hp (List.contains_iff_mem.1 h)
    show Host.Outcome.next (s.revwDone wk) = _
    unfold State.revwDone
    rw [hp]
    exact congrArg Host.Outcome.next (if_neg hg)
  case refine_8 => -- a row that the stack window moves
    intro wk e s u hn hs hm
    show Host.Outcome.next (s.spillFill wk) = _
    simp [State.spillFill, hn, hs, hm]
  case refine_9 => -- the close of a joint round
    intro bk k i s hf hl hi
    show execJointRoundClose bk k s = _
    simp [execJointRoundClose, State.roundDue, hf, hl, hi]
  case refine_10 => -- a deferred addition
    intro wk x l s ha hn hc hf
    show execCntaddAftApply wk s = _
    unfold execCntaddAftApply
    dsimp only
    rw [ha]
    simp [hc, hf, Nat.not_lt.2 hn]

/-! ### Notices on their way (R188, R303) -/

/-- An agent whose notice may come next has one in flight to the core. -/
theorem kickSenders_find {s : State} {core k : Nat} (h : k ∈ s.kickSenders core) :
    ∃ n, (s.core core).kickNet.find? (fun n => n.src == k) = some n := by
  unfold State.kickSenders at h
  obtain ⟨n, hn, rfl⟩ := List.mem_map.1 (List.mem_filter.1 h).1
  exact Option.isSome_iff_exists.1 (List.find?_isSome.2 ⟨n, (List.mem_filter.1 hn).1, beq_self_eq_true _⟩)

/-- A choice by a free value among the elements of a list is one of them. -/
theorem getD_mod_mem (a : Nat) (l : List Nat) (n : Nat) : (a :: l).getD (n % (l.length + 1)) a ∈ a :: l := by
  have h : n % (l.length + 1) < (a :: l).length := Nat.mod_lt _ (Nat.succ_pos _)
  rw [List.getD_eq_getElem _ _ h]
  exact List.getElem_mem h

/-- Settles O39. Guards are the premises of a clause; of several senders' notices the free value chooses one that is in flight. -/
theorem engineSteps : Obligations.EngineSteps := by
  refine ⟨?_, ?_, ?_, ?_, ?_, ?_, fun _ _ _ => rfl, fun _ _ => rfl, ?_, ?_, ?_⟩
  case refine_1 => -- discard by a false guard
    intro cid c s hc hh hg
    show Host.Outcome.next (s.discard cid) = _
    unfold State.discard
    rw [hc]
    simp [hh, hg]
  case refine_2 => -- acceptance
    intro cid c s hc hm ho hfirst
    have hn : s.cmdList.any (fun p => p.1 < cid && coreOf p.2.wk == coreOf c.wk && s.mayCopy p.1 p.2) = false := by
      rw [List.any_eq_false]
      rintro p hp h
      simp only [Bool.and_eq_true, decide_eq_true_eq, beq_iff_eq] at h
      obtain ⟨⟨hlt, hcore⟩, hmay⟩ := h
      rw [hfirst p hp hlt hcore] at hmay
      cases hmay
    have hg : ¬ ((!s.mayCopy cid c || decide (8192 ≤ s.outstanding (coreOf c.wk)) ||
        s.cmdList.any (fun p => p.1 < cid && coreOf p.2.wk == coreOf c.wk && s.mayCopy p.1 p.2)) = true) := by
      rw [hm, hn, decide_eq_false (Nat.not_le.2 ho)]
      exact Bool.false_ne_true
    show Host.Outcome.next (s.acceptCopy cid) = _
    unfold State.acceptCopy
    rw [hc]
    exact congrArg Host.Outcome.next (if_neg hg)
  case refine_3 => -- a memory access
    intro cid ecc c s hc hst hon hq
    show execEngineMemResponse cid ecc s = _
    unfold execEngineMemResponse
    rw [hc]
    have hg : ¬ (c.st ≠ .running ∨ (!s.onCore c) = true ∨ (c.qtag.isSome = true ∧ s.replaying (dieOf (coreOf c.wk)) = true)) := by
      rintro (h | h | ⟨h, hr⟩)
      · exact h hst
      · simp [hon] at h
      · simp [hq h] at hr
    exact if_neg hg
  case refine_4 => -- a landing of a running command
    intro cid c s hc hst hon
    show execEngineLanding cid s = _
    unfold execEngineLanding
    rw [hc]
    cases ha : c.array with
    | true => simp [hon, ha, hst]
    | false => simp [hon, ha, hst]
  case refine_5 => -- a landing of an array command that is stopped
    intro cid c s hc hst ha hon
    show execEngineLanding cid s = _
    unfold execEngineLanding
    rw [hc]
    simp [hon, ha, hst]
  case refine_6 => -- retirement
    intro cid c s hc ha hst hon
    show execCopyCmdRetire cid s = _
    unfold execCopyCmdRetire
    rw [hc]
    simp [ha, hst, hon, State.endCmd, hc]
  case refine_7 => -- the notice of the one sender
    intro core c0 n s hk hn
    show execKickNoticeArrive core s = _
    unfold execKickNoticeArrive
    rw [hk]
    simp [hn]
  case refine_8 => -- the notice of one of several senders
    intro core s h2
    obtain ⟨c0, c1, cs, hk⟩ : ∃ c0 c1 cs, s.kickSenders core = c0 :: c1 :: cs := by
      match e : s.kickSenders core with
      | [] => simp [e] at h2
      | [c0] => simp [e] at h2
      | c0 :: c1 :: cs => exact ⟨c0, c1, cs, rfl⟩
    have hmem : (c0 :: c1 :: cs).getD (s.free.1.toNat % ((c1 :: cs).length + 1)) c0 ∈ s.kickSenders core := hk ▸ getD_mod_mem ..
    obtain ⟨n, hn⟩ := kickSenders_find hmem
    refine ⟨_, hmem, n, hn, ?_⟩
    show execKickNoticeArrive core s = _
    unfold execKickNoticeArrive
    rw [hk]
    dsimp only
    rw [if_neg (List.cons_ne_nil c1 cs)]
    have hn2 : (s.free.2.core core).kickNet.find? (fun n => n.src == (c0 :: c1 :: cs).getD (s.free.1.toNat % ((c1 :: cs).length + 1)) c0) = some n := hn
    rw [hn2]
    rfl
  case refine_9 => -- an acknowledgement
    intro wk a s ha hp
    show execAckArrive wk s = _
    unfold execAckArrive
    rw [ha]
    simp [hp]

end Sys2Proof.Machine
end

section
/-! SUPPORT. What the end of a block leaves alone (R205): its tiles and slots, and the lists of other blocks. -/

namespace Sys2Proof.Machine

namespace State

theorem block_congr {s u : State} (h : u.blocks = s.blocks) (bk : Nat) : u.block bk = s.block bk := by
  unfold State.block
  rw [h]

theorem core_congr {s u : State} (h : u.cores = s.cores) (c : Nat) : u.core c = s.core c := by
  unfold State.core
  rw [h]

@[simp] theorem tdSync_blocks (s : State) (c : Nat) : (s.tdSync c).blocks = s.blocks := by
  simp only [State.tdSync, State.tdSyncTo, apply_ite State.blocks, setCore_blocks, ite_self]

/-- A group barrier's phase that completes releases threads (R195): it keeps all that a release keeps. -/
theorem gbarCheck_keeps {β : Type} (p : State → β) (hp : ∀ (s : State) (wk t : Nat), p (s.release wk t) = p s) (s : State) (lid g : Nat) :
    p (s.gbarCheck lid g) = p s := by
  unfold State.gbarCheck
  dsimp only
  split
  · refine foldS_keeps p (fun s b _ => ?_) s
    split
    · exact foldS_keeps p (fun s q _ => hp s q.1 q.2) s
    · rfl
  · rfl

/-- The group barriers of a launch, checked in turn, keep all that a release keeps. -/
theorem foldS_gbarCheck_keeps {β : Type} (p : State → β) (hp : ∀ (s : State) (wk t : Nat), p (s.release wk t) = p s) (l : List Nat) (s : State)
    (lid : Nat) : p (foldS l s (fun s g => s.gbarCheck lid g)) = p s :=
  foldS_keeps p (fun s g _ => gbarCheck_keeps p hp s lid g) s

end State

/-- Settles O41. Retirement is the one clause that looks into the state its step leaves: the group barriers that it may complete release
threads alone. -/
theorem dispatchSteps : Obligations.DispatchSteps := by
  refine ⟨?_, ?_, ?_, ?_, ?_, ?_⟩
  case refine_1 => -- a doorbell
    intro q tail s Q h
    exact congrArg Host.Outcome.next (if_neg (Nat.not_lt.2 h))
  case refine_2 => -- a command taken
    intro q s hq Q n hr s1 u
    have hg : ¬ (((s.headCmd Q).kind = 1 && !s.launchReach Q.asid (s.headCmd Q).recva) = true) := by
      intro h
      obtain ⟨hk, hl⟩ := Bool.and_eq_true_iff.1 h
      simp [hr (of_decide_eq_true hk)] at hl
    show execDispatchTakeCommand s = _
    unfold execDispatchTakeCommand
    rw [hq]
    exact if_neg hg
  case refine_3 => -- assignment
    intro lid b tag s L hp hb ht
    show execBlockAssign lid s = _
    unfold execBlockAssign
    dsimp only
    rw [hb]
    dsimp only
    rw [ht]
    simp [hp, L]
  case refine_4 => -- rotation
    intro core head l s hw hd
    show execQuantumExpiry core s = _
    unfold execQuantumExpiry
    rw [hw]
    refine if_neg ?_
    rintro ⟨hlt, hleave⟩
    rcases hd with hd | hd
    · exact absurd hlt (Nat.not_lt.2 hd)
    · simp [hd] at hleave
  case refine_5 => -- retirement
    intro core btag s hm b
    rw [show exec (.blockRetire core btag) s = execBlockRetire core btag s from rfl]
    simp only [execBlockRetire, hm, Bool.not_true, Bool.false_eq_true, if_false]
    refine ⟨_, rfl, ?_, ?_⟩
    · rw [State.block_congr (State.foldS_gbarCheck_keeps State.blocks (fun _ _ _ => rfl) _ _ _)]
      simp [b, State.block_congr (State.tdSync_blocks s core)]
    · rw [State.core_congr (State.foldS_gbarCheck_keeps State.cores (fun _ _ _ => rfl) _ _ _)]
      simp
  case refine_6 => -- completion
    intro lid s L hp hr ha hreach
    have hacc : s.accList.any (fun p => p.2.lid == lid && !isSys p.2.wk) = false := by
      rw [List.any_eq_false]
      rintro p hp h
      simp only [Bool.and_eq_true, beq_iff_eq, Bool.not_eq_true'] at h
      rw [ha p hp h.1] at h
      exact Bool.noConfusion h.2
    show execLaunchComplete lid s = _
    unfold execLaunchComplete
    refine if_neg ?_
    rintro (h | h | h | h)
    · simp [L, hp] at h
    · exact h hr
    · simp [hacc] at h
    · simp [L, hreach] at h

end Sys2Proof.Machine
end

section
/-! SUPPORT. Predicate bits and the relation mask (R54, R128, R129): what a predicate reads after one of its bits is written. -/

namespace Sys2Proof.Machine

theorem setBit_getLsbD {t u : Nat} (w : Word) (x : Bool) (ht : t < 32) (hu : u < 32) :
    (setBit w t x).getLsbD u = if t = u then x else w.getLsbD u := by
  cases x with
  | true =>
    rw [setBit, if_pos rfl, BitVec.getLsbD_or, bit1_getLsbD ht hu]
    by_cases h : t = u
    · simp [h]
    · simp [h]
  | false =>
    rw [setBit, if_neg Bool.false_ne_true, BitVec.getLsbD_and, BitVec.getLsbD_not, bit1_getLsbD ht hu]
    by_cases h : t = u
    · simp [h]
    · simp [h, hu]

theorem setPred_preds (s : State) (wk t p wk2 p2 : Nat) (x : Bool) :
    Fmap.get 0 ((s.setPred wk t p x).warp wk2).preds p2 =
      if wk = wk2 ∧ p = p2 then setBit (Fmap.get 0 (s.warp wk2).preds p2) t x else Fmap.get 0 (s.warp wk2).preds p2 := by
  simp only [State.setPred, State.modWarp_eq, State.setWarp_warp]
  by_cases hw : wk = wk2
  · subst hw
    by_cases hp : p = p2
    · subst hp
      simp
    · simp [hp, Fmap.get_set_ne]
  · simp [hw]

/-- R54: a predicate bit is one bit of one predicate of one warp. -/
theorem predBit_setPred (s : State) {wk t p wk2 t2 p2 : Nat} (x : Bool) (ht : t < 32) (ht2 : t2 < 32) :
    (s.setPred wk t p x).predBit wk2 t2 p2 = if wk = wk2 ∧ t = t2 ∧ p = p2 then x else s.predBit wk2 t2 p2 := by
  unfold State.predBit
  rw [setPred_preds]
  by_cases hc : wk = wk2 ∧ p = p2
  · rw [if_pos hc, setBit_getLsbD _ _ ht ht2]
    simp [hc.1, hc.2]
  · rw [if_neg hc, if_neg (fun ⟨hw, _, hp⟩ => hc ⟨hw, hp⟩)]

/-- R128: exactly one of less, equal and greater holds, and the mask has a bit for each. -/
theorem relHolds_eq (ty : Ty) (rel : BitVec 4) (a b : DWord) : relHolds ty rel a b =
    ((rel.getLsbD 0 && tyInt ty a < tyInt ty b) || (rel.getLsbD 1 && tyInt ty a = tyInt ty b) || (rel.getLsbD 2 && tyInt ty b < tyInt ty a)) := by
  unfold relHolds
  rcases lt_trichotomy (tyInt ty a) (tyInt ty b) with h | h | h
  · simp [h, h.ne, h.not_gt]
  · simp [h]
  · simp [h, h.ne', h.not_gt]

/-- Settles O12, by what one bit reads after a write of any bit. -/
theorem predicateBits : Obligations.PredicateBits := by
  refine ⟨?_, ?_, relHolds_eq⟩
  · intro s wk t p x ht
    rw [predBit_setPred s x ht ht, if_pos ⟨rfl, rfl, rfl⟩]
  · intro s wk t p wk2 t2 p2 x ht ht2 hne
    rw [predBit_setPred s x ht ht2, if_neg (fun ⟨hw, h1, hp⟩ => hne (by rw [hw, h1, hp]))]

end Sys2Proof.Machine
end

section
/-! SUPPORT. Windows and F bits (R62 to R66, R136 to R139): what a revocation with nothing to wait for comes to, and SETF and CLRF of a
granule in which nothing is due. -/

namespace Sys2Proof.Machine

/-- A revocation that no other of the warp is under way to hold up, and through whose window nothing works, comes about at once (R66). -/
theorem revTry_now {s : State} {wk w : Nat} (hp : (s.warp wk).revPend = none) (hu : s.winUsers wk w = []) (ht : s.winThreads wk w = []) :
    s.revTry wk w = .ok (s.revoke wk w) := by
  simp [State.revTry, hp, hu, ht]

/-- SETF and CLRF of the granule of `l` do not wait where every result due in it is available. -/
theorem setfBody_settled {x : Bool} {c : TC} {s : State} {l : Loc} {ls : List Loc} (hd : c.d = l :: ls)
    (hs : l.wk = c.wk → ∀ k < 4, s.settled (l.inGranule k) = true) :
    setfBody x c s = if (x && s.wasEmptied true l) = true then .done (s.clearPois l)
      else .done (((if x then s else s.noteEmptied false l).clearPois l).setFull x l) := by
  unfold setfBody
  rw [hd]
  refine if_neg ?_
  rintro ⟨hwk, hany⟩
  obtain ⟨g, hg, hn⟩ := List.any_eq_true.1 hany
  obtain ⟨k, hk, rfl⟩ := List.mem_map.1 hg
  have hset := hs hwk k (List.mem_range.1 hk)
  cases l with
  | v wk t i =>
    rw [Loc.inGranule, Nat.mul_comm] at hset
    simp [hset] at hn
  | s wk i =>
    rw [Loc.inGranule, Nat.mul_comm] at hset
    simp [hset] at hn

/-- Settles O21: under its premise each instruction takes the one branch of its body that neither traps nor waits. -/
theorem windows : Obligations.Windows := by
  refine ⟨?_, ?_, ?_, ?_, ?_⟩
  case refine_1 => -- EXPW
    intro h sc grp d a b
    refine laneOnce_completes .int .int _ _ _ (fun _ => rfl) ?_
    intro c s ⟨hbase, hlen, hmin, hroom, hfree, hexp⟩
    have hshape : ¬ (vIdx a % 4 ≠ 0 ∨ expLen b % 4 ≠ 0 ∨ expLen b < 4 ∨ (s.warp c.wk).alloc.nv < expLen b ∨
        (s.warp c.wk).alloc.nv < vIdx a + expLen b) := by omega
    have hfree : (s.exporters sc c).any (fun p => (locsV p.1 p.2 (vIdx a) (expLen b)).any (fun l => !s.settled l || s.inRange true l)) = false := by
      refine List.any_eq_false.2 (fun p hp => ?_)
      rw [Bool.not_eq_true]
      refine List.any_eq_false.2 (fun l hl => ?_)
      simpa using List.all_eq_true.1 (List.all_eq_true.1 hfree p hp) l hl
    simp [hshape, hfree, hexp]
  case refine_2 => -- REVW
    intro h d
    refine laneOnce_completes .int .int _ _ _ (fun _ => rfl) ?_
    intro c s hP
    cases hv : hValid (Fmap.get 0 (s.warp c.wk).w (slotOf d)) with
    | false => simp only [hv, Bool.not_false, if_true]
    | true =>
      cases he : s.isExport c.wk (slotOf d) with
      | false => simp only [hv, he, Bool.not_true, Bool.false_eq_true, Bool.true_eq_false, if_false]
      | true =>
        obtain ⟨hpend, hu, ht⟩ := hP he
        simp only [hv, he, revTry_now hpend hu ht, Bool.not_true, Bool.false_eq_true, Bool.true_eq_false, if_false, if_true]
  case refine_3 => -- BINDW
    intro h d a
    refine laneOnce_completes .int .int _ _ _ (fun _ => rfl) ?_
    intro c s ⟨hok, he⟩
    simp [hok, he]
  case refine_4 => -- SETF
    intro h d
    refine laneEach_completes true false .int .int _ _ _ (fun _ => rfl) ?_
    intro c s hP
    cases hd : c.d with
    | nil => simp [setfBody, hd]
    | cons l ls =>
      rw [setfBody_settled hd (hP l (by simp [hd]))]
      cases he : s.wasEmptied true l <;> simp [he]
  case refine_5 => -- CLRF
    intro h d
    refine laneEach_completes true false .int .int _ _ _ (fun _ => rfl) ?_
    intro c s hP
    cases hd : c.d with
    | nil => simp [setfBody, hd]
    | cons l ls =>
      rw [setfBody_settled hd (hP l (by simp [hd]))]
      simp

end Sys2Proof.Machine
end

section
/-! SUPPORT. The per-thread stack (R75, R76): what an entry reads after a push of another or of itself, and what a push or a pop comes to
where its rows are in the window. -/

namespace Sys2Proof.Machine

namespace State

/-! ### Comparators leave warps and threads alone -/

theorem warp_congr {s u : State} (h : u.warps = s.warps) (wk : Nat) : u.warp wk = s.warp wk := by
  unfold State.warp
  rw [h]

@[simp] theorem watchCells_warps (s : State) (wk : Nat) (rd wr : List Cell) : (s.watchCells wk rd wr).warps = s.warps := by
  simp only [State.watchCells, State.noteHits, apply_ite State.warps, modDie_eq, setDie_warps, ite_self]

@[simp] theorem watchCells_threads (s : State) (wk : Nat) (rd wr : List Cell) : (s.watchCells wk rd wr).threads = s.threads := by
  simp only [State.watchCells, apply_ite State.threads, noteHits_threads, ite_self]

@[simp] theorem watchCells_warp (s : State) (wk : Nat) (rd wr : List Cell) (k : Nat) : (s.watchCells wk rd wr).warp k = s.warp k :=
  warp_congr (watchCells_warps s wk rd wr) k

@[simp] theorem watchCells_thread (s : State) (wk : Nat) (rd wr : List Cell) (k t : Nat) : (s.watchCells wk rd wr).thread k t = s.thread k t :=
  thread_congr (watchCells_threads s wk rd wr) k t

/-! ### One entry -/

/-- Rows of a window lie at different places in it. -/
theorem window_mod_inj {lo n e f : Nat} (he : lo ≤ e ∧ e < lo + n) (hf : lo ≤ f ∧ f < lo + n) (h : e % n = f % n) : e = f :=
  Nat.mod_injOn_Ico lo n (by simpa using he) (by simpa using hf) h

theorem stkHas_iff (s : State) (wk e : Nat) : s.stkHas wk e = true ↔ (s.warp wk).stkLo ≤ e ∧ e < (s.warp wk).stkLo + (s.warp wk).alloc.win := by
  simp [State.stkHas]

@[simp] theorem stkPut_alloc (s : State) (wk t e : Nat) (x : Word) : ((s.stkPut wk t e x).warp wk).alloc = (s.warp wk).alloc := by
  simp only [State.stkPut, modWarp_eq, setWarp_warp_self, apply_ite Warp.alloc, ite_self]

@[simp] theorem stkPut_stkHas (s : State) (wk t e : Nat) (x : Word) (f : Nat) : (s.stkPut wk t e x).stkHas wk f = s.stkHas wk f := by
  have hlo : ((s.stkPut wk t e x).warp wk).stkLo = (s.warp wk).stkLo := by
    simp only [State.stkPut, modWarp_eq, setWarp_warp_self, apply_ite Warp.stkLo, ite_self]
  simp only [State.stkHas, hlo, stkPut_alloc]

@[simp] theorem stkPut_thread (s : State) (wk t e : Nat) (x : Word) (k u : Nat) : (s.stkPut wk t e x).thread k u = s.thread k u := rfl

/-- The entry that was written. -/
theorem stkGet_stkPut_self (s : State) (wk t e : Nat) (x : Word) : (s.stkPut wk t e x).stkGet wk t e = x := by
  unfold State.stkGet
  rw [stkPut_alloc]
  simp only [State.stkPut, modWarp_eq, setWarp_warp_self]
  split
  · exact Fmap.get_set_self ..
  · exact Fmap.get_set_self ..

/-- An entry at another place of the window keeps its value where its granule is not poisoned. -/
theorem stkGet_stkPut_ne {s : State} {wk t e u f : Nat} (x : Word)
    (hne : 32 * (e % (s.warp wk).alloc.win) + t ≠ 32 * (f % (s.warp wk).alloc.win) + u) (hb : s.stkBad wk u f = false) :
    (s.stkPut wk t e x).stkGet wk u f = s.stkGet wk u f := by
  unfold State.stkGet
  rw [stkPut_alloc]
  simp only [State.stkPut, modWarp_eq, setWarp_warp_self]
  split
  · next hp =>
    refine (Fmap.get_set_ne _ _ _ hne).trans (get_zeroGran _ _ _ (fun hg => ?_))
    unfold granOf at hg
    rw [hg] at hp
    exact Bool.noConfusion (hp.symm.trans hb)
  · exact Fmap.get_set_ne _ _ _ hne

/-- A write of an entry frees its granule of poison. -/
theorem stkBad_stkPut_self (s : State) (wk t e : Nat) (x : Word) : (s.stkPut wk t e x).stkBad wk t e = false := by
  unfold State.stkBad
  rw [stkPut_alloc]
  simp only [State.stkPut, modWarp_eq, setWarp_warp_self]
  split
  · dsimp only
    exact Fmap.get_set_self ..
  · next hp => exact Bool.eq_false_iff.2 hp

/-- And it poisons none. -/
theorem stkBad_stkPut {s : State} {wk u f : Nat} (t e : Nat) (x : Word) (hb : s.stkBad wk u f = false) :
    (s.stkPut wk t e x).stkBad wk u f = false := by
  unfold State.stkBad at hb ⊢
  rw [stkPut_alloc]
  simp only [State.stkPut, modWarp_eq, setWarp_warp_self]
  split
  · rw [Fmap.get_set]
    split
    · rfl
    · exact hb
  · exact hb

/-! ### A push whose rows are in the window -/

/-- One word moved into its row, and counted in `sbuf`. -/
def pushOne (s : State) (wk t e : Nat) (x : Word) : State := (s.stkPut wk t e x).modThread wk t (fun r => { r with sbuf := r.sbuf ++ [x] })

/-- The words moved, from entry `e` upward. -/
def pushRows (s : State) (wk t e : Nat) : List Word → State
  | [] => s
  | x :: xs => (s.pushOne wk t e x).pushRows wk t (e + 1) xs

@[simp] theorem pushOne_stkHas (s : State) (wk t e : Nat) (x : Word) (f : Nat) : (s.pushOne wk t e x).stkHas wk f = s.stkHas wk f :=
  stkPut_stkHas s wk t e x f

@[simp] theorem pushOne_stkBad (s : State) (wk t e : Nat) (x : Word) (u f : Nat) :
    (s.pushOne wk t e x).stkBad wk u f = (s.stkPut wk t e x).stkBad wk u f := rfl

@[simp] theorem pushOne_thread (s : State) (wk t e : Nat) (x : Word) :
    (s.pushOne wk t e x).thread wk t = { s.thread wk t with sbuf := (s.thread wk t).sbuf ++ [x] } := by
  simp [pushOne]

/-- The model's push is those moves where every row is in the window. -/
theorem pushGo_rows {wk t : Nat} {xs : List Word} {s : State} {e : Nat} (h : ∀ k < xs.length, s.stkHas wk (e + k) = true) :
    s.pushGo wk t e xs = .all (s.pushRows wk t e xs) := by
  induction xs generalizing s e with
  | nil => rfl
  | cons x xs ih =>
    have h0 : s.stkHas wk e = true := h 0 (Nat.succ_pos _)
    have step : s.pushGo wk t e (x :: xs) = (s.pushOne wk t e x).pushGo wk t (e + 1) xs := if_pos h0
    rw [step, ih (fun k hk => ?_)]
    · rfl
    · rw [pushOne_stkHas, Nat.add_right_comm e 1 k]
      exact h (k + 1) (Nat.succ_lt_succ hk)

theorem pushRows_thread (wk t : Nat) (xs : List Word) (s : State) (e : Nat) :
    (s.pushRows wk t e xs).thread wk t = { s.thread wk t with sbuf := (s.thread wk t).sbuf ++ xs } := by
  induction xs generalizing s e with
  | nil => simp [pushRows]
  | cons x xs ih => simp [pushRows, ih]

/-- An entry of the window that is none of those pushed keeps its value where its granule is not poisoned. -/
theorem stkGet_pushRows_ne {wk t u f : Nat} {xs : List Word} {s : State} {e : Nat} (ht : t < 32) (hu : u < 32) (hf : s.stkHas wk f = true)
    (hb : s.stkBad wk u f = false) (h : ∀ k < xs.length, s.stkHas wk (e + k) = true) (hne : u ≠ t ∨ f < e) :
    (s.pushRows wk t e xs).stkGet wk u f = s.stkGet wk u f := by
  induction xs generalizing s e with
  | nil => rfl
  | cons x xs ih =>
    have hcell : 32 * (e % (s.warp wk).alloc.win) + t ≠ 32 * (f % (s.warp wk).alloc.win) + u := by
      intro hc
      have hrow : e = f := window_mod_inj ((stkHas_iff s wk e).1 (h 0 (Nat.succ_pos _))) ((stkHas_iff s wk f).1 hf) (by omega)
      omega
    have hrest := ih (s := s.pushOne wk t e x) (e := e + 1) (by simpa using hf) (by simpa using stkBad_stkPut t e x hb)
      (fun k hk => by rw [pushOne_stkHas, Nat.add_right_comm e 1 k]; exact h (k + 1) (Nat.succ_lt_succ hk)) (by omega)
    calc ((s.pushOne wk t e x).pushRows wk t (e + 1) xs).stkGet wk u f
        = (s.pushOne wk t e x).stkGet wk u f := hrest
      _ = s.stkGet wk u f := stkGet_stkPut_ne x hcell hb

/-- The words pushed stand in their entries, the first lowest. -/
theorem stkGet_pushRows {wk t : Nat} {xs : List Word} {s : State} {e k : Nat} (ht : t < 32)
    (h : ∀ k < xs.length, s.stkHas wk (e + k) = true) (hk : k < xs.length) :
    (s.pushRows wk t e xs).stkGet wk t (e + k) = xs.getD k 0 := by
  induction xs generalizing s e k with
  | nil => cases hk
  | cons x xs ih =>
    have hrows : ∀ k < xs.length, (s.pushOne wk t e x).stkHas wk (e + 1 + k) = true := fun k hk => by
      rw [pushOne_stkHas, Nat.add_right_comm e 1 k]
      exact h (k + 1) (Nat.succ_lt_succ hk)
    cases k with
    | zero =>
      have h0 : (s.pushOne wk t e x).stkHas wk e = true := by simpa using h 0 (Nat.succ_pos _)
      exact (stkGet_pushRows_ne ht ht h0 (stkBad_stkPut_self s wk t e x) hrows (.inr (Nat.lt_succ_self e))).trans (stkGet_stkPut_self s wk t e x)
    | succ k =>
      rw [← Nat.add_assoc, Nat.add_right_comm e k 1]
      exact ih hrows (Nat.lt_of_succ_lt_succ hk)

/-- The state after a push that fits: the words moved, the depth counted, the comparators told. -/
theorem stackPush_fits {s : State} {c : TC} {xs : List Word} (h : s.PushFits c xs.length) :
    ∃ wr, s.stackPush c xs = .ok (((s.pushRows c.wk c.t (s.thread c.wk c.t).sdepth xs).modThread c.wk c.t
      (fun r => { r with sdepth := r.sdepth + xs.length, sbuf := [] })).watchCells c.wk [] wr) xs := by
  obtain ⟨hbuf, hlim, hrows⟩ := h
  refine ⟨(List.range xs.length).map (fun k => .stack c.wk (32 * (((s.thread c.wk c.t).sdepth + k) %
    ((s.pushRows c.wk c.t (s.thread c.wk c.t).sdepth xs).warp c.wk).alloc.win) + c.t)), ?_⟩
  unfold State.stackPush
  simp only [hbuf, List.length_nil, Nat.add_zero, List.drop_zero, if_neg (Nat.not_lt.2 hlim), pushGo_rows hrows, State.stkWait,
    pushRows_thread, List.nil_append]

theorem stackPush_pushed {s : State} {c : TC} {xs : List Word} (h : s.PushFits c xs.length) : s.stackPush c xs = .ok (s.pushed c xs) xs := by
  obtain ⟨wr, hp⟩ := stackPush_fits h
  rw [State.pushed, hp]

/-- What a push leaves is what the moves of its words leave, but for the thread's depth. -/
theorem pushed_rows {s : State} {c : TC} {xs : List Word} (h : s.PushFits c xs.length) :
    ((s.pushed c xs).thread c.wk c.t).sdepth = (s.thread c.wk c.t).sdepth + xs.length ∧
    (s.pushed c xs).warp c.wk = (s.pushRows c.wk c.t (s.thread c.wk c.t).sdepth xs).warp c.wk := by
  obtain ⟨wr, hp⟩ := stackPush_fits h
  rw [State.pushed, hp]
  simp [pushRows_thread]

theorem stkGet_congr {s u : State} {wk : Nat} (h : u.warp wk = s.warp wk) (t e : Nat) : u.stkGet wk t e = s.stkGet wk t e := by
  unfold State.stkGet
  rw [h]

/-! ### A pop whose rows are in the window -/

/-- One word below entry `e` gathered in `sbuf`. -/
def popOne (s : State) (wk t e : Nat) : State := s.modThread wk t (fun r => { r with sbuf := r.sbuf ++ [s.stkGet wk t (e - 1)] })

/-- The n words below entry `e` gathered, the top one first. -/
def popRows (s : State) (wk t e : Nat) : Nat → State
  | 0 => s
  | n + 1 => (s.popOne wk t e).popRows wk t (e - 1) n

/-- The top n words below entry `e`, the top one first. -/
def topWords (s : State) (wk t e n : Nat) : List Word := (List.range n).map (fun k => s.stkGet wk t (e - 1 - k))

theorem topWords_succ (s : State) (wk t e n : Nat) : s.topWords wk t e (n + 1) = s.stkGet wk t (e - 1) :: s.topWords wk t (e - 1) n := by
  unfold topWords
  rw [List.range_succ_eq_map, List.map_cons, List.map_map]
  refine congrArg _ (List.map_congr_left (fun k _ => ?_))
  simp only [Function.comp, Nat.succ_eq_add_one, show e - 1 - (k + 1) = e - 1 - 1 - k by omega]

theorem popRows_warps (wk t n : Nat) (s : State) (e : Nat) : (s.popRows wk t e n).warps = s.warps := by
  induction n generalizing s e with
  | zero => rfl
  | succ n ih => exact ih (s.popOne wk t e) (e - 1)

theorem popRows_thread (wk t n : Nat) (s : State) (e : Nat) :
    (s.popRows wk t e n).thread wk t = { s.thread wk t with sbuf := (s.thread wk t).sbuf ++ s.topWords wk t e n } := by
  induction n generalizing s e with
  | zero => simp [popRows, topWords]
  | succ n ih =>
    have htop : (s.popOne wk t e).topWords wk t (e - 1) n = s.topWords wk t (e - 1) n := rfl
    rw [popRows, ih, htop, topWords_succ]
    simp [popOne]

/-- The model's pop gathers those words where every row is in the window, and its granule full and free of poison. -/
theorem popGo_rows {wk t n : Nat} {s : State} {e : Nat}
    (h : ∀ k < n, s.stkHas wk (e - 1 - k) = true ∧ s.stkFull wk t (e - 1 - k) = true ∧ s.stkBad wk t (e - 1 - k) = false) :
    s.popGo wk t e n = .all (s.popRows wk t e n) := by
  induction n generalizing s e with
  | zero => rfl
  | succ n ih =>
    obtain ⟨hhas, hfull, hbad⟩ := h 0 (Nat.succ_pos n)
    have step : s.popGo wk t e (n + 1) = (s.popOne wk t e).popGo wk t (e - 1) n := by
      rw [Nat.sub_zero] at hhas hfull hbad
      simp only [State.popGo, hhas, hfull, hbad, Bool.not_true, Bool.false_eq_true, if_false, popOne]
    have hrest : ∀ k < n, (s.popOne wk t e).stkHas wk (e - 1 - 1 - k) = true ∧ (s.popOne wk t e).stkFull wk t (e - 1 - 1 - k) = true ∧
        (s.popOne wk t e).stkBad wk t (e - 1 - 1 - k) = false := fun k hk => by
      rw [show e - 1 - 1 - k = e - 1 - (k + 1) by omega]
      exact h (k + 1) (Nat.succ_lt_succ hk)
    rw [step, ih hrest]
    rfl

/-- The state after a pop that fits, and its words. -/
theorem stackPop_fits {s : State} {c : TC} {n : Nat} (h : s.PopFits c n) :
    ∃ rd, s.stackPop c n = .ok (((s.popRows c.wk c.t (s.thread c.wk c.t).sdepth n).modThread c.wk c.t
      (fun r => { r with sdepth := r.sdepth - n, sbuf := [] })).watchCells c.wk rd []) (s.topWords c.wk c.t (s.thread c.wk c.t).sdepth n) := by
  obtain ⟨hbuf, hdepth, hrows⟩ := h
  refine ⟨(List.range n).map (fun k => .stack c.wk (32 * (((s.thread c.wk c.t).sdepth - 1 - k) %
    ((s.popRows c.wk c.t (s.thread c.wk c.t).sdepth n).warp c.wk).alloc.win) + c.t)), ?_⟩
  unfold State.stackPop
  simp only [hbuf, List.length_nil, Nat.sub_zero, if_neg (Nat.not_lt.2 hdepth), popGo_rows hrows, State.stkWait, popRows_thread, List.nil_append]

theorem stackPop_popped {s : State} {c : TC} {n : Nat} (h : s.PopFits c n) : s.stackPop c n = .ok (s.popped c n).1 (s.popped c n).2 := by
  obtain ⟨rd, hp⟩ := stackPop_fits h
  rw [State.popped, hp]

theorem popped_words {s : State} {c : TC} {n : Nat} (h : s.PopFits c n) :
    (s.popped c n).2 = s.topWords c.wk c.t (s.thread c.wk c.t).sdepth n := by
  obtain ⟨rd, hp⟩ := stackPop_fits h
  rw [State.popped, hp]

theorem popped_state {s : State} {c : TC} {n : Nat} (h : s.PopFits c n) :
    ((s.popped c n).1.thread c.wk c.t).sdepth = (s.thread c.wk c.t).sdepth - n ∧ (s.popped c n).1.warps = s.warps := by
  obtain ⟨rd, hp⟩ := stackPop_fits h
  rw [State.popped, hp]
  simp [popRows_thread, popRows_warps]

end State

/-- Settles O23: a push and a pop that fit are word-by-word moves, and each move of a push leaves every other entry of the window alone. -/
theorem stackEntries : Obligations.StackEntries := by
  refine ⟨?_, ?_⟩
  · intro c s xs hfit ht
    obtain ⟨hdepth, hwarp⟩ := State.pushed_rows hfit
    obtain ⟨-, -, hrows⟩ := hfit
    refine ⟨hdepth, ?_, ?_⟩
    · intro k hk
      rw [State.stkGet_congr hwarp]
      exact State.stkGet_pushRows ht hrows hk
    · intro t e ht2 hhas hbad hne
      rw [State.stkGet_congr hwarp]
      exact State.stkGet_pushRows_ne ht ht2 hhas hbad hrows hne
  · intro c s n hfit _
    obtain ⟨hdepth, hwarps⟩ := State.popped_state hfit
    exact ⟨hdepth, State.popped_words hfit, hwarps⟩

end Sys2Proof.Machine
end

section
/-! SUPPORT. Frames, calls and returns (R140, R204): what the bodies of the stack instructions come to where their push or pop fits. -/

namespace Sys2Proof.Machine

variable {c : TC} {s : State}

theorem stkBody_push {xs : List Word} (h : s.PushFits c xs.length) (f : State → List Word → State) :
    stkBody c (s.stackPush c xs) f = .done (f (s.pushed c xs) xs) := by
  rw [State.stackPush_pushed h]
  rfl

theorem stkBody_pop {n : Nat} (h : s.PopFits c n) (f : State → List Word → State) :
    stkBody c (s.stackPop c n) f = .done (f (s.popped c n).1 (s.popped c n).2) := by
  rw [State.stackPop_popped h]
  rfl

theorem locsV_length (wk t i n : Nat) : (locsV wk t i n).length = n := by
  simp [locsV]

/-- CALL and CALLX push the return PC and write the target. -/
theorem callBody_done (target : TC → DWord) (h : s.PushFits c 2) :
    callBody target c s = .done ((s.pushed c (retWords c)).modThread c.wk c.t (fun x => { x with pc := target c })) :=
  stkBody_push (xs := retWords c) h _

/-- A pop of two words gives two. -/
theorem popped_two (h : s.PopFits c 2) : ∃ hi lo, (s.popped c 2).2 = [hi, lo] := ⟨_, _, State.popped_words h⟩

/-- Settles O22: each stack instruction is one push or one pop, with what it reads or writes besides ready. -/
theorem stackInstructions : Obligations.StackInstructions := by
  refine ⟨?_, ?_, ?_, ?_, ?_⟩
  case refine_1 => -- FRAME
    intro h d a
    refine laneEach_completes false false .int .int _ _ _ (fun _ => rfl) ?_
    intro c s ⟨hready, hfit⟩
    have hl : ∀ l ∈ locsV c.wk c.t (vIdx d) (immNat a), s.readable l = true ∧ s.pois l = false := fun l hl => by
      simpa using List.all_eq_true.1 hready l hl
    have hread : (locsV c.wk c.t (vIdx d) (immNat a)).any (fun l => !s.readable l) = false :=
      List.any_eq_false.2 (fun l h => by simp [(hl l h).1])
    have hpois : (locsV c.wk c.t (vIdx d) (immNat a)).find? (fun l => s.pois l) = none :=
      List.find?_eq_none.2 (fun l h => by simp [(hl l h).2])
    have hfit : s.PushFits c ((locsV c.wk c.t (vIdx d) (immNat a)).map s.readLoc).length := by
      rwa [List.length_map, locsV_length]
    simp only [hread, hpois, Bool.false_eq_true, if_false]
    exact stkBody_push hfit _
  case refine_2 => -- UNFRAME
    intro h d a
    refine laneEach_completes false false .int .int _ _ _ (fun _ => rfl) ?_
    intro c s ⟨hready, hfit⟩
    have hwrite : (locsV c.wk c.t (vIdx d) (immNat a)).any (fun l => !s.writable l) = false :=
      List.any_eq_false.2 (fun l h => by simp [List.all_eq_true.1 hready l h])
    simp only [hwrite, Bool.false_eq_true, if_false, locsV_length]
    exact stkBody_pop hfit _
  case refine_3 => -- CALL
    intro h off
    exact laneEach_completes false true .int .int _ _ _ (fun _ => rfl) (fun _ _ hfit => callBody_done _ hfit)
  case refine_4 => -- CALLX
    intro h a
    exact laneEach_completes false true .int .int _ _ _ (fun _ => rfl) (fun _ _ hfit => callBody_done _ hfit)
  case refine_5 => -- RET
    intro h
    refine laneEach_completes false true .int .int _ _ _ (fun _ => rfl) ?_
    intro c s hfit
    obtain ⟨hi, lo, hw⟩ := popped_two hfit
    refine (stkBody_pop hfit _).trans ?_
    rw [hw]
    rfl

end Sys2Proof.Machine
end

section
/-! SUPPORT. The issue of memory accesses (R14, R69, R162 to R173, R362): what the bodies of loads, stores and atomics come to where nothing
holds them. -/

namespace Sys2Proof.Machine

/-- The body of every access, where it may be issued. -/
theorem memBody_issued {d : Operand} {q : Req} {c : TC} {s : State} (h : s.MayIssue c d q) : memBody d q c s = .done (s.issued c d q) := by
  obtain ⟨hlog, hroom, hrange⟩ := h
  obtain ⟨s1, hs1⟩ := Option.isSome_iff_exists.1 hrange
  have hset : s.issued c d q = if q.rel then (s1.issue c q).holdRel c.wk c.who s1.nextId true (.fence true) else s1.issue c q := by
    simp [State.issued, hs1]
  rw [hset]
  unfold memBody
  rw [hlog]
  simp [hroom, hs1]

/-- An instruction that is an access per thread, or one for all of them in a uniform form, passes the lane as that access is issued. -/
theorem issues_of_exec {i : Instr} {ka kb : ImmK} {d : Operand} {q : TC → State → Req}
    (he : ∀ s, exec i s = laneEach i true false ka kb (fun c s => memBody d (q c s) c s) s) :
    Completes i true false ka kb (fun c s => s.MayIssue c d (q c s)) (fun c s => s.issued c d (q c s)) :=
  laneEach_completes true false ka kb _ _ _ he (fun _ _ h => memBody_issued h)

/-- A load into a queue with room reserves its entry and is issued (R168). -/
theorem queueLoad_done {size : Size} {n : Nat} {c : TC} {s : State} (hlen : s.queueLen (parent c.wk) n < 16) (hroom : s.reqRoom c.wk 2 = true)
    (hlog : s.logHold c (loadReq size false false (.queue (parent c.wk) n) c) = []) :
    queueLoad size n c s = .done (((s.runIid c.key).2.pushQ (parent c.wk) n ⟨false, 0, (s.runIid c.key).1⟩).issue
      { c with g := { c.g with d := none } } (loadReq size false false (.queue (parent c.wk) n) c)) := by
  unfold queueLoad
  dsimp only
  rw [hlog]
  simp [hroom, hlen]

theorem execLd_each {h : Hdr} {size : Size} {d a b : Operand} (hd : ∀ n, d ≠ .q n) (s : State) : exec (.ld h size d a b) s =
    laneEach (.ld h size d a b) true false .int .int (fun c s => memBody d (loadReq size false false (.regs c.d) c) c s) s := by
  show execLd h size d a b s = _
  unfold execLd
  split
  · next n => exact absurd rfl (hd n)
  · rfl

/-- Settles O25: every access but a load into a queue has the one body `memBody`. -/
theorem memoryIssue : Obligations.MemoryIssue := by
  refine ⟨?_, ?_, ?_, ?_, ?_, ?_, ?_, ?_⟩
  case refine_1 => -- LD
    intro h size d a b hd
    exact issues_of_exec (execLd_each hd)
  case refine_2 => -- LD into a queue
    intro h size n a b
    exact laneOnce_completes .int .int _ _ _ (fun _ => rfl) (fun _ _ ⟨hlen, hroom, hlog⟩ => queueLoad_done hlen hroom hlog)
  case refine_3 => -- ST
    intro h size d a b
    exact issues_of_exec (fun _ => rfl)
  case refine_4 => -- LDA
    intro h scope size d a b
    exact issues_of_exec (fun _ => rfl)
  case refine_5 => -- STL
    intro h scope size d a b
    exact issues_of_exec (fun _ => rfl)
  case refine_6 => -- ATOM
    intro h ord ty oper d a b
    exact issues_of_exec (fun _ => rfl)
  case refine_7 => -- RED
    intro h ord ty oper a b
    exact issues_of_exec (fun _ => rfl)
  case refine_8 => -- FENCE
    intro h scope kind
    exact laneEach_completes false false .int .int _ Always _ (fun _ => rfl) (fun _ _ _ => rfl)

end Sys2Proof.Machine
end

section
/-! SUPPORT. The instruction word (R77 to R92, R297): every constructor's round trip put together, and the words that the manual writes out
as the encodings of their instructions. -/

namespace Sys2Proof.Machine

open Sys2Proof.Laws

/-- Settles O52. Each instruction word and schedule word has its own round trip; a step of the device is neither. -/
theorem decodeEncode : Obligations.DecodeEncode := by
  intro i
  cases i with
  -- class 0x0, integer arithmetic (R120)
  | iadd => exact RoundTrip.iadd .. | isub => exact RoundTrip.isub .. | iadc => exact RoundTrip.iadc .. | imul => exact RoundTrip.imul ..
  | imulh => exact RoundTrip.imulh .. | imad => exact RoundTrip.imad .. | imadw => exact RoundTrip.imadw .. | idiv => exact RoundTrip.idiv ..
  | irem => exact RoundTrip.irem .. | imin => exact RoundTrip.imin .. | imax => exact RoundTrip.imax .. | iabs => exact RoundTrip.iabs ..
  | ineg => exact RoundTrip.ineg .. | lea => exact RoundTrip.lea .. | idot4 => exact RoundTrip.idot4 .. | isad => exact RoundTrip.isad ..
  -- class 0x1, logic, shift and bit (R124)
  | land => exact RoundTrip.land .. | lor => exact RoundTrip.lor .. | lxor => exact RoundTrip.lxor .. | andn => exact RoundTrip.andn ..
  | lnot => exact RoundTrip.lnot .. | lop3 => exact RoundTrip.lop3 .. | shl => exact RoundTrip.shl .. | shr => exact RoundTrip.shr ..
  | sar => exact RoundTrip.sar .. | rol => exact RoundTrip.rol .. | fshl => exact RoundTrip.fshl .. | bfe => exact RoundTrip.bfe ..
  | bfi => exact RoundTrip.bfi .. | popc => exact RoundTrip.popc .. | clz => exact RoundTrip.clz .. | ctz => exact RoundTrip.ctz ..
  | brev => exact RoundTrip.brev .. | prmt => exact RoundTrip.prmt ..
  -- class 0x2, move and register space (R130)
  | mov => exact RoundTrip.mov .. | movi => exact RoundTrip.movi .. | mov64 => exact RoundTrip.mov64 .. | movx => exact RoundTrip.movx ..
  | stx => exact RoundTrip.stx .. | shfl => exact RoundTrip.shfl .. | bcast => exact RoundTrip.bcast .. | vote => exact RoundTrip.vote ..
  | redux => exact RoundTrip.redux .. | expw => exact RoundTrip.expw .. | revw => exact RoundTrip.revw .. | bindw => exact RoundTrip.bindw ..
  | setf => exact RoundTrip.setf .. | clrf => exact RoundTrip.clrf .. | testf => exact RoundTrip.testf .. | frame => exact RoundTrip.frame ..
  | unframe => exact RoundTrip.unframe ..
  -- class 0x3, compare and select (R128, R129)
  | isetp => exact RoundTrip.isetp .. | iset => exact RoundTrip.iset .. | sel => exact RoundTrip.sel .. | psetp => exact RoundTrip.psetp ..
  | p2v => exact RoundTrip.p2v .. | v2p => exact RoundTrip.v2p ..
  -- class 0x4, F32 (R146)
  | fadd => exact RoundTrip.fadd .. | fsub => exact RoundTrip.fsub .. | fmul => exact RoundTrip.fmul .. | ffma => exact RoundTrip.ffma ..
  | fmin => exact RoundTrip.fmin .. | fmax => exact RoundTrip.fmax .. | fminm => exact RoundTrip.fminm .. | fmaxm => exact RoundTrip.fmaxm ..
  | fsetp => exact RoundTrip.fsetp .. | fclass => exact RoundTrip.fclass .. | frnd => exact RoundTrip.frnd .. | ffrc => exact RoundTrip.ffrc ..
  | fscale => exact RoundTrip.fscale .. | fgetexp => exact RoundTrip.fgetexp .. | fdiv => exact RoundTrip.fdiv ..
  | fsqrt => exact RoundTrip.fsqrt .. | frcp => exact RoundTrip.frcp .. | frsq => exact RoundTrip.frsq .. | fexp2 => exact RoundTrip.fexp2 ..
  | flog2 => exact RoundTrip.flog2 .. | fsinpi => exact RoundTrip.fsinpi .. | fcospi => exact RoundTrip.fcospi ..
  | ftanh => exact RoundTrip.ftanh ..
  -- class 0x5, packed F16 and B16 (R154)
  | hadd2 => exact RoundTrip.hadd2 .. | hmul2 => exact RoundTrip.hmul2 .. | hfma2 => exact RoundTrip.hfma2 .. | hmin2 => exact RoundTrip.hmin2 ..
  | hmax2 => exact RoundTrip.hmax2 .. | hsetp2 => exact RoundTrip.hsetp2 ..
  -- class 0x6, conversion (R156)
  | fcvt => exact RoundTrip.fcvt .. | f2i => exact RoundTrip.f2i .. | i2f => exact RoundTrip.i2f .. | fpack => exact RoundTrip.fpack ..
  | funpack => exact RoundTrip.funpack .. | qblk => exact RoundTrip.qblk ..
  -- class 0x7, loads and stores (R164)
  | ld => exact RoundTrip.ld .. | st => exact RoundTrip.st .. | lda => exact RoundTrip.lda .. | stl => exact RoundTrip.stl ..
  -- class 0x8, atomics and fences (R169, R173)
  | atom => exact RoundTrip.atom .. | red => exact RoundTrip.red .. | fence => exact RoundTrip.fence ..
  -- class 0x9, asynchronous copy and pull (R179 to R190)
  | cpy => exact RoundTrip.cpy .. | cpym => exact RoundTrip.cpym .. | tcopy => exact RoundTrip.tcopy .. | tsld => exact RoundTrip.tsld ..
  | tsev => exact RoundTrip.tsev .. | kick => exact RoundTrip.kick .. | kwait => exact RoundTrip.kwait .. | pull => exact RoundTrip.pull ..
  | ack => exact RoundTrip.ack ..
  -- class 0xA, synchronisation and timelines (R192 to R202)
  | tlrd => exact RoundTrip.tlrd .. | tltag => exact RoundTrip.tltag .. | tlwait => exact RoundTrip.tlwait .. | bar => exact RoundTrip.bar ..
  | gbar => exact RoundTrip.gbar .. | abinit => exact RoundTrip.abinit .. | abexp => exact RoundTrip.abexp .. | abarv => exact RoundTrip.abarv ..
  | abwait => exact RoundTrip.abwait .. | kdecl => exact RoundTrip.kdecl .. | sign => exact RoundTrip.sign .. | rconv => exact RoundTrip.rconv ..
  | gres => exact RoundTrip.gres .. | gclr => exact RoundTrip.gclr .. | yield => exact RoundTrip.yield .. | sleep => exact RoundTrip.sleep ..
  -- class 0xB, control (R203)
  | bra => exact RoundTrip.bra .. | brx => exact RoundTrip.brx .. | call => exact RoundTrip.call .. | callx => exact RoundTrip.callx ..
  | ret => exact RoundTrip.ret .. | exit => exact RoundTrip.exit .. | trap => exact RoundTrip.trap .. | tret => exact RoundTrip.tret ..
  | sysc => exact RoundTrip.sysc .. | nop => exact RoundTrip.nop .. | setpat => exact RoundTrip.setpat ..
  -- class 0xC, matrix, attention, ladder (R221)
  | mma => exact RoundTrip.mma .. | wld => exact RoundTrip.wld .. | aclr => exact RoundTrip.aclr .. | ald => exact RoundTrip.ald ..
  | asto => exact RoundTrip.asto .. | att => exact RoundTrip.att .. | attfin => exact RoundTrip.attfin .. | ladinit => exact RoundTrip.ladinit ..
  | ladpush => exact RoundTrip.ladpush .. | ladread => exact RoundTrip.ladread .. | ladld => exact RoundTrip.ladld ..
  -- class 0xD, collective triggers and schedules (R292)
  | wqpost => exact RoundTrip.wqpost .. | tarm => exact RoundTrip.tarm .. | cntadd => exact RoundTrip.cntadd ..
  | sched => exact RoundTrip.sched ..
  -- class 0xE, system (R209)
  | mfsr => exact RoundTrip.mfsr .. | mtsr => exact RoundTrip.mtsr .. | eret => exact RoundTrip.eret .. | halt => exact RoundTrip.halt ..
  | tlbfls => exact RoundTrip.tlbfls .. | tldrain => exact RoundTrip.tldrain .. | fbrd => exact RoundTrip.fbrd ..
  | fbpop => exact RoundTrip.fbpop .. | replay => exact RoundTrip.replay .. | winqPush => exact RoundTrip.winqPush ..
  | winqPop => exact RoundTrip.winqPop .. | ctxsv => exact RoundTrip.ctxsv .. | ctxld => exact RoundTrip.ctxld ..
  | lnkctlStat => exact RoundTrip.lnkctlStat .. | lnkctlPause => exact RoundTrip.lnkctlPause .. | lnkctlResume => exact RoundTrip.lnkctlResume ..
  | lnkctlRemap => exact RoundTrip.lnkctlRemap .. | lnkctlTrain => exact RoundTrip.lnkctlTrain .. | lnkctlHalf => exact RoundTrip.lnkctlHalf ..
  -- class 0xF, debug and performance (R218)
  | bkpt => exact RoundTrip.bkpt .. | sstep => exact RoundTrip.sstep .. | trcmk => exact RoundTrip.trcmk .. | cntrd => exact RoundTrip.cntrd ..
  -- Floreal schedule words (R297, R298)
  | florealNop => exact RoundTrip.florealNop | florealSend => exact RoundTrip.florealSend .. | florealRecv => exact RoundTrip.florealRecv ..
  | florealRed => exact RoundTrip.florealRed .. | florealCopy => exact RoundTrip.florealCopy .. | florealWait => exact RoundTrip.florealWait ..
  | florealSignal => exact RoundTrip.florealSignal .. | florealLoop => exact RoundTrip.florealLoop .. | florealEnd => exact RoundTrip.florealEnd
  | _ => exact RoundTrip.step rfl rfl

variable {i : Instr}

/-- A word that is the encoding of a legal instruction decodes to it. -/
theorem decodeWord_of_encodeWord {w : BitVec 96} (hw : encodeWord i = w) (hl : i.legal = true) : decodeWord w = .ok i :=
  hw ▸ (decodeEncode i).1 hl

/-- A schedule word that is the encoding of a legal one decodes to it. -/
theorem decodeFloreal_of_encodeFloreal {w : DWord} (hw : encodeFloreal i = w) (hf : i.florealOk = true) : decodeFloreal w = some i :=
  hw ▸ (decodeEncode i).2 hf

/-- Settles O51: each word is the encoding of its instruction, which is legal. -/
theorem decodeWords : Obligations.DecodeWords := by
  refine ⟨?_, ?_, ?_, ?_, ?_, ?_, ?_, ?_, ?_⟩
  case refine_9 => -- the schedule word
    exact decodeFloreal_of_encodeFloreal (by decide) (by decide)
  all_goals exact decodeWord_of_encodeWord (by decide) (by decide)

end Sys2Proof.Machine
end

section
/-! SUPPORT. The checks of R91 at decode: every instruction word meets them before its meaning, and which trap they come to. -/

namespace Sys2Proof.Machine

variable {i : Instr} {s : State} {wk : Nat}

/-! ### Every instruction word is checked -/

/-- The meaning of the instruction begins with the checks of R91; what comes after them is `f`. -/
def Enters (i : Instr) : Prop := ∃ f, ∀ s, exec i s = s.enter i f

section

variable {ka kb : ImmK}

theorem enters_of_laneEarly {uni br : Bool} {early : Early} {body : TC → State → TRes}
    (he : ∀ s, exec i s = laneEarly i uni br ka kb early body s) : Enters i := ⟨_, he⟩

theorem enters_of_laneOnceEarly {early : Early} {body : TC → State → TRes}
    (he : ∀ s, exec i s = laneOnceEarly i ka kb early body s) : Enters i := ⟨_, he⟩

theorem enters_of_laneAll {body : List TC → State → ARes} (he : ∀ s, exec i s = laneAll i ka kb body s) : Enters i := ⟨_, he⟩

end

/-- MOV into a queue acts once (R132); into any other D it acts for each thread. -/
theorem enters_mov (h : Hdr) (d a : Operand) : Enters (.mov h d a) := by
  cases d with
  | q n => exact enters_of_laneOnceEarly (fun _ => rfl)
  | _ => exact enters_of_laneEarly (fun _ => rfl)

/-- LD into a queue acts once (R168); into any other D it acts for each thread. -/
theorem enters_ld (h : Hdr) (size : Size) (d a b : Operand) : Enters (.ld h size d a b) := by
  cases d with
  | q n => exact enters_of_laneOnceEarly (fun _ => rfl)
  | _ => exact enters_of_laneEarly (fun _ => rfl)

/-- Every instruction word takes one of the lane forms: for all its threads together, once for the warp, or for each thread in turn. A
schedule word or a step of the device has no signature. -/
theorem enters_of_sig {g : Sig} (hs : i.sig = some g) : Enters i := by
  cases i with
  | florealNop | florealSend | florealRecv | florealRed | florealCopy | florealWait | florealSignal | florealLoop | florealEnd | runStart
  | trapDeliver | jointRoundClose | releaseTakesEffect | sleepExpiry | rconvTimeout | revwComplete | guardDiscard | copyCmdAccept
  | engineMemResponse | engineLanding | copyCmdRetire | stackSpillFill | cntaddAftApply | arrayCmdStart | arraySrcConsumed | arrayCmdEnd
  | arrayCmdRetire | multicastLanding | kickNoticeArrive | remoteReadServe | ackArrive | loadDataLand | walkComplete | faultPresent
  | sideLogEnter | sliceRequestServe | mnqOvfRetry | qcntAdvance | scrubVisit | tldrainComplete | winqPopComplete | ctxsvComplete
  | ctxldComplete | warpStop | mboxDeviceEntry | traceCounterLimit | quantumExpiry | blockAssign | blockRetire | dispatchTakeCommand
  | launchComplete | timeTriggerFire | schedStart | florealWaitTimeExpiry | florealStepTimeout | linkPauseComplete | linkRemapComplete
  | sysreqRead | mnqRead | mboxRead | chdataWrite | mclrWrite | quantumWrite | fpownWrite | dbgdatWrite | dbgStop | dbgRun | dbgStopBlock
  | dbgRunBlock | dbgStopnow | registerWrite | doorbellWrite | remoteWriteArrive | schedSignalArrive | entryComplete | chunkArrive
  | fabricTimeExchange | linkTrainComplete | fabricFlitCrcError | ucieFlitCrcError | nocFlitCrcError | switchParityError | thermidorTick
  | thermalEmergency | coolantFlowLost | thermalTrip | hostMemRead | hostMemWrite | hostMboxWrite | mboxOvrClear | powerOnBoot
  | recoveryStart | deviceReset | spdmGetVersion | spdmGetCapabilities | spdmNegotiateAlgorithms | spdmGetCertificate | spdmChallenge
  | spdmGetMeasurements | coolantFlowReturn | fabricLinkDown | farEndBufferSpace | dispatcherTableError => cases hs
  | mov => exact enters_mov ..
  | ld => exact enters_ld ..
  | shfl h mode d a b => exact enters_of_laneAll (fun s => show execShfl h mode d a b s = _ from rfl)
  | bcast h d a b => exact enters_of_laneAll (fun s => show execBcast h d a b s = _ from rfl)
  | vote h kind d a => exact enters_of_laneAll (fun s => show execVote h kind d a s = _ from rfl)
  | redux h ty oper d a => exact enters_of_laneAll (fun s => show execRedux h ty oper d a s = _ from rfl)
  | cpy => exact enters_of_laneAll (fun _ => rfl)
  | expw | revw | bindw | cpym | tcopy | tsld | tsev | kwait | pull | ack | kdecl | gres | gclr | yield | sysc | nop | setpat
  | wld | aclr | ald | asto | wqpost | tarm | cntadd | sched | mfsr | mtsr | eret | halt | tlbfls | tldrain | fbrd | fbpop
  | replay | winqPush | winqPop | ctxsv | ctxld | lnkctlStat | lnkctlPause | lnkctlResume | lnkctlRemap | lnkctlTrain
  | lnkctlHalf | bkpt | sstep | trcmk | cntrd =>
    exact enters_of_laneOnceEarly (fun _ => rfl)
  | _ => exact enters_of_laneEarly (fun _ => rfl)

/-- A word to which R91 objects traps in every member. -/
theorem enter_fate {g : Sig} {h : Hdr} {r : Run} {k : Nat} {td : Word} (hr : s.run s.focus = some r) (hs : i.sig = some g) (hh : i.hdr = some h)
    (hf : s.fate r.wk i = some (k, td)) (f : Run → Sig → Hdr → Word → State → State) :
    s.enter i f = .next ((s.raiseAll r.wk (maskList r.members) k r.pc td).endInstr s.focus i h 0 (cyclesOf g (maskList r.members).length)) := by
  unfold State.enter
  rw [hr, hs, hh]
  simp only [hf]

/-! ### Which trap it is -/

theorem or_regroup (p q d a b m : Bool) : (p || q || d || a || b || m) = (p || q || (d || a || b || m)) := by
  simp only [Bool.or_assoc]

/-- The model's check of privilege is the three conditions together. -/
theorem priv_eq (i : Instr) : i.priv = (i.cls == 0xE || opOf i == 0x3C2 || namesSystem i) := by
  unfold Instr.priv Instr.cls opOf namesSystem
  cases i.sig with
  | none => rfl
  | some g => exact or_regroup ..

/-- R87, R89, R179: the instructions that need privilege are those of class 0xE, SSTEP, and those that name a system register or host memory. -/
theorem priv_iff (i : Instr) : i.priv = true ↔ i.cls = 0xE ∨ opOf i = 0x3C2 ∨ namesSystem i = true := by
  rw [priv_eq, Bool.or_eq_true, Bool.or_eq_true, beq_iff_eq, beq_iff_eq, or_assoc]

/-- An illegal word traps so before all else. -/
theorem fate_illegal (hl : i.legal = false) : s.fate wk i = some (kIll, 0) := by
  simp [State.fate, hl]

/-- A legal word that a warp may execute and that needs privilege traps for it outside the system warps. -/
theorem fate_privileged (hl : i.legal = true) (hsl : isSlice wk = false) (hw : i.warpOk = true) (hsys : isSys wk = false) (hp : i.priv = true) :
    s.fate wk i = some (kPriv, 0) := by
  simp [State.fate, hl, hsl, hw, hsys, hp]

/-- The privilege trap has no other source. -/
theorem priv_of_fate {td : Word} (h : s.fate wk i = some (kPriv, td)) : i.priv = true ∧ isSys wk = false := by
  have kinds : kIll ≠ kPriv ∧ kRng ≠ kPriv := by decide
  unfold State.fate at h
  by_cases hill : (!i.legal || (if isSlice wk then !i.sliceOk else !i.warpOk)) = true
  · rw [if_pos hill] at h
    injection h with h
    exact absurd (congrArg Prod.fst h) kinds.1
  rw [if_neg hill] at h
  by_cases hp : (i.priv && !isSys wk) = true
  · simpa using hp
  rw [if_neg hp] at h
  cases hr : i.rngBad (allocFor wk (s.warp (parent wk)).alloc) with
  | none =>
    rw [hr] at h
    cases h
  | some x =>
    rw [hr] at h
    injection h with h
    exact absurd (congrArg Prod.fst h) kinds.2

/-- Settles O60: the checks come before the body of every instruction word, and their order is that of R91. -/
theorem decodeTraps : Obligations.DecodeTraps := by
  refine ⟨?_, ?_, ?_, ?_⟩
  · intro s i g h r k td hr hs hh hf
    obtain ⟨f, he⟩ := enters_of_sig hs
    rw [he]
    exact enter_fate hr hs hh hf f
  · intro s wk i hl
    exact fate_illegal hl
  · intro s wk i hl hsl hw hsys hp
    exact fate_privileged hl hsl hw hsys ((priv_iff i).2 hp)
  · intro s wk i hno td hf
    obtain ⟨hp, hsys⟩ := priv_of_fate hf
    rcases hno with hs | ⟨hcls, hop, hname⟩
    · simp [hs] at hsys
    · rcases (priv_iff i).1 hp with h | h | h
      · exact hcls h
      · exact hop h
      · simp [hname] at h

end Sys2Proof.Machine
end

section
/-! SUPPORT. Control (R204 to R208): what SYSC comes to where every D is ready and none of its threads has an access due. -/

namespace Sys2Proof.Machine

variable {c : TC} {s : State}

/-- D of every active thread is ready: none waits, and the registers named are those of `destLocs`. -/
theorem dests_ready (h : s.DestsReady c) : ∃ ps, s.dests c = some ps ∧ ps.flatMap (fun p => p.2.locs) = s.destLocs c := by
  refine ⟨(maskList c.act).map (fun t => (t, s.prepOp c.wk t c.g.d)), if_neg ?_, List.flatMap_map ..⟩
  intro hw
  obtain ⟨p, hp, hw⟩ := List.any_eq_true.1 hw
  obtain ⟨t, ht, rfl⟩ := List.mem_map.1 hp
  obtain ⟨ls, hls⟩ := h t ht
  rw [hls] at hw
  cases hw

/-- A release of threads none of which has an access due has its effect at once (R246). -/
theorem releaseAll_now {m : Word} {act : Act} (h : ∀ t ∈ maskList m, s.relDue c.wk t s.nextId false act = false) (f : State → State) :
    s.releaseAll c.wk m act f = f s := by
  refine if_neg ?_
  intro hd
  obtain ⟨t, ht, hd⟩ := List.any_eq_true.1 hd
  rw [h t ht] at hd
  cases hd

/-- Settles O24. TRAP is the one that does not complete: its trap follows it (R206, R336); TRET and SYSC need their premises. -/
theorem controlInstructions : Obligations.ControlInstructions := by
  refine ⟨?_, ?_, ?_, ?_, ?_, ?_, ?_, ?_⟩
  case refine_1 => -- BRA
    intro h cnt d off
    refine laneEach_completes true true .int .int _ Always _ (fun _ => rfl) (fun c s _ => ?_)
    cases cnt with
    | true => rfl
    | false => rfl
  case refine_2 => -- BRX
    intro h a
    exact laneEach_completes true true .int .int _ Always _ (fun _ => rfl) (fun _ _ _ => rfl)
  case refine_3 => -- EXIT
    intro h
    exact laneEach_completes false false .int .int _ Always _ (fun _ => rfl) (fun _ _ _ => rfl)
  case refine_4 => -- TRAP
    intro h a
    exact laneEarly_passes false false .int .int noEarly _ Always _ (fun _ => rfl) (fun _ _ _ _ _ => rfl)
  case refine_5 => -- TRET
    intro h
    exact laneEach_completes false true .int .int _ _ _ (fun _ => rfl) (fun _ _ hin => if_pos hin)
  case refine_6 => -- NOP
    intro h
    exact laneOnce_completes .int .int _ Always _ (fun _ => rfl) (fun _ _ _ => rfl)
  case refine_7 => -- SETPAT
    intro h a
    exact laneOnce_completes .int .int _ Always _ (fun _ => rfl) (fun _ _ _ => rfl)
  case refine_8 => -- SYSC
    intro h d a b
    refine laneOnce_completes .int .int _ _ _ (fun _ => rfl) ?_
    intro c s ⟨hroom, hready, hrel⟩
    obtain ⟨ps, hps, hlocs⟩ := dests_ready hready
    simp only [hps, hlocs, if_neg (Nat.not_le.2 hroom), releaseAll_now hrel]

end Sys2Proof.Machine
end

section
/-! SUPPORT. Rounding a value the format holds (R95, R99): the code of a finite value names its significand and quantum, and the rounding finds
that quantum again, with nothing below it. -/

namespace Sys2Proof.Machine

variable {f : FFmt} {rnd : Rnd} {neg : Bool} {m x : Nat} {e : Int}

/-- m · 2^e is written with the quantum of its binade: m has all its bits (a normal number) or e is the smallest there is (R95). -/
def FFmt.Canonical (f : FFmt) (m : Nat) (e : Int) : Prop :=
  (2 ^ f.mbits ≤ m ∧ m < 2 ^ (f.mbits + 1) ∧ f.emin - f.mbits ≤ e) ∨ (m < 2 ^ f.mbits ∧ e = f.emin - f.mbits)

/-- Nothing is cut off an even number halved, so no mode rounds it up. -/
theorem roundShift_two_mul (rnd : Rnd) (neg : Bool) (m : Nat) : roundShift rnd neg (2 * m) 1 = m := by
  have hq : (2 * m) >>> 1 = m := by simp [Nat.shiftRight_eq_div_pow]
  have hr : 2 * m - m <<< 1 = 0 := by rw [Nat.shiftLeft_eq]; omega
  cases rnd <;> simp [roundShift, hq, hr]

/-- 2m · 2^(e − 1) is a multiple of 2^e. -/
theorem roundTo2_two_mul (rnd : Rnd) (neg : Bool) (m : Nat) (e : Int) : roundTo2 rnd neg (2 * m) (e - 1) e = (m, false) := by
  have hback : (2 * m) >>> 1 <<< 1 = 2 * m := by rw [Nat.shiftRight_eq_div_pow, Nat.shiftLeft_eq]; omega
  rw [roundTo2, if_neg (by omega)]
  simp [roundShift_two_mul, hback]

/-- The quantum that `FFmt.round` takes for a canonical value is its own. -/
theorem FFmt.Canonical.quantum (h : f.Canonical m e) (hm : m ≠ 0) :
    max (e - 1 + Nat.log2 (2 * m) - f.mbits) (f.emin - f.mbits) = e := by
  rw [Nat.log2_two_mul hm]
  obtain ⟨hlo, hhi, he⟩ | ⟨hhi, he⟩ := h
  · have hlog : m.log2 = f.mbits := (Nat.log2_eq_iff hm).2 ⟨hlo, hhi⟩
    omega
  · have hlog : m.log2 < f.mbits := (Nat.log2_lt hm).2 hhi
    omega

/-- The rounding of a canonical value within the range is its code, without a condition; a zero keeps its sign. -/
theorem FFmt.round_canonical (hz : f.negZero = true) (h : f.Canonical m e) (hmax : f.magCode m e ≤ f.maxMag) :
    f.round rnd neg m e false = (sgn f neg (f.magCode m e), 0) := by
  by_cases hm : m = 0
  · subst hm
    have hcode : f.magCode 0 e = 0 := if_pos (Nat.two_pow_pos _)
    simp [FFmt.round, hz, hcode]
  · have hq := h.quantum hm
    simp [FFmt.round, hm, hz, hq, roundTo2_two_mul, Nat.not_lt.2 hmax]

/-- A sign and a magnitude make up a code. -/
theorem sgn_mod_signBit (hx : x < 2 ^ f.width) : sgn f (decide (f.signBit ≤ x)) (x % f.signBit) = x := by
  have hw : 2 ^ f.width = 2 * f.signBit := by simp only [FFmt.width, FFmt.signBit]; ring
  by_cases hs : f.signBit ≤ x
  · have hmod : x % f.signBit = x - f.signBit := by rw [Nat.mod_eq_sub_mod hs, Nat.mod_eq_of_lt (by omega)]
    simp [sgn, hs, hmod]
  · simp [sgn, hs, Nat.mod_eq_of_lt (Nat.not_le.1 hs)]

/-- What a magnitude code below that of the infinities stands for: a subnormal where its exponent field is 0, a normal number elsewhere (R95). -/
theorem FFmt.decode_of_lt_infMag (hz : f.negZero = true) (hmax : f.infMag = f.maxMag + 1) (hx : x < 2 ^ f.width)
    (hfin : x % f.signBit < f.infMag) :
    f.decode x = if x % f.signBit / 2 ^ f.mbits = 0 then .fin (f.signBit ≤ x) (x % f.signBit % 2 ^ f.mbits) (f.emin - f.mbits)
      else .fin (f.signBit ≤ x) (2 ^ f.mbits + x % f.signBit % 2 ^ f.mbits) ((x % f.signBit / 2 ^ f.mbits : Nat) - f.bias - f.mbits) := by
  have he : x % f.signBit / 2 ^ f.mbits ≠ 2 ^ f.ebits - 1 := Nat.ne_of_lt (Nat.div_lt_of_lt_mul (by rwa [Nat.mul_comm]))
  simp [FFmt.decode, Nat.mod_eq_of_lt hx, hz, he, show ¬ f.maxMag < x % f.signBit by omega]

/-- Of an IEEE format, an all-ones exponent field is no finite value (R95). -/
theorem FFmt.lt_infMag_of_decode_fin (hi : f.ieee = true) (hx : x < 2 ^ f.width) (hd : f.decode x = .fin neg m e) :
    x % f.signBit < f.infMag := by
  by_contra hge
  have hlt : x % f.signBit < 2 ^ f.mbits * 2 ^ f.ebits := by
    rw [← pow_add, Nat.add_comm]; exact Nat.mod_lt _ (Nat.two_pow_pos _)
  have he : x % f.signBit / 2 ^ f.mbits = 2 ^ f.ebits - 1 :=
    Nat.le_antisymm (Nat.le_sub_one_of_lt (Nat.div_lt_of_lt_mul hlt)) ((Nat.le_div_iff_mul_le (Nat.two_pow_pos _)).2 (Nat.not_lt.1 hge))
  simp only [FFmt.decode, Nat.mod_eq_of_lt hx, hi, he, and_self, if_true] at hd
  split at hd <;> cases hd

/-- A subnormal's code is its significand. -/
theorem FFmt.magCode_subnormal (hm : m < 2 ^ f.mbits) (e : Int) : f.magCode m e = m := if_pos hm

/-- A normal number's code is its biased exponent before its fraction. -/
theorem FFmt.magCode_normal {k : Nat} (hk : k < 2 ^ f.mbits) (E : Nat) :
    f.magCode (2 ^ f.mbits + k) (E - f.bias - f.mbits) = E * 2 ^ f.mbits + k := by
  have hE : (E - f.bias - f.mbits + f.mbits + f.bias).toNat = E := by omega
  rw [FFmt.magCode, if_neg (by omega), if_neg (by rw [pow_succ]; omega), hE, Nat.add_sub_cancel_left]

/-- A finite value is canonical, and its sign and its magnitude's code are those of the code it was read from. -/
theorem FFmt.decode_fin (hi : f.ieee = true) (hz : f.negZero = true) (hmax : f.infMag = f.maxMag + 1) (hx : x < 2 ^ f.width)
    (hd : f.decode x = .fin neg m e) : f.Canonical m e ∧ f.magCode m e = x % f.signBit ∧ neg = decide (f.signBit ≤ x) := by
  have hk : x % f.signBit % 2 ^ f.mbits < 2 ^ f.mbits := Nat.mod_lt _ (Nat.two_pow_pos _)
  have hsplit := Nat.div_add_mod' (x % f.signBit) (2 ^ f.mbits)
  rw [FFmt.decode_of_lt_infMag hz hmax hx (FFmt.lt_infMag_of_decode_fin hi hx hd)] at hd
  split at hd
  next hsub =>
    obtain ⟨rfl, rfl, rfl⟩ := FVal.fin.inj hd
    rw [hsub, Nat.zero_mul, Nat.zero_add] at hsplit
    exact ⟨.inr ⟨hk, rfl⟩, (FFmt.magCode_subnormal hk _).trans hsplit, rfl⟩
  next hnorm =>
    obtain ⟨rfl, rfl, rfl⟩ := FVal.fin.inj hd
    generalize x % f.signBit / 2 ^ f.mbits = E at hsplit hnorm ⊢
    have hemin : f.emin ≤ E - f.bias := by rw [FFmt.emin]; omega
    exact ⟨.inl ⟨Nat.le_add_right .., by rw [pow_succ]; omega, by omega⟩, (FFmt.magCode_normal hk _).trans hsplit, rfl⟩

/-- Settles O17: a finite code has the quantum of its binade, and the rounding takes the same quantum. -/
theorem roundingExact : Obligations.RoundingExact := by
  intro f hf rnd x hx neg m e hd
  obtain ⟨hi, hz, hmax⟩ : f.ieee = true ∧ f.negZero = true ∧ f.infMag = f.maxMag + 1 := by
    obtain rfl | rfl | rfl := hf <;> decide
  have hfin : x % f.signBit < f.infMag := FFmt.lt_infMag_of_decode_fin hi hx hd
  obtain ⟨hcan, hcode, rfl⟩ := FFmt.decode_fin hi hz hmax hx hd
  rw [FFmt.round_canonical hz hcan (by omega), hcode, sgn_mod_signBit hx]

end Sys2Proof.Machine
end

section
/-! SUPPORT. Integer arithmetic (R117 to R123): the results of class 0x0, the carry of IADC, and the borderline cases of division. -/

namespace Sys2Proof.Machine

/-- An instruction whose body is an integer meaning writes its exact result as R121 has it. -/
theorem computes_int {i : Instr} {m : Arith} (f : Int → Int → Int → Int)
    (he : ∀ s, exec i s = laneEach i true false .int .int (intBody m f) s) :
    Computes i true .int .int Always (fun c _ => intRes m (f (negA m (tyInt m.ty c.av)) (negB m (tyInt m.ty c.bv)) (tyInt m.ty c.dv))) :=
  computes_val he

/-- Settles O1: each instruction passes the lane with `intBody` of its operation, or with `valBody` of its value on the pair D. -/
theorem integerResults : Obligations.IntegerResults := by
  intro h m d a b
  refine ⟨?iadd, ?isub, ?imul, ?imulh, ?imad, ?imadw, ?idiv, ?irem, ?imin, ?imax, ?iabs, ?ineg, ?lea, ?idot4, ?isad⟩
  case iadd => exact computes_int (fun a b _ => a + b) (fun _ => rfl)
  case isub => exact computes_int (fun a b _ => a - b) (fun _ => rfl)
  case imul => exact computes_int (fun a b _ => a * b) (fun _ => rfl)
  case imulh => exact computes_int (fun a b _ => a * b / 2 ^ tyBits m.ty) (fun _ => rfl)
  case imad => exact computes_int (fun a b d => a * b + d) (fun _ => rfl)
  case imadw => exact computes_val (fun _ => rfl)
  case idiv => exact computes_int (fun a b _ => divInt a b) (fun _ => rfl)
  case irem => exact computes_int (fun a b _ => remInt a b) (fun _ => rfl)
  case imin => exact computes_int (fun a b _ => min a b) (fun _ => rfl)
  case imax => exact computes_int (fun a b _ => max a b) (fun _ => rfl)
  case iabs => exact computes_int (fun a _ _ => (a.natAbs : Int)) (fun _ => rfl)
  case ineg => exact computes_int (fun a _ _ => -a) (fun _ => rfl)
  case lea => exact computes_val (fun _ => rfl)
  case idot4 => exact computes_val (fun _ => rfl)
  case isad => exact computes_int (fun a b d => d + ((a - b).natAbs : Int)) (fun _ => rfl)

/-- The sum that IADC forms of two words and a carry, before it is split into the pair (R123). -/
def carrySum (a b d : DWord) : Nat := a.lo.toNat + b.lo.toNat + (if d.hi.getLsbD 0 then 1 else 0)

theorem hi_getLsbD_zero (d : DWord) : d.hi.getLsbD 0 = d.getLsbD 32 := by
  simp

theorem carrySum_lt (a b d : DWord) : carrySum a b d < 2 ^ 33 := by
  have ha := a.lo.isLt
  have hb := b.lo.isLt
  unfold carrySum
  split <;> omega

/-- The pair that IADC writes holds the sum itself. -/
theorem iadcVal_eq (a b d : DWord) : iadcVal a b d = BitVec.ofNat 64 (carrySum a b d) := by
  unfold iadcVal carrySum
  dsimp only
  rw [hi_getLsbD_zero, Nat.mod_add_div]

theorem iadcVal_lo (a b d : DWord) : (iadcVal a b d).lo = BitVec.ofNat 32 (carrySum a b d) := by
  rw [iadcVal_eq]
  exact BitVec.setWidth_ofNat_of_le (by decide) _

theorem iadcVal_hi (a b d : DWord) : (iadcVal a b d).hi = if 2 ^ 32 ≤ carrySum a b d then 1 else 0 := by
  have hlt := carrySum_lt a b d
  have hhi : (iadcVal a b d).hi.toNat = carrySum a b d / 2 ^ 32 := by
    rw [iadcVal_eq, DWord.hi, BitVec.toNat_setWidth, BitVec.toNat_ushiftRight, BitVec.toNat_ofNat, Nat.shiftRight_eq_div_pow]
    omega
  apply BitVec.eq_of_toNat_eq
  rw [hhi]
  split
  · show _ = 1; omega
  · show _ = 0; omega

/-- Settles O2: the pair holds the sum of the words and the carry, which is below 2^33. -/
theorem carryAdd : Obligations.CarryAdd := by
  intro h m d a b
  refine ⟨computes_val (fun _ => rfl), fun av bv dv => ⟨?lo, iadcVal_hi av bv dv⟩⟩
  case lo =>
    rw [iadcVal_lo, carrySum, BitVec.ofNat_add, BitVec.ofNat_add, BitVec.ofNat_toNat, BitVec.ofNat_toNat, BitVec.setWidth_eq, BitVec.setWidth_eq]
    split <;> rfl

theorem divInt_zero (a : Int) : divInt a 0 = -1 := if_pos rfl
theorem remInt_zero (a : Int) : remInt a 0 = a := if_pos rfl

/-- Division by a number apart from 0 is toward zero (R122): the remainder is smaller than the divisor and has the sign of the dividend. -/
theorem divInt_remInt {a b : Int} (hb : b ≠ 0) :
    a = divInt a b * b + remInt a b ∧ (remInt a b).natAbs < b.natAbs ∧ (0 ≤ a → 0 ≤ remInt a b) ∧ (a ≤ 0 → remInt a b ≤ 0) := by
  rw [divInt, if_neg hb, remInt, if_neg hb]
  refine ⟨(Int.tdiv_mul_add_tmod a b).symm, ?small, Int.tmod_nonneg b, fun ha => ?sign⟩
  case small =>
    rw [Int.natAbs_tmod]
    exact Nat.mod_lt _ (Int.natAbs_pos.2 hb)
  case sign =>
    have hneg := Int.tmod_nonneg b (Int.neg_nonneg.2 ha)
    rw [Int.neg_tmod] at hneg
    exact Int.neg_nonneg.1 hneg

/-- Settles O3: a divisor of 0 and the overflow of the smallest number are cases of their own, and all else is division toward zero. -/
theorem divisionCases : Obligations.DivisionCases := by
  refine ⟨?_, ?_, ?_, ?_, ?_, ?_, fun a b hb => divInt_remInt hb⟩
  · rintro a b rfl
    exact ⟨by rw [show ((0 : Word).toNat : Int) = 0 from rfl, divInt_zero]; rfl, remInt_zero _⟩
  · rintro a b rfl
    exact ⟨divInt_zero _, remInt_zero _⟩
  · rintro a b rfl
    exact ⟨by rw [show ((0 : DWord).toNat : Int) = 0 from rfl, divInt_zero]; rfl, remInt_zero _⟩
  · rintro a b rfl
    exact ⟨divInt_zero _, remInt_zero _⟩
  · decide
  · decide

end Sys2Proof.Machine
end

section
/-! SUPPORT. Logic, shifts and bits (R124 to R127): which bits the values of class 0x1 have, and the numbers they stand for. -/

namespace Sys2Proof.Machine

/-! ### Bits set one by one -/

/-- Bits added one by one over a list of positions. -/
theorem getLsbD_foldl_setBit {w : Nat} (f : Nat → Bool) (l : List Nat) (x : BitVec w) {i : Nat} (hi : i < w) :
    (l.foldl (fun x j => if f j then x ||| (1#w <<< j) else x) x).getLsbD i = (x.getLsbD i || (decide (i ∈ l) && f i)) := by
  induction l generalizing x with
  | nil => simp
  | cons j l ih =>
    have hbit : (1#w <<< j).getLsbD i = decide (i = j) := by
      rw [← BitVec.twoPow_eq, BitVec.getLsbD_twoPow]
      by_cases h : i = j
      · subst h; simp [hi]
      · simp [h, Ne.symm h]
    rw [List.foldl_cons, ih]
    by_cases h : i = j
    · subst h
      cases hf : f i <;> simp [hbit]
    · cases hf : f j <;> simp [h, hbit]

theorem ofBits_getLsbD {n : Nat} (hn : n ≤ 64) (f : Nat → Bool) (j : Nat) : (ofBits n f).getLsbD j = (decide (j < n) && f j) := by
  by_cases hj : j < 64
  · rw [ofBits, getLsbD_foldl_setBit f _ _ hj]
    simp
  · rw [BitVec.getLsbD_of_ge _ _ (Nat.le_of_not_lt hj), decide_eq_false (fun h => hj (Nat.lt_of_lt_of_le h hn)), Bool.false_and]

theorem maskOf_getLsbD (l : List Nat) {t : Nat} (ht : t < 32) : (maskOf l).getLsbD t = decide (t ∈ l) := by
  have h := getLsbD_foldl_setBit (fun _ => true) l 0#32 ht
  simpa [maskOf] using h

/-! ### Widths -/

theorem tyBits_cases (ty : Ty) : tyBits ty = 32 ∧ ty.regs = 1 ∨ tyBits ty = 64 ∧ ty.regs = 2 := by
  cases ty <;> decide

theorem tyBits_le (ty : Ty) : tyBits ty ≤ 64 := by
  rcases tyBits_cases ty with ⟨h, -⟩ | ⟨h, -⟩ <;> omega

theorem atW_toNat (ty : Ty) (a : DWord) : (atW ty a).toNat = a.toNat % 2 ^ tyBits ty := by
  rcases tyBits_cases ty with ⟨hw, hr⟩ | ⟨hw, hr⟩
  · have hlo := a.lo.isLt
    rw [atW, if_neg (by omega), hw, BitVec.toNat_setWidth_of_le (by decide), BitVec.toNat_setWidth]
  · rw [atW, if_pos hr, hw, Nat.mod_eq_of_lt a.isLt]

/-! ### Shifts (R124) -/

theorem shlVal_toNat (ty : Ty) (a : DWord) (n : Nat) : (shlVal ty a n).toNat % 2 ^ tyBits ty = a.toNat * 2 ^ n % 2 ^ tyBits ty := by
  unfold shlVal
  split
  next hn => -- every bit is shifted out
    rw [Nat.mod_eq_zero_of_dvd (Dvd.dvd.mul_left (Nat.pow_dvd_pow 2 hn) _)]
    exact Nat.zero_mod _
  next =>
    rw [BitVec.toNat_shiftLeft, Nat.shiftLeft_eq, Nat.mod_mod_of_dvd _ (Nat.pow_dvd_pow 2 (tyBits_le ty))]

theorem shrVal_toNat (ty : Ty) (a : DWord) (n : Nat) : (shrVal ty a n).toNat = a.toNat % 2 ^ tyBits ty / 2 ^ n := by
  unfold shrVal
  split
  next hn =>
    have hlt : a.toNat % 2 ^ tyBits ty < 2 ^ n := Nat.lt_of_lt_of_le (Nat.mod_lt _ (by positivity)) (Nat.pow_le_pow_right (by decide) hn)
    rw [Nat.div_eq_of_lt hlt]
    rfl
  next => rw [BitVec.toNat_ushiftRight, atW_toNat, Nat.shiftRight_eq_div_pow]

/-- An arithmetic shift by the width or more is one by the width less one: every bit is the sign. -/
theorem sshiftRight_min {w : Nat} (a : BitVec w) (n : Nat) : a.sshiftRight (min n (w - 1)) = a.sshiftRight n := by
  rcases Nat.le_total n (w - 1) with h | h
  · rw [Nat.min_eq_left h]
  · rw [Nat.min_eq_right h]
    refine BitVec.eq_of_getLsbD_eq (fun i hi => ?_)
    simp only [BitVec.getLsbD_sshiftRight, BitVec.msb_eq_getLsbD_last]
    have hsign : ∀ k, w - 1 ≤ k → (if k + i < w then a.getLsbD (k + i) else a.getLsbD (w - 1)) = a.getLsbD (w - 1) := by
      intro k hk
      split
      · exact congrArg a.getLsbD (by omega)
      · rfl
    rw [hsign _ (Nat.le_refl _), hsign n h]

/-- An arithmetic shift divides, toward the smaller number. -/
theorem sshiftRight_min_toInt {w : Nat} (a : BitVec w) (n : Nat) : (a.sshiftRight (min n (w - 1))).toInt = a.toInt / 2 ^ n := by
  rw [sshiftRight_min, BitVec.toInt_sshiftRight, Int.shiftRight_eq_div_pow]
  rfl

theorem sarVal_b32_lo (a : DWord) (n : Nat) : (sarVal .b32 a n).lo = a.lo.sshiftRight (min n 31) :=
  (BitVec.setWidth_setWidth_of_le _ (by decide)).trans (BitVec.setWidth_eq _)

/-- A rotation takes bit j to bit j + n, modulo the width. -/
theorem getLsbD_rotateLeft_add {w : Nat} (a : BitVec w) (n : Nat) {j : Nat} (hj : j < w) : (a.rotateLeft n).getLsbD ((j + n) % w) = a.getLsbD j := by
  have hlt : n % w < w := Nat.mod_lt _ (by omega)
  rw [BitVec.getLsbD_rotateLeft, Nat.add_mod, Nat.mod_eq_of_lt hj]
  generalize n % w = k at hlt
  by_cases h : j + k < w
  · rw [Nat.mod_eq_of_lt h, decide_eq_false (by omega), decide_eq_true h]
    simp
  · rw [Nat.mod_eq_sub_mod (by omega), Nat.mod_eq_of_lt (by omega), decide_eq_true (by omega), cond_true]
    exact congrArg a.getLsbD (by omega)

theorem fshlVal_toNat (d a : DWord) (n : Nat) :
    (fshlVal d a n).toNat = (d.lo.toNat * 2 ^ 32 + a.lo.toNat) * 2 ^ (n % 32) / 2 ^ 32 % 2 ^ 32 := by
  have happ : (d.lo ++ a.lo).toNat = d.lo.toNat * 2 ^ 32 + a.lo.toNat := by
    rw [BitVec.toNat_append, ← Nat.shiftLeft_add_eq_or_of_lt a.lo.isLt, Nat.shiftLeft_eq]
  unfold fshlVal
  rw [BitVec.toNat_ushiftRight, BitVec.toNat_shiftLeft, happ, Nat.shiftLeft_eq, Nat.shiftRight_eq_div_pow]
  exact Nat.mod_mul_right_div_self _ (2 ^ 32) (2 ^ 32)

/-- Settles O5, value by value. -/
theorem shiftArithmetic : Obligations.ShiftArithmetic := by
  refine ⟨shlVal_toNat, shrVal_toNat, fun a n => sshiftRight_min_toInt a n, ?sar32, ?rol32, ?rol64, fshlVal_toNat⟩
  case sar32 =>
    intro a n
    rw [sarVal_b32_lo]
    exact sshiftRight_min_toInt a.lo n
  case rol32 =>
    intro a n j hj
    have hk : (j + n) % 32 < 32 := Nat.mod_lt _ (by decide)
    show ((a.lo.rotateLeft (n % 32)).setWidth 64).getLsbD ((j + n) % 32) = _
    rw [BitVec.rotateLeft_mod_eq_rotateLeft, BitVec.getLsbD_setWidth, getLsbD_rotateLeft_add a.lo n hj, BitVec.getLsbD_setWidth]
    simp [hj, Nat.lt_trans hk]
  case rol64 =>
    intro a n j hj
    show (a.rotateLeft (n % 64)).getLsbD ((j + n) % 64) = _
    rw [BitVec.rotateLeft_mod_eq_rotateLeft, getLsbD_rotateLeft_add a n hj]

/-! ### LOP3 (R125) -/

/-- Settles O6: the value is written out bit by bit from the table. -/
theorem lop3Table : Obligations.Lop3Table := by
  intro h m d a b
  refine ⟨computes_val (fun _ => rfl), fun x y z f j hj => ?_⟩
  rw [lop3Val, ofBits_getLsbD (by decide), decide_eq_true hj, Bool.true_and]
  cases x.getLsbD j <;> cases y.getLsbD j <;> cases z.getLsbD j <;> rfl

/-! ### Bytes (R127) -/

theorem toNat_extractByte {w : Nat} (x : BitVec w) (k : Nat) : (x.extractLsb' (8 * k) 8).toNat = x.toNat / 256 ^ k % 256 := by
  rw [BitVec.extractLsb'_toNat, Nat.shiftRight_eq_div_pow, Nat.pow_mul]

theorem pair_toNat (l h : Word) : (Word.pair l h).toNat = h.toNat * 2 ^ 32 + l.toNat := by
  rw [Word.pair, BitVec.toNat_append, ← Nat.shiftLeft_add_eq_or_of_lt l.isLt, Nat.shiftLeft_eq]

/-- The sign of a byte is its top bit. -/
theorem byte_sign (v : Byte) : v.getLsbD 7 = decide (128 ≤ v.toNat) := by
  rw [← BitVec.msb_eq_getLsbD_last, BitVec.msb_eq_decide]

/-- The number a control byte gives out of the string x (R127). -/
def prmtNat (x c : Nat) : Nat :=
  let v := x / 256 ^ (c % 8) % 256
  if c / 8 % 4 = 0 then v else if c / 8 % 4 = 1 then 0 else if c / 8 % 4 = 2 then (if 128 ≤ v then 255 else 0) else 255

theorem prmtByte_toNat (x : DWord) (c : Byte) : (prmtByte x c).toNat = prmtNat x.toNat c.toNat := by
  unfold prmtByte prmtNat
  rw [← toNat_extractByte x]
  generalize x.extractLsb' (8 * (c.toNat % 8)) 8 = v
  have hmode : c.toNat / 8 % 4 < 4 := Nat.mod_lt _ (by decide)
  generalize c.toNat / 8 % 4 = k at hmode
  interval_cases k
  · rfl
  · rfl
  · simp only [byte_sign]
    by_cases h : 128 ≤ v.toNat <;> simp [h]
  · rfl

/-- Byte j of four bytes put together. -/
theorem extractByte_append (c : Nat → Byte) {j : Nat} (hj : j < 4) : ((c 3 ++ c 2 ++ c 1 ++ c 0).setWidth 64).extractLsb' (8 * j) 8 = c j := by
  refine BitVec.eq_of_getLsbD_eq (fun i hi => ?_)
  simp only [BitVec.getLsbD_extractLsb', BitVec.getLsbD_setWidth, BitVec.getLsbD_append, hi, decide_true, Bool.true_and]
  interval_cases j
  · simp [hi, show i < 64 by omega]
  · simp [hi, show 8 + i < 64 by omega]
  · simp [show ¬ 16 + i < 8 by omega, show 16 + i - 8 = 8 + i by omega, hi, show 16 + i < 64 by omega]
  · simp [show ¬ 24 + i < 8 by omega, show 24 + i - 8 = 16 + i by omega, show ¬ 16 + i < 8 by omega, show 16 + i - 8 = 8 + i by omega,
      show 24 + i < 64 by omega]

/-- Byte j of the result of PRMT is the byte that control byte j gives. -/
theorem prmtVal_byte (x y s : Word) {j : Nat} (hj : j < 4) :
    (prmtVal x y s).toNat / 256 ^ j % 256 = (prmtByte (Word.pair x y) (s.extractLsb' (8 * j) 8)).toNat := by
  rw [← toNat_extractByte]
  exact congrArg BitVec.toNat (extractByte_append (fun j => prmtByte (Word.pair x y) (s.extractLsb' (8 * j) 8)) hj)

/-- Settles O7: each byte of the result comes from one control byte, as `prmtNat` has it. -/
theorem permuteBytes : Obligations.PermuteBytes := by
  intro h m d a b
  refine ⟨computes_val (fun _ => rfl), fun x y s j hj => ?_⟩
  rw [prmtVal_byte x y s hj, prmtByte_toNat, pair_toNat, toNat_extractByte]
  rfl

/-! ### Bit fields (R126) -/

/-- Settles O8: a field of no bits is 0, and every other value is written out bit by bit. -/
theorem bitFields : Obligations.BitFields := by
  refine ⟨?bfe, ?bfi⟩
  case bfe =>
    intro ty a pos len j hj
    have hj64 : j < 64 := Nat.lt_of_lt_of_le hj (tyBits_le ty)
    unfold bfeVal
    by_cases hl : min len (tyBits ty) = 0
    · simp [hl]
    · simp only [hl, if_false]
      rw [ofBits_getLsbD (by decide), decide_eq_true hj64, Bool.true_and]
  case bfi =>
    intro ty d a pos len j hj
    rw [bfiVal, ofBits_getLsbD (tyBits_le ty), decide_eq_true hj, Bool.true_and]

/-! ### Counts and reversal (R124) -/

theorem length_filter_eq_sum {α : Type} (p : α → Bool) (l : List α) : (l.filter p).length = (l.map (fun x => (p x).toNat)).sum := by
  induction l with
  | nil => rfl
  | cons x l ih => cases h : p x <;> simp [h, ih, Nat.add_comm]

/-- A fold over the numbers below m that keeps the value of the last one that passes gives that of the highest. -/
theorem foldl_range_last {β : Type} (f : Nat → Bool) (v : Nat → β) (z : β) {k m : Nat} (hk : k < m) (hf : f k = true)
    (hlast : ∀ j, k < j → j < m → f j = false) : (List.range m).foldl (fun n j => if f j then v j else n) z = v k := by
  induction m with
  | zero => exact absurd hk (Nat.not_lt_zero k)
  | succ m ih =>
    rw [List.range_succ, List.foldl_append, List.foldl_cons, List.foldl_nil]
    rcases Nat.lt_succ_iff_lt_or_eq.1 hk with h | rfl
    · rw [hlast m h (Nat.lt_succ_self m), if_neg Bool.false_ne_true, ih h (fun j hj hm => hlast j hj (Nat.lt_succ_of_lt hm))]
    · rw [hf, if_pos rfl]

theorem toNat_ofNat_of_le_tyBits {ty : Ty} {n : Nat} (hn : n ≤ tyBits ty) : (BitVec.ofNat 64 n).toNat = n :=
  Nat.mod_eq_of_lt (Nat.lt_of_le_of_lt (Nat.le_trans hn (tyBits_le ty)) (by decide))

theorem popcVal_toNat (ty : Ty) (a : DWord) : (popcVal ty a).toNat = ((List.range (tyBits ty)).map (fun j => (a.getLsbD j).toNat)).sum := by
  have hle : ((List.range (tyBits ty)).filter (fun j => a.getLsbD j)).length ≤ tyBits ty :=
    Nat.le_trans (List.length_filter_le _ _) (Nat.le_of_eq List.length_range)
  rw [popcVal, toNat_ofNat_of_le_tyBits hle, length_filter_eq_sum]

theorem clzVal_toNat {ty : Ty} {a : DWord} {n : Nat} (hn : n < tyBits ty) (hset : a.getLsbD (tyBits ty - 1 - n) = true)
    (hclear : ∀ k, k < n → a.getLsbD (tyBits ty - 1 - k) = false) : (clzVal ty a).toNat = n := by
  have habove : ∀ j, tyBits ty - 1 - n < j → j < tyBits ty → a.getLsbD j = false := by
    intro j hj hw
    rw [show j = tyBits ty - 1 - (tyBits ty - 1 - j) by omega]
    exact hclear _ (by omega)
  have hfold := foldl_range_last (fun j => a.getLsbD j) (fun j => tyBits ty - 1 - j) (tyBits ty) (by omega) hset habove
  rw [clzVal, hfold, Nat.sub_sub_self (by omega), toNat_ofNat_of_le_tyBits (Nat.le_of_lt hn)]

theorem ctzVal_toNat {ty : Ty} {a : DWord} {n : Nat} (hn : n < tyBits ty) (hset : a.getLsbD n = true)
    (hclear : ∀ k, k < n → a.getLsbD k = false) : (ctzVal ty a).toNat = n := by
  have hfind : (List.range (tyBits ty)).find? (fun j => a.getLsbD j) = some n :=
    List.find?_range_eq_some.2 ⟨hset, List.mem_range.2 hn, fun j hj => by rw [hclear j hj]; rfl⟩
  rw [ctzVal, hfind, Option.getD_some, toNat_ofNat_of_le_tyBits (Nat.le_of_lt hn)]

theorem brevVal_getLsbD {ty : Ty} (a : DWord) {j : Nat} (hj : j < tyBits ty) : (brevVal ty a).getLsbD j = a.getLsbD (tyBits ty - 1 - j) := by
  rw [brevVal, ofBits_getLsbD (tyBits_le ty), decide_eq_true hj, Bool.true_and]

/-- Settles O9: the counts are those of the set bits, of the highest and of the lowest. -/
theorem bitCounts : Obligations.BitCounts :=
  ⟨popcVal_toNat, fun _ _ _ => clzVal_toNat, fun _ _ _ => ctzVal_toNat, fun ty => by cases ty <;> decide, fun _ a _ => brevVal_getLsbD a⟩

/-! ### The instructions -/

/-- Settles O4: each instruction passes the lane with `valBody` of its value. -/
theorem logicResults : Obligations.LogicResults := by
  intro h m d a b
  refine ⟨?_, ?_, ?_, ?_, ?_, ?_, ?_, ?_, ?_, ?_, ?_, ?_, ?_, ?_, ?_, ?_⟩
  all_goals exact computes_val (fun _ => rfl)

end Sys2Proof.Machine
end

section
/-! SUPPORT. Moves, compares and selections (R128 to R132, R139, R150, R151, R155, R191, R192) and indexed access (R133): what the bodies that
may wait or trap come to where they do neither. -/

namespace Sys2Proof.Machine

variable {c : TC} {s : State}

/-- A MOV that writes neither a queue nor a special register writes D. -/
theorem execMov_each {h : Hdr} {d a : Operand} (hq : ∀ n, d ≠ .q n) (hsr : ∀ n, d ≠ .sr n) (s : State) : exec (.mov h d a) s =
    laneEach (.mov h d a) true false .int .int (valBody (fun c => c.av)) s := by
  show execMov h d a s = _
  unfold execMov
  split
  · next n => exact absurd rfl (hq n)
  · next n => exact absurd rfl (hsr n)
  · rfl

/-- An entry without a trap of its own for these operands does what its body does. -/
theorem withEarly_none {e : Early} {body : TC → State → TRes} (h : e c s = none) : withEarly e body c s = body c s := by
  rw [withEarly, h]

/-- A timeline read whose schedule reference, if it has one, has its ZERO bits zero raises no trap (R383). -/
theorem refEarly_none {k : Tctx} {f : TC → DWord} {l : TC → List Loc} {ok : TC → Bool} (h : k = .sched → schedRefBad (f c).lo = false) :
    refEarly k f l ok c s = none := by
  unfold refEarly
  by_cases hk : k = .sched
  · simp [h hk]
  · simp [hk]

/-- Settles O10: the moves write D without a premise; SEL, P2V and the timeline reads take, under theirs, the one branch that writes. -/
theorem moveResults : Obligations.MoveResults := by
  refine ⟨?mov, ?movSpecial, ?movQueue, ?movi, ?mov64, ?iset, ?selWrites, ?sel, ?p2v, ?fclass, ?tlrd, ?tltag⟩
  case mov =>
    intro h d a hq hsr
    exact computes_val (execMov_each hq hsr)
  case movSpecial =>
    intro h n a
    exact laneEach_completes true false .int .int _ Always _ (fun _ => rfl) (fun _ _ _ => rfl)
  case movQueue =>
    intro h n a
    exact laneOnce_completes .int .int _ _ _ (fun _ => rfl) (fun _ _ hroom => if_neg (Nat.not_le.2 hroom))
  case movi =>
    intro h d k
    exact computes_val (fun _ => rfl)
  case mov64 =>
    intro h hnd d a
    exact computes_done (fun _ => rfl) (fun _ _ _ => rfl)
  case iset =>
    intro h ty rel d a b
    exact computes_val (fun _ => rfl)
  case selWrites =>
    intro h ty d a b
    exact computes_done (fun _ => rfl) (fun _ _ hP => congrArg TRes.done (if_pos (bne_iff_ne.2 hP)))
  case sel =>
    intro h ty d a b
    exact laneEach_completes false false .int .int _ Always _ (fun _ => rfl) (fun c s _ => by simp)
  case p2v =>
    intro h ty d ps P
    have hready : ∀ c s, P c s → ¬ (ps c s).any (fun p => !s.avail c.wk (.pred c.t p)) = true :=
      fun c s hP => by simpa [P, ps] using hP
    exact ⟨writes_then (fun _ => rfl) (fun _ _ _ _ _ => onlyRegs_watchCells _ _ _) (fun c s hP => if_neg (hready c s hP)),
      laneEach_completes false false .int .int _ _ _ (fun _ => rfl) (fun c s hP => if_neg (hready c s hP))⟩
  case fclass =>
    intro h m d a
    exact computes_val (fun _ => rfl)
  case tlrd =>
    intro h k d a
    exact computes_done (fun _ => rfl) (fun _ _ hP => withEarly_none (refEarly_none hP))
  case tltag =>
    intro h k d a
    exact computes_done (fun _ => rfl) (fun _ _ hP => withEarly_none (refEarly_none hP))

/-- Settles O11: no body among these waits or traps. -/
theorem predicateResults : Obligations.PredicateResults := by
  refine ⟨?isetp, ?psetp, ?v2p, ?testf, ?fsetp, ?hsetp2⟩
  case isetp =>
    intro h ty rel d a b
    exact laneEach_completes false false .int .int _ Always _ (fun _ => rfl) (fun _ _ _ => rfl)
  case psetp =>
    intro h ty tt d a b
    exact laneEach_completes false false .int .int _ Always _ (fun _ => rfl) (fun c s _ => by simp)
  case v2p =>
    intro h ty a b
    exact laneEach_completes false false .int .int _ Always _ (fun _ => rfl) (fun _ _ _ => rfl)
  case testf =>
    intro h d a
    exact laneEach_completes false false .int .int _ Always _ (fun _ => rfl) (fun _ _ _ => rfl)
  case fsetp =>
    intro h m d a b
    exact laneEarly_completesFp false .f32 .f32 noEarly _ Always _ (fun _ => rfl) (fun _ _ _ => rfl)
  case hsetp2 =>
    intro h m d a b
    exact laneEarly_completesFp false .half .half noEarly _ Always _ (fun _ => rfl) (fun _ _ _ => rfl)

/-! ### MOVX and STX (R133) -/

/-- The register of MOVX and STX, whose number lies below its allocation. -/
theorem movxLoc_inside {sp : Bool}
    (h : (c.av.lo + c.bv.lo).toNat < (if sp then (s.warp c.wk).alloc.ns else (s.warp c.wk).alloc.nv)) :
    s.movxLoc sp c = .ok (if sp then .s c.wk (c.av.lo + c.bv.lo).toNat else .v c.wk c.t (c.av.lo + c.bv.lo).toNat) := by
  unfold State.movxLoc
  cases sp with
  | true => exact if_pos h
  | false => exact if_pos h

/-- Settles O18: with the register inside its allocation and available, neither instruction waits or traps. -/
theorem indexedMoves : Obligations.IndexedMoves := by
  intro h sp d a b reg inside
  refine ⟨?movx, ?stx⟩
  case movx =>
    refine laneEarly_completes sp false .int .int _ _ _ _ (fun _ => rfl) ?_
    intro c s ⟨hin, hread, hpois⟩
    have hloc : s.movxLoc sp c = .ok (reg c) := movxLoc_inside hin
    simp [hloc, hread, hpois]
  case stx =>
    refine laneEarly_completes sp false .int .int _ _ _ _ (fun _ => rfl) ?_
    intro c s ⟨hin, hwrite, hfree⟩
    have hloc : s.movxLoc sp c = .ok (reg c) := movxLoc_inside hin
    have hroom : (((s.run c.key).bind (fun r => r.ind)).isSome || s.rangeRoom c.wk 1) = true := by
      rw [Bool.or_eq_true]
      exact hfree
    simp only [hloc, hwrite, hroom]
    rfl

end Sys2Proof.Machine
end

section
/-! SUPPORT. Warp collectives (R134, R135): what a gather of ready registers comes to, the source threads of SHFL, and the votes. -/

namespace Sys2Proof.Machine

/-! ### Gathering -/

/-- A register that is ready for a gather is not waited for. -/
theorem State.GatherReady.not_waits {s : State} {wk u i : Nat} (h : s.GatherReady wk u i) :
    (!(!(s.thread wk u).live) && !s.readable (.v wk u i)) = false := by
  unfold State.GatherReady at h
  cases hl : (s.thread wk u).live with
  | false => rfl
  | true =>
    rw [hl, if_pos rfl] at h
    simp [h.1]

/-- Nor is it poisoned: of a thread that has left, what counts is the poison at its EXIT. -/
theorem State.GatherReady.clean {s : State} {wk u i : Nat} (h : s.GatherReady wk u i) :
    (if !(s.thread wk u).live then Fmap.get false (s.thread wk u).exitPois (granOf i) else s.pois (.v wk u i)) = false := by
  unfold State.GatherReady at h
  cases hl : (s.thread wk u).live with
  | false => rwa [hl, if_neg Bool.false_ne_true] at h
  | true =>
    rw [hl, if_pos rfl] at h
    exact h.2

/-- What a gather reads is what the register holds, or held at the EXIT of its thread. -/
theorem gathered_eq (s : State) (wk u i : Nat) :
    (if !(s.thread wk u).live then Fmap.get 0 (s.thread wk u).exitV i else s.readLoc (.v wk u i)) = s.gathered wk u i := by
  unfold State.gathered
  cases (s.thread wk u).live <;> rfl

/-- A gather of registers that are all ready neither waits nor traps: it writes into each D what was read before any write. -/
theorem gather_ready {src : TC → Nat} {i : Nat} {cs : List TC} {s : State} (h : ∀ c ∈ cs, s.GatherReady c.wk (src c) i) :
    s.gather src i cs = .done (foldS (cs.map (fun c => (c, s.gathered c.wk (src c) i))) s (fun s p => s.writeD1 p.1.d p.2)) [] := by
  have hwait : cs.any (fun c => !(!(s.thread c.wk (src c)).live) && !s.readable (.v c.wk (src c) i)) = false :=
    List.any_eq_false.2 (fun c hc => by rw [(h c hc).not_waits]; exact Bool.false_ne_true)
  simp only [State.gather, hwait, gathered_eq, Bool.false_eq_true, if_false]
  refine congrArg₂ ARes.done ?_ ?_
  · rw [List.filter_eq_self.2 (fun c hc => by rw [(h c hc).clean]; rfl)]
  · rw [List.filter_eq_nil_iff.2 (fun c hc => by rw [(h c hc).clean]; exact Bool.false_ne_true), List.map_nil]

/-- Settles O19: each body ends with writes alone, for SHFL and BCAST by `gather_ready`. -/
theorem collectives : Obligations.Collectives := by
  refine ⟨?shfl, ?bcast, ?vote, ?redux⟩
  case shfl =>
    intro h mode d a b
    exact laneAll_completes _ _ _ (fun _ => rfl) (fun _ _ hP => gather_ready hP)
  case bcast =>
    intro h d a b
    exact laneAll_completes _ _ _ (fun _ => rfl) (fun _ _ hP => gather_ready hP)
  case vote =>
    intro h kind d a
    exact laneAll_completes _ _ _ (fun _ => rfl) (fun _ _ _ => rfl)
  case redux =>
    intro h ty oper d a
    refine laneAll_completes _ _ _ (fun s => show execRedux h ty oper d a s = _ from rfl) (fun cs s _ => ?_)
    cases cs.map (fun c => c.av.lo) with
    | nil => rfl
    | cons x xs => rfl

/-! ### Source threads of SHFL (R134) -/

theorem shflSrc_xor_lt {t : Nat} (b : DWord) (ht : t < 32) : shflSrc .xor t b < 32 :=
  Nat.xor_lt_two_pow (n := 5) ht (Nat.mod_lt _ (by decide))

theorem shflSrc_xor_xor (t : Nat) (b : DWord) : shflSrc .xor (shflSrc .xor t b) b = t := by
  simp only [shflSrc]
  rw [Nat.xor_assoc, Nat.xor_self, Nat.xor_zero]

/-- The operand of a segment of 2^g threads and a distance of k (R134). -/
theorem shflSrc_seg (t : Nat) {g k : Nat} (hg : g ≤ 5) (hk : k < 32) :
    shflSrc .seg t (BitVec.ofNat 64 (32 * g + k)) = t / 2 ^ g * 2 ^ g + (t + k) % 2 ^ g := by
  have hb : (BitVec.ofNat 64 (32 * g + k)).toNat = 32 * g + k := Nat.mod_eq_of_lt (by omega)
  have hseg : min 5 ((32 * g + k) / 32 % 8) = g := by omega
  have hdist : (32 * g + k) % 32 = k := by omega
  simp only [shflSrc, hb, hseg, hdist]

theorem shflSrc_ext (t : Nat) (b : DWord) : shflSrc .ext t b =
    if 0 ≤ (t : Int) + (b.extractLsb' 0 6).toInt ∧ (t : Int) + (b.extractLsb' 0 6).toInt ≤ 31 then ((t : Int) + (b.extractLsb' 0 6).toInt).toNat
    else t := by
  simp only [shflSrc]
  generalize (t : Int) + (b.extractLsb' 0 6).toInt = u
  by_cases h : 0 ≤ u ∧ u ≤ 31
  · rw [if_neg (by omega), if_pos h]
  · rw [if_pos (by omega), if_neg h]

/-! ### Votes (R134) -/

theorem mem_votes {cs : List TC} {t : Nat} : t ∈ votes cs ↔ ∃ c ∈ cs, c.av ≠ 0 ∧ c.t = t := by
  simp [votes, and_assoc]

theorem votes_length (cs : List TC) : (votes cs).length = (cs.filter (fun c => c.av != 0)).length := List.length_map _

theorem votes_all (cs : List TC) : ((votes cs).length == cs.length) = cs.all (fun c => c.av != 0) := by
  rw [votes_length, Bool.eq_iff_iff, beq_iff_eq, List.length_filter_eq_length_iff, List.all_eq_true]

theorem votes_isEmpty (cs : List TC) : (votes cs).isEmpty = cs.all (fun c => c.av == 0) := by
  rw [votes, List.isEmpty_map, Bool.eq_iff_iff, List.isEmpty_iff, List.filter_eq_nil_iff, List.all_eq_true]
  simp

/-- A truth value of VOTE is not 0 where it is true. -/
theorem flag_ne_zero (x : Bool) : ((if x then 1 else 0 : Word) != 0) = x := by
  cases x <;> rfl

/-- Settles O20: a segment is a quotient by a power of two, and every vote is a fact about the threads that `votes` keeps. -/
theorem collectiveValues : Obligations.CollectiveValues := by
  refine ⟨fun _ _ => rfl, fun t b ht => ⟨shflSrc_xor_lt b ht, shflSrc_xor_xor t b⟩, ?seg, fun t b _ => shflSrc_ext t b, ?mask, ?count, ?all, ?any, ?none, ?same⟩
  case seg =>
    intro t g k _ hg hk
    have hlt : (t + k) % 2 ^ g < 2 ^ g := Nat.mod_lt _ (by positivity)
    rw [shflSrc_seg t hg hk, Nat.mul_comm]
    exact ⟨by rw [Nat.mul_add_div (by positivity), Nat.div_eq_of_lt hlt, Nat.add_zero], by rw [Nat.mul_add_mod, Nat.mod_eq_of_lt hlt]⟩
  case mask =>
    intro cs hlt hnodup c hc
    have hown : c.t ∈ votes cs ↔ c.av ≠ 0 := by
      rw [mem_votes]
      constructor
      · rintro ⟨c2, hc2, hav, ht⟩
        rwa [← List.inj_on_of_nodup_map hnodup hc2 hc ht]
      · exact fun hav => ⟨c, hc, hav, rfl⟩
    show (maskOf (votes cs)).getLsbD c.t = _
    rw [maskOf_getLsbD _ (hlt c hc), Bool.eq_iff_iff, decide_eq_true_iff, hown, bne_iff_ne]
  case count =>
    intro cs hlen
    have hle := List.length_filter_le (fun c : TC => c.av != 0) cs
    show (BitVec.ofNat 32 (votes cs).length).toNat = _
    rw [votes_length]
    exact Nat.mod_eq_of_lt (by omega)
  case all =>
    intro cs
    exact (flag_ne_zero _).trans (votes_all cs)
  case any =>
    intro cs
    refine (flag_ne_zero _).trans ?_
    rw [votes_isEmpty, List.not_all_eq_any_not]
    rfl
  case none =>
    intro cs
    exact (flag_ne_zero _).trans (votes_isEmpty cs)
  case same =>
    intro cs
    refine (flag_ne_zero _).trans ?_
    rw [votes_isEmpty, votes_all, Bool.or_comm]

end Sys2Proof.Machine
end

section
/-! SUPPORT. Floating point (R142 to R161): the results and conditions of the F32, packed and conversion instructions, from the shared bodies that
write D and raise conditions. -/

namespace Sys2Proof.Machine

variable {i : Instr} {m : Arith} {b : Operand}

/-- An instruction whose body, where `P` holds, gives out the result `r` computes it, with the conditions of `r` (R142). -/
theorem computesFp_out {uni : Bool} {ka kb : ImmK} {body : TC → State → TRes} {P : TC → State → Prop} (r : TC → State → Nat × Word)
    (he : ∀ s, exec i s = laneEach i uni false ka kb body s) (hb : ∀ c s, P c s → body c s = fpOut c s (r c s)) :
    ComputesFp i uni ka kb P (fun c s => (BitVec.ofNat 64 (r c s).1, (r c s).2)) :=
  computesFp_fp he hb

/-! ### F32 (R143 to R153) -/

/-- The result of an operation on the decoded F32 values of A, B and the old D (R143, R144). -/
def f32Val (m : Arith) (b : Operand) (f : FVal → FVal → FVal → Nat × Word) (c : TC) : Nat × Word :=
  satIf fF32 m.sat (f (fF32.decode (codeA fF32 m c.av.lo.toNat)) (fF32.decode (codeB fF32 m b c.bv.lo.toNat)) (fF32.decode c.dv.lo.toNat))

theorem computesFp_f32Body (f : FVal → FVal → FVal → Nat × Word) (he : ∀ s, exec i s = laneEach i true false .f32 .f32 (f32Body m b f) s) :
    ComputesFp i true .f32 .f32 Always (fun c _ => (BitVec.ofNat 64 (f32Val m b f c).1, (f32Val m b f c).2)) :=
  computesFp_out (fun c _ => f32Val m b f c) he (fun _ _ _ => rfl)

/-- An operation on the codes of A and B (R143), whose result SAT leaves alone. -/
theorem computesFp_f32Code (f : Nat → Nat → Nat × Word) (he : ∀ s, exec i s = laneEach i true false .f32 .f32 (f32Code m b f) s) :
    ComputesFp i true .f32 .f32 Always (fun c _ =>
      let r := f (codeA fF32 m c.av.lo.toNat) (codeB fF32 m b c.bv.lo.toNat)
      (BitVec.ofNat 64 r.1, r.2)) :=
  computesFp_out (fun c _ => f (codeA fF32 m c.av.lo.toNat) (codeB fF32 m b c.bv.lo.toNat)) he (fun _ _ _ => rfl)

/-- Settles O13: the arithmetic is `f32Body` of its operation on values, the selections and roundings are `f32Code` of theirs on codes, and
FSCALE alone reads B as an integer. -/
theorem floatResults : Obligations.FloatResults := by
  intro h m d a b
  refine ⟨?fadd, ?fsub, ?fmul, ?ffma, ?fdiv, ?fmin, ?fmax, ?fminm, ?fmaxm, ?frnd, ?ffrc, ?fscale, ?fgetexp⟩
  case fadd => exact computesFp_f32Body (fun x y _ => fF32.add m.rnd x y) (fun _ => rfl)
  case fsub => exact computesFp_f32Body (fun x y _ => fF32.add m.rnd x y.neg) (fun _ => rfl)
  case fmul => exact computesFp_f32Body (fun x y _ => fF32.mul m.rnd x y) (fun _ => rfl)
  case ffma => exact computesFp_f32Body (fun x y z => fF32.fma m.rnd x y z) (fun _ => rfl)
  case fdiv => exact computesFp_f32Body (fun x y _ => fF32.div m.rnd x y) (fun _ => rfl)
  case fmin => exact computesFp_f32Code (fF32.minmax false false) (fun _ => rfl)
  case fmax => exact computesFp_f32Code (fF32.minmax true false) (fun _ => rfl)
  case fminm => exact computesFp_f32Code (fF32.minmax false true) (fun _ => rfl)
  case fmaxm => exact computesFp_f32Code (fF32.minmax true true) (fun _ => rfl)
  case frnd => exact computesFp_f32Code (fun x _ => frnd m.rnd x) (fun _ => rfl)
  case ffrc => exact computesFp_f32Code (fun x _ => ffrc x) (fun _ => rfl)
  case fscale => exact computesFp_out (fun c _ => fscale m.rnd (codeA fF32 m c.av.lo.toNat) c.bv.lo.toInt) (fun _ => rfl) (fun _ _ _ => rfl)
  case fgetexp => exact computesFp_f32Code (fun x _ => fgetexp x) (fun _ => rfl)

/-- Settles O14: each function is `f32Body` of an operation that looks at A alone. -/
theorem elementaryResults : Obligations.ElementaryResults := by
  intro h m d a
  refine ⟨?fsqrt, ?frcp, ?frsq, ?fexp2, ?flog2, ?fsinpi, ?fcospi, ?ftanh⟩
  case fsqrt => exact computesFp_f32Body (fun x _ _ => fF32.sqrt m.rnd x) (fun _ => rfl)
  case frcp => exact computesFp_f32Body (fun x _ _ => fF32.rcp m.rnd x) (fun _ => rfl)
  case frsq => exact computesFp_f32Body (fun x _ _ => fF32.rsq m.rnd x) (fun _ => rfl)
  case fexp2 => exact computesFp_f32Body (fun x _ _ => fF32.exp2 m.rnd x) (fun _ => rfl)
  case flog2 => exact computesFp_f32Body (fun x _ _ => fF32.log2 m.rnd x) (fun _ => rfl)
  case fsinpi => exact computesFp_f32Body (fun x _ _ => fF32.sinpi m.rnd x) (fun _ => rfl)
  case fcospi => exact computesFp_f32Body (fun x _ _ => fF32.cospi m.rnd x) (fun _ => rfl)
  case ftanh => exact computesFp_f32Body (fun x _ _ => fF32.tanh m.rnd x) (fun _ => rfl)

/-! ### Packed F16 and B16 (R154, R155) -/

/-- The result of an operation on the decoded values of half k of A, B and the old D. -/
def halfVal (m : Arith) (b : Operand) (f : FVal → FVal → FVal → Nat × Word) (c : TC) (k : Nat) : Nat × Word :=
  let g := halfFmt m.ty
  satIf g m.sat (f (g.decode (codeA g m (halfOf c.av k))) (g.decode (codeB g m b (halfOf c.bv k))) (g.decode (halfOf c.dv k)))

theorem computesFp_halfBody (f : FVal → FVal → FVal → Nat × Word) (he : ∀ s, exec i s = laneEach i true false .half .half (halfBody m b f) s) :
    ComputesFp i true .half .half Always (fun c _ =>
      let r := halves (halfVal m b f c)
      (BitVec.ofNat 64 r.1, r.2)) :=
  computesFp_out (fun c _ => halves (halfVal m b f c)) he (fun _ _ _ => rfl)

/-- An operation on the codes of each half of A and B. -/
theorem computesFp_halfCode (f : Nat → Nat → Nat × Word) (he : ∀ s, exec i s = laneEach i true false .half .half (halfCode m b f) s) :
    ComputesFp i true .half .half Always (fun c _ =>
      let g := halfFmt m.ty
      let r := halves (fun k => f (codeA g m (halfOf c.av k)) (codeB g m b (halfOf c.bv k)))
      (BitVec.ofNat 64 r.1, r.2)) :=
  computesFp_out (fun c _ => halves (fun k => f (codeA (halfFmt m.ty) m (halfOf c.av k)) (codeB (halfFmt m.ty) m b (halfOf c.bv k)))) he
    (fun _ _ _ => rfl)

/-- Settles O15: the arithmetic is `halfBody` of its operation on values, and the selections are `halfCode` of theirs on codes. -/
theorem packedResults : Obligations.PackedResults := by
  intro h m d a b g
  refine ⟨?hadd2, ?hmul2, ?hfma2, ?hmin2, ?hmax2⟩
  case hadd2 => exact computesFp_halfBody (fun x y _ => g.add m.rnd x y) (fun _ => rfl)
  case hmul2 => exact computesFp_halfBody (fun x y _ => g.mul m.rnd x y) (fun _ => rfl)
  case hfma2 => exact computesFp_halfBody (fun x y z => g.fma m.rnd x y z) (fun _ => rfl)
  case hmin2 => exact computesFp_halfCode (g.minmax false false) (fun _ => rfl)
  case hmax2 => exact computesFp_halfCode (g.minmax true false) (fun _ => rfl)

/-! ### Conversions (R156 to R161) -/

/-- Registers all of which meet `p` and none of which meets `q`: none fails `p`, and none that meets `q` is found. -/
theorem any_false_find_none_of_all {p q : Loc → Bool} {ls : List Loc} (h : ls.all (fun l => p l && !q l) = true) :
    ls.any (fun l => !p l) = false ∧ ls.find? q = none := by
  have hl : ∀ l ∈ ls, p l = true ∧ q l = false := fun l hl => by simpa using List.all_eq_true.1 h l hl
  exact ⟨List.any_eq_false.2 (fun l h => by simp [(hl l h).1]), List.find?_eq_none.2 (fun l h => by simp [(hl l h).2])⟩

/-- Settles O16: with a slot that serves, and the element's registers in the allocation and available, no conversion waits or traps. -/
theorem convertResults : Obligations.ConvertResults := by
  refine ⟨?fcvt, ?f2i, ?i2f, ?fpack, ?funpack, ?qblk⟩
  case fcvt =>
    intro h rnd dirFrom slot d a
    exact computesFp_out _ (fun _ => rfl) (fun c s hplain => if_neg (by simp [hplain]))
  case f2i =>
    intro h rnd dt sf d a
    exact computesFp_fp (fun _ => rfl) (fun _ _ _ => rfl)
  case i2f =>
    intro h rnd df st d a
    exact computesFp_out _ (fun _ => rfl) (fun _ _ _ => rfl)
  case fpack =>
    intro h rnd slot d a b
    refine laneEarly_completesFp false .f32 .int _ _ _ _ (fun _ => rfl) ?_
    intro c s ⟨hplain, hin, hready, hfree⟩
    obtain ⟨havail, hclean⟩ := any_false_find_none_of_all hready
    have hroom : (((s.run c.key).bind (fun r => r.ind)).isSome || s.rangeRoom c.wk 1) = true := by
      rw [Bool.or_eq_true]
      exact hfree
    simp only [Bool.not_and] at havail
    simp only [hin, havail, hclean, hroom, hplain]
    rfl
  case funpack =>
    intro h slot d a b
    refine laneEarly_completesFp false .int .int _ _ _ _ (fun _ => rfl) ?_
    intro c s ⟨hplain, hin, hready⟩
    obtain ⟨havail, hclean⟩ := any_false_find_none_of_all hready
    simp only [hin, havail, hclean, hplain]
    rfl
  case qblk =>
    intro h j slot d a
    refine computesFp_fp (fun _ => rfl) ?_
    intro c s ⟨hfmt, hscale⟩
    obtain ⟨emax, hemax⟩ := Option.isSome_iff_exists.1 hfmt
    simp only [hemax, hscale, Option.getD_some]

end Sys2Proof.Machine
end

section
/-! SUPPORT. Registers written in turn (R59, R345): what a write of several keeps, and what they read afterwards. -/

namespace Sys2Proof.Machine

/-! ### Folds over states -/

theorem foldS_map {α β : Type} (g : α → β) (f : State → β → State) (l : List α) (s : State) :
    foldS (l.map g) s f = foldS l s (fun s a => f s (g a)) := List.foldl_map

theorem foldS_congr {α : Type} {l : List α} {f g : State → α → State} (h : ∀ s, ∀ a ∈ l, f s a = g s a) (s : State) :
    foldS l s f = foldS l s g := List.foldl_ext _ _ _ (fun s a ha => h s a ha)

/-! ### What a write keeps -/

section
variable {β : Type} (p : State → β)

/-- What an update of a thread and one of a warp keep, a write of a register keeps. -/
theorem writeLoc_keeps (ht : ∀ (s : State) (wk t : Nat) (x : Thread), p (s.setThread wk t x) = p s)
    (hw : ∀ (s : State) (wk : Nat) (x : Warp), p (s.setWarp wk x) = p s) (s : State) (l : Loc) (x : Word) : p (s.writeLoc l x) = p s := by
  have hclear : p (s.clearPois l) = p s := by
    unfold State.clearPois
    split
    · cases l with
      | v wk t i => exact ht ..
      | s wk i => exact hw ..
    · rfl
  refine Eq.trans ?_ hclear
  cases l with
  | v wk t i => exact ht ..
  | s wk i => exact hw ..

theorem writeLocs_keeps (ht : ∀ (s : State) (wk t : Nat) (x : Thread), p (s.setThread wk t x) = p s)
    (hw : ∀ (s : State) (wk : Nat) (x : Warp), p (s.setWarp wk x) = p s) (ls : List Loc) (xs : List Word) (s : State) :
    p (s.writeLocs ls xs) = p s := by
  induction ls generalizing xs s with
  | nil => rfl
  | cons l ls ih =>
    cases xs with
    | nil => rfl
    | cons x xs => exact (ih xs (s.writeLoc l x)).trans (writeLoc_keeps p ht hw s l x)

end

@[simp] theorem writeLocs_clk (ls : List Loc) (xs : List Word) (s : State) : (s.writeLocs ls xs).clk = s.clk :=
  writeLocs_keeps State.clk (fun _ _ _ _ => rfl) (fun _ _ _ => rfl) ls xs s

/-! ### What registers read -/

section
variable {ds tk : List Loc} {own : Nat → Nat → Thread → Thread} {s u : State}

theorem onlyRegs_writeLocs {ls : List Loc} (hl : ∀ l ∈ ls, l.Ok) (hm : ∀ l ∈ ls, l ∈ ds) (xs : List Word) :
    OnlyRegs ds tk own s (s.writeLocs ls xs) := by
  induction ls generalizing xs s with
  | nil => exact OnlyRegs.refl ..
  | cons l ls ih =>
    cases xs with
    | nil => exact OnlyRegs.refl ..
    | cons x xs =>
      exact (onlyRegs_writeLoc l (hl l List.mem_cons_self) (hm l List.mem_cons_self) x).trans
        (ih (fun m h => hl m (List.mem_cons_of_mem l h)) (fun m h => hm m (List.mem_cons_of_mem l h)) xs)

/-- A change of registers alone leaves what is due in them (R68). -/
theorem OnlyRegs.pend (p : OnlyRegs ds tk (fun _ _ x => x) s u) {l : Loc} (hl : l.Ok) : u.pend l = s.pend l := by
  cases l with
  | v wk t i =>
    have h : (u.thread wk t).rest = (s.thread wk t).rest := p.threads wk t hl
    show Fmap.get 0 (u.thread wk t).rest.vPend i = Fmap.get 0 (s.thread wk t).rest.vPend i
    rw [h]
  | s wk i =>
    show Fmap.get 0 (u.warp wk).rest.sPend i = Fmap.get 0 (s.warp wk).rest.sPend i
    rw [p.warps wk]

end

/-- Distinct registers that are written in turn hold the words written: a later write clears no poison of a granule written before. -/
theorem readLoc_writeLocs {ls : List Loc} (hn : ls.Nodup) (hl : ∀ l ∈ ls, l.Ok) {xs : List Word} (hx : xs.length = ls.length) (s : State) :
    ls.map (s.writeLocs ls xs).readLoc = xs := by
  induction ls generalizing xs s with
  | nil => exact (List.length_eq_zero_iff.1 hx).symm
  | cons l ls ih =>
    cases xs with
    | nil => cases hx
    | cons x xs =>
      obtain ⟨hout, hn⟩ := List.nodup_cons.1 hn
      have hok : ∀ m ∈ ls, m.Ok := fun m h => hl m (List.mem_cons_of_mem l h)
      have hrest : OnlyRegs ls [] (fun _ _ x => x) (s.writeLoc l x) ((s.writeLoc l x).writeLocs ls xs) := onlyRegs_writeLocs hok (fun _ h => h) xs
      have hfirst : ((s.writeLoc l x).writeLocs ls xs).readLoc l = x :=
        (hrest.regs l (hl l List.mem_cons_self) hout (.inr (pois_writeLoc_self s l x))).trans (readLoc_writeLoc_self s l x)
      exact congrArg₂ List.cons hfirst (ih hn hok (by simpa using hx) (s.writeLoc l x))

theorem wordsOf_length (n x : Nat) : (wordsOf n x).length = n := by
  induction n generalizing x with
  | zero => rfl
  | succ n ih => simp [wordsOf, ih]

end Sys2Proof.Machine
end

section
/-! SUPPORT. The copy engine's commands (R174 to R190): what the bodies of its instructions come to where their command may enter its queue. -/

namespace Sys2Proof.Machine

variable {c : TC} {s : State}

/-- Once no access of the active threads is due, an issue does what its command asks (R176). -/
theorem issueBody_free {f : TC → State → TRes} (h : s.issueDue c.wk c.act = []) : issueBody f c s = f c s := by
  unfold issueBody
  rw [h]

/-- A CPY of all its threads enters its command (R180). -/
theorem cpyIssue_done {i : Instr} {c0 : TC} {cs : List TC} (hdue : s.issueDue c0.wk (maskOf ((c0 :: cs).map (fun c => c.t))) = [])
    (hroom : s.queueFull (parent c0.wk) false = false) (hrng : s.rangeRoom c0.wk (cpyRngs i (c0 :: cs)).length = true)
    (hw : s.lendW (cpyStat (c0 :: cs) ++ cpyDstRegs i (c0 :: cs)) = true) (hr : s.lendR (cpySrcRegs i (c0 :: cs)) = true)
    (hfoot : s.footBusy (s.cpyCmd i c0 (c0 :: cs)) = false) :
    cpyIssue i (c0 :: cs) s = .done ((s.takeNum (parent c0.wk) false).enqueue (s.cpyCmd i c0 (c0 :: cs)) (cpyRngs i (c0 :: cs))) [] := by
  unfold cpyIssue
  simp only [hdue, hroom, hrng, hw, hr, hfoot]
  rfl

/-- A pull or a multicast enters its queue where there is room and what it writes of its own warp may be lent (R69). -/
theorem enqueueWin_done {x : Cmd} {num : State → State} (h : s.WinFree c x) :
    s.enqueueWin c x num = .done ((num s).enqueue x (spanRng true c.d ++ s.ownRngs x)) := by
  obtain ⟨-, hroom, hrng, hw⟩ := h
  simp only [State.enqueueWin, hroom, hrng, hw]
  rfl

theorem winBody_done {x : TC → State → Cmd} {num : TC → State → State} (h : s.WinFree c (x c s)) :
    issueBody (fun c s => s.enqueueWin c (x c s) (num c)) c s = .done ((num c s).enqueue (x c s) (spanRng true c.d ++ s.ownRngs (x c s))) :=
  (issueBody_free h.1).trans (enqueueWin_done h)

/-- A command that acts once and names no register enters a queue with room (R175, R182). -/
theorem onceBody_done {x : TC → State → State} (hdue : s.issueDue c.wk c.act = []) (hroom : s.queueFull c.wk false = false) :
    issueBody (fun c s => if s.queueFull c.wk false then .wait s else .done (x c s)) c s = .done (x c s) := by
  rw [issueBody_free hdue, if_neg (by simp [hroom])]

/-- Settles O26: each premise is one guard of its body, and none of them holds the command up. -/
theorem copyIssue : Obligations.CopyIssue := by
  refine ⟨?cpy, ?tcopy, ?tsld, ?tsev, ?cpym, ?pull⟩
  case cpy =>
    intro h size dsp ssp d a b i
    refine laneAll_completes _ _ _ (fun _ => rfl) (fun cs s hP => ?_)
    cases cs with
    | nil => rfl
    | cons c0 cs =>
      obtain ⟨hdue, hroom, hrng, hw, hr, hfoot⟩ := hP
      exact cpyIssue_done hdue hroom hrng hw hr hfoot
  case tcopy =>
    intro h sto kvm g d a b i
    refine laneOnce_completes .int .int _ _ _ (fun _ => rfl) (fun c s hP => ?_)
    obtain ⟨hdue, hparam, hroom, hrng, hw, hside, hfoot⟩ := hP
    obtain ⟨havail, hclean⟩ := any_false_find_none_of_all hparam
    rw [issueBody_free hdue]
    simp only [i] at hfoot
    simp only [havail, hclean, hroom, hrng, hw, hside, hfoot]
    rfl
  case tsld =>
    intro h g d a b i
    exact laneOnce_completes .int .int _ _ _ (fun _ => rfl) (fun _ _ ⟨hdue, hroom⟩ => onceBody_done hdue hroom)
  case tsev =>
    intro h g d i
    exact laneOnce_completes .int .int _ _ _ (fun _ => rfl) (fun _ _ ⟨hdue, hroom⟩ => onceBody_done hdue hroom)
  case cpym =>
    intro h g d a i x
    exact laneOnce_completes .int .int _ _ _ (fun _ => rfl) (fun _ _ hfree => winBody_done hfree)
  case pull =>
    intro h ack g d a i
    exact laneOnce_completes .int .int _ _ _ (fun _ => rfl) (fun _ _ hfree => winBody_done (x := fun c s => s.pullCmd i g c) hfree)

end Sys2Proof.Machine
end

section
/-! SUPPORT. Results in D of every active thread (R209, R218, R246), and the notices (R188, R189, R347): what an instruction that writes them at once,
or holds its threads until they come, comes to where every D is ready. -/

namespace Sys2Proof.Machine

variable {c : TC} {s : State}

/-! ### D of every active thread -/

theorem prepOp_of_destsReady (h : s.DestsReady c) {t : Nat} (ht : t ∈ maskList c.act) :
    s.prepOp c.wk t c.g.d = .ok (s.prepOp c.wk t c.g.d).locs := by
  obtain ⟨ls, hls⟩ := h t ht
  rw [hls]
  rfl

/-- Where every D is ready, none is waited for. -/
theorem any_wait_false (h : s.DestsReady c) :
    ((maskList c.act).map (fun t => (t, s.prepOp c.wk t c.g.d))).any (fun p => p.2 == .wait) = false := by
  rw [List.any_eq_false]
  intro p hp
  obtain ⟨t, ht, rfl⟩ := List.mem_map.1 hp
  rw [prepOp_of_destsReady h ht]
  exact Bool.false_ne_true

/-- Where every D is ready, each names its registers. -/
theorem dests_of_ready (h : s.DestsReady c) : s.dests c = some ((maskList c.act).map (fun t => (t, s.prepOp c.wk t c.g.d))) :=
  if_neg (by rw [any_wait_false h]; exact Bool.false_ne_true)

/-- An instruction that acts once, with D of every active thread ready, writes its words into each of them. -/
theorem onceWrite_done (f : State → List Word × State) (h : s.DestsReady c) : onceWrite f c s = .done ((f s).2.writeAll c s (f s).1) := by
  unfold onceWrite State.writeAll
  simp only [any_wait_false h, Bool.false_eq_true, if_false, foldS_map]
  refine congrArg (fun u : State => TRes.done (u.setClk s.clk)) (foldS_congr (fun u t ht => ?_) _)
  rw [prepOp_of_destsReady h ht]
  simp [Prep.locs]

/-- A thread whose earlier accesses are performed makes its release at once (R246). -/
theorem releaseThen_now {wk t : Nat} {act : Act} (h : s.relDue wk t s.nextId false act = false) (f : State → State) :
    s.releaseThen wk t act f = f s := if_neg (by simp [h])

/-! ### KICK, KWAIT and ACK -/

/-- Settles O27. KWAIT with a notice is an instruction that writes D of every active thread, and without one a hold of them. -/
theorem notices : Obligations.Notices := by
  refine ⟨?kick, ?kwaitTakes, ?kwaitHolds, ?ack⟩
  case kick =>
    intro h a b
    refine laneEarly_completes false false .int .int _ _ _ _ (fun _ => rfl) (fun c s hP => ?_)
    obtain ⟨hok, hdue⟩ := hP
    simp only [hok, Bool.not_true, Bool.false_eq_true, if_false, releaseThen_now hdue]
  case kwaitTakes =>
    intro h tag d a tg
    refine laneOnce_completes .int .int _ _ _ (fun _ => rfl) (fun c s hP => ?_)
    obtain ⟨hsome, hready⟩ := hP
    obtain ⟨n, hn⟩ := Option.isSome_iff_exists.1 hsome
    simp only [tg] at hn ⊢
    simp only [hn]
    exact onceWrite_done _ hready
  case kwaitHolds =>
    intro h tag d a tg
    refine laneOnce_completes .int .int _ _ _ (fun _ => rfl) (fun c s hP => ?_)
    obtain ⟨hnone, hready⟩ := hP
    simp only [tg] at hnone ⊢
    simp only [hnone, dests_of_ready hready, List.flatMap_map, foldS_map]
    refine congrArg TRes.done (foldS_congr (fun u t ht => ?_) _)
    rw [prepOp_of_destsReady hready ht]
    rfl
  case ack =>
    intro h a dst
    exact laneOnce_completes .int .int _ _ _ (fun _ => rfl) (fun _ _ hdue => congrArg TRes.done (releaseAll_now hdue _))

end Sys2Proof.Machine
end

section
/-! SUPPORT. Barriers (R193 to R197): what a body that acts on a byte-counting barrier's object comes to where the object is ready. -/

namespace Sys2Proof.Machine

variable {c : TC} {s : State}

/-- An object that is full, and that holds no poison where the operation reads it, is acted upon (R59, R345). -/
theorem objBody_ready {o : TC → List Loc} {rd : Bool} {f : TC → State → TRes} (hready : s.obReady (o c) = true)
    (hclean : rd = true → ∀ l ∈ o c, s.pois l = false) : objBody o rd f c s = f c s := by
  have hfind : (if rd then (o c).find? (fun l => s.pois l) else none) = none := by
    split
    · next h => exact List.find?_eq_none.2 (fun l hl => by simp [hclean h l hl])
    · rfl
  simp only [objBody, hready, hfind]
  rfl

theorem objBody_readable {o : TC → List Loc} {f : TC → State → TRes} (h : s.ObjReadable (o c)) : objBody o true f c s = f c s :=
  objBody_ready h.1 (fun _ => h.2)

/-- A value inside its range raises no trap of its own (R340). -/
theorem range_early_none {ok : Bool} {x lo hi : Nat} (h : lo ≤ x ∧ x ≤ hi) (td : Word) :
    (if ok && (x < lo || hi < x) then some (kRng, td) else none) = none := by
  simp [Nat.not_lt.2 h.1, Nat.not_lt.2 h.2]

/-- Settles O29: under its premise each instruction neither traps nor waits, and TLWAIT, GBAR and ABWAIT then split as R193 to R197 have it. -/
theorem barrierInstructions : Obligations.BarrierInstructions := by
  refine ⟨?tlwait, ?bar, ?gbar, ?abinit, ?abexp, ?abarv, ?abwait⟩
  case tlwait =>
    intro h k scope a b
    refine laneEarly_completes false false .int .int _ _ _ _ (fun _ => rfl) (fun c s hP => ?_)
    rw [withEarly_none (refEarly_none hP)]
    split
    · rfl
    · rfl
  case bar =>
    intro h cnt a b n
    refine laneEarly_completes false false .int .int _ _ _ _ (fun _ => rfl) (fun c s hP => ?_)
    obtain ⟨hrange, hdue⟩ := hP
    have hearly : (if cnt && c.bOk && (c.bv.lo.toNat < 1 || 1024 < c.bv.lo.toNat) then some (kRng, tdOf c.b) else none) = none := by
      cases cnt with
      | false => rfl
      | true => exact range_early_none (ok := true && c.bOk) (hrange rfl) _
    rw [withEarly_none hearly]
    exact congrArg TRes.done (releaseThen_now hdue _)
  case gbar =>
    intro h a
    refine laneEach_completes false false .int .int _ _ _ (fun _ => rfl) (fun c s hP => ?_)
    show (if !s.gbarMember c.wk (immNat a) then TRes.done s
      else .done (s.releaseThen c.wk c.t (.gbar (immNat a)) (fun s => s.gbarArrive c.wk c.t (immNat a)))) = _
    cases hm : s.gbarMember c.wk (immNat a) with
    | false => rfl
    | true => exact congrArg TRes.done (releaseThen_now (hP hm) _)
  case abinit =>
    intro h d a
    refine laneEarly_completes true false .int .int _ _ _ _ (fun _ => rfl) (fun c s hP => ?_)
    obtain ⟨hready, hrange⟩ := hP
    rw [withEarly_none (range_early_none hrange _), objBody_ready hready (by simp)]
  case abexp =>
    intro h d a
    refine laneEarly_completes true false .int .int _ _ _ _ (fun _ => rfl) (fun c s hP => ?_)
    obtain ⟨hobj, hrange⟩ := hP
    rw [withEarly_none (range_early_none hrange _), objBody_readable hobj]
  case abarv =>
    intro h d a
    refine laneEach_completes true false .int .int _ _ _ (fun _ => rfl) (fun c s hP => ?_)
    obtain ⟨hobj, hdue⟩ := hP
    rw [objBody_readable hobj]
    refine if_neg ?_
    intro hany
    obtain ⟨t, ht, hrel⟩ := List.any_eq_true.1 hany
    rw [hdue t ht] at hrel
    cases hrel
  case abwait =>
    intro h a b
    refine laneEach_completes true false .int .int _ _ _ (fun _ => rfl) (fun c s hP => ?_)
    rw [objBody_readable hP]
    split
    · rfl
    · rfl

end Sys2Proof.Machine
end

section
/-! SUPPORT. Placement (R252, R259 to R261): no two addresses share a place. -/

namespace Sys2Proof.Machine

/-! ### A number built bit by bit -/

theorem foldl_setBit_lt (f : Nat → Bool) (m : Nat) : (List.range m).foldl (fun n j => if f j then n + 2 ^ j else n) 0 < 2 ^ m := by
  induction m with
  | zero => simp
  | succ m ih =>
    rw [List.range_succ, List.foldl_append, List.foldl_cons, List.foldl_nil, Nat.pow_succ]
    split <;> omega

theorem testBit_foldl_setBit (f : Nat → Bool) {m j : Nat} (hj : j < m) :
    ((List.range m).foldl (fun n j => if f j then n + 2 ^ j else n) 0).testBit j = f j := by
  induction m with
  | zero => omega
  | succ m ih =>
    have hlt := foldl_setBit_lt f m
    rw [List.range_succ, List.foldl_append, List.foldl_cons, List.foldl_nil]
    rcases Nat.lt_succ_iff_lt_or_eq.1 hj with h | rfl
    · rw [← ih h]
      split
      · rw [Nat.add_comm, Nat.testBit_two_pow_add_gt h]
      · rfl
    · cases hf : f j with
      | false => simpa using Nat.testBit_lt_two_pow hlt
      | true => simp [Nat.add_comm, Nat.testBit_two_pow_add_eq, Nat.testBit_lt_two_pow hlt]

/-! ### Channels and places -/

variable (tab : List Word) (swz : Nat)

/-- Bit j of a channel: the bit of the line number at its position, with the parity of the bits above that its mask chooses. -/
def channelBit (pa j : Nat) : Bool :=
  xor ((BitVec.ofNat 52 pa).getLsbD (7 + (chPos tab swz).getD j 0))
    (parity ((BitVec.ofNat 52 pa).extractLsb' 16 23 &&& (tab.getD (9 * swz + j) 0).extractLsb' 0 23))

theorem channelOf_eq (pa : Nat) :
    channelOf tab swz pa = (List.range 9).foldl (fun n j => if channelBit tab swz pa j then n + 2 ^ j else n) 0 := rfl

theorem channelOf_lt (pa : Nat) : channelOf tab swz pa < 512 := by
  rw [channelOf_eq]
  exact foldl_setBit_lt (channelBit tab swz pa) 9

/-- R261: bit j of a channel is one bit of the line number with a parity of the bits above it. -/
theorem channelOf_testBit {pa j : Nat} (hpa : pa < 2 ^ 39) (hj : j < 9) : (channelOf tab swz pa).testBit j =
    xor (pa.testBit (7 + (chPos tab swz).getD j 0))
      (parity ((BitVec.ofNat 52 pa).extractLsb' 16 23 &&& (tab.getD (9 * swz + j) 0).extractLsb' 0 23)) := by
  have hpa52 : (BitVec.ofNat 52 pa).toNat = pa := by
    rw [BitVec.toNat_ofNat]
    omega
  rw [channelOf_eq, testBit_foldl_setBit (channelBit tab swz pa) hj, channelBit, ← BitVec.testBit_toNat, hpa52]

/-- R260: the positions are those of 0 to 8, each once. -/
theorem chPos_surjective {k : Nat} (hk : k < 9) : ∃ j < 9, (chPos tab swz).getD j 0 = k := by
  unfold chPos
  dsimp only
  split
  · next h =>
    have hmem := List.contains_iff_mem.1 (List.all_eq_true.1 h k (List.mem_range.2 hk))
    obtain ⟨j, hj, hjk⟩ := List.mem_map.1 hmem
    refine ⟨j, List.mem_range.1 hj, ?_⟩
    simpa [List.mem_range.1 hj] using hjk
  · exact ⟨k, hk, by simp [hk]⟩

theorem placeOf_low {pa : Nat} (h : pa < 2 ^ 39) : placeOf tab swz pa = pa / 65536 * 65536 + channelOf tab swz pa * 128 + pa % 128 := if_pos h
theorem placeOf_high {pa : Nat} (h : 2 ^ 39 ≤ pa) : placeOf tab swz pa = pa := if_neg (Nat.not_lt.2 h)

theorem placeOf_lt {pa : Nat} (h : pa < 2 ^ 39) : placeOf tab swz pa < 2 ^ 39 := by
  have hc := channelOf_lt tab swz pa
  rw [placeOf_low tab swz h]
  omega

/-- The page, the channel and the byte offset of a place in HBM4E. -/
theorem placeOf_fields {pa : Nat} (h : pa < 2 ^ 39) : placeOf tab swz pa / 65536 = pa / 65536 ∧
    placeOf tab swz pa / 128 % 512 = channelOf tab swz pa ∧ placeOf tab swz pa % 128 = pa % 128 := by
  have hc := channelOf_lt tab swz pa
  rw [placeOf_low tab swz h]
  omega

/-- Two addresses of one page whose lines go to one channel lie in one line: the hash of a page permutes its lines. -/
theorem line_eq_of_channel {a b : Nat} (ha : a < 2 ^ 39) (hb : b < 2 ^ 39) (hpage : a / 65536 = b / 65536)
    (hc : channelOf tab swz a = channelOf tab swz b) {k : Nat} (hk : k < 9) : a.testBit (7 + k) = b.testBit (7 + k) := by
  obtain ⟨j, hj, rfl⟩ := chPos_surjective tab swz hk
  have hup : (BitVec.ofNat 52 a).extractLsb' 16 23 = (BitVec.ofNat 52 b).extractLsb' 16 23 := by
    apply BitVec.eq_of_toNat_eq
    simp only [BitVec.extractLsb'_toNat, BitVec.toNat_ofNat, Nat.shiftRight_eq_div_pow]
    omega
  have h := congrArg (fun n => n.testBit j) hc
  simp only [channelOf_testBit tab swz ha hj, channelOf_testBit tab swz hb hj, hup] at h
  exact Bool.xor_left_inj.1 h

/-- R261: no two bytes share a place. -/
theorem placeOf_injective {a b : Nat} (h : placeOf tab swz a = placeOf tab swz b) : a = b := by
  rcases Nat.lt_or_ge a (2 ^ 39) with ha | ha
  · rcases Nat.lt_or_ge b (2 ^ 39) with hb | hb
    · obtain ⟨hpa, hca, hoa⟩ := placeOf_fields tab swz ha
      obtain ⟨hpb, hcb, hob⟩ := placeOf_fields tab swz hb
      have hpage : a / 65536 = b / 65536 := by rw [← hpa, ← hpb, h]
      have hchan : channelOf tab swz a = channelOf tab swz b := by rw [← hca, ← hcb, h]
      have hoff : a % 128 = b % 128 := by rw [← hoa, ← hob, h]
      refine Nat.eq_of_testBit_eq (fun i => ?_)
      rcases Nat.lt_or_ge i 7 with hi | hi
      · have h1 := congrArg (fun n => n.testBit i) hoff
        simpa only [show (128 : Nat) = 2 ^ 7 from rfl, Nat.testBit_mod_two_pow, hi, decide_true, Bool.true_and] using h1
      · rcases Nat.lt_or_ge i 16 with hj | hj
        · have h1 := line_eq_of_channel tab swz ha hb hpage hchan (k := i - 7) (by omega)
          rwa [show 7 + (i - 7) = i by omega] at h1
        · have h1 := congrArg (fun n => n.testBit (i - 16)) hpage
          simpa only [show (65536 : Nat) = 2 ^ 16 from rfl, Nat.testBit_div_two_pow, Nat.sub_add_cancel hj] using h1
    · have hlt := placeOf_lt tab swz ha
      rw [h, placeOf_high tab swz hb] at hlt
      omega
  · rcases Nat.lt_or_ge b (2 ^ 39) with hb | hb
    · have hlt := placeOf_lt tab swz hb
      rw [← h, placeOf_high tab swz ha] at hlt
      omega
    · rwa [placeOf_high tab swz ha, placeOf_high tab swz hb] at h

end Sys2Proof.Machine
end

section
/-! SUPPORT. What a slice does (R164, R165, R169, R243): strings of bytes as numbers (R3), what memory reads after a write, and each kind of
access. -/

namespace Sys2Proof.Machine

/-! ### Strings of bytes (R3) -/

theorem leBytes_length (n x : Nat) : (leBytes n x).length = n := by
  induction n generalizing x with
  | zero => rfl
  | succ n ih => simp [leBytes, ih]

theorem leBytes_getElem? {n k : Nat} (x : Nat) (hk : k < n) : (leBytes n x)[k]? = some (BitVec.ofNat 8 (x / 256 ^ k)) := by
  induction n generalizing x k with
  | zero => omega
  | succ n ih =>
    cases k with
    | zero => simp [leBytes]
    | succ k =>
      rw [leBytes, List.getElem?_cons_succ, ih _ (by omega), Nat.div_div_eq_div_mul, Nat.pow_succ']

theorem leNat_leBytes (n x : Nat) : leNat (leBytes n x) = x % 2 ^ (8 * n) := by
  induction n generalizing x with
  | zero => simp [leBytes, leNat, Nat.mod_one]
  | succ n ih =>
    rw [leBytes, leNat, ih, BitVec.toNat_ofNat, Nat.mul_succ, Nat.add_comm (8 * n) 8, Nat.pow_add, Nat.mod_mul]

theorem leNat_lt (l : List Byte) : leNat l < 2 ^ (8 * l.length) := by
  induction l with
  | nil => simp [leNat]
  | cons b l ih =>
    have hb := b.isLt
    rw [leNat, List.length_cons, Nat.mul_succ, Nat.pow_add]
    omega

theorem leNat_byte {l : List Byte} {k : Nat} (hk : k < l.length) : BitVec.ofNat 8 (leNat l / 2 ^ (8 * k)) = l[k] := by
  induction l generalizing k with
  | nil => exact absurd hk (by simp)
  | cons b l ih =>
    have hb := b.isLt
    cases k with
    | zero =>
      apply BitVec.eq_of_toNat_eq
      simpa [leNat] using hb
    | succ k =>
      have hdiv : leNat (b :: l) / 2 ^ (8 * (k + 1)) = leNat l / 2 ^ (8 * k) := by
        rw [Nat.mul_succ, Nat.add_comm, Nat.pow_add, ← Nat.div_div_eq_div_mul, leNat]
        congr 1
        omega
      rw [hdiv, ih (by simpa using hk), List.getElem_cons_succ]

/-- A byte of a vector, counted from the lowest. -/
theorem extractByte_eq {w : Nat} (x : BitVec w) (j : Nat) : x.extractLsb' (8 * j) 8 = BitVec.ofNat 8 (x.toNat / 256 ^ j) := by
  apply BitVec.eq_of_toNat_eq
  rw [toNat_extractByte, BitVec.toNat_ofNat]

/-- Byte `off + k` of a string placed at byte `off` of a vector that has room for it. -/
theorem extractByte_shifted {l : List Byte} {off k : Nat} (hk : k < l.length) (hroom : off + l.length ≤ 16) :
    (BitVec.ofNat 128 (leNat l * 2 ^ (8 * off))).extractLsb' (8 * (off + k)) 8 = l[k] := by
  have hfit : leNat l * 2 ^ (8 * off) < 2 ^ 128 :=
    calc leNat l * 2 ^ (8 * off) < 2 ^ (8 * l.length) * 2 ^ (8 * off) := Nat.mul_lt_mul_of_pos_right (leNat_lt l) (Nat.two_pow_pos _)
      _ = 2 ^ (8 * l.length + 8 * off) := (Nat.pow_add ..).symm
      _ ≤ 2 ^ 128 := Nat.pow_le_pow_right (by omega) (by omega)
  have hdiv : leNat l * 2 ^ (8 * off) / 256 ^ (off + k) = leNat l / 2 ^ (8 * k) := by
    rw [show (256 : Nat) = 2 ^ 8 from rfl, ← Nat.pow_mul, Nat.mul_add, Nat.pow_add, ← Nat.div_div_eq_div_mul,
      Nat.mul_div_cancel _ (Nat.two_pow_pos _)]
  rw [extractByte_eq, BitVec.toNat_ofNat, Nat.mod_eq_of_lt hfit, hdiv, leNat_byte hk]

/-! ### Memory after a write (R259 to R262, R368) -/

variable {s : State}

theorem byteAt_congr {u : State} (hm : u.mem = s.mem) (hd : u.dev = s.dev) (swz pa : Nat) : u.byteAt swz pa = s.byteAt swz pa := by
  unfold State.byteAt
  rw [hm, hd]

theorem readMem_eq (s : State) (swz pa n : Nat) : s.readMem swz pa n = (List.range n).map (fun k => s.byteAt swz (pa + k)) := by
  induction n generalizing pa with
  | zero => rfl
  | succ n ih =>
    rw [State.readMem, ih, List.range_succ_eq_map, List.map_cons, List.map_map]
    simp [Function.comp_def, Nat.add_assoc, Nat.add_comm 1]

@[simp] theorem readMem_length (s : State) (swz pa n : Nat) : (s.readMem swz pa n).length = n := by
  simp [readMem_eq]

theorem readMem_getElem (swz pa : Nat) {n k : Nat} (hk : k < (s.readMem swz pa n).length) : (s.readMem swz pa n)[k] = s.byteAt swz (pa + k) := by
  simp [readMem_eq]

theorem readMem_congr {u : State} (hm : u.mem = s.mem) (hd : u.dev = s.dev) (swz pa n : Nat) : u.readMem swz pa n = s.readMem swz pa n := by
  simp only [readMem_eq, byteAt_congr hm hd]

/-- A string of bytes written leaves every other address as it was. -/
theorem byteAt_writeBytes_ne (swz pa : Nat) (l : List Byte) {x : Nat} (h : ∀ k < l.length, x ≠ pa + k) :
    (s.writeBytes swz pa l).byteAt swz x = s.byteAt swz x := by
  unfold State.byteAt
  rw [writeBytes_dev]
  exact mem_writeBytes_ne swz pa l (fun k hk e => h k hk (placeOf_injective _ _ e).symm)

theorem byteAt_writeBytes (swz pa : Nat) (l : List Byte) {k : Nat} (hk : k < l.length) :
    (s.writeBytes swz pa l).byteAt swz (pa + k) = l[k] := by
  induction l generalizing s pa k with
  | nil => exact absurd hk (by simp)
  | cons b l ih =>
    cases k with
    | zero => exact (byteAt_writeBytes_ne (s := s.putByte swz pa b) swz (pa + 1) l (fun j _ => by omega)).trans (byteAt_putByte_self swz pa b)
    | succ k =>
      have h := ih (s := s.putByte swz pa b) (pa := pa + 1) (k := k) (by simpa using hk)
      rwa [show pa + 1 + k = pa + (k + 1) by omega] at h

/-- What is written to memory reads back. -/
theorem byteAt_writeMem (s : State) (swz pa : Nat) (l : List Byte) {k : Nat} (hk : k < l.length) :
    (s.writeMem swz pa l).byteAt swz (pa + k) = l[k] := byteAt_writeBytes swz pa l hk

theorem readMem_writeMem (s : State) (swz pa : Nat) (l : List Byte) : (s.writeMem swz pa l).readMem swz pa l.length = l := by
  refine List.ext_getElem (readMem_length ..) (fun k _ hk => ?_)
  rw [readMem_getElem, byteAt_writeMem s swz pa l hk]

/-! ### The kinds of access (R164, R165, R169, R243) -/

variable {id : Nat} {a : Access}

/-- The bytes of a store: those of its datum from its piece's offset on. -/
def storeBytes (a : Access) : List Byte := ((leBytes 16 a.data.toNat).drop a.off).take a.n

theorem storeBytes_length_le (a : Access) : (storeBytes a).length ≤ a.n := by
  simp [storeBytes]

theorem storeBytes_length (h : a.off + a.n ≤ 16) : (storeBytes a).length = a.n := by
  simp [storeBytes, leBytes_length]
  omega

theorem storeBytes_getElem {k : Nat} (h : a.off + a.n ≤ 16) (hk : k < (storeBytes a).length) :
    (storeBytes a)[k] = a.data.extractLsb' (8 * (a.off + k)) 8 := by
  have hn := storeBytes_length h
  have hb : (storeBytes a)[k]? = some (BitVec.ofNat 8 (a.data.toNat / 256 ^ (a.off + k))) := by
    rw [storeBytes, List.getElem?_take_of_lt (by omega), List.getElem?_drop, leBytes_getElem? _ (by omega)]
  rw [extractByte_eq]
  exact (List.getElem?_eq_some_iff.1 hb).2

theorem perform_store (h : a.kind = .store) : s.perform id a = ((s.writeMem a.swz a.pa (storeBytes a)).setAcc id none, true) := by
  unfold State.perform
  rw [h]
  rfl

/-- The datum of a load, its bytes at its piece's offset. -/
def State.loadData (s : State) (a : Access) : BitVec 128 := BitVec.ofNat 128 (leNat (s.readMem a.swz a.pa a.n) * 2 ^ (8 * a.off))

theorem loadData_byte {k : Nat} (h : a.off + a.n ≤ 16) (hk : k < a.n) :
    (s.loadData a).extractLsb' (8 * (a.off + k)) 8 = s.byteAt a.swz (a.pa + k) := by
  have hlen := readMem_length s a.swz a.pa a.n
  unfold State.loadData
  rw [extractByte_shifted (by omega) (by omega), readMem_getElem]

theorem perform_load (h : a.kind = .load) : s.perform id a =
    if s.badAt a.swz a.pa a.n then (s, false) else (s.setAcc id (some { a with st := .served, data := s.loadData a }), true) := by
  unfold State.perform
  rw [h]
  rfl

/-- The old value of an atomic, and its new one. -/
def State.oldVal (s : State) (a : Access) : DWord := BitVec.ofNat 64 (leNat (s.readMem a.swz a.pa a.n))
def State.newVal (s : State) (a : Access) : DWord :=
  atomNew a.oper a.ty (s.oldVal a) (cutTo a.total (a.data.extractLsb' 0 64))
    (if a.total = 4 then (a.data.extractLsb' 32 32).setWidth 64 else a.data.extractLsb' 64 64)

/-- An atomic or a reduction after it has been performed. -/
def State.afterAtomic (s : State) (id : Nat) (a : Access) : State :=
  (s.writeMem a.swz a.pa (leBytes a.n (s.newVal a).toNat)).setAcc id
    (if a.kind = .atom then some { a with st := .served, data := (s.oldVal a).setWidth 128 } else none)

theorem perform_atomic (h : a.kind = .atom ∨ a.kind = .red) : s.perform id a =
    if s.badAt a.swz a.pa a.n then (s, false) else (s.afterAtomic id a, true) := by
  unfold State.perform State.afterAtomic
  rcases h with h | h
  · rw [h]
    rfl
  · rw [h]
    rfl

/-- R243: whatever its kind, an access changes no cell of memory but those at its address. -/
theorem perform_mem_ne {p : Nat} (h : ∀ k < a.n, p ≠ placeOf s.dev.chtab a.swz (a.pa + k)) :
    Fmap.get memDefault (s.perform id a).1.mem p = Fmap.get memDefault s.mem p := by
  have hwrite : ∀ l : List Byte, l.length ≤ a.n → Fmap.get memDefault (s.writeMem a.swz a.pa l).mem p = Fmap.get memDefault s.mem p :=
    fun l hl => mem_writeMem_ne a.swz a.pa l (fun k hk => (h k (by omega)).symm)
  have hatomic : a.kind = .atom ∨ a.kind = .red → Fmap.get memDefault (s.perform id a).1.mem p = Fmap.get memDefault s.mem p := by
    intro hk
    rw [perform_atomic hk]
    split
    · rfl
    · exact hwrite _ (by rw [leBytes_length])
  cases hk : a.kind with
  | load =>
    rw [perform_load hk]
    split
    · rfl
    · rfl
  | store =>
    rw [perform_store hk]
    exact hwrite _ (storeBytes_length_le a)
  | atom => exact hatomic (.inl hk)
  | red => exact hatomic (.inr hk)

/-- Settles O57, kind by kind. -/
theorem accessPerformed : Obligations.AccessPerformed := by
  refine ⟨?store, ?load, ?atomic, fun s id a p h => perform_mem_ne h⟩
  case store =>
    intro s id a hk hroom
    rw [perform_store hk]
    refine ⟨rfl, State.setAcc_acc_self .., fun k hk => ?_⟩
    have hlt : k < (storeBytes a).length := by rwa [storeBytes_length hroom]
    exact (byteAt_writeMem s a.swz a.pa _ hlt).trans (storeBytes_getElem hroom hlt)
  case load =>
    intro s id a hk hgood hroom
    rw [perform_load hk, hgood, if_neg Bool.false_ne_true]
    exact ⟨rfl, rfl, _, State.setAcc_acc_self .., rfl, rfl, fun k hk => loadData_byte hroom hk⟩
  case atomic =>
    intro s id a hk hgood _ _ old new
    rw [perform_atomic hk, hgood, if_neg Bool.false_ne_true]
    refine ⟨rfl, ?_, fun hred => ?_, fun hatom => ?_⟩
    · have hread := readMem_writeMem s a.swz a.pa (leBytes a.n new.toNat)
      rw [leBytes_length] at hread
      calc leNat ((s.afterAtomic id a).readMem a.swz a.pa a.n)
          = leNat ((s.writeMem a.swz a.pa (leBytes a.n new.toNat)).readMem a.swz a.pa a.n) := 
            congrArg leNat (readMem_congr (s := s.writeMem a.swz a.pa (leBytes a.n new.toNat)) (u := s.afterAtomic id a) rfl rfl ..)
        _ = leNat (leBytes a.n new.toNat) := congrArg leNat hread
        _ = new.toNat % 2 ^ (8 * a.n) := leNat_leBytes ..
    · simp [State.afterAtomic, hred]
    · exact ⟨{ a with st := .served, data := old.setWidth 128 }, by simp [State.afterAtomic, hatom, old, State.oldVal], rfl, rfl, rfl⟩

end Sys2Proof.Machine
end

section
/-! SUPPORT. The landing of loads (R164, R165, R168): what is due in registers, the range entries that end, and the accesses that go. -/

namespace Sys2Proof.Machine

/-! ### What is due (R68) -/

theorem pend_setPend (s : State) {l m : Loc} (hl : l.Ok) (hm : m.Ok) (x : Nat) : (s.setPend x l).pend m = if l = m then x else s.pend m := by
  cases l with
  | v wk t i =>
    cases m with
    | v wk2 t2 j =>
      simp only [State.setPend, State.pend, State.modThread_eq, State.setThread_thread, Loc.v.injEq]
      by_cases hk : tkey wk t = tkey wk2 t2
      · obtain ⟨rfl, rfl⟩ := tkey_eq hl hm hk
        simp [Fmap.get_set]
      · have hne : ¬ (wk = wk2 ∧ t = t2 ∧ i = j) := fun ⟨hw, ht, _⟩ => hk (by rw [hw, ht])
        rw [if_neg hk, if_neg hne]
    | s wk2 j => rfl
  | s wk i =>
    cases m with
    | v wk2 t2 j => rfl
    | s wk2 j =>
      simp only [State.setPend, State.pend, State.modWarp_eq, State.setWarp_warp, Loc.s.injEq]
      by_cases hk : wk = wk2
      · subst hk
        simp [Fmap.get_set]
      · simp [hk]

theorem pend_clearDue (s : State) (iid : Nat) {l m : Loc} (hl : l.Ok) (hm : m.Ok) :
    (s.clearDue iid l).pend m = if l = m ∧ s.pend m = iid then 0 else s.pend m := by
  unfold State.clearDue
  by_cases hlm : l = m
  · subst hlm
    split
    · next h => simp [pend_setPend s hl hl, h]
    · next h => simp [h]
  · split
    · simp [pend_setPend s hl hm, hlm]
    · simp [hlm]

/-- Once the data of an instruction is in place, no register of its own waits for it. -/
theorem pend_foldS_clearDue {ls : List Loc} (hl : ∀ l ∈ ls, l.Ok) (iid : Nat) {m : Loc} (hm : m.Ok) (s : State) :
    (foldS ls s (fun s l => s.clearDue iid l)).pend m = if m ∈ ls ∧ s.pend m = iid then 0 else s.pend m := by
  induction ls generalizing s with
  | nil => simp [foldS]
  | cons l ls ih =>
    have step : foldS (l :: ls) s (fun s l => s.clearDue iid l) = foldS ls (s.clearDue iid l) (fun s l => s.clearDue iid l) := rfl
    rw [step, ih (fun k h => hl k (List.mem_cons_of_mem l h)), pend_clearDue s iid (hl l List.mem_cons_self) hm]
    by_cases hlm : l = m
    · subst hlm
      by_cases hp : s.pend l = iid
      · simp [hp]
      · simp [hp]
    · simp [hlm, Ne.symm hlm]

theorem pend_writeLocs {ls : List Loc} (hl : ∀ l ∈ ls, l.Ok) {m : Loc} (hm : m.Ok) (xs : List Word) (s : State) :
    (s.writeLocs ls xs).pend m = s.pend m :=
  (onlyRegs_writeLocs (ds := ls) (tk := []) (own := fun _ _ x => x) hl (fun _ h => h) xs).pend hm

theorem clearDue_keeps {β : Type} (p : State → β) (ht : ∀ (s : State) (wk t : Nat) (x : Thread), p (s.setThread wk t x) = p s)
    (hw : ∀ (s : State) (wk : Nat) (x : Warp), p (s.setWarp wk x) = p s) (s : State) (iid : Nat) (l : Loc) : p (s.clearDue iid l) = p s := by
  unfold State.clearDue
  split
  · cases l with
    | v wk t i => exact ht ..
    | s wk i => exact hw ..
  · rfl

/-! ### Range entries that end (R69) -/

section
variable (s : State) (wk iid : Nat)

theorem dropAccRange_cases : s.dropAccRange wk iid = s ∨
    s.dropAccRange wk iid = s.modWarp wk (fun w => { w with ranges := w.ranges.filter (fun r => r.owner != .acc iid) }) := by
  unfold State.dropAccRange
  split
  · exact .inl rfl
  · exact .inr rfl

/-- It changes nothing of a warp but its range list. -/
theorem dropAccRange_keeps {β : Type} (p : State → β)
    (h : ∀ rs : Warp → List Rng, p (s.modWarp wk (fun w => { w with ranges := rs w })) = p s) : p (s.dropAccRange wk iid) = p s := by
  rcases dropAccRange_cases s wk iid with e | e
  · rw [e]
  · rw [e, h]

@[simp] theorem dropAccRange_mem : (s.dropAccRange wk iid).mem = s.mem := dropAccRange_keeps s wk iid State.mem (fun _ => rfl)

@[simp] theorem dropAccRange_acc (k : Nat) : (s.dropAccRange wk iid).acc k = s.acc k :=
  dropAccRange_keeps s wk iid (fun s => s.acc k) (fun _ => rfl)

@[simp] theorem dropAccRange_readLoc (l : Loc) : (s.dropAccRange wk iid).readLoc l = s.readLoc l := by
  refine dropAccRange_keeps s wk iid (fun s => s.readLoc l) (fun rs => ?_)
  cases l with
  | v wk2 t i => rfl
  | s wk2 i =>
    simp only [State.readLoc, State.modWarp_eq, State.setWarp_warp]
    split
    · next e => rw [e]
    · rfl

@[simp] theorem dropAccRange_pend (l : Loc) : (s.dropAccRange wk iid).pend l = s.pend l := by
  refine dropAccRange_keeps s wk iid (fun s => s.pend l) (fun rs => ?_)
  cases l with
  | v wk2 t i => rfl
  | s wk2 i =>
    simp only [State.pend, State.modWarp_eq, State.setWarp_warp]
    split
    · next e => rw [e]
    · rfl

end

/-! ### Accesses that go -/

theorem acc_foldS_setAcc_none (ids : List Nat) (s : State) {k : Nat} (hk : k ∈ ids) :
    (foldS ids s (fun s id => s.setAcc id none)).acc k = none := by
  induction ids generalizing s with
  | nil => cases hk
  | cons id ids ih =>
    have step : foldS (id :: ids) s (fun s id => s.setAcc id none) = foldS ids (s.setAcc id none) (fun s id => s.setAcc id none) := rfl
    rw [step]
    by_cases h : k ∈ ids
    · exact ih _ h
    · obtain rfl : k = id := (List.mem_cons.1 hk).resolve_right h
      refine (foldS_keeps (fun s => s.acc k) (fun s j hj => ?_) _).trans (State.setAcc_acc_self ..)
      have hne : ¬ j = k := fun e => h (e ▸ hj)
      simp [State.setAcc_acc, hne]

theorem pend_setAcc (s : State) (k : Nat) (x : Option Access) (l : Loc) : (s.setAcc k x).pend l = s.pend l := by
  cases l with
  | v wk t i => rfl
  | s wk i => rfl

theorem pend_foldS_setAcc (ids : List Nat) (s : State) (l : Loc) : (foldS ids s (fun s id => s.setAcc id none)).pend l = s.pend l :=
  foldS_keeps (f := fun s id => s.setAcc id none) (fun s => s.pend l) (fun s id _ => pend_setAcc s id none l) s

/-- What updates of threads and of warps keep, the write of the registers of a load keeps. -/
theorem landing_keeps {β : Type} (p : State → β) (ht : ∀ (s : State) (wk t : Nat) (x : Thread), p (s.setThread wk t x) = p s)
    (hw : ∀ (s : State) (wk : Nat) (x : Warp), p (s.setWarp wk x) = p s) (s : State) (iid : Nat) (ls : List Loc) (xs : List Word) :
    p ((foldS ls s (fun s l => s.clearDue iid l)).writeLocs ls xs) = p s :=
  (writeLocs_keeps p ht hw ls xs _).trans (foldS_keeps p (fun s l _ => clearDue_keeps p ht hw s iid l) s)

/-- A thread's load or atomic into registers whose pieces have all been served lands. -/
theorem land_served {s : State} {iid t : Nat} {p : Nat × Access} {ps : List (Nat × Access)} {ls : List Loc}
    (hps : s.accList.filter (fun q => q.2.iid == iid && q.2.t == t && q.2.reads) = p :: ps) (hserved : ∀ q ∈ p :: ps, q.2.st = .served)
    (hdest : p.2.dest = .regs ls) : s.land iid t =
      ((foldS ls (foldS ((p :: ps).map Prod.fst) s (fun s id => s.setAcc id none)) (fun s l => s.clearDue iid l)).writeLocs ls
        (wordsOf ls.length (extend p.2.size ((p :: ps).foldl (fun n q => n + q.2.data.toNat) 0)))).dropAccRange p.2.wk iid := by
  have hnone : (p :: ps).any (fun q => q.2.st != .served) = false := List.any_eq_false.2 (fun q hq => by simp [hserved q hq])
  unfold State.land
  dsimp only
  rw [hps]
  simp only [hnone, hdest, Bool.false_eq_true, if_false]

/-- Settles O58: the landing takes its accesses away, clears what is due, and writes the registers in turn. -/
theorem loadLands : Obligations.LoadLands := by
  intro s iid t p ps ls hps hserved hdest hn hl
  refine ⟨_, congrArg Host.Outcome.next (land_served hps hserved hdest), ?regs, ?due, ?gone, ?mem⟩
  case regs =>
    exact (List.map_congr_left (fun l _ => dropAccRange_readLoc ..)).trans (readLoc_writeLocs hn hl (wordsOf_length ..) _)
  case due =>
    intro l hmem
    have hok := hl l hmem
    rw [dropAccRange_pend, pend_writeLocs hl hok, pend_foldS_clearDue hl iid hok]
    simp only [pend_foldS_setAcc, hmem, true_and]
  case gone =>
    intro q hq
    have hreg := landing_keeps (fun s => s.acc q.1) (fun _ _ _ _ => rfl) (fun _ _ _ => rfl)
    rw [dropAccRange_acc, hreg]
    exact acc_foldS_setAcc_none _ s (List.mem_map_of_mem hq)
  case mem =>
    have hreg := landing_keeps State.mem (fun _ _ _ _ => rfl) (fun _ _ _ => rfl)
    rw [dropAccRange_mem, hreg]
    exact foldS_keeps (f := fun s id => s.setAcc id none) State.mem (fun _ _ _ => rfl) s

end Sys2Proof.Machine
end

section
/-! SUPPORT. Steps of memory (R165, R168, R243 to R257, R360 to R370). -/

namespace Sys2Proof.Machine

/-- Settles O38. The guard of each step that has one is the premise of its clause. -/
theorem memorySteps : Obligations.MemorySteps := by
  refine ⟨fun _ _ => rfl, ?present, ?log, fun _ _ _ => rfl, fun _ _ _ => rfl, fun _ => rfl, fun _ => rfl, ?word,
    fun _ _ _ _ => rfl, fun _ _ _ => rfl, ?chunk⟩
  case present =>
    intro die s h
    exact congrArg Host.Outcome.next (if_pos h)
  case log =>
    intro wk p s hp hroom
    show Host.Outcome.next (s.sideLog wk) = _
    unfold State.sideLog
    rw [hp]
    exact congrArg Host.Outcome.next (if_pos hroom)
  case word =>
    intro pa sl s hsl hgood
    refine ⟨?_, ?_⟩
    · show execScrubVisit (.memory pa) .lasting s = _
      simp [execScrubVisit, hsl, hgood]
    · show execScrubVisit (.memory pa) .corrected s = _
      simp [execScrubVisit, hsl, hgood]
  case chunk =>
    intro sid b k r s hr
    show execScrubVisit (.stage sid b k) .lasting s = _
    simp [execScrubVisit, State.setSRun, hr]

end Sys2Proof.Machine
end

section
/-! SUPPORT. The device at reset (R191 to R326): tables that list nothing, the hash words, and the registers that MFSR reads. -/

namespace Sys2Proof.Machine

@[simp] theorem reset_warp (wk : Nat) : State.reset.warp wk = {} := rfl
@[simp] theorem reset_die (d : Nat) : State.reset.die d = {} := rfl
@[simp] theorem reset_dev : State.reset.dev = Dev.reset := rfl

/-- A register without a read side effect reads as its value (R211). -/
theorem mfsr_value (s : State) (wk : Nat) {n : Nat} (h : n ≠ 0x202 ∧ n ≠ 0x246 ∧ n ≠ 0x2E6) : (s.mfsr wk n).1 = s.srRead wk 0 n := by
  obtain ⟨hreq, hmnq, hbox⟩ := h
  simp [State.mfsr, hreq, hmnq, hbox]

/-- The number of a system register that is no odd half reads as the register. -/
theorem srRead_system (s : State) (wk t : Nat) {n : Nat} (hn : 0x200 ≤ n) (hhalf : (sr64 (n - 1) && n % 2 = 1) = false) :
    s.srRead wk t n = s.sysReg wk n := by
  unfold State.srRead
  dsimp only
  rw [if_neg (by rw [hhalf]; exact Bool.false_ne_true), if_pos hn]

/-- R260: word j of each hash entry holds POS = j and a mask of 0. -/
theorem chtab_reset {e j : Nat} (he : e < 16) (hj : j < 9) : Dev.reset.chtab.getD (9 * e + j) 0 = BitVec.ofNat 32 (0x10000000 * j) := by
  have hlt : 9 * e + j < 144 := by omega
  have hmod : (9 * e + j) % 9 = j := by omega
  rw [List.getD_eq_getElem?_getD, Dev.reset, List.getElem?_map, List.getElem?_range hlt]
  show BitVec.ofNat 32 ((9 * e + j) % 9 * 0x10000000) = _
  rw [hmod, Nat.mul_comm]

/-- The registers for which the manual gives a value at reset, with that value. -/
def resetRegs : List (Nat × DWord) :=
  [(0x201, 0), (0x240, 0), (0x242, 0), (0x244, 0), (0x249, 0), (0x24B, 0), (0x2A0, 0), (0x2A1, 1000), (0x2A2, 2400), (0x2A3, 60),
    (0x2C0, 0), (0x2C3, 0), (0x2E0, 0), (0x2DC, 0xF), (0x2DD, 0xF), (0x2DE, 0xF), (0x2DF, 0xF)]

/-- None of them has a read side effect, and none is an odd half. -/
theorem resetRegs_plain : ∀ p ∈ resetRegs,
    (p.1 ≠ 0x202 ∧ p.1 ≠ 0x246 ∧ p.1 ≠ 0x2E6) ∧ 0x200 ≤ p.1 ∧ (sr64 (p.1 - 1) && p.1 % 2 = 1) = false := by
  decide

theorem sysReg_reset (wk : Nat) : ∀ p ∈ resetRegs, State.reset.sysReg wk p.1 = p.2 := by
  simp [resetRegs, State.sysReg, Dev.reset]

/-- Settles O49: every table is empty, so that each entry is the one of an unlisted key. -/
theorem resetState : Obligations.ResetState := by
  refine ⟨?regs, ?hash, fun _ => rfl, fun _ => rfl, fun _ _ => ⟨rfl, rfl, rfl⟩, fun _ => ⟨rfl, rfl, rfl⟩, fun _ _ => ⟨rfl, rfl⟩,
    fun _ => rfl, rfl, rfl, rfl⟩
  case regs =>
    intro wk p hp
    obtain ⟨hvalue, hsys, hhalf⟩ := resetRegs_plain p hp
    rw [mfsr_value _ _ hvalue, srRead_system _ _ _ hsys hhalf]
    exact sysReg_reset wk p hp
  case hash =>
    intro e j he hj
    exact chtab_reset he hj

end Sys2Proof.Machine
end

section
/-! SUPPORT. Instructions of class 0xF, and those of special registers, the fault buffer and links, whose result goes to D of every active
thread (R209, R211, R213, R217, R218). -/

namespace Sys2Proof.Machine

/-- Settles O33: an instruction with a result passes the lane with the body that writes D of every active thread, and each other one with
its effect. -/
theorem registerInstructions : Obligations.RegisterInstructions := by
  refine ⟨?mfsr, ?mtsr, ?fbrd, ?fbpop, ?stat, ?bkpt, ?sstep, ?trcmk, ?cntrd⟩
  case mfsr =>
    intro h d a
    exact laneOnce_completes .int .int _ _ _ (fun _ => rfl) (fun _ _ hready => onceWrite_done _ hready)
  case mtsr =>
    intro h d a
    exact laneOnce_completes .int .int _ Always _ (fun _ => rfl) (fun _ _ _ => rfl)
  case fbrd =>
    intro h d a
    exact laneOnce_completes .int .int _ _ _ (fun _ => rfl) (fun _ _ hready => onceWrite_done _ hready)
  case fbpop =>
    intro h
    exact laneOnce_completes .int .int _ Always _ (fun _ => rfl) (fun _ _ _ => rfl)
  case stat =>
    intro h d a b
    refine laneOnce_completes .int .int _ _ _ (fun _ => rfl) (fun c s hready => ?_)
    rw [onceWrite_done _ hready]
    cases linkOf (sysDie c.wk) c.av.lo with
    | none => rfl
    | some k => rfl
  case bkpt =>
    intro h a
    exact laneOnce_completes .int .int _ Always _ (fun _ => rfl) (fun _ _ _ => rfl)
  case sstep =>
    intro h a
    refine laneOnce_completes .int .int _ Always _ (fun _ => rfl) (fun c s _ => ?_)
    cases s.dbgWarp c.av.lo with
    | none => rfl
    | some wk => rfl
  case trcmk =>
    intro h a
    refine laneOnce_completes .int .int _ Always _ (fun _ => rfl) (fun c s _ => ?_)
    cases isSys c.wk with
    | true => rfl
    | false =>
      cases (s.launch (s.block (bkOf c.wk)).lid).trace with
      | true => rfl
      | false => rfl
  case cntrd =>
    intro h d a
    exact laneOnce_completes .int .int _ _ _ (fun _ => rfl) (fun _ _ hready => onceWrite_done _ hready)

end Sys2Proof.Machine
end

section
/-! SUPPORT. System instructions (R212 to R217, R258, R361): what the bodies of ERET, WINQ and LNKCTL come to where they need not wait. -/

namespace Sys2Proof.Machine

variable {c : TC} {s : State}

/-- An LNKCTL completes with its effect on the link that its word names, and without one where the word names none (R217). -/
theorem linkBody_completes {i : Instr} {f : Bool × Nat → TC → State → State} {E : TC → State → State}
    (he : ∀ s, exec i s = laneOnce i .int .int (linkBody f) s)
    (hsome : ∀ c s k, linkOf (sysDie c.wk) c.av.lo = some k → E c s = f k c s)
    (hnone : ∀ c s, linkOf (sysDie c.wk) c.av.lo = none → E c s = s) : CompletesOnce i .int .int Always E := by
  refine laneOnce_completes .int .int _ Always _ he (fun c s _ => ?_)
  unfold linkBody
  cases hk : linkOf (sysDie c.wk) c.av.lo with
  | none => exact congrArg TRes.done (hnone c s hk).symm
  | some k => exact congrArg TRes.done (hsome c s k hk).symm

/-- An ERET that names no request under way has no effect (R213). -/
theorem endSyscall_none {die id : Nat} (res : DWord) (h : (s.die die).sysq.find? (fun r => r.id == id && r.taken) = none) :
    s.endSyscall die id res = s := by
  unfold State.endSyscall
  rw [h]

/-- What a module sends again leaves its link as it is (R394). -/
theorem unstick_link (s : State) (m : Nat) : (s.unstick m).link (false, m) = s.link (false, m) := by
  refine foldS_keeps (fun s => s.link (false, m)) (fun s p _ => ?_) s
  rfl

/-- ERET's effect: its request is gone from the queue, and each thread that it held has its result (R207, R213). -/
theorem endSyscall_some {die id : Nat} {r : SysReq} (res : DWord) (h : (s.die die).sysq.find? (fun r => r.id == id && r.taken) = some r) :
    s.endSyscall die id res = foldS (List.range 32) (s.modDie die (fun D => { D with sysq := D.sysq.filter (fun q => q.id != id) }))
      (fun u t => u.sysResult r.wk t id res) := by
  unfold State.endSyscall
  rw [h]
  rfl

/-- The range entries that WINQ `.pop` takes for D of its active threads (R69). -/
theorem foldl_dests_accRange :
    ((maskList c.act).map (fun t => (t, s.prepOp c.wk t c.g.d))).foldl
      (fun (o : Option State) p => o.bind (fun s => s.accRange c.key c.wk (c.g.d.map OpS.x) p.2.locs)) (some s.bumpId) = s.destRanges c :=
  List.foldl_map

/-- Settles O34. ERET and WINQ are the ones with something to wait for; every LNKCTL passes the lane with the body that finds its link. -/
theorem systemInstructions : Obligations.SystemInstructions := by
  refine ⟨?halt, ?eret, ?tlbfls, ?tldrain, ?replay, ?push, ?pop, ?ctxsv, ?ctxld, ?pause, ?resume, ?remap, ?train, ?half⟩
  case halt =>
    intro h
    exact laneOnce_completes .int .int _ Always _ (fun _ => rfl) (fun _ _ _ => rfl)
  case eret =>
    intro h a b
    refine laneOnce_completes .int .int _ _ _ (fun _ => rfl) (fun c s hrel => ?_)
    rw [releaseAll_now hrel]
    cases hq : (s.die (sysDie c.wk)).sysq.find? (fun r => r.id == c.av.toNat % 64 && r.taken) with
    | none => exact congrArg TRes.done (endSyscall_none c.bv hq)
    | some r => exact congrArg TRes.done (endSyscall_some c.bv hq)
  case tlbfls =>
    intro h a
    exact laneOnce_completes .int .int _ Always _ (fun _ => rfl) (fun _ _ _ => rfl)
  case tldrain =>
    intro h
    exact laneOnce_completes .int .int _ Always _ (fun _ => rfl) (fun _ _ _ => rfl)
  case replay =>
    intro h
    exact laneOnce_completes .int .int _ Always _ (fun _ => rfl) (fun _ _ _ => rfl)
  case push =>
    intro h a
    exact laneOnce_completes .int .int _ _ _ (fun _ => rfl) (fun _ _ hroom => if_neg (Nat.not_le.2 hroom))
  case pop =>
    intro h d
    refine laneOnce_completes .int .int _ _ _ (fun _ => rfl) ?_
    intro c s ⟨hready, hranges⟩
    obtain ⟨u, hu⟩ := Option.isSome_iff_exists.1 hranges
    simp only [dests_of_ready hready, foldl_dests_accRange, hu, List.flatMap_map, foldS_map]
    refine congrArg TRes.done (foldS_congr (fun u t ht => ?_) _)
    rw [prepOp_of_destsReady hready ht]
    rfl
  case ctxsv =>
    intro h a b
    refine laneOnce_completes .int .int _ Always _ (fun _ => rfl) (fun c s _ => ?_)
    cases s.ctxBlock c.av.lo with
    | none => rfl
    | some bk => rfl
  case ctxld =>
    intro h a b
    refine laneOnce_completes .int .int _ Always _ (fun _ => rfl) (fun c s _ => ?_)
    cases s.ctxBlock c.av.lo with
    | none => rfl
    | some bk => rfl
  case pause =>
    intro h a b
    exact linkBody_completes (fun _ => rfl) (fun c s k hk => by rw [hk]) (fun c s hk => by rw [hk])
  case resume =>
    intro h a b
    refine linkBody_completes (fun _ => rfl) (fun c s k hk => ?_) (fun c s hk => by rw [hk])
    rw [hk]
    rcases k with ⟨_ | _, m⟩
    · exact congrArg (fun l : Link => if (s.link (false, m)).dead then s else (s.unstick m).setLink (false, m) { l with paused := false, kept := 0 })
        (unstick_link s m).symm
    · rfl
  case remap =>
    intro h a b
    refine linkBody_completes (fun _ => rfl) (fun c s k hk => ?_) (fun c s hk => by rw [hk])
    rw [hk]
    rcases k with ⟨_ | _, m⟩
    · by_cases hp : (s.link (false, m)).paused = true
      · simp [hp]
      · simp [hp]
    · rfl
  case train =>
    intro h a b
    exact linkBody_completes (fun _ => rfl) (fun c s k hk => by rw [hk]) (fun c s hk => by rw [hk])
  case half =>
    intro h a b
    refine linkBody_completes (fun _ => rfl) (fun c s k hk => ?_) (fun c s hk => by rw [hk])
    rw [hk]
    rcases k with ⟨_ | _, m⟩
    · simp
    · simp

end Sys2Proof.Machine
end

section
/-! SUPPORT. What system warps wait for (R213 to R217, R258, R308, R363, R393): the threads that a step releases, what the release leaves alone,
and the fabric time that a trained port takes. -/

namespace Sys2Proof.Machine

/-! ### Folds that reach a fact -/

/-- A fact that one step of a fold brings about, and every step keeps, holds at the end. -/
theorem foldS_reaches {α : Type} (P : State → Prop) {l : List α} {f : State → α → State} {a : α} (ha : a ∈ l)
    (hset : ∀ s, P (f s a)) (hkeep : ∀ s, ∀ b ∈ l, P s → P (f s b)) (s : State) : P (foldS l s f) := by
  obtain ⟨l1, l2, rfl⟩ := List.append_of_mem ha
  have keep : ∀ (m : List α) (u : State), (∀ b ∈ m, b ∈ l1 ++ a :: l2) → P u → P (foldS m u f) := by
    intro m
    induction m with
    | nil => exact fun _ _ hu => hu
    | cons b m ih =>
      exact fun u hm hu => ih (f u b) (fun c hc => hm c (List.mem_cons_of_mem b hc)) (hkeep u b (hm b List.mem_cons_self) hu)
  have hsplit : foldS (l1 ++ a :: l2) s f = foldS l2 (f (foldS l1 s f) a) f := List.foldl_append
  rw [hsplit]
  exact keep l2 _ (fun b hb => List.mem_append_right l1 (List.mem_cons_of_mem a hb)) (hset _)

/-! ### Threads that are released -/

variable {s : State}

theorem heldBy_lt {wk t : Nat} {p : Hold → Bool} (h : t ∈ s.heldBy wk p) : t < 32 := List.mem_range.1 (List.mem_filter.1 h).1

/-- A released thread is held by nothing. -/
theorem foldS_release_hold {wk t : Nat} {l : List Nat} (ht : t ∈ l) (hb : ∀ u ∈ l, u < 32) (s : State) :
    ((foldS l s (fun s t => s.release wk t)).thread wk t).hold = .none := by
  refine foldS_reaches (fun u => (u.thread wk t).hold = .none) ht (fun u => ?_) (fun u v hv hu => ?_) s
  · simp [State.release]
  · by_cases e : v = t
    · subst e
      simp [State.release]
    · have hne : tkey wk v ≠ tkey wk t := fun h => e ((State.tkey_inj (hb v hv) (hb t ht)).1 h).2
      simpa [State.release, State.setThread_thread, hne] using hu

theorem foldS_release_blocks (wk : Nat) (l : List Nat) (s : State) : (foldS l s (fun s t => s.release wk t)).blocks = s.blocks :=
  foldS_keeps State.blocks (fun s t _ => (rfl : (s.release wk t).blocks = s.blocks)) s

theorem foldS_release_cores (wk : Nat) (l : List Nat) (s : State) : (foldS l s (fun s t => s.release wk t)).cores = s.cores :=
  foldS_keeps State.cores (fun s t _ => (rfl : (s.release wk t).cores = s.cores)) s

/-! ### Training a fabric port (R308, R393) -/

/-- Taking a fabric time changes no port's report of its peer. -/
theorem adoptTime_plnk (s : State) (p : Nat) (time : DWord) (back : Bool) (q : Nat) :
    ((s.adoptTime p time back).port q).plnk = (s.port q).plnk := by
  refine foldS_keeps (fun s => (s.port q).plnk) (fun u v _ => ?_) s
  split
  · rw [State.modPort_eq, State.setPort_port]
    split
    · next e => rw [← e]
    · rfl
  · rfl

/-- A port whose offset is set from a time shows that time (R308). -/
theorem ftime_setPort_self (s : State) (p : Nat) (time : DWord) :
    (s.modPort p (fun P => { P with ftOff := time - BitVec.ofNat 64 s.dev.now })).ftime p = time := by
  simp [State.ftime]

/-- The port that takes a peer's time at training shows it at once (R308). -/
theorem adoptTime_ftime (s : State) {p : Nat} (hp : p < 16) (time : DWord) : (s.adoptTime p time true).ftime p = time := by
  refine foldS_reaches (fun u => u.ftime p = time) (List.mem_range.2 hp) (fun u => ?_) (fun u q _ hu => ?_) s
  · simpa using ftime_setPort_self u p time
  · split
    · by_cases e : q = p
      · subst e
        exact ftime_setPort_self u q time
      · rw [State.modPort_eq]
        unfold State.ftime at hu ⊢
        rw [State.setPort_port, if_neg e]
        exact hu
    · exact hu

/-- What a trained port reports of its peer (R393). -/
def peerWord (dev : BitVec 8) (pp : BitVec 4) : Word := BitVec.ofNat 32 (2 ^ 31 + 256 * dev.toNat + pp.toNat)

/-- A fabric port reports its peer. -/
def State.reportPeer (s : State) (p : Nat) (dev : BitVec 8) (pp : BitVec 4) : State := s.modPort p (fun P => { P with plnk := peerWord dev pp })

@[simp] theorem reportPeer_plnk (s : State) (p : Nat) (dev : BitVec 8) (pp : BitVec 4) : ((s.reportPeer p dev pp).port p).plnk = peerWord dev pp := by
  simp [State.reportPeer]

/-- A port that follows its peer takes the peer's time (R308). -/
theorem trainPort_follows {s : State} {p : Nat} {dev : BitVec 8} {pp : BitVec 4} (time : DWord) (h : (s.reportPeer p dev pp).adoptsTime p = true) :
    s.trainPort p dev pp time = (s.reportPeer p dev pp).adoptTime p time true := if_pos h

theorem trainPort_plnk (s : State) (p : Nat) (dev : BitVec 8) (pp : BitVec 4) (time : DWord) :
    ((s.trainPort p dev pp time).port p).plnk = peerWord dev pp := by
  cases h : (s.reportPeer p dev pp).adoptsTime p with
  | true => rw [trainPort_follows time h, adoptTime_plnk, reportPeer_plnk]
  | false =>
    unfold State.trainPort
    refine (congrArg (fun u : State => (u.port p).plnk) (if_neg (fun ht => Bool.noConfusion (h.symm.trans ht)))).trans ?_
    split
    · simp [peerWord]
    · simp [peerWord]

/-- Of the two ports of a link, the higher (device id, port) follows the other (R308). -/
theorem reportPeer_adoptsTime (s : State) (p : Nat) (dev : BitVec 8) (pp : BitVec 4) : (s.reportPeer p dev pp).adoptsTime p = true ↔
    dev.toNat < s.dev.devid.toNat ∨ dev.toNat = s.dev.devid.toNat ∧ pp.toNat < p := by
  have hd := dev.isLt
  have hq := pp.isLt
  have hw : (peerWord dev pp).toNat = 2 ^ 31 + 256 * dev.toNat + pp.toNat := by
    rw [peerWord, BitVec.toNat_ofNat]
    omega
  have hdev : (peerWord dev pp).toNat / 256 % 256 = dev.toNat := by omega
  have hport : (peerWord dev pp).toNat % 16 = pp.toNat := by omega
  have hid : (s.reportPeer p dev pp).dev = s.dev := rfl
  simp [State.adoptsTime, hdev, hport, hid]

theorem trainPort_ftime {s : State} {p : Nat} {dev : BitVec 8} {pp : BitVec 4} (time : DWord) (hp : p < 16)
    (h : dev.toNat < s.dev.devid.toNat ∨ dev.toNat = s.dev.devid.toNat ∧ pp.toNat < p) : (s.trainPort p dev pp time).ftime p = time := by
  rw [trainPort_follows time ((reportPeer_adoptsTime s p dev pp).2 h)]
  exact adoptTime_ftime _ hp time

/-- A hold by LNKCTL `.train` or `.half`: its link, and whether it is for half width (R217). -/
def trainHold : Hold → Option (Bool × Nat × Bool)
  | .linkTrain k i b => some (k, i, b)
  | _ => none

/-- The state in which training leaves its link: a fabric port, or a module at half or at full width (R393). -/
def State.trained (s : State) (k : Bool) (i : Nat) (b : Bool) (bad : Nat) (dev : BitVec 8) (pp : BitVec 4) (time : DWord) : State :=
  if k then s.trainPort i dev pp time
  else s.setLink (k, i) (if b then (if 64 - bad < 32 then { s.link (k, i) with dead := true } else { s.link (k, i) with half := true })
    else (s.link (k, i)).train bad)

/-- Training ends for the link that the first such hold of the warp names, and all that it holds are released. -/
theorem linkTrainComplete_held {die slot i : Nat} {k b : Bool} (hold : s.firstHold (sysKey die slot) trainHold = some (k, i, b)) (bad : Nat)
    (dev : BitVec 8) (pp : BitVec 4) (time : DWord) : exec (.linkTrainComplete die slot bad dev pp time) s =
      .next (foldS ((s.trained k i b bad dev pp time).heldBy (sysKey die slot) (fun h => h == .linkTrain k i b)) (s.trained k i b bad dev pp time)
        (fun s t => s.release (sysKey die slot) t)) := by
  show execLinkTrainComplete die slot bad dev pp time s = _
  unfold execLinkTrainComplete
  dsimp only
  split
  · next hn => cases hn.symm.trans hold
  · next hsome =>
    cases hsome.symm.trans hold
    rfl

/-- Settles O44. Each step finds the hold that its premise names; a block whose context is saved and a fabric port that is trained are the
clauses that look into the state their step leaves. -/
theorem systemSteps : Obligations.SystemSteps := by
  refine ⟨?tldrain, ?winqPop, ?ctxsv, ?ctxld, ?pause, ?remap, ?train, ?half, ?port⟩
  case tldrain =>
    intro die slot s ts hts hdone
    have hacc : s.accList.any (fun p => p.2.tseq != 0 && p.2.rseq ≤ (s.warp (sysKey die slot)).flushAt) = false := by
      rw [List.any_eq_false]
      intro p hp hbusy
      obtain ⟨hseq, hle⟩ := Bool.and_eq_true_iff.1 hbusy
      rcases hdone p hp with h | h
      · simp [h] at hseq
      · exact absurd (of_decide_eq_true hle) (Nat.not_le.2 h)
    refine if_neg ?_
    rintro (h | h)
    · exact hts h
    · rw [hacc] at h
      cases h
  case winqPop =>
    intro die slot n ns page q l s hq hready hpops
    show execWinqPopComplete die slot s = _
    unfold execWinqPopComplete
    dsimp only
    rw [hq, hpops]
    exact if_neg (by simp [hready])
  case ctxsv =>
    intro die slot bk va s hold hready hreach hrel
    have hdue : (s.heldBy (sysKey die slot) (fun h => h == .ctxsv bk va)).any
        (fun t => s.relDue (sysKey die slot) t s.nextId false (.fence true)) = false := by
      rw [List.any_eq_false]
      intro t ht h
      rw [hrel t ht] at h
      cases h
    show ∃ u : State, execCtxsvComplete die slot s = _ ∧ _
    unfold execCtxsvComplete
    dsimp only
    split
    · next hn => cases hn.symm.trans hold
    · next hsome =>
      cases hsome.symm.trans hold
      simp only [hready, hreach, hdue, Bool.not_true, Bool.false_eq_true, or_self, if_false]
      refine ⟨_, rfl, fun t ht => foldS_release_hold ht (fun _ => heldBy_lt) _, ?_⟩
      rw [State.block_congr (foldS_release_blocks ..), State.core_congr (foldS_release_cores ..)]
      simp
  case ctxld =>
    intro die slot bk va s hold hfrom hto
    show execCtxldComplete die slot s = _
    unfold execCtxldComplete
    dsimp only
    split
    · next hn => cases hn.symm.trans hold
    · next hsome =>
      cases hsome.symm.trans hold
      refine if_neg ?_
      rw [hfrom, hto]
      exact Bool.false_ne_true
  case pause =>
    intro die slot i k s hold hempty
    show execLinkPauseComplete die slot s = _
    unfold execLinkPauseComplete
    dsimp only
    split
    · next hn => cases hn.symm.trans hold
    · next hsome =>
      cases hsome.symm.trans hold
      refine if_neg ?_
      cases k with
      | true => simp
      | false => simp [hempty rfl]
  case remap =>
    intro die slot i l p s hold u
    show execLinkRemapComplete die slot s = _
    unfold execLinkRemapComplete
    dsimp only
    split
    · next hn => cases hn.symm.trans hold
    · next hsome =>
      cases hsome.symm.trans hold
      rfl
  case train =>
    intro die slot bad i dev pp time s hold
    exact linkTrainComplete_held hold bad dev pp time
  case half =>
    intro die slot bad i dev pp time s hold
    exact linkTrainComplete_held hold bad dev pp time
  case port =>
    intro die slot bad i b dev pp time s hold
    exact ⟨s.trainPort i dev pp time, linkTrainComplete_held hold bad dev pp time, trainPort_plnk .., fun h hi => trainPort_ftime time hi h⟩

end Sys2Proof.Machine
end

section
/-! SUPPORT. Registers with effects of their own (R211, R213, R260, R264, R309, R320 to R322): what a read or a write comes to. -/

namespace Sys2Proof.Machine

variable {s : State}

theorem sysDie_sysKey {die slot : Nat} (h : slot < 2) : sysDie (sysKey die slot) = die := by
  unfold sysDie sysKey
  omega

/-- A mailbox with no entry on its way stays as it is (R322). -/
theorem mboxFlush_idle {die : Nat} (h : (s.die die).mboxWait = []) : s.mboxFlush die = s := by
  simp [State.mboxFlush, h]

/-- A write of `%quantum` reaches every core of the die (R211). -/
theorem setQuantum_quantum (s : State) (die : Nat) (x : Word) {i : Nat} (hi : i < 48) :
    ((s.setQuantum die x).core (48 * die + i)).quantum = BitVec.ofNat 32 (max 1 (min 65535 x.toNat)) := by
  refine foldS_reaches (fun u => (u.core (48 * die + i)).quantum = _) (List.mem_range.2 hi) (fun u => ?_) (fun u j _ hu => ?_) s
  · simp
  · rw [State.modCore_eq, State.setCore_core]
    split
    · rfl
    · exact hu

/-- A write of `%fpown` that leaves ENTASID as it is changes the owner word alone (R309). -/
theorem writeFpown_same {port : Nat} {x : Word} (h : (s.port port).own.toNat / 65536 = x.toNat / 65536) :
    s.writeFpown port x = s.modPort port (fun P => { P with own := x }) := if_pos h

/-- A command of `%dbgcmd` to one warp acts on the warp that `%dbgtgt` names (R320). -/
theorem foldS_target {die wk : Nat} (h : s.dbgWarp (s.die die).dbgtgt = some wk) (f : State → Nat → State) :
    foldS (optList (s.dbgWarp (s.die die).dbgtgt)) s f = f s wk := by
  rw [h]
  rfl

/-- Settles O45. Most clauses are the write's or the read's own equation; `%quantum` is the one that reaches many cores. -/
theorem registerSteps : Obligations.RegisterSteps := by
  refine ⟨?sysreq, ?mnq, ?mbox, ?chdata, ?mclr, ?quantum, ?fpown, ?dbgdat, ?warp, ?block, ?plain⟩
  case sysreq =>
    intro die slot r s hfind hslot
    show Host.Outcome.next (s.sysreqTake (sysKey die slot)).2 = _
    simp only [State.sysreqTake, sysDie_sysKey hslot, hfind]
  case mnq =>
    intro p l s hq
    show Host.Outcome.next s.mnqTake.2 = _
    unfold State.mnqTake
    rw [hq]
  case mbox =>
    intro die e l s hidle hbox
    show Host.Outcome.next (s.mboxTake die).2 = _
    unfold State.mboxTake
    simp only [mboxFlush_idle hidle, hbox]
  case chdata =>
    intro x s hsel
    refine ⟨rfl, ?_⟩
    unfold State.writeChdata
    simp only [if_neg (Nat.not_lt.2 hsel), State.setDev_dev]
  case mclr =>
    intro x s
    rfl
  case quantum =>
    intro die i x s hi
    refine ⟨s.setQuantum die x, rfl, ?_⟩
    rw [setQuantum_quantum s die x hi, BitVec.toNat_ofNat]
    omega
  case fpown =>
    intro port x s hsame
    exact congrArg Host.Outcome.next (writeFpown_same hsame)
  case dbgdat =>
    intro die x l s hreg
    show Host.Outcome.next (s.dbgWrite die x) = _
    unfold State.dbgWrite
    rw [hreg]
  case warp =>
    intro die wk s hwarp
    exact ⟨congrArg Host.Outcome.next (foldS_target hwarp _), congrArg Host.Outcome.next (foldS_target hwarp _),
      congrArg Host.Outcome.next (foldS_target hwarp _)⟩
  case block =>
    intro die s
    exact ⟨rfl, rfl⟩
  case plain =>
    intro die slot n x s
    rfl

end Sys2Proof.Machine
end

section
/-! SUPPORT. Host accesses, boot and attestation (R210, R310 to R315, R368): what a host access counts and leaves alone, and what it reaches. -/

namespace Sys2Proof.Machine

variable {s u : State}

/-! ### Requests that are counted (R265) -/

/-- A counted host request keeps all that a device counter keeps. -/
theorem hostCount_keeps {β : Type} (p : State → β) (hp : ∀ (s : State) (n k : Nat), p (s.bumpCnt n k) = p s) (s : State) (pa n : Nat) (wr : Bool) :
    p (s.hostCount pa n wr) = p s := by
  unfold State.hostCount
  split
  · rfl
  · refine foldS_keeps p (fun s l _ => ?_) s
    unfold State.countReq
    split
    · rfl
    · exact hp ..

theorem hostCount_mem (s : State) (pa n : Nat) (wr : Bool) : (s.hostCount pa n wr).mem = s.mem := hostCount_keeps State.mem (fun _ _ _ => rfl) ..
theorem hostCount_bad (s : State) (pa n : Nat) (wr : Bool) : (s.hostCount pa n wr).bad = s.bad := hostCount_keeps State.bad (fun _ _ _ => rfl) ..
theorem hostCount_out (s : State) (pa n : Nat) (wr : Bool) : (s.hostCount pa n wr).out = s.out := hostCount_keeps State.out (fun _ _ _ => rfl) ..
theorem hostCount_chtab (s : State) (pa n : Nat) (wr : Bool) : (s.hostCount pa n wr).dev.chtab = s.dev.chtab :=
  hostCount_keeps (fun s => s.dev.chtab) (fun _ _ _ => rfl) ..

/-! ### What memory reads as -/

/-- Memory under the same hash table reads the same (R260). -/
theorem readMem_of_chtab (hm : u.mem = s.mem) (hc : u.dev.chtab = s.dev.chtab) (swz pa n : Nat) : u.readMem swz pa n = s.readMem swz pa n := by
  simp only [readMem_eq, State.byteAt, hm, hc]

/-- The same words are bad under the same hash table (R368). -/
theorem badAt_of_chtab (hb : u.bad = s.bad) (hc : u.dev.chtab = s.dev.chtab) (swz pa n : Nat) : u.badAt swz pa n = s.badAt swz pa n := by
  simp only [State.badAt, hb, hc]

/-- A check code that finds nothing changes nothing (R368). -/
theorem eccAt_clean (s : State) (swz pa : Nat) : s.eccAt swz pa .clean = s := by
  unfold State.eccAt
  split
  · rfl
  · rfl

/-! ### Host accesses (R310, R312) -/

/-- A host access that need not wait is performed. -/
theorem hostTake_now {q : HostReq} (h : s.hostBehind s.dev.hostWait q = false) : s.hostTake q = s.hostGo q := if_neg (by simp [h])

/-- Device memory behind the first HDM decoder (R310). -/
theorem hdmPA_first {o n : Nat} (hn : 0 < n) (ho : o + n ≤ 2 ^ 39) : s.hdmPA (s.dev.hdm0 + o) n = some o := by
  have hin : s.dev.hdm0 ≤ s.dev.hdm0 + o ∧ s.dev.hdm0 + o + n ≤ s.dev.hdm0 + 0x8000000000 := by omega
  rw [State.hdmPA, if_neg (Nat.ne_of_gt hn), if_pos hin, Nat.add_sub_cancel_left]

theorem hostRead_memory {pa n a : Nat} (hpa : pa < bar0) (ha : s.hdmPA pa n = some a) :
    s.hostRead pa n .clean = (s.hostCount a n false).emit (.hostData pa (s.readMem 0 a n) (s.badAt 0 a n)) := by
  have h2 : ¬ bar2 ≤ pa := Nat.not_le.2 (hpa.trans (Nat.pow_lt_pow_right (by decide) (by decide)))
  have h0 : ¬ bar0 ≤ pa := Nat.not_le.2 hpa
  have hmem := readMem_of_chtab (hostCount_mem s a n false) (hostCount_chtab s a n false) 0 a n
  have hbad := badAt_of_chtab (hostCount_bad s a n false) (hostCount_chtab s a n false) 0 a n
  simp only [State.hostRead, if_neg h2, if_neg h0, ha, eccAt_clean, hmem, hbad]

/-- A host's read of good memory gives its bytes and changes none (R312, R368). -/
theorem hostMemRead_memory {pa n a : Nat} (hpa : pa < bar0) (ha : s.hdmPA pa n = some a) (hgood : s.badAt 0 a n = false)
    (hnow : s.hostBehind s.dev.hostWait (.read pa n .clean) = false) :
    ∃ u : State, exec (.hostMemRead pa n .clean) s = .next u ∧ u.out = s.out ++ [.hostData pa (s.readMem 0 a n) false] ∧ u.mem = s.mem := by
  refine ⟨(s.hostCount a n false).emit (.hostData pa (s.readMem 0 a n) false), ?_, ?_, ?_⟩
  · have hread := hostRead_memory hpa ha
    rw [hgood] at hread
    exact congrArg Host.Outcome.next ((hostTake_now hnow).trans hread)
  · rw [State.emit, hostCount_out]
  · exact hostCount_mem ..

/-- A host's write to memory (R312). -/
theorem hostMemWrite_memory {pa a : Nat} {data : List Byte} (hpa : pa < bar0) (ha : s.hdmPA pa data.length = some a)
    (hnow : s.hostBehind s.dev.hostWait (.write pa data) = false) :
    exec (.hostMemWrite pa data) s = .next ((s.hostCount a data.length true).writeMem 0 a data) := by
  refine congrArg Host.Outcome.next ((hostTake_now hnow).trans ?_)
  show s.hostWrite pa data = _
  rw [State.hostWrite, if_neg (Nat.not_le.2 hpa), ha]

/-! ### Boot (R314) -/

/-- What the ROM makes of an image: where both checks pass it runs, else recovery has the code of the first that fails. -/
theorem imageErr_cases {α : Type} (f : Firmware) (run : α) (fail : BitVec 16 → α) :
    (if imageErr f = 0 then run else fail (imageErr f)) =
      if Config.signatureGood f.raw = false then fail 1 else if Config.imageFormatGood f.raw = false then fail 2 else run := by
  unfold imageErr
  cases Config.signatureGood f.raw with
  | false => rfl
  | true =>
    cases Config.imageFormatGood f.raw with
    | false => rfl
    | true => rfl

/-- Settles O48. An access through the first HDM decoder is one to the memory that decoder leads to; power-on and recovery share what the ROM
makes of an image. -/
theorem hostSteps : Obligations.HostSteps := by
  refine ⟨?readFirst, ?writeFirst, ?read, ?write, ?boot, ?empty, ?recovery, ?reset, ?measurements, ?replies, ?challenge⟩
  case readFirst =>
    intro o n s hn ho hpa hgood hnow
    exact hostMemRead_memory hpa (hdmPA_first hn ho) hgood hnow
  case writeFirst =>
    intro o data s hdata ho hpa hnow
    exact hostMemWrite_memory hpa (hdmPA_first (List.length_pos_iff.2 hdata) ho) hnow
  case read =>
    intro pa n a s hpa ha hgood hnow
    exact hostMemRead_memory hpa ha hgood hnow
  case write =>
    intro pa a data s hpa ha hnow
    exact hostMemWrite_memory hpa ha hnow
  case boot =>
    intro f s h0
    show execPowerOnBoot (some f) s = _
    unfold execPowerOnBoot
    rw [if_neg (not_not.2 h0)]
    exact (apply_ite Host.Outcome.next ..).symm.trans (congrArg Host.Outcome.next (imageErr_cases f _ (fun e => (s.setBoot 1 0).setBoot 3 e)))
  case empty =>
    intro s h0
    exact if_neg (not_not.2 h0)
  case recovery =>
    intro f s h3 hwin
    show execRecoveryStart f s = _
    unfold execRecoveryStart
    rw [if_neg (by simp [h3, hwin])]
    exact (apply_ite Host.Outcome.next ..).symm.trans (congrArg Host.Outcome.next (imageErr_cases f _ (fun e => (s.setBoot 1 0).setBoot 3 e)))
  case reset =>
    intro s
    rfl
  case measurements =>
    intro s
    rfl
  case replies =>
    intro s x hx
    simp only [List.mem_cons, List.not_mem_nil, or_false] at hx
    rcases hx with rfl | rfl | rfl | rfl
    · rfl
    · rfl
    · rfl
    · rfl
  case challenge =>
    intro s
    exact ⟨_, rfl⟩

end Sys2Proof.Machine
end

section
/-! SUPPORT. Steps of array commands (R222 to R224, R379, R380): which command a unit starts, the read of a unit whose sources are at hand, the
landing of the oldest result, and what a command that leaves notes. -/

namespace Sys2Proof.Machine

/-- The command with its count going on from now where the sources of its next unit came late (log 45). -/
def Cmd.caughtUp (c : Cmd) (clk : Nat) : Cmd :=
  if c.readOff c.rdone < c.elapsed clk then { c with start := clk, skip := c.readOff c.rdone } else c

variable {c : Cmd} {s : State} {cid : Nat}

/-! ### Starts (R222) -/

theorem queued_of_atHead (h : s.atHead cid c = true) : c.st = .queued := by
  unfold State.atHead at h
  exact eq_of_beq (Bool.and_eq_true_iff.1 h).1

theorem atHead_of_mayStart (h : s.mayStart cid c = true) : s.atHead cid c = true := by
  simp only [State.mayStart, State.arrHead, State.mayAccept, Bool.and_eq_true] at h
  obtain ⟨⟨⟨⟨-, ⟨hhead, -⟩, -⟩, -⟩, -⟩, -⟩ := h
  exact hhead

/-- No head that entered its queue before the command waits for its unit. -/
theorem no_earlier_head
    (h : ∀ p ∈ s.cmdList, p.1 < cid → coreOf p.2.wk = coreOf c.wk → xferUnit p.2.ins = xferUnit c.ins → s.arrHead p.1 p.2 = false) :
    s.cmdList.any (fun p => p.1 < cid && coreOf p.2.wk == coreOf c.wk && xferUnit p.2.ins == xferUnit c.ins && s.arrHead p.1 p.2) = false := by
  rw [List.any_eq_false]
  rintro p hp hall
  simp only [Bool.and_eq_true, decide_eq_true_eq, beq_iff_eq] at hall
  obtain ⟨⟨⟨hlt, hcore⟩, hunit⟩, hhead⟩ := hall
  exact absurd ((h p hp hlt hcore hunit).symm.trans hhead) Bool.false_ne_true

/-! ### The read of a unit (R59, R224) -/

@[simp] theorem Cmd.caughtUp_unit (clk : Nat) : (c.caughtUp clk).unit = c.unit := by unfold Cmd.caughtUp; split <;> rfl
@[simp] theorem Cmd.caughtUp_err (clk : Nat) : (c.caughtUp clk).err = c.err := by unfold Cmd.caughtUp; split <;> rfl
@[simp] theorem Cmd.caughtUp_res (clk : Nat) : (c.caughtUp clk).res = c.res := by unfold Cmd.caughtUp; split <;> rfl

/-- Clean check codes report and change nothing (R382). -/
@[simp] theorem regEcc_clean (ps : List Spot) : s.regEcc ps .clean = s := by
  cases ps with
  | nil => rfl
  | cons p ps => rfl

theorem arrMem_units {ecc : Ecc} (h : fromMem c.ins = false) : s.arrMem cid c ecc = s.unitRead cid c ecc :=
  if_pos (by rw [h]; rfl)

theorem err_of_unitDue (h : s.unitDue c = true) : c.err = 0 := by
  simp only [State.unitDue, Bool.and_eq_true, beq_iff_eq] at h
  obtain ⟨⟨⟨⟨⟨⟨-, herr⟩, -⟩, -⟩, -⟩, -⟩, -⟩ := h
  exact herr

/-- A unit that is due is read with its results, where no source is poisoned and the residue checks find nothing in it. -/
theorem unitRead_clean (hdue : s.unitDue c = true) (hunit : c.unit ≠ c.rdone)
    (hpois : (s.arrUses (c.caughtUp s.clk) (c.units.getD c.rdone 0)).any (fun p => s.arrPois (c.caughtUp s.clk) p) = false) :
    s.unitRead cid c .clean = s.setCmd cid (some { c.caughtUp s.clk with
      rdone := c.rdone + 1, res := c.res ++ s.arrOut (c.caughtUp s.clk) (c.units.getD c.rdone 0) }) := by
  unfold State.unitRead
  rw [if_neg (by simp [hdue])]
  extract_lets idx i d uses u zero
  have hd : d = c.caughtUp s.clk := rfl
  have hu : u = s := regEcc_clean uses
  have hsources : uses.any (fun p => u.arrPois d p) = false := by rw [hu]; exact hpois
  have hother : d.unit ≠ idx := by rw [hd, Cmd.caughtUp_unit]; exact hunit
  have herr : d.err = 0 := by rw [hd, Cmd.caughtUp_err, err_of_unitDue hdue]
  rw [if_neg (by simp [hsources]), if_neg hother]
  dsimp only
  rw [if_neg (by simp [herr]), hu, hd, Cmd.caughtUp_res]

/-! ### The landing of a result (R60, R224) -/

theorem spotPut_clk (s : State) (x : Word) (p : Spot) : (s.spotPut x p).clk = s.clk := by
  cases p with
  | reg l =>
    cases l with
    | v wk t i => rfl
    | s wk i => rfl
  | tile bk i => rfl
  | slot bk i => rfl

theorem spotFill_clk (s : State) (p : Spot) : (s.spotFill p).clk = s.clk := by
  cases p with
  | reg l =>
    unfold State.spotFill
    dsimp only
    split
    · rfl
    · cases l with
      | v wk t i => rfl
      | s wk i => rfl
  | tile bk i => rfl
  | slot bk i => rfl

/-- A result is put in place in the cycle that it lands in. -/
theorem landing_clk (ws : List (Nat × Word)) (place : Nat → Spot) (fills : List Spot) (s : State) :
    (foldS fills (foldS ws s (fun s p => s.spotPut p.2 (place p.1))) (fun s p => s.spotFill p)).clk = s.clk :=
  (foldS_keeps State.clk (fun s p _ => spotFill_clk s p) _).trans (foldS_keeps State.clk (fun s p _ => spotPut_clk s p.2 (place p.1)) s)

theorem arrLand_units (h : fromMem c.ins = false) : s.arrLand cid c = s.unitLand cid c :=
  if_pos (by rw [h]; rfl)

/-- The oldest result of a running command lands once its cycle has come. -/
theorem unitLand_cons {ws : List (Nat × Word)} {l : List (List (Nat × Word))} (hst : c.st = .running) (hres : c.res = ws :: l)
    (hclk : c.landOff c.ldone ≤ c.elapsed s.clk) :
    s.unitLand cid c =
      ((foldS (s.arrFills c c.ldone) (foldS ws s (fun s p => s.spotPut p.2 (c.resSpot p.1))) (fun s p => s.spotFill p)).watchLand c.wk
        (if s.arrFills c c.ldone = [] then granSpots (ws.map (fun p => c.resSpot p.1)) else s.arrFills c c.ldone)).setCmd cid
        (some { c with res := l, ldone := c.ldone + 1, landClk := if c.landClk.1 = s.clk then c.landClk else (s.clk, c.ldone) }) := by
  unfold State.unitLand
  rw [hres]
  dsimp only
  rw [if_neg (by simp [hst, Nat.not_lt.2 hclk]), landing_clk]

/-! ### Retirement (R224) -/

/-- An array command that leaves notes its warp's progress, once in a cycle. -/
theorem endCmd_array (hc : s.cmd cid = some c) (ha : c.array = true) (hnote : (s.warp c.wk).aprogOld.1 ≠ s.clk) :
    s.endCmd cid =
      (((s.modWarp c.wk (fun w => { w with aprogOld := (s.clk, s.aprog c.wk) })).dropRanges cid).setCmd cid none).completeNum c := by
  unfold State.endCmd
  rw [hc]
  simp [ha, hnote]

/-- Settles O40: the guards of each step are the premises of its clause. A read and a landing are those of O39 where the sources are not memory;
what a landing puts in place leaves the cycle that it is noted with. -/
theorem arraySteps : Obligations.ArraySteps := by
  refine ⟨?start, ?context, ?read, ?land, ?consumed, ?ends, ?retire⟩
  case start =>
    intro cid r c s hc hm _ hfirst
    have hst : c.st = .queued := queued_of_atHead (atHead_of_mayStart hm)
    show Host.Outcome.next (s.startArray cid r) = _
    unfold State.startArray
    rw [hc]
    simp [hst, hm, no_earlier_head hfirst]
  case context => -- a command that waited for its ladder context
    intro cid r c s hc ha hst hon haw hlad
    show Host.Outcome.next (s.startArray cid r) = _
    unfold State.startArray
    rw [hc]
    simp [ha, hst, hon, haw, hlad]
  case read => -- a memory access of O39, of a command whose sources are registers, tiles or slots
    intro cid c s hc ha hst hon htag hmem hdue hunit d hpois
    obtain ⟨-, -, haccess, -⟩ := engineSteps
    rw [haccess cid .clean c s hc hst hon (by simp [htag]), if_pos ha, arrMem_units hmem, unitRead_clean hdue hunit hpois]
    rfl
  case land => -- a landing of O39, likewise
    intro cid c ws l s hc ha hst hon hmem hres hclk fills u
    obtain ⟨-, -, -, hlanding, -⟩ := engineSteps
    rw [hlanding cid c s hc hst hon, if_pos ha, arrLand_units hmem, unitLand_cons hst hres hclk]
  case consumed =>
    intro cid c s hc ha hst hcons haw hmem _ hdone hunits hclk
    show execArraySrcConsumed cid s = _
    unfold execArraySrcConsumed
    rw [hc]
    have hpos : c.rdone ≠ 0 := hdone.trans_ne (mt List.length_eq_zero_iff.1 hunits)
    refine if_neg ?_
    split -- a push reports once its first step is read, every other command once all its units are
    · simp [ha, hst, hcons, haw, hmem, Nat.not_lt.2 hclk, hpos]
    · simp [ha, hst, hcons, haw, hmem, Nat.not_lt.2 hclk, hdone]
  case ends =>
    intro cid c s hc ha hst hon hend
    show execArrayCmdEnd cid s = _
    unfold execArrayCmdEnd
    rw [hc]
    simp [ha, hst, hon, hend]
  case retire =>
    intro cid c s hc ha hst hclk hnote
    show execArrayCmdRetire cid s = _
    unfold execArrayCmdRetire
    rw [hc]
    simp [ha, hst, hclk, endCmd_array hc ha hnote]

end Sys2Proof.Machine
end

section
/-! SUPPORT. Memory that is read and written whole (R243, R259 to R262), and its form at reset. -/

namespace Sys2Proof.Machine

/-- A write leaves every other address as it was: distinct addresses have distinct places. -/
theorem byteAt_writeMem_ne (s : State) (swz pa : Nat) (l : List Byte) {a : Nat} (h : ∀ k < l.length, a ≠ pa + k) :
    (s.writeMem swz pa l).byteAt swz a = s.byteAt swz a := by
  obtain ⟨hmem, hdev⟩ := healAt_mem (s := s) swz pa l.length
  exact (byteAt_writeBytes_ne swz pa l h).trans (byteAt_congr hmem hdev swz a)

/-- Settles O56: the hash table only says where an address is placed, and two addresses are never placed alike. -/
theorem memoryReadsBack : Obligations.MemoryReadsBack :=
  fun s swz pa l => ⟨readMem_writeMem s swz pa l, fun _ h => byteAt_writeMem_ne s swz pa l h⟩

/-- Settles O53: no byte is listed at reset. -/
theorem memoryFormAtReset : Obligations.MemoryFormAtReset := Fmap.wf_nil memDefault

end Sys2Proof.Machine
end

section
/-! SUPPORT. The operations of the state that leave memory as it was. -/

namespace Sys2Proof.Machine.State

/-- `u` has the memory of `s`. -/
def SameMem (s u : State) : Prop := u.mem = s.mem

@[simp] theorem sameMem_iff {s u : State} : SameMem s u ↔ u.mem = s.mem := ⟨id, id⟩

/-- `mem` of a choice is the choice of the two. -/
@[simp] theorem ite_mem {p : Prop} [Decidable p] (s u : State) : (if p then s else u).mem = if p then s.mem else u.mem := apply_ite mem p s u

@[simp] theorem foldS_mem {α : Type} (l : List α) (s : State) (f : State → α → State) (h : ∀ s a, SameMem s (f s a)) : (foldS l s f).mem = s.mem :=
  foldS_keeps mem (fun s a _ => h s a) s

@[simp] theorem foldl_mem {α : Type} (l : List α) (s : State) (f : State → α → State) (h : ∀ s a, SameMem s (f s a)) : (l.foldl f s).mem = s.mem :=
  foldS_keeps mem (fun s a _ => h s a) s

@[simp] theorem free_mem (s : State) : (s.free).2.mem = s.mem := rfl

@[simp] theorem setFull_mem (s : State) (x : Bool) (l : Loc) : (s.setFull x l).mem = s.mem := by
  unfold setFull
  split <;> simp

@[simp] theorem clearPois_mem (s : State) (l : Loc) : (s.clearPois l).mem = s.mem := by
  unfold clearPois
  repeat' split
  all_goals simp

@[simp] theorem poison_mem (s : State) (l : Loc) : (s.poison l).mem = s.mem := by
  unfold poison
  split <;> simp

@[simp] theorem putLoc_mem (s : State) (x : Word) (l : Loc) : (s.putLoc x l).mem = s.mem := by
  unfold putLoc
  split <;> simp

@[simp] theorem noteEmptied_mem (s : State) (byCmd : Bool) (l : Loc) : (s.noteEmptied byCmd l).mem = s.mem := rfl

@[simp] theorem writeLoc_mem (s : State) (l : Loc) (x : Word) : (s.writeLoc l x).mem = s.mem := by simp [writeLoc]

@[simp] theorem setPend_mem (s : State) (x : Nat) (l : Loc) : (s.setPend x l).mem = s.mem := by
  unfold setPend
  split <;> simp

@[simp] theorem soon_mem (s : State) (wk : Nat) (xs : List Res) (lat : Nat) : (s.soon wk xs lat).mem = s.mem := by simp [soon]

@[simp] theorem setPred_mem (s : State) (wk t p : Nat) (x : Bool) : (s.setPred wk t p x).mem = s.mem := rfl

@[simp] theorem writeLocs_mem (s : State) (ls : List Loc) (xs : List Word) : (s.writeLocs ls xs).mem = s.mem := by
  induction ls generalizing s xs with
  | nil => rfl
  | cons l ls ih =>
    cases xs with
    | nil => rfl
    | cons x xs => exact (ih _ xs).trans (writeLoc_mem s l x)

@[simp] theorem healCover_mem (s : State) (swz : Nat) (rs : List (Nat × Nat)) : (s.healCover swz rs).mem = s.mem := by simp [healCover]

@[simp] theorem markBad_mem (s : State) (swz pa n : Nat) : (s.markBad swz pa n).mem = s.mem := by simp [markBad]

@[simp] theorem bumpCnt_mem (s : State) (n k : Nat) : (s.bumpCnt n k).mem = s.mem := rfl

@[simp] theorem countGroup_mem (s : State) (g : Nat) : (s.countGroup g).mem = s.mem := by simp [countGroup]

@[simp] theorem takeCrossing_mem (s : State) (p : Nat × Nat) : (s.takeCrossing p).mem = s.mem := by simp [takeCrossing]

@[simp] theorem takeCrossings_mem (s : State) : (s.takeCrossings).mem = s.mem := by simp [takeCrossings]

@[simp] theorem countReq_mem (s : State) (swz pa : Nat) (write : Bool) (cgrp : Option Nat) : (s.countReq swz pa write cgrp).mem = s.mem := by
  unfold countReq
  repeat' split
  all_goals simp

@[simp] theorem countWalk_mem (s : State) (asid : BitVec 16) (va : DWord) : (s.countWalk asid va).mem = s.mem := by simp [countWalk]

@[simp] theorem setLast_mem (s : State) (core : Nat) (lane : Option Nat) (e : TlbE) : (s.setLast core lane e).mem = s.mem := by
  unfold setLast
  split <;> simp

@[simp] theorem lookup_mem (s : State) (core : Nat) (lane : Option Nat) (asid : BitVec 16) (va : DWord) :
    (s.lookup core lane asid va).2.mem = s.mem := by
  simp only [lookup]
  repeat' split
  all_goals simp

@[simp] theorem xlate_mem (s : State) (core : Nat) (lane : Option Nat) (asid : BitVec 16) (va : DWord) (p : Perm) :
    (s.xlate core lane asid va p).2.mem = s.mem := by
  have hlook := s.lookup_mem core lane asid va
  unfold xlate
  split
  · rfl
  · split <;> next e =>
      rw [e] at hlook
      simp [← hlook, apply_ite Prod.snd]

@[simp] theorem countLines_mem (s : State) (x : Xl) (n : Nat) (write : Bool) : (s.countLines x n write).mem = s.mem := by simp [countLines]

@[simp] theorem countD_mem (s : State) (asid : BitVec 16) (va : DWord) (n : Nat) (write : Bool) : (s.countD asid va n write).mem = s.mem :=
  foldS_mem _ _ _ (fun s p => by
    dsimp only
    split <;> simp)

@[simp] theorem setKreg_mem (s : State) (bk k : Nat) (x : KReg) : (s.setKreg bk k x).mem = s.mem := rfl

@[simp] theorem exitFills_mem (s s0 : State) (bk : Nat) : (s.exitFills s0 bk).mem = s.mem := by simp [exitFills]

@[simp] theorem release_mem (s : State) (wk t : Nat) : (s.release wk t).mem = s.mem := rfl

@[simp] theorem barCheck_mem (s : State) (bk id : Nat) : (s.barCheck bk id).mem = s.mem := by simp [barCheck]

@[simp] theorem gbarCheck_mem (s : State) (lid g : Nat) : (s.gbarCheck lid g).mem = s.mem :=
  gbarCheck_keeps mem release_mem s lid g

@[simp] theorem retireWarp_mem (s : State) (wk : Nat) : (s.retireWarp wk).mem = s.mem := by
  simp only [retireWarp]
  repeat' split
  all_goals simp

@[simp] theorem exitThread_mem (s0 : State) (wk t : Nat) : (s0.exitThread wk t).mem = s0.mem := by
  simp only [exitThread]
  repeat' split
  all_goals simp

@[simp] theorem returnTrap_mem (s : State) (wk t : Nat) : (s.returnTrap wk t).mem = s.mem := rfl

@[simp] theorem tick_mem (s : State) (n : Nat) : (s.tick n).mem = s.mem := rfl

@[simp] theorem tdSyncTo_mem (s : State) (c b : Nat) : (s.tdSyncTo c b).mem = s.mem := by simp [tdSyncTo]

@[simp] theorem tdSync_mem (s : State) (c : Nat) : (s.tdSync c).mem = s.mem := by simp [tdSync]

@[simp] theorem tookSlice_mem (s : State) (wk : Nat) : (s.tookSlice wk).mem = s.mem := rfl

@[simp] theorem passLane_mem (s : State) (key cls n : Nat) : (s.passLane key cls n).mem = s.mem := by
  unfold passLane
  repeat' split
  all_goals simp

@[simp] theorem setFlags_mem (s : State) (wk t : Nat) (f : Word) : (s.setFlags wk t f).mem = s.mem := by simp [setFlags]

@[simp] theorem noteHits_mem (s : State) (core wk : Nat) (m : BitVec 4) : (s.noteHits core wk m).mem = s.mem := by simp [noteHits]

@[simp] theorem watchCells_mem (s : State) (wk : Nat) (rd wr : List Cell) : (s.watchCells wk rd wr).mem = s.mem := by simp [watchCells]

@[simp] theorem watchLocs_mem (s : State) (wk : Nat) (rd wr : List Loc) : (s.watchLocs wk rd wr).mem = s.mem := by simp [watchLocs]

@[simp] theorem pushInd_mem (s : State) (r : Run) : (s.pushInd r).mem = s.mem := by
  unfold pushInd
  split <;> simp

@[simp] theorem endInstr_mem (s : State) (key : Nat) (i : Instr) (h : Hdr) (br : Word) (cycles : Nat) :
    (s.endInstr key i h br cycles).mem = s.mem := by
  unfold endInstr
  split <;> simp

@[simp] theorem takeLocs_mem (s : State) (h : Hdr) (ls : List Loc) : (s.takeLocs h ls).mem = s.mem := by simp [takeLocs]

@[simp] theorem noteInd_mem (s : State) (key lat : Nat) (ls : List Loc) : (s.noteInd key lat ls).mem = s.mem := by
  induction ls generalizing s with
  | nil => rfl
  | cons l ls ih => exact ih _

@[simp] theorem noteOps_mem (s : State) (c : TC) (late : Nat) : (s.noteOps c late).mem = s.mem := by simp [noteOps]

@[simp] theorem markServed_mem (s : State) (key : Nat) (m : Word) : (s.markServed key m).mem = s.mem := rfl

@[simp] theorem stall_mem (s : State) (key : Nat) : (s.stall key).mem = s.mem := rfl

@[simp] theorem takeEach_mem (s : State) (h : Hdr) (g : Sig) (ka kb : ImmK) (key : Nat) (r : Run) (act : Word) (ts : List Nat) :
    (s.takeEach h g ka kb key r act ts).1.mem = s.mem := by
  induction ts generalizing s with
  | nil => rfl
  | cons t ts ih =>
    unfold takeEach
    repeat' split
    all_goals simp [ih]

@[simp] theorem noteAll_mem (s : State) (step : Nat) (cs : List TC) : (s.noteAll step cs).mem = s.mem := by
  induction cs generalizing s with
  | nil => rfl
  | cons c cs ih => simp [noteAll, ih]

@[simp] theorem writeD1_mem (s : State) (d : List Loc) (x : Word) : (s.writeD1 d x).mem = s.mem := by
  unfold writeD1
  split <;> simp

@[simp] theorem writeD2_mem (s : State) (d : List Loc) (x : DWord) : (s.writeD2 d x).mem = s.mem := by
  unfold writeD2
  split <;> simp

@[simp] theorem rowXl_mem (s : State) (wk : Nat) (p : Perm) (qs : List (DWord × Nat)) : (s.rowXl wk p qs).2.mem = s.mem := by
  induction qs generalizing s with
  | nil => rfl
  | cons q qs ih =>
    have hx := s.xlate_mem (coreOf wk) none (s.warp wk).asid q.1 p
    unfold rowXl
    split
    · rfl
    split
    · next e => rw [← hx, e]
    · next x u e =>
      rw [e] at hx
      have hrest := (ih u).trans hx
      split
      · exact hx
      · split <;> next e2 => rwa [e2] at hrest

@[simp] theorem addReq_mem (s : State) (core iid : Nat) (asid : BitVec 16) (va : DWord) (acc : BitVec 2) (level : Nat) (eng : Bool) :
    (s.addReq core iid asid va acc level eng).mem = s.mem := by simp [addReq]

@[simp] theorem stkPut_mem (s : State) (wk t e : Nat) (x : Word) : (s.stkPut wk t e x).mem = s.mem := rfl

@[simp] theorem pushQ_mem (s : State) (wk n : Nat) (e : QEntry) : (s.pushQ wk n e).mem = s.mem := rfl

@[simp] theorem invalidate_mem (s : State) (wk w : Nat) : (s.invalidate wk w).mem = s.mem := rfl

@[simp] theorem revoke_mem (s : State) (wk w : Nat) : (s.revoke wk w).mem = s.mem := rfl

@[simp] theorem revwDone_mem (s : State) (wk : Nat) : (s.revwDone wk).mem = s.mem := by
  unfold revwDone
  split <;> simp

@[simp] theorem runIid_mem (s : State) (key : Nat) : (s.runIid key).2.mem = s.mem := by
  unfold runIid
  repeat' split
  all_goals simp

@[simp] theorem issue_mem (s : State) (c : TC) (q : Req) : (s.issue c q).mem = s.mem := by
  simp [issue]

@[simp] theorem enterLog_mem (s : State) (id : Nat) : (s.enterLog id).mem = s.mem := by
  unfold enterLog
  split <;> simp

@[simp] theorem logBehind_mem (s : State) (id : Nat) : (s.logBehind id).mem = s.mem := by
  unfold logBehind
  split <;> simp

@[simp] theorem sideLog_mem (s : State) (wk : Nat) : (s.sideLog wk).mem = s.mem := by
  unfold sideLog
  split <;> simp

@[simp] theorem fillQ_mem (s : State) (wk n iid : Nat) (x : Word) : (s.fillQ wk n iid x).mem = s.mem := rfl

@[simp] theorem clearDue_mem (s : State) (iid : Nat) (l : Loc) : (s.clearDue iid l).mem = s.mem := by simp [clearDue]

@[simp] theorem dropAcc_mem (s : State) (id : Nat) : (s.dropAcc id).mem = s.mem := by
  unfold dropAcc
  split <;> simp

@[simp] theorem failOne_mem (s : State) (p : Nat × Access) : (s.failOne p).mem = s.mem := by
  simp only [failOne]
  repeat' split
  all_goals simp

@[simp] theorem translated_mem (s : State) (x : Xl) (rseq : Nat) (first : Access) (p : Nat × Access) :
    (s.translated x rseq first p).mem = s.mem := rfl

@[simp] theorem notPresent_mem (s : State) (p : Nat × Access) : (s.notPresent p).mem = s.mem := by simp [notPresent]

@[simp] theorem faultPresent_mem (s : State) (d : Nat) : (s.faultPresent d).mem = s.mem := by simp [faultPresent]

@[simp] theorem mnqRetry_mem (s : State) : (s.mnqRetry).mem = s.mem := by simp [mnqRetry]

@[simp] theorem eccAt_mem (s : State) (swz pa : Nat) (e : Ecc) : (s.eccAt swz pa e).mem = s.mem := by
  unfold eccAt
  repeat' split
  all_goals simp

@[simp] theorem portServed_mem (s : State) (a : Access) : (s.portServed a).mem = s.mem := by
  unfold portServed
  split <;> simp

@[simp] theorem land_mem (s : State) (iid t : Nat) : (s.land iid t).mem = s.mem := by
  simp only [land]
  repeat' split
  all_goals simp

@[simp] theorem qcntAdvance_mem (s : State) : (s.qcntAdvance).mem = s.mem := by simp [qcntAdvance]

@[simp] theorem holdRel_mem (s : State) (wk : Nat) (who : Word) (upTo : Nat) (single : Bool) (act : Act) :
    (s.holdRel wk who upTo single act).mem = s.mem := by simp [holdRel]

@[simp] theorem scrubReg_mem (s : State) (core : Nat) (e : Ecc) (bad : State → State) (h : ∀ s, (bad s).mem = s.mem) :
    (s.scrubReg core e bad).mem = s.mem := by
  unfold scrubReg
  split <;> simp [h]

@[simp] theorem releaseThen_mem (s : State) (wk t : Nat) (act : Act) (f : State → State) (h : ∀ s, (f s).mem = s.mem) :
    (s.releaseThen wk t act f).mem = s.mem := by
  simp [releaseThen, h]

@[simp] theorem barArrive_mem (s : State) (wk t id : Nat) (n : Option Nat) : (s.barArrive wk t id n).mem = s.mem := by simp [barArrive]

@[simp] theorem gbarArrive_mem (s : State) (wk t g : Nat) : (s.gbarArrive wk t g).mem = s.mem := by simp [gbarArrive]

@[simp] theorem obPut_mem (s : State) (o : List Loc) (phase bytes : Word) (arrv init : Half) :
    (s.obPut o phase bytes arrv init).mem = s.mem := by simp [obPut]

@[simp] theorem obCheck_mem (s : State) (o : List Loc) : (s.obCheck o).mem = s.mem := by simp [obCheck]

@[simp] theorem obAdd_mem (s : State) (o : List Loc) (x : Word) : (s.obAdd o x).mem = s.mem := by simp [obAdd]

@[simp] theorem obArrive_mem (s : State) (o d : List Loc) : (s.obArrive o d).mem = s.mem := by simp [obArrive]

@[simp] theorem expect_mem (s : State) (key wk : Nat) (ls : List Loc) : (s.expect key wk ls).mem = s.mem := by simp [expect]

@[simp] theorem undue_mem (s : State) (wk : Nat) (ls : List Loc) : (s.undue wk ls).mem = s.mem := by simp [undue]

@[simp] theorem unsign_mem (s : State) (bk k tk : Nat) : (s.unsign bk k tk).mem = s.mem := rfl

@[simp] theorem closeRound_mem (s : State) (bk k : Nat) : (s.closeRound bk k).mem = s.mem :=
  foldS_mem _ _ _ (fun s tk => by split <;> simp)

@[simp] theorem setGuard_mem (s : State) (wk g : Nat) (x : GState) : (s.setGuard wk g x).mem = s.mem := rfl

@[simp] theorem goAll_mem (s : State) (c : TC) (pc : DWord) : (s.goAll c pc).mem = s.mem := by simp [goAll]

@[simp] theorem sysRequest_mem (s : State) (wk code : Nat) (arg : DWord) (d : Nat) (mask : Word) :
    (s.sysRequest wk code arg d mask).mem = s.mem := by simp [sysRequest]

theorem releaseAll_mem {f : State → State} (h : ∀ s, (f s).mem = s.mem) (s : State) (wk : Nat) (mask : Word) (act : Act) :
    (s.releaseAll wk mask act f).mem = s.mem := by
  unfold releaseAll
  split <;> simp [h]

@[simp] theorem deliverTo_mem (s : State) (wk : Nat) (ls : List Loc) (xs : List Word) : (s.deliverTo wk ls xs).mem = s.mem := by simp [deliverTo]

@[simp] theorem trace_mem (s : State) (d kind value core btag warp : Nat) : (s.trace d kind value core btag warp).mem = s.mem := by simp [trace]

@[simp] theorem mboxPost_mem (s : State) (d idx wk : Nat) (e : DWord) : (s.mboxPost d idx wk e).mem = s.mem := rfl

@[simp] theorem mboxFlush_mem (s : State) (d : Nat) : (s.mboxFlush d).mem = s.mem := by simp [mboxFlush]

@[simp] theorem hostMbox_mem (s : State) (die : Nat) (x : DWord) : (s.hostMbox die x).mem = s.mem := rfl

@[simp] theorem ovrClear_mem (s : State) (die : Nat) (x : DWord) : (s.ovrClear die x).mem = s.mem := by simp [ovrClear]

@[simp] theorem mboxTake_mem (s0 : State) (d : Nat) : (s0.mboxTake d).2.mem = s0.mem := by
  simp only [mboxTake]
  split <;> simp

@[simp] theorem askStop_mem (s : State) (wk cause code : Nat) : (s.askStop wk cause code).mem = s.mem := by simp [askStop]

@[simp] theorem askSafe_mem (s : State) (wk : Nat) : (s.askSafe wk).mem = s.mem := by simp [askSafe]

@[simp] theorem stopWarp_mem (s : State) (wk : Nat) : (s.stopWarp wk).mem = s.mem := by simp [stopWarp]

@[simp] theorem runWarp_mem (s : State) (wk : Nat) : (s.runWarp wk).mem = s.mem := rfl

@[simp] theorem dbgCmd_mem (s : State) (die k : Nat) : (s.dbgCmd die k).mem = s.mem := by
  unfold dbgCmd
  split <;> simp

@[simp] theorem dbgWrite_mem (s : State) (die : Nat) (x : Word) : (s.dbgWrite die x).mem = s.mem := by
  unfold dbgWrite
  split <;> simp

@[simp] theorem trigCount_mem (s : State) (d j : Nat) (hit : BitVec 4) : (s.trigCount d j hit).1.mem = s.mem := by
  simp only [trigCount]
  repeat' split
  all_goals simp

@[simp] theorem trigCycle_mem (s : State) (d : Nat) (hs : List (Nat × BitVec 4)) : (s.trigCycle d hs).mem = s.mem := by
  unfold trigCycle
  dsimp only
  split
  · simp
  · refine (setDie_mem ..).trans ?_
    split <;> simp

@[simp] theorem counter_mem (s : State) (n : Nat) : (s.counter n).2.mem = s.mem := by
  unfold counter
  repeat' split
  all_goals simp

@[simp] theorem cntrd_mem (s : State) (wk n : Nat) : (s.cntrd wk n).2.mem = s.mem := by
  unfold cntrd
  repeat' split
  all_goals simp

@[simp] theorem readImage_mem (s : State) (i : BitVec 16 × DWord) : (s.readImage i).mem = s.mem := by
  unfold readImage
  split <;> simp

@[simp] theorem startSlice_mem (s : State) (wk : Nat) (L : Launch) (lid : Nat) : (s.startSlice wk L lid).mem = s.mem := rfl

@[simp] theorem startBlock_mem (s : State) (bk : Nat) : (s.startBlock bk).mem = s.mem := by simp [startBlock]

@[simp] theorem placeWarps_mem (s : State) (c bk : Nat) : (s.placeWarps c bk).mem = s.mem := by simp [placeWarps]

@[simp] theorem makeResident_mem (s : State) (c bk : Nat) : (s.makeResident c bk).mem = s.mem := by simp [makeResident]

@[simp] theorem fillCore_mem (s : State) (c fuel : Nat) : (s.fillCore c fuel).mem = s.mem := by
  induction fuel generalizing s with
  | zero => rfl
  | succ fuel ih =>
    unfold fillCore
    split <;> simp [ih]

@[simp] theorem fill_mem (s : State) (c : Nat) : (s.fill c).mem = s.mem := by simp [fill]

@[simp] theorem stopArrays_mem (s : State) (bk : Nat) : (s.stopArrays bk).mem = s.mem := by simp [stopArrays]

@[simp] theorem joinWaiting_mem (s : State) (c bk : Nat) : (s.joinWaiting c bk).mem = s.mem := by simp [joinWaiting]

@[simp] theorem sysreqTake_mem (s : State) (wk : Nat) : (s.sysreqTake wk).2.mem = s.mem := by
  simp only [sysreqTake]
  split <;> simp

@[simp] theorem mnqTake_mem (s : State) : (s.mnqTake).2.mem = s.mem := by
  unfold mnqTake
  split <;> simp

@[simp] theorem mfsr_mem (s : State) (wk n : Nat) : (s.mfsr wk n).2.mem = s.mem := by
  unfold mfsr
  repeat' split
  all_goals simp

@[simp] theorem setQuantum_mem (s : State) (die : Nat) (x : Word) : (s.setQuantum die x).mem = s.mem := by simp [setQuantum]

@[simp] theorem clearGroup_mem (s : State) (x : Word) : (s.clearGroup x).mem = s.mem := rfl

@[simp] theorem writeChdata_mem (s : State) (x : Word) : (s.writeChdata x).mem = s.mem := by simp [writeChdata]

@[simp] theorem writeFpown_mem (s : State) (p : Nat) (x : Word) : (s.writeFpown p x).mem = s.mem := by simp [writeFpown]

@[simp] theorem writePlain_mem (s : State) (wk n : Nat) (x : DWord) : (s.writePlain wk n x).mem = s.mem := by simp [writePlain]

@[simp] theorem mtsr_mem (s : State) (wk n : Nat) (x : DWord) : (s.mtsr wk n x).mem = s.mem := by simp [mtsr]

@[simp] theorem endSyscall_mem (s : State) (die id : Nat) (res : DWord) : (s.endSyscall die id res).mem = s.mem := by
  unfold endSyscall
  split
  · rfl
  · exact foldS_mem _ _ _ (fun s t => by split <;> simp)

@[simp] theorem holdAll_mem (s : State) (c : TC) (h : Hold) : (s.holdAll c h).mem = s.mem := by simp [holdAll]

@[simp] theorem replay_mem (s : State) (d : Nat) : (s.replay d).mem = s.mem := by
  unfold replay
  refine (foldS_mem _ _ _ fun s k => ?sched).trans <| (foldS_mem _ _ _ fun s p => ?port).trans <| (foldS_mem _ _ _ fun s p => ?cmd).trans <|
    (foldS_mem _ _ _ fun s k => ?warp).trans <| (foldS_mem _ _ _ fun s k => ?thread).trans <| (foldS_mem _ _ _ fun s p => ?acc).trans rfl
  case sched => dsimp only; split <;> simp
  case thread => split <;> simp
  all_goals simp

@[simp] theorem setLink_mem (s : State) (k : Bool × Nat) (x : Link) : (s.setLink k x).mem = s.mem := by simp [setLink]

@[simp] theorem unstick_mem (s : State) (m : Nat) : (s.unstick m).mem = s.mem := by simp [unstick]

@[simp] theorem adoptTime_mem (s : State) (p : Nat) (time : DWord) (back : Bool) : (s.adoptTime p time back).mem = s.mem := by simp [adoptTime]

@[simp] theorem trainPort_mem (s : State) (p : Nat) (dev : BitVec 8) (peer : BitVec 4) (time : DWord) :
    (s.trainPort p dev peer time).mem = s.mem := by
  simp only [trainPort]
  repeat' split
  all_goals simp

@[simp] theorem spotPut_mem (s : State) (x : Word) (p : Spot) : (s.spotPut x p).mem = s.mem := by
  unfold spotPut
  split <;> simp

@[simp] theorem spotFill_mem (s : State) (p : Spot) : (s.spotFill p).mem = s.mem := by
  unfold spotFill
  split <;> simp

@[simp] theorem spotAccept_mem (s : State) (p : Spot) : (s.spotAccept p).mem = s.mem := by
  unfold spotAccept
  split <;> simp

@[simp] theorem spotPoison_mem (s : State) (p : Spot) : (s.spotPoison p).mem = s.mem := by
  unfold spotPoison
  split <;> simp

@[simp] theorem spotWrite_mem (s : State) (f : Nat → Option Spot) (off : Nat) (l : List Byte) : (s.spotWrite f off l).mem = s.mem := by
  induction l generalizing s off with
  | nil => rfl
  | cons b l ih =>
    simp only [spotWrite, ih]
    split <;> simp

@[simp] theorem watchLand_mem (s : State) (wk : Nat) (ps : List Spot) : (s.watchLand wk ps).mem = s.mem := by
  unfold watchLand
  split <;> simp

@[simp] theorem watchRead_mem (s : State) (wk : Nat) (ps : List Spot) : (s.watchRead wk ps).mem = s.mem := by
  unfold watchRead
  split <;> simp

@[simp] theorem landAt_mem (s : State) (wk : Nat) (f : Nat → Option Spot) (off : Nat) (l : List Byte) :
    (s.landAt wk f off l).mem = s.mem := by simp [landAt]

@[simp] theorem takeNum_mem (s : State) (wk : Nat) (array : Bool) : (s.takeNum wk array).mem = s.mem := rfl

@[simp] theorem enqueue_mem (s : State) (c : Cmd) (rs : List (Nat × Rng)) : (s.enqueue c rs).mem = s.mem := by simp [enqueue]

@[simp] theorem putStatus_mem (s : State) (c : Cmd) (stat : List Loc) (err : BitVec 8) (count : Nat) :
    (s.putStatus c stat err count).mem = s.mem := by simp [putStatus]

@[simp] theorem dropRanges_mem (s : State) (cid : Nat) : (s.dropRanges cid).mem = s.mem := by simp [dropRanges]

@[simp] theorem consume_mem (s : State) (cid : Nat) : (s.consume cid).mem = s.mem := by simp [consume]

@[simp] theorem completeNum_mem (s : State) (c : Cmd) : (s.completeNum c).mem = s.mem := by
  unfold completeNum
  split <;> simp

@[simp] theorem endCmd_mem (s : State) (cid : Nat) : (s.endCmd cid).mem = s.mem := by
  unfold endCmd
  split <;> simp

@[simp] theorem discard_mem (s : State) (cid : Nat) : (s.discard cid).mem = s.mem := by
  unfold discard
  split <;> simp

@[simp] theorem askLines_mem (s : State) (cid : Nat) (write : Bool) (xs : List (Xl × Nat)) :
    (s.askLines cid write xs).mem = s.mem := by simp [askLines]

@[simp] theorem wroteHeal_mem (s : State) (cid : Nat) (xs : List (Xl × Nat)) : (s.wroteHeal cid xs).mem = s.mem := by
  simp only [wroteHeal]
  split <;> simp

@[simp] theorem stopAt_mem (s : State) (cid : Nat) (c : Cmd) (va : DWord) (level : Nat) (wr : Bool) : (s.stopAt cid c va level wr).mem = s.mem := rfl

@[simp] theorem barLand_mem (s : State) (cwk wk : Nat) (h : DWord) (t : Nat) (ref : Word) (n : Nat) :
    (s.barLand cwk wk h t ref n).mem = s.mem := by simp [barLand]

@[simp] theorem cpyConsume_mem (s : State) (cid : Nat) : (s.cpyConsume cid).mem = s.mem := by
  unfold cpyConsume
  split <;> simp

@[simp] theorem cpyHold_mem (s : State) (cid : Nat) (c : Cmd) (t : Nat) (va : DWord) (level : Nat) (wr : Bool) :
    (s.cpyHold cid c t va level wr).mem = s.mem := by simp [cpyHold]

@[simp] theorem regEcc_mem (s : State) (ps : List Spot) (e : Ecc) : (s.regEcc ps e).mem = s.mem := by
  unfold regEcc
  split <;> simp

@[simp] theorem takePull_mem (s : State) (wk : Nat) : (s.takePull wk).mem = s.mem := rfl

@[simp] theorem kick_mem (s : State) (wk t : Nat) (dst : KickTo) (notice : BitVec 128) : (s.kick wk t dst notice).mem = s.mem := by simp [kick]

@[simp] theorem dropNotice_mem (s : State) (core i : Nat) : (s.dropNotice core i).mem = s.mem := rfl

@[simp] theorem sendAck_mem (s : State) (wk src agent : Nat) : (s.sendAck wk src agent).mem = s.mem := rfl

@[simp] theorem poisonRest_mem (s : State) (c : Cmd) : (s.poisonRest c).mem = s.mem := by
  unfold poisonRest
  split
  · split
    · rfl
    · refine foldS_mem _ _ _ (fun s a => ?_)
      split <;> simp
  · split <;> simp
  · refine foldS_mem _ _ _ (fun s a => ?_)
    split <;> simp
  · rfl

@[simp] theorem pullAck_mem (s : State) (cid : Nat) : (s.pullAck cid).mem = s.mem := by
  unfold pullAck
  repeat' split
  all_goals simp

@[simp] theorem acceptSpots_mem (s : State) (ps : List Spot) : (s.acceptSpots ps).mem = s.mem := by simp [acceptSpots]

@[simp] theorem dropLine_mem (s : State) (cid j core : Nat) : (s.dropLine cid j core).mem = s.mem := rfl

@[simp] theorem closeArray_mem (s : State) (bk k : Nat) : (s.closeArray bk k).mem = s.mem := by
  simp only [closeArray]
  split <;> simp

@[simp] theorem lendRound_mem (s : State) (q k : Nat) (first : Bool) (rs : List Rng) : (s.lendRound q k first rs).mem = s.mem := by
  unfold lendRound
  repeat' split
  all_goals simp

/-- What a joint signature leaves is the memory of the state it signed in. -/
@[simp] theorem jointSign_mem (s u : State) (i : Instr) (k : Nat) (c : TC) : (s.jointSign u i k c).mem = u.mem := by
  simp [jointSign]

@[simp] theorem countRetry_mem (s : State) (core : Nat) : (s.countRetry core).mem = s.mem := rfl

@[simp] theorem someUnit_mem (s : State) (n : Nat) : (s.someUnit n).2.mem = s.mem := rfl

@[simp] theorem residue_mem (s : State) (c : Cmd) (idx i : Nat) : (s.residue c idx i).1.mem = s.mem := by
  simp only [residue]
  repeat' split
  all_goals simp

@[simp] theorem setUnit_mem (s : State) (c : Cmd) (u : Option Nat) : (s.setUnit c u).mem = s.mem := rfl

@[simp] theorem startEmpty_mem (s : State) (cid : Nat) (c : Cmd) (e : BitVec 8) (cycles : Nat) : (s.startEmpty cid c e cycles).mem = s.mem := rfl

@[simp] theorem acceptArray_mem (s : State) (cid : Nat) (c : Cmd) (r : Residue) : (s.acceptArray cid c r).mem = s.mem := by simp [acceptArray]

@[simp] theorem resumeArray_mem (s : State) (cid : Nat) (c : Cmd) : (s.resumeArray cid c).mem = s.mem := rfl

@[simp] theorem beginArray_mem (s : State) (cid : Nat) (c : Cmd) (r : Residue) : (s.beginArray cid c r).mem = s.mem := by simp [beginArray]

@[simp] theorem startArray_mem (s : State) (cid : Nat) (r : Residue) : (s.startArray cid r).mem = s.mem := by
  unfold startArray
  split <;> simp

@[simp] theorem unitRead_mem (s : State) (cid : Nat) (c : Cmd) (ecc : Ecc) : (s.unitRead cid c ecc).mem = s.mem := by
  simp only [unitRead]
  repeat' split
  all_goals simp

@[simp] theorem unitLand_mem (s : State) (cid : Nat) (c : Cmd) : (s.unitLand cid c).mem = s.mem := by
  unfold unitLand
  split <;> simp

@[simp] theorem arrLand_mem (s : State) (cid : Nat) (c : Cmd) : (s.arrLand cid c).mem = s.mem := by simp [arrLand]

@[simp] theorem clearTag_mem (s : State) (cid : Nat) : (s.clearTag cid).mem = s.mem := by
  unfold clearTag
  split <;> simp

@[simp] theorem setEnt_mem (s : State) (p i : Nat) (e : Entry) : (s.setEnt p i e).mem = s.mem := rfl

@[simp] theorem portReq_mem (s : State) (p : Nat) (asid : BitVec 16) (va : DWord) (acc : BitVec 2) (level : Nat) :
    (s.portReq p asid va acc level).mem = s.mem := rfl

@[simp] theorem spoilRange_mem (s : State) (asid : BitVec 16) (va : DWord) (n : Nat) : (s.spoilRange asid va n).mem = s.mem :=
  foldS_mem _ _ _ (fun s q => by split <;> simp)

@[simp] theorem settleEntry_mem (s : State) (p i : Nat) : (s.settleEntry p i).mem = s.mem := rfl

@[simp] theorem queueStart_mem (s : State) (sid : Nat) (x : SStart) : (s.queueStart sid x).mem = s.mem := rfl

@[simp] theorem takeSched_mem (s : State) (sid : Nat) : (s.takeSched sid).mem = s.mem := rfl

@[simp] theorem fire_mem (s : State) (p i : Nat) : (s.fire p i).mem = s.mem := rfl

@[simp] theorem counterChange_mem (s : State) (p idx : Nat) (set : Bool) (x : DWord) :
    (s.counterChange p idx set x).mem = s.mem := by simp [counterChange]

@[simp] theorem setSRun_mem (s : State) (sid : Nat) (r : Option SRun) : (s.setSRun sid r).mem = s.mem := rfl

@[simp] theorem sendChunk_mem (s : State) (p sid : Nat) (fmt : BitVec 2) (n : Nat) (l : List Word) : (s.sendChunk p sid fmt n l).mem = s.mem := rfl

@[simp] theorem arm_mem (s : State) (p i : Nat) (time : Bool) (cidx : Nat) (t : DWord) : (s.arm p i time cidx t).mem = s.mem := by simp [arm]

@[simp] theorem ringBell_mem (s : State) (q : Nat) (tail : Word) : (s.ringBell q tail).mem = s.mem := by simp [ringBell]

@[simp] theorem completeCmd_mem (s : State) (q n : Nat) : (s.completeCmd q n).mem = s.mem := rfl

@[simp] theorem countStructs_mem (s : State) (qasid : BitVec 16) (recva : DWord) (asid : BitVec 16) (f : Nat → Nat → Nat) (x : Structs) :
    (s.countStructs qasid recva asid f x).mem = s.mem := by simp [countStructs]

@[simp] theorem bar0Put_mem (s : State) (o : Nat) (l : List Byte) : (s.bar0Put o l).mem = s.mem := by
  induction l generalizing s o with
  | nil => rfl
  | cons b l ih =>
    unfold bar0Put
    rw [ih]
    split
    · exact setQueue_mem ..
    · split
      · exact setDev_mem ..
      · rfl

@[simp] theorem barWrite_mem (s : State) (pa : Nat) (data : List Byte) : (s.barWrite pa data).mem = s.mem := by simp [barWrite]

@[simp] theorem hostCount_mem (s : State) (pa n : Nat) (wr : Bool) : (s.hostCount pa n wr).mem = s.mem := by simp [hostCount]

@[simp] theorem hostRead_mem (s : State) (pa n : Nat) (ecc : Ecc) : (s.hostRead pa n ecc).mem = s.mem := by
  unfold hostRead
  repeat' split
  all_goals simp

@[simp] theorem setBoot_mem (s : State) (st : Nat) (err : BitVec 16) : (s.setBoot st err).mem = s.mem := by simp [setBoot]

@[simp] theorem stopDevice_mem (s : State) : (s.stopDevice).mem = s.mem := by simp [stopDevice]

@[simp] theorem trip_mem (s : State) (ptemp : Nat) : (s.trip ptemp).mem = s.mem := by simp [trip]

@[simp] theorem slow_mem (s : State) (d : Dev) : (s.slow d).mem = s.mem := rfl

theorem relOnce_mem {f : State → State} (h : ∀ s, (f s).mem = s.mem) (s : State) (wk : Nat) (ts : List Nat) : (s.relOnce wk ts f).mem = s.mem := by
  simp [relOnce, h]

@[simp] theorem kwaitTake_mem (s : State) (wk : Nat) : (s.kwaitTake wk).mem = s.mem := by
  simp only [kwaitTake]
  repeat' split
  · rfl
  · rfl
  · refine (foldS_mem _ _ _ (fun s t => ?_)).trans (dropNotice_mem ..)
    split <;> simp

@[simp] theorem fetchGo_mem (s : State) (core : Nat) (asid : BitVec 16) (qs : List (DWord × Nat)) (l : List Byte) :
    (s.fetchGo core asid qs l).2.mem = s.mem := by
  induction qs generalizing s l with
  | nil => rfl
  | cons q qs ih =>
    have hx := s.xlate_mem core none asid q.1 .x
    unfold fetchGo
    split
    · rfl
    split <;> next e =>
      rw [e] at hx
      simp [apply_ite Prod.snd, ih, ← hx]

@[simp] theorem fetchWord_mem (s : State) (wk : Nat) (pc : DWord) : (s.fetchWord wk pc).2.mem = s.mem := by
  have hgo := s.fetchGo_mem (coreOf wk) (s.warp (parent wk)).asid (pieces pc 12 2) []
  unfold fetchWord
  split
  · rfl
  · split <;> next e => rwa [e] at hgo

@[simp] theorem countWaits_mem (s : State) (wk : Nat) (members : Word) : (s.countWaits wk members).mem = s.mem := by simp [countWaits]

@[simp] theorem safeStart_mem (s : State) (wk : Nat) (pc : DWord) : (s.safeStart wk pc).mem = s.mem := by simp [safeStart]

@[simp] theorem parkFetch_mem (s : State) (wk : Nat) (m : Word) : (s.parkFetch wk m).mem = s.mem := by simp [parkFetch]

@[simp] theorem clearFetch_mem (s : State) (wk : Nat) (m : Word) : (s.clearFetch wk m).mem = s.mem := by simp [clearFetch]

@[simp] theorem unstall_mem (s : State) : (s.unstall).mem = s.mem := rfl

@[simp] theorem deferRead_mem (s : State) (key n : Nat) : (s.deferRead key n).mem = s.mem := by simp [deferRead]

@[simp] theorem moved_mem (s : State) (k : Nat) : (s.moved k).mem = s.mem := rfl

end Sys2Proof.Machine.State
end

section
/-! SUPPORT. Memory in its canonical form (R243, R252): what writes keep it, and the lane that runs a body for its threads. -/

namespace Sys2Proof.Machine

variable {s u : State}

/-- Memory in canonical form. -/
def Canonical (m : Fmap Byte) : Prop := Fmap.wf memDefault m = true

theorem canonical_iff {s : State} : Canonical s.mem ↔ s.memWf = true := Iff.rfl

@[simp] theorem canonical_ite {p : Prop} [Decidable p] {m n : Fmap Byte} : Canonical (if p then m else n) ↔ if p then Canonical m else Canonical n := by
  split <;> rfl


theorem canonical_cond {p : Prop} [Decidable p] {s u : State} (hs : Canonical s.mem) (hu : Canonical u.mem) : Canonical (if p then s else u).mem := by
  split <;> assumption

theorem canonical_foldl {α : Type} {f : State → α → State} (h : Canonical s.mem) (l : List α)
    (hf : ∀ u a, Canonical u.mem → Canonical (f u a).mem) : Canonical (l.foldl f s).mem := by
  induction l generalizing s with
  | nil => exact h
  | cons a l ih => exact ih (hf s a h)

theorem canonical_foldS {α : Type} {f : State → α → State} (h : Canonical s.mem) (l : List α)
    (hf : ∀ u a, Canonical u.mem → Canonical (f u a).mem) : Canonical (foldS l s f).mem := canonical_foldl h l hf

/-! ### A result is canonical when every state that it holds is -/

@[simp] def TRes.Canonical : TRes → Prop
  | .done s => Machine.Canonical s.mem
  | .wait s => Machine.Canonical s.mem
  | .trap _ _ => True
  | .after s _ _ => Machine.Canonical s.mem
  | .stop s _ _ => Machine.Canonical s.mem
  | .fp s _ => Machine.Canonical s.mem
  | .park s _ => Machine.Canonical s.mem

theorem TRes.canonical_cond {p : Prop} [Decidable p] {r q : TRes} (hr : r.Canonical) (hq : q.Canonical) : (if p then r else q).Canonical := by
  split <;> assumption

@[simp] def ARes.Canonical : ARes → Prop
  | .done s _ => Machine.Canonical s.mem
  | .wait s => Machine.Canonical s.mem
  | .park s _ => Machine.Canonical s.mem

@[simp] def StkRes.Canonical : StkRes → Prop
  | .ok s _ => Machine.Canonical s.mem
  | .wait s => Machine.Canonical s.mem
  | .trap s _ _ => Machine.Canonical s.mem

@[simp] def SRes.Canonical : SRes → Prop
  | .all s => Machine.Canonical s.mem
  | .need s _ => Machine.Canonical s.mem
  | .empty s => Machine.Canonical s.mem
  | .pois s => Machine.Canonical s.mem

@[simp] def SignRes.Canonical : SignRes → Prop
  | .signed s => Machine.Canonical s.mem
  | .wait => True
  | .join => True

@[simp] def WordRes.Canonical : WordRes → Prop
  | .next _ s => Machine.Canonical s.mem
  | .wait _ => True
  | .part _ s => Machine.Canonical s.mem
  | .fail _ s => Machine.Canonical s.mem

theorem WordRes.canonical_cond {p : Prop} [Decidable p] {r q : WordRes} (hr : r.Canonical) (hq : q.Canonical) : (if p then r else q).Canonical := by
  split <;> assumption

@[simp] def EMem.Canonical {α : Type} : EMem α → Prop
  | .ok _ s => Machine.Canonical s.mem
  | .page _ _ s => Machine.Canonical s.mem
  | .bad _ s => Machine.Canonical s.mem
  | .held => True

theorem EMem.canonical_cond {α : Type} {p : Prop} [Decidable p] {r q : EMem α} (hr : r.Canonical) (hq : q.Canonical) :
    (if p then r else q).Canonical := by
  split <;> assumption

@[simp] def LoadRes.Canonical {α : Type} : LoadRes α → Prop
  | .ok _ s => Machine.Canonical s.mem
  | .page _ _ => True
  | .away => True
  | .bad _ s => Machine.Canonical s.mem

theorem LoadRes.canonical_cond {α : Type} {p : Prop} [Decidable p] {r q : LoadRes α} (hr : r.Canonical) (hq : q.Canonical) :
    (if p then r else q).Canonical := by
  split <;> assumption

@[simp] def Turn.Canonical : Turn → Prop
  | .instr _ s => Machine.Canonical s.mem
  | .quiet s => Machine.Canonical s.mem

theorem Turn.canonical_cond {p : Prop} [Decidable p] {r q : Turn} (hr : r.Canonical) (hq : q.Canonical) : (if p then r else q).Canonical := by
  split <;> assumption

/-- The outcome of a step. -/
@[simp] def Result.Canonical : Result → Prop
  | .next s => Machine.Canonical s.mem
  | .fault _ => True
  | .refused _ => True

/-! ### Writes by virtual address -/

@[simp] theorem canonical_writeMem (h : Canonical s.mem) (swz pa : Nat) (l : List Byte) : Canonical (s.writeMem swz pa l).mem :=
  memWf_writeMem swz pa l h

theorem canonical_writeD {asid : BitVec 16} {va : DWord} {l : List Byte} (h : Canonical s.mem) (e : s.writeD asid va l = .ok u) :
    Canonical u.mem := by
  unfold State.writeD at e
  dsimp only at e
  split at e
  · cases e
  · cases e
    refine canonical_foldl (by simp [h]) _ (fun u p hu => ?_)
    split <;> simp [hu]

@[simp] theorem canonical_writeTry (h : Canonical s.mem) (asid : BitVec 16) (va : DWord) (l : List Byte) : Canonical (s.writeTry asid va l).mem := by
  unfold State.writeTry
  split
  · next e => exact canonical_writeD h e
  · exact h

@[simp] theorem canonical_writeFree (h : Canonical s.mem) (asid : BitVec 16) (va : DWord) (n : Nat) : Canonical (s.writeFree asid va n).mem := by
  unfold State.writeFree
  dsimp only
  split
  · exact h
  · refine canonical_foldS (by simp [h]) _ (fun u p hu => ?_)
    split <;> simp [hu]

/-! ### Records and traps -/

@[simp] theorem canonical_recordFor (h : Canonical s.mem) (lid bidx wk : Nat) (tmask : Word) (pc aux : DWord) (tlnum err ctx trapk src : Nat)
    (detail : BitVec 160) : Canonical (s.recordFor lid bidx wk tmask pc aux tlnum err ctx trapk src detail).mem := by
  unfold State.recordFor
  dsimp only
  repeat' split
  case _ => exact h
  case _ => simpa using h
  case _ e => exact canonical_writeD (by simpa using h) e
  case _ => simpa using h
  case _ e => exact canonical_writeD (by simpa using h) e
  case _ => simpa using h
  case _ e _ _ e2 => exact canonical_writeD (by simpa using canonical_writeD (by simpa using h) e) e2
  case _ e _ _ _ => simpa using canonical_writeD (by simpa using h) e

@[simp] theorem canonical_record (h : Canonical s.mem) (wk : Nat) (tmask : Word) (pc aux : DWord) (tlnum err ctx trapk src : Nat) (detail : BitVec 160) :
    Canonical (s.record wk tmask pc aux tlnum err ctx trapk src detail).mem := canonical_recordFor h ..

@[simp] theorem canonical_raise (h : Canonical s.mem) (wk t kind : Nat) (pc : DWord) (tdst : Word) : Canonical (s.raise wk t kind pc tdst).mem := by
  simp [State.raise, h]

@[simp] theorem canonical_raiseAll (h : Canonical s.mem) (wk : Nat) (ts : List Nat) (kind : Nat) (pc : DWord) (td : Word) :
    Canonical (s.raiseAll wk ts kind pc td).mem := canonical_foldS h ts (fun u t hu => by simp [hu])

@[simp] theorem canonical_deliver (h : Canonical s.mem) (wk : Nat) : Canonical (s.deliver wk).mem := by
  unfold State.deliver
  dsimp only
  repeat' split
  all_goals simp [h]

/-! ### The lane -/

theorem popOp_mem {key wk pos : Nat} {o : Option OpS} {x : Word} (e : s.popOp key wk pos o = some (x, u)) : u.mem = s.mem := by
  unfold State.popOp at e
  repeat' split at e
  all_goals cases e
  all_goals rfl

theorem pops_mem {key wk : Nat} {g : Sig} {x y : Word} (e : s.pops key wk g = some (x, y, u)) : u.mem = s.mem := by
  unfold State.pops at e
  split at e
  · cases e
  · next e1 =>
    split at e
    · cases e
    · next e2 =>
      cases e
      exact (popOp_mem e2).trans (popOp_mem e1)

@[simp] theorem canonical_fpDone (h : Canonical s.mem) (c : TC) (who : List Nat) (f : Word) : Canonical (s.fpDone c who f).mem := by
  unfold State.fpDone
  split
  · exact h
  · refine canonical_foldS (by simpa using h) who (fun u t hu => ?_)
    dsimp only
    split <;> simp [hu]

theorem canonical_settle {r : TRes} (h : Canonical s.mem) (hr : r.Canonical) (c : TC) (who : List Nat) : Canonical (s.settle c who r).1.mem := by
  cases r <;> simp only [TRes.Canonical] at hr <;> simp [State.settle, h, hr]

section
variable {early : Early} {body : TC → State → TRes} (hb : ∀ c u, Canonical u.mem → (body c u).Canonical)
include hb

theorem canonical_turn (h : Canonical s.mem) (hdr : Hdr) (g : Sig) (ka kb : ImmK) (key : Nat) (r : Run) (act : Word) (who : List Nat) (t : Nat) :
    Canonical (s.turn hdr g ka kb key r act who early body t).1.mem := by
  unfold State.turn
  split
  · exact h
  · exact h
  · exact canonical_raiseAll h ..
  · next d a b x y s1 _ e =>
    have h1 : Canonical s1.mem := by rwa [pops_mem e]
    dsimp only
    split
    · have hw := hb (s1.ctx hdr g ka kb key r act t d a b x y) s h
      split
      · next e2 => rwa [e2] at hw
      · exact h
    · exact canonical_settle h (hb _ _ h1) ..

theorem canonical_turnFor (h : Canonical s.mem) (hdr : Hdr) (g : Sig) (ka kb : ImmK) (key : Nat) (r : Run) (act m : Word) (t : Nat) :
    Canonical (s.turnFor hdr g ka kb key r act m early body t).1.mem := by
  have ht := canonical_turn (early := early) hb h hdr g ka kb key r act (maskList m) t
  unfold State.turnFor
  split <;> next e => simpa [e] using ht

theorem canonical_serve (h : Canonical s.mem) (hdr : Hdr) (g : Sig) (ka kb : ImmK) (key : Nat) (r : Run) (act : Word) (n : Nat) (ts : List Nat) :
    Canonical (s.serve hdr g ka kb key r act early body n ts).1.mem := by
  induction ts generalizing s with
  | nil => exact h
  | cons t ts ih =>
    have ht := canonical_turnFor (early := early) hb h hdr g ka kb key r act (bit1 t) t
    unfold State.serve
    split
    · exact ih h
    split
    · next e => simpa [e] using ht
    · next e => exact ih (by simpa [e] using ht)

end

theorem canonical_enter {f : Run → Sig → Hdr → Word → State → State} (h : Canonical s.mem)
    (hf : ∀ r g hdr act u, Canonical u.mem → Canonical (f r g hdr act u).mem) (i : Instr) : Result.Canonical (s.enter i f) := by
  unfold State.enter
  split
  · split
    · simp [h]
    · dsimp only
      split
      · simpa using h
      · exact hf _ _ _ _ _ (by simpa using h)
  · exact h

theorem canonical_laneEarly {body : TC → State → TRes} (hb : ∀ c u, Canonical u.mem → (body c u).Canonical) (h : Canonical s.mem) {i : Instr}
    {uni br : Bool} {ka kb : ImmK} {early : Early} : Result.Canonical (laneEarly i uni br ka kb early body s) := by
  refine canonical_enter h (fun r g hdr act u hu => ?_) i
  have hone := canonical_turnFor (early := early) hb hu hdr g ka kb u.focus r act act (lowest act)
  have hall := fun n => canonical_serve (early := early) hb hu hdr g ka kb u.focus r act n (maskList (act &&& ~~~r.served))
  dsimp only
  split <;> simp [hone, hall]

theorem canonical_laneEach {body : TC → State → TRes} (hb : ∀ c u, Canonical u.mem → (body c u).Canonical) (h : Canonical s.mem) {i : Instr}
    {uni br : Bool} {ka kb : ImmK} : Result.Canonical (laneEach i uni br ka kb body s) := canonical_laneEarly hb h

theorem canonical_laneOnceEarly {body : TC → State → TRes} (hb : ∀ c u, Canonical u.mem → (body c u).Canonical) (h : Canonical s.mem) {i : Instr}
    {ka kb : ImmK} {early : Early} : Result.Canonical (laneOnceEarly i ka kb early body s) := by
  refine canonical_enter h (fun r g hdr act u hu => ?_) i
  have hone := canonical_turnFor (early := early) hb hu hdr g ka kb u.focus r act act (lowest act)
  dsimp only
  split <;> simp [hu, hone]

theorem canonical_laneOnce {body : TC → State → TRes} (hb : ∀ c u, Canonical u.mem → (body c u).Canonical) (h : Canonical s.mem) {i : Instr}
    {ka kb : ImmK} : Result.Canonical (laneOnce i ka kb body s) := canonical_laneOnceEarly hb h

theorem canonical_laneAll {body : List TC → State → ARes} (hb : ∀ cs u, Canonical u.mem → (body cs u).Canonical) (h : Canonical s.mem) {i : Instr}
    {ka kb : ImmK} : Result.Canonical (laneAll i ka kb body s) := by
  refine canonical_enter h (fun r g hdr act u hu => ?_) i
  split
  · simpa using hu
  split
  · simpa using hu
  · next x y s0 e =>
    have h0 : Canonical s0.mem := by rwa [pops_mem e]
    have htake : Canonical (if takesEach hdr g then s0.takeEach hdr g ka kb u.focus r act (maskList act) else (s0, false)).1.mem := by
      split <;> simpa using h0
    dsimp only
    generalize (if takesEach hdr g then s0.takeEach hdr g ka kb u.focus r act (maskList act) else (s0, false)) = tk at htake ⊢
    split
    · split <;> simp [hu, htake]
    · next cs traps _ =>
      have hbody := hb cs tk.1 htake
      split
      · next e2 => simpa [e2] using hbody
      · next e2 =>
        rw [e2] at hbody
        split
        · simpa using htake
        · split
          · simpa using hu
          · simpa using hbody
      · next e2 =>
        rw [e2] at hbody
        simp only [State.endInstr_mem]
        refine canonical_foldS ?_ _ (fun v p hv => by simp [hv])
        split
        · simpa using hu
        · simpa using hbody

end Sys2Proof.Machine
end

section
/-! SUPPORT. The canonical form under the stack and the memory instructions. -/

namespace Sys2Proof.Machine

variable {s u : State}

/-! ### Bodies that write D -/

theorem canonical_onceWrite {f : State → List Word × State} (hf : ∀ u, Canonical u.mem → Canonical (f u).2.mem) (h : Canonical s.mem) (c : TC) :
    (onceWrite f c s).Canonical := by
  unfold onceWrite
  dsimp only
  split
  · exact h
  · refine canonical_foldS (hf s h) _ (fun u p hu => ?_)
    split <;> simp [hu]

@[simp] theorem canonical_valBody (h : Canonical s.mem) (f : TC → DWord) (c : TC) : (valBody f c s).Canonical := by simp [valBody, h]

@[simp] theorem canonical_fpOut (h : Canonical s.mem) (c : TC) (r : Nat × Word) : (fpOut c s r).Canonical := by simp [fpOut, h]

/-! ### The stack -/

@[simp] theorem canonical_putPieces (h : Canonical s.mem) (xs : List (Xl × Nat)) (l : List Byte) : Canonical (s.putPieces xs l).mem := by
  induction xs generalizing s l with
  | nil => exact h
  | cons x xs ih => exact ih (by simp [h]) _

theorem rowXl_mem_eq {wk : Nat} {p : Perm} {qs : List (DWord × Nat)} {x : Except (Nat × Nat × DWord) (List (Xl × Nat))}
    (e : s.rowXl wk p qs = (x, u)) : u.mem = s.mem := by
  rw [← s.rowXl_mem wk p qs, e]

theorem canonical_spillRow {wk r : Nat} (h : Canonical s.mem) (e : s.spillRow wk r = .ok u) : Canonical u.mem := by
  unfold State.spillRow at e
  dsimp only at e
  split at e
  · cases e
  · next e1 =>
    split at e
    · cases e
    · cases e
      exact canonical_putPieces (by simpa [rowXl_mem_eq e1] using h) _ _

theorem canonical_fillRow {wk r : Nat} (h : Canonical s.mem) (e : s.fillRow wk r = .ok u) : Canonical u.mem := by
  unfold State.fillRow at e
  dsimp only at e
  split at e
  · cases e
  · next e1 =>
    split at e
    · cases e
    · cases e
      simpa [rowXl_mem_eq e1] using h

theorem canonical_rowsGo {f : State → Nat → Except RowErr State} (hf : ∀ {u v r}, Canonical u.mem → f u r = .ok v → Canonical v.mem) {rows : List Nat}
    (h : Canonical s.mem) (e : State.rowsGo f rows s = .ok u) : Canonical u.mem := by
  induction rows generalizing s with
  | nil =>
    cases e
    exact h
  | cons r rows ih =>
    unfold State.rowsGo at e
    split at e
    · next e1 => exact ih (hf h e1) e
    · cases e

theorem canonical_stackMove {wk r : Nat} (h : Canonical s.mem) (e : s.stackMove wk r = .ok u) : Canonical u.mem := by
  have hmoved : ∀ {v w : State} {rows rows2 : List Nat}, s.spillRows wk rows = .ok v → v.fillRows wk rows2 = .ok w → Canonical w.mem :=
    fun e1 e2 => canonical_rowsGo canonical_fillRow (canonical_rowsGo canonical_spillRow h e1) e2
  unfold State.stackMove at e
  dsimp only at e
  repeat' split at e
  all_goals cases e
  · exact h
  · next e1 _ _ e2 => simpa using hmoved e1 e2
  · next e1 _ _ e2 => simpa using hmoved e1 e2

@[simp] theorem canonical_spillFill (h : Canonical s.mem) (wk : Nat) : Canonical (s.spillFill wk).mem := by
  unfold State.spillFill
  dsimp only
  split
  · exact h
  split
  · exact h
  split
  · next e => simpa using canonical_stackMove h e
  · repeat' split
    all_goals simpa using h

@[simp] theorem canonical_pushGo (h : Canonical s.mem) (wk t e : Nat) (xs : List Word) : (s.pushGo wk t e xs).Canonical := by
  induction xs generalizing s e with
  | nil => exact h
  | cons x xs ih =>
    unfold State.pushGo
    split
    · exact ih (by simpa using h) _
    · exact h

@[simp] theorem canonical_popGo (h : Canonical s.mem) (wk t e n : Nat) : (s.popGo wk t e n).Canonical := by
  induction n generalizing s e with
  | zero => exact h
  | succ n ih =>
    unfold State.popGo
    repeat' split
    · exact h
    · exact h
    · exact h
    · exact ih (by simpa using h) _

@[simp] theorem canonical_stkFailed (h : Canonical s.mem) (c : TC) (va : DWord) (cause : Nat) (spill : Bool) (rows : Nat → List Nat) :
    Canonical (s.stkFailed c va cause spill rows).mem :=
  canonical_foldS (canonical_record (by simpa using h) ..) _ (fun u t hu => by simp [hu])

theorem canonical_stkWait {r : SRes} (h : r.Canonical) (c : TC) (rows : Nat → List Nat) : (State.stkWait c rows r).Canonical := by
  cases r with
  | all u => exact h
  | empty u => exact h
  | pois u => exact h
  | need u row =>
    simp only [SRes.Canonical] at h
    simp only [State.stkWait]
    split <;> simp [h]

@[simp] theorem canonical_stackPush (h : Canonical s.mem) (c : TC) (xs : List Word) : (s.stackPush c xs).Canonical := by
  unfold State.stackPush
  dsimp only
  split
  · exact h
  · have hw := fun rows => canonical_stkWait (canonical_pushGo h c.wk c.t ((s.thread c.wk c.t).sdepth + (s.thread c.wk c.t).sbuf.length)
      (xs.drop (s.thread c.wk c.t).sbuf.length)) c rows
    split
    · next e => simpa using (congrArg StkRes.Canonical e).mp (hw _)
    · exact hw _

@[simp] theorem canonical_stackPop (h : Canonical s.mem) (c : TC) (n : Nat) : (s.stackPop c n).Canonical := by
  unfold State.stackPop
  dsimp only
  split
  · exact h
  · have hw := fun rows => canonical_stkWait (canonical_popGo h c.wk c.t ((s.thread c.wk c.t).sdepth - (s.thread c.wk c.t).sbuf.length)
      (n - (s.thread c.wk c.t).sbuf.length)) c rows
    split
    · next e => simpa using (congrArg StkRes.Canonical e).mp (hw _)
    · exact hw _

theorem canonical_stkBody {r : StkRes} {f : State → List Word → State} (h : r.Canonical) (hf : ∀ u ws, Canonical u.mem → Canonical (f u ws).mem) (c : TC) :
    (stkBody c r f).Canonical := by
  cases r with
  | ok u ws => exact hf u ws h
  | wait u => exact h
  | trap u k td => exact h

theorem canonical_callBody (h : Canonical s.mem) (target : TC → DWord) (c : TC) : (callBody target c s).Canonical :=
  canonical_stkBody (canonical_stackPush h c _) (fun u ws hu => by simpa using hu) c

/-! ### Memory instructions -/

theorem revTry_ok_mem {wk w : Nat} (e : s.revTry wk w = .ok u) : u.mem = s.mem := by
  unfold State.revTry at e
  dsimp only at e
  repeat' split at e
  all_goals cases e
  simp

theorem revTry_error_mem {wk w : Nat} (e : s.revTry wk w = .error u) : u.mem = s.mem := by
  unfold State.revTry at e
  dsimp only at e
  repeat' split at e
  all_goals cases e
  all_goals simp

theorem accRange_mem {key wk : Nat} {d : Option Operand} {ls : List Loc} (e : s.accRange key wk d ls = some u) : u.mem = s.mem := by
  unfold State.accRange at e
  dsimp only at e
  repeat' split at e
  all_goals cases e
  all_goals simp

@[simp] theorem canonical_failAccs (h : Canonical s.mem) (ps : List (Nat × Access)) (cause : Nat) : Canonical (s.failAccs ps cause).mem := by
  unfold State.failAccs
  split
  · exact h
  · simp [h]

end Sys2Proof.Machine
end

section
/-! SUPPORT. The canonical form under the bodies of the lanes, the accesses, and the images of blocks. -/

namespace Sys2Proof.Machine

variable {s u : State}

/-! ### Bodies -/

@[simp] theorem canonical_setfBody (h : Canonical s.mem) (x : Bool) (c : TC) : (setfBody x c s).Canonical := by
  unfold setfBody
  split
  · exact h
  · refine TRes.canonical_cond h (TRes.canonical_cond ?_ ?_)
    · simpa using h
    · simpa using h

theorem canonical_gather (h : Canonical s.mem) (src : TC → Nat) (i : Nat) (cs : List TC) : (s.gather src i cs).Canonical := by
  unfold State.gather
  dsimp only
  split <;> simpa using h

theorem canonical_withEarly {body : TC → State → TRes} (hb : ∀ c u, Canonical u.mem → (body c u).Canonical) (h : Canonical s.mem) (early : Early) (c : TC) :
    (withEarly early body c s).Canonical := by
  unfold withEarly
  split
  · trivial
  · exact hb c s h

theorem canonical_objBody {f : TC → State → TRes} (hf : ∀ c u, Canonical u.mem → (f c u).Canonical) (h : Canonical s.mem) (o : TC → List Loc) (rd : Bool)
    (c : TC) : (objBody o rd f c s).Canonical := by
  unfold objBody
  split
  · exact h
  split
  · trivial
  · exact hf c s h

theorem canonical_issueBody {f : TC → State → TRes} (hf : ∀ c u, Canonical u.mem → (f c u).Canonical) (h : Canonical s.mem) (c : TC) :
    (issueBody f c s).Canonical := by
  unfold issueBody
  split
  · exact hf c s h
  · exact h

theorem canonical_linkBody {f : Bool × Nat → TC → State → State} (hf : ∀ k c u, Canonical u.mem → Canonical (f k c u).mem) (h : Canonical s.mem) (c : TC) :
    (linkBody f c s).Canonical := by
  unfold linkBody
  split
  · exact hf _ c s h
  · exact h

theorem canonical_memBody (h : Canonical s.mem) (d : Operand) (q : Req) (c : TC) : (memBody d q c s).Canonical := by
  unfold memBody
  split
  · split
    · exact h
    split
    · exact h
    · next e => simpa [accRange_mem e] using h
  · exact h

theorem canonical_queueLoad (h : Canonical s.mem) (size : Size) (n : Nat) (c : TC) : (queueLoad size n c s).Canonical := by
  unfold queueLoad
  dsimp only
  split
  · exact h
  · split <;> simpa using h

theorem canonical_sign (h : Canonical s.mem) (wk t k : Nat) (i : Instr) (pc : DWord) (warpKind : Bool) : (s.sign wk t k i pc warpKind).Canonical := by
  unfold State.sign
  dsimp only
  repeat' split
  all_goals simp [h]

theorem canonical_signHold (h : Canonical s.mem) (wk t k : Nat) (i : Instr) (pc : DWord) (hold : Hold) : (s.signHold wk t k i pc hold).Canonical := by
  have hs := canonical_sign h wk t k i pc false
  unfold State.signHold
  split
  · next e => simpa [e] using hs
  · exact hs

theorem canonical_signBody (h : Canonical s.mem) (k : Nat) (i : Instr) (act : Act) (hold : Hold) (c : TC) :
    (signBody k i act hold c s).Canonical := by
  have hs := canonical_signHold h c.wk c.t k i c.pc hold
  unfold signBody
  split
  · trivial
  · exact h
  · next e =>
    rw [e] at hs
    split
    · simpa using h
    · exact hs

theorem canonical_enqueueWin (h : Canonical s.mem) {num : State → State} (hn : Canonical (num s).mem) (c : TC) (x : Cmd) :
    (s.enqueueWin c x num).Canonical := by
  unfold State.enqueueWin
  dsimp only
  split
  · exact h
  · simpa using hn

theorem canonical_jointBody (h : Canonical s.mem) (i : Instr) (k : Nat) (warpKind : Bool) (c : TC) : (jointBody i k warpKind c s).Canonical := by
  have hs := canonical_sign h c.wk c.t k i c.pc warpKind
  unfold jointBody
  split
  · trivial
  split
  · trivial
  · exact h
  · next e =>
    rw [e] at hs
    repeat' split
    · trivial
    · exact h
    · simpa using hs
    · exact h

theorem canonical_onceArr (h : Canonical s.mem) (i : Instr) (va : TC → List Word) (c : TC) : (onceArr i va c s).Canonical := by
  unfold onceArr
  repeat' split
  · trivial
  · trivial
  · refine canonical_issueBody (fun c u hu => ?_) h c
    split <;> simpa using hu

theorem canonical_cpyIssue (h : Canonical s.mem) (i : Instr) (cs : List TC) : (cpyIssue i cs s).Canonical := by
  unfold cpyIssue
  dsimp only
  repeat' split
  all_goals simpa using h

/-! ### Accesses -/

theorem canonical_xlate {core : Nat} {lane : Option Nat} {asid : BitVec 16} {va : DWord} {p : Perm} {r : Except (Nat × Nat) Xl} (h : Canonical s.mem)
    (e : s.xlate core lane asid va p = (r, u)) : Canonical u.mem := by
  have hx := s.xlate_mem core lane asid va p
  rw [e] at hx
  exact (congrArg Canonical hx).mpr h

@[simp] theorem canonical_walkDone (h : Canonical s.mem) (aid : Nat) : Canonical (s.walkDone aid).mem := by
  unfold State.walkDone
  split
  · exact h
  refine canonical_cond h ?_
  dsimp only
  split
  · simpa using h
  split
  · next e =>
    have hskew := fun l => canonical_failAccs (canonical_xlate (by simpa using h) e) l cALIGN
    split
    · exact canonical_failAccs (hskew _) ..
    · simpa using hskew _
  · next e =>
    have hx := canonical_xlate (by simpa using h) e
    split
    · simpa using hx
    · exact canonical_failAccs hx ..

@[simp] theorem canonical_perform (h : Canonical s.mem) (id : Nat) (a : Access) : Canonical (s.perform id a).1.mem := by
  unfold State.perform
  repeat' split
  all_goals simp [h]

/-- What a request keeps as it serves the accesses of its line one after the other. -/
theorem canonical_performAll {r : State × List (Nat × Access)} (h : Canonical r.1.mem) (l : List (Nat × Access))
    {f : State × List (Nat × Access) → Nat × Access → State × List (Nat × Access)} (hf : ∀ r p, Canonical r.1.mem → Canonical (f r p).1.mem) :
    Canonical (l.foldl f r).1.mem := by
  induction l generalizing r with
  | nil => exact h
  | cons p l ih => exact ih (hf r p h)

@[simp] theorem canonical_serveReq (h : Canonical s.mem) (aid : Nat) (e : Ecc) : Canonical (s.serveReq aid e).mem := by
  unfold State.serveReq
  split
  · exact h
  dsimp only
  refine canonical_cond h (canonical_failAccs ?_ ..)
  simp only [State.ite_mem, State.healCover_mem, ite_self]
  refine canonical_performAll (by simpa using h) _ (fun r p hr => ?_)
  split
  · have hp := canonical_perform hr p.1 p.2
    split <;> next e => simpa [e] using hp
  · exact hr

/-! ### Traces and slices -/

@[simp] theorem canonical_putRec (h : Canonical s.mem) (d : Nat) (r : TRec) : Canonical (s.putRec d r).mem := by
  unfold State.putRec
  dsimp only [State.modDie_eq, State.setDie_mem]
  refine canonical_cond h ?_
  split
  · next e => exact canonical_writeD h e
  · exact h

@[simp] theorem canonical_endCycle (h : Canonical s.mem) (d : Nat) : Canonical (s.endCycle d).mem := by
  have hput : Canonical (foldS (s.die d).recs (if (s.die d).recs = [] then s else s.modDie d (fun D => { D with recs := [] })) (fun s r => s.putRec d r)).mem :=
    canonical_foldS (by simp [h]) _ (fun u r hu => canonical_putRec hu d r)
  unfold State.endCycle
  dsimp only
  split
  · simpa using hput
  · exact hput

@[simp] theorem canonical_takeOff (h : Canonical s.mem) (c bk : Nat) : Canonical (s.takeOff c bk).mem := by simp [State.takeOff, h]

@[simp] theorem canonical_rotate (h : Canonical s.mem) (c head fuel : Nat) : Canonical (s.rotate c head fuel).mem := by
  induction fuel generalizing s with
  | zero => exact h
  | succ fuel ih =>
    unfold State.rotate
    split
    · simpa using h
    split
    · simpa using h
    · dsimp only
      split
      · simp [h]
      · exact ih (canonical_takeOff h ..)

@[simp] theorem canonical_writeImage (h : Canonical s.mem) (bk : Nat) (va : DWord) : Canonical (s.writeImage bk va).mem := by
  have hfree := canonical_writeFree h 0 va Config.ctxSize
  unfold State.writeImage
  dsimp only
  split
  · next e => exact canonical_writeD hfree e
  · exact hfree

end Sys2Proof.Machine
end

section
/-! SUPPORT. The canonical form under the engines. -/

namespace Sys2Proof.Machine

variable {s u : State}

/-! ### What an engine loads and stores -/

theorem canonical_eXlate {core : Nat} {asid : BitVec 16} {p : Perm} {qs : List (DWord × Nat)} {r : EMem (List (Xl × Nat))} (h : Canonical s.mem)
    (e : s.eXlate core asid p qs = r) : r.Canonical := by
  subst e
  induction qs generalizing s with
  | nil => exact h
  | cons q qs ih =>
    unfold State.eXlate
    split
    · trivial
    split
    · next e =>
      have hx := canonical_xlate h e
      split <;> exact hx
    · next e =>
      have hrest := ih (canonical_xlate h e)
      split
      · trivial
      split
      · next e2 => simpa [e2] using hrest
      · exact hrest

theorem canonical_eLoad {cid core wk : Nat} {asid : BitVec 16} {va : DWord} {n : Nat} {ecc : Ecc} {r : EMem (List Byte)} (h : Canonical s.mem)
    (e : s.eLoad cid core wk asid va n ecc = r) : r.Canonical := by
  subst e
  have h1 : Canonical (s.noteHits core wk (s.watchMem core asid va n true false)).mem := by simpa using h
  unfold State.eLoad
  dsimp only
  split
  · next e => exact canonical_eXlate h1 e
  · next e => exact canonical_eXlate h1 e
  · trivial
  · next xs v e =>
    have hx : Canonical v.mem := canonical_eXlate h1 e
    refine EMem.canonical_cond ?_ (EMem.canonical_cond ?_ ?_)
    all_goals simp only [EMem.Canonical, State.modCmd_eq, State.setCmd_mem, State.askLines_mem]
    all_goals split <;> simpa using hx

theorem canonical_eSkew {core : Nat} {asid : BitVec 16} {va : DWord} {r : EMem Unit} (h : Canonical s.mem) (e : s.eSkew core asid va = r) :
    r.Canonical := by
  subst e
  unfold State.eSkew
  split
  · next e => exact canonical_eXlate h e
  · next e => exact canonical_eXlate h e
  · trivial
  · next e => exact canonical_eXlate (r := .ok _ _) h e

/-- What a store keeps as it writes its pieces one after the other. -/
theorem canonical_writePieces {r : State × List Byte} (h : Canonical r.1.mem) (xs : List (Xl × Nat)) :
    Canonical (xs.foldl (fun (r : State × List Byte) x => (r.1.writeMem x.1.swz x.1.pa (r.2.take x.2), r.2.drop x.2)) r).1.mem := by
  induction xs generalizing r with
  | nil => exact h
  | cons x xs ih => exact ih (canonical_writeMem h ..)

theorem canonical_eStore {cid core wk : Nat} {asid : BitVec 16} {va : DWord} {l : List Byte} {r : EMem Unit} (h : Canonical s.mem)
    (e : s.eStore cid core wk asid va l = r) : r.Canonical := by
  subst e
  have h1 : Canonical (s.noteHits core wk (s.watchMem core asid va l.length false true)).mem := by simpa using h
  unfold State.eStore
  dsimp only
  split
  · next e => exact canonical_eXlate h1 e
  · next e => exact canonical_eXlate h1 e
  · trivial
  · next v e =>
    have hx : Canonical v.mem := canonical_eXlate h1 e
    simpa using canonical_writePieces (by simpa using hx) _

/-! ### Reports -/

@[simp] theorem canonical_record3 (h : Canonical s.mem) (c : Cmd) (mask : Word) (err : BitVec 8) : Canonical (s.record3 c mask err).mem := by
  simp [State.record3, h]

@[simp] theorem canonical_report (h : Canonical s.mem) (c : Cmd) (err : BitVec 8) (count : Nat) : Canonical (s.report c err count).mem := by
  simp [State.report, h]

@[simp] theorem canonical_report5 (h : Canonical s.mem) (c : Cmd) (err : BitVec 8) (aux : DWord) (detail : BitVec 160) :
    Canonical (s.report5 c err aux detail).mem := by simp [State.report5, h]

/-! ### CPY -/

@[simp] theorem canonical_cpyFinish (h : Canonical s.mem) (cid t : Nat) (err : BitVec 8) : Canonical (s.cpyFinish cid t err).mem := by
  unfold State.cpyFinish
  split <;> simp [h]

@[simp] theorem canonical_cpyEnd (h : Canonical s.mem) (cid t : Nat) (err : BitVec 8) : Canonical (s.cpyEnd cid t err).mem := by
  unfold State.cpyEnd
  split <;> simp [h]

@[simp] theorem canonical_cpyLand (h : Canonical s.mem) (cid : Nat) (c : Cmd) (t : Nat) : Canonical (s.cpyLand cid c t).mem := by
  simp [State.cpyLand, h]

@[simp] theorem canonical_cpyFetch (h : Canonical s.mem) (cid : Nat) (c : Cmd) (t : Nat) (ecc : Ecc) : Canonical (s.cpyFetch cid c t ecc).mem := by
  unfold State.cpyFetch
  dsimp only
  refine canonical_cond (canonical_cond (canonical_cpyEnd h ..) (canonical_cond h ?_)) ?_
  · simpa using h
  split
  · next e => simpa using canonical_eLoad h e
  · next e => simpa using canonical_eLoad h e
  · next e => exact canonical_cpyEnd (canonical_eLoad h e) ..
  · exact h

@[simp] theorem canonical_cpyStore (h : Canonical s.mem) (cid : Nat) (c : Cmd) (t : Nat) (ecc : Ecc) : Canonical (s.cpyStore cid c t ecc).mem := by
  have h1 : Canonical (s.regEcc (cpyFrom c t) ecc).mem := by simpa using h
  unfold State.cpyStore
  dsimp only
  refine canonical_cond (canonical_cpyEnd h1 ..) (canonical_cond (canonical_cond (canonical_cpyEnd h1 ..) (canonical_cond h1 ?_)) ?_)
  · exact canonical_cpyEnd (canonical_writeMem h1 ..) ..
  split
  · next e => exact canonical_cpyEnd (canonical_eStore h1 e) ..
  · next e => simpa using canonical_eStore h1 e
  · next e => exact canonical_cpyEnd (canonical_eStore h1 e) ..
  · exact h1

/-! ### The other commands of the copy engine -/

@[simp] theorem canonical_copyEnd (h : Canonical s.mem) (cid : Nat) (err : BitVec 8) (count : Nat) : Canonical (s.copyEnd cid err count).mem := by
  unfold State.copyEnd
  split <;> simp [h]

@[simp] theorem canonical_tcMap (h : Canonical s.mem) (cid : Nat) (c : Cmd) (ecc : Ecc) : Canonical (s.tcMap cid c ecc).mem := by
  unfold State.tcMap
  split
  · next e => simpa using canonical_eLoad h e
  · next e => simpa using canonical_eLoad h e
  · next e => exact canonical_copyEnd (canonical_eLoad h e) ..
  · exact h

@[simp] theorem canonical_acceptCpy (h : Canonical s.mem) (cid : Nat) (c : Cmd) : Canonical (s.acceptCpy cid c).mem := by
  unfold State.acceptCpy
  dsimp only
  refine canonical_foldS (by simpa using h) _ (fun u t hu => canonical_cond (canonical_cpyFinish hu ..) (canonical_cpyEnd hu ..))

@[simp] theorem canonical_acceptTcopy (h : Canonical s.mem) (cid : Nat) (c : Cmd) : Canonical (s.acceptTcopy cid c).mem := by
  simp [State.acceptTcopy, h]

@[simp] theorem canonical_acceptPull (h : Canonical s.mem) (cid : Nat) (c : Cmd) : Canonical (s.acceptPull cid c).mem := by
  simp [State.acceptPull, h]

@[simp] theorem canonical_acceptCpym (h : Canonical s.mem) (cid : Nat) (c : Cmd) : Canonical (s.acceptCpym cid c).mem := by
  simp [State.acceptCpym, h]

@[simp] theorem canonical_acceptCopy (h : Canonical s.mem) (cid : Nat) : Canonical (s.acceptCopy cid).mem := by
  unfold State.acceptCopy
  repeat' split
  all_goals simp [h]

@[simp] theorem canonical_tcNext (h : Canonical s.mem) (cid : Nat) (c : Cmd) : Canonical (State.tcMem.next s cid c).mem := by
  unfold State.tcMem.next
  dsimp only
  exact canonical_cond (canonical_copyEnd (by simpa using h) ..) (by simpa using h)

@[simp] theorem canonical_tcMem (h : Canonical s.mem) (cid : Nat) (c : Cmd) (ecc : Ecc) : Canonical (s.tcMem cid c ecc).mem := by
  unfold State.tcMem
  dsimp only
  refine canonical_cond (canonical_tcMap h ..) (canonical_cond h ?_)
  split
  · exact canonical_cond (canonical_tcNext h ..) h
  refine canonical_cond (canonical_cond h ?_) (canonical_cond h ?_)
  · have h1 : Canonical (s.regEcc (spotsOf (tcSpot c) (c.ldone * c.extra) c.extra) ecc).mem := by simpa using h
    split
    · exact h1
    · exact canonical_copyEnd h1 ..
    split
    · next e => exact canonical_tcNext (canonical_eStore h1 e) ..
    · next e => simpa using canonical_eStore h1 e
    · next e => exact canonical_copyEnd (canonical_eStore h1 e) ..
    · exact h1
  · split
    · next e => simpa using canonical_eLoad h e
    · next e => simpa using canonical_eLoad h e
    · next e => exact canonical_copyEnd (canonical_eLoad h e) ..
    · exact h

@[simp] theorem canonical_copyMem (h : Canonical s.mem) (cid : Nat) (c : Cmd) (ecc : Ecc) : Canonical (s.copyMem cid c ecc).mem := by
  unfold State.copyMem
  dsimp only
  split
  · split
    · exact h
    · exact canonical_cond (canonical_cpyStore h ..) (canonical_cpyFetch h ..)
  · exact canonical_tcMem h ..
  · refine canonical_cond h (canonical_cond ?_ ?_)
    · split
      · next e => exact canonical_eSkew h e
      · next e => simpa using canonical_eSkew h e
      · next e => exact canonical_copyEnd (by simpa using canonical_eSkew h e) ..
      · exact h
    · split
      · next e => simpa using canonical_eLoad h e
      · next e => simpa using canonical_eLoad h e
      · next e => exact canonical_copyEnd (by simpa using canonical_eLoad h e) ..
      · exact h
  · refine canonical_cond h ?_
    split
    · next e => simpa using canonical_eLoad h e
    · next e => simpa using canonical_eLoad h e
    · next e =>
      have herr := canonical_eLoad h e
      exact canonical_cond (canonical_copyEnd (by simpa using herr) ..) (by simpa using herr)
    · exact h
  · exact h

@[simp] theorem canonical_shapeLand (h : Canonical s.mem) (cid : Nat) (c : Cmd) : Canonical (s.shapeLand cid c).mem := by
  have hput : ∀ x : BitVec 512, Canonical (s.modBlock c.bk (fun b => { b with shape := Fmap.set 0 b.shape ((cmdShape c).getD (0, true)).1 x })).mem :=
    fun x => by simpa using h
  unfold State.shapeLand
  refine canonical_cond h ?_
  dsimp only
  split
  · exact canonical_cond (canonical_copyEnd (hput _) ..) (canonical_copyEnd (hput _) ..)
  · exact canonical_copyEnd (hput _) ..

@[simp] theorem canonical_tcLand (h : Canonical s.mem) (cid : Nat) (c : Cmd) : Canonical (s.tcLand cid c).mem := by
  simp only [State.tcLand]
  repeat' split
  all_goals simp [h]

@[simp] theorem canonical_pullLand (h : Canonical s.mem) (cid : Nat) (c : Cmd) : Canonical (s.pullLand cid c).mem := by
  simp [State.pullLand, h]

@[simp] theorem canonical_copyLand (h : Canonical s.mem) (cid : Nat) (c : Cmd) : Canonical (s.copyLand cid c).mem := by
  unfold State.copyLand
  repeat' split
  all_goals simp [h]

@[simp] theorem canonical_remoteServe (h : Canonical s.mem) (cid : Nat) (ecc : Ecc) : Canonical (s.remoteServe cid ecc).mem := by
  simp only [State.remoteServe]
  repeat' split
  all_goals simp [h]

@[simp] theorem canonical_multiLand (h : Canonical s.mem) (cid : Nat) : Canonical (s.multiLand cid).mem := by
  unfold State.multiLand
  split
  · exact h
  dsimp only
  refine canonical_cond h ?_
  split
  · exact h
  · next v e =>
    have hv : Canonical v.mem := by
      split at e
      · cases e
        simpa using h
      · repeat' split at e
        all_goals cases e
        · exact canonical_copyEnd h ..
        · simpa using h
    have hnext : Canonical (v.modCmd cid (fun c => { c with ldone := c.ldone + 1 })).mem := by simpa using hv
    exact canonical_cond hv (canonical_cond (canonical_copyEnd hnext ..) (canonical_cond (canonical_copyEnd hnext ..) hnext))

/-! ### Arrays -/

@[simp] theorem canonical_endArray (h : Canonical s.mem) (cid : Nat) (c : Cmd) : Canonical (s.endArray cid c).mem := by
  unfold State.endArray
  repeat' split
  all_goals simp [h]

@[simp] theorem canonical_arrMem (h : Canonical s.mem) (cid : Nat) (c : Cmd) (ecc : Ecc) : Canonical (s.arrMem cid c ecc).mem := by
  unfold State.arrMem
  dsimp only
  refine canonical_cond (by simpa using h) (canonical_cond h (canonical_cond ?_ ?_))
  · split
    · next e => exact canonical_eSkew h e
    · next e => simpa using canonical_eSkew h e
    · next e => simpa using canonical_eSkew h e
    · exact h
  · split
    · next e => simpa using canonical_eLoad h e
    · next e => simpa using canonical_eLoad h e
    · next e => simpa using canonical_eLoad h e
    · exact h

end Sys2Proof.Machine
end

section
/-! SUPPORT. The canonical form under the ports and the schedules. -/

namespace Sys2Proof.Machine

variable {s u : State}

/-! ### Entries of a port -/

theorem canonical_portWrite {p : Nat} {asid : BitVec 16} {va : DWord} {l : List Byte} (h : Canonical s.mem) (e : s.portWrite p asid va l = .ok u) :
    Canonical u.mem := by
  unfold State.portWrite at e
  split at e
  · cases e
  · next e1 =>
    cases e
    have h1 := canonical_writeD h e1
    exact canonical_cond (by simpa using h1) h1

@[simp] theorem canonical_entryRecord (h : Canonical s.mem) (p i : Nat) (err : BitVec 8) (step : Nat) (late : Bool) :
    Canonical (s.entryRecord p i err step late).1.mem := by
  unfold State.entryRecord
  dsimp only
  repeat' split
  · exact h
  · simpa using h
  · next e => exact canonical_portWrite h e
  · simpa using h
  · exact h
  · exact h

@[simp] theorem canonical_failEntry (h : Canonical s.mem) (p i : Nat) (err : BitVec 8) : Canonical (s.failEntry p i err).mem := by
  have hr := canonical_entryRecord h p i err 0 (s.ent p i).late
  unfold State.failEntry
  split <;> next e => simpa [e] using hr

@[simp] theorem canonical_sendEntry (h : Canonical s.mem) (p i : Nat) : Canonical (s.sendEntry p i).mem := by
  unfold State.sendEntry
  dsimp only
  refine canonical_cond h (canonical_cond (canonical_failEntry h ..) (canonical_cond h (canonical_cond (canonical_failEntry (by simpa using h) ..) ?_)))
  split
  · simpa using h
  · refine canonical_cond (by simpa using h) (canonical_failEntry ?_ ..)
    exact canonical_cond h (by simpa using h)

@[simp] theorem canonical_startEntry (h : Canonical s.mem) (p i : Nat) : Canonical (s.startEntry p i).mem := by
  unfold State.startEntry
  exact canonical_cond (canonical_failEntry (by simpa using h) ..) (canonical_cond (by simpa using h) (canonical_sendEntry (by simpa using h) ..))

@[simp] theorem canonical_doneEntry (h : Canonical s.mem) (p i : Nat) (err : BitVec 8) (step : Nat) (late : Bool) :
    Canonical (s.doneEntry p i err step late).mem := by
  have hr := canonical_entryRecord h p i (if (s.ent p i).abort && err == 0 then eABORT else err) step late
  unfold State.doneEntry
  dsimp only
  split
  · next e =>
    rw [e] at hr
    exact hr
  · next e =>
    rw [e] at hr
    rw [State.settleEntry_mem]
    exact canonical_cond (by simpa using hr) hr

@[simp] theorem canonical_retryRecord (h : Canonical s.mem) (p i : Nat) : Canonical (s.retryRecord p i).mem :=
  canonical_cond (canonical_doneEntry h ..) h

/-! ### What arrives at a port -/

@[simp] theorem canonical_arriveGo (h : Canonical s.mem) (p : Nat) (asid : BitVec 16) (rop : Option Rop) (qs : List (DWord × Nat)) (data : List Byte) :
    Canonical (s.arriveGo p asid rop qs data).1.mem := by
  induction qs generalizing s data with
  | nil => exact h
  | cons q qs ih =>
    unfold State.arriveGo
    split
    · exact h
    split
    · exact h
    dsimp only
    split
    · exact h
    split
    · exact h
    · refine ih (canonical_cond ?_ ?_) _
      · simpa using canonical_writeMem (by simpa using h) ..
      · exact canonical_writeMem (by simpa using h) ..

@[simp] theorem canonical_arrive (h : Canonical s.mem) (p : Nat) (a : Arrival) : Canonical (s.arrive p a).1.mem := by
  have hgo := canonical_arriveGo h p a.asid a.rop (pieces a.rva a.data.length (a.data.length / 65536 + 2)) a.data
  unfold State.arrive
  split
  · simpa using h
  split
  · next e =>
    rw [e] at hgo
    dsimp only [State.emit_mem]
    split
    · simpa using hgo
    · exact hgo
  · next e =>
    rw [e] at hgo
    split
    · exact hgo
    split <;> simpa using hgo

@[simp] theorem canonical_landTraffic (h : Canonical s.mem) (p : Nat) (x : Traffic) : Canonical (s.landTraffic p x).mem := by
  unfold State.landTraffic
  split
  · simpa using h
  · simpa using h
  · next a =>
    have ha := canonical_arrive h p a
    refine canonical_cond (by simpa using h) ?_
    split <;> next e => simpa [e] using ha

@[simp] theorem canonical_traffic (h : Canonical s.mem) (p : Nat) (x : Traffic) : Canonical (s.traffic p x).mem :=
  canonical_cond (by simpa using h) (canonical_landTraffic h ..)

@[simp] theorem canonical_behindGo (h : Canonical s.mem) (p : Nat) : Canonical (s.behindGo p).mem := by
  unfold State.behindGo
  split
  · exact h
  · exact canonical_cond h (canonical_landTraffic (by simpa using h) ..)

@[simp] theorem canonical_retryHeld (h : Canonical s.mem) (p : Nat) : Canonical (s.retryHeld p).mem := by
  unfold State.retryHeld
  split
  · exact h
  split
  · exact h
  · next a _ =>
    have ha := canonical_arrive h p a
    split <;> next e => simpa [e] using ha

/-! ### Schedules -/

theorem canonical_schedWrite {r : SRun} {va : DWord} {l : List Byte} (h : Canonical s.mem) (e : s.schedWrite r va l = .ok u) : Canonical u.mem := by
  unfold State.schedWrite at e
  split at e
  · cases e
  · next e1 =>
    cases e
    have h1 := canonical_writeD h e1
    exact canonical_cond (by simpa using h1) h1

@[simp] theorem canonical_schedRecord (h : Canonical s.mem) (sid : Nat) (r : SRun) (err : BitVec 8) : Canonical (s.schedRecord sid r err).mem := by
  unfold State.schedRecord
  dsimp only
  split
  · exact canonical_doneEntry (by simpa using h) ..
  · refine canonical_cond (by simpa using h) (canonical_cond (by simpa using h) ?_)
    split
    · next e => simpa using canonical_schedWrite h e
    · split <;> simpa using h

theorem canonical_writeBack (h : Canonical s.mem) (r : SRun) (err : BitVec 8) (ks : List Nat) : Canonical (s.writeBack r err ks).s.mem := by
  induction ks generalizing s r err with
  | nil => exact h
  | cons k ks ih =>
    unfold State.writeBack
    dsimp only
    split
    · exact ih h ..
    split
    · exact h
    split
    · next e => exact ih (canonical_schedWrite h e) ..
    · split
      · exact h
      · exact ih h ..

@[simp] theorem canonical_schedEnd (h : Canonical s.mem) (sid : Nat) (r : SRun) (err : BitVec 8) : Canonical (s.schedEnd sid r err).mem := by
  have hw := canonical_writeBack h r err (Fmap.keys r.dirty)
  unfold State.schedEnd
  dsimp only
  split
  · simpa using hw
  · simpa using hw
  · exact canonical_schedRecord (by simpa using hw) ..

@[simp] theorem canonical_schedResume (h : Canonical s.mem) (sid : Nat) : Canonical (s.schedResume sid).mem := by
  unfold State.schedResume
  split
  · exact h
  · refine canonical_cond h ?_
    split <;> simp [h]

theorem LoadRes.canonical_bind {α β : Type} {r : LoadRes α} {f : α → State → LoadRes β} (h : r.Canonical)
    (hf : ∀ x u, Machine.Canonical u.mem → (f x u).Canonical) : (r.bind f).Canonical := by
  cases r with
  | ok x u => exact hf x u h
  | page va l => trivial
  | away => trivial
  | bad e u => exact h

theorem canonical_startRead (h : Canonical s.mem) (x : SStart) (va : DWord) (n : Nat) : (x.read va n s).Canonical := by
  unfold SStart.read
  refine LoadRes.canonical_cond trivial ?_
  split
  · simpa using h
  · exact LoadRes.canonical_cond trivial h

theorem canonical_startWords (h : Canonical s.mem) (x : SStart) (va : DWord) (fuel : Nat) : (x.words va fuel s).Canonical := by
  induction fuel generalizing s va with
  | zero => exact h
  | succ fuel ih =>
    refine LoadRes.canonical_bind (canonical_startRead h ..) (fun l u hu => ?_)
    exact LoadRes.canonical_cond hu (LoadRes.canonical_bind (ih hu _) (fun ws v hv => hv))

theorem canonical_startStage (h : Canonical s.mem) (x : SStart) (bufs : List (BitVec 128)) (m : Fmap Word) (l : List (Nat × Nat)) :
    (x.stage bufs m l s).Canonical := by
  induction l generalizing s m with
  | nil => exact h
  | cons b l ih => exact LoadRes.canonical_bind (canonical_startRead h ..) (fun l u hu => ih hu _)

theorem canonical_startLoad (h : Canonical s.mem) (x : SStart) : (x.load s).Canonical := by
  refine LoadRes.canonical_cond h (LoadRes.canonical_bind (canonical_startRead h ..) (fun t u hu => ?_))
  refine LoadRes.canonical_cond hu (LoadRes.canonical_cond hu (LoadRes.canonical_bind (canonical_startWords hu ..) (fun ws v hv => ?_)))
  exact LoadRes.canonical_cond hv (LoadRes.canonical_bind (canonical_startStage hv ..) (fun m w hw => hw))

@[simp] theorem canonical_schedLoad (h : Canonical s.mem) (sid : Nat) (r : SRun) : Canonical (s.schedLoad sid r).mem := by
  have hl := canonical_startLoad h r.start
  unfold State.schedLoad
  refine canonical_cond (canonical_schedEnd h ..) ?_
  split
  · next e => simpa [e] using hl
  · simpa using h
  · simpa using h
  · next e =>
    rw [e] at hl
    exact canonical_schedEnd hl ..

/-! ### Schedule words -/

theorem canonical_wordStep {body : Nat → SRun → State → WordRes} (h : Canonical s.mem) (hb : ∀ sid r, (body sid r s).Canonical) :
    Result.Canonical (s.wordStep body) := by
  unfold State.wordStep
  split
  · exact h
  · next r _ =>
    have hr := hb s.sfocus r
    split
    · exact h
    split <;> next e =>
      rw [e] at hr
      simp only [WordRes.Canonical] at hr
      simp [h, hr]

theorem canonical_waitRoom (h : Canonical s.mem) (p : Nat) (l : List Word) (r : SRun) : (waitRoom p l r s).Canonical :=
  WordRes.canonical_cond (by simpa using h) trivial

theorem canonical_wordNop (h : Canonical s.mem) (r : SRun) : (wordNop r s).Canonical := h

theorem canonical_wordSend (h : Canonical s.mem) (port : Nat) (c : ChunkRef) (buf sid : Nat) (r : SRun) : (wordSend port c buf sid r s).Canonical :=
  WordRes.canonical_cond h (WordRes.canonical_cond h (WordRes.canonical_cond (canonical_waitRoom h ..) (by simpa using h)))

theorem takeChunk_mem {p sid : Nat} {x : Chunk} (e : s.takeChunk p sid = some (x, u)) : u.mem = s.mem := by
  unfold State.takeChunk at e
  split at e
  · cases e
  · cases e
    simp

theorem canonical_wordRecv (h : Canonical s.mem) (port : Nat) (c : ChunkRef) (buf sid : Nat) (r : SRun) :
    (wordRecv port c buf sid r s).Canonical := by
  unfold wordRecv
  refine WordRes.canonical_cond h ?_
  split
  · trivial
  · next e =>
    have ht : Canonical _ := (congrArg Canonical (takeChunk_mem e)).mpr h
    exact WordRes.canonical_cond ht ht

theorem canonical_wordForward (h : Canonical s.mem) (fwd buf k sid : Nat) (l : List Word) (r : SRun) : (wordForward fwd buf k sid l r s).Canonical :=
  WordRes.canonical_cond h (WordRes.canonical_cond (canonical_waitRoom h ..) (by simpa using h))

theorem canonical_wordRed (h : Canonical s.mem) (port : Nat) (c : ChunkRef) (buf fwd : Nat) (rop : Rop) (sid : Nat) (r : SRun) :
    (wordRed port c buf fwd rop sid r s).Canonical := by
  unfold wordRed
  dsimp only
  split
  · exact canonical_wordForward h ..
  refine WordRes.canonical_cond h ?_
  split
  · trivial
  · next e =>
    have ht : Canonical _ := (congrArg Canonical (takeChunk_mem e)).mpr h
    refine WordRes.canonical_cond ht (WordRes.canonical_cond ht (WordRes.canonical_cond ht ?_))
    split
    · exact ht
    · exact canonical_wordForward ht ..

theorem canonical_wordCopy (h : Canonical s.mem) (dst : ChunkRef) (dbuf : Nat) (src : ChunkRef) (sbuf : Nat) (r : SRun) :
    (wordCopy dst dbuf src sbuf r s).Canonical := WordRes.canonical_cond h h

theorem canonical_wordWait (h : Canonical s.mem) (port : Nat) (time : Bool) (idx : Nat) (x : Word) (r : SRun) :
    (wordWait port time idx x r s).Canonical :=
  WordRes.canonical_cond (WordRes.canonical_cond trivial h) (WordRes.canonical_cond trivial h)

theorem canonical_wordSignal (h : Canonical s.mem) (port : Nat) (peer : Bool) (idx : BitVec 8) (x : Word) (r : SRun) :
    (wordSignal port peer idx x r s).Canonical :=
  WordRes.canonical_cond (by simpa using h) (WordRes.canonical_cond h (WordRes.canonical_cond trivial (by simpa using h)))

theorem canonical_wordLoop (h : Canonical s.mem) (count target : Nat) (r : SRun) : (wordLoop count target r s).Canonical := WordRes.canonical_cond h h

theorem canonical_wordTry (h : Canonical s.mem) (sid : Nat) (r : SRun) (i : Instr) : (s.wordTry sid r i).Canonical := by
  unfold State.wordTry
  split
  · exact canonical_wordSend h ..
  · exact canonical_wordRecv h ..
  · exact canonical_wordRed h ..
  · exact canonical_wordWait h ..
  · exact canonical_wordSignal h ..
  · exact h

@[simp] theorem canonical_linkDown (h : Canonical s.mem) (p : Nat) : Canonical (s.linkDown p).mem := by
  unfold State.linkDown
  dsimp only
  refine canonical_foldS (canonical_foldS (by simpa using h) _ (fun u i hu => canonical_doneEntry hu ..)) _ (fun u sid hu => ?_)
  split
  · exact hu
  refine canonical_cond hu ?_
  split
  · exact hu
  split
  · next e => exact canonical_cond (canonical_schedEnd ((congrArg WordRes.Canonical e).mp (canonical_wordTry hu ..)) ..) hu
  · exact hu

end Sys2Proof.Machine
end

section
/-! SUPPORT. The canonical form under launches, the host, boot, and the turns of a cycle. -/

namespace Sys2Proof.Machine

variable {s u : State}

/-! ### Launches -/

theorem canonical_ctxWrite {asid : BitVec 16} {va : DWord} {l : List (Nat × List Byte)} (h : Canonical s.mem) (e : s.ctxWrite asid va l = some u) :
    Canonical u.mem := by
  induction l generalizing s with
  | nil =>
    cases e
    exact h
  | cons p l ih =>
    unfold State.ctxWrite at e
    split at e
    · next e1 => exact ih (canonical_writeD h e1) e
    · cases e

theorem canonical_fillContext {asid : BitVec 16} {va : DWord} {x : Structs} (h : Canonical s.mem) (e : s.fillContext asid va x = some u) :
    Canonical u.mem := by
  unfold State.fillContext at e
  exact canonical_ctxWrite (by exact h) e

@[simp] theorem canonical_startLaunch (h : Canonical s.mem) (q n prio : Nat) (qasid : BitVec 16) (recva : DWord) :
    Canonical (s.startLaunch q n prio qasid recva).mem := by
  unfold State.startLaunch
  split
  · simpa using h
  dsimp only
  split
  · split
    · simpa using canonical_writeTry (by simpa using h) ..
    · next e =>
      have ht := canonical_fillContext (by simpa using h) e
      simpa using canonical_cond ht (canonical_writeTry ht ..)
  · simpa using canonical_writeTry (by simpa using h) ..

/-! ### The host -/

@[simp] theorem canonical_hostWrite (h : Canonical s.mem) (pa : Nat) (data : List Byte) : Canonical (s.hostWrite pa data).mem := by
  unfold State.hostWrite
  refine canonical_cond (by simpa using h) ?_
  split
  · exact h
  · exact canonical_writeMem (by simpa using h) ..

@[simp] theorem canonical_hostGo (h : Canonical s.mem) (x : HostReq) : Canonical (s.hostGo x).mem := by
  cases x with
  | read a n e => simpa [State.hostGo] using h
  | write a l => exact canonical_hostWrite h a l

@[simp] theorem canonical_hostTake (h : Canonical s.mem) (q : HostReq) : Canonical (s.hostTake q).mem := canonical_cond h (canonical_hostGo h q)

@[simp] theorem canonical_hostMove (h : Canonical s.mem) : Canonical s.hostMove.mem := by
  unfold State.hostMove
  dsimp only
  split
  · exact h
  split
  · exact h
  · exact canonical_hostGo (by simpa using h) _

/-! ### Boot -/

/-- Memory with some bytes dropped from its list is canonical too. -/
theorem canonical_filter {m : Fmap Byte} (h : Canonical m) (p : Nat × Byte → Bool) : Canonical (m.filter p) := by
  obtain ⟨hsorted, hlisted⟩ := (Fmap.wf_iff memDefault m).1 h
  exact (Fmap.wf_iff memDefault _).2 ⟨hsorted.sublist (List.filter_sublist.map _), fun q hq => hlisted q (List.mem_of_mem_filter hq)⟩

@[simp] theorem canonical_clearPage (h : Canonical s.mem) (ppn : Nat) : Canonical (s.clearPage ppn).mem := canonical_filter h _

@[simp] theorem canonical_putEntry (h : Canonical s.mem) (pa : Nat) (e : BitVec 128) : Canonical (s.putEntry pa e).mem := canonical_writeMem h ..

@[simp] theorem canonical_bootWalk (h : Canonical s.mem) (va : DWord) (leaf : BitVec 128) (tab n lv : Nat) :
    Canonical (s.bootWalk va leaf tab n lv).1.mem := by
  induction lv generalizing s tab n with
  | zero => exact canonical_putEntry h ..
  | succ lv ih =>
    unfold State.bootWalk
    dsimp only
    split
    · exact ih h ..
    · exact ih (canonical_putEntry (canonical_clearPage h _) ..) ..

/-- The boot tables are built with the number of tables so far beside the state. -/
theorem canonical_foldl_fst {α β : Type} {f : State × β → α → State × β} {x : State × β} (h : Canonical x.1.mem) (l : List α)
    (hf : ∀ y a, Canonical y.1.mem → Canonical (f y a).1.mem) : Canonical (l.foldl f x).1.mem := by
  induction l generalizing x with
  | nil => exact h
  | cons a l ih => exact ih (hf x a h)

theorem canonical_bootMap {x : State × Nat} (h : Canonical x.1.mem) (page : BitVec 40) (ppn : BitVec 36) (perm size : Nat) :
    Canonical (State.bootMap x page ppn perm size).1.mem := canonical_foldl_fst h _ (fun _ _ hy => canonical_bootWalk hy ..)

@[simp] theorem canonical_bootTables (h : Canonical s.mem) (f : Firmware) : Canonical (s.bootTables f).mem := by
  unfold State.bootTables
  dsimp only
  refine canonical_foldl_fst ?_ _ (fun x q hx => ?_)
  · rw [State.setDev_mem]
    exact canonical_putEntry (canonical_clearPage (canonical_clearPage h _) _) ..
  · split
    · exact hx
    · exact canonical_bootMap (canonical_bootMap (canonical_bootMap hx ..) ..) ..

@[simp] theorem canonical_startSystem (h : Canonical s.mem) (i : Nat) (k : SysKernel) : Canonical (s.startSystem i k).mem := by
  unfold State.startSystem
  refine canonical_cond h ?_
  simpa using canonical_writeMem (canonical_writeMem h ..) ..

@[simp] theorem canonical_runImage (h : Canonical s.mem) (f : Firmware) : Canonical (s.runImage f).mem :=
  canonical_foldS (canonical_bootTables (by simpa using h) f) _ (fun _ _ hu => canonical_startSystem hu ..)

/-! ### Threads that wake -/

@[simp] theorem canonical_poisonAccess (h : Canonical s.mem) (i : Nat) : Canonical (s.poisonAccess i).mem := by
  unfold State.poisonAccess
  split
  · exact h
  · exact canonical_cond (canonical_cond (canonical_failAccs h ..) h) (canonical_cond (by simpa using h) h)

@[simp] theorem canonical_signNow (h : Canonical s.mem) (wk t k : Nat) (i : Instr) (hold : Hold) : Canonical (s.signNow wk t k i hold).mem := by
  have hs := canonical_signHold h wk t k i ((s.thread wk t).pc - 12) hold
  unfold State.signNow
  split
  · next e => exact (congrArg SignRes.Canonical e).mp hs
  · exact canonical_raise h ..
  · exact h

@[simp] theorem canonical_relAct (h : Canonical s.mem) (wk t : Nat) (ts : List Nat) (a : Act) : Canonical (s.relAct wk t ts a).mem := by
  have honce : ∀ {f : State → State}, (∀ v, (f v).mem = v.mem) → Canonical (s.relOnce wk ts f).mem :=
    fun hf => (congrArg Canonical (State.relOnce_mem hf s wk ts)).mpr h
  unfold State.relAct
  split
  · simpa using h
  · simpa using h
  · simpa using h
  · exact canonical_cond (honce fun v => by simp) h
  · exact canonical_signNow h ..
  · exact canonical_signNow h ..
  · simpa using h
  · exact canonical_cond h (honce fun v => by simp)
  · exact honce fun v => by simp
  · exact honce fun v => by simp

@[simp] theorem canonical_relTake (h : Canonical s.mem) (wk t : Nat) : Canonical (s.relTake wk t).mem := by
  unfold State.relTake
  split
  · exact canonical_cond (canonical_relAct h ..) h
  · exact h

@[simp] theorem canonical_wake (h : Canonical s.mem) (wk t : Nat) : Canonical (s.wake wk t).mem := by
  unfold State.wake
  split <;> simp [h]

/-! ### The turn of a lane -/

@[simp] theorem markElig_mem (s : State) (core : Nat) : (s.markElig core).mem = s.mem := by simp [State.markElig]

theorem fetchWord_mem_eq {wk : Nat} {pc : DWord} {x : FetchRes} (e : s.fetchWord wk pc = (x, u)) : u.mem = s.mem := by
  rw [← s.fetchWord_mem wk pc, e]

@[simp] theorem canonical_beginRun (h : Canonical s.mem) (core key wk : Nat) (g : Group) : Canonical (s.beginRun core key wk g).mem := by
  unfold State.beginRun
  split <;> next e =>
    have hf := fetchWord_mem_eq e
    simp [h, hf]

@[simp] theorem canonical_illegalWord (h : Canonical s.mem) (key : Nat) (r : Run) : Canonical (s.illegalWord key r).mem := by
  simp [State.illegalWord, h]

@[simp] theorem canonical_noWord (h : Canonical s.mem) (key : Nat) (r : Run) (x : FetchRes) : Canonical (s.noWord key r x).mem := by
  unfold State.noWord
  split <;> simp [h]

theorem canonical_wordTurn (h : Canonical s.mem) (key : Nat) (r : Run) (w : BitVec 96) : (s.wordTurn key r w).Canonical := by
  unfold State.wordTurn
  split <;> simp [h]

theorem canonical_runTurn (h : Canonical s.mem) (key : Nat) : (s.runTurn key).Canonical := by
  unfold State.runTurn
  split
  · exact h
  split
  · exact canonical_wordTurn h ..
  refine Turn.canonical_cond (by simpa using h) (Turn.canonical_cond (by simpa using h) ?_)
  split
  · next e =>
    have hf : Canonical _ := (congrArg Canonical (fetchWord_mem_eq e)).mpr h
    exact Turn.canonical_cond (by simpa using hf) (canonical_wordTurn hf ..)
  · next e => exact canonical_noWord ((congrArg Canonical (fetchWord_mem_eq e)).mpr h) ..

/-! ### The other turns -/

theorem canonical_portMoves (h : Canonical s.mem) : ∀ v ∈ s.portMoves, Canonical v.mem := by
  intro v hv
  simp only [State.portMoves, List.mem_append, List.mem_map, List.mem_flatMap] at hv
  rcases hv with ((((⟨p, -, rfl⟩ | ⟨p, -, rfl⟩) | ⟨k, -, rfl⟩) | ⟨p, -, e, -, rfl⟩) | ⟨p, -, e, -, rfl⟩) | hv
  · exact canonical_retryHeld h p
  · exact canonical_behindGo h p
  · exact canonical_schedResume h k
  · exact canonical_retryRecord h ..
  · exact canonical_sendEntry h ..
  · split at hv
    · cases hv
    · obtain rfl := List.mem_singleton.1 hv
      exact canonical_hostMove h

theorem canonical_closers {t : Turn} (h : Canonical s.mem) (e : s.closers = some t) : t.Canonical := by
  unfold State.closers at e
  split at e
  · cases e
    exact h
  · cases e
    exact canonical_startEntry h ..
  · cases e
    exact h
  · obtain ⟨i, -, rfl⟩ := Option.map_eq_some_iff.1 e
    exact h

@[simp] theorem canonical_closeCycle (h : Canonical s.mem) (n : Nat) : Canonical (s.closeCycle n).mem := by
  unfold State.closeCycle
  dsimp only
  have hend : Canonical (foldS (s.diesT.map Prod.fst) s (fun s d => s.endCycle d)).mem := canonical_foldS h _ (fun _ _ hu => canonical_endCycle hu _)
  simpa using hend

@[simp] theorem canonical_idle (h : Canonical s.mem) : Canonical s.idle.mem := by simp [State.idle, h]

theorem canonical_moveOf {t : Turn} (h : Canonical s.mem) (k : Nat) (e : s.moveOf k = some t) : t.Canonical := by
  unfold State.moveOf at e
  split at e
  all_goals obtain ⟨i, hi, rfl⟩ := Option.map_eq_some_iff.1 e
  · simp [h]
  · exact h
  · exact canonical_portMoves h i (List.mem_of_find?_eq_some hi)
  · exact canonical_runTurn h _
  · exact h

theorem canonical_markMoved {t : Turn} (h : t.Canonical) (k : Nat) : (State.markMoved k t).Canonical := by
  cases t <;> exact h

theorem canonical_otherTurn {t : Turn} (h : Canonical s.mem) (e : s.otherTurn = some t) : t.Canonical := by
  obtain ⟨j, -, hj⟩ := List.exists_of_findSome?_eq_some e
  obtain ⟨v, hv, rfl⟩ := Option.map_eq_some_iff.1 hj
  exact canonical_markMoved (canonical_moveOf h _ hv) _

theorem canonical_closeTurn (h : Canonical s.mem) : s.closeTurn.Canonical := by
  unfold State.closeTurn
  dsimp only
  split
  · next e => exact canonical_closers (by exact h) e
  · exact canonical_idle (by exact h)

theorem canonical_turn1 (h : Canonical s.mem) : s.turn1.Canonical := by
  unfold State.turn1
  refine Turn.canonical_cond (canonical_closeTurn h) ?_
  split
  · next e =>
    split at e
    · exact canonical_otherTurn h e
    · cases e
  · exact canonical_runTurn (by exact h) _
  · exact canonical_closeTurn h

end Sys2Proof.Machine
end

section
/-! SUPPORT. The canonical form under the lane instructions that branch. -/

namespace Sys2Proof.Machine

variable {s u : State}

/-! ### Lane instructions whose body branches -/

theorem canonical_execMov (h : Canonical s.mem) (hdr : Hdr) (d a : Operand) : Result.Canonical (execMov hdr d a s) := by
  unfold execMov
  split
  · refine canonical_laneOnce (fun c u hu => ?_) h
    exact TRes.canonical_cond hu (by simpa using hu)
  · exact canonical_laneEach (fun c u hu => by simpa using hu) h
  · exact canonical_laneEach (fun c u hu => canonical_valBody hu _ c) h

theorem canonical_execMovx (h : Canonical s.mem) (hdr : Hdr) (sp : Bool) (d a b : Operand) : Result.Canonical (execMovx hdr sp d a b s) := by
  refine canonical_laneEarly (fun c u hu => ?_) h
  split
  · trivial
  · exact TRes.canonical_cond hu (TRes.canonical_cond trivial (by simpa using hu))

theorem canonical_execStx (h : Canonical s.mem) (hdr : Hdr) (sp : Bool) (d a b : Operand) : Result.Canonical (execStx hdr sp d a b s) := by
  refine canonical_laneEarly (fun c u hu => ?_) h
  split
  · trivial
  · exact TRes.canonical_cond hu (by simpa using hu)

theorem canonical_execVote (h : Canonical s.mem) (hdr : Hdr) (kind : VoteKind) (d a : Operand) : Result.Canonical (execVote hdr kind d a s) := by
  refine canonical_laneAll (fun cs u hu => ?_) h
  exact canonical_foldS hu cs (fun v c hv => by split <;> simpa using hv)

theorem canonical_execRedux (h : Canonical s.mem) (hdr : Hdr) (ty : Ty) (oper : RedOper) (d a : Operand) :
    Result.Canonical (execRedux hdr ty oper d a s) := by
  refine canonical_laneAll (fun cs u hu => ?_) h
  split
  · exact hu
  · exact canonical_foldS hu cs (fun v c hv => by simpa using hv)

theorem canonical_revoked {p : Prop} [Decidable p] {wk w : Nat} (h : Canonical s.mem) (e : (if p then s.revTry wk w else .ok s) = .ok u) :
    Canonical u.mem := by
  split at e
  · exact (congrArg Canonical (revTry_ok_mem e)).mpr h
  · cases e
    exact h

theorem canonical_revoking {p : Prop} [Decidable p] {wk w : Nat} (h : Canonical s.mem) (e : (if p then s.revTry wk w else .ok s) = .error u) :
    Canonical u.mem := by
  split at e
  · exact (congrArg Canonical (revTry_error_mem e)).mpr h
  · cases e

theorem canonical_execExpw (h : Canonical s.mem) (hdr : Hdr) (sc : WScope) (grp : BitVec 8) (d a b : Operand) :
    Result.Canonical (execExpw hdr sc grp d a b s) := by
  refine canonical_laneOnce (fun c u hu => ?_) h
  refine TRes.canonical_cond trivial (TRes.canonical_cond hu ?_)
  split
  · next e => exact canonical_revoking hu e
  · next e => simpa using canonical_revoked hu e

theorem canonical_execRevw (h : Canonical s.mem) (hdr : Hdr) (d : Operand) : Result.Canonical (execRevw hdr d s) := by
  refine canonical_laneOnce (fun c u hu => ?_) h
  refine TRes.canonical_cond hu (TRes.canonical_cond ?_ (by simpa using hu))
  split
  · next e => exact (congrArg Canonical (revTry_ok_mem e)).mpr hu
  · next e => exact (congrArg Canonical (revTry_error_mem e)).mpr hu

theorem canonical_execBindw (h : Canonical s.mem) (hdr : Hdr) (d a : Operand) : Result.Canonical (execBindw hdr d a s) := by
  refine canonical_laneOnce (fun c u hu => ?_) h
  refine TRes.canonical_cond trivial ?_
  split
  · next e => simpa using canonical_revoking hu e
  · next e => simpa using canonical_revoked hu e

theorem canonical_execFrame (h : Canonical s.mem) (hdr : Hdr) (d a : Operand) : Result.Canonical (execFrame hdr d a s) := by
  refine canonical_laneEach (fun c u hu => ?_) h
  refine TRes.canonical_cond hu ?_
  split
  · trivial
  · exact canonical_stkBody (canonical_stackPush hu ..) (fun v ws hv => by simpa using hv) c

theorem canonical_execUnframe (h : Canonical s.mem) (hdr : Hdr) (d a : Operand) : Result.Canonical (execUnframe hdr d a s) := by
  refine canonical_laneEach (fun c u hu => ?_) h
  exact TRes.canonical_cond hu (canonical_stkBody (canonical_stackPop hu ..) (fun v ws hv => by simpa using hv) c)

theorem canonical_execFpack (h : Canonical s.mem) (hdr : Hdr) (rnd : Rnd) (slot : BitVec 3) (d a b : Operand) :
    Result.Canonical (execFpack hdr rnd slot d a b s) := by
  refine canonical_laneEarly (fun c u hu => ?_) h
  dsimp only
  split
  · trivial
  refine TRes.canonical_cond hu ?_
  split
  · trivial
  · exact TRes.canonical_cond trivial (by simpa using hu)

theorem canonical_execFunpack (h : Canonical s.mem) (hdr : Hdr) (slot : BitVec 3) (d a b : Operand) :
    Result.Canonical (execFunpack hdr slot d a b s) := by
  refine canonical_laneEarly (fun c u hu => ?_) h
  dsimp only
  split
  · trivial
  refine TRes.canonical_cond hu ?_
  split
  · trivial
  · exact TRes.canonical_cond trivial (canonical_fpOut (by simpa using hu) c _)

theorem canonical_execQblk (h : Canonical s.mem) (hdr : Hdr) (j : BlkIdx) (slot : BitVec 3) (d a : Operand) :
    Result.Canonical (execQblk hdr j slot d a s) := by
  refine canonical_laneEach (fun c u hu => ?_) h
  dsimp only
  split
  · simpa using hu
  · trivial

theorem canonical_execLd (h : Canonical s.mem) (hdr : Hdr) (size : Size) (d a b : Operand) : Result.Canonical (execLd hdr size d a b s) := by
  unfold execLd
  split
  · exact canonical_laneOnce (fun c u hu => canonical_queueLoad hu _ _ c) h
  · exact canonical_laneEach (fun c u hu => canonical_memBody hu _ _ c) h

theorem canonical_execCpym (h : Canonical s.mem) (hdr : Hdr) (g : EGuard) (d a : Operand) : Result.Canonical (execCpym hdr g d a s) := by
  refine canonical_laneOnce (fun c u hu => ?_) h
  exact canonical_issueBody (fun c v hv => canonical_enqueueWin hv (by simpa using hv) c _) hu c

theorem canonical_execPull (h : Canonical s.mem) (hdr : Hdr) (ack : Bool) (g : EGuard) (d a : Operand) :
    Result.Canonical (execPull hdr ack g d a s) := by
  refine canonical_laneOnce (fun c u hu => ?_) h
  exact canonical_issueBody (fun c v hv => canonical_enqueueWin hv (by simpa using hv) c _) hu c

theorem canonical_execTcopy (h : Canonical s.mem) (hdr : Hdr) (sto kvm : Bool) (g : EGuard) (d a b : Operand) :
    Result.Canonical (execTcopy hdr sto kvm g d a b s) := by
  refine canonical_laneOnce (fun c u hu => ?_) h
  refine canonical_issueBody (fun c v hv => ?_) hu c
  refine TRes.canonical_cond hv ?_
  split
  · trivial
  · exact TRes.canonical_cond hv (by simpa using hv)

theorem canonical_execKick (h : Canonical s.mem) (hdr : Hdr) (a b : Operand) : Result.Canonical (execKick hdr a b s) := by
  refine canonical_laneEarly (fun c u hu => ?_) h
  exact TRes.canonical_cond trivial (by simpa using hu)

theorem canonical_execKwait (h : Canonical s.mem) (hdr : Hdr) (tag : Bool) (d a : Operand) : Result.Canonical (execKwait hdr tag d a s) := by
  refine canonical_laneOnce (fun c u hu => ?_) h
  dsimp only
  split
  · exact canonical_onceWrite (fun v hv => by simpa using hv) hu c
  split
  · exact hu
  · refine canonical_foldS (by simpa using hu) _ (fun v p hv => ?_)
    split <;> simp [hv]

theorem canonical_releaseAll (h : Canonical s.mem) {f : State → State} (hf : ∀ v, (f v).mem = v.mem) (wk : Nat) (mask : Word) (act : Act) :
    Canonical (s.releaseAll wk mask act f).mem := (congrArg Canonical (State.releaseAll_mem hf s wk mask act)).mpr h

theorem canonical_execAck (h : Canonical s.mem) (hdr : Hdr) (a : Operand) : Result.Canonical (execAck hdr a s) := by
  refine canonical_laneOnce (fun c u hu => ?_) h
  exact canonical_releaseAll hu (fun v => by simp) ..

theorem canonical_execEret (h : Canonical s.mem) (hdr : Hdr) (a b : Operand) : Result.Canonical (execEret hdr a b s) := by
  refine canonical_laneOnce (fun c u hu => ?_) h
  exact canonical_releaseAll hu (fun v => by simp) ..

theorem canonical_execSysc (h : Canonical s.mem) (hdr : Hdr) (d a b : Operand) : Result.Canonical (execSysc hdr d a b s) := by
  refine canonical_laneOnce (fun c u hu => ?_) h
  split
  · exact hu
  · exact TRes.canonical_cond hu (canonical_releaseAll (by simpa using hu) (fun v => by simp) ..)

theorem canonical_execTlrd (h : Canonical s.mem) (hdr : Hdr) (k : Tctx) (d a : Operand) : Result.Canonical (execTlrd hdr k d a s) := by
  refine canonical_laneEarly (fun c u hu => ?_) h
  exact canonical_withEarly (fun c v hv => by simpa using hv) hu _ c

theorem canonical_execTltag (h : Canonical s.mem) (hdr : Hdr) (k : Tctx) (d a : Operand) : Result.Canonical (execTltag hdr k d a s) := by
  refine canonical_laneEarly (fun c u hu => ?_) h
  exact canonical_withEarly (fun c v hv => by simpa using hv) hu _ c

theorem canonical_execTlwait (h : Canonical s.mem) (hdr : Hdr) (k : Tctx) (scope : Scope) (a b : Operand) :
    Result.Canonical (execTlwait hdr k scope a b s) := by
  refine canonical_laneEarly (fun c u hu => ?_) h
  refine canonical_withEarly (fun c v hv => ?_) hu _ c
  exact TRes.canonical_cond hv (by simpa using hv)

theorem canonical_execBar (h : Canonical s.mem) (hdr : Hdr) (cnt : Bool) (a b : Operand) : Result.Canonical (execBar hdr cnt a b s) := by
  refine canonical_laneEarly (fun c u hu => ?_) h
  exact canonical_withEarly (fun c v hv => by simpa using hv) hu _ c

theorem canonical_execGbar (h : Canonical s.mem) (hdr : Hdr) (a : Operand) : Result.Canonical (execGbar hdr a s) := by
  refine canonical_laneEach (fun c u hu => ?_) h
  exact TRes.canonical_cond hu (by simpa using hu)

theorem canonical_execAbinit (h : Canonical s.mem) (hdr : Hdr) (d a : Operand) : Result.Canonical (execAbinit hdr d a s) := by
  refine canonical_laneEarly (fun c u hu => ?_) h
  exact canonical_withEarly (fun c v hv => canonical_objBody (fun c w hw => by simpa using hw) hv _ _ c) hu _ c

theorem canonical_execAbexp (h : Canonical s.mem) (hdr : Hdr) (d a : Operand) : Result.Canonical (execAbexp hdr d a s) := by
  refine canonical_laneEarly (fun c u hu => ?_) h
  exact canonical_withEarly (fun c v hv => canonical_objBody (fun c w hw => by simpa using hw) hv _ _ c) hu _ c

theorem canonical_execAbarv (h : Canonical s.mem) (hdr : Hdr) (d a : Operand) : Result.Canonical (execAbarv hdr d a s) := by
  refine canonical_laneEach (fun c u hu => ?_) h
  refine canonical_objBody (fun c v hv => TRes.canonical_cond ?_ (by simpa using hv)) hu _ _ c
  split
  · exact hv
  · next e => simpa [accRange_mem e] using hv

theorem canonical_execAbwait (h : Canonical s.mem) (hdr : Hdr) (a b : Operand) : Result.Canonical (execAbwait hdr a b s) := by
  refine canonical_laneEach (fun c u hu => ?_) h
  refine canonical_objBody (fun c v hv => ?_) hu _ _ c
  exact TRes.canonical_cond hv (by simpa using hv)

theorem canonical_execBra (h : Canonical s.mem) (hdr : Hdr) (cnt : Bool) (d : Operand) (off : BitVec 34) :
    Result.Canonical (execBra hdr cnt d off s) := by
  refine canonical_laneEach (fun c u hu => ?_) h
  exact TRes.canonical_cond (by simpa using hu) (by simpa using hu)

theorem canonical_execRet (h : Canonical s.mem) (hdr : Hdr) : Result.Canonical (execRet hdr s) := by
  refine canonical_laneEach (fun c u hu => ?_) h
  exact canonical_stkBody (canonical_stackPop hu ..) (fun v ws hv => by split <;> simpa using hv) c

theorem canonical_execWqpost (h : Canonical s.mem) (hdr : Hdr) (a b : Operand) : Result.Canonical (execWqpost hdr a b s) := by
  refine canonical_laneOnceEarly (fun c u hu => ?_) h
  refine canonical_withEarly (fun c v hv => canonical_issueBody (fun c w hw => ?_) hv c) hu _ c
  exact TRes.canonical_cond hw (by simpa using hw)

theorem canonical_execTarm (h : Canonical s.mem) (hdr : Hdr) (time : Bool) (cidx : BitVec 8) (a b : Operand) :
    Result.Canonical (execTarm hdr time cidx a b s) := by
  refine canonical_laneOnceEarly (fun c u hu => ?_) h
  refine canonical_withEarly (fun c v hv => ?_) hu _ c
  refine TRes.canonical_cond trivial (canonical_issueBody (fun c w hw => ?_) hv c)
  exact TRes.canonical_cond hw (by simpa using hw)

theorem canonical_execCntadd (h : Canonical s.mem) (hdr : Hdr) (aft set : Bool) (d a b : Operand) :
    Result.Canonical (execCntadd hdr aft set d a b s) := by
  refine canonical_laneOnceEarly (fun c u hu => ?_) h
  refine canonical_withEarly (fun c v hv => canonical_issueBody (fun c w hw => ?_) hv c) hu _ c
  refine TRes.canonical_cond (TRes.canonical_cond hw ?_) (TRes.canonical_cond hw ?_)
  · simpa using hw
  · exact canonical_onceWrite (fun x hx => by simpa using hx) hw c

theorem canonical_execSched (h : Canonical s.mem) (hdr : Hdr) (a : Operand) : Result.Canonical (execSched hdr a s) := by
  refine canonical_laneOnceEarly (fun c u hu => ?_) h
  refine canonical_withEarly (fun c v hv => canonical_issueBody (fun c w hw => ?_) hv c) hu _ c
  exact TRes.canonical_cond hw (by simpa using hw)

theorem foldl_bind_none {α : Type} (f : α → State → Option State) (l : List α) : l.foldl (fun o p => o.bind (f p)) none = none := by
  induction l with
  | nil => rfl
  | cons p l ih => exact ih

/-- Partial steps one after the other. -/
theorem canonical_foldl_bind {α : Type} {f : α → State → Option State} {l : List α} (hf : ∀ p u v, Canonical u.mem → f p u = some v → Canonical v.mem)
    (h : Canonical s.mem) (e : l.foldl (fun o p => o.bind (f p)) (some s) = some u) : Canonical u.mem := by
  induction l generalizing s with
  | nil =>
    cases e
    exact h
  | cons p l ih =>
    rw [List.foldl_cons, Option.bind_some] at e
    cases hp : f p s with
    | none =>
      rw [hp, foldl_bind_none] at e
      cases e
    | some v =>
      rw [hp] at e
      exact ih (hf p s v h hp) e

theorem canonical_execWinqPop (h : Canonical s.mem) (hdr : Hdr) (d : Operand) : Result.Canonical (execWinqPop hdr d s) := by
  refine canonical_laneOnce (fun c u hu => ?_) h
  dsimp only
  split
  · exact hu
  split
  · exact hu
  · next e =>
    have hacc := canonical_foldl_bind (fun p v w hv e1 => (congrArg Canonical (accRange_mem e1)).mpr hv) (by simpa using hu) e
    refine canonical_foldS (by simpa using hacc) _ (fun v p hv => ?_)
    split <;> simp [hv]

theorem canonical_execCtxsv (h : Canonical s.mem) (hdr : Hdr) (a b : Operand) : Result.Canonical (execCtxsv hdr a b s) := by
  refine canonical_laneOnce (fun c u hu => ?_) h
  split
  · exact canonical_cond hu (by simpa using hu)
  · exact hu

theorem canonical_execCtxld (h : Canonical s.mem) (hdr : Hdr) (a b : Operand) : Result.Canonical (execCtxld hdr a b s) := by
  refine canonical_laneOnce (fun c u hu => ?_) h
  split
  · exact canonical_cond (by simpa using hu) hu
  · exact hu

theorem canonical_execLnkctlStat (h : Canonical s.mem) (hdr : Hdr) (d a b : Operand) : Result.Canonical (execLnkctlStat hdr d a b s) := by
  refine canonical_laneOnce (fun c u hu => ?_) h
  exact canonical_onceWrite (fun v hv => by split <;> simpa using hv) hu c

theorem canonical_execSstep (h : Canonical s.mem) (hdr : Hdr) (a : Operand) : Result.Canonical (execSstep hdr a s) := by
  refine canonical_laneOnce (fun c u hu => ?_) h
  split
  · simpa using hu
  · exact hu

theorem canonical_execP2v (h : Canonical s.mem) (hdr : Hdr) (ty : Ty) (d : Operand) : Result.Canonical (execP2v hdr ty d s) := by
  refine canonical_laneEach (fun c u hu => ?_) h
  exact TRes.canonical_cond hu (by simpa using hu)

theorem canonical_execFcvt (h : Canonical s.mem) (hdr : Hdr) (rnd : Rnd) (dirFrom : Bool) (slot : BitVec 3) (d a : Operand) :
    Result.Canonical (execFcvt hdr rnd dirFrom slot d a s) := by
  refine canonical_laneEach (fun c u hu => ?_) h
  exact TRes.canonical_cond trivial (canonical_fpOut hu c _)

theorem canonical_execTsld (h : Canonical s.mem) (hdr : Hdr) (g : EGuard) (d a b : Operand) : Result.Canonical (execTsld hdr g d a b s) := by
  refine canonical_laneOnce (fun c u hu => canonical_issueBody (fun c v hv => ?_) hu c) h
  exact TRes.canonical_cond hv (by simpa using hv)

theorem canonical_execTsev (h : Canonical s.mem) (hdr : Hdr) (g : EGuard) (d : Operand) : Result.Canonical (execTsev hdr g d s) := by
  refine canonical_laneOnce (fun c u hu => canonical_issueBody (fun c v hv => ?_) hu c) h
  exact TRes.canonical_cond hv (by simpa using hv)

theorem canonical_execSleep (h : Canonical s.mem) (hdr : Hdr) (a : Operand) : Result.Canonical (execSleep hdr a s) := by
  refine canonical_laneEach (fun c u hu => ?_) h
  exact TRes.canonical_cond hu (by simpa using hu)

theorem canonical_execTret (h : Canonical s.mem) (hdr : Hdr) : Result.Canonical (execTret hdr s) := by
  refine canonical_laneEach (fun c u hu => ?_) h
  exact TRes.canonical_cond (by simpa using hu) trivial

theorem canonical_execFbrd (h : Canonical s.mem) (hdr : Hdr) (d a : Operand) : Result.Canonical (execFbrd hdr d a s) :=
  canonical_laneOnce (fun c _ hu => canonical_onceWrite (fun _ hv => hv) hu c) h

theorem canonical_execWinqPush (h : Canonical s.mem) (hdr : Hdr) (a : Operand) : Result.Canonical (execWinqPush hdr a s) := by
  refine canonical_laneOnce (fun c u hu => ?_) h
  exact TRes.canonical_cond hu (by simpa using hu)

theorem canonical_execTrcmk (h : Canonical s.mem) (hdr : Hdr) (a : Operand) : Result.Canonical (execTrcmk hdr a s) := by
  refine canonical_laneOnce (fun c u hu => ?_) h
  exact TRes.canonical_cond (by simpa using hu) hu

end Sys2Proof.Machine
end

section
/-! SUPPORT. The canonical form under every instruction and step. -/

namespace Sys2Proof.Machine

variable {s u : State}

/-! ### Steps that branch -/

theorem canonical_execFlorealEnd (h : Canonical s.mem) : Result.Canonical (execFlorealEnd s) := by
  unfold execFlorealEnd
  repeat' split
  all_goals simp [h]

theorem canonical_execRunStart (h : Canonical s.mem) (core lane : Nat) : Result.Canonical (execRunStart core lane s) := by
  unfold execRunStart
  dsimp only
  repeat' split
  all_goals simp [h]

theorem canonical_execTrapDeliver (h : Canonical s.mem) (wk : Nat) : Result.Canonical (execTrapDeliver wk s) := by
  unfold execTrapDeliver
  split <;> simp [h]

theorem canonical_execJointRoundClose (h : Canonical s.mem) (bk k : Nat) : Result.Canonical (execJointRoundClose bk k s) := by
  unfold execJointRoundClose
  repeat' split
  all_goals simp [h]

theorem canonical_execSleepExpiry (h : Canonical s.mem) (wk t : Nat) : Result.Canonical (execSleepExpiry wk t s) := by
  unfold execSleepExpiry
  repeat' split
  all_goals simp [h]

theorem canonical_execRconvTimeout (h : Canonical s.mem) (wk t : Nat) : Result.Canonical (execRconvTimeout wk t s) := by
  unfold execRconvTimeout
  repeat' split
  all_goals simp [h]

theorem canonical_execEngineMemResponse (h : Canonical s.mem) (cid : Nat) (ecc : Ecc) : Result.Canonical (execEngineMemResponse cid ecc s) := by
  unfold execEngineMemResponse
  repeat' split
  all_goals simp [h]

theorem canonical_execEngineLanding (h : Canonical s.mem) (cid : Nat) : Result.Canonical (execEngineLanding cid s) := by
  unfold execEngineLanding
  repeat' split
  all_goals simp [h]

theorem canonical_execCopyCmdRetire (h : Canonical s.mem) (cid : Nat) : Result.Canonical (execCopyCmdRetire cid s) := by
  unfold execCopyCmdRetire
  repeat' split
  all_goals simp [h]

theorem canonical_execCntaddAftApply (h : Canonical s.mem) (wk : Nat) : Result.Canonical (execCntaddAftApply wk s) := by
  unfold execCntaddAftApply
  dsimp only
  repeat' split
  all_goals simp [h]

theorem canonical_execArraySrcConsumed (h : Canonical s.mem) (cid : Nat) : Result.Canonical (execArraySrcConsumed cid s) := by
  unfold execArraySrcConsumed
  repeat' split
  all_goals simp [h]

theorem canonical_execArrayCmdEnd (h : Canonical s.mem) (cid : Nat) : Result.Canonical (execArrayCmdEnd cid s) := by
  unfold execArrayCmdEnd
  repeat' split
  all_goals simp [h]

theorem canonical_execArrayCmdRetire (h : Canonical s.mem) (cid : Nat) : Result.Canonical (execArrayCmdRetire cid s) := by
  unfold execArrayCmdRetire
  repeat' split
  all_goals simp [h]

theorem canonical_execKickNoticeArrive (h : Canonical s.mem) (core : Nat) : Result.Canonical (execKickNoticeArrive core s) := by
  unfold execKickNoticeArrive
  dsimp only
  repeat' split
  all_goals simp [h]

theorem canonical_execAckArrive (h : Canonical s.mem) (wk : Nat) : Result.Canonical (execAckArrive wk s) := by
  unfold execAckArrive
  split <;> simp [h]

theorem canonical_execScrubVisit (h : Canonical s.mem) (target : ScrubTarget) (ecc : Ecc) : Result.Canonical (execScrubVisit target ecc s) := by
  have hreg : ∀ (core : Nat) {f : State → State}, (∀ v, (f v).mem = v.mem) → Canonical (s.scrubReg core ecc f).mem :=
    fun core _ hf => (congrArg Canonical (State.scrubReg_mem s core ecc _ hf)).mpr h
  cases target with
  | memory pa =>
    simp only [execScrubVisit]
    repeat' split
    all_goals simpa using h
  | vgran wk t g => exact hreg _ fun v => by simp
  | sgran wk g => exact hreg _ fun v => by simp
  | tileGran bk g => exact hreg _ fun v => by simp
  | slotGran bk g => exact hreg _ fun v => by simp
  | stkGran wk g => exact hreg _ fun v => by simp
  | other core => exact hreg _ fun v => rfl
  | stage sid b c => exact canonical_cond h (by simpa using h)

theorem canonical_execTldrainComplete (h : Canonical s.mem) (die slot : Nat) : Result.Canonical (execTldrainComplete die slot s) := by
  unfold execTldrainComplete
  dsimp only
  repeat' split
  all_goals simp [h]

theorem canonical_execWinqPopComplete (h : Canonical s.mem) (die slot : Nat) : Result.Canonical (execWinqPopComplete die slot s) := by
  unfold execWinqPopComplete
  dsimp only
  split
  · split
    · exact h
    · refine canonical_foldS (by simpa using h) _ (fun v t hv => ?_)
      split
      · exact canonical_cond (by simpa using hv) hv
      · exact hv
  · exact h

theorem canonical_execCtxsvComplete (h : Canonical s.mem) (die slot : Nat) : Result.Canonical (execCtxsvComplete die slot s) := by
  unfold execCtxsvComplete
  dsimp only
  repeat' split
  all_goals simp [h]

theorem canonical_execCtxldComplete (h : Canonical s.mem) (die slot : Nat) : Result.Canonical (execCtxldComplete die slot s) := by
  unfold execCtxldComplete
  dsimp only
  repeat' split
  all_goals simp [h]

theorem canonical_execWarpStop (h : Canonical s.mem) (wk : Nat) : Result.Canonical (execWarpStop wk s) := by
  unfold execWarpStop
  split <;> simp [h]

theorem canonical_execTraceCounterLimit (h : Canonical s.mem) (die : Nat) : Result.Canonical (execTraceCounterLimit die s) := by
  unfold execTraceCounterLimit
  split <;> simp [h]

theorem canonical_execQuantumExpiry (h : Canonical s.mem) (core : Nat) : Result.Canonical (execQuantumExpiry core s) := by
  unfold execQuantumExpiry
  repeat' split
  all_goals simp [h]

theorem canonical_execBlockAssign (h : Canonical s.mem) (lid : Nat) : Result.Canonical (execBlockAssign lid s) := by
  unfold execBlockAssign
  dsimp only
  split
  · exact h
  split
  · exact h
  split
  · exact h
  · simp [State.assignTo, h]

theorem canonical_execBlockRetire (h : Canonical s.mem) (core btag : Nat) : Result.Canonical (execBlockRetire core btag s) := by
  unfold execBlockRetire
  dsimp only
  repeat' split
  all_goals simp [h]

theorem canonical_execDispatchTakeCommand (h : Canonical s.mem) : Result.Canonical (execDispatchTakeCommand s) := by
  unfold execDispatchTakeCommand
  dsimp only
  repeat' split
  all_goals simp [h]

theorem canonical_execLaunchComplete (h : Canonical s.mem) (lid : Nat) : Result.Canonical (execLaunchComplete lid s) := by
  unfold execLaunchComplete
  dsimp only
  repeat' split
  all_goals simp [h]

theorem canonical_execSchedStart (h : Canonical s.mem) (sid : Nat) : Result.Canonical (execSchedStart sid s) := by
  unfold execSchedStart
  dsimp only
  split
  · split
    · exact canonical_schedLoad h ..
    · exact h
  · exact canonical_schedLoad (by simpa using h) ..
  · exact h

theorem canonical_execFlorealWaitTimeExpiry (h : Canonical s.mem) (sid : Nat) : Result.Canonical (execFlorealWaitTimeExpiry sid s) := by
  unfold execFlorealWaitTimeExpiry
  split
  · exact h
  split
  · exact canonical_wordStep (by exact h) (fun _ r => canonical_wordWait (by exact h) ..)
  · exact h

theorem canonical_execFlorealStepTimeout (h : Canonical s.mem) (sid : Nat) : Result.Canonical (execFlorealStepTimeout sid s) := by
  unfold execFlorealStepTimeout
  repeat' split
  all_goals simp [h]

theorem canonical_execLinkPauseComplete (h : Canonical s.mem) (die slot : Nat) : Result.Canonical (execLinkPauseComplete die slot s) := by
  unfold execLinkPauseComplete
  dsimp only
  repeat' split
  all_goals simp [h]

theorem canonical_execLinkRemapComplete (h : Canonical s.mem) (die slot : Nat) : Result.Canonical (execLinkRemapComplete die slot s) := by
  unfold execLinkRemapComplete
  dsimp only
  repeat' split
  all_goals simp [h]

theorem canonical_execRemoteWriteArrive (h : Canonical s.mem) (port : Nat) (rva : DWord) (rop : Option Rop) (data : List Byte) (rc : Option (BitVec 8)) :
    Result.Canonical (execRemoteWriteArrive port rva rop data rc s) := by
  unfold execRemoteWriteArrive
  split <;> simp [h]

theorem canonical_execSchedSignalArrive (h : Canonical s.mem) (port : Nat) (idx : BitVec 8) (addend : Word) :
    Result.Canonical (execSchedSignalArrive port idx addend s) := by
  unfold execSchedSignalArrive
  split <;> simp [h]

theorem canonical_execEntryComplete (h : Canonical s.mem) (port idx : Nat) (err : BitVec 8) :
    Result.Canonical (execEntryComplete port idx err s) := by
  unfold execEntryComplete
  dsimp only
  repeat' split
  all_goals simp [h]

theorem canonical_execChunkArrive (h : Canonical s.mem) (port sid : Nat) (fmt : BitVec 2) (data : List Byte) :
    Result.Canonical (execChunkArrive port sid fmt data s) := by
  unfold execChunkArrive
  split <;> simp [h]

theorem canonical_execFabricTimeExchange (h : Canonical s.mem) (port : Nat) (peerTime : DWord) :
    Result.Canonical (execFabricTimeExchange port peerTime s) := by
  unfold execFabricTimeExchange
  split <;> simp [h]

theorem canonical_execLinkTrainComplete (h : Canonical s.mem) (die slot : Nat) (badLanes : Nat) (peerDev : BitVec 8) (peerPort : BitVec 4) (peerTime : DWord) :
    Result.Canonical (execLinkTrainComplete die slot badLanes peerDev peerPort peerTime s) := by
  unfold execLinkTrainComplete
  dsimp only
  repeat' split
  all_goals simp [h]

theorem canonical_execFabricFlitCrcError (h : Canonical s.mem) (port : Nat) (retryOk : Bool) :
    Result.Canonical (execFabricFlitCrcError port retryOk s) := by
  unfold execFabricFlitCrcError
  repeat' split
  all_goals simp [h]

theorem canonical_execUcieFlitCrcError (h : Canonical s.mem) (module : Nat) (fate : FlitFate) :
    Result.Canonical (execUcieFlitCrcError module fate s) := by
  unfold execUcieFlitCrcError
  dsimp only
  repeat' split
  all_goals simp [h]

theorem canonical_execNocFlitCrcError (h : Canonical s.mem) (retryOk downward : Bool) (hop : Nat) :
    Result.Canonical (execNocFlitCrcError retryOk downward hop s) := by
  unfold execNocFlitCrcError
  repeat' split
  all_goals simp [h]

theorem canonical_execSwitchParityError (h : Canonical s.mem) (control : Bool) (packet : Packet) :
    Result.Canonical (execSwitchParityError control packet s) := by
  unfold execSwitchParityError
  repeat' split
  all_goals simp [h]

theorem canonical_execThermidorTick (h : Canonical s.mem) (pwr ptemp : Nat) : Result.Canonical (execThermidorTick pwr ptemp s) := by
  unfold execThermidorTick
  dsimp only
  repeat' split
  all_goals simp [h]

theorem canonical_execThermalEmergency (h : Canonical s.mem) (ptemp : Nat) (alarm : Bool) :
    Result.Canonical (execThermalEmergency ptemp alarm s) := by
  unfold execThermalEmergency
  split <;> simp [h]

theorem canonical_execThermalTrip (h : Canonical s.mem) (ptemp : Nat) : Result.Canonical (execThermalTrip ptemp s) := by
  unfold execThermalTrip
  split <;> simp [h]

theorem canonical_execPowerOnBoot (h : Canonical s.mem) (image : Option Firmware) : Result.Canonical (execPowerOnBoot image s) := by
  unfold execPowerOnBoot
  repeat' split
  all_goals simp [h]

theorem canonical_execRecoveryStart (h : Canonical s.mem) (image : Firmware) : Result.Canonical (execRecoveryStart image s) := by
  unfold execRecoveryStart
  repeat' split
  all_goals simp [h]

theorem canonical_execFabricLinkDown (h : Canonical s.mem) (port : Nat) : Result.Canonical (execFabricLinkDown port s) := by
  unfold execFabricLinkDown
  split <;> simp [h]

/-! ### Every instruction -/

theorem canonical_next (h : Canonical s.mem) (e : u.mem = s.mem) : Result.Canonical (.next u) := (congrArg Canonical e).mpr h

/-- The instructions a lane executes. -/
theorem canonical_exec_of_hdr {i : Instr} {hdr : Hdr} (h : Canonical s.mem) (e : i.hdr = some hdr) : Result.Canonical (exec i s) := by
  cases i with
  | iadd | isub | iadc | imul | imulh | imad | imadw | idiv | irem | imin | imax | iabs | ineg | lea | idot4 | isad | land | lor | lxor | andn |
  lnot | lop3 | shl | shr | sar | rol | fshl | bfe | bfi | popc | clz | ctz | brev | prmt | movi | iset | fclass =>
    exact canonical_laneEach (fun c _ hu => canonical_valBody hu _ c) h
  | mov => exact canonical_execMov h ..
  | mov64 | testf | isetp | sel | psetp | v2p | fsetp | hsetp2 | f2i | fence | brx | exit | trap =>
    exact canonical_laneEach (fun _ _ hu => by simpa using hu) h
  | movx => exact canonical_execMovx h ..
  | stx => exact canonical_execStx h ..
  | shfl | bcast => exact canonical_laneAll (fun cs _ hu => canonical_gather hu _ _ cs) h
  | vote => exact canonical_execVote h ..
  | redux => exact canonical_execRedux h ..
  | expw => exact canonical_execExpw h ..
  | revw => exact canonical_execRevw h ..
  | bindw => exact canonical_execBindw h ..
  | setf | clrf => exact canonical_laneEach (fun c _ hu => canonical_setfBody hu _ c) h
  | frame => exact canonical_execFrame h ..
  | unframe => exact canonical_execUnframe h ..
  | p2v => exact canonical_execP2v h ..
  | fadd | fsub | fmul | ffma | fmin | fmax | fminm | fmaxm | frnd | ffrc | fscale | fgetexp | fdiv | fsqrt | frcp | frsq | fexp2 | flog2 | fsinpi |
  fcospi | ftanh | hadd2 | hmul2 | hfma2 | hmin2 | hmax2 | i2f =>
    exact canonical_laneEach (fun c _ hu => canonical_fpOut hu c _) h
  | fcvt => exact canonical_execFcvt h ..
  | fpack => exact canonical_execFpack h ..
  | funpack => exact canonical_execFunpack h ..
  | qblk => exact canonical_execQblk h ..
  | ld => exact canonical_execLd h ..
  | st | lda | stl | atom | red => exact canonical_laneEach (fun c _ hu => canonical_memBody hu _ _ c) h
  | cpy => exact canonical_laneAll (fun cs _ hu => canonical_cpyIssue hu _ cs) h
  | cpym => exact canonical_execCpym h ..
  | tcopy => exact canonical_execTcopy h ..
  | tsld => exact canonical_execTsld h ..
  | tsev => exact canonical_execTsev h ..
  | kick => exact canonical_execKick h ..
  | kwait => exact canonical_execKwait h ..
  | pull => exact canonical_execPull h ..
  | ack => exact canonical_execAck h ..
  | tlrd => exact canonical_execTlrd h ..
  | tltag => exact canonical_execTltag h ..
  | tlwait => exact canonical_execTlwait h ..
  | bar => exact canonical_execBar h ..
  | gbar => exact canonical_execGbar h ..
  | abinit => exact canonical_execAbinit h ..
  | abexp => exact canonical_execAbexp h ..
  | abarv => exact canonical_execAbarv h ..
  | abwait => exact canonical_execAbwait h ..
  | kdecl | gres | gclr | yield | nop | setpat | mtsr | halt | tlbfls | tldrain | fbpop | replay | bkpt =>
    exact canonical_laneOnce (fun _ _ hu => by simpa using hu) h
  | sign | rconv => exact canonical_laneEach (fun c _ hu => canonical_signBody hu _ _ _ _ c) h
  | sleep => exact canonical_execSleep h ..
  | bra => exact canonical_execBra h ..
  | call | callx => exact canonical_laneEach (fun c _ hu => canonical_callBody hu _ c) h
  | ret => exact canonical_execRet h ..
  | tret => exact canonical_execTret h ..
  | sysc => exact canonical_execSysc h ..
  | mma | att | attfin | ladinit | ladpush | ladread | ladld => exact canonical_laneEach (fun c _ hu => canonical_jointBody hu _ _ _ c) h
  | wld => exact canonical_laneOnceEarly (fun c _ hu => canonical_onceArr hu _ _ c) h
  | aclr | ald | asto => exact canonical_laneOnce (fun c _ hu => canonical_onceArr hu _ _ c) h
  | wqpost => exact canonical_execWqpost h ..
  | tarm => exact canonical_execTarm h ..
  | cntadd => exact canonical_execCntadd h ..
  | sched => exact canonical_execSched h ..
  | mfsr | cntrd => exact canonical_laneOnce (fun c _ hu => canonical_onceWrite (fun _ hv => by simp [hv]) hu c) h
  | eret => exact canonical_execEret h ..
  | fbrd => exact canonical_execFbrd h ..
  | winqPush => exact canonical_execWinqPush h ..
  | winqPop => exact canonical_execWinqPop h ..
  | ctxsv => exact canonical_execCtxsv h ..
  | ctxld => exact canonical_execCtxld h ..
  | lnkctlStat => exact canonical_execLnkctlStat h ..
  | lnkctlPause | lnkctlResume | lnkctlRemap | lnkctlTrain | lnkctlHalf =>
    exact canonical_laneOnce (fun c _ hu => canonical_linkBody (fun _ _ _ hv => by simp [hv]) hu c) h
  | sstep => exact canonical_execSstep h ..
  | trcmk => exact canonical_execTrcmk h ..
  | _ => cases e

/-- The words of a schedule, and every step of the rest of the system. -/
theorem canonical_exec_of_no_hdr {i : Instr} (h : Canonical s.mem) (e : i.hdr = none) : Result.Canonical (exec i s) := by
  cases i with
  | florealNop => exact canonical_wordStep h (fun _ r => canonical_wordNop h r)
  | florealSend => exact canonical_wordStep h (fun sid r => canonical_wordSend h _ _ _ sid r)
  | florealRecv => exact canonical_wordStep h (fun sid r => canonical_wordRecv h _ _ _ sid r)
  | florealRed => exact canonical_wordStep h (fun sid r => canonical_wordRed h _ _ _ _ _ sid r)
  | florealCopy => exact canonical_wordStep h (fun _ r => canonical_wordCopy h _ _ _ _ r)
  | florealWait => exact canonical_wordStep h (fun _ r => canonical_wordWait h _ _ _ _ r)
  | florealSignal => exact canonical_wordStep h (fun _ r => canonical_wordSignal h _ _ _ _ r)
  | florealLoop => exact canonical_wordStep h (fun _ r => canonical_wordLoop h _ _ r)
  | florealEnd => exact canonical_execFlorealEnd h ..
  | runStart => exact canonical_execRunStart h ..
  | trapDeliver => exact canonical_execTrapDeliver h ..
  | jointRoundClose => exact canonical_execJointRoundClose h ..
  | releaseTakesEffect => exact canonical_relTake h ..
  | sleepExpiry => exact canonical_execSleepExpiry h ..
  | rconvTimeout => exact canonical_execRconvTimeout h ..
  | revwComplete | guardDiscard | arrayCmdStart | loadDataLand | faultPresent | sideLogEnter | mnqOvfRetry | qcntAdvance | mboxDeviceEntry |
  timeTriggerFire | sysreqRead | mnqRead | mboxRead | chdataWrite | mclrWrite | quantumWrite | fpownWrite | dbgdatWrite | dbgStop | dbgRun |
  dbgStopBlock | dbgRunBlock | dbgStopnow | registerWrite | doorbellWrite | coolantFlowLost | hostMboxWrite | mboxOvrClear | deviceReset |
  spdmGetMeasurements | coolantFlowReturn | farEndBufferSpace | dispatcherTableError =>
    exact canonical_next h (by simp)
  | copyCmdAccept => exact canonical_acceptCopy h ..
  | engineMemResponse => exact canonical_execEngineMemResponse h ..
  | engineLanding => exact canonical_execEngineLanding h ..
  | copyCmdRetire => exact canonical_execCopyCmdRetire h ..
  | stackSpillFill => exact canonical_spillFill h ..
  | cntaddAftApply => exact canonical_execCntaddAftApply h ..
  | arraySrcConsumed => exact canonical_execArraySrcConsumed h ..
  | arrayCmdEnd => exact canonical_execArrayCmdEnd h ..
  | arrayCmdRetire => exact canonical_execArrayCmdRetire h ..
  | multicastLanding => exact canonical_multiLand h ..
  | kickNoticeArrive => exact canonical_execKickNoticeArrive h ..
  | remoteReadServe => exact canonical_remoteServe h ..
  | ackArrive => exact canonical_execAckArrive h ..
  | walkComplete => exact canonical_walkDone h ..
  | sliceRequestServe => exact canonical_serveReq h ..
  | scrubVisit => exact canonical_execScrubVisit h ..
  | tldrainComplete => exact canonical_execTldrainComplete h ..
  | winqPopComplete => exact canonical_execWinqPopComplete h ..
  | ctxsvComplete => exact canonical_execCtxsvComplete h ..
  | ctxldComplete => exact canonical_execCtxldComplete h ..
  | warpStop => exact canonical_execWarpStop h ..
  | traceCounterLimit => exact canonical_execTraceCounterLimit h ..
  | quantumExpiry => exact canonical_execQuantumExpiry h ..
  | blockAssign => exact canonical_execBlockAssign h ..
  | blockRetire => exact canonical_execBlockRetire h ..
  | dispatchTakeCommand => exact canonical_execDispatchTakeCommand h ..
  | launchComplete => exact canonical_execLaunchComplete h ..
  | schedStart => exact canonical_execSchedStart h ..
  | florealWaitTimeExpiry => exact canonical_execFlorealWaitTimeExpiry h ..
  | florealStepTimeout => exact canonical_execFlorealStepTimeout h ..
  | linkPauseComplete => exact canonical_execLinkPauseComplete h ..
  | linkRemapComplete => exact canonical_execLinkRemapComplete h ..
  | remoteWriteArrive => exact canonical_execRemoteWriteArrive h ..
  | schedSignalArrive => exact canonical_execSchedSignalArrive h ..
  | entryComplete => exact canonical_execEntryComplete h ..
  | chunkArrive => exact canonical_execChunkArrive h ..
  | fabricTimeExchange => exact canonical_execFabricTimeExchange h ..
  | linkTrainComplete => exact canonical_execLinkTrainComplete h ..
  | fabricFlitCrcError => exact canonical_execFabricFlitCrcError h ..
  | ucieFlitCrcError => exact canonical_execUcieFlitCrcError h ..
  | nocFlitCrcError => exact canonical_execNocFlitCrcError h ..
  | switchParityError => exact canonical_execSwitchParityError h ..
  | thermidorTick => exact canonical_execThermidorTick h ..
  | thermalEmergency => exact canonical_execThermalEmergency h ..
  | thermalTrip => exact canonical_execThermalTrip h ..
  | hostMemRead | hostMemWrite => exact canonical_hostTake h ..
  | powerOnBoot => exact canonical_execPowerOnBoot h ..
  | recoveryStart => exact canonical_execRecoveryStart h ..
  | spdmGetVersion | spdmGetCapabilities | spdmNegotiateAlgorithms | spdmGetCertificate | spdmChallenge => exact canonical_next h rfl
  | fabricLinkDown => exact canonical_execFabricLinkDown h ..
  | _ => cases e

theorem canonical_exec (h : Canonical s.mem) (i : Instr) : Result.Canonical (exec i s) := by
  cases e : i.hdr with
  | none => exact canonical_exec_of_no_hdr h e
  | some hdr => exact canonical_exec_of_hdr h e

theorem canonical_step (h : Canonical s.mem) : Result.Canonical (step s) := by
  unfold step
  split
  · split
    · exact h
    · exact canonical_exec (by exact h) _
  split
  · trivial
  · have ht := canonical_turn1 h
    split
    · next e =>
      rw [e] at ht
      exact canonical_exec ht _
    · next e =>
      rw [e] at ht
      exact ht

/-- Settles O54: only a byte put, and a page cleared, change memory; both keep the form, and so do the instructions, turns and steps built of them. -/
theorem memoryFormKept : Obligations.MemoryFormKept := by
  intro s t hstep h
  exact canonical_iff.1 ((congrArg Result.Canonical hstep).mp (canonical_step (canonical_iff.2 h)))

end Sys2Proof.Machine
end

section
/-! SUPPORT. The channel hash of one page (R261): its 512 lines go to the 512 channels once each. -/

namespace Sys2Proof.Machine

variable (tab : List Word) (swz : Nat)

/-- An HBM4E line lies in the slice of its channel, and eight channels make a slice (R8). -/
theorem sliceOf_low {pa : Nat} (h : pa < 2 ^ 39) : sliceOf tab swz pa = some (channelOf tab swz pa / 8) := by
  have htier : tierOf pa = some 0 := if_pos h
  simp only [sliceOf, htier]

/-- Line l of a page of HBM4E lies below the end of HBM4E. -/
theorem pageLine_lt {page l : Nat} (hpage : page < 2 ^ 23) (hl : l < 512) : 65536 * page + 128 * l < 2 ^ 39 := by
  omega

/-- The channel of line l of a page. -/
def pageChannel (page : Nat) (l : Fin 512) : Fin 512 := ⟨channelOf tab swz (65536 * page + 128 * l), channelOf_lt tab swz _⟩

/-- Two lines of a page on one channel would share a place, and no two addresses do. -/
theorem pageChannel_injective {page : Nat} (hpage : page < 2 ^ 23) : Function.Injective (pageChannel tab swz page) := by
  intro a b hab
  have hchan : channelOf tab swz (65536 * page + 128 * a) = channelOf tab swz (65536 * page + 128 * b) := congrArg Fin.val hab
  have hplace : placeOf tab swz (65536 * page + 128 * a) = placeOf tab swz (65536 * page + 128 * b) := by
    rw [placeOf_low tab swz (pageLine_lt hpage a.isLt), placeOf_low tab swz (pageLine_lt hpage b.isLt), hchan]
    omega
  have haddr := placeOf_injective tab swz hplace
  exact Fin.ext (by omega)

/-- R261: every channel takes one line of each page, since the hash sends the 512 lines of a page to 512 channels and no two to one. -/
theorem pageChannel_surjective {page : Nat} (hpage : page < 2 ^ 23) : Function.Surjective (pageChannel tab swz page) :=
  Finite.surjective_of_injective (pageChannel_injective tab swz hpage)

end Sys2Proof.Machine
end

section
namespace Sys2Proof.Machine

/-- Settles O55: the fields of a place give back the page, the channel and the byte offset, and within a page the channel gives back the line. -/
theorem hashPlacement : Obligations.HashPlacement := by
  refine ⟨?bits, ?fields, ?apart, ?reached⟩
  case bits =>
    intro tab swz pa j hpa hj
    exact channelOf_testBit tab swz hpa hj
  case fields =>
    intro tab swz pa hpa
    exact ⟨channelOf_lt tab swz pa, sliceOf_low tab swz hpa, placeOf_fields tab swz hpa⟩
  case apart =>
    intro tab swz a b h
    exact placeOf_injective tab swz h
  case reached =>
    intro tab swz page c hpage hc
    obtain ⟨l, hl⟩ := pageChannel_surjective tab swz hpage ⟨c, hc⟩
    exact ⟨l, l.isLt, congrArg Fin.val hl⟩

end Sys2Proof.Machine
end

section
/-! SUPPORT. Trigger counters (R286, R289): a change is a write of one counter of its port, and then a firing of each entry that it hits. -/

namespace Sys2Proof.Machine

/-- What a counter holds after a change: modulo 2^64 (R286). -/
def State.counterNew (s : State) (p idx : Nat) (set : Bool) (x : DWord) : DWord := if set then x else s.counterOf p idx + x

/-- The counter itself changed, with the wrap of an addition counted, before anything fires (R286, R387). -/
def State.counterPut (s : State) (p idx : Nat) (set : Bool) (x : DWord) : State :=
  s.modPort p (fun P => { P with ctr := Fmap.set 0 P.ctr idx (s.counterNew p idx set x),
                                 wraps := if !set && 2 ^ 64 ≤ (s.counterOf p idx).toNat + x.toNat then P.wraps + 1 else P.wraps })

/-- The entries of a port that a value of a counter fires (R289). -/
def State.counterHits (s : State) (p idx : Nat) (v : DWord) : List Nat :=
  ((s.port p).entry.filter (fun e => e.2.st == .armed && !e.2.time && e.2.cidx == idx && e.2.thresh.toNat ≤ v.toNat)).map Prod.fst

variable (s : State) (p idx : Nat) (set : Bool) (x : DWord)

theorem counterPut_entry : ((s.counterPut p idx set x).port p).entry = (s.port p).entry := by simp [State.counterPut]

theorem counterChange_eq : s.counterChange p idx set x =
    foldS (s.counterHits p idx (s.counterNew p idx set x)) (s.counterPut p idx set x) (fun s i => s.fire p i) := by
  rw [State.counterHits, ← counterPut_entry s p idx set x]
  rfl

theorem mem_counterHits {v : DWord} {i : Nat} : i ∈ s.counterHits p idx v ↔
    ∃ e, (i, e) ∈ (s.port p).entry ∧ e.st = .armed ∧ e.time = false ∧ e.cidx = idx ∧ e.thresh.toNat ≤ v.toNat := by
  simp [State.counterHits, and_assoc]

/-! ### The write -/

theorem counterPut_counterOf (p2 idx2 : Nat) : (s.counterPut p idx set x).counterOf p2 idx2 =
    if p = p2 ∧ idx = idx2 then s.counterNew p idx set x else s.counterOf p2 idx2 := by
  unfold State.counterOf State.counterPut
  rw [State.modPort_eq, State.setPort_port]
  by_cases hp : p = p2
  · subst hp
    simp [Fmap.get_set]
  · simp [hp]

theorem counterPut_wraps : ((s.counterPut p idx set x).port p).wraps =
    (s.port p).wraps + (if set = false ∧ 2 ^ 64 ≤ (s.counterOf p idx).toNat + x.toNat then 1 else 0) := by
  unfold State.counterPut
  rw [State.modPort_eq, State.setPort_port_self]
  simp only [Bool.and_eq_true, Bool.not_eq_true', decide_eq_true_eq]
  split
  · rfl
  · exact (BitVec.add_zero _).symm

theorem counterPut_ent (i : Nat) : (s.counterPut p idx set x).ent p i = s.ent p i := by
  rw [State.ent, counterPut_entry, State.ent]

/-! ### The firings -/

theorem fire_counterOf (i p2 idx2 : Nat) : (s.fire p i).counterOf p2 idx2 = s.counterOf p2 idx2 := by
  simp only [State.fire, State.setEnt, State.counterOf, State.modPort_eq, State.setPort_port]
  split
  · next hp => rw [hp]
  · rfl

theorem fire_wraps (i : Nat) : ((s.fire p i).port p).wraps = (s.port p).wraps := by simp [State.fire, State.setEnt]

theorem fire_ent_ne {i j : Nat} (h : i ≠ j) : (s.fire p i).ent p j = s.ent p j := by
  simp [State.fire, State.setEnt, State.ent, Fmap.get_set_ne _ _ _ h]

theorem fire_ent_self (i : Nat) : ((s.fire p i).ent p i).st = .active := by simp [State.fire, State.setEnt, State.ent]

/-- A firing of another entry leaves an active one active, and so does its own. -/
theorem fire_keeps_active {i j : Nat} (h : (s.ent p j).st = .active) : ((s.fire p i).ent p j).st = .active := by
  by_cases hij : i = j
  · rw [hij]
    exact fire_ent_self s p j
  · rw [fire_ent_ne s p hij]
    exact h

variable {s p}

theorem foldFire_ent_of_not_mem {i : Nat} {l : List Nat} (h : i ∉ l) : (foldS l s (fun s j => s.fire p j)).ent p i = s.ent p i :=
  foldS_keeps (fun s => s.ent p i) (fun s _ hj => fire_ent_ne s p (ne_of_mem_of_not_mem hj h)) s

theorem foldFire_keeps_active {i : Nat} (l : List Nat) (h : (s.ent p i).st = .active) :
    ((foldS l s (fun s j => s.fire p j)).ent p i).st = .active := by
  induction l generalizing s with
  | nil => exact h
  | cons j l ih => exact ih (fire_keeps_active s p h)

theorem foldFire_active {i : Nat} {l : List Nat} (h : i ∈ l) : ((foldS l s (fun s j => s.fire p j)).ent p i).st = .active := by
  induction l generalizing s with
  | nil => cases h
  | cons j l ih =>
    rcases List.mem_cons.1 h with rfl | h
    · exact foldFire_keeps_active l (fire_ent_self s p i)
    · exact ih h

variable (s p)

/-- The firings of a change leave every counter as the write left it. -/
theorem counterChange_counterOf (p2 idx2 : Nat) : (s.counterChange p idx set x).counterOf p2 idx2 =
    if p = p2 ∧ idx = idx2 then s.counterNew p idx set x else s.counterOf p2 idx2 := by
  rw [counterChange_eq, ← counterPut_counterOf s p idx set x p2 idx2]
  exact foldS_keeps (fun s => s.counterOf p2 idx2) (fun s i _ => fire_counterOf s p i p2 idx2) _

/-- Settles O43: the counters and the count of wraps are those of the write, the entries those of the firings. -/
theorem triggerCounters : Obligations.TriggerCounters := by
  intro s p idx set x new hits
  refine ⟨?value, ?apart, ?wraps, ?fired, ?kept⟩
  case value =>
    rw [counterChange_counterOf, if_pos ⟨rfl, rfl⟩]
    rfl
  case apart =>
    intro p2 idx2 hne
    rw [counterChange_counterOf]
    exact if_neg (fun ⟨hp, hidx⟩ => hne (by rw [hp, hidx]))
  case wraps =>
    rw [counterChange_eq, ← counterPut_wraps]
    exact foldS_keeps (fun s => (s.port p).wraps) (fun s i _ => fire_wraps s p i) _
  case fired =>
    intro i hi
    rw [counterChange_eq]
    exact foldFire_active ((mem_counterHits ..).2 hi)
  case kept =>
    intro i hi
    rw [counterChange_eq, ← counterPut_ent s p idx set x i]
    exact foldFire_ent_of_not_mem (fun h => by
      obtain ⟨e, he, hhit⟩ := (mem_counterHits ..).1 h
      exact hi e he hhit)

end Sys2Proof.Machine
end

section
/-! SUPPORT. Work entries, trigger counters and schedules as instructions use them (R286, R289, R292 to R294). -/

namespace Sys2Proof.Machine

/-- Settles O32: behind a sound reference and performed accesses, each body has one guard of its own left, which its premise decides. -/
theorem workInstructions : Obligations.WorkInstructions := by
  refine ⟨?wqpost, ?tarm, ?cntaddAft, ?cntadd, ?sched⟩
  case wqpost =>
    intro h a b
    refine laneOnceEarly_completes .int .int _ _ _ _ (fun _ => rfl) (fun c s hP => ?_)
    obtain ⟨href, hdue, hbusy⟩ := hP
    rw [withEarly_none href, issueBody_free hdue]
    exact if_neg (Bool.eq_false_iff.1 hbusy)
  case tarm =>
    intro h time cidx a b htime
    refine laneOnceEarly_completes .int .int _ _ _ _ (fun _ => rfl) (fun c s hP => ?_)
    obtain ⟨href, hdue, hbusy⟩ := hP
    have hlegal : (time && cidx != 0) = false := by
      cases time with
      | false => rfl
      | true => simp [htime rfl]
    rw [withEarly_none href, if_neg (Bool.eq_false_iff.1 hlegal), issueBody_free hdue]
    exact if_neg (Bool.eq_false_iff.1 hbusy)
  case cntaddAft =>
    intro h set d a b
    refine laneOnceEarly_completes .int .int _ _ _ _ (fun _ => rfl) (fun c s hP => ?_)
    obtain ⟨href, hdue, hroom⟩ := hP
    rw [withEarly_none href, issueBody_free hdue]
    exact if_neg (Nat.not_le.2 hroom)
  case cntadd =>
    intro h set d a b
    refine laneOnceEarly_completes .int .int _ _ _ _ (fun _ => rfl) (fun c s hP => ?_)
    obtain ⟨href, hdue, hmoves, hfirst, hready⟩ := hP
    have hlater : (s.counterMoves || s.aftList.any (fun q => q.1 ≤ coreOf c.wk)) = false := by
      rw [hmoves, Bool.false_or, List.any_eq_false]
      exact fun q hq => by simpa using hfirst q hq
    rw [withEarly_none href, issueBody_free hdue]
    refine (if_neg (Bool.eq_false_iff.1 hlater)).trans ?_
    exact onceWrite_done (fun s => (words2 (s.counterOf (refPort c.av.lo) (refSid c.av.lo)),
      s.counterChange (refPort c.av.lo) (refSid c.av.lo) set c.bv)) hready
  case sched =>
    intro h a w
    refine laneOnceEarly_completes .int .int _ _ _ _ (fun _ => rfl) (fun c s hP => ?_)
    obtain ⟨hclean, href, hdue, hroom⟩ := hP
    have hhead : c.a.headD (.s 0 0) = c.a.getD 0 (.s 0 0) := by
      cases c.a with
      | nil => rfl
      | cons l ls => rfl
    have hsound : ¬ s.readLoc (c.a.headD (.s 0 0)) &&& refMask ≠ 0 := not_not.2 (hhead ▸ href)
    rw [withEarly_none ((if_neg (Bool.eq_false_iff.1 hclean)).trans (if_neg hsound)), issueBody_free hdue]
    exact if_neg (Nat.not_le.2 hroom)

end Sys2Proof.Machine
end

section
/-! SUPPORT. What a fault record and an EXIT leave of the threads (R205, R350): a record changes none, and an EXIT, of another thread, no more
than its hold and whether it is live. -/

namespace Sys2Proof.Machine

namespace State

/-! ### Records -/

@[simp] theorem putByte_threads (s : State) (swz pa : Nat) (b : Byte) : (s.putByte swz pa b).threads = s.threads := rfl

@[simp] theorem writeBytes_threads (s : State) (swz pa : Nat) (l : List Byte) : (s.writeBytes swz pa l).threads = s.threads := by
  induction l generalizing s pa with
  | nil => rfl
  | cons b l ih => exact (ih (s.putByte swz pa b) (pa + 1)).trans (putByte_threads s swz pa b)

@[simp] theorem healAt_threads (s : State) (swz pa n : Nat) : (s.healAt swz pa n).threads = s.threads := by
  unfold State.healAt
  split
  · rfl
  · refine foldS_keeps State.threads (fun s a _ => ?_) s
    split
    · rfl
    · rfl

@[simp] theorem writeMem_threads (s : State) (swz pa : Nat) (l : List Byte) : (s.writeMem swz pa l).threads = s.threads :=
  (writeBytes_threads _ swz pa l).trans (healAt_threads s swz pa l.length)

@[simp] theorem countD_threads (s : State) (asid : BitVec 16) (va : DWord) (n : Nat) (write : Bool) : (s.countD asid va n write).threads = s.threads := by
  refine foldS_keeps State.threads (fun s p _ => ?_) s
  dsimp only
  split
  · rw [countLines_threads, countWalk_threads]
  · exact countWalk_threads s asid p.1

theorem writeD_threads {s u : State} {asid : BitVec 16} {va : DWord} {l : List Byte} (h : s.writeD asid va l = .ok u) : u.threads = s.threads := by
  unfold State.writeD at h
  dsimp only at h
  split at h
  · cases h
  · cases h
    refine (foldS_keeps State.threads (fun u p _ => ?_) _).trans (countD_threads s asid va l.length true)
    split
    · exact writeMem_threads ..
    · rfl

@[simp] theorem recordFor_threads (s : State) (lid bidx wk : Nat) (tmask : Word) (pc aux : DWord) (tlnum err ctx trapk src : Nat)
    (detail : BitVec 160) : (s.recordFor lid bidx wk tmask pc aux tlnum err ctx trapk src detail).threads = s.threads := by
  unfold State.recordFor
  dsimp only
  split
  · rfl
  · split
    · split
      · rfl
      · split
        · next hw => exact (writeD_threads hw).trans rfl
        · rfl
    · split
      · split
        · next hw => exact (writeD_threads hw).trans rfl
        · rfl
      · next hw =>
        have hfirst := (writeD_threads hw).trans (setLaunch_threads ..)
        split
        · next hw2 => exact (writeD_threads hw2).trans hfirst
        · exact hfirst

theorem record_thread (s : State) (wk : Nat) (tmask : Word) (pc aux : DWord) (tlnum err ctx trapk src : Nat) (detail : BitVec 160) (wk2 t2 : Nat) :
    (s.record wk tmask pc aux tlnum err ctx trapk src detail).thread wk2 t2 = s.thread wk2 t2 :=
  thread_congr (recordFor_threads ..) wk2 t2

end State

/-! ### EXIT -/

/-- What an EXIT makes of its own thread (R205). -/
def Thread.exited (r : Thread) : Thread :=
  { r with live := false, ftag := none, inHandler := false, trap := none, hold := .none, wait := 0, exitV := r.v, exitPois := r.vPois }

/-- A thread but for what holds it. -/
def Thread.unheld (r : Thread) : Thread := { r with hold := .none }

namespace State

theorem release_unheld (s : State) (wk t wk2 t2 : Nat) : ((s.release wk t).thread wk2 t2).unheld = (s.thread wk2 t2).unheld := by
  unfold release
  rw [modThread_eq, setThread_thread]
  split
  · next h =>
    unfold State.thread
    rw [h]
    rfl
  · rfl

/-- A barrier's phase that completes keeps all that a release and an update of a block keep (R194). -/
theorem barCheck_keeps {β : Type} (p : State → β) (hb : ∀ (s : State) (bk : Nat) (x : Block), p (s.setBlock bk x) = p s)
    (hp : ∀ (s : State) (wk t : Nat), p (s.release wk t) = p s) (s : State) (bk id : Nat) : p (s.barCheck bk id) = p s := by
  unfold barCheck
  dsimp only
  rw [apply_ite p]
  refine ite_eq_right_iff.2 (fun _ => ?_)
  exact (foldS_keeps p (fun s (q : Nat × Nat) _ => hp s q.1 q.2) _).trans (hb ..)

theorem exitFills_threads (s s0 : State) (bk : Nat) : (s.exitFills s0 bk).threads = s.threads := by
  refine foldS_keeps State.threads (fun s k _ => ?_) s
  split
  · rfl
  · rfl

/-- A retirement stops at most the access slice of its warp (R205, R282). -/
theorem retireWarp_thread (s : State) (wk wk2 t2 : Nat) :
    (s.retireWarp wk).thread wk2 t2 = s.thread wk2 t2 ∨ (s.retireWarp wk).thread wk2 t2 = { s.thread wk2 t2 with live := false } := by
  unfold retireWarp
  dsimp only
  split
  · exact .inl rfl
  · split
    · rw [setRun_thread, modThread_eq, setThread_thread]
      split
      · next h =>
        refine .inr ?_
        unfold State.thread
        rw [← h]
        rfl
      · exact .inl rfl
    · exact .inl rfl

/-- The barriers that an EXIT may complete release threads, and no more (R43, R194, R195). -/
theorem exitBarriers_unheld (v s0 : State) (bk : Nat) (ids : List Nat) (groups : State → List Nat) (wk2 t2 : Nat) :
    let u := foldS ids (v.exitFills s0 bk) (fun s id => s.barCheck bk id)
    ((foldS (groups u) u (fun s g => s.gbarCheck (s.block bk).lid g)).thread wk2 t2).unheld = (v.thread wk2 t2).unheld := by
  intro u
  have hrel : ∀ (s : State) (wk t : Nat), ((s.release wk t).thread wk2 t2).unheld = (s.thread wk2 t2).unheld :=
    fun s wk t => release_unheld s wk t wk2 t2
  calc ((foldS (groups u) u (fun s g => s.gbarCheck (s.block bk).lid g)).thread wk2 t2).unheld
      = (u.thread wk2 t2).unheld :=
      foldS_keeps (fun s => (s.thread wk2 t2).unheld) (fun s g _ => gbarCheck_keeps (fun s => (s.thread wk2 t2).unheld) hrel s _ g) u
    _ = ((v.exitFills s0 bk).thread wk2 t2).unheld :=
      foldS_keeps (fun s => (s.thread wk2 t2).unheld) (fun s id _ => barCheck_keeps (fun s => (s.thread wk2 t2).unheld) (fun _ _ _ => rfl) hrel s bk id) _
    _ = (v.thread wk2 t2).unheld := congrArg Thread.unheld (thread_congr (exitFills_threads v s0 bk) wk2 t2)

/-- What holds of a thread once the EXIT of a thread has marked its own, and depends neither on the hold nor is lost by its end, holds after the
EXIT: barriers that complete by it release threads, and the access slice of a warp that retires ends. -/
theorem exitThread_thread {P : Thread → Prop} {s : State} {wk t wk2 t2 : Nat} (hhold : ∀ x y : Thread, x.unheld = y.unheld → P x → P y)
    (hlive : ∀ x : Thread, P x → P { x with live := false }) (h : P ((s.modThread wk t Thread.exited).thread wk2 t2)) :
    P ((s.exitThread wk t).thread wk2 t2) := by
  have hretire : ∀ v : State, P (v.thread wk2 t2) → P ((if v.liveMask wk = 0 then v.retireWarp wk else v).thread wk2 t2) := by
    intro v hv
    split
    · rcases retireWarp_thread v wk wk2 t2 with hr | hr
      · rwa [hr]
      · rw [hr]
        exact hlive _ hv
    · exact hv
  have hleft := hretire _ h
  unfold exitThread
  dsimp only
  split
  · exact hleft
  · exact hhold _ _ (exitBarriers_unheld _ s (bkOf wk) (List.range 8)
      (fun s => (s.launch (s.block (bkOf wk)).lid).groups.map Prod.fst) wk2 t2).symm hleft

end State


/-- A thread that has ended, with `%tdst` as it was set (R340, R341). -/
def Thread.Ended (td : Word) (r : Thread) : Prop := r.live = false ∧ r.trap = none ∧ r.tdst = td

theorem Thread.Ended.of_unheld {td : Word} {x y : Thread} (h : x.unheld = y.unheld) (hx : x.Ended td) : y.Ended td :=
  ⟨(congrArg Thread.live h).symm.trans hx.1, (congrArg Thread.trap h).symm.trans hx.2.1, (congrArg Thread.tdst h).symm.trans hx.2.2⟩

namespace State

theorem exitThread_tdst (s : State) {wk t wk2 t2 : Nat} {td : Word} (h : (s.thread wk2 t2).tdst = td) :
    ((s.exitThread wk t).thread wk2 t2).tdst = td := by
  refine exitThread_thread (P := fun r => r.tdst = td) (fun x y hxy hx => ?_) (fun _ hx => hx) ?_
  · exact (congrArg Thread.tdst hxy).symm.trans hx
  · rw [modThread_eq, setThread_thread]
    split
    · next hk =>
      unfold State.thread at h ⊢
      rw [hk]
      exact h
    · exact h

theorem exitThread_keeps_ended {s : State} {wk t wk2 t2 : Nat} {td : Word} (h : (s.thread wk2 t2).Ended td) :
    ((s.exitThread wk t).thread wk2 t2).Ended td := by
  refine exitThread_thread (fun _ _ => Thread.Ended.of_unheld) (fun x ⟨_, htrap, htd⟩ => ⟨rfl, htrap, htd⟩) ?_
  rw [modThread_eq, setThread_thread]
  split
  · next hk =>
    refine ⟨rfl, rfl, ?_⟩
    unfold State.thread at h ⊢
    rw [hk]
    exact h.2.2
  · exact h

theorem exitThread_ends {s : State} {wk t : Nat} {td : Word} (h : (s.thread wk t).tdst = td) : ((s.exitThread wk t).thread wk t).Ended td := by
  refine exitThread_thread (fun _ _ => Thread.Ended.of_unheld) (fun x ⟨_, htrap, htd⟩ => ⟨rfl, htrap, htd⟩) ?_
  rw [modThread_eq, setThread_thread_self]
  exact ⟨rfl, rfl, h⟩

/-- Threads that EXIT one after another have all ended. -/
theorem foldExit_ended {wk t : Nat} {td : Word} {l : List Nat} (ht : t ∈ l) {s : State} (h : (s.thread wk t).tdst = td) :
    ((foldS l s (fun s u => s.exitThread wk u)).thread wk t).Ended td := by
  have hkeep : ∀ (l : List Nat) (s : State), (s.thread wk t).Ended td → ((foldS l s (fun s u => s.exitThread wk u)).thread wk t).Ended td := by
    intro l
    induction l with
    | nil => exact fun _ h => h
    | cons a l ih => exact fun s h => ih _ (exitThread_keeps_ended h)
  induction l generalizing s with
  | nil => cases ht
  | cons a l ih =>
    rcases List.mem_cons.1 ht with rfl | ht
    · exact hkeep l _ (exitThread_ends h)
    · exact ih ht (exitThread_tdst s h)

end State

end Sys2Proof.Machine
end

section
/-! SUPPORT. The choice of a delivery (R338, R339): of the pending traps the lowest kind, and of that kind the lowest PC. -/

namespace Sys2Proof.Machine

/-- The threads of a warp that pend a trap, each with its trap (R338). -/
def State.pending (s : State) (wk : Nat) : List (Nat × PTrap) := (s.trapped wk).filterMap (fun t => (s.thread wk t).trap.map (fun p => (t, p)))

/-- Those that pend one kind at one PC. -/
def State.pendingAt (s : State) (wk k : Nat) (pc : DWord) : List (Nat × PTrap) :=
  ((s.pending wk).filter (fun q => q.2.kind == k)).filter (fun q => q.2.pc.toNat == pc.toNat)

/-- A delivery of kind `k` at `pc` may come in a warp that is not stopped (R339, R341, R349): no thread is in handler state, and the kind, and then
the PC, is the lowest pending. -/
structure State.Delivers (s : State) (wk k : Nat) (pc : DWord) : Prop where
  going  : (s.warp wk).stopped = false
  free   : ∀ t < 32, (s.thread wk t).live = true → (s.thread wk t).inHandler = false
  kind   : k ≤ 15
  least  : ∀ q ∈ s.pending wk, k < q.2.kind ∨ (k = q.2.kind ∧ pc.toNat ≤ q.2.pc.toNat)
  pends  : ∃ q, q ∈ s.pendingAt wk k pc

/-- A thread takes its trap: its resume PC and `%tdst` are recorded, and it is held no more (R340). -/
def PTrap.take (p : PTrap) (r : Thread) : Thread := { r with tdst := p.tdst, resume := p.resume, trap := none, hold := .none }

/-- A thread enters handler state (R340). -/
def Thread.enter (a : DWord) (r : Thread) : Thread := { r with inHandler := true, pc := a }

/-- A delivery as far as the warp's special registers and the traps that its threads take (R340). -/
def State.takeTraps (s : State) (wk : Nat) (pc : DWord) (sel : List (Nat × PTrap)) : State :=
  foldS sel (s.modWarp wk (fun r => { r with tmask := maskOf (sel.map Prod.fst), tpc := pc })) (fun s q => s.modThread wk q.1 q.2.take)

/-- The rest of a delivery: with a handler the threads enter it, and with none they leave a record and end (R340, R341). -/
def State.enterOrEnd (s : State) (wk k : Nat) (pc : DWord) (sel : List (Nat × PTrap)) : State :=
  match s.handlerOf wk k with
  | some a => foldS sel s (fun s q => s.modThread wk q.1 (Thread.enter a))
  | none => foldS sel (s.record wk (maskOf (sel.map Prod.fst)) pc (match sel with | q :: _ => q.2.tdst.setWidth 64 | [] => 0) 0 0 0 k 1 0)
      (fun s q => s.exitThread wk q.1)

/-- The least value of a list that a bound does not undercut. -/
theorem foldl_min_eq {α : Type} (f : α → Nat) {l : List α} {m n : Nat} (hn : m ≤ n) (hl : ∀ a ∈ l, m ≤ f a) (hm : m = n ∨ ∃ a ∈ l, f a = m) :
    l.foldl (fun x a => min x (f a)) n = m := by
  induction l generalizing n with
  | nil =>
    rcases hm with hm | ⟨a, ha, -⟩
    · exact hm.symm
    · cases ha
  | cons a l ih =>
    have ha := hl a List.mem_cons_self
    refine ih (Nat.le_min.2 ⟨hn, ha⟩) (fun b hb => hl b (List.mem_cons_of_mem a hb)) ?_
    rcases hm with rfl | ⟨b, hb, hbm⟩
    · exact .inl (Nat.min_eq_left ha).symm
    · rcases List.mem_cons.1 hb with rfl | hb
      · exact .inl (hbm ▸ (Nat.min_eq_right (hbm ▸ hn)).symm)
      · exact .inr ⟨b, hb, hbm⟩

variable {s : State} {wk k : Nat} {pc : DWord}

theorem mem_pending {t : Nat} {p : PTrap} : (t, p) ∈ s.pending wk ↔ t < 32 ∧ (s.thread wk t).live = true ∧ (s.thread wk t).trap = some p := by
  simp only [State.pending, State.trapped, List.mem_filterMap, List.mem_filter, List.mem_range, Option.map_eq_some_iff, Bool.and_eq_true]
  constructor
  · rintro ⟨_, ⟨ht, hlive, -⟩, _, hp, he⟩
    cases he
    exact ⟨ht, hlive, hp⟩
  · rintro ⟨ht, hlive, hp⟩
    exact ⟨t, ⟨ht, hlive, by rw [hp]; rfl⟩, p, hp, rfl⟩

theorem mem_pendingAt {t : Nat} {p : PTrap} : (t, p) ∈ s.pendingAt wk k pc ↔
    (t < 32 ∧ (s.thread wk t).live = true ∧ (s.thread wk t).trap = some p) ∧ p.kind = k ∧ p.pc = pc := by
  simp only [State.pendingAt, List.mem_filter, mem_pending, beq_iff_eq, BitVec.toNat_inj, and_assoc]

theorem pendingAt_lt : ∀ q ∈ s.pendingAt wk k pc, q.1 < 32 := fun _ hq => (mem_pendingAt.1 hq).1.1

theorem pendingAt_trap : ∀ q ∈ s.pendingAt wk k pc, (s.thread wk q.1).trap = some q.2 := fun _ hq => (mem_pendingAt.1 hq).1.2.2

/-- Each thread is named once. -/
theorem pendingAt_nodup : ((s.pendingAt wk k pc).map Prod.fst).Nodup := by
  have hpend : ((s.pending wk).map Prod.fst).Nodup := by
    rw [State.pending, List.map_filterMap]
    refine (List.nodup_range.filter _).filterMap (fun a b c ha hb => ?_)
    simp only [Option.map_map, Option.mem_def, Option.map_eq_some_iff, Function.comp] at ha hb
    obtain ⟨_, -, rfl⟩ := ha
    obtain ⟨_, -, rfl⟩ := hb
    rfl
  exact hpend.sublist ((List.filter_sublist.trans List.filter_sublist).map _)

namespace State.Delivers

variable (h : s.Delivers wk k pc)
include h

theorem firstKind : (s.pending wk).foldl (fun m q => min m q.2.kind) 15 = k := by
  obtain ⟨q, hq⟩ := h.pends
  obtain ⟨hq, -⟩ := List.mem_filter.1 hq
  obtain ⟨hq, hkind⟩ := List.mem_filter.1 hq
  exact foldl_min_eq (fun q : Nat × PTrap => q.2.kind) h.kind
    (fun q hq => (h.least q hq).elim Nat.le_of_lt (fun e => Nat.le_of_eq e.1)) (.inr ⟨q, hq, by simpa using hkind⟩)

theorem firstPc : ((s.pending wk).filter (fun q => q.2.kind == k)).foldl (fun m q => min m q.2.pc.toNat) (2 ^ 64) = pc.toNat := by
  obtain ⟨q, hq⟩ := h.pends
  obtain ⟨hq, hqpc⟩ := List.mem_filter.1 hq
  refine foldl_min_eq (fun q : Nat × PTrap => q.2.pc.toNat) (Nat.le_of_lt pc.isLt) (fun q hq => ?_) (.inr ⟨q, hq, by simpa using hqpc⟩)
  obtain ⟨hq, hkind⟩ := List.mem_filter.1 hq
  rcases h.least q hq with hlt | ⟨-, hle⟩
  · exact absurd (by simpa using hkind) (Nat.ne_of_gt hlt)
  · exact hle

/-- Nothing holds the delivery up. -/
theorem guard :
    ¬ ((List.range 32).any (fun t => (s.thread wk t).live && (s.thread wk t).inHandler) ∨ s.pending wk = [] ∨ (s.warp wk).stopped) := by
  rintro (hany | hnil | hstop)
  · obtain ⟨t, ht, hboth⟩ := List.any_eq_true.1 hany
    obtain ⟨hlive, hin⟩ := Bool.and_eq_true_iff.1 hboth
    rw [h.free t (List.mem_range.1 ht) hlive] at hin
    cases hin
  · obtain ⟨q, hq⟩ := h.pends
    have hmem := (List.mem_filter.1 (List.mem_filter.1 hq).1).1
    rw [hnil] at hmem
    cases hmem
  · rw [h.going] at hstop
    cases hstop

/-- The delivery, its choice made (R339). -/
theorem deliver_eq : s.deliver wk = (s.takeTraps wk pc (s.pendingAt wk k pc)).enterOrEnd wk k pc (s.pendingAt wk k pc) := by
  let kd := (s.pending wk).foldl (fun m q => min m q.2.kind) 15
  let lowest := (s.pending wk).filter (fun q => q.2.kind == kd)
  let low := lowest.foldl (fun m q => min m q.2.pc.toNat) (2 ^ 64)
  let sel := lowest.filter (fun q => q.2.pc.toNat == low)
  have hkd : kd = k := h.firstKind
  have hlow : low = pc.toNat := by
    simp only [low, lowest, hkd]
    exact h.firstPc
  have hsel : sel = s.pendingAt wk k pc := by
    simp only [sel, lowest, hkd, hlow]
    rfl
  calc s.deliver wk = (s.takeTraps wk (BitVec.ofNat 64 low) sel).enterOrEnd wk kd (BitVec.ofNat 64 low) sel := if_neg h.guard
    _ = _ := by rw [hsel, hkd, hlow, BitVec.ofNat_toNat, BitVec.setWidth_eq]

end State.Delivers

/-! ### The threads and the warp afterwards -/

section
variable {sel : List (Nat × PTrap)} {t : Nat} (hb : ∀ q ∈ sel, q.1 < 32)
include hb

/-- Of distinct threads that are updated by their traps, each is updated by its own. -/
theorem foldTraps_thread {p : PTrap} (τ : Nat → Option PTrap) (hτ : ∀ q ∈ sel, τ q.1 = some q.2) (hn : (sel.map Prod.fst).Nodup) (hq : (t, p) ∈ sel)
    (g : PTrap → Thread → Thread) (u : State) :
    (foldS sel u (fun u q => u.modThread wk q.1 (g q.2))).thread wk t = g p (u.thread wk t) := by
  have hcongr : foldS sel u (fun u q => u.modThread wk q.1 (g q.2)) =
      foldS (sel.map Prod.fst) u (fun u t => u.modThread wk t ((τ t).elim id g)) := by
    rw [foldS_map]
    exact foldS_congr (fun u q hq => by rw [hτ q hq]; rfl) u
  have hbound : ∀ t ∈ sel.map Prod.fst, t < 32 := by
    intro t ht
    obtain ⟨q, hq, rfl⟩ := List.mem_map.1 ht
    exact hb q hq
  rw [hcongr, foldS_modThread (fun t => (τ t).elim id g) hn hbound (List.mem_map.2 ⟨_, hq, rfl⟩), hτ _ hq]
  rfl

/-- And any other thread stands as it did. -/
theorem foldTraps_thread_other (ht : t < 32) (hout : ∀ p, (t, p) ∉ sel) (g : PTrap → Thread → Thread) (u : State) :
    (foldS sel u (fun u q => u.modThread wk q.1 (g q.2))).thread wk t = u.thread wk t := by
  refine foldS_keeps (fun u => u.thread wk t) (fun u q hq => ?_) u
  have hne : ¬ tkey wk q.1 = tkey wk t := fun e => hout q.2 (((State.tkey_inj (hb q hq) ht).1 e).2 ▸ hq)
  simp [State.setThread_thread, hne]

end

theorem foldTraps_keeps {β : Type} (proj : State → β) (h : ∀ (s : State) (wk t : Nat) (x : Thread), proj (s.setThread wk t x) = proj s)
    (sel : List (Nat × PTrap)) (g : PTrap → Thread → Thread) (u : State) : proj (foldS sel u (fun u q => u.modThread wk q.1 (g q.2))) = proj u :=
  foldS_keeps proj (fun u q _ => h u wk q.1 _) u

theorem takeTraps_warp (sel : List (Nat × PTrap)) :
    (s.takeTraps wk pc sel).warp wk = { s.warp wk with tmask := maskOf (sel.map Prod.fst), tpc := pc } :=
  (foldTraps_keeps (fun s => s.warp wk) (fun _ _ _ _ => rfl) sel PTrap.take _).trans (State.setWarp_warp_self ..)

theorem takeTraps_handlerOf (sel : List (Nat × PTrap)) : (s.takeTraps wk pc sel).handlerOf wk k = s.handlerOf wk k := by
  have hlaunch : (s.takeTraps wk pc sel).launches = s.launches := foldTraps_keeps State.launches (fun _ _ _ _ => rfl) sel PTrap.take _
  unfold State.handlerOf State.launch
  rw [takeTraps_warp, hlaunch]

theorem takeTraps_thread {t : Nat} {p : PTrap} (h : (t, p) ∈ s.pendingAt wk k pc) :
    (s.takeTraps wk pc (s.pendingAt wk k pc)).thread wk t = p.take (s.thread wk t) :=
  foldTraps_thread pendingAt_lt (fun t => (s.thread wk t).trap) pendingAt_trap pendingAt_nodup h PTrap.take _

theorem takeTraps_thread_other {t : Nat} (ht : t < 32) (h : ∀ p, (t, p) ∉ s.pendingAt wk k pc) :
    (s.takeTraps wk pc (s.pendingAt wk k pc)).thread wk t = s.thread wk t :=
  foldTraps_thread_other pendingAt_lt ht h PTrap.take _

theorem enterOrEnd_handler {a : DWord} (sel : List (Nat × PTrap)) (h : s.handlerOf wk k = some a) : s.enterOrEnd wk k pc sel =
    foldS sel s (fun s q => s.modThread wk q.1 (Thread.enter a)) := by
  unfold State.enterOrEnd
  rw [h]

theorem enterOrEnd_none (sel : List (Nat × PTrap)) (h : s.handlerOf wk k = none) : s.enterOrEnd wk k pc sel =
    foldS (sel.map Prod.fst) (s.record wk (maskOf (sel.map Prod.fst)) pc (match sel with | q :: _ => q.2.tdst.setWidth 64 | [] => 0) 0 0 0 k 1 0)
      (fun s t => s.exitThread wk t) := by
  unfold State.enterOrEnd
  rw [h, foldS_map]

/-- The step of a delivery does what the delivery does to threads and warps; at most the run of an access slice that has ended goes (R282). -/
theorem trapDeliver_next (hm : s.mayDeliver wk = true) :
    ∃ u, exec (.trapDeliver wk) s = .next u ∧ (∀ wk2 t, u.thread wk2 t = (s.deliver wk).thread wk2 t) ∧
      ∀ wk2, u.warp wk2 = (s.deliver wk).warp wk2 := by
  refine ⟨_, if_neg (by simp [hm]), ?_, ?_⟩
  · intro wk2 t
    split
    · rfl
    · rfl
  · intro wk2
    split
    · rfl
    · rfl

/-- What `State.raise` does to a thread that is not in handler state (R338). -/
theorem raise_thread {t kind : Nat} {td : Word} (h : (s.thread wk t).inHandler = false) : (s.raise wk t kind pc td).thread wk t = { s.thread wk t with
    trap := some ⟨kind, pc, if kind = kFetch ∨ kind = kPois then pc else pc + 12, td⟩, hold := .trap } := by
  unfold State.raise
  simp [h]

/-- Settles O59: the premises fix the choice of the delivery, whose two folds then write each chosen thread once; with no handler every chosen
thread ends. -/
theorem trapDelivery : Obligations.TrapDelivery := by
  refine ⟨fun s wk t kind pc td _ hin => raise_thread hin, ?_⟩
  intro s wk k pc pends first hmay hgoing hfree hkind hleast hex
  have hfirst : ∀ t p, (t, p) ∈ s.pendingAt wk k pc ↔ first t p := fun t p => mem_pendingAt
  have hd : s.Delivers wk k pc := by
    obtain ⟨t, p, hp⟩ := hex
    exact ⟨hgoing, hfree, hkind, fun q hq => hleast q.1 q.2 (mem_pending.1 hq), ⟨(t, p), (hfirst t p).2 hp⟩⟩
  obtain ⟨u, hu, hthread, hwarp⟩ := trapDeliver_next hmay
  constructor
  · intro a ha
    have heq : s.deliver wk = _ := hd.deliver_eq.trans (enterOrEnd_handler _ ((takeTraps_handlerOf _).trans ha))
    have hw : u.warp wk = { s.warp wk with tmask := maskOf ((s.pendingAt wk k pc).map Prod.fst), tpc := pc } := by
      rw [hwarp, heq, ← takeTraps_warp]
      exact foldTraps_keeps (fun s => s.warp wk) (fun _ _ _ _ => rfl) _ (fun _ => Thread.enter a) _
    refine ⟨u, hu, by rw [hw], ?_, ?_, ?_⟩
    · intro t ht
      rw [hw, maskOf_getLsbD _ ht, decide_eq_true_iff, List.mem_map]
      constructor
      · rintro ⟨⟨t, p⟩, hq, rfl⟩
        exact ⟨p, (hfirst t p).1 hq⟩
      · rintro ⟨p, hp⟩
        exact ⟨(t, p), (hfirst t p).2 hp, rfl⟩
    · intro t p hp
      have hq := (hfirst t p).2 hp
      rw [hthread, heq, foldTraps_thread pendingAt_lt (fun t => (s.thread wk t).trap) pendingAt_trap pendingAt_nodup hq
        (fun _ => Thread.enter a), takeTraps_thread hq]
      rfl
    · intro t ht hnot
      have hout : ∀ p, (t, p) ∉ s.pendingAt wk k pc := fun p hq => hnot ⟨p, (hfirst t p).1 hq⟩
      rw [hthread, heq, foldTraps_thread_other pendingAt_lt ht hout (fun _ => Thread.enter a), takeTraps_thread_other ht hout]
  · intro ha
    refine ⟨u, hu, fun t p hp => ?_⟩
    have hq := (hfirst t p).2 hp
    rw [hthread, hd.deliver_eq, enterOrEnd_none _ ((takeTraps_handlerOf _).trans ha)]
    refine State.foldExit_ended (List.mem_map.2 ⟨_, hq, rfl⟩) ?_
    rw [State.record_thread, takeTraps_thread hq]
    rfl

end Sys2Proof.Machine
end

section
/-! SUPPORT. The mailbox and the comparators' counters (R322 to R324). -/

namespace Sys2Proof.Machine

/-- Entries of this cycle or later ones all wait on (R322). -/
theorem mboxEnter_later {clk : Nat} {l : List MEntry} (h : ∀ x ∈ l, clk ≤ x.cyc) (D : Die) : mboxEnter clk l D = { D with mboxWait := l } := by
  cases l with
  | nil => rfl
  | cons x l => exact if_pos (h x List.mem_cons_self)

/-- The one entry of an earlier cycle: it enters a queue with room; at a full one a host entry is lost and an entry of the device waits (R322). -/
theorem mboxEnter_first {clk : Nat} {m : MEntry} {l : List MEntry} (hm : m.cyc < clk) (h : ∀ x ∈ l, clk ≤ x.cyc) {D : Die}
    (hD : D.mboxWait = m :: l) : mboxEnter clk (m :: l) D =
      if D.mbox.length < 16 then { D with mbox := D.mbox ++ [m.e], mboxWait := l }
      else if m.idx = 5 then { D with ovr := true, mboxWait := l } else D := by
  unfold mboxEnter
  rw [if_neg (Nat.not_le.2 hm)]
  by_cases hroom : D.mbox.length < 16
  · rw [if_pos hroom, if_pos hroom, mboxEnter_later h]
  · rw [if_neg hroom, if_neg hroom]
    by_cases hhost : m.idx = 5
    · rw [if_pos hhost, if_pos hhost, mboxEnter_later h]
    · rw [if_neg hhost, if_neg hhost, mboxEnter_later h]
      show { D with mboxWait := m :: l } = D
      rw [← hD]

/-- A host's entry: CODE and DATA of the word written, SRC and VALID forced (R322). -/
theorem mboxEntry_host (x : DWord) : mboxEntry 1 (x.extractLsb' 52 8).toNat x.lo =
    BitVec.ofNat 64 (2 ^ 63 + 2 ^ 60 + (x.toNat / 2 ^ 52 % 256) * 2 ^ 52 + x.toNat % 2 ^ 32) := by
  have hcode : (x.extractLsb' 52 8).toNat % 256 = x.toNat / 2 ^ 52 % 256 := by
    rw [BitVec.extractLsb'_toNat, Nat.shiftRight_eq_div_pow]
    exact Nat.mod_mod _ _
  have hdata : x.lo.toNat = x.toNat % 2 ^ 32 := BitVec.toNat_setWidth ..
  rw [mboxEntry, hcode, hdata, Nat.one_mul]

/-- Settles O46: the first waiting entry is the only one of an earlier cycle; a host's write posts into an empty list. -/
theorem debugSteps : Obligations.DebugSteps := by
  refine ⟨?enter, ?host, ?ovr, ?limit⟩
  case enter =>
    intro die m l s hw hm hl
    have hmoves : (s.die die).mboxWait.any (fun m => m.cyc < s.clk) = true := by simp [hw, hm]
    refine ⟨_, congrArg Host.Outcome.next (if_pos hmoves), ?_⟩
    rw [State.modDie_eq, State.setDie_die_self, hw]
    exact mboxEnter_first hm hl hw
  case host =>
    intro die x s hw
    show Host.Outcome.next (s.hostMbox die x) = _
    rw [State.hostMbox, State.mboxPost, mboxEntry_host, State.modDie_eq, State.modDie_eq, hw]
    rfl
  case ovr =>
    intro die x s hx
    exact congrArg Host.Outcome.next (if_pos hx)
  case limit =>
    intro die c s hc hh
    show execTraceCounterLimit die s = _
    unfold execTraceCounterLimit
    rw [hc, if_pos rfl, hh]

end Sys2Proof.Machine
end

section
/-! SUPPORT. Power, temperature and fatal errors (R316, R398, R399). -/

namespace Sys2Proof.Machine

/-- A device that stops has stopped (R398). -/
theorem stopDevice_fatal (s : State) : s.stopDevice.fatal = true := by
  unfold State.stopDevice
  split
  · next h => exact h
  · rfl

theorem trip_fatal (s : State) (ptemp : Nat) : (s.trip ptemp).fatal = true := stopDevice_fatal _

section
variable {s : State} {pwr ptemp : Nat}

/-- With no emergency a tick moves the multiplier alone (R316). -/
theorem thermidorTick_calm (h : ptemp < 105) (hc : s.dev.coolantLost = false) : exec (.thermidorTick pwr ptemp) s = .next (
    let d : Dev := { s.dev with pwr := pwr, ptemp := ptemp, emergency := false }
    if s.dev.pcap.toNat % 64 < s.dev.m then s.setDev { d with m := s.dev.pcap.toNat % 64, hot := false }
    else if s.dev.plimit.toNat % 4096 < pwr ∨ 95 ≤ ptemp then s.setDev { d with m := max 16 (s.dev.m - 1), hot := true }
    else if pwr + 50 < s.dev.plimit.toNat % 4096 ∧ s.dev.m < s.dev.pcap.toNat % 64 then
      s.setDev { d with m := s.dev.m + 1, hot := s.dev.hot && s.dev.m + 1 < s.dev.pcap.toNat % 64 }
    else s.setDev { d with hot := s.dev.m < s.dev.pcap.toNat % 64 }) := by
  have htrip : ¬ 115 ≤ ptemp := by omega
  have hcool : decide (105 ≤ ptemp) = false := decide_eq_false (Nat.not_le.2 h)
  show execThermidorTick pwr ptemp s = _
  simp only [execThermidorTick, htrip, hcool, hc, Bool.or_false, Bool.false_eq_true, if_false, apply_ite Host.Outcome.next]

/-- While an emergency lasts, the multiplier is 16 (R399). -/
theorem thermidorTick_slow (htrip : ptemp < 115) (h : 105 ≤ ptemp ∨ s.dev.coolantLost = true) : exec (.thermidorTick pwr ptemp) s =
    .next (s.setDev { s.dev with pwr := pwr, ptemp := ptemp, emergency := 105 ≤ ptemp, m := 16, hot := true }) :=
  (if_neg (Nat.not_le.2 htrip)).trans (if_pos (by simpa using h))

end

/-- Settles O47: the premises of the tick's clauses are the branches of its rule; each fatal error stops the device. -/
theorem powerSteps : Obligations.PowerSteps := by
  refine ⟨?slow, ?trips, ?down, ?up, ?capped, ?stays, ?emergency, ?lost, ?back, ?trip, ?table, ?parity, ?downward, ?hop, ?module⟩
  case slow =>
    intro pwr ptemp s h
    exact thermidorTick_slow (by omega) (h.imp And.left And.right)
  case trips =>
    intro pwr ptemp s h
    exact ⟨_, if_pos h, trip_fatal s ptemp⟩
  case down =>
    intro pwr ptemp s h hc hcap hdown
    rw [thermidorTick_calm h hc]
    simp only [if_neg (Nat.not_lt.2 hcap), if_pos hdown]
  case up =>
    intro pwr ptemp s h hc hcap hroom
    have hkeep : ¬ (s.dev.plimit.toNat % 4096 < pwr ∨ 95 ≤ ptemp) := by omega
    rw [thermidorTick_calm (by omega) hc]
    simp only [if_neg (Nat.lt_asymm hcap), if_neg hkeep, if_pos (And.intro hroom hcap)]
  case capped =>
    intro pwr ptemp s h hc hcap
    rw [thermidorTick_calm h hc]
    simp only [if_pos hcap]
  case stays =>
    intro pwr ptemp s h hc hcap hpwr hfull
    have hkeep : ¬ (s.dev.plimit.toNat % 4096 < pwr ∨ 95 ≤ ptemp) := by omega
    have hroom : ¬ (pwr + 50 < s.dev.plimit.toNat % 4096 ∧ s.dev.m < s.dev.pcap.toNat % 64) := fun ⟨hp, hm⟩ => Nat.ne_of_lt hm (hfull hp)
    rw [thermidorTick_calm (by omega) hc]
    simp only [if_neg (Nat.not_lt.2 hcap), if_neg hkeep, if_neg hroom]
  case emergency =>
    intro ptemp alarm s h
    exact if_pos (by simpa using h)
  case lost => exact fun _ => rfl
  case back => exact fun _ => rfl
  case trip =>
    intro ptemp s h
    exact ⟨_, if_pos h, trip_fatal s ptemp⟩
  case table => exact fun s => ⟨_, rfl, stopDevice_fatal s⟩
  case parity => exact fun _ s => ⟨_, rfl, stopDevice_fatal s⟩
  case downward => exact fun _ s => ⟨_, rfl, stopDevice_fatal s⟩
  case hop =>
    intro hop s h
    exact if_neg (by simpa using h)
  case module =>
    intro m s hm u
    have hmodule : ¬ 40 ≤ m := Nat.not_le.2 hm
    refine ⟨if_neg hmodule, if_neg hmodule, ?_⟩
    intro i a ha hstuck hcross
    have hacc : u.acc i = some a := ha
    have hpacket : (a.stuck.isNone && u.crosses m a) = true := by
      rw [hstuck]
      exact hcross
    refine (if_neg hmodule).trans (congrArg Host.Outcome.next ?_)
    show (match u.acc i with
      | none => u
      | some a => if a.stuck.isNone && u.crosses m a then u.setAcc i (some { a with stuck := some m }) else u) = _
    rw [hacc]
    exact if_pos hpacket

end Sys2Proof.Machine
end

section
/-! SUPPORT. The words of a running schedule (R297, R298): what a word comes to where its link is up and its chunk or its room is there. -/

namespace Sys2Proof.Machine

variable {s : State} {r : SRun}

section
variable {i : Instr} {body : Nat → SRun → State → WordRes} {r2 : SRun} {t : State} (hr : Running s r)
include hr

/-- A word of a running schedule that is done: the schedule goes on in a later cycle (R297; log 69). -/
theorem wordStep_next (h : body s.sfocus r s = .next r2 t) : s.wordStep body = .next (s.wordDone t r2) := by
  obtain ⟨hrun, hphase, hstop⟩ := hr
  rw [State.wordStep, hrun]
  simp only [hphase, hstop, h, ne_eq, not_true_eq_false, Bool.false_eq_true, or_self, if_false]
  rfl

/-- A word that waits, the rest of the device changed, keeps its timer (R391). -/
theorem wordStep_part (h : body s.sfocus r s = .part r2 t) : s.wordStep body = .next (t.setSRun s.sfocus (some (r2.waiting s.dev.now))) := by
  obtain ⟨hrun, hphase, hstop⟩ := hr
  rw [State.wordStep, hrun]
  simp only [hphase, hstop, h, ne_eq, not_true_eq_false, Bool.false_eq_true, or_self, if_false]

theorem word_done (he : exec i s = s.wordStep body) (h : body s.sfocus r s = .next r2 t) : exec i s = .next (s.wordDone t r2) :=
  he.trans (wordStep_next hr h)

theorem word_part (he : exec i s = s.wordStep body) (h : body s.sfocus r s = .part r2 t) :
    exec i s = .next (t.setSRun s.sfocus (some (r2.waiting s.dev.now))) := he.trans (wordStep_part hr h)

end

theorem wordSend_room {port buf sid : Nat} {c : ChunkRef} (hup : s.linkUp port = true) (hclean : r.spoils buf (r.chunkNo c buf) = false)
    (hroom : s.sendRoom port (r.toSend (r.chunk buf (r.chunkNo c buf))) = true) : wordSend port c buf sid r s =
      .next r.adv (s.sendChunk port sid (bufFmt (r.buf buf)) (r.toSend (r.chunk buf (r.chunkNo c buf))) (r.chunk buf (r.chunkNo c buf))) := by
  simp [wordSend, hup, hclean, hroom]

theorem wordRecv_takes {port buf sid : Nat} {c : ChunkRef} {x : Chunk} {u : State} (hup : s.linkUp port = true)
    (hx : s.takeChunk port sid = some (x, u)) (ht : r.takes buf x = true) :
    wordRecv port c buf sid r s = .next (r.putChunk buf (r.chunkNo c buf) (wordsLE x.data)).adv u := by
  simp [wordRecv, hup, hx, ht]

theorem wordSignal_flows {port : Nat} {idx : BitVec 8} {x : Word} (hflows : s.linkFlows port = true) :
    wordSignal port true idx x r s = .next r.adv (s.emit (.signal port idx x)) := by
  have hup : s.linkUp port = true := (Bool.and_eq_true_iff.1 hflows).1
  simp [wordSignal, hup, hflows]

theorem wordForward_room {fwd buf k sid : Nat} {l : List Word} (hup : s.linkUp fwd = true) (hroom : s.sendRoom fwd (r.toSend l) = true) :
    wordForward fwd buf k sid l r s = .next (r.putChunk buf k l).adv (s.sendChunk fwd sid (bufFmt (r.buf buf)) (r.toSend l) l) := by
  simp [wordForward, hup, hroom]

/-- A chunk that fits a receive buffer waits for room as a whole. -/
theorem wordForward_full {fwd buf k sid : Nat} {l : List Word} (hup : s.linkUp fwd = true) (hroom : s.sendRoom fwd (r.toSend l) = false)
    (hfits : 4 * l.length ≤ 262144) : wordForward fwd buf k sid l r s = .wait r := by
  simp [wordForward, waitRoom, hup, hroom, Nat.not_lt.2 hfits]

/-- What RED reduces (R298). -/
def SRun.reduce (r : SRun) (rop : Rop) (c : ChunkRef) (buf : Nat) (x : Chunk) : List Word :=
  List.zipWith (ropStage rop) (r.chunk buf (r.chunkNo c buf)) (wordsLE x.data)

/-- A RED that has reduced and forwards, with a timer of its own from now on (log 70). -/
def SRun.forwarding (r : SRun) (l : List Word) (now : Nat) : SRun := { r with fwd := some l, tword := some now }

/-- A forward that waits has taken its chunk already. -/
def WordRes.partly (u : State) : WordRes → WordRes
  | .wait r => .part r u
  | w => w

section
variable {port buf fwd sid : Nat} {c : ChunkRef} {rop : Rop} {x : Chunk} {u : State} {l : List Word}
  (hup : s.linkUp port = true) (hfwd : r.fwd = none) (hx : s.takeChunk port sid = some (x, u)) (ht : r.takes buf x = true)
  (hclean : r.spoils buf (r.chunkNo c buf) = false) (hl : r.reduce rop c buf x = l)
include hup hfwd hx ht hclean hl

/-- RED without a forward: the chunk taken, what it reduces is staged (R298). -/
theorem wordRed_keeps (h31 : fwd = 31) : wordRed port c buf fwd rop sid r s = .next (r.putChunk buf (r.chunkNo c buf) l).adv u := by
  subst h31 hl
  simp only [wordRed, hup, hfwd, hx, ht, hclean, Bool.not_true, bne_self_eq_false, Bool.false_and, Bool.or_self, Bool.false_eq_true, if_false,
    if_true, SRun.reduce]

/-- RED with a forward: the chunk taken, what it reduces is forwarded (R298). -/
theorem wordRed_forward (h31 : fwd ≠ 31) (hfup : s.linkUp fwd = true) : wordRed port c buf fwd rop sid r s =
    (wordForward fwd buf (r.chunkNo c buf) sid l (r.forwarding l s.dev.now) u).partly u := by
  subst hl
  simp only [wordRed, hup, hfwd, hx, ht, hclean, h31, hfup, Bool.not_true, Bool.and_false, Bool.or_self, Bool.false_eq_true, if_false]
  rfl

end

/-- Taking a chunk out of a port's buffer leaves links as they are. -/
theorem takeChunk_linkUp {port sid : Nat} {x : Chunk} {u : State} (h : s.takeChunk port sid = some (x, u)) (p : Nat) : u.linkUp p = s.linkUp p := by
  unfold State.takeChunk at h
  split at h
  · cases h
  · cases h
    unfold State.linkUp
    rw [State.emit_port, State.modPort_eq, State.setPort_port]
    split
    · next hp => rw [hp]
    · rfl

/-- Settles O35: each word is a step of the schedule in focus, and its premises leave one branch of what it comes to. -/
theorem scheduleWords : Obligations.ScheduleWords := by
  intro s r hr
  refine ⟨?nop, ?send, ?recv, ?red, ?forward, ?copy, ?waitCount, ?waitTime, ?signal, ?signalPeer, ?loopBack, ?loopOut, ?last⟩
  case nop => exact word_done hr (body := fun _ r s => wordNop r s) rfl rfl
  case send =>
    intro p c b t l hup hclean hroom
    refine word_done hr rfl ?_
    exact wordSend_room hup hclean hroom
  case recv =>
    intro p c b t x u hup hx ht
    refine word_done hr rfl ?_
    exact wordRecv_takes hup hx ht
  case red =>
    intro p c b t f rop x u hup hfwd hx ht hclean l
    refine ⟨?keeps, ?forwards, ?waits⟩
    case keeps =>
      intro h31
      exact word_done hr rfl (wordRed_keeps hup hfwd hx ht hclean rfl h31)
    case forwards =>
      intro h31 hfup hroom
      refine word_done hr (r2 := ((r.forwarding l s.dev.now).putChunk b.toNat (r.chunkNo c b.toNat) l).adv) rfl ?_
      exact (wordRed_forward hup hfwd hx ht hclean rfl h31 hfup).trans
        (congrArg (WordRes.partly u) (wordForward_room (r := r.forwarding l s.dev.now) ((takeChunk_linkUp hx _).trans hfup) hroom))
    case waits =>
      intro h31 hfup hroom hfits
      refine word_part hr (r2 := r.forwarding l s.dev.now) rfl ?_
      exact (wordRed_forward hup hfwd hx ht hclean rfl h31 hfup).trans
        (congrArg (WordRes.partly u) (wordForward_full (r := r.forwarding l s.dev.now) ((takeChunk_linkUp hx _).trans hfup) hroom hfits))
  case forward =>
    intro p c b t f rop l hfup hfwd hroom
    refine word_done hr rfl ?_
    unfold wordRed
    rw [hfwd]
    exact wordForward_room hfup hroom
  case copy =>
    intro dst db src sb hclean
    exact word_done hr (body := fun _ r s => wordCopy dst db.toNat src sb.toNat r s) rfl (if_neg (Bool.eq_false_iff.1 hclean))
  case waitCount =>
    intro p i x h
    exact word_done hr (body := fun _ r s => wordWait p.toNat false i.toNat x r s) rfl (if_neg (Nat.not_lt.2 h))
  case waitTime =>
    intro p i x h
    exact word_done hr (body := fun _ r s => wordWait p.toNat true i.toNat x r s) rfl (if_neg (Nat.not_lt.2 h))
  case signal =>
    intro p i x
    exact word_done hr (body := fun _ r s => wordSignal p.toNat false i x r s) rfl rfl
  case signalPeer =>
    intro p i x hflows
    exact word_done hr (body := fun _ r s => wordSignal p.toNat true i x r s) rfl (wordSignal_flows hflows)
  case loopBack =>
    intro n t h
    exact word_done hr (body := fun _ r s => wordLoop n.toNat t.toNat r s) rfl (if_pos h)
  case loopOut =>
    intro n t h
    exact word_done hr (body := fun _ r s => wordLoop n.toNat t.toNat r s) rfl (if_neg (Nat.not_lt.2 h))
  case last =>
    obtain ⟨hrun, hphase, hstop⟩ := hr
    show execFlorealEnd s = _
    unfold execFlorealEnd
    rw [hrun]
    exact if_neg (by simp [hphase, hstop])

end Sys2Proof.Machine
end

section
/-! SUPPORT. Entries, arrivals, the sequencer's starts and fabric time (R284 to R300, R308): the branch that each step's premises leave. -/

namespace Sys2Proof.Machine

variable {s : State} {port sid : Nat}

/-! ### Traffic of a link (R288, R299) -/

theorem traffic_heldBack (h : s.heldBack port = true) (x : Traffic) : s.traffic port x = s.modPort port (fun P => { P with behind := P.behind ++ [x] }) :=
  if_pos h

theorem traffic_lands (h : s.heldBack port = false) (x : Traffic) : s.traffic port x = s.landTraffic port x := if_neg (Bool.eq_false_iff.1 h)

/-- A write that overlaps no held arrival and that no page stops is performed. -/
theorem landTraffic_write {a : Arrival} {u : State} (hheld : (s.port port).held = []) (ha : s.arrive port a = (u, none)) :
    s.landTraffic port (.write a) = u := by
  simp only [State.landTraffic, hheld, List.any_nil, Bool.false_eq_true, if_false, ha]

theorem schedSignalArrive_up (h : s.linkUp port = true) (idx : BitVec 8) (x : Word) :
    exec (.schedSignalArrive port idx x) s = .next (s.traffic port (.signal idx x)) := if_pos h

theorem remoteWriteArrive_up (h : s.linkUp port = true) (rva : DWord) (rop : Option Rop) (data : List Byte) (rc : Option (BitVec 8)) :
    exec (.remoteWriteArrive port rva rop data rc) s = .next (s.traffic port (.write ⟨s.inAsid port, rva, rop, data, rc, false, none⟩)) := if_pos h

/-- A chunk for which the receive buffer has room (R299, R391). -/
theorem chunkArrive_room (h : s.linkUp port = true) {data : List Byte} (hroom : s.rxUsed port + data.length ≤ 262144) (fmt : BitVec 2) :
    exec (.chunkArrive port sid fmt data) s = .next (s.traffic port (.chunk ⟨sid % 256, fmt, data⟩)) := if_pos (by simp [h, hroom])

/-! ### Starts and timers of schedules (R299, R391) -/

theorem schedStart_oldest {x : SStart} {q : List SStart} (hrun : (s.sched sid).run = none) (hq : (s.sched sid).queue = x :: q) :
    exec (.schedStart sid) s = .next ((s.setSched sid { s.sched sid with queue := q }).schedLoad sid (x.fresh (s.ftime x.port))) := by
  show execSchedStart sid s = _
  simp only [execSchedStart, hrun, hq]

theorem schedStart_again {r : SRun} (hrun : (s.sched sid).run = some r) (hphase : r.phase = .starting) (hstop : r.stopped = false) :
    exec (.schedStart sid) s = .next (s.schedLoad sid r) := by
  show execSchedStart sid s = _
  simp only [execSchedStart, hrun, hphase, hstop, Bool.not_false, and_self, if_true]

/-- A word that still waits when its limit has passed fails its schedule (R391). -/
theorem stepTimeout_fails {n t : Nat} {i : Instr} {r r2 : SRun} (hrun : (s.sched sid).run = some r) (hphase : r.phase = .running)
    (hstop : r.stopped = false) (hword : r.word = some i) (htimer : r.tword = some t) (hlimit : s.wordLimit i = some n)
    (htry : s.wordTry sid r i = .wait r2) (hpast : t + n ≤ s.dev.now) : exec (.florealStepTimeout sid) s = .next (s.schedEnd sid r eTIMEOUT) := by
  show execFlorealStepTimeout sid s = _
  simp only [execFlorealStepTimeout, hrun, hphase, hstop, hword, htimer, hlimit, htry, hpast, ne_eq, not_true_eq_false, Bool.false_eq_true, or_self,
    if_false, if_true]

/-- A WAIT on fabric time that has come ends (R298). -/
theorem waitTimeExpiry_done {p : BitVec 5} {i : BitVec 8} {x : Word} {r : SRun} (hr : Running { s with sfocus := sid } r)
    (hword : r.word = some (.florealWait p true i x)) (h : r.tstart.toNat + x.toNat ≤ (s.ftime r.start.port).toNat) :
    exec (.florealWaitTimeExpiry sid) s = .next (({ s with sfocus := sid } : State).wordDone { s with sfocus := sid } { r with
      pc := r.pc + 1, late := r.late || (r.tword.isNone && r.tstart.toNat + x.toNat < (s.ftime r.start.port).toNat) }) := by
  have hrun : (s.sched sid).run = some r := hr.1
  show execFlorealWaitTimeExpiry sid s = _
  simp only [execFlorealWaitTimeExpiry, hrun, hword]
  exact wordStep_next hr (body := fun _ r s => wordWait p.toNat true i.toNat x r s) (if_neg (Nat.not_lt.2 h))

/-! ### Fabric time (R308, R387) -/

/-- Counting a skew leaves open which of two ports follows the other. -/
theorem skew_adoptsTime : (s.modPort port (fun P => { P with skews := P.skews + 1 })).adoptsTime port = s.adoptsTime port := by
  unfold State.adoptsTime
  rw [State.modPort_eq, State.setPort_port_self]
  rfl

theorem timeExchange_skew {peer : DWord} (hup : s.linkUp port = true)
    (hfar : (s.ftime port).toNat + 100 < peer.toNat ∨ peer.toNat + 100 < (s.ftime port).toNat) (hleads : s.adoptsTime port = false) :
    exec (.fabricTimeExchange port peer) s = .next (s.modPort port (fun P => { P with skews := P.skews + 1 })) := by
  have hfar2 : ((s.ftime port).toNat + 100 < peer.toNat || peer.toNat + 100 < (s.ftime port).toNat) = true := by simpa using hfar
  show execFabricTimeExchange port peer s = _
  unfold execFabricTimeExchange
  simp only [hup, hfar2, skew_adoptsTime, hleads, Bool.not_true, Bool.false_and, Bool.false_eq_true, if_false, if_true]

theorem timeExchange_adopts {peer : DWord} (hup : s.linkUp port = true) (hahead : (s.ftime port).toNat < peer.toNat)
    (hnear : peer.toNat ≤ (s.ftime port).toNat + 100) (hfollows : s.adoptsTime port = true) :
    exec (.fabricTimeExchange port peer) s = .next (s.adoptTime port peer false) := by
  have hnear2 : ((s.ftime port).toNat + 100 < peer.toNat || peer.toNat + 100 < (s.ftime port).toNat) = false := by
    simp only [Bool.or_eq_false_iff, decide_eq_false_iff_not]
    omega
  show execFabricTimeExchange port peer s = _
  unfold execFabricTimeExchange
  simp only [hup, hnear2, hfollows, hahead, Bool.not_true, Bool.and_self, decide_true, Bool.false_eq_true, if_false, if_true]

/-- Settles O42: what arrives at a link that is up is traffic, which is held back or lands; each other step takes the one branch that its premises
leave. -/
theorem collectiveSteps : Obligations.CollectiveSteps := by
  refine ⟨?fire, ?complete, ?write, ?behind, ?signal, ?oldest, ?again, ?expiry, ?timeout, ?chunk, ?space, ?skew, ?adopts, ?down⟩
  case fire => exact fun _ _ => rfl
  case complete =>
    intro port idx err s hst hsent hfin
    exact if_pos ⟨hst, hsent, by simp [hfin]⟩
  case write =>
    intro port rva rop data rc s u hup hfree hheld ha
    rw [remoteWriteArrive_up hup, traffic_lands hfree, landTraffic_write hheld ha]
  case behind =>
    intro port s hup hback
    refine ⟨?_, ?_, ?_⟩
    · intro rva rop data rc
      rw [remoteWriteArrive_up hup, traffic_heldBack hback]
    · intro idx x
      rw [schedSignalArrive_up hup, traffic_heldBack hback]
    · intro sid fmt data hroom
      rw [chunkArrive_room hup hroom, traffic_heldBack hback]
  case signal =>
    intro port idx x s hup hfree
    rw [schedSignalArrive_up hup, traffic_lands hfree]
    rfl
  case oldest => exact fun _ _ _ _ => schedStart_oldest
  case again => exact fun _ _ _ => schedStart_again
  case expiry => exact fun _ _ _ _ _ _ => waitTimeExpiry_done
  case timeout => exact fun _ _ _ _ _ _ _ => stepTimeout_fails
  case chunk =>
    intro port sid fmt data s hup hfree hroom
    rw [chunkArrive_room hup hroom, traffic_lands hfree]
    rfl
  case space => exact fun _ _ _ => rfl
  case skew => exact fun _ _ _ => timeExchange_skew
  case adopts => exact fun _ _ _ => timeExchange_adopts
  case down =>
    intro port s hup
    have hflows : ¬ (!s.linkUp port) = true := by simp [hup]
    exact ⟨if_pos hup, if_neg hflows, if_neg hflows⟩

end Sys2Proof.Machine
end
